-- ==== Sys2Proof/Word.lean ====
section
/-! DEFINITION. The plain types the model is written in: words, bytes, lane masks, and the sparse
table type. The operations on tables are in Machine/Table.lean. -/
namespace Sys2Proof

/-- A byte (R3: memory is byte addressed, little-endian). -/
abbrev Byte := BitVec 8
/-- A 32-bit lane value (R31). -/
abbrev Word := BitVec 32
/-- A 64-bit scalar, address or core word (R31, R53). -/
abbrev Dword := BitVec 64
/-- A set of lanes, bit l for lane l (R41). -/
abbrev LaneMask := BitVec 32
/-- The 64 bytes of a line (R222). Byte i is bits 8i+7 : 8i. -/
abbrev LineData := BitVec 512

/-- A table of entries with natural-number keys, listed with keys strictly rising. A key that is
not listed holds the table's default, or nothing. -/
abbrev Map (α : Type) := List (Nat × α)

end Sys2Proof
end

