-- ==== Sys2Proof/Syntax.lean ====
section
/-! DEFINITION. The instructions, commands and steps of the device: one constructor of `Instr` per row
of spec/opcode_table.json. Core words carry the fields of their form (R54, R55), compact words those of
their shape (R65), stream commands those of R68. Steps that no word encodes carry what names the thing
they act on, or the data that the outside world supplies. -/
namespace Sys2Proof

/-- The operand types of R11 and R12. Codes 13 to 15 are reserved and have no constructor. -/
inductive Ty where
  | b32 | i32 | n32 | i64 | n64 | f32 | f16 | bf16 | e4m3 | e5m2 | e2m1 | i8 | n8
  deriving DecidableEq, Repr

/-- The rounding modes of R17. -/
inductive Rm where
  | rne | rz | ru | rd
  deriving DecidableEq, Repr

/-- The scopes of R60. -/
inductive Scope where
  | blk | clu | dev | sys
  deriving DecidableEq, Repr

/-- The orders of R60. -/
inductive Order where
  | rlx | acq | rel | ar | sc
  deriving DecidableEq, Repr

/-- The guard of a core word: predicate p[pg], negated by pn (R54). -/
structure Guard where
  pg : BitVec 3
  pn : Bool
  deriving DecidableEq, Repr

/-- The second and third operand of a Form V word, or the immediate of a Form I word that replaces both
(R55). `sb` and `sc` make b and c scalar selections. -/
inductive Tail where
  | regs (b c : BitVec 8) (sb sc : Bool)
  | imm (imm16 : BitVec 16)
  deriving DecidableEq, Repr

/-- The fields of a Form V or Form I word (R54, R55). -/
structure FormV where
  g : Guard
  u : Bool
  d : BitVec 8
  a : BitVec 8
  tail : Tail
  ty : Ty
  rm : Rm
  sat : Bool
  x : BitVec 4
  deriving DecidableEq, Repr

/-- The fields of a Form L word (R54, R55). -/
structure FormL where
  g : Guard
  u : Bool
  d : BitVec 8
  imm : BitVec 32
  x : BitVec 6
  deriving DecidableEq, Repr

/-- The fields of a Form M word (R54, R55, R57). -/
structure FormM where
  g : Guard
  ix : Bool
  d : BitVec 8
  size : BitVec 2
  base : BitVec 6
  b : BitVec 8
  off : BitVec 12
  scope : Scope
  order : Order
  hint : BitVec 4
  deriving DecidableEq, Repr

/-- The fields of a Form B word (R55, R58). -/
structure FormB where
  g : Guard
  u : Bool
  k : BitVec 8
  disp : BitVec 32
  x : BitVec 6
  deriving DecidableEq, Repr

/-- The fields of a shape K compact word (R65). -/
structure KRegs where
  d : BitVec 5
  a : BitVec 5
  b : BitVec 5
  deriving DecidableEq, Repr

/-- The fields of a shape J or Q compact word (R65). -/
structure KImm where
  d : BitVec 5
  a : BitVec 5
  imm : BitVec 16
  deriving DecidableEq, Repr

/-- The fields of a stream command besides its code (R68). -/
structure StreamCmd where
  port : BitVec 8
  flags : BitVec 16
  base : BitVec 48
  pattern : BitVec 48
  deriving DecidableEq, Repr

/-- The FU operations of R195. -/
inductive FuOp where
  | fadd | fmul | ffma | fmax | fmin | bfma2 | f8dot4 | iadd | isub | imul | imad | and
  | or | xor | shl | shr | cmp | sel | acc | merge | steer | repeat | count | agen
  | tag | untag | tagck | hash | owner | ldt | stt | fifo | mcast | ctlSeq | ctlPipe | ctlStream
  deriving DecidableEq, Repr

/-- The task of an element of a region instance, by image coordinates (R254, R260). -/
structure FuSite where
  inst : Nat
  x : Nat
  y : Nat
  task : Nat
  deriving DecidableEq, Repr

/-- A strand-table entry of a group slot (R204). -/
structure StrandRef where
  core : Nat
  slot : Nat
  entry : Nat
  deriving DecidableEq, Repr

/-- One hop of one branch of a route of an instance (R265). Hop 0 is the move of the source's head into
the first hop of every branch (R277). -/
structure RouteRef where
  inst : Nat
  route : Nat
  branch : Nat
  hop : Nat
  deriving DecidableEq, Repr

/-- The operators of atomics (R122) and near-memory requests (R181). -/
inductive AtomicOp where
  | add | min | max | and | or | xor | xchg | cas | fadd | fmin | fmax | bfadd2 | wr | bfmax2
  deriving DecidableEq, Repr

/-- A gate-table entry (R155), its bytes as fields. -/
structure GateEntry where
  entry : Dword
  callers : Dword
  stack : Dword
  target : Byte
  va : Byte
  sa : Byte
  vr : Byte
  sr : Byte
  flags : Byte
  reserved : BitVec 16
  deriving DecidableEq, Repr

/-- Who asks the management Curator (R351, R399): software of a domain, or the host through SPDM. -/
inductive Requester where
  | domain (d : Nat)
  | host
  deriving DecidableEq, Repr

/-- A signed firmware image (R395): the header's fields and the body. -/
structure Image where
  magic : BitVec 32
  version : BitVec 16
  kind : Byte
  svn : Byte
  loadOffset : Dword
  digest : BitVec 512
  key : Byte
  /-- Bytes 89 to 95. -/
  reserved : Nat
  signature : Nat
  /-- Bytes 1,376 to 1,407. -/
  reservedEnd : Nat := 0
  body : List Byte
  deriving DecidableEq, Repr

/-- A request to create a domain (R332, R399): its entry, its granules, and whether it is a service domain, which is
created from the image of the kind 3 slots (R396). -/
structure DomainRequest where
  requester : Requester
  domain : Nat
  manager : Nat
  controlBlock : Dword
  faultQueue : Dword
  granules : List Nat
  service : Bool
  deriving DecidableEq, Repr

/-- A request for a peer grant (R377). -/
structure GrantRequest where
  requester : Requester
  domain : Nat
  base : Nat
  length : Nat
  peer : Nat
  peerDomain : Nat
  r : Bool
  w : Bool
  a : Bool
  deriving DecidableEq, Repr

/-- A message between management Curators (R377). -/
inductive GrantMessage where
  | install (grant peer domain base length : Nat) (r w a : Bool)
  | reply (grant : Nat)
  | clear (grant peer : Nat)
  | cleared (grant : Nat)
  | released (grant peer : Nat)
  deriving DecidableEq, Repr

/-- What a peer device asks of this one (R376, R378). -/
inductive PeerAccess where
  | read (size : Nat)
  | write (bytes : List Byte)
  | atomic (op : AtomicOp) (size : Nat) (value cmp : Dword)
  deriving DecidableEq, Repr

/-- A request that arrives over the Spire link (R376). -/
structure PeerRequest where
  device : Nat
  domain : Nat
  pa : Nat
  /-- The sender's leaf is an N page, so the access is for an owner node (R378). -/
  near : Bool
  access : PeerAccess
  deriving DecidableEq, Repr

/-- The units that fail training or scrub at stage 2 (R392). -/
structure TrainingReport where
  clusters : List Nat
  stackList : List Nat
  dies : List Nat
  ports : List Nat
  deriving DecidableEq, Repr

/-- What patrol scrub finds in a line: nothing, an error that it corrects, one that it cannot correct, or a tag that fails
(R400, R406, R409). -/
inductive ScrubResult where
  | clean | corrected | uncorrectable | badTag
  deriving DecidableEq, Repr

/-- An array of the module that ECC protects, as far as its errors are counted and recorded (R406, R408, R409): a line of HBM, a
line in its L2 slice, an array of a core, a memory tile or frame store of an Annex column, or the queue and staging store of an
owner node. -/
inductive ArrayUnit where
  | hbm (line : Nat)
  | l2 (line : Nat)
  | core (core : Nat)
  | annex (die column : Nat)
  | node (die node : Nat)
  deriving DecidableEq, Repr

/-- Who asks for a report, with the user data (R401): the host, or a domain, which has it written to an address of its memory. -/
inductive ReportUser where
  | host (data : List Byte)
  | domain (d : Nat) (va : Dword) (data : List Byte)
  deriving DecidableEq, Repr

/-- A request to power down channels of a stack (R417): the first channel and how many (a channel in
self-refresh, a channel pair, or the four channels of a controller island). -/
structure PowerRequest where
  die : Nat
  channel : Nat
  count : Nat
  deriving DecidableEq, Repr

/-- The host's answer to a `.sys` store that was written through: global observation, or an error (R372, R373). -/
structure Observation where
  msg : Nat
  error : Bool
  deriving DecidableEq, Repr

/-- A host window (R370). -/
structure HostWindow where
  hpa : Nat
  length : Nat
  pa : Nat
  domain : Nat
  flags : Byte
  reserved : Nat
  deriving DecidableEq, Repr

/-- One constructor per row of spec/opcode_table.json. -/
inductive Instr where
  /-- R85. Control instruction with no effect. -/
  | nop (f : FormV)
  /-- R87. Strand-wide branch to a PC-relative target. -/
  | bra (f : FormB)
  /-- R88. Divergent branch: splits the strand and ejects the smaller side in continuation mode, or pushes the reconvergence stack in stack mode. -/
  | brd (f : FormB)
  /-- R87. Indirect branch to a scalar selection; raises ALIGN if the target is misaligned. -/
  | brx (f : FormV)
  /-- R92. Writes the return address to the link register and branches. -/
  | call (f : FormB)
  /-- R92. Indirect call: reads the target, writes the link, then branches. -/
  | callx (f : FormV)
  /-- R92. Branches to the return address held in a scalar selection. -/
  | ret (f : FormV)
  /-- R89. A continuation retires into its join counter, or a waiter waits for the counter to reach zero and takes the pending lanes. -/
  | join (f : FormB)
  /-- R91. Marks the active lanes exited and ends the strand when its mask becomes empty. -/
  | exit_ (f : FormV)
  /-- R211. Moves the strand to the back of its group's issue order. -/
  | yield (f : FormV)
  /-- R93. Makes the strand not ready for at least n cc. -/
  | nap (f : FormL)
  /-- R94. Raises WATCH precisely and suspends the group. -/
  | brk (f : FormV)
  /-- R94. Branches to trapvec and sets trapret and trapcode, or raises WATCH when no handler is set. -/
  | trap (f : FormL)
  /-- R94. Branches to trapret. -/
  | tret (f : FormV)
  /-- R95. Integer add, wrapping or saturating. -/
  | add (f : FormV)
  /-- R95. Integer subtract. -/
  | sub (f : FormV)
  /-- R95. Integer multiply, keeping the low bits. -/
  | mul (f : FormV)
  /-- R95. High W bits of the integer product. -/
  | mulhi (f : FormV)
  /-- R95. Integer multiply-add. -/
  | mad (f : FormV)
  /-- R95. 32-bit multiply with a 64-bit add and a 64-bit result. -/
  | madw (f : FormV)
  /-- R95. Integer minimum. -/
  | min_ (f : FormV)
  /-- R95. Integer maximum. -/
  | max_ (f : FormV)
  /-- R95. Integer absolute value. -/
  | abs_ (f : FormV)
  /-- R95. Integer negation. -/
  | neg (f : FormV)
  /-- R95. Bitwise AND. -/
  | and_ (f : FormV)
  /-- R95. Bitwise OR. -/
  | or_ (f : FormV)
  /-- R95. Bitwise XOR. -/
  | xor_ (f : FormV)
  /-- R95. Bitwise a AND NOT b. -/
  | andn (f : FormV)
  /-- R95. Bitwise complement. -/
  | not_ (f : FormV)
  /-- R96. Logical shift left. -/
  | shl (f : FormV)
  /-- R96. Logical shift right. -/
  | shr (f : FormV)
  /-- R96. Arithmetic shift right. -/
  | sar (f : FormV)
  /-- R96. Rotate left. -/
  | rotl (f : FormV)
  /-- R96. Bit-field extract. -/
  | bfx (f : FormV)
  /-- R96. Bit-field insert. -/
  | bfi (f : FormV)
  /-- R95. Population count. -/
  | popc (f : FormV)
  /-- R95. Count of leading zeros. -/
  | clz (f : FormV)
  /-- R95. Count of trailing zeros. -/
  | ctz (f : FormV)
  /-- R95. Bit reversal. -/
  | brev (f : FormV)
  /-- R95. Byte permute of two operands. -/
  | perm (f : FormV)
  /-- R95. Selects a or b by a predicate. -/
  | sel (f : FormV)
  /-- R97. Integer compare writing a predicate. -/
  | cmp (f : FormV)
  /-- R98. Add with carry passed through a predicate. -/
  | addc (f : FormV)
  /-- R98. Subtract with borrow passed through a predicate. -/
  | subc (f : FormV)
  /-- R95. Address computation b + ext(a) shifted left by sh. -/
  | lea (f : FormV)
  /-- R99. Register move. -/
  | mov (f : FormV)
  /-- R99. Move of a 32-bit immediate, with the .sx and .hi forms under uniform issue. -/
  | movi (f : FormL)
  /-- R99. Broadcasts the value of the lowest active lane. -/
  | bcast (f : FormV)
  /-- R99. Reads one lane's register into a scalar. -/
  | rdlane (f : FormV)
  /-- R99. Writes a scalar into one named lane's register. -/
  | wrlane (f : FormV)
  /-- R99. Reads a special register or a trap register. -/
  | rdsr (f : FormV)
  /-- R99. Writes trapvec, trapret or trapcode. -/
  | wrsr (f : FormV)
  /-- R100. Predicate true if any participating lane's predicate is set. -/
  | voteAny (f : FormV)
  /-- R100. Predicate true if every participating lane's predicate is set. -/
  | voteAll (f : FormV)
  /-- R100. Bitmap of participating lanes whose predicate is set. -/
  | ballot (f : FormV)
  /-- R99. Predicate AND with optional negations. -/
  | pand (f : FormV)
  /-- R99. Predicate OR. -/
  | por (f : FormV)
  /-- R99. Predicate XOR. -/
  | pxor (f : FormV)
  /-- R99. Predicate NOT. -/
  | pnot (f : FormV)
  /-- R99. Counts the participating lanes whose predicate is set. -/
  | ppopc (f : FormV)
  /-- R101. Reads a from lane n. -/
  | shflIdx (f : FormV)
  /-- R101. Reads a from lane l - n. -/
  | shflUp (f : FormV)
  /-- R101. Reads a from lane l + n. -/
  | shflDown (f : FormV)
  /-- R101. Reads a from lane l xor n. -/
  | shflXor (f : FormV)
  /-- R43. Horizontal quad exchange. -/
  | qswapH (f : FormV)
  /-- R43. Vertical quad exchange. -/
  | qswapV (f : FormV)
  /-- R43. Diagonal quad exchange. -/
  | qswapD (f : FormV)
  /-- R101. Broadcasts a named lane within each quad. -/
  | qbcast (f : FormV)
  /-- R102. Cross-lane sum, in ascending lane order for FP32. -/
  | redxAdd (f : FormV)
  /-- R102. Cross-lane minimum. -/
  | redxMin (f : FormV)
  /-- R102. Cross-lane maximum. -/
  | redxMax (f : FormV)
  /-- R102. Inclusive or exclusive cross-lane prefix sum. -/
  | scanxAdd (f : FormV)
  /-- R103. Packs selected lane values or indices into the leading participating lanes and writes the count. -/
  | compact (f : FormV)
  /-- R103. Spreads leading lane values to the predicated lanes. -/
  | expand (f : FormV)
  /-- R104. FP32 add. -/
  | fadd (f : FormV)
  /-- R104. FP32 subtract. -/
  | fsub (f : FormV)
  /-- R104. FP32 multiply. -/
  | fmul (f : FormV)
  /-- R104. FP32 fused multiply-add. -/
  | ffma (f : FormV)
  /-- R25. FP32 minimum. -/
  | fmin (f : FormV)
  /-- R25. FP32 maximum. -/
  | fmax (f : FormV)
  /-- R104. FP32 minimum that propagates NaN. -/
  | fminm (f : FormV)
  /-- R23. Clears the sign bit. -/
  | fabs (f : FormV)
  /-- R23. Inverts the sign bit. -/
  | fneg (f : FormV)
  /-- R97. FP32 compare writing a predicate. -/
  | fcmp (f : FormV)
  /-- R105. Writes a class mask of an FP32 value. -/
  | fclass (f : FormV)
  /-- R104. Correctly rounded reciprocal. -/
  | frcp (f : FormV)
  /-- R106. Faithful reciprocal square root. -/
  | frsq (f : FormV)
  /-- R104. Correctly rounded square root. -/
  | fsqrt (f : FormV)
  /-- R106. Faithful 2^a. -/
  | fexp2 (f : FormV)
  /-- R106. Faithful log2 a. -/
  | flog2 (f : FormV)
  /-- R106. Faithful sine. -/
  | fsin (f : FormV)
  /-- R106. Faithful cosine. -/
  | fcos (f : FormV)
  /-- R107. Packed 16-bit add. -/
  | hadd2 (f : FormV)
  /-- R107. Packed 16-bit multiply. -/
  | hmul2 (f : FormV)
  /-- R107. Packed 16-bit fused multiply-add. -/
  | hfma2 (f : FormV)
  /-- R107. Packed 16-bit minimum. -/
  | hmin2 (f : FormV)
  /-- R107. Packed 16-bit maximum. -/
  | hmax2 (f : FormV)
  /-- R107. Two-element dot product accumulated into FP32. -/
  | hdot2 (f : FormV)
  /-- R109. Converts one element between formats. -/
  | cvt (f : FormV)
  /-- R110. Converts two FP32 values and packs them into narrow elements. -/
  | cvtpk (f : FormV)
  /-- R111. Converts FP32 with stochastic rounding. -/
  | cvtsr (f : FormV)
  /-- R112. Chooses an E8M0 block scale over the active lanes, and with .apply scales the values. -/
  | qscale (f : FormV)
  /-- R119. Global load. -/
  | ld (f : FormM)
  /-- R119. Global store, written through to its home. -/
  | st (f : FormM)
  /-- R119. Global 16-byte load into four registers. -/
  | ldx4 (f : FormM)
  /-- R119. Global 16-byte store from four registers. -/
  | stx4 (f : FormM)
  /-- R119. Scratchpad load. -/
  | lds (f : FormM)
  /-- R119. Scratchpad store. -/
  | sts (f : FormM)
  /-- R119. Scratchpad 16-byte load. -/
  | ldsx4 (f : FormM)
  /-- R119. Scratchpad 16-byte store. -/
  | stsx4 (f : FormM)
  /-- R121. Prefetches lines into L2, and into L1 at scope 0. -/
  | prf (f : FormM)
  /-- R123. Atomic integer add at home, returning the old word. -/
  | atomAdd (f : FormM)
  /-- R123. Atomic signed minimum. -/
  | atomMin (f : FormM)
  /-- R123. Atomic signed maximum. -/
  | atomMax (f : FormM)
  /-- R123. Atomic AND. -/
  | atomAnd (f : FormM)
  /-- R123. Atomic OR. -/
  | atomOr (f : FormM)
  /-- R123. Atomic XOR. -/
  | atomXor (f : FormM)
  /-- R123. Atomic exchange. -/
  | atomXchg (f : FormM)
  /-- R123. Atomic compare-and-swap. -/
  | atomCas (f : FormM)
  /-- R123. Atomic FP32 add with RNE. -/
  | atomFadd (f : FormM)
  /-- R123. Atomic FP32 minimum. -/
  | atomFmin (f : FormM)
  /-- R123. Atomic FP32 maximum. -/
  | atomFmax (f : FormM)
  /-- R123. Atomic add of two BF16 elements. -/
  | atomBfadd2 (f : FormM)
  /-- R123. Return-free atomic add. -/
  | redAdd (f : FormM)
  /-- R123. Return-free signed minimum. -/
  | redMin (f : FormM)
  /-- R123. Return-free signed maximum. -/
  | redMax (f : FormM)
  /-- R123. Return-free AND. -/
  | redAnd (f : FormM)
  /-- R123. Return-free OR. -/
  | redOr (f : FormM)
  /-- R123. Return-free XOR. -/
  | redXor (f : FormM)
  /-- R123. Return-free FP32 add. -/
  | redFadd (f : FormM)
  /-- R123. Return-free FP32 minimum. -/
  | redFmin (f : FormM)
  /-- R123. Return-free FP32 maximum. -/
  | redFmax (f : FormM)
  /-- R123. Return-free add of two BF16 elements. -/
  | redBfadd2 (f : FormM)
  /-- R126. Waits for earlier accesses and merges the clocks according to its order and scope. -/
  | fence (f : FormM)
  /-- R127. Stalls until a path's in-flight counter is at or below a threshold. -/
  | wait (f : FormV)
  /-- R128. Block barrier arrival and wait. -/
  | bar (f : FormV)
  /-- R130. Releases, adds to a barrier record's count and may step its generation. -/
  | arrive (f : FormV)
  /-- R131. Waits until a barrier record's generation differs from a given value, then acquires. -/
  | bwait (f : FormV)
  /-- R132. Sends each lane's line to its home for renewal. -/
  | renew (f : FormM)
  /-- R133. Reads the read or write clock into a scalar. -/
  | rdclk (f : FormV)
  /-- R136. Courier copy from the scratchpad to global memory. -/
  | sendGlb (f : FormV)
  /-- R136. Courier copy into the scratchpad of one cohort peer. -/
  | sendPeer (f : FormV)
  /-- R138. Courier tensor copy to global memory through a layout slot. -/
  | sendTens (f : FormV)
  /-- R136. Courier multicast copy into the scratchpads of several cohort ranks. -/
  | sendm (f : FormV)
  /-- R139. Places a stream command with an L2 or Annex producer that fills the scratchpad. -/
  | commission (f : FormV)
  /-- R140. Reads masked bits of the arrival map. -/
  | cbtest (f : FormV)
  /-- R140. Waits until the masked arrival bits are set. -/
  | cbwait (f : FormV)
  /-- R140. Clears the masked arrival bits. -/
  | cbclr (f : FormV)
  /-- R138. Loads a tensor layout descriptor into a layout slot. -/
  | tlayout (f : FormV)
  /-- R142. Gathers indexed rows into the scratchpad, one fetch per distinct row. -/
  | gath (f : FormV)
  /-- R143. Scatters scratchpad rows to memory, by write or FP32 add. -/
  | scat (f : FormV)
  /-- R144. Reads a gather statistic or a row's frequency counter. -/
  | gstat (f : FormV)
  /-- R148. Creates the block's Catalogue claim and initialises its table. -/
  | cclaim (f : FormV)
  /-- R149. Ends the Catalogue claim after earlier Catalogue instructions complete. -/
  | cfree (f : FormV)
  /-- R151. Inserts or replaces a key's value. -/
  | cins (f : FormV)
  /-- R151. Probes the table for a key. -/
  | cprb (f : FormV)
  /-- R151. Deletes a key and compacts the overflow area. -/
  | cdel (f : FormV)
  /-- R151. Accumulates into a key's value, inserting or spilling when absent. -/
  | cacc (f : FormV)
  /-- R153. Drains occupied entries in drain order from a cursor. -/
  | cdrn (f : FormV)
  /-- R154. Reads a table statistic or rewinds the spill count. -/
  | cstat (f : FormV)
  /-- R156. Gate call into another domain: checks the entry, saves and scrubs the frame, switches domain. -/
  | gate (f : FormL)
  /-- R158. Returns from the innermost gate frame, keeping the declared results. -/
  | gret (f : FormV)
  /-- R159. Returns from the gate frame with zeroed results and status GATE_FAULT. -/
  | gabort (f : FormV)
  /-- R162. Requests more register granules. -/
  | rgrow (f : FormL)
  /-- R163. Releases the top register granules. -/
  | rshrink (f : FormL)
  /-- R164. Ends the issuing group once its counters drain. -/
  | halt (f : FormV)
  /-- R164. Terminates the launch with a WATCH record. -/
  | haltAll (f : FormV)
  /-- R172. Zeroes a C range. -/
  | mzero (f : FormV)
  /-- R170. Quartet rendezvous that arms the group for an mma. -/
  | mrdy (f : FormV)
  /-- R169. Dense matrix multiply-accumulate word of the quartet. -/
  | mma (f : FormV)
  /-- R169. 2:4 sparse matrix multiply-accumulate word. -/
  | mmaSp (f : FormV)
  /-- R169. Block-scaled MX matrix multiply-accumulate word. -/
  | mmx (f : FormV)
  /-- R172. Waits for the operation with a tag. -/
  | mwait (f : FormV)
  /-- R172. Waits for every outstanding operation and disarms the group. -/
  | mdrain (f : FormV)
  /-- R175. Binds an endpoint slot to a region endpoint. -/
  | aopen (f : FormV)
  /-- R176. Sends lane tokens through a source slot. -/
  | asend (f : FormV)
  /-- R177. Receives tokens from a sink slot. -/
  | arecv (f : FormV)
  /-- R176. Reduces the lanes and sends one token. -/
  | aacc (f : FormV)
  /-- R179. Enqueues seos, scfg or sbar on a stream port. -/
  | acmd (f : FormV)
  /-- R180. Waits for tokens and acmds to be accepted, then releases. -/
  | afence (f : FormV)
  /-- R178. Unbinds an endpoint slot. -/
  | aclose (f : FormV)
  /-- R182. Sends reduce-on-write requests to owner nodes. -/
  | nmr (f : FormM)
  /-- R183. Sends indexed row-reduce commands to owner nodes. -/
  | nidx (f : FormV)
  /-- R184. Waits until the near-memory counter is zero. -/
  | nfence (f : FormV)
  /-- R186. Releases and enqueues a launch packet from a core. -/
  | launch (f : FormV)
  /-- R187. Releases, writes back the input ranges and enqueues a region packet. -/
  | rlaunch (f : FormV)
  /-- R189. Sequencer k-register add. -/
  | seqAdd (f : KRegs)
  /-- R189. Sequencer subtract. -/
  | seqSub (f : KRegs)
  /-- R189. Sequencer add of a sign-extended immediate. -/
  | seqAddi (f : KImm)
  /-- R189. Sequencer multiply, low 64 bits. -/
  | seqMul (f : KRegs)
  /-- R189. Sequencer bitwise AND. -/
  | seqAnd (f : KRegs)
  /-- R189. Sequencer bitwise OR. -/
  | seqOr (f : KRegs)
  /-- R189. Sequencer bitwise XOR. -/
  | seqXor (f : KRegs)
  /-- R189. Sequencer shift left. -/
  | seqShl (f : KRegs)
  /-- R189. Sequencer logical shift right. -/
  | seqShr (f : KRegs)
  /-- R189. Sequencer arithmetic shift right. -/
  | seqShrA (f : KRegs)
  /-- R189. Adds an immediate shifted left by 16. -/
  | seqLih (f : KImm)
  /-- R189. Loads 8 bytes from the sequencer's local store. -/
  | seqLd (f : KImm)
  /-- R189. Stores 8 bytes to the sequencer's local store. -/
  | seqSt (f : KImm)
  /-- R189. Branches if equal. -/
  | seqBeq (f : KImm)
  /-- R189. Branches if not equal. -/
  | seqBne (f : KImm)
  /-- R189. Branches if signed less than. -/
  | seqBlt (f : KImm)
  /-- R189. Branches if signed greater or equal. -/
  | seqBge (f : KImm)
  /-- R65. Jumps to a relative or register-based target. -/
  | seqJmp (f : KImm)
  /-- R65. Jumps and writes the link. -/
  | seqJal (f : KImm)
  /-- R189. Issues a stream command held in a k-register pair to a port queue. -/
  | seqScmd (f : KImm)
  /-- R189. Waits for free entries in a port's command queue. -/
  | seqSwait (f : KImm)
  /-- R189. Sends a token on a signal channel. -/
  | seqSsig (f : KImm)
  /-- R189. Writes a WATCH record and continues. -/
  | seqSfault (f : KImm)
  /-- R189. Sequencer no-op. -/
  | seqNop
  /-- R189. Halts the sequencer. -/
  | seqStop
  /-- R192. Stream read of elements in linear layout order. -/
  | slin (f : StreamCmd)
  /-- R194. Stream read of rows by index. -/
  | sidx (f : StreamCmd)
  /-- R192. Emits copies of a constant. -/
  | sconst (f : StreamCmd)
  /-- R192. Writes arriving tokens in layout order. -/
  | swrite (f : StreamCmd)
  /-- R192. Applies arriving elements at owner nodes with an operator. -/
  | sred (f : StreamCmd)
  /-- R192. Places an end-of-stream marker. -/
  | seos (f : StreamCmd)
  /-- R192. Sets a port layout register. -/
  | scfg (f : StreamCmd)
  /-- R192. Drain token that follows in-flight data to the memory edge. -/
  | sdrain (f : StreamCmd)
  /-- R192. After earlier commands perform, arrives on a barrier record. -/
  | sbar (f : StreamCmd)
  /-- R379. Binds a landing range in the owner nodes. -/
  | sland (f : StreamCmd)
  /-- R192. Indexed row read with deduplicated fetches. -/
  | sgath (f : StreamCmd)
  /-- R352. Loads an extent slot of the port's address generator. -/
  | spage (f : StreamCmd)
  /-- R195. FU firing of FP32 add. -/
  | fuFadd (site : FuSite)
  /-- R195. FU firing of FP32 multiply. -/
  | fuFmul (site : FuSite)
  /-- R195. FU firing of FP32 fused multiply-add. -/
  | fuFfma (site : FuSite)
  /-- R195. FU firing of FP32 maximum. -/
  | fuFmax (site : FuSite)
  /-- R195. FU firing of FP32 minimum. -/
  | fuFmin (site : FuSite)
  /-- R195. FU firing of two BF16 products accumulated into FP32. -/
  | fuBfma2 (site : FuSite)
  /-- R195. FU firing of an FP8 dot product into two FP32 lanes. -/
  | fuF8dot4 (site : FuSite)
  /-- R195. FU firing of integer add. -/
  | fuIadd (site : FuSite)
  /-- R195. FU firing of integer subtract. -/
  | fuIsub (site : FuSite)
  /-- R195. FU firing of integer multiply. -/
  | fuImul (site : FuSite)
  /-- R195. FU firing of integer multiply-add. -/
  | fuImad (site : FuSite)
  /-- R195. FU firing of bitwise AND. -/
  | fuAnd (site : FuSite)
  /-- R195. FU firing of bitwise OR. -/
  | fuOr (site : FuSite)
  /-- R195. FU firing of bitwise XOR. -/
  | fuXor (site : FuSite)
  /-- R195. FU firing of shift left. -/
  | fuShl (site : FuSite)
  /-- R195. FU firing of shift right. -/
  | fuShr (site : FuSite)
  /-- R195. FU firing of a comparison. -/
  | fuCmp (site : FuSite)
  /-- R195. FU firing of a select. -/
  | fuSel (site : FuSite)
  /-- R271. FU accumulate firing, or emission and reset of the sum on an i1 token or a marker. -/
  | fuAcc (site : FuSite)
  /-- R271. FU firing that passes i0 or i1 as the predicate selects. -/
  | fuMerge (site : FuSite)
  /-- R271. FU firing that passes i0 to o0 or o1. -/
  | fuSteer (site : FuSite)
  /-- R271. FU firing that emits i0 i1 times. -/
  | fuRepeat (site : FuSite)
  /-- R261. FU firing that emits a counting sequence per permit. -/
  | fuCount (site : FuSite)
  /-- R282. Address-generator firing over layout extents and strides. -/
  | fuAgen (site : FuSite)
  /-- R274. FU firing that attaches a fixed or counting tag. -/
  | fuTag (site : FuSite)
  /-- R274. FU firing that strips the tag. -/
  | fuUntag (site : FuSite)
  /-- R274. FU firing that checks the tag sequence. -/
  | fuTagck (site : FuSite)
  /-- R195. FU firing of the bucket hash. -/
  | fuHash (site : FuSite)
  /-- R286. FU firing that applies an operator to a RAM-mode tile word. -/
  | fuOwner (site : FuSite)
  /-- R195. FU firing of a memory-tile read. -/
  | fuLdt (site : FuSite)
  /-- R195. FU firing of a memory-tile write. -/
  | fuStt (site : FuSite)
  /-- R271. FU elastic-buffer firing. -/
  | fuFifo (site : FuSite)
  /-- R195. FU firing that copies i0 to every configured output. -/
  | fuMcast (site : FuSite)
  /-- R281. Controller node that runs its children one after another. -/
  | fuCtlSeq (site : FuSite)
  /-- R281. Controller node that pipelines its children to depth D. -/
  | fuCtlPipe (site : FuSite)
  /-- R281. Controller node that permits all its children together. -/
  | fuCtlStream (site : FuSite)
  /-- R89. A waiter at join sees jc reach zero and merges the pending mask in one indivisible step. -/
  | joinWake (r : StrandRef)
  /-- R93. A nap count runs out and the strand becomes ready again. -/
  | napExpiry (r : StrandRef)
  /-- R131. A bwait rereads the generation on a notice or after 4,096 cc. -/
  | bwaitReread (r : StrandRef)
  /-- R135. A transfer's bytes land in a chunk and the chunk's arrival bit is set. -/
  | courierLand (copy chunk : Nat)
  /-- R139. A producer reads a line at its home and delivers it; a translation fault sets the command aside. -/
  | commissionDeliver (job : Nat)
  /-- R139. A set-aside commission resumes once its page is mapped. -/
  | commissionResume (job : Nat)
  /-- R142. A fetched row lands in the scratchpad places of its lanes. -/
  | gathRowLand (job row : Nat)
  /-- R144. Each row frequency counter is halved every 1 ms. -/
  | freqHalve
  /-- R162. The oldest waiting rgrow request is granted when its granules are free. -/
  | rgrowGrant (core quad : Nat)
  /-- R216. After 4,096 cc with every group blocked, the youngest blocked group is spilled. -/
  | rgrowSpill (core quad : Nat)
  /-- R216. A spilled group becomes resident again when a slot and its granules are free. -/
  | spilledReturn (core quad : Nat)
  /-- R170. A queued matrix operation starts on the engine. -/
  | matrixOpStart (core : Nat)
  /-- R172. After 64 cc the operation writes the C ranges of all four groups. -/
  | matrixOpComplete (core : Nat)
  /-- R284. A command with C emits a completion token once its elements have performed. -/
  | completionToken (die port : Nat)
  /-- R284. A token at a sequencer mailbox channel adds 1 to its local-store word. -/
  | mailboxAdd (die seq chan : Nat)
  /-- R352. A port translates an uncovered page on demand into an extent slot. -/
  | portTranslate (die port : Nat)
  /-- R277. A route moves a head token into the first hop of every branch together. -/
  | tokenMove (hop : RouteRef)
  /-- R262. A stream-out tile emits its words for a permit and reports done. -/
  | tileStreamOut (site : FuSite)
  /-- R281. A controller permit reaches a node or leaf. -/
  | permit (inst node : Nat)
  /-- R281. A child's done report reaches its parent controller. -/
  | doneToken (inst node : Nat)
  /-- R279. A consumed token returns a window credit to its source. -/
  | creditReturn (inst ep : Nat)
  /-- R329. The region scheduler decides a stage swap after 64 idle fc or 65,536 fc. -/
  | stageSwap (inst : Nat)
  /-- R276. After the old stage's stores perform and 64 fc pass, the new stage is enabled. -/
  | stageEnable (inst : Nat)
  /-- R266. A placed instance loads and validates its image. -/
  | regionLoad (inst : Nat)
  /-- R289. Every element acknowledges; initial commands, sequencers, permits and windows start. -/
  | regionRunning (region : Nat)
  /-- R291. An instance meets the completion condition and completes. -/
  | regionComplete (region : Nat)
  /-- R360. Input gates close and the region runs down. -/
  | regionDrain (region : Nat)
  /-- R360. The region's state is saved when no task can fire, or 12 µs after the request. -/
  | regionCheckpoint (region : Nat)
  /-- R289. The stream-fault timeout expires and the region drains. -/
  | faultTimeout (region : Nat)
  /-- R286. An owner node applies one queued request indivisibly. -/
  | ownerApply (die node : Nat)
  /-- R380. A whole-row contribution arrives at a bound landing range. -/
  | landingContribution (die index : Nat)
  /-- R228. A home extends a line's lease and replies with its value. -/
  | homeRenew (msg : Nat)
  /-- R228. A renewal reply updates the requester's L1 copy and the load completes. -/
  | fill_ (msg : Nat)
  /-- R230. A store performs at home with a fresh wts. -/
  | homeStore (msg : Nat)
  /-- R230. A store acknowledgement raises wclk and updates the L1 copy. -/
  | storeAck (msg : Nat)
  /-- R232. An atomic or red request performs at home at one time t. -/
  | homeAtomic (msg : Nat)
  /-- R232. An atomic's completion moves the clocks and updates the L1 copy. -/
  | atomicComplete (msg : Nat)
  /-- R224. A line leaves its slice, is written back if dirty, and mts is raised. -/
  | l2Evict (line : Nat)
  /-- R420. A fetch is served by the instruction cache, or renews its line at home. -/
  | instructionFetch (r : StrandRef)
  /-- R233. Every 1,024 cc each resident group's rclk rises by 1. -/
  | creep (core : Nat)
  /-- R207. The Docent places a group's oldest queued record in a free strand entry. -/
  | refill (core : Nat)
  /-- R208. After 4,096 cc with a full table, the longest-held candidate strand is swapped out. -/
  | swap (core slot : Nat)
  /-- R218. A group with no lanes left retires once its counters drain. -/
  | groupRetire (core slot : Nat)
  /-- R316. A store to a write-index or slot line notifies the Belfry, which fetches the slot. -/
  | belfryNotice (queue : Nat)
  /-- R317. The Belfry rereads a reserved slot at least every 10 µs. -/
  | slotReread (queue : Nat)
  /-- R200. A fetched packet is checked against the record rules. -/
  | parse (queue : Nat)
  /-- R317. A faulted Belfry read is retried at least every 10 µs. -/
  | queueFaultRetry (queue : Nat)
  /-- R317. A store to a stopped queue's descriptor line restarts it. -/
  | queueRestart (queue : Nat)
  /-- R319. A packet becomes the head of its queue and its waits are checked. -/
  | packetHead (queue : Nat)
  /-- R320. A generation step notifies the Belfry and a wait entry may become satisfied. -/
  | waitNotice (queue entry : Nat)
  /-- R320. The Belfry rereads a wait barrier at least every 10 µs. -/
  | waitReread (queue entry : Nat)
  /-- R323. Each 50 µs ready raises a packet's effective priority. -/
  | priorityAging (queue : Nat)
  /-- R324. 50 µs after a packet blocks, later packets it holds back are no longer placed. -/
  | backfillExpiry (queue : Nat)
  /-- R202. The Belfry places the next cohort when it fits. -/
  | placeCohort
  /-- R327. The Belfry places every instance of a region. -/
  | placeRegion
  /-- R330. A core's L1 carve-out changes once its last block has retired. -/
  | carveChange (core : Nat)
  /-- R338. The Lantern processes the next invalidation request of a ring. -/
  | invalidationRequest (domain : Nat)
  /-- R338. When covered accesses have completed and extents are repatched, the read index rises and the barrier steps. -/
  | invalidationComplete (domain : Nat)
  /-- R354. An sdrain reaches the memory edge and the slot is translated again. -/
  | extentRepatch (die port slot : Nat)
  /-- R344. A fault record is written, the write index raised and the notify barrier stepped. -/
  | faultDeliver (index : Nat)
  /-- R344. A waiting source retries a full or unwritable fault queue. -/
  | faultQueueRetry (index : Nat)
  /-- R347. Resolution 1 replays the faulting instruction or stream. -/
  | resolutionReplay (record : Nat)
  /-- R348. Resolution 2 resumes the callee at the resume VA. -/
  | resolutionResume (record : Nat)
  /-- R348. Resolution 3 aborts the innermost gate frame. -/
  | resolutionAbort (record : Nat)
  /-- R346. Resolution 4 terminates the launch or region. -/
  | resolutionTerminate (record : Nat)
  /-- R346. Resolution 5 continues after brk at the next word. -/
  | resolutionContinue (record : Nat)
  /-- R351. The Curator terminates a named launch or region on request. -/
  | terminationRequest (requester : Requester) (queue slot : Nat)
  /-- R350. A domain is quarantined: packets refused, launches terminated, frames aborted. -/
  | quarantine (requester : Requester) (domain : Nat)
  /-- R356. The Lantern stops a cohort's strands for eviction. -/
  | evictCohort (launch cohort : Nat) (policy : Bool)
  /-- R356. Once counters drain, the group and block saves are written and resources freed. -/
  | quiescence (launch cohort : Nat)
  /-- R362. The Lantern moves a save from the reserve into the general pool. -/
  | saveMove (index : Nat)
  /-- R81. The Curator installs a gate section's valid entries, or nothing. -/
  | gateInstall (requester : Requester) (caller : Nat) (entries : List GateEntry)
  /-- R399. A domain is created: key drawn, granules zeroed, marked active. -/
  | domainCreate (req : DomainRequest)
  /-- R399. A domain is released: gate entries cleared, grants revoked, key destroyed. -/
  | domainRelease (domain : Nat)
  /-- R377. The exporting Curator installs an export entry and sends the grant to the peer. -/
  | grantRequest (req : GrantRequest)
  /-- R377. The peer Curator installs the import entry and replies. -/
  | grantMessage (msg : GrantMessage)
  /-- R377. A grant is revoked at both ends with an invalidation. -/
  | revoke (requester : Requester) (grant : Nat)
  /-- R370. A host CXL.mem read of device memory through a window. -/
  | hostRead (hpa size : Nat)
  /-- R370. A host CXL.mem write through a window, carrying xclk. -/
  | hostWrite (hpa : Nat) (bytes : List Byte)
  /-- R237. A host atomic on device memory, moving xclk as a write does. -/
  | hostAtomic (hpa : Nat) (op : AtomicOp) (size : Nat) (value cmp : Dword)
  /-- R237. A host or peer snoop removes a proxy line and raises mts. -/
  | hostSnoop (line : Nat)
  /-- R372. A CXL.cache response fills a proxy line for a host-memory access. -/
  | cxlProxyFill (msg : Nat) (data : LineData) (error : Bool)
  /-- R376. A peer request is checked against the export table and performed at home. -/
  | peerRequest (req : PeerRequest)
  /-- R374. A flit that fails its CRC is replayed in sequence. -/
  | flitReplay (port seq : Nat)
  /-- R374. A flit that fails authentication takes the port down for retraining. -/
  | portRetrain (port : Nat)
  /-- R414. A failing Spire lane is replaced by the spare, or the port retrains at 4 lanes. -/
  | laneSpare (port lane : Nat)
  /-- R368. IDE keys are programmed through IDE_KM with the Keep. -/
  | ideKeyProgram
  /-- R394. SPDM returns the identity certificate. -/
  | getCertificate
  /-- R401. SPDM returns a signed attestation report. -/
  | getMeasurements (nonce : List Byte) (user : ReportUser)
  /-- R395. SPDM vendor command writes an image into an inactive slot. -/
  | slotWrite (kind : Nat) (slotB : Bool) (image : Image)
  /-- R397. A verified inactive slot becomes active at its switch point. -/
  | slotSwitch (kind : Nat)
  /-- R398. An anti-rollback counter is raised to the active image's svn. -/
  | commit_ (kind : Nat)
  /-- R395. An operator key is enrolled at stage 0. -/
  | operatorKeyEnroll (key : Nat)
  /-- R392. Power-good starts stage 0: ROM check, fuses, identity. -/
  | powerGood (romDigest : Nat)
  /-- R392. After Lantern and Belfry verification and a scrub, stage 1 is entered. -/
  | stage1Entry (cluster stack : Option Nat)
  /-- R392. After training and zeroing, stage 2 is entered. -/
  | stage2Entry (bad : TrainingReport)
  /-- R404. A time reaching 2^39 flips the phase and lowers every clock by B. -/
  | rebaseStart
  /-- R404. The background sweep finishes rewriting old-phase times. -/
  | rebaseSweepDone
  /-- R409. Patrol scrub reads and corrects every line once in 24 h. -/
  | patrolScrub (line : ArrayUnit) (found : ScrubResult)
  /-- R411. An HBM row is copied to a spare row while pinned. -/
  | rowRepair (row : Nat)
  /-- R410. A failing core is evacuated and replaced by its cluster spare. -/
  | coreSubstitute (core : Nat) (spareOk lost : Bool)
  /-- R412. An Annex column is moved to a spare after draining its instances. -/
  | columnRemap (die column : Nat)
  /-- R413. An L2 slice's spread indices move to other slices and it is power-gated. -/
  | sliceRetire (slice : Nat)
  /-- R415. A recovered core rejoins with a new incarnation number. -/
  | coreRejoin (core : Nat)
  /-- R417. A channel power-down request is deferred, drained and applied. -/
  | powerRequest (request : PowerRequest)
  /-- R416. Firmware changes an island's operating point. -/
  | operatingPointChange (island point : Nat) (gate : Bool)
  /-- R408. At firmware's interval, the owner-node counters are reported in kind 11 records. -/
  | ownerCounterReport (die node : Nat)
  /-- R394. Loss of power destroys every domain key and interrupts any pending active-marker write. -/
  | powerLoss
  /-- R67. A port sequencer reaches a compact word with op6 0x00 or 0x19-0x3F or a nonzero reserved bit, stops, and raises ANNEXCFG. -/
  | seqUndecodableWord (word : Word)
  /-- R237. A peer's reply (line data for a .sys fetch, or acknowledgement of a write through to peer memory) arrives over the Spire link at the proxy home. -/
  | peerResponse (msg : Nat) (data : LineData)
  /-- R372. The host reports global observation of a .sys store written through over CXL.cache, allowing its acknowledgement. -/
  | cxlGlobalObservation (seen : Observation)
  /-- R283. A stream port's read element returns from memory, or its write element performs at memory. -/
  | streamAccessPerformed (die port access : Nat)
  /-- R313. The management Curator installs or removes a queue-table entry naming a descriptor VA and owning domain. -/
  | queueInstall (queue descriptor domain : Nat) (remove : Bool)
  /-- R370. The management Curator installs or changes a host window entry. -/
  | hostWindowInstall (index : Nat) (window : HostWindow)
  deriving DecidableEq, Repr

end Sys2Proof
end

