-- ==== Sys2Proof/Machine/Accept.lean ====
section
/-! DEFINITION. Which words are instructions (R63): for each instruction, how it uses each operand field,
which types, modifiers and immediates it accepts, and which vector registers it names (R34, R35). It
stands under Machine/ so that a later repair can mend an entry. -/
namespace Sys2Proof

/-- The ty code of R11 and R12. -/
def Ty.code : Ty → Nat
  | .b32 => 0 | .i32 => 1 | .n32 => 2 | .i64 => 3 | .n64 => 4 | .f32 => 5 | .f16 => 6 | .bf16 => 7
  | .e4m3 => 8 | .e5m2 => 9 | .e2m1 => 10 | .i8 => 11 | .n8 => 12

/-- A 64-bit type: a register pair, or a whole scalar (R11, R35). -/
def Ty.wide : Ty → Bool
  | .i64 | .n64 => true
  | _ => false

/-- The integer types of R11. -/
def Ty.isInt : Ty → Bool
  | .b32 | .i32 | .n32 | .i64 | .n64 | .i8 | .n8 => true
  | _ => false

/-- The width of an element in bits (R11, R12). -/
def Ty.bits : Ty → Nat
  | .b32 | .i32 | .n32 | .f32 => 32
  | .i64 | .n64 => 64
  | .f16 | .bf16 => 16
  | .e4m3 | .e5m2 | .i8 | .n8 => 8
  | .e2m1 => 4

/-- How many elements of the type a 32-bit register holds (R15); a 64-bit type has one, in a pair. -/
def Ty.elems (t : Ty) : Nat := if t.wide then 1 else 32 / t.bits

/-- Registers a value of the type takes in a vector register operand (R35). -/
def Ty.regs (t : Ty) : Nat := if t.wide then 2 else 1

def Ty.ofCode (n : Nat) : Option Ty :=
  match n with
  | 0 => some .b32 | 1 => some .i32 | 2 => some .n32 | 3 => some .i64 | 4 => some .n64 | 5 => some .f32
  | 6 => some .f16 | 7 => some .bf16 | 8 => some .e4m3 | 9 => some .e5m2 | 10 => some .e2m1
  | 11 => some .i8 | 12 => some .n8 | _ => none

/-- What an operand field of a Form V word is for (R59). -/
inductive Use where
  /-- Unused: zero (R63, R84). -/
  | zero
  /-- `n` vector registers from a base that is a multiple of `al` (R34, R35, R166). -/
  | vec (n al : Nat)
  /-- Field b or c as a general operand: `n` vector registers, or a scalar selection by sb or sc. -/
  | src (n : Nat)
  /-- A declared scalar selection that is read. -/
  | sel
  /-- A declared scalar selection whose flag may also be set, as mbas writes it (R73). -/
  | selAny
  /-- A lane index that has to be a scalar selection with its flag set (R99). -/
  | selSet
  /-- A scalar destination: 64-255 are illegal, s0 discards (R37, R99). -/
  | sdst
  /-- A scalar destination in field c, whose flag may be set (R103). -/
  | sdstAny
  /-- A link register s1-s63 (R85, R156). -/
  | link
  /-- A predicate (R59). -/
  | pred
  /-- A trap register 0-2 (R94). -/
  | trapReg
  /-- An element index below `n` (R109). -/
  | idx (n : Nat)
  /-- A special register, by a scalar selection with its flag set (R99). -/
  | special
  deriving DecidableEq, Repr

/-- A scalar selection of R59: s0-s63 or a special register of R41. -/
def selOk (v : BitVec 8) : Bool := v.toNat < 64 || (128 ≤ v.toNat && v.toNat ≤ 147)

/-- A scalar selection of a uniform word: not %laneid, %quad or %helper (R41). -/
def selUniform (v : BitVec 8) : Bool := v.toNat < 64 || (131 ≤ v.toNat && v.toNat ≤ 147)

/-- Field `v` with flag `fl` (sb or sc; false for d and a) is allowed for a use, in a word with u = 0. -/
def Use.ok (use : Use) (v : BitVec 8) (fl : Bool) : Bool :=
  match use with
  | .zero => v == 0 && !fl
  | .vec _ al => v.toNat % al == 0 && !fl
  | .src n => if fl then selOk v else v.toNat % n == 0
  | .sel => selOk v && !fl
  | .selAny => selOk v
  | .selSet => selOk v && fl
  | .sdst => v.toNat < 64 && !fl
  | .sdstAny => v.toNat < 64
  | .link => 1 ≤ v.toNat && v.toNat < 64 && !fl
  | .pred => v.toNat < 8 && !fl
  | .trapReg => v.toNat < 3 && !fl
  | .idx n => v.toNat < n && !fl
  | .special => 128 ≤ v.toNat && v.toNat ≤ 147 && fl

/-- The same for a source field of a word with u = 1 (R36, R59). -/
def Use.okUniform (use : Use) (v : BitVec 8) (fl : Bool) : Bool :=
  !fl && match use with
  | .zero | .idx _ => v == 0
  | .trapReg => v.toNat < 3
  | .special => 131 ≤ v.toNat && v.toNat ≤ 147
  | _ => selUniform v

/-- The destination field of a word with u = 1 (R37). -/
def Use.okUniformDst (use : Use) (v : BitVec 8) : Bool :=
  match use with
  | .zero => v == 0
  | .trapReg => v.toNat < 3
  | _ => v.toNat < 64

/-- The vector registers that a field of a non-uniform word names (R34). -/
def Use.regs (use : Use) (v : BitVec 8) (fl : Bool) : List Nat :=
  match use with
  | .vec n _ => (List.range n).map (v.toNat + ·)
  | .src n => if fl then [] else (List.range n).map (v.toNat + ·)
  | _ => []

/-- What an instruction of Form V or I accepts. -/
structure Rule where
  tys : List Ty := [.b32]
  rm : Bool := false
  sat : Bool := false
  im : Bool := false
  uni : Bool := false
  x : BitVec 4 → Bool := fun x => x == 0
  d : Use := .zero
  a : Use := .zero
  b : Use := .zero
  c : Use := .zero
  /-- What else the instruction's own description asks. -/
  extra : Bool := true

/-- The fields and flags b, sb, c, sc of a word; an immediate names none. -/
def FormV.b (f : FormV) : BitVec 8 := match f.tail with | .regs b _ _ _ => b | .imm _ => 0
def FormV.c (f : FormV) : BitVec 8 := match f.tail with | .regs _ c _ _ => c | .imm _ => 0
def FormV.sb (f : FormV) : Bool := match f.tail with | .regs _ _ sb _ => sb | .imm _ => false
def FormV.sc (f : FormV) : Bool := match f.tail with | .regs _ _ _ sc => sc | .imm _ => false
def FormV.isImm (f : FormV) : Bool := match f.tail with | .regs .. => false | .imm _ => true

/-- R63 for a word of Form V or I whose instruction accepts `r`. -/
def Rule.ok (r : Rule) (f : FormV) : Bool :=
  r.tys.contains f.ty && (r.rm || f.rm == .rne) && (r.sat || !f.sat) && r.x f.x && (r.uni || !f.u) &&
  (r.im || !f.isImm) && r.extra &&
  if f.u then
    r.d.okUniformDst f.d && r.a.okUniform f.a false &&
      (f.isImm || (r.b.okUniform f.b f.sb && r.c.okUniform f.c f.sc))
  else
    r.d.ok f.d false && r.a.ok f.a false && (f.isImm || (r.b.ok f.b f.sb && r.c.ok f.c f.sc))

/-- The vector registers that a word names or implies (R34). -/
def Rule.regs (r : Rule) (f : FormV) : List Nat :=
  if f.u then []
  else r.d.regs f.d false ++ r.a.regs f.a false ++
    (if f.isImm then [] else r.b.regs f.b f.sb ++ r.c.regs f.c f.sc)

def tys04 : List Ty := [.b32, .i32, .n32, .i64, .n64]
def tys12 : List Ty := [.i32, .n32, .i64, .n64, .f32, .f16, .bf16, .e4m3, .e5m2, .e2m1, .i8, .n8]

/-- `n` registers of the type's width, aligned to it (R35). -/
def Use.lane (t : Ty) : Use := .vec t.regs t.regs
/-- A general operand of the type's width. -/
def Use.opnd (t : Ty) : Use := .src t.regs

/-- Integer instruction of R95 with three fields of the operation's width. -/
def ruleInt (t : Ty) (sat im : Bool) (b c : Use) : Rule :=
  { tys := tys04, sat := sat, im := im, uni := true, d := .lane t, a := .lane t, b := b, c := c }

/-- Floating-point instruction of R104. -/
def ruleFp (rm im uni : Bool) (b c : Use) : Rule :=
  { tys := [.f32], rm := rm, im := im, uni := uni, d := .vec 1 1, a := .vec 1 1, b := b, c := c }

/-- Packed instruction of R107. -/
def rulePacked (rm : Bool) (c : Use) : Rule :=
  { tys := [.f16, .bf16], rm := rm, d := .vec 1 1, a := .vec 1 1, b := .src 1, c := c }

/-- Shuffles of R101. -/
def ruleShfl (t : Ty) (b : Use) (im extra : Bool) : Rule :=
  { tys := [.b32, .i32, .n32, .f32, .i64, .n64], im := im, d := .lane t, a := .lane t, b := b, extra := extra }

/-- Reductions and the scan of R102: rm only with f32 and only where the instruction rounds (R17), sat only with the integer
types. The minimum and the maximum fold by R25 and have no rounding step, so they take no rm (DEDUCED, LOG 132). -/
def ruleRedx (f : FormV) (rounds : Bool) (x : BitVec 4 → Bool) : Rule :=
  { tys := [.i32, .n32, .i64, .n64, .f32], rm := rounds && f.ty == .f32, sat := f.ty != .f32, x := x, d := .lane f.ty, a := .lane f.ty }

/-- A send (R134). -/
def ruleSend (x : BitVec 4) : Rule :=
  { x := (fun y => y == x), d := .sel, a := .sel, b := .sel, c := .sel }

/-- Catalogue operation by key (R150): the key is a pair under `.k64` (x bit 0), and the value and the
destination have the type's width. -/
def ruleCat (f : FormV) (tys : List Ty) (sat : Bool) (x : BitVec 4 → Bool) (b : Use) : Rule :=
  let k := if f.x.getLsbD 0 then 2 else 1
  { tys := tys, sat := sat, x := x, d := .lane f.ty, a := .vec k k, b := b, c := .vec 1 1 }

/-- Two register ranges do not overlap. -/
def rangesApart (a n b m : Nat) : Bool := a + n ≤ b || b + m ≤ a

/-- The operand ranges of a matrix operation (R166): C 64, A 16, B 32 or 64, and `m` of metadata or scales. -/
def ruleMatrix (f : FormV) (tys : List Ty) (sat : Bool) (nb m : Nat) : Rule :=
  let d := f.d.toNat; let a := f.a.toNat; let b := f.b.toNat; let c := f.c.toNat
  { tys := tys, sat := sat, x := (fun x => x.toNat < 4), d := .vec 64 64, a := .vec 16 16, b := .vec nb 32, c := if m = 0 then .zero else .vec m 4, extra := rangesApart d 64 a 16 && rangesApart d 64 b nb && rangesApart a 16 b nb &&
      (m == 0 || (rangesApart c m d 64 && rangesApart c m a 16 && rangesApart c m b nb)) }

def ruleMmaTys (f : FormV) : Bool := f.ty == .i8 || f.ty == .n8

/-- What each instruction of Form V or I accepts, from the tables of the rule named by its row. -/
def Instr.ruleV : Instr → Option (FormV × Rule)
  | .nop f => some (f, { })
  | .brx f => some (f, { a := .sel })
  | .callx f => some (f, { d := .link, a := .sel })
  | .ret f => some (f, { a := .sel })
  | .exit_ f => some (f, { })
  | .yield f => some (f, { })
  | .brk f => some (f, { })
  | .tret f => some (f, { })
  | .add f => some (f, ruleInt f.ty true true (.opnd f.ty) .zero)
  | .sub f => some (f, ruleInt f.ty true true (.opnd f.ty) .zero)
  | .mul f => some (f, ruleInt f.ty true true (.opnd f.ty) .zero)
  | .mulhi f => some (f, ruleInt f.ty false true (.opnd f.ty) .zero)
  | .mad f => some (f, ruleInt f.ty true false (.opnd f.ty) (.opnd f.ty))
  | .madw f => some (f, { tys := [.i32, .n32], sat := true, uni := true, d := .vec 2 2, a := .vec 1 1, b := .src 1, c := .src 2 })
  | .min_ f => some (f, ruleInt f.ty false true (.opnd f.ty) .zero)
  | .max_ f => some (f, ruleInt f.ty false true (.opnd f.ty) .zero)
  | .abs_ f => some (f, { ruleInt f.ty true false .zero .zero with tys := [.i32, .i64] })
  | .neg f => some (f, ruleInt f.ty true false .zero .zero)
  | .and_ f => some (f, ruleInt f.ty false true (.opnd f.ty) .zero)
  | .or_ f => some (f, ruleInt f.ty false true (.opnd f.ty) .zero)
  | .xor_ f => some (f, ruleInt f.ty false true (.opnd f.ty) .zero)
  | .andn f => some (f, ruleInt f.ty false true (.opnd f.ty) .zero)
  | .not_ f => some (f, ruleInt f.ty false false .zero .zero)
  | .shl f => some (f, ruleInt f.ty false true (.src 1) .zero)
  | .shr f => some (f, ruleInt f.ty false true (.src 1) .zero)
  | .sar f => some (f, ruleInt f.ty false true (.src 1) .zero)
  | .rotl f => some (f, ruleInt f.ty false true (.src 1) .zero)
  | .bfx f => some (f, ruleInt f.ty false true (.src 1) .zero)
  | .bfi f => some (f, ruleInt f.ty false false (.src 1) (.opnd f.ty))
  | .popc f => some (f, ruleInt f.ty false false .zero .zero)
  | .clz f => some (f, ruleInt f.ty false false .zero .zero)
  | .ctz f => some (f, ruleInt f.ty false false .zero .zero)
  | .brev f => some (f, ruleInt f.ty false false .zero .zero)
  | .perm f => some (f, { ruleInt f.ty false false (.src 1) (.src 1) with tys := [.b32] })
  | .sel f => some (f, ruleInt f.ty false false (.opnd f.ty) .pred)
  | .cmp f => some (f, { ruleInt f.ty false true (.opnd f.ty) .zero with d := .pred, x := (fun x => x.toNat < 6) })
  | .addc f => some (f, { ruleInt f.ty false false (.opnd f.ty) .pred with extra := !f.u || f.c.toNat < 64 })
  | .subc f => some (f, { ruleInt f.ty false false (.opnd f.ty) .pred with extra := !f.u || f.c.toNat < 64 })
  | .lea f => some (f, { tys := [.i32, .n32], im := true, uni := true, x := (fun _ => true), d := .vec 2 2, a := .vec 1 1, b := .src 2 })
  | .mov f => some (f, { tys := [.b32, .n64], uni := true, d := .lane f.ty, b := .opnd f.ty })
  | .bcast f => some (f, { tys := [.b32, .n64], d := .lane f.ty, a := .lane f.ty })
  | .rdlane f => some (f, { tys := [.b32, .n64], d := .sdst, a := .lane f.ty, b := .selSet })
  | .wrlane f => some (f, { tys := [.b32, .n64], d := .lane f.ty, a := .sel, b := .selSet })
  | .rdsr f => some (f, { tys := [.b32, .n64], uni := true, x := (fun x => x.toNat < 2), d := .lane f.ty, b := if f.x == 0 then .special else .trapReg })
  | .wrsr f => some (f, { uni := true, d := .trapReg, a := .vec 1 1 })
  | .voteAny f => some (f, { d := .pred, a := .pred })
  | .voteAll f => some (f, { d := .pred, a := .pred })
  | .ballot f => some (f, { d := .vec 1 1, a := .pred })
  | .pand f => some (f, { x := (fun x => x.toNat < 4), d := .pred, a := .pred, b := .pred })
  | .por f => some (f, { x := (fun x => x.toNat < 4), d := .pred, a := .pred, b := .pred })
  | .pxor f => some (f, { x := (fun x => x.toNat < 4), d := .pred, a := .pred, b := .pred })
  | .pnot f => some (f, { d := .pred, a := .pred })
  | .ppopc f => some (f, { d := .vec 1 1, a := .pred })
  | .shflIdx f => some (f, ruleShfl f.ty (.opnd f.ty) true true)
  | .shflUp f => some (f, ruleShfl f.ty (.opnd f.ty) true true)
  | .shflDown f => some (f, ruleShfl f.ty (.opnd f.ty) true true)
  | .shflXor f => some (f, ruleShfl f.ty (.opnd f.ty) true true)
  | .qswapH f => some (f, ruleShfl f.ty .zero false true)
  | .qswapV f => some (f, ruleShfl f.ty .zero false true)
  | .qswapD f => some (f, ruleShfl f.ty .zero false true)
  | .qbcast f => some (f, ruleShfl f.ty (.opnd f.ty) true (match f.tail with | .imm i => i.toNat < 4 | _ => true))
  | .redxAdd f => some (f, ruleRedx f true fun x => x == 0)
  | .redxMin f => some (f, ruleRedx f false fun x => x == 0)
  | .redxMax f => some (f, ruleRedx f false fun x => x == 0)
  | .scanxAdd f => some (f, ruleRedx f true fun x => x.toNat < 2)
  | .compact f => some (f, { tys := [.i32, .n32, .f32], x := (fun x => x.toNat < 2), d := .vec 1 1, a := .vec 1 1, b := .src 1, c := .sdstAny })
  | .expand f => some (f, { tys := [.b32, .i32, .n32, .f32, .i64, .n64], d := .lane f.ty, a := .lane f.ty, b := .pred })
  | .fadd f => some (f, ruleFp true true true (.src 1) .zero)
  | .fsub f => some (f, ruleFp true true true (.src 1) .zero)
  | .fmul f => some (f, ruleFp true true true (.src 1) .zero)
  | .ffma f => some (f, ruleFp true false true (.src 1) (.src 1))
  | .fmin f => some (f, ruleFp false true true (.src 1) .zero)
  | .fmax f => some (f, ruleFp false true true (.src 1) .zero)
  | .fminm f => some (f, ruleFp false true true (.src 1) .zero)
  | .fabs f => some (f, ruleFp false false true .zero .zero)
  | .fneg f => some (f, ruleFp false false true .zero .zero)
  | .fcmp f => some (f, { ruleFp false true true (.src 1) .zero with d := .pred, x := (fun x => x.toNat < 8) })
  | .fclass f => some (f, ruleFp false false false .zero .zero)
  | .frcp f => some (f, ruleFp true false false .zero .zero)
  | .frsq f => some (f, ruleFp false false false .zero .zero)
  | .fsqrt f => some (f, ruleFp true false false .zero .zero)
  | .fexp2 f => some (f, ruleFp false false false .zero .zero)
  | .flog2 f => some (f, ruleFp false false false .zero .zero)
  | .fsin f => some (f, ruleFp false false false .zero .zero)
  | .fcos f => some (f, ruleFp false false false .zero .zero)
  | .hadd2 f => some (f, rulePacked true .zero)
  | .hmul2 f => some (f, rulePacked true .zero)
  | .hfma2 f => some (f, rulePacked true (.src 1))
  | .hmin2 f => some (f, rulePacked false .zero)
  | .hmax2 f => some (f, rulePacked false .zero)
  | .hdot2 f => some (f, rulePacked true (.src 1))
  | .cvt f => some (f,
    let st := (Ty.ofCode f.x.toNat).getD .b32
    { tys := tys12, rm := !(f.ty.isInt && st.isInt), sat := true, uni := true, x := (fun _ => tys12.contains st), d := .lane f.ty, a := .lane st, b := .idx st.elems, c := .idx f.ty.elems })
  | .cvtpk f => some (f, { tys := [.f16, .bf16, .e4m3, .e5m2, .e2m1], rm := true, sat := true, x := (fun x => (2 * x.toNat + 1) * f.ty.bits < 32), d := .vec 1 1, a := .vec 1 1, b := .src 1 })
  | .cvtsr f => some (f, { tys := [.f16, .bf16, .e4m3, .e5m2, .e2m1], sat := true, x := (fun x => x == 5), d := .vec 1 1, a := .vec 1 1, b := .selSet, c := .idx f.ty.elems })
  | .qscale f => some (f, { tys := [.e4m3, .e5m2, .e2m1], x := (fun x => x.toNat < 2), d := .vec 1 1, a := .vec 1 1 })
  | .wait f => some (f, { x := (fun x => x.toNat < 7), b := .sel })
  | .bar f => some (f, { x := (fun x => x.toNat < 4) })
  | .arrive f => some (f, { x := (fun x => 1 ≤ x.toNat && x.toNat < 4), d := .sdst, a := .sel, b := .sel })
  | .bwait f => some (f, { x := (fun x => 1 ≤ x.toNat && x.toNat < 4), d := .sdst, a := .sel, b := .sel })
  | .rdclk f => some (f, { x := (fun x => x.toNat < 2), d := .sdst })
  | .sendGlb f => some (f, ruleSend 0)
  | .sendPeer f => some (f, ruleSend 1)
  | .sendTens f => some (f, ruleSend 2)
  | .sendm f => some (f, ruleSend 0)
  | .commission f => some (f, { d := .sel, a := .sel, b := .sel })
  | .cbtest f => some (f, { d := .sdst, a := .sel, b := .sel })
  | .cbwait f => some (f, { a := .sel, b := .sel })
  | .cbclr f => some (f, { a := .sel, b := .sel })
  | .tlayout f => some (f, { x := (fun x => x.toNat < 8), a := .sel })
  | .gath f => some (f, { x := (fun _ => true), d := .sel, a := .vec (if f.x.getLsbD 0 then 2 else 1) (if f.x.getLsbD 0 then 2 else 1), b := .sel, c := .sel })
  | .scat f => some (f, { x := (fun x => x.toNat < 4), d := .sel, a := .vec (if f.x.getLsbD 0 then 2 else 1) (if f.x.getLsbD 0 then 2 else 1), b := .sel, c := .sel })
  | .gstat f => some (f, { x := (fun x => x.toNat < 4), d := .sdst, a := .sel })
  | .cclaim f => some (f, { x := (fun x => x.toNat < 2), d := .sdst, a := .sel, b := .sel, c := .sel })
  | .cfree f => some (f, { })
  | .cins f => some (f, ruleCat f [.b32, .n64] false (fun x => x.toNat < 2) (.opnd f.ty))
  | .cprb f => some (f, ruleCat f [.b32, .n64] false (fun x => x.toNat < 2) .zero)
  | .cdel f => some (f, ruleCat f [.b32, .n64] false (fun x => x.toNat < 2) .zero)
  | .cacc f => some (f, ruleCat f [.i32, .n32, .i64, .n64, .f32, .bf16] f.ty.isInt (fun x => x.toNat < 6) (.opnd f.ty))
  | .cdrn f => some (f, { x := (fun x => x.toNat < 4), d := .sel, a := .sdst, b := .sel, c := .sdst })
  | .cstat f => some (f, { x := (fun x => x.toNat < 4), d := .sdst })
  | .gret f => some (f, { })
  | .gabort f => some (f, { })
  | .halt f => some (f, { })
  | .haltAll f => some (f, { x := (fun x => x == 1) })
  | .mzero f => some (f, { d := .vec 64 64 })
  | .mrdy f => some (f, { })
  | .mma f => some (f, ruleMatrix f [.f16, .bf16, .e4m3, .e5m2, .i8, .n8] (ruleMmaTys f) 32 0)
  | .mmaSp f => some (f, ruleMatrix f [.f16, .bf16, .e4m3, .e5m2, .i8, .n8] (ruleMmaTys f) 64 4)
  | .mmx f => some (f, ruleMatrix f [.e4m3, .e5m2, .e2m1] false 32 3)
  | .mwait f => some (f, { x := (fun x => x.toNat < 4) })
  | .mdrain f => some (f, { })
  | .aopen f => some (f, { x := (fun x => x.toNat < 8), d := .sdst, a := .sel, b := .sel })
  | .asend f => some (f, { tys := [.b32, .n64], x := (fun x => x.toNat < 4), a := .lane f.ty })
  | .arecv f => some (f, { tys := [.b32, .n64], x := (fun x => x.toNat < 4), d := .lane f.ty, c := .sdst })
  | .aacc f => some (f, { tys := [.i32, .n32, .i64, .n64, .f32], sat := f.ty.isInt, x := (fun x => x.toNat < 12), a := .lane f.ty })
  | .acmd f => some (f, { a := .sel, b := .sel, extra := f.a.toNat % 2 == 0 && 2 ≤ f.a.toNat && f.a.toNat < 64 })
  | .afence f => some (f, { })
  | .aclose f => some (f, { x := (fun x => x.toNat < 4) })
  | .nidx f => some (f, { tys := [.i32, .f32, .bf16], x := (fun x => x.toNat < 2), d := .sel, a := .vec 4 4, b := .sel, c := .sel })
  | .nfence f => some (f, { })
  | .launch f => some (f, { d := .sdst, a := .sel, b := .sel })
  | .rlaunch f => some (f, { d := .sdst, a := .sel, b := .sel })
  | _ => none

/-- The lane width in registers of a Form M access of the given size (R57, R119). -/
def sizeRegs (size : BitVec 2) : Nat := if size == 3 then 2 else 1

/-- The vector registers of field d of a Form M access: a plain load or store, a four-register form, an
atomic (cas also holds the new word, R123), or none. -/
def Instr.regsM : Instr → Option (FormM × List Nat)
  | .ld f => some (f, (List.range (sizeRegs f.size)).map (f.d.toNat + ·))
  | .st f => some (f, (List.range (sizeRegs f.size)).map (f.d.toNat + ·))
  | .lds f => some (f, (List.range (sizeRegs f.size)).map (f.d.toNat + ·))
  | .sts f => some (f, (List.range (sizeRegs f.size)).map (f.d.toNat + ·))
  | .nmr f => some (f, (List.range (sizeRegs f.size)).map (f.d.toNat + ·))
  | .ldx4 f => some (f, (List.range 4).map (f.d.toNat + ·))
  | .stx4 f => some (f, (List.range 4).map (f.d.toNat + ·))
  | .ldsx4 f => some (f, (List.range 4).map (f.d.toNat + ·))
  | .stsx4 f => some (f, (List.range 4).map (f.d.toNat + ·))
  | .atomAdd f => some (f, (List.range (sizeRegs f.size)).map (f.d.toNat + ·))
  | .atomMin f => some (f, (List.range (sizeRegs f.size)).map (f.d.toNat + ·))
  | .atomMax f => some (f, (List.range (sizeRegs f.size)).map (f.d.toNat + ·))
  | .atomAnd f => some (f, (List.range (sizeRegs f.size)).map (f.d.toNat + ·))
  | .atomOr f => some (f, (List.range (sizeRegs f.size)).map (f.d.toNat + ·))
  | .atomXor f => some (f, (List.range (sizeRegs f.size)).map (f.d.toNat + ·))
  | .atomXchg f => some (f, (List.range (sizeRegs f.size)).map (f.d.toNat + ·))
  | .atomCas f => some (f, (List.range (2 * sizeRegs f.size)).map (f.d.toNat + ·))
  | .atomFadd f => some (f, (List.range (sizeRegs f.size)).map (f.d.toNat + ·))
  | .atomFmin f => some (f, (List.range (sizeRegs f.size)).map (f.d.toNat + ·))
  | .atomFmax f => some (f, (List.range (sizeRegs f.size)).map (f.d.toNat + ·))
  | .atomBfadd2 f => some (f, (List.range (sizeRegs f.size)).map (f.d.toNat + ·))
  | .redAdd f => some (f, (List.range (sizeRegs f.size)).map (f.d.toNat + ·))
  | .redMin f => some (f, (List.range (sizeRegs f.size)).map (f.d.toNat + ·))
  | .redMax f => some (f, (List.range (sizeRegs f.size)).map (f.d.toNat + ·))
  | .redAnd f => some (f, (List.range (sizeRegs f.size)).map (f.d.toNat + ·))
  | .redOr f => some (f, (List.range (sizeRegs f.size)).map (f.d.toNat + ·))
  | .redXor f => some (f, (List.range (sizeRegs f.size)).map (f.d.toNat + ·))
  | .redFadd f => some (f, (List.range (sizeRegs f.size)).map (f.d.toNat + ·))
  | .redFmin f => some (f, (List.range (sizeRegs f.size)).map (f.d.toNat + ·))
  | .redFmax f => some (f, (List.range (sizeRegs f.size)).map (f.d.toNat + ·))
  | .redBfadd2 f => some (f, (List.range (sizeRegs f.size)).map (f.d.toNat + ·))
  | .prf f => some (f, [])
  | .fence f => some (f, [])
  | .renew f => some (f, [])
  | _ => none

/-- Which sizes, orders, scopes and hints a Form M instruction accepts (R118, R122, R125, R181). -/
def Instr.okM : Instr → Bool
  | .ld f => f.order != .rel && f.order != .ar
  | .st f => f.order != .acq && f.order != .ar
  | .ldx4 f => f.size == 2 && (f.order == .rlx || f.order == .acq)
  | .stx4 f => f.size == 2 && (f.order == .rlx || f.order == .rel)
  | .lds f => (f.order == .rlx || f.order == .acq) && f.scope == .blk && f.hint == 0
  | .sts f => (f.order == .rlx || f.order == .rel) && f.scope == .blk && f.hint == 0
  | .ldsx4 f => f.size == 2 && (f.order == .rlx || f.order == .acq) && f.scope == .blk && f.hint == 0
  | .stsx4 f => f.size == 2 && (f.order == .rlx || f.order == .rel) && f.scope == .blk && f.hint == 0
  | .prf f => f.order == .rlx && (f.scope == .blk || f.scope == .dev) && f.d == 0
  | .fence f => f.order != .rlx && !f.ix && f.d == 0 && f.size == 0 && f.base == 0 && f.off == 0 && f.hint == 0
  | .renew f => f.order == .rlx && f.scope != .blk && f.d == 0
  | .nmr f => (f.order == .rlx || f.order == .rel) && f.scope == .dev && f.hint.toNat < 11 && 2 ≤ f.size.toNat &&
      (f.size == 2 || !([1, 2, 5, 6].contains f.hint.toNat))
  | .atomAdd f => f.hint.getLsbD 0 == false && 2 ≤ f.size.toNat
  | .atomMin f => f.hint.getLsbD 0 == false && 2 ≤ f.size.toNat
  | .atomMax f => f.hint.getLsbD 0 == false && 2 ≤ f.size.toNat
  | .atomAnd f => f.hint.getLsbD 0 == false && 2 ≤ f.size.toNat
  | .atomOr f => f.hint.getLsbD 0 == false && 2 ≤ f.size.toNat
  | .atomXor f => f.hint.getLsbD 0 == false && 2 ≤ f.size.toNat
  | .atomXchg f => f.hint.getLsbD 0 == false && 2 ≤ f.size.toNat
  | .atomCas f => f.hint.getLsbD 0 == false && 2 ≤ f.size.toNat
  | .atomFadd f => f.hint.getLsbD 0 == false && f.size == 2
  | .atomFmin f => f.hint.getLsbD 0 == false && f.size == 2
  | .atomFmax f => f.hint.getLsbD 0 == false && f.size == 2
  | .atomBfadd2 f => f.hint.getLsbD 0 == false && f.size == 2
  | .redAdd f => f.hint.getLsbD 0 && 2 ≤ f.size.toNat
  | .redMin f => f.hint.getLsbD 0 && 2 ≤ f.size.toNat
  | .redMax f => f.hint.getLsbD 0 && 2 ≤ f.size.toNat
  | .redAnd f => f.hint.getLsbD 0 && 2 ≤ f.size.toNat
  | .redOr f => f.hint.getLsbD 0 && 2 ≤ f.size.toNat
  | .redXor f => f.hint.getLsbD 0 && 2 ≤ f.size.toNat
  | .redFadd f => f.hint.getLsbD 0 && f.size == 2
  | .redFmin f => f.hint.getLsbD 0 && f.size == 2
  | .redFmax f => f.hint.getLsbD 0 && f.size == 2
  | .redBfadd2 f => f.hint.getLsbD 0 && f.size == 2
  | _ => false

/-- Register ranges of a Form M word are pairs where the size is 8 bytes (R35, R119, R123); `ldx4` and its
like take any base. -/
def FormM.pairOk (f : FormM) : Bool := f.size != 3 || f.d.toNat % 2 == 0

/-- Form L words: `nap`, `trap`, `movi`, `gate`, `rgrow`, `rshrink`. -/
def Instr.okL : Instr → Bool
  | .nap f | .trap f | .rgrow f | .rshrink f => !f.u && f.d == 0 && f.x == 0
  | .movi f => if f.u then f.d.toNat < 64 && f.x.toNat < 3 else f.x == 0
  | .gate f => !f.u && 1 ≤ f.d.toNat && f.d.toNat < 64 && f.imm.toNat < 256 && f.x == 0
  | _ => false

/-- Form B words (R58, R85): `join` takes only the guard p0. -/
def Instr.okB : Instr → Bool
  | .bra f => !f.u && f.k == 0 && f.x == 0
  | .brd f => !f.u && f.k.toNat < 8 && f.x == 0
  | .call f => !f.u && 1 ≤ f.k.toNat && f.k.toNat < 64 && f.x == 0
  | .join f => !f.u && f.k.toNat < 8 && f.disp == 0 && f.x == 0 && f.g == ⟨0, false⟩
  | _ => false

/-- The field checks of a stream command that R70 makes before it touches memory (R68, R191-R194). -/
def StreamCmd.okPort (f : StreamCmd) : Bool := f.port.toNat < 64
/-- The flag bits below 14 that are set stand within `m`. -/
def StreamCmd.flagsIn (f : StreamCmd) (m : BitVec 16) : Bool := f.flags &&& ~~~(m ||| 0x4000#16) == 0
/-- The pattern bits that are set stand within `m`. -/
def StreamCmd.patternIn (f : StreamCmd) (m : BitVec 48) : Bool := f.pattern &&& ~~~m == 0
/-- log2 of the element size, pattern bits 10:9. -/
def StreamCmd.lg (f : StreamCmd) : Nat := (f.pattern.extractLsb' 9 2).toNat
/-- The operator code of `sred`, flags bits 7:4. -/
def StreamCmd.op (f : StreamCmd) : Nat := (f.flags.extractLsb' 4 4).toNat

def Instr.okStream : Instr → Bool
  | .slin f => f.okPort && f.flagsIn 0x8003
  | .sidx f => f.okPort && f.flagsIn 0x8002 && f.patternIn 0x7FFFFFFFF && f.pattern.toNat % 16 == 0
  | .sconst f => f.okPort && f.flagsIn 0x8001 && f.patternIn 0x7FFFFFFFE00
  | .swrite f => f.okPort && f.flagsIn 0x8003
  | .sred f => f.okPort && f.flagsIn 0x80F3 && f.op < 11 && 2 ≤ f.lg &&
      (f.lg == 2 || !([1, 2, 5, 6].contains f.op))
  | .seos f => f.okPort && f.flagsIn 0 && f.patternIn 0
  | .scfg f => f.okPort && f.flagsIn 0 && f.patternIn 3 && f.pattern.toNat < 3
  | .sdrain f => f.okPort && f.flagsIn 0 && f.patternIn 0xFFFF
  | .sbar f => f.okPort && f.flagsIn 0 && f.patternIn 0x1FFFFFFFFFF && f.pattern.toNat % 32 == 0
  | .sland f => f.okPort && f.flagsIn 1 && f.patternIn 0xFFFFFFFF && f.pattern.toNat % 64 == 0 &&
      (f.pattern.extractLsb' 29 3).toNat < 3 && 2 ≤ (f.pattern.extractLsb' 9 20).toNat
  | .sgath f => f.okPort && f.flagsIn 0x801E && f.patternIn 0x7FFFFFFFF && f.pattern.toNat % 16 == 0
  | .spage f => f.okPort && f.flagsIn 0 && f.patternIn 0xFF && (f.pattern.extractLsb' 6 2).toNat < 3
  | _ => false

/-- Reserved bits and limits of compact words (R65-R67, R189). -/
def Instr.okCompact : Instr → Bool
  | .seqAdd _ | .seqSub _ | .seqMul _ | .seqAnd _ | .seqOr _ | .seqXor _ | .seqShl _ | .seqShr _ | .seqShrA _ => true
  | .seqAddi _ | .seqLih _ | .seqLd _ | .seqSt _ | .seqBeq _ | .seqBne _ | .seqBlt _ | .seqBge _ | .seqJal _ => true
  | .seqJmp f => f.d == 0
  | .seqScmd f => f.d.toNat % 2 == 0 && f.a == 0 && f.imm == 0
  | .seqSwait f => f.imm.toNat < 2
  | .seqSsig f => f.d == 0 && f.imm.toNat < 8
  | .seqSfault f => f.d == 0
  | .seqNop | .seqStop => true
  | _ => false

/-- The vector registers that a core word names or implies (R34). -/
def Instr.vregs (i : Instr) : List Nat :=
  match i.ruleV with
  | some (f, r) => r.regs f
  | none =>
    match i.regsM with
    | some (f, rs) => rs ++ (if f.ix then [f.b.toNat] else [])
    | none =>
      match i with
      | .movi f => if f.u then [] else [f.d.toNat]
      | _ => []

/-- R63 for every kind of word: the fields are ones the instruction accepts. A step that no word encodes
is well formed. -/
def Instr.accepted (i : Instr) : Bool :=
  match i.ruleV with
  | some (f, r) => r.ok f
  | none =>
    match i.regsM with
    | some (f, _) => i.okM && f.pairOk && (f.ix || f.b == 0)
    | none =>
      match i with
      | .bra _ => i.okB
      | .brd _ => i.okB
      | .call _ => i.okB
      | .join _ => i.okB
      | .nap _ => i.okL
      | .trap _ => i.okL
      | .movi _ => i.okL
      | .gate _ => i.okL
      | .rgrow _ => i.okL
      | .rshrink _ => i.okL
      | .seqAdd _ => i.okCompact
      | .seqSub _ => i.okCompact
      | .seqAddi _ => i.okCompact
      | .seqMul _ => i.okCompact
      | .seqAnd _ => i.okCompact
      | .seqOr _ => i.okCompact
      | .seqXor _ => i.okCompact
      | .seqShl _ => i.okCompact
      | .seqShr _ => i.okCompact
      | .seqShrA _ => i.okCompact
      | .seqLih _ => i.okCompact
      | .seqLd _ => i.okCompact
      | .seqSt _ => i.okCompact
      | .seqBeq _ => i.okCompact
      | .seqBne _ => i.okCompact
      | .seqBlt _ => i.okCompact
      | .seqBge _ => i.okCompact
      | .seqJmp _ => i.okCompact
      | .seqJal _ => i.okCompact
      | .seqScmd _ => i.okCompact
      | .seqSwait _ => i.okCompact
      | .seqSsig _ => i.okCompact
      | .seqSfault _ => i.okCompact
      | .slin _ => i.okStream
      | .sidx _ => i.okStream
      | .sconst _ => i.okStream
      | .swrite _ => i.okStream
      | .sred _ => i.okStream
      | .seos _ => i.okStream
      | .scfg _ => i.okStream
      | .sdrain _ => i.okStream
      | .sbar _ => i.okStream
      | .sland _ => i.okStream
      | .sgath _ => i.okStream
      | .spage _ => i.okStream
      | _ => true

/-- What an instruction is a step of. -/
inductive Kind where
  | core | compact | stream | firing | event
  deriving DecidableEq, Repr

/-- A core word, a compact word, a stream command, an FU firing, or a step that no word encodes. -/
def Instr.kind : Instr → Kind
  | .nop .. => .core
  | .bra .. => .core
  | .brd .. => .core
  | .brx .. => .core
  | .call .. => .core
  | .callx .. => .core
  | .ret .. => .core
  | .join .. => .core
  | .exit_ .. => .core
  | .yield .. => .core
  | .nap .. => .core
  | .brk .. => .core
  | .trap .. => .core
  | .tret .. => .core
  | .add .. => .core
  | .sub .. => .core
  | .mul .. => .core
  | .mulhi .. => .core
  | .mad .. => .core
  | .madw .. => .core
  | .min_ .. => .core
  | .max_ .. => .core
  | .abs_ .. => .core
  | .neg .. => .core
  | .and_ .. => .core
  | .or_ .. => .core
  | .xor_ .. => .core
  | .andn .. => .core
  | .not_ .. => .core
  | .shl .. => .core
  | .shr .. => .core
  | .sar .. => .core
  | .rotl .. => .core
  | .bfx .. => .core
  | .bfi .. => .core
  | .popc .. => .core
  | .clz .. => .core
  | .ctz .. => .core
  | .brev .. => .core
  | .perm .. => .core
  | .sel .. => .core
  | .cmp .. => .core
  | .addc .. => .core
  | .subc .. => .core
  | .lea .. => .core
  | .mov .. => .core
  | .movi .. => .core
  | .bcast .. => .core
  | .rdlane .. => .core
  | .wrlane .. => .core
  | .rdsr .. => .core
  | .wrsr .. => .core
  | .voteAny .. => .core
  | .voteAll .. => .core
  | .ballot .. => .core
  | .pand .. => .core
  | .por .. => .core
  | .pxor .. => .core
  | .pnot .. => .core
  | .ppopc .. => .core
  | .shflIdx .. => .core
  | .shflUp .. => .core
  | .shflDown .. => .core
  | .shflXor .. => .core
  | .qswapH .. => .core
  | .qswapV .. => .core
  | .qswapD .. => .core
  | .qbcast .. => .core
  | .redxAdd .. => .core
  | .redxMin .. => .core
  | .redxMax .. => .core
  | .scanxAdd .. => .core
  | .compact .. => .core
  | .expand .. => .core
  | .fadd .. => .core
  | .fsub .. => .core
  | .fmul .. => .core
  | .ffma .. => .core
  | .fmin .. => .core
  | .fmax .. => .core
  | .fminm .. => .core
  | .fabs .. => .core
  | .fneg .. => .core
  | .fcmp .. => .core
  | .fclass .. => .core
  | .frcp .. => .core
  | .frsq .. => .core
  | .fsqrt .. => .core
  | .fexp2 .. => .core
  | .flog2 .. => .core
  | .fsin .. => .core
  | .fcos .. => .core
  | .hadd2 .. => .core
  | .hmul2 .. => .core
  | .hfma2 .. => .core
  | .hmin2 .. => .core
  | .hmax2 .. => .core
  | .hdot2 .. => .core
  | .cvt .. => .core
  | .cvtpk .. => .core
  | .cvtsr .. => .core
  | .qscale .. => .core
  | .ld .. => .core
  | .st .. => .core
  | .ldx4 .. => .core
  | .stx4 .. => .core
  | .lds .. => .core
  | .sts .. => .core
  | .ldsx4 .. => .core
  | .stsx4 .. => .core
  | .prf .. => .core
  | .atomAdd .. => .core
  | .atomMin .. => .core
  | .atomMax .. => .core
  | .atomAnd .. => .core
  | .atomOr .. => .core
  | .atomXor .. => .core
  | .atomXchg .. => .core
  | .atomCas .. => .core
  | .atomFadd .. => .core
  | .atomFmin .. => .core
  | .atomFmax .. => .core
  | .atomBfadd2 .. => .core
  | .redAdd .. => .core
  | .redMin .. => .core
  | .redMax .. => .core
  | .redAnd .. => .core
  | .redOr .. => .core
  | .redXor .. => .core
  | .redFadd .. => .core
  | .redFmin .. => .core
  | .redFmax .. => .core
  | .redBfadd2 .. => .core
  | .fence .. => .core
  | .wait .. => .core
  | .bar .. => .core
  | .arrive .. => .core
  | .bwait .. => .core
  | .renew .. => .core
  | .rdclk .. => .core
  | .sendGlb .. => .core
  | .sendPeer .. => .core
  | .sendTens .. => .core
  | .sendm .. => .core
  | .commission .. => .core
  | .cbtest .. => .core
  | .cbwait .. => .core
  | .cbclr .. => .core
  | .tlayout .. => .core
  | .gath .. => .core
  | .scat .. => .core
  | .gstat .. => .core
  | .cclaim .. => .core
  | .cfree .. => .core
  | .cins .. => .core
  | .cprb .. => .core
  | .cdel .. => .core
  | .cacc .. => .core
  | .cdrn .. => .core
  | .cstat .. => .core
  | .gate .. => .core
  | .gret .. => .core
  | .gabort .. => .core
  | .rgrow .. => .core
  | .rshrink .. => .core
  | .halt .. => .core
  | .haltAll .. => .core
  | .mzero .. => .core
  | .mrdy .. => .core
  | .mma .. => .core
  | .mmaSp .. => .core
  | .mmx .. => .core
  | .mwait .. => .core
  | .mdrain .. => .core
  | .aopen .. => .core
  | .asend .. => .core
  | .arecv .. => .core
  | .aacc .. => .core
  | .acmd .. => .core
  | .afence .. => .core
  | .aclose .. => .core
  | .nmr .. => .core
  | .nidx .. => .core
  | .nfence .. => .core
  | .launch .. => .core
  | .rlaunch .. => .core
  | .seqAdd .. => .compact
  | .seqSub .. => .compact
  | .seqAddi .. => .compact
  | .seqMul .. => .compact
  | .seqAnd .. => .compact
  | .seqOr .. => .compact
  | .seqXor .. => .compact
  | .seqShl .. => .compact
  | .seqShr .. => .compact
  | .seqShrA .. => .compact
  | .seqLih .. => .compact
  | .seqLd .. => .compact
  | .seqSt .. => .compact
  | .seqBeq .. => .compact
  | .seqBne .. => .compact
  | .seqBlt .. => .compact
  | .seqBge .. => .compact
  | .seqJmp .. => .compact
  | .seqJal .. => .compact
  | .seqScmd .. => .compact
  | .seqSwait .. => .compact
  | .seqSsig .. => .compact
  | .seqSfault .. => .compact
  | .seqNop => .compact
  | .seqStop => .compact
  | .slin .. => .stream
  | .sidx .. => .stream
  | .sconst .. => .stream
  | .swrite .. => .stream
  | .sred .. => .stream
  | .seos .. => .stream
  | .scfg .. => .stream
  | .sdrain .. => .stream
  | .sbar .. => .stream
  | .sland .. => .stream
  | .sgath .. => .stream
  | .spage .. => .stream
  | .fuFadd .. => .firing
  | .fuFmul .. => .firing
  | .fuFfma .. => .firing
  | .fuFmax .. => .firing
  | .fuFmin .. => .firing
  | .fuBfma2 .. => .firing
  | .fuF8dot4 .. => .firing
  | .fuIadd .. => .firing
  | .fuIsub .. => .firing
  | .fuImul .. => .firing
  | .fuImad .. => .firing
  | .fuAnd .. => .firing
  | .fuOr .. => .firing
  | .fuXor .. => .firing
  | .fuShl .. => .firing
  | .fuShr .. => .firing
  | .fuCmp .. => .firing
  | .fuSel .. => .firing
  | .fuAcc .. => .firing
  | .fuMerge .. => .firing
  | .fuSteer .. => .firing
  | .fuRepeat .. => .firing
  | .fuCount .. => .firing
  | .fuAgen .. => .firing
  | .fuTag .. => .firing
  | .fuUntag .. => .firing
  | .fuTagck .. => .firing
  | .fuHash .. => .firing
  | .fuOwner .. => .firing
  | .fuLdt .. => .firing
  | .fuStt .. => .firing
  | .fuFifo .. => .firing
  | .fuMcast .. => .firing
  | .fuCtlSeq .. => .firing
  | .fuCtlPipe .. => .firing
  | .fuCtlStream .. => .firing
  | _ => .event

end Sys2Proof
end

