-- ==== Sys2Proof/Machine/Alu.lean ====
section
/-! DEFINITION. The integer results of R95, R96 and the address computation of `lea`, on one lane. An operand
is its W bits in a 64-bit word, zeros above (R83). -/
namespace Sys2Proof

/-- Operation width W (R83). -/
def Ty.w (t : Ty) : Nat := if t.wide then 64 else 32

/-- Types whose values are read as signed (R83). -/
def Ty.isSigned : Ty → Bool
  | .i32 | .i64 | .i8 => true
  | _ => false

/-- The low `n` bits of a value. -/
def low (n : Nat) (x : Dword) : Dword := (x.setWidth n).setWidth 64

/-- `val(x)` of R83 for a value of `n` bits. -/
def valN (isSigned : Bool) (n : Nat) (x : Dword) : Int :=
  if isSigned then (x.setWidth n).toInt else ((x.setWidth n).toNat : Int)

/-- `val(x)` of R83. -/
def Ty.val (t : Ty) (x : Dword) : Int := valN t.isSigned t.w x

/-- Smallest and largest value of an integer type (R11); b32 clamps as n32 (R95). -/
def Ty.lo (t : Ty) : Int := if t.isSigned then -(2 ^ ((if t.wide then 64 else t.bits) - 1) : Int) else 0
def Ty.hi (t : Ty) : Int :=
  if t.isSigned then (2 ^ ((if t.wide then 64 else t.bits) - 1) : Int) - 1
  else (2 ^ (if t.wide then 64 else t.bits) : Int) - 1

/-- R95: clamp under `.sat`, then keep W bits. -/
def Ty.wrap (t : Ty) (sat : Bool) (r : Int) : Dword :=
  let r := if sat then (if r < t.lo then t.lo else if t.hi < r then t.hi else r) else r
  low t.w (BitVec.ofInt 64 r)

/-- Population count of the low `n` bits. -/
def popBits (n : Nat) (x : Dword) : Nat := ((List.range n).filter fun i => x.getLsbD i).length

/-- Leading zeros of the low `n` bits; n for zero. -/
def clzBits (n : Nat) (x : Dword) : Nat := ((List.range n).takeWhile fun i => !x.getLsbD (n - 1 - i)).length

/-- Trailing zeros of the low `n` bits; n for zero. -/
def ctzBits (n : Nat) (x : Dword) : Nat := ((List.range n).takeWhile fun i => !x.getLsbD i).length

/-- Bit reversal of the low `n` bits (R95). -/
def revBits (n : Nat) (x : Dword) : Dword :=
  (List.range n).foldl (fun r i => if x.getLsbD i then r ||| (1 <<< (n - 1 - i)) else r) 0

/-- A word of the `n` lowest bits set. -/
def onesN (n : Nat) : Dword := BitVec.ofNat 64 (2 ^ n - 1)

/-- `shl` (R96). -/
def shlN (w : Nat) (a : Dword) (n : Nat) : Dword := if n < w then low w (a <<< n) else 0
/-- `shr` (R96). -/
def shrN (w : Nat) (a : Dword) (n : Nat) : Dword := if n < w then low w a >>> n else 0
/-- `sar` (R96). -/
def sarN (w : Nat) (a : Dword) (n : Nat) : Dword :=
  low w (BitVec.ofInt 64 (valN true w a / (2 ^ (if n < w - 1 then n else w - 1) : Int)))
/-- `rotl` (R96). -/
def rotlN (w : Nat) (a : Dword) (n : Nat) : Dword :=
  let k := n % w
  if k = 0 then low w a else low w (a <<< k) ||| (low w a >>> (w - k))

/-- `bfx` (R96), with pos and len from the descriptor. -/
def bfxN (isSigned : Bool) (w : Nat) (a : Dword) (desc : Dword) : Dword :=
  let pos := (desc.extractLsb' 0 8).toNat
  let len := (desc.extractLsb' 8 8).toNat
  if len = 0 || w ≤ pos then 0
  else
    let m := if len < w - pos then len else w - pos
    let f := (a >>> pos).setWidth m
    low w (if isSigned then f.signExtend 64 else f.setWidth 64)

/-- `bfi` (R96). -/
def bfiN (w : Nat) (a desc c : Dword) : Dword :=
  let pos := (desc.extractLsb' 0 8).toNat
  let len := (desc.extractLsb' 8 8).toNat
  if len = 0 || w ≤ pos then low w c
  else
    let m := if len < w - pos then len else w - pos
    let mask := onesN m <<< pos
    low w ((c &&& ~~~mask) ||| ((a <<< pos) &&& mask))

/-- `perm` (R95): byte i is byte c[4i+2:4i] of b:a, or 0 when c[4i+3] is set. -/
def permBytes (a b c : Dword) : Dword :=
  let ab := low 32 a ||| (low 32 b <<< 32)
  (List.range 4).foldl (fun r i =>
    let sel := (c >>> (4 * i)).extractLsb' 0 4
    let byte : Dword := if sel.getLsbD 3 then 0 else (ab >>> (8 * (sel.extractLsb' 0 3).toNat)) &&& 0xFF
    r ||| (byte <<< (8 * i))) 0

/-- `lea` (R95): b + ext(a[31:0]) * 2^x, modulo 2^64. -/
def leaSum (isSigned : Bool) (a b : Dword) (x : Nat) : Dword :=
  b + (BitVec.ofInt 64 (valN isSigned 32 a)) <<< x

end Sys2Proof
end

