-- ==== Sys2Proof/Config.lean ====
section
/-! DEFINITION. What an implementation fixes and the manual leaves open: constants without a body.
Nothing in Lean can evaluate them, so a statement about a run holds whatever they are. -/
namespace Sys2Proof.Config

/-- Undefined values (R5): the n-th fresh 64-bit value. LOG 3. -/
opaque freeWord : Nat → BitVec 64
/-- Undefined bytes: the byte at an offset of the n-th fresh block. LOG 3. -/
opaque freeByte : Nat → Nat → BitVec 8
/-- Which of two listed outcomes happens (R52), the n-th time. LOG 3. -/
opaque freeBit : Nat → Bool
/-- For a faithful function (R106) of the given fn and an operand: round up or down. A fixed function. LOG 9. -/
opaque faithfulUp : Nat → BitVec 32 → Bool
/-- `fsin` and `fcos` of a finite operand beyond 2^24 (R106): a fixed function of fn and operand, before the
bound to [-1, 1]. LOG 9. -/
opaque sincosBig : Nat → BitVec 32 → BitVec 32
/-- The first n bits of SHAKE256 (R394). LOG 10. -/
opaque shake : List (BitVec 8) → Nat → Nat
/-- KMAC256 tags, AES-XTS and AES-GCM are not computed; Falcon-1024 key generation and verification (R394, R396). LOG 10. -/
opaque falconPublic : Nat → Nat
opaque falconVerify : Nat → List (BitVec 8) → Nat → Bool
opaque falconSign : Nat → List (BitVec 8) → Nat
/-- The Keep's random number generator (R394), the n-th draw. LOG 10. -/
opaque random : Nat → Nat
/-- The fused device secret, serial number, revocation bits and factory map of R393. LOG 7. -/
opaque fuseSecret : BitVec 512
opaque fuseSerial : BitVec 60
opaque fuseRevoke : BitVec 4
opaque fuseFactory : BitVec 192
/-- The ROM's own digest (R392) and the four ROM root keys (R395). LOG 7. -/
opaque romDigest : Nat
opaque rootKey : Nat → Nat
/-- Troiq's certificate for an identity key (R394). LOG 10. -/
opaque certificate : Nat → Nat
/-- Firmware's choices: the hot-row threshold (R144), the service-ring slots (R408), the Spire spare
threshold (R414), and the general save pool's size (R362). LOG 11. -/
opaque hotThreshold : Nat
opaque serviceSlots : Nat
opaque savePool : Nat
/-- This device's number on the Spire link (R374), assigned by firmware. LOG 11. -/
opaque deviceNumber : Nat

/-- Whether the Lantern submitted the packet in a slot of the queue with a descriptor (R199). LOG 82. -/
opaque lanternSubmitted : Nat → Nat → Bool
/-- Firmware enables MSI-X for a domain (R369); what domain 0 is created with: its granules, control block, fault queue and
table root (R392). LOG 11. -/
opaque msixEnabled : Nat → Bool
opaque rootGranules : List Nat
opaque rootControl : BitVec 64
opaque rootFaults : BitVec 64
opaque rootTable : Nat
/-- Where device-private memory lies, the granules that the device keeps for itself, and the table index at which the management
Curator's gate entry k stands, with its fields as the 256 bits of R155 (R395, R399, R400). LOG 157, 158, 159. -/
opaque privateBase : Nat
opaque deviceGranules : List Nat
opaque curatorGates : List (Nat × BitVec 256)
/-- Firmware's routing table: the Spire port that leads to a device (R374). LOG 11. -/
opaque routeTo : Nat → Nat
/-- The link key of a port, as the two Keeps agree it (R374, R394). LOG 10. -/
opaque linkKey : Nat → Nat → Nat
/-- The bank of a row and the number of spare rows in a bank (R411). LOG 35. -/
opaque bankOf : Nat → Nat
opaque spareRows : Nat

/-- The HBM row that holds a line, which the manual leaves to timing (R367). LOG 35. -/
opaque rowOf : Nat → Nat

end Sys2Proof.Config
end

