-- ==== Sys2Proof/Machine/Table.lean ====
section
/-! DEFINITION. Operations on the sparse tables of the state, and small list and bit helpers. -/
namespace Sys2Proof

/-- The entry with a key. -/
def Map.look {α : Type} (m : Map α) (k : Nat) : Option α :=
  match m with
  | [] => none
  | e :: t => if e.1 = k then some e.2 else Map.look t k

/-- The table with the entry of a key set; keys stay strictly rising. -/
def Map.put {α : Type} (m : Map α) (k : Nat) (x : α) : Map α :=
  match m with
  | [] => [(k, x)]
  | e :: t => if k < e.1 then (k, x) :: e :: t else if e.1 = k then (k, x) :: t else e :: Map.put t k x

/-- The table without the entries of a key. -/
def Map.del {α : Type} (m : Map α) (k : Nat) : Map α :=
  match m with
  | [] => []
  | e :: t => if e.1 = k then Map.del t k else e :: Map.del t k

/-- The value at a key of a table whose unlisted entries are `d`. -/
def Map.get {α : Type} (d : α) (m : Map α) (k : Nat) : α := (m.look k).getD d

/-- Set the value at a key of a table whose unlisted entries are `d`; an entry equal to `d` is not listed. -/
def Map.set {α : Type} [DecidableEq α] (d : α) (m : Map α) (k : Nat) (x : α) : Map α :=
  if x = d then m.del k else m.put k x

/-- Set or remove an entry. -/
def Map.upd {α : Type} (m : Map α) (k : Nat) (x : Option α) : Map α :=
  match x with
  | some x => m.put k x
  | none => m.del k

/-- Apply a function to the entry of a key, if there is one. -/
def Map.adjust {α : Type} (m : Map α) (k : Nat) (f : α → α) : Map α :=
  match m.look k with
  | some x => m.put k (f x)
  | none => m

/-- Keys strictly rising, all above `lo`. -/
def Map.rising {α : Type} (lo : Option Nat) (m : Map α) : Bool :=
  match m with
  | [] => true
  | e :: t => (match lo with | none => true | some b => b < e.1) && Map.rising (some e.1) t

/-- The canonical form of a table whose unlisted entries are `d`: keys strictly rising, no entry `d`. -/
def Map.wf {α : Type} [DecidableEq α] (d : α) (m : Map α) : Bool :=
  Map.rising none m && m.all fun e => decide (e.2 ≠ d)

/-- The lowest key from `n` on that is not listed, looking at most `fuel` keys. -/
def Map.freeKey {α : Type} (m : Map α) (n fuel : Nat) : Nat :=
  match fuel with
  | 0 => n
  | fuel + 1 => if (m.look n).isSome then Map.freeKey m (n + 1) fuel else n

/-- Fold an update over a list of items. -/
def iter {α β : Type} (xs : List α) (s : β) (f : β → α → β) : β := xs.foldl f s

/-- Replace the n-th element. -/
def setNth {α : Type} (xs : List α) (n : Nat) (x : α) : List α :=
  match xs, n with
  | [], _ => []
  | _ :: t, 0 => x :: t
  | y :: t, n + 1 => y :: setNth t n x

/-- The lanes of a mask in ascending order. -/
def lanes (m : LaneMask) : List Nat := (List.range 32).filter fun l => m.getLsbD l

/-- The mask of the lanes that a test accepts. -/
def maskOf (f : Nat → Bool) : LaneMask :=
  (List.range 32).foldl (fun m l => if f l then m ||| (1 <<< l) else m) 0

/-- The number of lanes in a mask. -/
def laneCount (m : LaneMask) : Nat := (lanes m).length

/-- The lowest lane of a mask. -/
def lowestLane (m : LaneMask) : Option Nat := (lanes m).head?

/-- Bits hi..lo of a natural number, as a count from `lo` of `n` bits. -/
def bitsAt (w lo n : Nat) : Nat := w / 2 ^ lo % 2 ^ n

/-- The little-endian value of bytes (R3). -/
def leValue (bs : List Byte) : Nat :=
  match bs with
  | [] => 0
  | b :: t => b.toNat + 256 * leValue t

/-- The `n` little-endian bytes of a value (R3). -/
def leBytes (n v : Nat) : List Byte :=
  match n with
  | 0 => []
  | n + 1 => BitVec.ofNat 8 v :: leBytes n (v / 256)

/-- The smallest multiple of `m` that is at least `n`. -/
def roundUp (n m : Nat) : Nat := (n + m - 1) / m * m

end Sys2Proof
end

