-- ==== Sys2Proof/Machine/Fp.lean ====
section
/-! DEFINITION. Floating-point formats (R12-R16), rounding (R17-R20), special values (R22-R25) and
arithmetic. Every finite value of every format is a whole number of units of 2^-149, and is computed
with exactly; one function rounds. -/
namespace Sys2Proof

/-- What a format does with its all-ones exponent (R14). -/
inductive Specials where
  /-- Infinities and NaNs. -/
  | ieee
  /-- One NaN code per sign, no infinity (E4M3). -/
  | nanOnly
  /-- Neither (E2M1). -/
  | finite
  deriving DecidableEq, Repr

/-- A floating-point format of R12: field widths, bias, the code of the largest finite magnitude and of the
canonical NaN (R22). -/
structure Fmt where
  ebits : Nat
  mbits : Nat
  bias : Nat
  specials : Specials
  maxCode : Nat
  nanCode : Nat
  deriving DecidableEq, Repr

def Fmt.bits (F : Fmt) : Nat := F.ebits + F.mbits + 1

def fp32 : Fmt := ⟨8, 23, 127, .ieee, 0x7F7FFFFF, 0x7FC00000⟩
def fp16 : Fmt := ⟨5, 10, 15, .ieee, 0x7BFF, 0x7E00⟩
def bfloat16 : Fmt := ⟨8, 7, 127, .ieee, 0x7F7F, 0x7FC0⟩
def e4m3Fmt : Fmt := ⟨4, 3, 7, .nanOnly, 0x7E, 0x7F⟩
def e5m2Fmt : Fmt := ⟨5, 2, 15, .ieee, 0x7B, 0x7E⟩
/-- E2M1 has no NaN; a NaN source converts to code 0 (R26). -/
def e2m1Fmt : Fmt := ⟨2, 1, 1, .finite, 0x7, 0⟩

/-- The format of a floating-point type. -/
def Ty.fmt : Ty → Option Fmt
  | .f32 => some fp32 | .f16 => some fp16 | .bf16 => some bfloat16 | .e4m3 => some e4m3Fmt
  | .e5m2 => some e5m2Fmt | .e2m1 => some e2m1Fmt | _ => none

/-- A value: NaN, an infinity, or a sign and a magnitude in units of 2^-149. -/
inductive FpVal where
  | nan
  | inf (neg : Bool)
  | num (neg : Bool) (mag : Nat)
  deriving DecidableEq, Repr

/-- Units of 2^-149 in 1. -/
def fpOne : Nat := 2 ^ 149

/-- The value that a pattern stands for (R12, R14). -/
def Fmt.read (F : Fmt) (w : Nat) : FpVal :=
  let m := w % 2 ^ F.mbits
  let e := w / 2 ^ F.mbits % 2 ^ F.ebits
  let neg := w / 2 ^ (F.ebits + F.mbits) % 2 == 1
  let c := w % 2 ^ (F.ebits + F.mbits)
  if c > F.maxCode then
    (match F.specials with
     | .ieee => if m = 0 then .inf neg else .nan
     | .nanOnly => .nan
     | .finite => .nan)
  else if e = 0 then .num neg (m * 2 ^ (150 - F.bias - F.mbits))
  else .num neg ((2 ^ F.mbits + m) * 2 ^ (149 + e - F.bias - F.mbits))

/-- A pattern with a sign and a magnitude code. -/
def Fmt.code (F : Fmt) (neg : Bool) (c : Nat) : Nat := (if neg then 2 ^ (F.ebits + F.mbits) else 0) + c

/-- The pattern of an infinity of a format that has one. -/
def Fmt.infCode (F : Fmt) (neg : Bool) : Nat := F.code neg (F.maxCode + 1)

/-- The pattern of the smallest power of two's exponent: the largest k with 2^k * den ≤ num, for num > 0. -/
def ilog2 (num den : Nat) : Int :=
  let k : Int := (Nat.log2 num : Int) - (Nat.log2 den : Int)
  if 0 ≤ k then (if den * 2 ^ k.toNat ≤ num then k else k - 1)
  else (if den ≤ num * 2 ^ (-k).toNat then k else k - 1)

/-- Round a quotient to a whole number in a mode, given the sign (R17). -/
def roundQuot (rm : Rm) (neg : Bool) (num den : Nat) : Nat :=
  let n := num / den
  let r := num % den
  let up := match rm with
    | .rne => decide (den < 2 * r) || (decide (2 * r = den) && n % 2 == 1)
    | .rz => false
    | .ru => !neg && r != 0
    | .rd => neg && r != 0
  if up then n + 1 else n

/-- The spacing of the format at a magnitude num/den > 0, as a power of two; below the normal range the
subnormal spacing (R19). -/
def Fmt.spacing (F : Fmt) (num den : Nat) : Int :=
  let lo : Int := 1 - (F.bias : Int) - (F.mbits : Int)
  let q := ilog2 num den - (F.mbits : Int)
  if q < lo then lo else q

/-- num/den in units of 2^q, as a quotient. -/
def scaleQuot (num den : Nat) (q : Int) : Nat × Nat :=
  if 0 ≤ q then (num, den * 2 ^ q.toNat) else (num * 2 ^ (-q).toNat, den)

/-- The magnitude code that a count of spacings 2^q stands for; it goes on past the largest finite code as
the grid of R19 goes on. -/
def Fmt.gridCode (F : Fmt) (q : Int) (n : Nat) : Nat :=
  n + ((q - (1 - (F.bias : Int) - (F.mbits : Int))).toNat) * 2 ^ F.mbits

/-- `round(x, F, m)` of R19 before overflow: the magnitude code of the exact value (-1)^neg * num/den. -/
def Fmt.roundCode (F : Fmt) (rm : Rm) (neg : Bool) (num den : Nat) : Nat :=
  if num = 0 then 0 else
    let q := F.spacing num den
    let s := scaleQuot num den q
    F.gridCode q (roundQuot rm neg s.1 s.2)

/-- `overflow(s, F, m)` of R19, and for the formats without infinities the conversion table of R26. -/
def Fmt.overflow (F : Fmt) (rm : Rm) (neg : Bool) : Nat :=
  match F.specials with
  | .nanOnly => F.nanCode
  | .finite => F.code neg F.maxCode
  | .ieee =>
    match rm with
    | .rne => F.infCode neg
    | .rz => F.code neg F.maxCode
    | .ru => if neg then F.code true F.maxCode else F.infCode false
    | .rd => if neg then F.infCode true else F.code false F.maxCode

/-- A mode that rounds a value of this sign toward zero. -/
def towardZero (rm : Rm) (neg : Bool) : Bool := rm == .rz || (rm == .ru && neg) || (rm == .rd && !neg)

/-- Settle a magnitude code: past the largest finite code it is an overflow, which `.sat` clamps (R26). A mode
that rounds the value toward zero never overflows E4M3 (R26; DEDUCED, LOG 12). -/
def Fmt.settle (F : Fmt) (rm : Rm) (sat : Bool) (neg : Bool) (c : Nat) : Nat :=
  if c ≤ F.maxCode then F.code neg c
  else if sat || towardZero rm neg then F.code neg F.maxCode
  else F.overflow rm neg

/-- The pattern of F nearest in the mode to (-1)^neg * num/den (R19). -/
def Fmt.round (F : Fmt) (rm : Rm) (neg : Bool) (num den : Nat) : Nat :=
  F.settle rm false neg (F.roundCode rm neg num den)

/-- The pattern of a value that has one in F. -/
def Fmt.exact (F : Fmt) (rm : Rm) (v : FpVal) : Nat :=
  match v with
  | .nan => F.nanCode
  | .inf neg => F.infCode neg
  | .num neg m => F.round rm neg m fpOne

/-- A signed exact magnitude. -/
def signed (neg : Bool) (m : Nat) : Int := if neg then -(m : Int) else (m : Int)

/-- The sign of an exact zero sum (R19). -/
def zeroSign (rm : Rm) (allNegZero : Bool) : Bool := allNegZero || rm == .rd

/-- Round an exact sum `x`/den; when it is zero its sign is by R19. -/
def Fmt.roundSum (F : Fmt) (rm : Rm) (allNegZero : Bool) (x : Int) (den : Nat) : Nat :=
  if x = 0 then F.code (zeroSign rm allNegZero) 0 else F.round rm (decide (x < 0)) x.natAbs den

/-- An exact product of two values, in units of 2^-298 when finite. -/
def FpVal.mul (x y : FpVal) : FpVal :=
  match x, y with
  | .nan, _ => .nan
  | _, .nan => .nan
  | .inf a, .inf b => .inf (a != b)
  | .inf a, .num b m => if m = 0 then .nan else .inf (a != b)
  | .num a m, .inf b => if m = 0 then .nan else .inf (a != b)
  | .num a m, .num b n => .num (a != b) (m * n)

/-- The value in units 2^-149 finer by 2^k. -/
def FpVal.finer (k : Nat) (x : FpVal) : FpVal :=
  match x with
  | .num a m => .num a (m * 2 ^ k)
  | x => x

def FpVal.negate (x : FpVal) : FpVal :=
  match x with
  | .nan => .nan
  | .inf a => .inf (!a)
  | .num a m => .num (!a) m

def FpVal.isNegZero : FpVal → Bool
  | .num neg m => neg && m == 0
  | _ => false

/-- The exact sum of terms: NaN if one is a NaN or both infinities occur, an infinity if one occurs, otherwise
the sum and whether every term was -0 (R22, R19). -/
inductive SumVal where
  | nan
  | inf (neg : Bool)
  | num (x : Int) (allNegZero : Bool)
  deriving DecidableEq, Repr

def SumVal.add (s : SumVal) (v : FpVal) : SumVal :=
  match s, v with
  | .nan, _ => .nan
  | _, .nan => .nan
  | .inf a, .inf b => if a == b then .inf a else .nan
  | .inf a, .num _ _ => .inf a
  | .num _ _, .inf b => .inf b
  | .num x z, .num b m => .num (x + signed b m) (z && b && m == 0)

def exactSum (vs : List FpVal) : SumVal := vs.foldl SumVal.add (.num 0 true)

/-- Round a sum of terms that are in units of 1/den, to F. -/
def Fmt.sum (F : Fmt) (rm : Rm) (den : Nat) (vs : List FpVal) : Nat :=
  match exactSum vs with
  | .nan => F.nanCode
  | .inf a => F.infCode a
  | .num x z => F.roundSum rm z x den

/-- Two units 2^-149 multiplied. -/
def fpOne2 : Nat := fpOne * fpOne

def Fmt.add (F : Fmt) (rm : Rm) (a b : Nat) : Nat := F.sum rm fpOne [F.read a, F.read b]
def Fmt.sub (F : Fmt) (rm : Rm) (a b : Nat) : Nat := F.sum rm fpOne [F.read a, (F.read b).negate]
def Fmt.mul (F : Fmt) (rm : Rm) (a b : Nat) : Nat :=
  match (F.read a).mul (F.read b) with
  | .nan => F.nanCode
  | .inf neg => F.infCode neg
  | .num neg m => F.round rm neg m fpOne2
/-- `round(a × b + c)` with one rounding (R104). -/
def Fmt.fma (F : Fmt) (rm : Rm) (a b c : Nat) : Nat :=
  F.sum rm fpOne2 [(F.read a).mul (F.read b), (F.read c).finer 149]

/-- The order of R25 on patterns: -0 below +0. -/
def Fmt.key (F : Fmt) (w : Nat) : Int :=
  let c := w % 2 ^ (F.ebits + F.mbits)
  if w / 2 ^ (F.ebits + F.mbits) % 2 == 1 then -1 - (c : Int) else (c : Int)

def Fmt.isNan (F : Fmt) (w : Nat) : Bool := F.read w == .nan

/-- Minimum by R25. -/
def Fmt.min (F : Fmt) (a b : Nat) : Nat :=
  if F.isNan a && F.isNan b then F.nanCode
  else if F.isNan a then b else if F.isNan b then a
  else if F.key b < F.key a then b else a

/-- Maximum by R25. -/
def Fmt.max (F : Fmt) (a b : Nat) : Nat :=
  if F.isNan a && F.isNan b then F.nanCode
  else if F.isNan a then b else if F.isNan b then a
  else if F.key a < F.key b then b else a

/-- `fminm`: a NaN in either operand gives the canonical NaN (R104). -/
def Fmt.minm (F : Fmt) (a b : Nat) : Nat := if F.isNan a || F.isNan b then F.nanCode else F.min a b

/-- The canonical NaN for a NaN, otherwise the pattern itself (R22). -/
def Fmt.canon (F : Fmt) (w : Nat) : Nat := if F.isNan w then F.nanCode else w

/-- The integer square root by bits, from the highest of `k` bits down. -/
def isqrtLoop (n : Nat) (k : Nat) (r : Nat) : Nat :=
  match k with
  | 0 => r
  | k + 1 => let c := r + 2 ^ k; isqrtLoop n k (if c * c ≤ n then c else r)

def isqrt (n : Nat) : Nat := isqrtLoop n (Nat.log2 n / 2 + 1) 0

/-- A quotient that rounds as the square root of num/den does in every format: the root to 2^-k, and between
two such values a value between them. -/
def sqrtQuot (num den k : Nat) : Nat × Nat :=
  let t := num * 2 ^ (2 * k)
  let s := isqrt (t / den)
  if s * s * den = t then (s, 2 ^ k) else (2 * s + 1, 2 ^ (k + 1))

def fsqrtCode (rm : Rm) (a : Nat) : Nat :=
  match fp32.read a with
  | .nan => fp32.nanCode
  | .inf neg => if neg then fp32.nanCode else fp32.infCode false
  | .num neg m =>
    if m = 0 then fp32.code neg 0
    else if neg then fp32.nanCode
    else let q := sqrtQuot m fpOne 240; fp32.round rm false q.1 q.2

def frcpCode (rm : Rm) (a : Nat) : Nat :=
  match fp32.read a with
  | .nan => fp32.nanCode
  | .inf neg => fp32.code neg 0
  | .num neg m => if m = 0 then fp32.infCode neg else fp32.round rm neg fpOne m

/-- The rounding direction of a faithful function (R106): LOG 9. `fn` is its code in major 0x05. -/
def faithfulRm (fn : Nat) (a : Nat) : Rm := if Config.faithfulUp fn (BitVec.ofNat 32 a) then .ru else .rd

def frsqCode (rm : Rm) (a : Nat) : Nat :=
  match fp32.read a with
  | .nan => fp32.nanCode
  | .inf neg => if neg then fp32.nanCode else 0
  | .num neg m =>
    if m = 0 then fp32.infCode neg
    else if neg then fp32.nanCode
    else let q := sqrtQuot fpOne m 240; fp32.round rm false q.1 q.2

/-- Fixed point with 320 fraction bits for the functions of R106. -/
def fxBits : Nat := 320
def fxOne : Nat := 2 ^ fxBits

/-- Sum of the powers x^k/k! from k = k0, the first term being t. -/
def expLoop (x : Nat) (n : Nat) (k : Nat) (t acc : Nat) : Nat :=
  match n with
  | 0 => acc
  | n + 1 => let t' := t * x / fxOne / (k + 1); expLoop x n (k + 1) t' (acc + t')

/-- Sum of z^(2k+1)/(2k+1): the inverse hyperbolic tangent of z ≤ 1/3. -/
def atanhLoop (z2 : Nat) (n : Nat) (k : Nat) (p acc : Nat) : Nat :=
  match n with
  | 0 => acc
  | n + 1 => atanhLoop z2 n (k + 2) (p * z2 / fxOne) (acc + p / k)

/-- ln of num/den in [1, 2], in fixed point: 2 atanh((x-1)/(x+1)). -/
def fxLn (num den : Nat) : Nat :=
  let z := (num - den) * fxOne / (num + den)
  2 * atanhLoop (z * z / fxOne) 110 1 z 0

def fxLn2 : Nat := fxLn 2 1

/-- Alternating sum of 1/((2k+1) q^(2k+1)): the arc tangent of 1/q, in fixed point with signs. -/
def atanLoop (q2 : Nat) (n : Nat) (k : Nat) (p : Nat) (acc : Int) (neg : Bool) : Int :=
  match n with
  | 0 => acc
  | n + 1 => atanLoop q2 n (k + 2) (p / q2) (acc + signed neg (p / k)) (!neg)

/-- Pi in fixed point by 16 atan(1/5) - 4 atan(1/239). -/
def fxPi : Int :=
  16 * atanLoop 25 160 1 (fxOne / 5) 0 false - 4 * atanLoop 57121 50 1 (fxOne / 239) 0 false

/-- Sum of x^k/k! with alternating signs and step 2: sine from (k = 1, t = x), cosine from (k = 0, t = 1). -/
def sinLoop (x2 : Nat) (n : Nat) (k : Nat) (t : Nat) (acc : Int) (neg : Bool) : Int :=
  match n with
  | 0 => acc
  | n + 1 => sinLoop x2 n (k + 2) (t * x2 / fxOne / ((k + 1) * (k + 2))) (acc + signed neg t) (!neg)

def fxSin (x : Nat) : Int := sinLoop (x * x / fxOne) 60 1 x 0 false
def fxCos (x : Nat) : Int := sinLoop (x * x / fxOne) 60 0 fxOne 0 false

/-- The approximation of an irrational value lies strictly between two quotients: take the middle. -/
def roundIrrational (rm : Rm) (x : Int) : Nat :=
  fp32.round rm (decide (x < 0)) (2 * x.natAbs + 1) (2 * fxOne)

def fexp2Code (rm : Rm) (a : Nat) : Nat :=
  match fp32.read a with
  | .nan => fp32.nanCode
  | .inf neg => if neg then 0 else fp32.infCode false
  | .num neg m =>
    let n := m / fpOne
    let f := m % fpOne
    if m = 0 then 0x3F800000
    else if f = 0 then
      (if neg then fp32.round rm false 1 (2 ^ Nat.min n 400)
       else if n < 128 then fp32.round rm false (2 ^ n) 1 else fp32.infCode false)
    else if !neg && 128 ≤ n then fp32.infCode false
    else
      -- 2^a = 2^i * e^(g ln 2) with g in (0, 1)
      let g := if neg then fpOne - f else f
      let i : Int := if neg then -(n : Int) - 1 else (n : Int)
      let x := g * 2 ^ (fxBits - 149) * fxLn2 / fxOne
      let e := expLoop x 90 0 fxOne fxOne
      if 0 ≤ i then fp32.round rm false ((2 * e + 1) * 2 ^ i.toNat) (2 * fxOne)
      else fp32.round rm false (2 * e + 1) (2 * fxOne * 2 ^ Nat.min (-i).toNat 400)

def flog2Code (rm : Rm) (a : Nat) : Nat :=
  match fp32.read a with
  | .nan => fp32.nanCode
  | .inf neg => if neg then fp32.nanCode else fp32.infCode false
  | .num neg m =>
    if m = 0 then fp32.infCode true
    else if neg then fp32.nanCode
    else
      let k := Nat.log2 m
      let e : Int := (k : Int) - 149
      if m = 2 ^ k then (if e = 0 then 0 else fp32.round rm (decide (e < 0)) e.natAbs 1)
      else roundIrrational rm (e * (fxOne : Int) + ((fxLn m (2 ^ k) * fxOne / fxLn2 : Nat) : Int))

/-- Sine (0) or cosine (1) of a finite a with |a| ≤ 2^24. Below 2^-60 the sine is just below its argument and
the cosine just below 1. -/
def fsincosFinite (cos : Bool) (rm : Rm) (neg : Bool) (m : Nat) : Nat :=
  if m = 0 then (if cos then 0x3F800000 else fp32.code neg 0)
  else if m < 2 ^ 89 then
    (if cos then fp32.round rm false (fxOne - 1) fxOne else fp32.round rm neg (m * 2 ^ 90 - 1) (fpOne * 2 ^ 90))
  else
    let x : Int := ((m * 2 ^ (fxBits - 149) : Nat) : Int)
    let half := fxPi / 2
    let k := x / half
    let r := (x - k * half).toNat
    let quarter := (k % 4).toNat
    let useCos := if cos then quarter % 2 == 0 else quarter % 2 == 1
    let flip := if cos then quarter == 1 || quarter == 2 else quarter == 2 || quarter == 3
    let y := if useCos then fxCos r else fxSin r
    let y := if flip then -y else y
    roundIrrational rm (if neg && !cos then -y else y)

/-- A value in [-1, 1] from any pattern: LOG 9. -/
def clampUnit (w : BitVec 32) : Nat :=
  if (w &&& 0x7FFFFFFF).toNat ≤ 0x3F800000 then w.toNat else ((w &&& 0x80000000) ||| 0x3F800000).toNat

def fsincosCode (cos : Bool) (fn : Nat) (rm : Rm) (a : Nat) : Nat :=
  match fp32.read a with
  | .nan => fp32.nanCode
  | .inf _ => fp32.nanCode
  | .num neg m =>
    if 2 ^ 24 * fpOne < m then clampUnit (Config.sincosBig fn (BitVec.ofNat 32 a))
    else fsincosFinite cos rm neg m

/-- Round an exact signed quotient to an integer (R27). -/
def roundInt (rm : Rm) (neg : Bool) (num den : Nat) : Int := signed neg (roundQuot rm neg num den)

/-- Conversion between floating-point formats (R26). -/
def Fmt.convert (F : Fmt) (rm : Rm) (sat : Bool) (v : FpVal) : Nat :=
  match v with
  | .nan => F.nanCode
  | .inf neg =>
    if sat then F.code neg F.maxCode
    else (match F.specials with
      | .ieee => F.infCode neg
      | .nanOnly => F.nanCode
      | .finite => F.code neg F.maxCode)
  | .num neg m => F.settle rm sat neg (F.roundCode rm neg m fpOne)

/-- Conversion from an exact integer (R28). -/
def Fmt.ofInt (F : Fmt) (rm : Rm) (sat : Bool) (x : Int) : Nat :=
  F.settle rm sat (decide (x < 0)) (F.roundCode rm (decide (x < 0)) x.natAbs 1)

/-- Clamp to a range. -/
def clampInt (x lo hi : Int) : Int := if x < lo then lo else if hi < x then hi else x

/-- Conversion to an integer in a range (R27). -/
def FpVal.toInt (v : FpVal) (rm : Rm) (lo hi : Int) : Int :=
  match v with
  | .nan => 0
  | .inf neg => if neg then lo else hi
  | .num neg m => clampInt (roundInt rm neg m fpOne) lo hi

/-- `sr_bits` of R20. -/
def srBits (seed : Nat) (l : Nat) : Nat :=
  let q := (seed % 2 ^ 16) ^^^ l
  let q := q ^^^ (q >>> 7)
  let q := q * 0xA3B5 % 2 ^ 16
  let q := q ^^^ (q >>> 9)
  let q := q * 0x2C1B % 2 ^ 16
  q ^^^ (q >>> 8)

/-- `round_sr` of R20 with the special sources and `.sat` of R26. -/
def Fmt.convertSr (F : Fmt) (seed l : Nat) (sat : Bool) (v : FpVal) : Nat :=
  match v with
  | .num neg m =>
    if m = 0 then F.code neg 0
    else
      let q := F.spacing m fpOne
      let top := F.gridCode q ((scaleQuot m fpOne q).1 / (scaleQuot m fpOne q).2)
      let s := scaleQuot m fpOne q
      let d := s.1 % s.2 * 2 ^ 16 / s.2
      if F.maxCode < top then F.settle .rne sat neg top
      else if s.1 % s.2 = 0 then F.code neg top
      else if srBits seed l < d then F.settle .rne sat neg (top + 1)
      else F.code neg top
  | v => F.convert .rne sat v

end Sys2Proof
end

