-- ==== Sys2Proof/Machine/Flags.lean ====
section
/-! DEFINITION. What goes into predicates. The device has no condition flags (R51): comparisons (R97), the
carry and borrow of `addc` and `subc` (R98) and the class mask of `fclass` (R105). -/
namespace Sys2Proof

/-- The ordered conditions of R97 on two values. -/
def condInt (x : Nat) (a b : Int) : Bool :=
  match x with
  | 0 => a == b
  | 1 => a != b
  | 2 => decide (a < b)
  | 3 => decide (a ≤ b)
  | 4 => decide (b < a)
  | 5 => decide (b ≤ a)
  | _ => false

/-- The order of FP32 values with -0 = +0. -/
def fcmpKey (w : Nat) : Int := if w % 2 ^ 31 = 0 then 0 else fp32.key w

/-- The conditions of `fcmp` (R97). -/
def condFp (x : Nat) (a b : Nat) : Bool :=
  let un := fp32.isNan a || fp32.isNan b
  match x with
  | 1 => un || condInt 1 (fcmpKey a) (fcmpKey b)
  | 6 => un
  | 7 => !un
  | x => !un && condInt x (fcmpKey a) (fcmpKey b)

/-- `addc` (R98): the sum of W bits and the carry. -/
def addCarry (w : Nat) (a b : Dword) (c : Bool) : Dword × Bool :=
  let r := (low w a).toNat + (low w b).toNat + c.toNat
  (BitVec.ofNat 64 (r % 2 ^ w), decide (2 ^ w ≤ r))

/-- `subc` (R98): the difference of W bits and the borrow. -/
def subBorrow (w : Nat) (a b : Dword) (c : Bool) : Dword × Bool :=
  let r : Int := ((low w a).toNat : Int) - (low w b).toNat - (c.toNat : Int)
  (BitVec.ofInt 64 (r % (2 ^ w : Int)), decide (r < 0))

/-- The class bit of an FP32 pattern (R105). -/
def fclassBit (w : Nat) : Nat :=
  let neg := w / 2 ^ 31 % 2 == 1
  let e := w / 2 ^ 23 % 256
  let m := w % 2 ^ 23
  if e = 255 then
    (if m = 0 then (if neg then 0 else 7) else if m / 2 ^ 22 = 1 then 9 else 8)
  else if e = 0 then
    (if m = 0 then (if neg then 3 else 4) else if neg then 2 else 5)
  else if neg then 1 else 6

end Sys2Proof
end

