-- ==== Sys2Proof/WellFormed.lean ====
section
/-! DEFINITION. Well-formed instructions: the terms of `Instr` that some word, or for a step no word,
stands for. The table of what each instruction accepts is in Machine/Accept.lean. -/
namespace Sys2Proof

/-- No field of the word holds a value that its instruction does not accept (R63). What depends on the
group's allocation (R34) is decided when the word issues. -/
def Instr.wf (i : Instr) : Bool := i.accepted

end Sys2Proof
end

