-- ==== Sys2Proof/Decode.lean ====
section
/-! DEFINITION. The decoders and encoders of core words (R53-R64), compact words (R65-R67), stream
commands (R68-R70) and FU task words (R195, R260). Decoding is total: what is not an instruction is
rejected by name. -/
namespace Sys2Proof

/-- Why bits are not an instruction (R63, R67, R70, R196). -/
inductive DecodeError where
  /-- No instruction has these opcode bits. -/
  | noInstruction
  /-- ty is 13-15. -/
  | reservedType
  /-- Bits 6:5 of a Form I word are set. -/
  | reservedBits
  /-- The scope is 4-7. -/
  | reservedScope
  /-- The order is 5-7. -/
  | reservedOrder
  /-- A field holds a value the instruction does not accept. -/
  | notAccepted
  /-- Fewer bytes than the word has. -/
  | tooShort
  deriving DecidableEq, Repr

/-- What a form's fields make of a major and fn. -/
inductive Shape where
  | v (k : FormV → Instr)
  | l (k : FormL → Instr)
  | m (k : FormM → Instr)
  | b (k : FormB → Instr)

def Rm.ofBits (r : BitVec 2) : Rm :=
  if r == 0 then .rne else if r == 1 then .rz else if r == 2 then .ru else .rd
def Rm.bits : Rm → BitVec 2
  | .rne => 0 | .rz => 1 | .ru => 2 | .rd => 3
def Scope.ofBits (s : BitVec 3) : Option Scope :=
  if s == 0 then some .blk else if s == 1 then some .clu else if s == 2 then some .dev
  else if s == 3 then some .sys else none
def Scope.bits : Scope → BitVec 3
  | .blk => 0 | .clu => 1 | .dev => 2 | .sys => 3
def Order.ofBits (o : BitVec 3) : Option Order :=
  if o == 0 then some .rlx else if o == 1 then some .acq else if o == 2 then some .rel
  else if o == 3 then some .ar else if o == 4 then some .sc else none
def Order.bits : Order → BitVec 3
  | .rlx => 0 | .acq => 1 | .rel => 2 | .ar => 3 | .sc => 4

/-- Major 0x01, control: the position of the instruction in the list of R62 is its fn. -/
def opcodes1 : Nat → Option Shape
  | 0 => some (.v .nop)
  | 1 => some (.b .bra)
  | 2 => some (.b .brd)
  | 3 => some (.v .brx)
  | 4 => some (.b .call)
  | 5 => some (.v .callx)
  | 6 => some (.v .ret)
  | 7 => some (.b .join)
  | 8 => some (.v .exit_)
  | 9 => some (.v .yield)
  | 10 => some (.l .nap)
  | 11 => some (.v .brk)
  | 12 => some (.l .trap)
  | 13 => some (.v .tret)
  | _ => none

/-- Major 0x02, ialu: the position of the instruction in the list of R62 is its fn. -/
def opcodes2 : Nat → Option Shape
  | 0 => some (.v .add)
  | 1 => some (.v .sub)
  | 2 => some (.v .mul)
  | 3 => some (.v .mulhi)
  | 4 => some (.v .mad)
  | 5 => some (.v .madw)
  | 6 => some (.v .min_)
  | 7 => some (.v .max_)
  | 8 => some (.v .abs_)
  | 9 => some (.v .neg)
  | 10 => some (.v .and_)
  | 11 => some (.v .or_)
  | 12 => some (.v .xor_)
  | 13 => some (.v .andn)
  | 14 => some (.v .not_)
  | 15 => some (.v .shl)
  | 16 => some (.v .shr)
  | 17 => some (.v .sar)
  | 18 => some (.v .rotl)
  | 19 => some (.v .bfx)
  | 20 => some (.v .bfi)
  | 21 => some (.v .popc)
  | 22 => some (.v .clz)
  | 23 => some (.v .ctz)
  | 24 => some (.v .brev)
  | 25 => some (.v .perm)
  | 26 => some (.v .sel)
  | 27 => some (.v .cmp)
  | 28 => some (.v .addc)
  | 29 => some (.v .subc)
  | 30 => some (.v .lea)
  | _ => none

/-- Major 0x03, move: the position of the instruction in the list of R62 is its fn. -/
def opcodes3 : Nat → Option Shape
  | 0 => some (.v .mov)
  | 1 => some (.l .movi)
  | 2 => some (.v .bcast)
  | 3 => some (.v .rdlane)
  | 4 => some (.v .wrlane)
  | 5 => some (.v .rdsr)
  | 6 => some (.v .wrsr)
  | 7 => some (.v .voteAny)
  | 8 => some (.v .voteAll)
  | 9 => some (.v .ballot)
  | 10 => some (.v .pand)
  | 11 => some (.v .por)
  | 12 => some (.v .pxor)
  | 13 => some (.v .pnot)
  | 14 => some (.v .ppopc)
  | _ => none

/-- Major 0x04, lane: the position of the instruction in the list of R62 is its fn. -/
def opcodes4 : Nat → Option Shape
  | 0 => some (.v .shflIdx)
  | 1 => some (.v .shflUp)
  | 2 => some (.v .shflDown)
  | 3 => some (.v .shflXor)
  | 4 => some (.v .qswapH)
  | 5 => some (.v .qswapV)
  | 6 => some (.v .qswapD)
  | 7 => some (.v .qbcast)
  | 8 => some (.v .redxAdd)
  | 9 => some (.v .redxMin)
  | 10 => some (.v .redxMax)
  | 11 => some (.v .scanxAdd)
  | 12 => some (.v .compact)
  | 13 => some (.v .expand)
  | _ => none

/-- Major 0x05, fp: the position of the instruction in the list of R62 is its fn. -/
def opcodes5 : Nat → Option Shape
  | 0 => some (.v .fadd)
  | 1 => some (.v .fsub)
  | 2 => some (.v .fmul)
  | 3 => some (.v .ffma)
  | 4 => some (.v .fmin)
  | 5 => some (.v .fmax)
  | 6 => some (.v .fminm)
  | 7 => some (.v .fabs)
  | 8 => some (.v .fneg)
  | 9 => some (.v .fcmp)
  | 10 => some (.v .fclass)
  | 11 => some (.v .frcp)
  | 12 => some (.v .frsq)
  | 13 => some (.v .fsqrt)
  | 14 => some (.v .fexp2)
  | 15 => some (.v .flog2)
  | 16 => some (.v .fsin)
  | 17 => some (.v .fcos)
  | _ => none

/-- Major 0x06, packed: the position of the instruction in the list of R62 is its fn. -/
def opcodes6 : Nat → Option Shape
  | 0 => some (.v .hadd2)
  | 1 => some (.v .hmul2)
  | 2 => some (.v .hfma2)
  | 3 => some (.v .hmin2)
  | 4 => some (.v .hmax2)
  | 5 => some (.v .hdot2)
  | _ => none

/-- Major 0x07, convert: the position of the instruction in the list of R62 is its fn. -/
def opcodes7 : Nat → Option Shape
  | 0 => some (.v .cvt)
  | 1 => some (.v .cvtpk)
  | 2 => some (.v .cvtsr)
  | 3 => some (.v .qscale)
  | _ => none

/-- Major 0x08, mem: the position of the instruction in the list of R62 is its fn. -/
def opcodes8 : Nat → Option Shape
  | 0 => some (.m .ld)
  | 1 => some (.m .st)
  | 2 => some (.m .ldx4)
  | 3 => some (.m .stx4)
  | 4 => some (.m .lds)
  | 5 => some (.m .sts)
  | 6 => some (.m .ldsx4)
  | 7 => some (.m .stsx4)
  | 8 => some (.m .prf)
  | _ => none

/-- Major 0x09, atom: the position of the instruction in the list of R62 is its fn. -/
def opcodes9 : Nat → Option Shape
  | 0 => some (.m fun f => if f.hint.getLsbD 0 then .redAdd f else .atomAdd f)
  | 1 => some (.m fun f => if f.hint.getLsbD 0 then .redMin f else .atomMin f)
  | 2 => some (.m fun f => if f.hint.getLsbD 0 then .redMax f else .atomMax f)
  | 3 => some (.m fun f => if f.hint.getLsbD 0 then .redAnd f else .atomAnd f)
  | 4 => some (.m fun f => if f.hint.getLsbD 0 then .redOr f else .atomOr f)
  | 5 => some (.m fun f => if f.hint.getLsbD 0 then .redXor f else .atomXor f)
  | 6 => some (.m .atomXchg)
  | 7 => some (.m .atomCas)
  | 8 => some (.m fun f => if f.hint.getLsbD 0 then .redFadd f else .atomFadd f)
  | 9 => some (.m fun f => if f.hint.getLsbD 0 then .redFmin f else .atomFmin f)
  | 10 => some (.m fun f => if f.hint.getLsbD 0 then .redFmax f else .atomFmax f)
  | 11 => some (.m fun f => if f.hint.getLsbD 0 then .redBfadd2 f else .atomBfadd2 f)
  | _ => none

/-- Major 0x0a, sync: the position of the instruction in the list of R62 is its fn. -/
def opcodes10 : Nat → Option Shape
  | 0 => some (.m .fence)
  | 1 => some (.v .wait)
  | 2 => some (.v .bar)
  | 3 => some (.v .arrive)
  | 4 => some (.v .bwait)
  | 5 => some (.m .renew)
  | 6 => some (.v .rdclk)
  | _ => none

/-- Major 0x0b, courier: the position of the instruction in the list of R62 is its fn. -/
def opcodes11 : Nat → Option Shape
  | 0 => some (.v fun f => if f.x == 1 then .sendPeer f else if f.x == 2 then .sendTens f else .sendGlb f)
  | 1 => some (.v .sendm)
  | 2 => some (.v .commission)
  | 3 => some (.v .cbtest)
  | 4 => some (.v .cbwait)
  | 5 => some (.v .cbclr)
  | 6 => some (.v .tlayout)
  | _ => none

/-- Major 0x0c, gather: the position of the instruction in the list of R62 is its fn. -/
def opcodes12 : Nat → Option Shape
  | 0 => some (.v .gath)
  | 1 => some (.v .scat)
  | 2 => some (.v .gstat)
  | _ => none

/-- Major 0x0d, catalogue: the position of the instruction in the list of R62 is its fn. -/
def opcodes13 : Nat → Option Shape
  | 0 => some (.v .cclaim)
  | 1 => some (.v .cfree)
  | 2 => some (.v .cins)
  | 3 => some (.v .cprb)
  | 4 => some (.v .cdel)
  | 5 => some (.v .cacc)
  | 6 => some (.v .cdrn)
  | 7 => some (.v .cstat)
  | _ => none

/-- Major 0x0e, gate and system: the position of the instruction in the list of R62 is its fn. -/
def opcodes14 : Nat → Option Shape
  | 0 => some (.l .gate)
  | 1 => some (.v .gret)
  | 2 => some (.v .gabort)
  | 3 => some (.l .rgrow)
  | 4 => some (.l .rshrink)
  | 5 => some (.v fun f => if f.x == 1 then .haltAll f else .halt f)
  | _ => none

/-- Major 0x0f, matrix: the position of the instruction in the list of R62 is its fn. -/
def opcodes15 : Nat → Option Shape
  | 0 => some (.v .mzero)
  | 1 => some (.v .mrdy)
  | 2 => some (.v .mma)
  | 3 => some (.v .mmaSp)
  | 4 => some (.v .mmx)
  | 5 => some (.v .mwait)
  | 6 => some (.v .mdrain)
  | _ => none

/-- Major 0x10, annex: the position of the instruction in the list of R62 is its fn. -/
def opcodes16 : Nat → Option Shape
  | 0 => some (.v .aopen)
  | 1 => some (.v .asend)
  | 2 => some (.v .arecv)
  | 3 => some (.v .aacc)
  | 4 => some (.v .acmd)
  | 5 => some (.v .afence)
  | 6 => some (.v .aclose)
  | 7 => some (.m .nmr)
  | 8 => some (.v .nidx)
  | 9 => some (.v .nfence)
  | _ => none

/-- Major 0x11, launch: the position of the instruction in the list of R62 is its fn. -/
def opcodes17 : Nat → Option Shape
  | 0 => some (.v .launch)
  | 1 => some (.v .rlaunch)
  | _ => none

/-- The opcode map of R62. -/
def opcodeMap (major fn : Nat) : Option Shape :=
  match major with
  | 1 => opcodes1 fn
  | 2 => opcodes2 fn
  | 3 => opcodes3 fn
  | 4 => opcodes4 fn
  | 5 => opcodes5 fn
  | 6 => opcodes6 fn
  | 7 => opcodes7 fn
  | 8 => opcodes8 fn
  | 9 => opcodes9 fn
  | 10 => opcodes10 fn
  | 11 => opcodes11 fn
  | 12 => opcodes12 fn
  | 13 => opcodes13 fn
  | 14 => opcodes14 fn
  | 15 => opcodes15 fn
  | 16 => opcodes16 fn
  | 17 => opcodes17 fn
  | _ => none

/-- The fields of a Form V or I word (R54, R55). -/
def fieldsV (w : BitVec 64) : Except DecodeError FormV :=
  match Ty.ofCode (w.extractLsb' 10 4).toNat with
  | none => .error .reservedType
  | some ty =>
    let im := w.getLsbD 4
    let sb := w.getLsbD 6
    let sc := w.getLsbD 5
    if im && (sb || sc) then .error .reservedBits
    else .ok { g := { pg := w.extractLsb' 48 3, pn := w.getLsbD 47 }, u := w.getLsbD 46,
               d := w.extractLsb' 38 8, a := w.extractLsb' 30 8,
               tail := if im then .imm (w.extractLsb' 14 16)
                       else .regs (w.extractLsb' 22 8) (w.extractLsb' 14 8) sb sc,
               ty := ty, rm := Rm.ofBits (w.extractLsb' 8 2), sat := w.getLsbD 7, x := w.extractLsb' 0 4 }

/-- The fields of a Form L word. -/
def fieldsL (w : BitVec 64) : FormL :=
  { g := { pg := w.extractLsb' 48 3, pn := w.getLsbD 47 }, u := w.getLsbD 46,
    d := w.extractLsb' 38 8, imm := w.extractLsb' 6 32, x := w.extractLsb' 0 6 }

/-- The fields of a Form B word. -/
def fieldsB (w : BitVec 64) : FormB :=
  { g := { pg := w.extractLsb' 48 3, pn := w.getLsbD 47 }, u := w.getLsbD 46,
    k := w.extractLsb' 38 8, disp := w.extractLsb' 6 32, x := w.extractLsb' 0 6 }

/-- The fields of a Form M word. -/
def fieldsM (w : BitVec 64) : Except DecodeError FormM :=
  match Scope.ofBits (w.extractLsb' 7 3), Order.ofBits (w.extractLsb' 4 3) with
  | none, _ => .error .reservedScope
  | _, none => .error .reservedOrder
  | some sc, some o =>
    .ok { g := { pg := w.extractLsb' 48 3, pn := w.getLsbD 47 }, ix := w.getLsbD 46,
          d := w.extractLsb' 38 8, size := w.extractLsb' 36 2, base := w.extractLsb' 30 6,
          b := w.extractLsb' 22 8, off := w.extractLsb' 10 12, scope := sc, order := o,
          hint := w.extractLsb' 0 4 }

/-- The instruction whose opcode bits and fields a core word holds, before R63's checks of the fields. -/
def decodeFields (w : BitVec 64) : Except DecodeError Instr :=
  match opcodeMap (w.extractLsb' 57 7).toNat (w.extractLsb' 51 6).toNat with
  | none => .error .noInstruction
  | some (.v k) => (fieldsV w).map k
  | some (.l k) => .ok (k (fieldsL w))
  | some (.m k) => (fieldsM w).map k
  | some (.b k) => .ok (k (fieldsB w))

/-- The instruction if its fields are accepted. -/
def checkAccepted (i : Instr) : Except DecodeError Instr :=
  if i.wf then .ok i else .error .notAccepted

/-- A core word (R53-R64). -/
def decodeCore (w : BitVec 64) : Except DecodeError Instr :=
  match decodeFields w with
  | .error e => .error e
  | .ok i => checkAccepted i

/-- The major and fn of a core instruction (R62). -/
def Instr.opcode : Instr → Option (BitVec 7 × BitVec 6)
  | .nop _ => some (1, 0)
  | .bra _ => some (1, 1)
  | .brd _ => some (1, 2)
  | .brx _ => some (1, 3)
  | .call _ => some (1, 4)
  | .callx _ => some (1, 5)
  | .ret _ => some (1, 6)
  | .join _ => some (1, 7)
  | .exit_ _ => some (1, 8)
  | .yield _ => some (1, 9)
  | .nap _ => some (1, 10)
  | .brk _ => some (1, 11)
  | .trap _ => some (1, 12)
  | .tret _ => some (1, 13)
  | .add _ => some (2, 0)
  | .sub _ => some (2, 1)
  | .mul _ => some (2, 2)
  | .mulhi _ => some (2, 3)
  | .mad _ => some (2, 4)
  | .madw _ => some (2, 5)
  | .min_ _ => some (2, 6)
  | .max_ _ => some (2, 7)
  | .abs_ _ => some (2, 8)
  | .neg _ => some (2, 9)
  | .and_ _ => some (2, 10)
  | .or_ _ => some (2, 11)
  | .xor_ _ => some (2, 12)
  | .andn _ => some (2, 13)
  | .not_ _ => some (2, 14)
  | .shl _ => some (2, 15)
  | .shr _ => some (2, 16)
  | .sar _ => some (2, 17)
  | .rotl _ => some (2, 18)
  | .bfx _ => some (2, 19)
  | .bfi _ => some (2, 20)
  | .popc _ => some (2, 21)
  | .clz _ => some (2, 22)
  | .ctz _ => some (2, 23)
  | .brev _ => some (2, 24)
  | .perm _ => some (2, 25)
  | .sel _ => some (2, 26)
  | .cmp _ => some (2, 27)
  | .addc _ => some (2, 28)
  | .subc _ => some (2, 29)
  | .lea _ => some (2, 30)
  | .mov _ => some (3, 0)
  | .movi _ => some (3, 1)
  | .bcast _ => some (3, 2)
  | .rdlane _ => some (3, 3)
  | .wrlane _ => some (3, 4)
  | .rdsr _ => some (3, 5)
  | .wrsr _ => some (3, 6)
  | .voteAny _ => some (3, 7)
  | .voteAll _ => some (3, 8)
  | .ballot _ => some (3, 9)
  | .pand _ => some (3, 10)
  | .por _ => some (3, 11)
  | .pxor _ => some (3, 12)
  | .pnot _ => some (3, 13)
  | .ppopc _ => some (3, 14)
  | .shflIdx _ => some (4, 0)
  | .shflUp _ => some (4, 1)
  | .shflDown _ => some (4, 2)
  | .shflXor _ => some (4, 3)
  | .qswapH _ => some (4, 4)
  | .qswapV _ => some (4, 5)
  | .qswapD _ => some (4, 6)
  | .qbcast _ => some (4, 7)
  | .redxAdd _ => some (4, 8)
  | .redxMin _ => some (4, 9)
  | .redxMax _ => some (4, 10)
  | .scanxAdd _ => some (4, 11)
  | .compact _ => some (4, 12)
  | .expand _ => some (4, 13)
  | .fadd _ => some (5, 0)
  | .fsub _ => some (5, 1)
  | .fmul _ => some (5, 2)
  | .ffma _ => some (5, 3)
  | .fmin _ => some (5, 4)
  | .fmax _ => some (5, 5)
  | .fminm _ => some (5, 6)
  | .fabs _ => some (5, 7)
  | .fneg _ => some (5, 8)
  | .fcmp _ => some (5, 9)
  | .fclass _ => some (5, 10)
  | .frcp _ => some (5, 11)
  | .frsq _ => some (5, 12)
  | .fsqrt _ => some (5, 13)
  | .fexp2 _ => some (5, 14)
  | .flog2 _ => some (5, 15)
  | .fsin _ => some (5, 16)
  | .fcos _ => some (5, 17)
  | .hadd2 _ => some (6, 0)
  | .hmul2 _ => some (6, 1)
  | .hfma2 _ => some (6, 2)
  | .hmin2 _ => some (6, 3)
  | .hmax2 _ => some (6, 4)
  | .hdot2 _ => some (6, 5)
  | .cvt _ => some (7, 0)
  | .cvtpk _ => some (7, 1)
  | .cvtsr _ => some (7, 2)
  | .qscale _ => some (7, 3)
  | .ld _ => some (8, 0)
  | .st _ => some (8, 1)
  | .ldx4 _ => some (8, 2)
  | .stx4 _ => some (8, 3)
  | .lds _ => some (8, 4)
  | .sts _ => some (8, 5)
  | .ldsx4 _ => some (8, 6)
  | .stsx4 _ => some (8, 7)
  | .prf _ => some (8, 8)
  | .redAdd _ => some (9, 0)
  | .atomAdd _ => some (9, 0)
  | .redMin _ => some (9, 1)
  | .atomMin _ => some (9, 1)
  | .redMax _ => some (9, 2)
  | .atomMax _ => some (9, 2)
  | .redAnd _ => some (9, 3)
  | .atomAnd _ => some (9, 3)
  | .redOr _ => some (9, 4)
  | .atomOr _ => some (9, 4)
  | .redXor _ => some (9, 5)
  | .atomXor _ => some (9, 5)
  | .atomXchg _ => some (9, 6)
  | .atomCas _ => some (9, 7)
  | .redFadd _ => some (9, 8)
  | .atomFadd _ => some (9, 8)
  | .redFmin _ => some (9, 9)
  | .atomFmin _ => some (9, 9)
  | .redFmax _ => some (9, 10)
  | .atomFmax _ => some (9, 10)
  | .redBfadd2 _ => some (9, 11)
  | .atomBfadd2 _ => some (9, 11)
  | .fence _ => some (10, 0)
  | .wait _ => some (10, 1)
  | .bar _ => some (10, 2)
  | .arrive _ => some (10, 3)
  | .bwait _ => some (10, 4)
  | .renew _ => some (10, 5)
  | .rdclk _ => some (10, 6)
  | .sendGlb _ => some (11, 0)
  | .sendPeer _ => some (11, 0)
  | .sendTens _ => some (11, 0)
  | .sendm _ => some (11, 1)
  | .commission _ => some (11, 2)
  | .cbtest _ => some (11, 3)
  | .cbwait _ => some (11, 4)
  | .cbclr _ => some (11, 5)
  | .tlayout _ => some (11, 6)
  | .gath _ => some (12, 0)
  | .scat _ => some (12, 1)
  | .gstat _ => some (12, 2)
  | .cclaim _ => some (13, 0)
  | .cfree _ => some (13, 1)
  | .cins _ => some (13, 2)
  | .cprb _ => some (13, 3)
  | .cdel _ => some (13, 4)
  | .cacc _ => some (13, 5)
  | .cdrn _ => some (13, 6)
  | .cstat _ => some (13, 7)
  | .gate _ => some (14, 0)
  | .gret _ => some (14, 1)
  | .gabort _ => some (14, 2)
  | .rgrow _ => some (14, 3)
  | .rshrink _ => some (14, 4)
  | .halt _ => some (14, 5)
  | .haltAll _ => some (14, 5)
  | .mzero _ => some (15, 0)
  | .mrdy _ => some (15, 1)
  | .mma _ => some (15, 2)
  | .mmaSp _ => some (15, 3)
  | .mmx _ => some (15, 4)
  | .mwait _ => some (15, 5)
  | .mdrain _ => some (15, 6)
  | .aopen _ => some (16, 0)
  | .asend _ => some (16, 1)
  | .arecv _ => some (16, 2)
  | .aacc _ => some (16, 3)
  | .acmd _ => some (16, 4)
  | .afence _ => some (16, 5)
  | .aclose _ => some (16, 6)
  | .nmr _ => some (16, 7)
  | .nidx _ => some (16, 8)
  | .nfence _ => some (16, 9)
  | .launch _ => some (17, 0)
  | .rlaunch _ => some (17, 1)
  | _ => none

/-- Bits 45:0 of a Form V or I word below its d and a fields. -/
def Tail.bits (t : Tail) (ty : BitVec 4) (rm : BitVec 2) (sat : Bool) : BitVec 26 :=
  match t with
  | .regs b c sb sc =>
    b ++ c ++ ty ++ rm ++ BitVec.ofBool sat ++ BitVec.ofBool sb ++ BitVec.ofBool sc ++ 0#1
  | .imm i => i ++ ty ++ rm ++ BitVec.ofBool sat ++ 0#2 ++ 1#1

/-- Bits 50:46 of a core word. -/
def Guard.bits (g : Guard) (u : Bool) : BitVec 5 := g.pg ++ BitVec.ofBool g.pn ++ BitVec.ofBool u

def encodeV (op : BitVec 7 × BitVec 6) (f : FormV) : BitVec 64 :=
  op.1 ++ op.2 ++ f.g.bits f.u ++ f.d ++ f.a ++ f.tail.bits (BitVec.ofNat 4 f.ty.code) f.rm.bits f.sat ++ f.x
def encodeL (op : BitVec 7 × BitVec 6) (f : FormL) : BitVec 64 :=
  op.1 ++ op.2 ++ f.g.bits f.u ++ f.d ++ f.imm ++ f.x
def encodeB (op : BitVec 7 × BitVec 6) (f : FormB) : BitVec 64 :=
  op.1 ++ op.2 ++ f.g.bits f.u ++ f.k ++ f.disp ++ f.x
def encodeM (op : BitVec 7 × BitVec 6) (f : FormM) : BitVec 64 :=
  op.1 ++ op.2 ++ f.g.bits f.ix ++ f.d ++ f.size ++ f.base ++ f.b ++ f.off ++ f.scope.bits ++ f.order.bits ++ f.hint

/-- The word of a core instruction; none for a step that is no core word. -/
def encodeCore (i : Instr) : Option (BitVec 64) :=
  match i.opcode with
  | none => none
  | some op =>
    match i.ruleV with
    | some (f, _) => some (encodeV op f)
    | none =>
      match i.regsM with
      | some (f, _) => some (encodeM op f)
      | none =>
        match i with
        | .bra f => some (encodeB op f)
        | .brd f => some (encodeB op f)
        | .call f => some (encodeB op f)
        | .join f => some (encodeB op f)
        | .nap f => some (encodeL op f)
        | .trap f => some (encodeL op f)
        | .movi f => some (encodeL op f)
        | .gate f => some (encodeL op f)
        | .rgrow f => some (encodeL op f)
        | .rshrink f => some (encodeL op f)
        | _ => none

/-- The fields of a compact word (R65). -/
def fieldsK (w : BitVec 32) : KRegs := ⟨w.extractLsb' 21 5, w.extractLsb' 16 5, w.extractLsb' 11 5⟩
def fieldsJ (w : BitVec 32) : KImm := ⟨w.extractLsb' 21 5, w.extractLsb' 16 5, w.extractLsb' 0 16⟩

/-- A shape K word whose fn field is zero. -/
def shapeK (w : BitVec 32) (k : KRegs → Instr) : Except DecodeError Instr :=
  if w.extractLsb' 0 11 == 0 then .ok (k (fieldsK w)) else .error .notAccepted

/-- A compact word (R65-R67). -/
def decodeCompact (w : BitVec 32) : Except DecodeError Instr :=
  match (w.extractLsb' 26 6).toNat with
  | 1 => shapeK w .seqAdd
  | 2 => shapeK w .seqSub
  | 3 => checkAccepted (.seqAddi (fieldsJ w))
  | 4 => shapeK w .seqMul
  | 5 => shapeK w .seqAnd
  | 6 => shapeK w .seqOr
  | 7 => shapeK w .seqXor
  | 8 => shapeK w .seqShl
  | 9 =>
    if w.extractLsb' 0 11 == 1 then .ok (.seqShrA (fieldsK w)) else shapeK w .seqShr
  | 10 => checkAccepted (.seqLih (fieldsJ w))
  | 11 => checkAccepted (.seqLd (fieldsJ w))
  | 12 => checkAccepted (.seqSt (fieldsJ w))
  | 13 => checkAccepted (.seqBeq (fieldsJ w))
  | 14 => checkAccepted (.seqBne (fieldsJ w))
  | 15 => checkAccepted (.seqBlt (fieldsJ w))
  | 16 => checkAccepted (.seqBge (fieldsJ w))
  | 17 => checkAccepted (.seqJmp (fieldsJ w))
  | 18 => checkAccepted (.seqJal (fieldsJ w))
  | 19 => checkAccepted (.seqScmd (fieldsJ w))
  | 20 => checkAccepted (.seqSwait (fieldsJ w))
  | 21 => checkAccepted (.seqSsig (fieldsJ w))
  | 22 => checkAccepted (.seqSfault (fieldsJ w))
  | 23 => if w.extractLsb' 0 26 == 0 then .ok .seqNop else .error .notAccepted
  | 24 => if w.extractLsb' 0 26 == 0 then .ok .seqStop else .error .notAccepted
  | _ => .error .noInstruction

def encodeK (op : BitVec 6) (f : KRegs) (fn : BitVec 11) : BitVec 32 := op ++ f.d ++ f.a ++ f.b ++ fn
def encodeJ (op : BitVec 6) (f : KImm) : BitVec 32 := op ++ f.d ++ f.a ++ f.imm

/-- The word of a compact instruction. -/
def encodeCompact : Instr → Option (BitVec 32)
  | .seqAdd f => some (encodeK 1 f 0)
  | .seqSub f => some (encodeK 2 f 0)
  | .seqAddi f => some (encodeJ 3 f)
  | .seqMul f => some (encodeK 4 f 0)
  | .seqAnd f => some (encodeK 5 f 0)
  | .seqOr f => some (encodeK 6 f 0)
  | .seqXor f => some (encodeK 7 f 0)
  | .seqShl f => some (encodeK 8 f 0)
  | .seqShr f => some (encodeK 9 f 0)
  | .seqShrA f => some (encodeK 9 f 1)
  | .seqLih f => some (encodeJ 10 f)
  | .seqLd f => some (encodeJ 11 f)
  | .seqSt f => some (encodeJ 12 f)
  | .seqBeq f => some (encodeJ 13 f)
  | .seqBne f => some (encodeJ 14 f)
  | .seqBlt f => some (encodeJ 15 f)
  | .seqBge f => some (encodeJ 16 f)
  | .seqJmp f => some (encodeJ 17 f)
  | .seqJal f => some (encodeJ 18 f)
  | .seqScmd f => some (encodeJ 19 f)
  | .seqSwait f => some (encodeJ 20 f)
  | .seqSsig f => some (encodeJ 21 f)
  | .seqSfault f => some (encodeJ 22 f)
  | .seqNop => some (23#6 ++ 0#26)
  | .seqStop => some (24#6 ++ 0#26)
  | _ => none

/-- The fields of a stream command (R68). -/
def fieldsStream (w : BitVec 128) : StreamCmd :=
  ⟨w.extractLsb' 112 8, w.extractLsb' 96 16, w.extractLsb' 48 48, w.extractLsb' 0 48⟩

/-- A stream command (R68-R70). -/
def decodeStream (w : BitVec 128) : Except DecodeError Instr :=
  match (w.extractLsb' 120 8).toNat with
  | 1 => checkAccepted (.slin (fieldsStream w))
  | 2 => checkAccepted (.sidx (fieldsStream w))
  | 3 => checkAccepted (.sconst (fieldsStream w))
  | 4 => checkAccepted (.swrite (fieldsStream w))
  | 5 => checkAccepted (.sred (fieldsStream w))
  | 6 => checkAccepted (.seos (fieldsStream w))
  | 7 => checkAccepted (.scfg (fieldsStream w))
  | 8 => checkAccepted (.sdrain (fieldsStream w))
  | 9 => checkAccepted (.sbar (fieldsStream w))
  | 10 => checkAccepted (.sland (fieldsStream w))
  | 11 => checkAccepted (.sgath (fieldsStream w))
  | 12 => checkAccepted (.spage (fieldsStream w))
  | _ => .error .noInstruction

def encodeS (op : BitVec 8) (f : StreamCmd) : BitVec 128 := op ++ f.port ++ f.flags ++ f.base ++ f.pattern

/-- The 128 bits of a stream command. -/
def encodeStream : Instr → Option (BitVec 128)
  | .slin f => some (encodeS 1 f)
  | .sidx f => some (encodeS 2 f)
  | .sconst f => some (encodeS 3 f)
  | .swrite f => some (encodeS 4 f)
  | .sred f => some (encodeS 5 f)
  | .seos f => some (encodeS 6 f)
  | .scfg f => some (encodeS 7 f)
  | .sdrain f => some (encodeS 8 f)
  | .sbar f => some (encodeS 9 f)
  | .sland f => some (encodeS 10 f)
  | .sgath f => some (encodeS 11 f)
  | .spage f => some (encodeS 12 f)
  | _ => none

/-- The FU operation of a code of R195; none for the reserved codes 0x00 and 0x25-0xFF (R196). -/
def FuOp.ofCode (code : BitVec 8) : Option FuOp :=
  match code.toNat with
  | 1 => some .fadd
  | 2 => some .fmul
  | 3 => some .ffma
  | 4 => some .fmax
  | 5 => some .fmin
  | 6 => some .bfma2
  | 7 => some .f8dot4
  | 8 => some .iadd
  | 9 => some .isub
  | 10 => some .imul
  | 11 => some .imad
  | 12 => some .and
  | 13 => some .or
  | 14 => some .xor
  | 15 => some .shl
  | 16 => some .shr
  | 17 => some .cmp
  | 18 => some .sel
  | 19 => some .acc
  | 20 => some .merge
  | 21 => some .steer
  | 22 => some .repeat
  | 23 => some .count
  | 24 => some .agen
  | 25 => some .tag
  | 26 => some .untag
  | 27 => some .tagck
  | 28 => some .hash
  | 29 => some .owner
  | 30 => some .ldt
  | 31 => some .stt
  | 32 => some .fifo
  | 33 => some .mcast
  | 34 => some .ctlSeq
  | 35 => some .ctlPipe
  | 36 => some .ctlStream
  | _ => none

/-- The operation code of R195. -/
def FuOp.code : FuOp → BitVec 8
  | .fadd => 1
  | .fmul => 2
  | .ffma => 3
  | .fmax => 4
  | .fmin => 5
  | .bfma2 => 6
  | .f8dot4 => 7
  | .iadd => 8
  | .isub => 9
  | .imul => 10
  | .imad => 11
  | .and => 12
  | .or => 13
  | .xor => 14
  | .shl => 15
  | .shr => 16
  | .cmp => 17
  | .sel => 18
  | .acc => 19
  | .merge => 20
  | .steer => 21
  | .repeat => 22
  | .count => 23
  | .agen => 24
  | .tag => 25
  | .untag => 26
  | .tagck => 27
  | .hash => 28
  | .owner => 29
  | .ldt => 30
  | .stt => 31
  | .fifo => 32
  | .mcast => 33
  | .ctlSeq => 34
  | .ctlPipe => 35
  | .ctlStream => 36

/-- The firing that an FU row of the table stands for: its site and its operation. -/
def Instr.firing : Instr → Option (FuSite × FuOp)
  | .fuFadd s => some (s, .fadd)
  | .fuFmul s => some (s, .fmul)
  | .fuFfma s => some (s, .ffma)
  | .fuFmax s => some (s, .fmax)
  | .fuFmin s => some (s, .fmin)
  | .fuBfma2 s => some (s, .bfma2)
  | .fuF8dot4 s => some (s, .f8dot4)
  | .fuIadd s => some (s, .iadd)
  | .fuIsub s => some (s, .isub)
  | .fuImul s => some (s, .imul)
  | .fuImad s => some (s, .imad)
  | .fuAnd s => some (s, .and)
  | .fuOr s => some (s, .or)
  | .fuXor s => some (s, .xor)
  | .fuShl s => some (s, .shl)
  | .fuShr s => some (s, .shr)
  | .fuCmp s => some (s, .cmp)
  | .fuSel s => some (s, .sel)
  | .fuAcc s => some (s, .acc)
  | .fuMerge s => some (s, .merge)
  | .fuSteer s => some (s, .steer)
  | .fuRepeat s => some (s, .repeat)
  | .fuCount s => some (s, .count)
  | .fuAgen s => some (s, .agen)
  | .fuTag s => some (s, .tag)
  | .fuUntag s => some (s, .untag)
  | .fuTagck s => some (s, .tagck)
  | .fuHash s => some (s, .hash)
  | .fuOwner s => some (s, .owner)
  | .fuLdt s => some (s, .ldt)
  | .fuStt s => some (s, .stt)
  | .fuFifo s => some (s, .fifo)
  | .fuMcast s => some (s, .mcast)
  | .fuCtlSeq s => some (s, .ctlSeq)
  | .fuCtlPipe s => some (s, .ctlPipe)
  | .fuCtlStream s => some (s, .ctlStream)
  | _ => none

/-- Little-endian value of bytes (R3). -/
def bytesToNat : List Byte → Nat
  | [] => 0
  | b :: bs => b.toNat + 256 * bytesToNat bs

/-- Little-endian bytes of a value (R3). -/
def natToBytes : Nat → Nat → List Byte
  | 0, _ => []
  | n + 1, v => BitVec.ofNat 8 (v % 256) :: natToBytes n (v / 256)

/-- The core word, compact word or stream command at the head of a list of bytes, and the bytes after it. -/
def decodeBytes (k : Kind) (bs : List Byte) : Except DecodeError (Instr × List Byte) :=
  let n := match k with | .compact => 4 | .stream => 16 | _ => 8
  if bs.length < n then .error .tooShort
  else
    let w := bytesToNat (bs.take n)
    let r := match k with
      | .compact => decodeCompact (BitVec.ofNat 32 w)
      | .stream => decodeStream (BitVec.ofNat 128 w)
      | _ => decodeCore (BitVec.ofNat 64 w)
    match r with
    | .error e => .error e
    | .ok i => .ok (i, bs.drop n)

/-- The bytes of a word as memory holds them (R53, R65, R68). -/
def encodeBytes (i : Instr) : Option (List Byte) :=
  match encodeCore i, encodeCompact i, encodeStream i with
  | some w, _, _ => some (natToBytes 8 w.toNat)
  | _, some w, _ => some (natToBytes 4 w.toNat)
  | _, _, some w => some (natToBytes 16 w.toNat)
  | _, _, _ => none

/-- The instruction that the decoder reads from the bits `w` of a table row of `nbits` bits: a compact word
up to 32 bits, a core word up to 64, a stream command up to 128. The bits go through memory's bytes. -/
def decodeTableWord (nbits w : Nat) : Option Instr :=
  let k := if nbits ≤ 32 then Kind.compact else if nbits ≤ 64 then Kind.core else Kind.stream
  let n := if nbits ≤ 32 then 4 else if nbits ≤ 64 then 8 else 16
  match decodeBytes k (natToBytes n (w % 2 ^ nbits)) with
  | .ok (i, _) => some i
  | .error _ => none

end Sys2Proof
end

