-- ==== Sys2Proof/Machine/State.lean ====
section
/-! DEFINITION. The state of the device: plain data, one record per thing the spec names (INVENTORY.md, State).
A `Map` lists the entries that differ from the default. -/
namespace Sys2Proof.Machine

/-- A logical time or clock: 40 bits (R226). -/
abbrev Time := BitVec 40

/-- A stored time with its rebase-phase bit (R226). -/
structure Stamp where
  t : Time
  ph : Bool
  deriving DecidableEq, Repr

/-- Who issues the instruction that `exec` runs: a strand, a port sequencer, a stream port, or nobody. MODEL'S OWN
(LOG 2). -/
inductive Agent where
  | nobody
  | strand (r : StrandRef)
  | seq (die n : Nat)
  | port (die p : Nat)
  deriving DecidableEq, Repr

/-- A read of an array of the device (R407): a register that a strand's next word names, the scratchpad by the oldest access of a
group, or a courier's source, by the chunk of a copy, by the line of a copy to global memory, or by the request of a copy to an
owner node; the arrays that serve a strand's next word; and codewords and tags of lines. -/
inductive ArrayRead where
  | register (r : StrandRef)
  | spad (core slot : Nat)
  | chunk (copy chunk : Nat)
  | line (msg : Nat)
  | request (id : Nat)
  /-- The table that a strand's next word, a Catalogue instruction, reads. -/
  | table (r : StrandRef)
  /-- The L1 copy that serves a load of a strand's next word. -/
  | cached (r : StrandRef)
  /-- The instruction cache as it serves a strand's next word. -/
  | fetched (r : StrandRef)
  /-- The codeword of a line of HBM, or of the line in its L2 slice. -/
  | codeword (line : Nat) (l2 : Bool)
  /-- The integrity tag of a line of HBM (R400). -/
  | tag (line : Nat)
  deriving DecidableEq, Repr

/-- What happens in a turn: an agent issues, a step that no word encodes happens, a copy is dropped from an L1 or an
instruction cache (R222), a request reaches its owner node's queue (R286), a scratchpad access performs (R119), firmware
sets a number that no row of the table sets (R327), a read of an array of the device is uncorrectable or corrected (R406, R407),
or telemetry is read (R402, R408). MODEL'S OWN (LOG 2). -/
inductive Act where
  | agent (a : Agent)
  | event (i : Instr)
  | dropCopy (core line : Nat)
  | dropFetch (core line : Nat)
  | arriveOwner (msg : Nat)
  /-- The oldest scratchpad access of a group performs at the array (R119, R225). -/
  | spad (core slot : Nat)
  /-- A TLB replaces an entry (R336). -/
  | dropLeaf (key : Nat)
  /-- Firmware sets a domain's quota of squares on a die (R327). -/
  | setQuota (domain die squares : Nat)
  /-- A read of an array meets an uncorrectable error (R406, R407). -/
  | upset (x : ArrayRead)
  /-- A read of an array meets an error that is corrected (R406). -/
  | corrected (u : ArrayUnit)
  /-- The host reads telemetry, or the management Curator of domain 0 the service ring (R402, R408). -/
  | telemetry (who : Requester)
  deriving DecidableEq, Repr

/-- A turn: the cc that pass before it, and what happens. -/
structure Turn where
  dt : Nat
  act : Act
  deriving DecidableEq, Repr

/-- The seven in-flight paths of R127. -/
inductive Path where
  | gld | gst | spd | snd | cms | nmp | gat
  deriving DecidableEq, Repr

/-- A fault as an instruction finds it: the code, the lane the record names, its address and detail (R342), the
lanes that faulted, and whether it is precise. -/
structure FaultInfo where
  code : Byte
  lane : Byte := 0xFF
  va : Dword := 0
  detail : Dword := 0
  lanes : LaneMask := 0
  precise : Bool := true
  deriving DecidableEq, Repr

/-- An operation in flight on a path, in issue order (R127): how many of its parts are not complete, what it still
writes, and the word that issued it. -/
structure PathOp where
  id : Nat
  path : Path
  left : Nat
  pc : Dword
  entry : Nat := 0
  /-- Vector registers it still writes. -/
  regs : List Nat
  /-- A scalar register it still writes. -/
  sreg : Option Nat
  /-- A layout slot it still writes. -/
  slot : Option Nat
  /-- Acknowledged at `.blk` scope when issued (R126). -/
  blk : Bool
  /-- A store or reduction, for a fence to wait on; false for a launch or a send. -/
  store : Bool
  /-- The faults that its lanes have taken, of which one is reported when it completes (R114). -/
  bad : List (Nat × FaultInfo) := []
  /-- The callee domain that issued it, once its frame has been left (R158, R159). -/
  callee : Option Nat := none
  deriving DecidableEq, Repr

/-- Why a strand is not ready (R205), where it is not a stall that is evaluated anew at each issue. -/
inductive Wait where
  | ready
  /-- At `join` k (R89). -/
  | join (k : BitVec 3)
  /-- In `nap` until this cc (R93). -/
  | nap (until_ : Nat)
  /-- At `bar` k, `whole` when every lane of the strand executed it (R128). -/
  | bar (k : BitVec 2) (whole : Bool)
  /-- In `mrdy`, counted as the group's `n`-th; operations named before `mark` were issued before it (R170). -/
  | mrdy (n mark : Nat)
  /-- In `rgrow` n, and the order of its request (R162, R216). -/
  | rgrow (n seq : Nat)
  /-- In `bwait`: the message that reads the generation, the record's address, the awaited generation, the scope and the
  scalar that is still to be written (R50, R131). -/
  | bwait (msg : Nat) (va : Dword) (gen : Word) (scope : Scope) (dst : Nat)
  /-- In `rlaunch`, with the slot reserved and not written (R187, R316): its operation on the store path, the slot's address
and page attribute, its number and queue, the record's address and words, and the range table. -/
  | rlaunch (op pa : Nat) (near : Bool) (index queue : Nat) (va : Dword) (record table : List Dword)
  /-- Lanes of a memory instruction have faulted; its record is raised when the operation completes (R52, R114). -/
  | faulting (op : Nat)
  /-- In `gate`, with the entry as it was read at issue, its number and the status register: the group's other strands and
records are held until the counters are 0 (R156). -/
  | gate (e : GateEntry) (n d : Nat)
  /-- In `mwait` or `mdrain` when the eviction of the group was asked for: the word completes with the operations that it waits
for (R356, R358). -/
  | matrix
  deriving DecidableEq, Repr

/-- The message that a strand in `bwait` waits for. -/
def Wait.message : Wait → Option Nat
  | .bwait msg _ _ _ _ => some msg
  | _ => none

/-- The strand stands in `rlaunch` with its slot reserved. -/
def Wait.reserved : Wait → Bool
  | .rlaunch _ _ _ _ _ _ _ _ => true
  | _ => false

/-- The strand waits in `gate`. -/
def Wait.inGate : Wait → Bool
  | .gate _ _ _ => true
  | _ => false

/-- The strand waits in `mrdy`. -/
def Wait.inMrdy : Wait → Bool
  | .mrdy _ _ => true
  | _ => false

/-- A strand (R204). -/
structure Strand where
  pc : Dword
  mask : LaneMask
  cont : Option (BitVec 3) := none
  trapret : Dword := 0
  trapcode : Word := 0
  wait : Wait := .ready
  /-- cc at which it was placed in its entry (R208). -/
  placed : Nat := 0
  /-- Spin count (R234). -/
  spin : Nat := 0
  /-- On a replay only these lanes are active (R52). -/
  replay : Option LaneMask := none
  /-- cc of its last issue since it was placed (R209). -/
  last : Option Nat := none
  /-- MODEL'S OWN: instructions it has completed (LOG 111). -/
  issued : Nat := 0
  deriving DecidableEq, Repr

/-- A strand that is resumed: its spin count is zero (R234), and it counts as newly placed (R209). -/
def Strand.resumed (st : Strand) : Strand := { st with spin := 0, last := none }

/-- A continuation record (R206). -/
structure Record where
  pc : Dword
  mask : LaneMask
  cont : Option (BitVec 3)
  slot : Nat
  trapret : Dword
  trapcode : Word
  deriving DecidableEq, Repr

/-- An entry of the reconvergence stack (R90, R215). -/
structure StackEntry where
  k : BitVec 3
  second : Bool
  other : LaneMask
  otherPc : Dword
  all : LaneMask
  deriving DecidableEq, Repr

/-- A tensor layout descriptor (R137). -/
structure Layout where
  fmt : Ty
  rank : Nat
  swizzle : Bool
  chunk : Nat
  stride1 : Dword
  stride2 : Dword
  stride3 : Dword
  deriving DecidableEq, Repr

/-- An endpoint slot's binding (R174-R178): the region, the endpoint number and the direction. -/
structure EpBinding where
  region : Nat
  endpoint : Nat
  sink : Bool
  deriving DecidableEq, Repr

/-- A `.blk` store of another group that a load returned (R231), and its wts once acknowledged. -/
structure Mark where
  msg : Nat
  wts : Option Time
  deriving DecidableEq, Repr

/-- Ranges that the matrix engine owns in a group (R171). -/
structure Owned where
  /-- The operation's identifier, once formed. -/
  op : Option Nat
  tag : Nat
  d : Nat
  a : Nat
  b : Nat
  nb : Nat
  c : Nat
  nc : Nat
  /-- An operand register was written after the matching `mrdy`. -/
  tainted : Bool
  /-- In this group it chains on an operation (R170). -/
  chains : Bool := false
  /-- Its input registers that the engine held for other operations, which it reads as undefined values unless it is chained
(R171). -/
  undef : List Nat := []
  /-- Registers from this one on are no longer the engine's: `rshrink` has released them (R33). -/
  keep : Nat := 256
  /-- C registers written meanwhile. -/
  cWritten : List Nat
  /-- The operation has written its C ranges. -/
  complete : Bool
  deriving DecidableEq, Repr

/-- A group's own word of a matrix operation that is not formed yet, or formed (R170). -/
structure MmaWord where
  pc : Dword
  entry : Nat
  fn : Nat
  ty : Ty
  sat : Bool
  x : BitVec 4
  d : Nat
  a : Nat
  b : Nat
  c : Nat
  deriving DecidableEq, Repr

/-- Why a group is suspended (R345): the fault, the strand, the lanes that faulted, and the record's identifier. -/
structure Suspend where
  code : Byte
  entry : Nat
  lanes : LaneMask
  record : Nat
  /-- The fault is of a store or reduction that a callee issued, and its frame has been left (R158, R159). -/
  late : Bool := false
  /-- By `brk` (R345). -/
  brk : Bool := false
  /-- The sequence number that the record took when it was written (R342, R363); 0 before. -/
  seq : Word := 0
  deriving DecidableEq, Repr

/-- What an order field still owes after an access: the fence.acq (R120), which waits for `op` if there is one and
for the earlier loads. -/
structure Hold where
  op : Option Nat
  deriving DecidableEq, Repr

/-- A scratchpad access on its way to the array (R119, R225): the operation, and the lanes of a load with their offsets,
or the bytes of a store in lane order. -/
structure SpadAccess where
  op : Nat
  loads : List (Nat × Nat)
  reg : Nat
  size : Nat
  stores : List (Nat × List Byte)
  deriving DecidableEq, Repr

/-- Whether a group still issues. -/
inductive Stopping where
  | running
  /-- Its launch is being terminated (R349). -/
  | terminate
  /-- Its cohort is being evicted (R356). -/
  | evict
  deriving DecidableEq, Repr

/-- A gate frame (R156). `records` are the group's set-aside Docent records. -/
structure Frame where
  v : Map Word
  s : Map Dword
  p : Map LaneMask
  jc : Map Nat
  pending : Map LaneMask
  strands : Map Strand
  records : List Record
  saveList : List Record
  stack : List StackEntry
  trapvec : Dword
  layouts : Map Layout
  live : LaneMask
  rclk : Time
  wclk : Time
  caller : Nat
  callee : Nat
  entry : Nat
  strand : Nat
  mask : LaneMask
  pc : Dword
  d : Nat
  va : Nat
  sa : Nat
  vr : Nat
  sr : Nat
  uniform : Bool
  deriving DecidableEq, Repr

/-- A resident group (R31, R41, R197). -/
structure Group where
  block : Nat
  launch : Nat
  groupid : Nat
  domain : Nat
  nregs : Nat
  /-- v[r] of lane l at key 32 r + l; unlisted registers hold 0. -/
  v : Map Word := []
  s : Map Dword := []
  /-- Predicate k's bits over the lanes; p0 is not stored. -/
  p : Map LaneMask := []
  live : LaneMask
  helper : LaneMask := 0
  trapvec : Dword := 0
  jc : Map Nat := []
  pending : Map LaneMask := []
  strands : Map Strand := []
  saveList : List Record := []
  /-- Start of the 4,096-cc swap count (R208). -/
  swapSince : Nat := 0
  stackMode : Bool := false
  stack : List StackEntry := []
  rclk : Time := 0
  wclk : Time := 0
  lease : Time := 64
  ops : List PathOp := []
  /-- Scratchpad accesses issued and not performed, oldest first (R119, R225). -/
  spads : List SpadAccess := []
  /-- Lines of host or peer memory with acknowledged stores below `.sys`, which a `.sys` fence still waits for (R126). -/
  remote : List Nat := []
  hold : Option Hold := none
  marks : List Mark := []
  layouts : Map Layout := []
  eps : Map EpBinding := []
  /-- Source endpoints it has closed, whose tokens `afence` still waits for (R180). -/
  closed : List EpBinding := []
  frames : List Frame := []
  mrdyCount : Nat := 0
  /-- Operations named before this were issued before the last `mrdy`. -/
  mrdyMark : Nat := 0
  mmaCount : Nat := 0
  armed : Bool := false
  /-- Registers written since the last `mrdy` (R171). -/
  wrote : List Nat := []
  owned : List Owned := []
  /-- The group's words of operations not yet formed, oldest first. -/
  words : List MmaWord := []
  /-- The faults it is suspended for, oldest first (R345). -/
  suspends : List Suspend := []
  stopping : Stopping := .running
  /-- Callee domains whose frames are aborted once the loads and near-memory operations are done (R159). -/
  aborting : List Nat := []
  /-- Residency stamp (R203). -/
  stamp : Nat := 0
  deriving DecidableEq, Repr

/-- A translation that a TLB holds, for one 64 KiB unit of a domain (R336): the leaf and its level. -/
structure Leaf where
  ent : Dword
  level : Nat
  deriving DecidableEq, Repr

/-- A live Catalogue claim (R146, R147). -/
structure Claim where
  base : Nat
  size : Nat
  ring : Dword
  spills : Dword
  occ : Nat
  ov : Nat
  b : Nat
  k64 : Bool
  /-- Slot position (R153) to key and value; empty slots are not listed. -/
  slots : Map (Dword × Dword)
  /-- The ring's pages, which stay pinned until `cfree` (R148): a 64 KiB unit of addresses and its leaf. -/
  pins : Map Leaf := []
  deriving DecidableEq, Repr

/-- A block on a core (R197, R219). -/
structure Block where
  launch : Nat
  number : Nat
  cohort : Nat
  core : Nat
  x : Nat
  y : Nat
  z : Nat
  groups : Nat
  scratchKiB : Nat
  catalogueKiB : Nat
  spad : Map Byte := []
  /-- Set bits of the arrival map (R135), and the kept time of each chunk (R238). -/
  arrival : Map Bool := []
  kept : Map Time := []
  claim : Option Claim := none
  /-- Barrier k: the groups that have arrived (R128). -/
  bars : Map (BitVec 32) := []
  deriving DecidableEq, Repr

/-- A copy of a line in an L1 or an instruction cache (R222, R420). -/
structure CopyLine where
  data : LineData
  valid : BitVec 64
  wts : Stamp
  rts : Stamp
  /-- Pending bytes of `.blk` stores in the core's issue order: message, byte mask, bytes (R231). -/
  pend : List (Nat × BitVec 64 × LineData) := []
  deriving DecidableEq, Repr

/-- A line present in its L2 slice (R223-R226). -/
structure HomeLine where
  data : LineData
  dirty : Bool
  wts : Stamp
  rts : Stamp
  /-- A proxy line of host memory that is held in exclusive ownership (R372). -/
  own : Bool := false
  deriving DecidableEq, Repr

/-- A lane's part of a load: the bytes at an offset of the line go to registers from `reg` on (R119). -/
structure LaneLoad where
  lane : Nat
  reg : Nat
  off : Nat
  /-- 0 for a lane of `renew`, which writes no register (R132). -/
  size : Nat
  va : Dword := 0
  deriving DecidableEq, Repr

/-- What a message asks of a home or an owner node. -/
inductive MsgKind where
  /-- A renewal for a load, a `renew`, or a `prf` (no lanes, `toL1` says whether a copy is kept). -/
  | renew (loads : List LaneLoad) (toL1 : Bool) (raises : Bool)
  /-- A renewal for an instruction fetch whose home is a proxy (R420). -/
  | fetch
  /-- The read of a generation by `bwait` (R131): the generation awaited, and where the one read goes. -/
  | poll (off : Nat) (gen : Word) (dst : Nat)
  /-- The read of a layout descriptor into a slot (R138). -/
  | layout (slot off : Nat)
  /-- A store of the masked bytes (R230). -/
  | store (mask : BitVec 64) (data : LineData) (blk : Bool)
  /-- A store whose bytes a courier copy reads from the scratchpad (R136): byte i of the mask comes from offset
  `src i`. -/
  | courier (copy : Nat) (bytes : List (Nat × Nat))
  /-- An atomic on a word at an offset (R232). `dst` is where the old word goes. -/
  | atomic (lane off size : Nat) (op : AtomicOp) (value cmp : Dword) (dst : Option Nat) (order : Order)
  /-- An arrival on a barrier record (R130); the old generation goes to a scalar. -/
  | arrive (off : Nat) (inc : Dword) (dst : Nat)
  /-- A line of host or peer memory that the device itself needs: it is brought into its proxy home, in exclusive ownership
  for an atomic (R237, R372), or read at its owner node where the page is N (R117). -/
  | bring (excl near : Bool)
  deriving DecidableEq, Repr

/-- Where a message is. -/
inductive MsgStage where
  /-- On its way to the home. -/
  | toHome
  /-- At the proxy, waiting for the host or the peer that owns the line (R237); `seq` numbers the requests in the order
  in which the device sent them on (R375). -/
  | atOwner (seq : Nat)
  /-- On its way back: the new time, the previous or old wts, the line or the word. -/
  | reply (t prev : Stamp) (data : LineData) (bad : Bool)
  deriving DecidableEq, Repr

/-- A request of a group at the homes (R228-R232). -/
structure Msg where
  group : Nat
  core : Nat
  op : Nat
  pc : Dword
  entry : Nat
  line : Nat
  va : Dword
  scope : Scope
  clk : Time
  lease : Time
  kind : MsgKind
  stage : MsgStage := .toHome
  /-- Reuse class, for the slice's telemetry (R116). -/
  cls : Nat := 0
  deriving DecidableEq, Repr

/-- What an owner node is asked to do (R117, R182, R183, R192). -/
inductive OwnerWork where
  | load (loads : List LaneLoad) (line : Nat)
  | touch
  | store (pa : Nat) (bytes : List Byte)
  /-- Bytes of a courier copy, from these offsets of its source. -/
  | courier (pa copy : Nat) (src : List Nat)
  | word (pa : Nat) (op : AtomicOp) (size : Nat) (value : Dword) (cls : Nat)
  /-- `nidx`: apply the source word at `src`. -/
  | index (pa src : Nat) (op : AtomicOp) (cls : Nat)
  | misuse
  deriving DecidableEq, Repr

/-- Who waits for an owner node's application. -/
inductive OwnerFrom where
  /-- A host or a peer device, which is answered outside the model. -/
  | outside (device : Nat)
  | group (key op : Nat)
  | copy (id : Nat)
  /-- The device itself, for its own stores to an N page of a peer. -/
  | device
  | port (die port access : Nat)
  deriving DecidableEq, Repr

/-- A request to an owner node; `queued` once it stands in the node's queue. -/
structure OwnerReq where
  from_ : OwnerFrom
  die : Nat
  node : Nat
  va : Dword
  work : OwnerWork
  queued : Bool := false
  /-- The binding that held its line when it reached the node (R379, R380). -/
  bound : Option Nat := none
  /-- The lane of a group that it acts for, 32 where it acts for none alone (R114). -/
  lane : Nat := 32
  deriving DecidableEq, Repr

/-- A courier copy in flight (R134-R138). `src` is its bytes' offsets in the source block's scratchpad. -/
structure Copy where
  group : Nat
  op : Nat
  /-- Source block and, for scratchpad destinations, the destination blocks not yet landed, with the offset. -/
  block : Nat
  src : Nat
  bytes : Nat
  /-- Nothing for a member of the cohort that has retired, whose bytes are discarded (R219). -/
  dests : List (Option Nat)
  dst : Nat
  /-- The carried time max(rclk, wclk) (R238), or for a copy to global memory the largest acknowledged time (R136). -/
  carried : Time
  /-- Chunks that have landed, numbered over the destinations in order. -/
  landed : List Nat
  /-- Source offsets written since issue: their bytes are undefined (R136). -/
  tainted : List Nat
  toGlobal : Bool
  deriving DecidableEq, Repr

/-- A commission at its producer (R139, R357). -/
structure Job where
  group : Nat
  op : Nat
  block : Nat
  domain : Nat
  command : BitVec 128
  dst : Nat
  selector : Dword
  pc : Dword
  /-- Bytes of the stream delivered to the scratchpad so far. -/
  pos : Nat
  /-- The largest wts of the lines read (R238). -/
  maxWts : Time
  /-- Set aside after a translation fault, with its record. -/
  aside : Option Nat
  /-- Index words read so far, so that each is read once (R194). -/
  index : List Nat
  /-- The header of a row stream once it has been read: table, stride, row bytes and its largest wts (R194). -/
  header : Option (Nat × Nat × Nat × Time) := none
  /-- The lines of elements and of index words that the producer has reached, as they were read there (R139). -/
  held : Option (Nat × LineData) := none
  heldIndex : Option (Nat × LineData) := none
  /-- Elements of `sgath` fetched so far, by address (R194). -/
  fetched : Map Nat := []
  deriving DecidableEq, Repr

/-- A `gath` in flight (R142): its distinct rows, each with the lanes it serves. -/
structure GathJob where
  group : Nat
  op : Nat
  block : Nat
  domain : Nat
  dst : Nat
  rowBytes : Nat
  elemBytes : Nat
  rows : List (Nat × List Nat)
  pc : Dword
  entry : Nat
  maxWts : Time
  /-- The group's read clock and lease at issue, with which its rows are read (R142, R228). -/
  rclk : Time
  lease : Time
  /-- The leaves of its rows' pages as they were at issue, by 64 KiB unit of addresses (R338, R340). -/
  pages : Map Leaf := []
  deriving DecidableEq, Repr

/-- An operation of the matrix engine (R170): the quartet's four groups by rank and their words, in rank order. -/
structure MatOp where
  id : Nat
  groups : List Nat
  words : List MmaWord
  /-- cc at which its fourth word issued, and the residency stamp of the group that issued it (R217). -/
  formed : Nat
  stamp : Nat
  /-- cc at which it started. -/
  started : Option Nat
  deriving DecidableEq, Repr

/-- A core (R1, R170, R207, R233, R330, R415). -/
structure Core where
  /-- In service. -/
  service : Bool := false
  retired : Bool := false
  incarnation : BitVec 4 := 0
  /-- cc at which it entered service. -/
  since : Nat := 0
  carve : Nat := 384
  engine : List MatOp := []
  rowsAsked : Dword := 0
  rowsFetched : Dword := 0
  hotHits : Dword := 0
  /-- 1,024-cc periods of creep applied (R233). -/
  creeps : Nat := 0
  docent : List Record := []
  /-- The slot that each quadrant's scheduler visited last, and the cc after its last issue (R209). -/
  ring : Map Nat := []
  issuedAt : Map Nat := []
  /-- Start of the all-blocked timer of each quadrant (R216). -/
  growSince : Map Nat := []
  /-- Groups spilled by R216 that wait for a slot: quadrant, group. -/
  spilled : List (Nat × Group) := []
  /-- A carve-out change is pending (R330). -/
  carveNext : Option Nat := none
  /-- The queue whose launch the change is for (R330). -/
  keptFor : Option Nat := none
  /-- Placement is held: evacuation, or a save in its reserve share (R362). -/
  held : Bool := false
  /-- Left service at this cc (R415). -/
  left : Option Nat := none
  deriving DecidableEq, Repr

/-- The launch record's fields that placement and completion use (R198). -/
structure LaunchRec where
  code : Dword
  gridx : Nat
  gridy : Nat
  gridz : Nat
  groups : Nat
  cohort : Nat
  regs : Nat
  scratch : Nat
  catalogue : Nat
  carve : Nat
  lease : Nat
  arg : Dword
  done : Dword
  wait : Dword
  domain : Nat
  priority : Nat
  stack : Bool
  sys : Bool
  extent : Nat
  deriving DecidableEq, Repr

/-- A region record (R255). -/
structure RegionRec where
  image : Dword
  cols : Nat
  rows : Nat
  dies : BitVec 16
  timeout : Nat
  arg : Dword
  done : Dword
  wait : Dword
  ranges : Dword
  domain : Nat
  priority : Nat
  sys : Bool
  /-- Output ranges of the range table, address and length (R187). -/
  outputs : List (Nat × Nat)
  deriving DecidableEq, Repr

/-- What a packet carries (R315). -/
inductive Work where
  | launch (r : LaunchRec)
  | region (r : RegionRec)
  deriving DecidableEq, Repr

/-- A wait entry of a packet (R319, R320). -/
structure WaitEntry where
  va : Dword
  gen : Word
  satisfied : Bool
  registered : Bool
  deriving DecidableEq, Repr

/-- A fetched packet (R315, R317). `work` is set by Parse; `raw` holds the slot's 128 bytes. -/
structure Packet where
  slot : Nat
  raw : List Byte
  parsed : Bool
  work : Option Work
  prev : Bool
  waits : List WaitEntry
  /-- Start clock so far (R227). -/
  start : Time
  /-- cc at which it became ready, and at which it blocked (R323, R324). -/
  ready : Option Nat
  blocked : Option Nat
  /-- The launch it became when its first cohort was placed. -/
  launch : Option Nat
  /-- Steps of 50 µs by which it has aged, and whether its backfill window has closed (R323, R324). -/
  aged : Nat := 0
  expired : Bool := false
  deriving DecidableEq, Repr

/-- Why a queue does not fetch (R317). -/
inductive QueueStop where
  | running
  /-- A read of the descriptor or of a slot faulted. -/
  | fault
  /-- The read of a wait entry of the head faulted. -/
  | waitFault
  | badDescriptor
  deriving DecidableEq, Repr

/-- The queue-state cache entry of a queue (R317). -/
structure Queue where
  descriptor : Dword
  domain : Nat
  /-- Whether the descriptor's fields are held. -/
  cached : Bool := false
  ring : Dword := 0
  size : Nat := 0
  serial : Bool := false
  readIndex : Nat := 0
  completed : Nat := 0
  /-- Next slot to fetch. -/
  fetch : Nat := 0
  stop : QueueStop := .running
  packets : List Packet := []
  /-- Packets dispatched but not completed. -/
  open_ : List Nat := []
  /-- cc of its last use (R317). -/
  used : Nat := 0
  /-- Slots whose packet is to be refused at Parse (R351). -/
  doomed : List Nat := []
  deriving DecidableEq, Repr

/-- A launch that is placed in part or whole (R219, R220, R349). -/
structure Launch where
  queue : Nat
  slot : Nat
  record : LaunchRec
  start : Time
  cohorts : Nat
  /-- Cohorts placed, and blocks not retired. -/
  placed : Nat
  blocksLeft : Nat
  priority : Nat
  ready : Nat
  rmax : Time
  wmax : Time
  terminating : Bool
  /-- cc at which an evicted cohort of it blocked (R324, R359). -/
  blocked : Option Nat := none
  /-- The packet's PREV bit (R319, R331). -/
  prev : Bool := false
  /-- Lines of host and peer memory that its groups stored to below `.sys`, for a release with SYS (R199, R220). -/
  remote : List Nat := []
  deriving DecidableEq, Repr

/-- A fault record (R342), and where it goes. -/
structure FaultRec where
  id : Nat
  code : Byte
  source : Byte
  flags : Byte
  lane : Byte
  queue : Nat
  slot : Nat
  where_ : Dword
  va : Dword
  detail : Dword
  core : Nat
  slotNo : Nat
  incarnation : BitVec 4
  block : Nat
  domain : Nat
  /-- The launch or region it belongs to. -/
  launch : Option Nat
  region : Option Nat
  /-- What a resolution acts on: a group, a job or a port. -/
  group : Option Nat
  job : Option Nat
  port : Option Nat
  /-- It has been tried, and its queue was full or could not be written: its source waits (R344, R418). -/
  waiting : Bool := false
  /-- A wait has been reported (R418). -/
  reported : Bool := false
  deriving DecidableEq, Repr

/-- A delivered record that awaits a resolution (R346): its physical address, and the first accepted value that was written
to its resolution word, with the resume VA that stood beside it. -/
structure Await where
  record : FaultRec
  pa : Nat
  choice : Option (Nat × Nat) := none
  deriving DecidableEq, Repr

/-- State of a domain (R332). -/
inductive DomainState where
  | free | active | quarantined
  deriving DecidableEq, Repr

/-- An import entry (R377). -/
structure Import where
  base : Nat
  length : Nat
  device : Nat
  r : Bool
  w : Bool
  a : Bool
  deriving DecidableEq, Repr

/-- An invalidation request being processed (R338). -/
structure InvRequest where
  index : Nat
  va : Nat
  units : Nat
  all : Bool
  barrier : Dword
  /-- Operations in flight under the removed entries when it was read: group and operation. -/
  covered : List (Nat × Nat)
  /-- The reads of `bwait` and the instruction fetches in flight then, by message. -/
  messages : List Nat := []
  /-- An ALL request of a peer's revocation instead of a ring's: the peer and the grant (R377). -/
  curator : Option (Nat × Nat) := none
  deriving DecidableEq, Repr

/-- A domain's entry (R332, R377, R400, R401). -/
structure Domain where
  state : DomainState := .free
  service : Bool := false
  manager : Nat := 0
  controlBlock : Dword := 0
  faultQueue : Dword := 0
  root : Nat := 0
  gates : Map GateEntry := []
  msix : Bool := false
  faultSeq : Word := 0
  key : Option Nat := none
  measurement : Nat := 0
  signer : Nat := 0
  integrity : Nat := 0
  /-- Import entries by grant number (R377). -/
  imports : Map Import := []
  /-- Square quota on each die; 64 where not listed (R327). -/
  quota : Map Nat := []
  invalidation : Option InvRequest := none
  invRead : Nat := 0
  /-- Revocations that ask for an ALL request: peer and grant (R377). -/
  revocations : List (Nat × Nat) := []
  deriving DecidableEq, Repr

/-- An export entry (R377). -/
structure Export where
  base : Nat
  length : Nat
  device : Nat
  domain : Nat
  local_ : Nat
  r : Bool
  w : Bool
  a : Bool
  /-- The peer has replied (R377). -/
  complete : Bool := false
  deriving DecidableEq, Repr

/-- A Spire port (R374, R414). -/
structure SpirePort where
  up : Bool := false
  /-- The link key that the Keeps at the two ends agreed when the peer attested; without one the port stays down (R374, R394). -/
  key : Option Nat := none
  lanes : Nat := 8
  spareUsed : Bool := false
  /-- Lanes that have failed, of the working lanes 0 to 7 and the spare lane 8 (R414). -/
  failed : List Nat := []
  /-- It failed training at stage 2 (R392). -/
  retired : Bool := false
  nextSeq : Nat := 0
  /-- Sequence numbers sent and not acknowledged, oldest first. -/
  unacked : List Nat := []
  retrains : Nat := 0
  deriving DecidableEq, Repr

/-- A firmware slot (R395, R396). -/
structure Slot where
  image : Option Image := none
  /-- Measurement, svn and key index of the image that was accepted last in the slot (R396, R401). -/
  measurement : Nat := 0
  svn : Byte := 0
  key : Byte := 0
  deriving DecidableEq, Repr

/-- A loaded kernel image: where its body stands, and when it was loaded, by name: launches with a later name run it (R397). -/
structure Kernel where
  kind : Nat
  base : Nat
  body : List Byte
  at_ : Nat
  deriving DecidableEq, Repr

/-- A firmware kind's two slots. -/
structure Firmware where
  a : Slot := {}
  b : Slot := {}
  /-- The active marker names slot B. -/
  activeB : Bool := false
  /-- The active image was accepted by fallback (R398). -/
  fallback : Bool := false
  loaded : Option Image := none
  /-- A switch is done and its active marker not yet written to flash (R397). -/
  unwritten : Bool := false
  deriving DecidableEq, Repr

/-- A record of the service ring (R408). -/
structure ServiceRec where
  kind : Byte
  unitClass : Byte
  unit : Nat
  detail : Word
  address : Dword
  time : Nat
  overwritten : Nat
  deriving DecidableEq, Repr

/-- Start-up (R392). -/
inductive Boot where
  | off | stage0 | stage1 | stage2
  deriving DecidableEq, Repr

/-- A token of the Annex (R268). -/
structure Token where
  data : Dword
  tag : BitVec 7 := 0
  eos : Bool := false
  deriving DecidableEq, Repr

/-- A token store (R269): each token with the fc it was accepted in and the fc from which it can leave, oldest
first, and how many left in the fc `popFc`. -/
structure Store where
  toks : List (Token × Nat × Nat) := []
  popFc : Nat := 0
  popped : Nat := 0
  deriving DecidableEq, Repr

/-- The state of a running pass of an `agen` or `count` task, or of a stream-out tile: words left and position. -/
structure Pass where
  pos : Nat
  deriving DecidableEq, Repr

/-- The state of a task of an element (R259-R274, R365). -/
structure TaskState where
  word : Dword := 0
  k : Dword := 0
  /-- Running sum of `acc` (R271). -/
  sum : Dword := 0
  counter : Nat := 0
  lastFired : Option Nat := none
  repeatLeft : Option Nat := none
  pass : Option Pass := none
  permits : Nat := 0
  /-- A marker of `acc` has emitted the sum and still owes the marker (R272). -/
  owesMarker : Bool := false
  /-- Frame mode: inputs whose marker is held (R273). -/
  markers : List Nat := []
  deriving DecidableEq, Repr

/-- An element of an instance: mode, tasks, frame store with the fc each present slot was set in, output stores by
outgoing vc (R259-R273). -/
structure Elem where
  frameMode : Bool := false
  s : Nat := 0
  tasks : List TaskState := []
  frame : Map Dword := []
  present : Map Nat := []
  outs : Map Store := []
  blocked : Bool := false
  lastFc : Option Nat := none
  deriving DecidableEq, Repr

/-- A memory tile of an instance, by its attachment element (R262). -/
structure Tile where
  mode : Nat := 0
  base : Nat := 0
  n : Nat := 0
  rep : Nat := 0
  ovc : Nat := 0
  e : Bool := false
  words : Map Dword := []
  fifo : Store := {}
  out : Store := {}
  permits : Nat := 0
  pass : Option Pass := none
  deriving DecidableEq, Repr

/-- A branch of a route (R265) with its hop buffers. -/
structure Branch where
  kind : Nat
  number : Nat
  x : Nat
  y : Nat
  vc : Nat
  hops : List Store
  /-- The direction of each hop; none of a local hop. -/
  dirs : List Nat := []
  deriving DecidableEq, Repr

/-- A route (R265). -/
structure Route where
  kind : Nat
  number : Nat
  x : Nat
  y : Nat
  vc : Nat
  branches : List Branch
  deriving DecidableEq, Repr

/-- A controller table entry and its run (R280, R281): iteration of each child started and done. -/
structure Ctl where
  x : Nat
  y : Nat
  tile : Bool
  task : Nat
  parent : Option Nat
  running : Bool := false
  /-- Permits issued to, and done reports received from, each child in the current run. -/
  issued : Map Nat := []
  done : Map Nat := []
  /-- Permits and done tokens in transit: fc at which they arrive. -/
  permitAt : Option Nat := none
  doneAt : List Nat := []
  deriving DecidableEq, Repr

/-- An endpoint of an instance (R262, R279): its kind, and the tokens sent and not consumed. -/
structure Endpoint where
  kind : Nat
  die : Nat
  die2 : Nat
  /-- Credits the source may still use. -/
  credits : Nat := 0
  /-- Tokens on the far side: a core source's tokens going in, a core sink's buffer, a die link's transit. -/
  buf : Store := {}
  /-- Tokens consumed whose credit is on its way back: the fc each left. -/
  returning : List Nat := []
  bound : Option Nat := none
  /-- A released source still owes its marker, for which it waits as a token does: for a credit and for an open window (R174,
R178, R360). -/
  ending : Bool := false
  /-- A closed sink discards what arrives up to the next marker (R178). -/
  discard : Bool := false
  deriving DecidableEq, Repr

/-- Life of a region instance (R289). -/
inductive RegionState where
  | queued | loading | running | draining | checkpointed | completing | completed | failed | released
  deriving DecidableEq, Repr

/-- A region instance on a die (R254). -/
structure Inst where
  region : Nat
  die : Nat
  section_ : Nat
  sx : Nat
  sy : Nat
  cols : Nat
  rows : Nat
  state : RegionState
  /-- The enabled stage of the region, and the fc from which it is enabled; a region's instances agree in these and in
`nextStage` (R276, R329). -/
  stage : Nat := 0
  stages : Nat := 1
  stageSince : Nat := 0
  /-- fc of the last firing in this instance since the stage was enabled. -/
  lastFire : Option Nat := none
  /-- A stage swap in progress: the next stage, and the fc from which it is enabled. -/
  nextStage : Option (Nat × Option Nat) := none
  /-- Elements by 128 y + x, tiles by the same key of their attachment element. -/
  elems : Map Elem := []
  tiles : Map Tile := []
  routes : List Route := []
  /-- Bindings: port, flags, x, y. -/
  ports : List (Nat × Nat × Nat × Nat) := []
  seqs : List Nat := []
  ctls : List Ctl := []
  /-- Leaves that reported done, without a controller table. -/
  leafDone : List Nat := []
  rootDone : Bool := false
  /-- Image stamp (R328). -/
  stamp : Time := 0
  /-- Every element, tile, port and sequencer has acknowledged; it was restored from a checkpoint (R289, R361). -/
  loaded : Bool := false
  restored : Bool := false
  deriving DecidableEq, Repr

/-- What an access of a stream port does (R192, R283): a read at memory, the replay of an element fetched before
(`sgath`), a token that needs no memory, a write at memory, or a request at an owner node. -/
inductive AccessKind where
  | read (pa : Nat)
  | replay
  | token (t : Token)
  | write (pa : Nat) (bytes : List Byte)
  | owner
  deriving DecidableEq, Repr

/-- An access of a stream command that has been issued, in stream order. `value` is set once a read has performed; a
write leaves the list when it has performed, everything else when its token has entered the crossbar. -/
structure Access where
  id : Nat
  cmd : Nat
  va : Nat
  size : Nat
  kind : AccessKind
  packed : Bool := false
  /-- The last element of a packed stream. -/
  flush : Bool := false
  /-- The element is kept for replays of `sgath`. -/
  keep : Bool := false
  value : Option Nat := none
  /-- It comes from a checkpoint, and its address is translated afresh before it performs (R361). -/
  again : Bool := false
  deriving DecidableEq, Repr

/-- An extent slot of a port (R352). -/
structure Extent where
  va : Nat
  size : Nat
  leaf : Dword
  level : Nat
  used : Nat
  /-- An invalidation covers it, and it has not been translated again (R354). -/
  stale : Bool := false
  deriving DecidableEq, Repr

/-- A stream port (R188, R191-R194, R352, R353, R379). -/
structure Port where
  inst : Option Nat := none
  x : Nat := 0
  y : Nat := 0
  queue : List (BitVec 128) := []
  /-- Index of the head command since Running, and the next element of it. -/
  cmd : Nat := 0
  elem : Nat := 0
  strides : Map Dword := []
  extents : Map Extent := []
  /-- Withholds its tokens: fault record that awaits a resolution. -/
  withheld : Option Nat := none
  /-- The VA whose page is not covered by a slot. -/
  wants : Option Nat := none
  accesses : List Access := []
  /-- Read side toward the region, write side from it (R269). -/
  rd : Store := {}
  wr : Store := {}
  /-- Bytes of the packed token being built, of the packed token being written, and of a landing row being
gathered, with its virtual address (R192, R380). -/
  pack : List Byte := []
  unpack : List Byte := []
  row : Option (Nat × List Byte) := none
  /-- Header and current index word of `sidx` and `sgath` (R194). -/
  header : Option (Dword × Nat × Nat) := none
  rowIndex : Option Nat := none
  /-- Elements fetched by `sgath`, by command and address. -/
  rowCache : Map Nat := []
  /-- Commands whose completion token is due, then the completion channel (R284). -/
  completions : List Nat := []
  cpl : Store := {}
  landing : Option Nat := none
  /-- The lines of the range of an `sland` at the head that its slots have translated so far (R352, R379). -/
  lines : List Nat := []
  /-- The name of the arrival of an `sbar` that waits for the owner of its record (R192, R378). -/
  arriving : Option Nat := none
  drains : Nat := 0
  deriving DecidableEq, Repr

/-- A port sequencer (R188). -/
structure Seq where
  inst : Nat
  k : Map Dword := []
  pc : Nat := 0
  prog : List Word := []
  store : Map Byte := []
  stopped : Bool := false
  failed : Bool := false
  /-- Signal channels' output stores (R265). -/
  sig : Map Store := []
  deriving DecidableEq, Repr

/-- A region (R255, R289). -/
structure Region where
  queue : Nat
  slot : Nat
  record : RegionRec
  start : Time
  /-- The largest mts that retiring its output ranges left (R240). -/
  clock : Time := 0
  /-- Its completion barrier has not stepped yet (R240, R290). -/
  owes : Bool := false
  state : RegionState := .queued
  insts : List Nat := []
  eps : Map Endpoint := []
  /-- cc at which the stream-fault timeout started. -/
  timeoutAt : Option Nat := none
  /-- fc of the request that it drains for (R360). -/
  drainFrom : Option Nat := none
  /-- Records of STREAM faults not yet resolved. -/
  pending : List Nat := []
  /-- Checkpointed by the timeout (R353). -/
  byTimeout : Bool := false
  /-- It drains for service, so its checkpoint goes to the reserve (R362). -/
  forService : Bool := false
  /-- cc at which it blocked when it was to be placed again (R324). -/
  blocked : Option Nat := none
  priority : Nat := 0
  ready : Nat := 0
  deriving DecidableEq, Repr

/-- A binding of a landing range (R379-R382): its lines, the header first. -/
structure Landing where
  die : Nat
  port : Nat
  region : Nat
  lines : List Nat
  fmt : Nat
  ordered : Bool
  e : Nat
  doneVa : Dword
  domain : Nat
  /-- Contributions counted and staged by line: source number and row, in arrival order. -/
  count : Map Nat := []
  staged : Map (List (Nat × LineData)) := []
  deriving DecidableEq, Repr

/-- A contribution that its owner node applies or stores (R380). -/
structure Contribution where
  source : Nat
  line : Nat
  data : LineData
  from_ : OwnerFrom
  deriving DecidableEq, Repr

/-- The counters and remembered classes of an owner node (R287). -/
structure OwnerNode where
  mix : Word := 0
  misuse : Word := 0
  /-- The most recently applied distinct words with their class, newest first, at most 256. -/
  seen : List (Nat × Nat) := []
  deriving DecidableEq, Repr

/-- Squares that still hold the configuration of a released instance: its tasks, tile controls and routes (R328). -/
structure Cached where
  image : Dword
  section_ : Nat
  domain : Nat
  die : Nat
  sx : Nat
  sy : Nat
  cols : Nat
  rows : Nat
  stamp : Time
  elems : Map Elem
  tiles : Map Tile
  routes : List Route
  deriving DecidableEq, Repr

/-- A saved block of an evicted cohort: the block and its groups (R363, R364), and whether the save stands in a
core's reserve share. -/
structure Saved where
  launch : Nat
  cohort : Nat
  block : Nat
  data : Block
  groups : List Group
  /-- Numbers of those of the groups that R216 had spilled, which wait for a slot again (R359). -/
  spilled : List Nat := []
  /-- Commissions to issue again (R357). -/
  jobs : List Job
  reserve : Option Nat
  /-- cc at which it was saved. -/
  at_ : Nat
  deriving DecidableEq, Repr

/-- A checkpointed instance with its ports and sequencers (R365). -/
structure Checkpoint where
  region : Nat
  inst : Inst
  ports : List (Nat × Port)
  seqs : List (Nat × Seq)
  /-- It stands in the reserve shares of the squares it left (R362). -/
  reserved : Bool := false
  deriving DecidableEq, Repr

/-- The memory system (R221-R226, R286, R366). Bytes of memory are listed by physical address, in the form of
Host.Cell; an unlisted byte reads 0 (LOG 5). -/
structure MemSys where
  bytes : List Host.Cell := []
  /-- Lines with an uncorrectable error (R406, R407). -/
  bad : List Nat := []
  /-- Those of them whose tag does not fit their owner's key, since another key has written them (R400). -/
  forged : List Nat := []
  l2 : Map HomeLine := []
  /-- Lines whose codeword in their slice has an uncorrectable error (R406, R407). -/
  badL2 : List Nat := []
  /-- mts of each slice (R224). -/
  mts : Map Stamp := []
  /-- spread[i] where it is not i mod 64 (R223). -/
  spread : Map Nat := []
  l1 : Map CopyLine := []
  icache : Map CopyLine := []
  /-- Leaves of the die's second-level TLB, key 2^45 × domain + unit, and of core c's TLB, from 2^52 × (c + 1) on (R336). -/
  tlb : Map Leaf := []
  msgs : Map Msg := []
  owner : Map OwnerReq := []
  nodes : Map OwnerNode := []
  xclk : Time := 0
  landings : Map Landing := []
  /-- Row frequency counters (R144). -/
  freq : Map Nat := []
  /-- Last halving of the frequency counters. -/
  freqAt : Nat := 0
  /-- Telemetry counters of the slices by 16 × slice + class, for classes 8 to 15 (R116). -/
  telemetry : Map Nat := []
  deriving DecidableEq, Repr

/-- The Annex (R252-R291). -/
structure Annex where
  regions : Map Region := []
  insts : Map Inst := []
  ports : Map Port := []
  seqs : Map Seq := []
  cache : List Cached := []
  checkpoints : List Checkpoint := []
  deriving DecidableEq, Repr

/-- What the Belfry still has to do in memory for a packet (R220, R317, R331): wait until the owners of host and peer lines
have acknowledged their stores; store bytes; arrive on the completion barrier with a clock, under a name of its own;
count a packet as completed. An arrival on any other barrier (R338, R344, R379, R382) is owed in the same way; `report` is the
code that a kind 12 record names when it cannot be made (R418). -/
inductive Owed where
  | release (lines : List Nat)
  | store (va : Dword) (bytes : List Byte)
  | arrive (va : Dword) (clk : Time) (tag slot : Nat)
  | count (slot : Nat)
  | signal (va : Dword) (clk : Time) (tag : Nat) (report : Option Byte)
  deriving DecidableEq, Repr

/-- A step that the Belfry owes, for a queue and on behalf of a domain. -/
structure OwedStep where
  queue : Nat
  domain : Nat
  what : Owed
  deriving DecidableEq, Repr

/-- The Belfry (R312-R331). -/
structure Belfry where
  queues : Map Queue := []
  launches : Map Launch := []
  /-- What `rlaunch` enqueued last from a record: domain, record VA, queue, slot (R175). -/
  rlaunched : List (Nat × Dword × Nat × Nat) := []
  /-- Start clocks of packets that cores enqueued: queue, slot, and the group's wclk after its release (R227, R239). -/
  starts : List (Nat × Nat × Time) := []
  /-- Waiters registered on a barrier record: line's record PA, queue, entry (R321). -/
  waiters : List (Nat × Nat × Nat) := []
  /-- What it still has to do in memory, oldest first; the steps of one queue keep their order (R331). -/
  owed : List OwedStep := []
  deriving DecidableEq, Repr

/-- Faults, resolutions, evictions (R341-R365). -/
structure Faults where
  /-- Records raised and not delivered, oldest first. -/
  undelivered : List FaultRec := []
  awaiting : List Await := []
  saves : List Saved := []
  /-- Evictions in progress: launch, cohort, for firmware's policy. -/
  evictions : List (Nat × Nat × Bool) := []
  deriving DecidableEq, Repr

/-- Host attach and Spire link (R368-R378). -/
structure Links where
  windows : Map HostWindow := []
  /-- Host accesses outside windows (R370). -/
  outside : Nat := 0
  exports : Map Export := []
  denials : Nat := 0
  ideKeys : Bool := false
  /-- MSI-X vectors raised, oldest first. -/
  raised : List Nat := []
  ports : Map SpirePort := []
  /-- The routing table: the port that leads to a peer device; a device that is not listed is reached through the lowest
port that is up (R374, R414, LOG 124). -/
  routes : Map Nat := []
  /-- The CXL RAS structure: the lines whose uncorrectable errors a host read met, oldest first (R373). -/
  ras : List Nat := []
  /-- Messages to peer Curators not yet taken away by the link. -/
  sent : List (Nat × GrantMessage) := []
  nextGrant : Nat := 0
  /-- Grants whose revocation the peer has not confirmed. -/
  revoking : List Nat := []
  /-- MODEL'S OWN: what the device answered to hosts and peers, oldest first: the requester (its own number for the host)
and the bytes (LOG 36). -/
  replies : List (Nat × List Byte) := []
  deriving DecidableEq, Repr

/-- The Keep and start-up (R392-R401). -/
structure Keep where
  uds : BitVec 512 := 0
  /-- Anti-rollback counters by kind. -/
  arb : Map Nat := []
  revoke : BitVec 4 := 0
  serial : BitVec 60 := 0
  factory : BitVec 192 := 0
  romOk : Bool := false
  idPub : Option Nat := none
  devKey : Option Nat := none
  operatorKey : Option Nat := none
  firmware : Map Firmware := []
  /-- The stack that trained at stage 1 (R392). -/
  firstStack : Option Nat := none
  /-- Owner of each 64 KiB granule: a domain, or 64 for one that the device keeps for itself; an unlisted one is the device's and
may be given to a domain (R400). -/
  owners : Map Nat := []
  reports : Nat := 0
  /-- The last signed report: its text as bytes and the signature. -/
  report : Option (List Byte × Nat) := none
  /-- The identity certificate as last returned (R394). -/
  certificate : Option Nat := none
  failure : Option Nat := none
  /-- Device-private memory that images and Curators are loaded into, by offset (R395, R399). -/
  private_ : Map Byte := []
  /-- Kernels of kinds 4 and 5 as they were loaded, newest first (R392, R397). -/
  kernels : List Kernel := []
  /-- Telemetry as the host last read it, and the service ring as the management Curator did (R402, R408). -/
  telemetry : List Byte := []
  ringRead : List Byte := []
  /-- The answer to the last gate installation: the first failing entry (R81). -/
  gateReport : Option Nat := none
  deriving DecidableEq, Repr

/-- Service and repair (R404-R417). -/
structure Service where
  ring : List ServiceRec := []
  overwritten : Nat := 0
  /-- Correctable errors per unit in the scrub pass, by 8 × unit + class (R406, R409). -/
  corrected : Map Nat := []
  /-- Rows whose repair is scheduled (R409, R411). -/
  scheduled : List Nat := []
  /-- Spare rows that a bank has given out (R411). -/
  rowsUsed : Map Nat := []
  /-- Physical core of each logical core that was substituted (R410). -/
  substitute : Map Nat := []
  spareUsed : List Nat := []
  /-- Spare row of each repaired row; rows with no spare left (R411). -/
  rowMap : Map Nat := []
  /-- Spare columns used by a die; square columns out of placement (R412). -/
  columns : Map (List Nat) := []
  squaresOut : List (Nat × Nat) := []
  /-- Columns whose remap has begun and waits for its instances or its strip's queues: die and column (R412). -/
  remapping : List (Nat × Nat) := []
  slicesRetired : List Nat := []
  stacksRetired : List Nat := []
  /-- Annex dies that failed training at stage 2 (R392). -/
  diesRetired : List Nat := []
  points : Map Nat := []
  gated : List Nat := []
  deferred : List PowerRequest := []
  poweredDown : List PowerRequest := []
  deriving DecidableEq, Repr

/-- The device. -/
structure State where
  boot : Boot
  /-- cc since power-good. -/
  now : Nat
  /-- MODEL'S OWN: the turns to come (LOG 2). -/
  schedule : List Turn
  /-- MODEL'S OWN: who issues now (LOG 2). -/
  agent : Agent
  /-- MODEL'S OWN: counter of free values drawn (LOG 3). -/
  fresh : Nat
  /-- MODEL'S OWN: names of operations, messages, blocks, records (LOG 3). -/
  nextId : Nat
  /-- Current rebase phase, and whether a sweep is running (R404). -/
  phase : Bool
  sweeping : Bool
  mem : MemSys
  cores : Map Core
  /-- Groups by 64 × core + slot. -/
  groups : Map Group
  blocks : Map Block
  copies : Map Copy
  jobs : Map Job
  gaths : Map GathJob
  annex : Annex
  belfry : Belfry
  domains : Map Domain
  faults : Faults
  links : Links
  keep : Keep
  service : Service
  deriving DecidableEq, Repr

/-- Why a step stops. Everything the spec describes is a next state, so only one case is left. -/
inductive Fault where
  /-- A core word, compact word or stream command is to be executed while `State.agent` names no strand, sequencer
  or port that exists: raised by the meanings when nobody issues. Safe: no such execution exists on the device. -/
  | noAgent
  deriving DecidableEq, Repr

/-- Why there is no meaning. -/
inductive Refusal where
  /-- The instruction has no meaning in this model yet: raised by `exec`. Safe: the machine stops. -/
  | notModelled (mnemonic : String)
  deriving DecidableEq, Repr

/-- The device before power-good (R392): every volatile thing is absent, the fuses hold what was fused (R393), and
the module flash holds no image (LOG 1, 4-8). -/
def State.reset : State where
  boot := .off
  now := 0
  schedule := []
  agent := .nobody
  fresh := 0
  nextId := 0
  phase := false
  sweeping := false
  mem := {}
  cores := []
  groups := []
  blocks := []
  copies := []
  jobs := []
  gaths := []
  annex := {}
  belfry := {}
  domains := []
  faults := {}
  links := {}
  keep := { uds := Config.fuseSecret, revoke := Config.fuseRevoke, serial := Config.fuseSerial, factory := Config.fuseFactory }
  service := {}

end Sys2Proof.Machine
end

