-- ==== Sys2Proof/Machine/Ops.lean ====
section
/-! DEFINITION. The named operations on registers, strands and groups; taking a fault (R345), which is the one
shared operation by which an instruction raises one; terminating a launch (R349); and the frame of every core
instruction's meaning (`issue`). -/
namespace Sys2Proof.Machine

/-- What a step answers. -/
abbrev Res := Host.Outcome State Fault Refusal

/-- The larger of two times. -/
def tmax (a b : Time) : Time := if a.toNat < b.toNat then b else a

/-- The fc that a cc lies in (R1). -/
def State.fc (s : State) : Nat := s.now / 2

def gkey (core slot : Nat) : Nat := core * 64 + slot
def keyCore (k : Nat) : Nat := k / 64
def keySlot (k : Nat) : Nat := k % 64
/-- The quadrant of a group slot (R1: 4 quadrants of 16 slots). -/
def slotQuad (slot : Nat) : Nat := slot / 16

def State.core (s : State) (c : Nat) : Core := Map.get {} s.cores c
def State.setCore (s : State) (c : Nat) (x : Core) : State := { s with cores := Map.set {} s.cores c x }
def State.onCore (s : State) (c : Nat) (f : Core → Core) : State := s.setCore c (f (s.core c))
def State.setGroup (s : State) (k : Nat) (g : Group) : State := { s with groups := s.groups.put k g }
def State.onGroup (s : State) (k : Nat) (f : Group → Group) : State := { s with groups := s.groups.adjust k f }
def State.setBlock (s : State) (k : Nat) (b : Block) : State := { s with blocks := s.blocks.put k b }
def State.onBlock (s : State) (k : Nat) (f : Block → Block) : State := { s with blocks := s.blocks.adjust k f }
def State.domain (s : State) (d : Nat) : Domain := Map.get {} s.domains d
def State.setDomain (s : State) (d : Nat) (x : Domain) : State := { s with domains := Map.set {} s.domains d x }
/-- A new name, and the state with the counter advanced. -/
def State.newId (s : State) : Nat × State := (s.nextId, { s with nextId := s.nextId + 1 })

/-- v[r] of lane l (R31). -/
def Group.vreg (g : Group) (r l : Nat) : Word := Map.get 0 g.v (32 * r + l)
/-- s[k]; s0 reads zero (R31). -/
def Group.sreg (g : Group) (k : Nat) : Dword := if k = 0 then 0 else Map.get 0 g.s k
/-- Write s[k]; s0 discards (R37). -/
def Group.setS (g : Group) (k : Nat) (x : Dword) : Group := if k = 0 then g else { g with s := Map.set 0 g.s k x }
/-- p[k] over the lanes; p0 reads true (R40). -/
def Group.pred (g : Group) (k : Nat) : LaneMask := if k = 0 then BitVec.allOnes 32 else Map.get 0 g.p k
def Group.predBit (g : Group) (k l : Nat) : Bool := (g.pred k).getLsbD l
/-- Write p[k] of a lane; p0 discards (R40). -/
def Group.setP (g : Group) (k l : Nat) (b : Bool) : Group :=
  if k = 0 then g
  else
    let m := Map.get 0 g.p k
    let bit : LaneMask := 1 <<< l
    { g with p := Map.set 0 g.p k (if b then m ||| bit else m &&& ~~~bit) }

/-- A register lies in a range. -/
def inRange (r base n : Nat) : Bool := base ≤ r && r < base + n

/-- The operand ranges of an operation, without C (R171). -/
def Owned.operand (o : Owned) (r : Nat) : Bool := inRange r o.a 16 || inRange r o.b o.nb || inRange r o.c o.nc
/-- A register that the engine owns. -/
def Owned.holds (o : Owned) (r : Nat) : Bool := r < o.keep && (o.operand r || inRange r o.d 64)
/-- The registers from `n` on are released (R33): they are no longer the engine's, and what was written to them is lost. -/
def Owned.release (o : Owned) (n : Nat) : Owned := { o with keep := min o.keep n, cWritten := o.cWritten.filter (· < n) }
/-- What a write of register r does to an operation (R171). -/
def Owned.note (o : Owned) (r : Nat) : Owned :=
  if o.keep ≤ r then o
  else if inRange r o.d 64 then { o with cWritten := if o.cWritten.contains r then o.cWritten else r :: o.cWritten }
  else if !o.complete && o.operand r then { o with tainted := true } else o

/-- A register still to be written by an operation that was issued before the last `mrdy`: `mrdy` waits for it (R170). -/
def Group.dueBefore (g : Group) (r : Nat) : Bool := g.ops.any fun o => o.id < g.mrdyMark && o.regs.contains r

/-- Record a register write for the matrix engine (R171). -/
def Group.noteWrite (g : Group) (r : Nat) : Group :=
  if g.mmaCount < g.mrdyCount || !g.owned.isEmpty then
    { g with wrote := if g.mmaCount < g.mrdyCount && !g.dueBefore r && !g.wrote.contains r then r :: g.wrote else g.wrote, owned := g.owned.map fun o => o.note r }
  else g

/-- Write v[r] of lane l. -/
def Group.setV (g : Group) (r l : Nat) (x : Word) : Group :=
  let g := g.noteWrite r
  { g with v := Map.set 0 g.v (32 * r + l) x }

/-- Write a lane value of one or two registers, low word first (R35). -/
def Group.setLane (g : Group) (wide : Bool) (r l : Nat) (x : Dword) : Group :=
  let g := g.setV r l (x.setWidth 32)
  if wide then g.setV (r + 1) l ((x >>> 32).setWidth 32) else g

/-- Write a lane value in each lane of a list, one after another. -/
def Group.setLanes (g : Group) (wide : Bool) (r : Nat) (xs : List (Nat × Dword)) : Group :=
  xs.foldl (fun g e => g.setLane wide r e.1 e.2) g

def Group.depth (g : Group) : Nat := g.frames.length

/-- Number of operations in flight on a path (R127): the list holds no completed operation at its front. -/
def Group.count (g : Group) (p : Path) : Nat := (g.ops.filter fun o => o.path == p).length

def Group.idle (g : Group) : Bool := g.ops.isEmpty

/-- What a core instruction's meaning works on: the issuing strand, its group, and the state. -/
structure Ctx where
  s : State
  r : StrandRef
  key : Nat
  g : Group
  st : Strand
  /-- Index of the free values this issue reads (LOG 3). -/
  free : Nat

/-- A strand of the device. -/
def State.strandAt (s : State) (r : StrandRef) : Option (Group × Strand) :=
  match s.groups.look (gkey r.core r.slot) with
  | none => none
  | some g =>
    match g.strands.look r.entry with
    | none => none
    | some st => some (g, st)

/-- The guard p[pg] xor pn in a lane (R46). -/
def Group.guardLane (g : Group) (gd : Guard) (l : Nat) : Bool := g.predBit gd.pg.toNat l != gd.pn

/-- The strand's lanes that have not exited. -/
def Ctx.lanesOf (c : Ctx) : LaneMask := c.st.mask &&& c.g.live

/-- Active lanes (R46); on a replay only the faulting lanes (R52). -/
def Ctx.active (c : Ctx) (gd : Guard) : List Nat :=
  (lanes (match c.st.replay with | some m => c.lanesOf &&& m | none => c.lanesOf)).filter (c.g.guardLane gd)

/-- `part`: active lanes that are not helper lanes (R83). -/
def Ctx.part (c : Ctx) (gd : Guard) : List Nat := (c.active gd).filter fun l => !c.g.helper.getLsbD l

/-- The strand-wide guard (R38, R86): in the lowest lane of the strand that has not exited. -/
def Ctx.wide (c : Ctx) (gd : Guard) : Bool :=
  match lowestLane c.lanesOf with
  | some l => c.g.guardLane gd l
  | none => false

def Group.setStrand (g : Group) (e : Nat) (st : Strand) : Group := { g with strands := g.strands.put e st }
def Group.onStrand (g : Group) (e : Nat) (f : Strand → Strand) : Group := { g with strands := g.strands.adjust e f }

/-- A strand that goes on at an address. -/
def Strand.goto (st : Strand) (pc : Dword) : Strand := { st with pc := pc, wait := .ready, replay := none, issued := st.issued + 1 }

/-- The instruction completes: the strand goes on at the next word. -/
def Ctx.finish (c : Ctx) (g : Group) : Res :=
  .next (c.s.setGroup c.key (g.onStrand c.r.entry fun st => st.goto (st.pc + 8)))

/-- The instruction completes with a change of other state `s`; `g` is the group's new value. -/
def Ctx.finishIn (c : Ctx) (s : State) (g : Group) : Res :=
  .next (s.setGroup c.key (g.onStrand c.r.entry fun st => st.goto (st.pc + 8)))

/-- The instruction completes with a branch. -/
def Ctx.branch (c : Ctx) (g : Group) (pc : Dword) : Res :=
  .next (c.s.setGroup c.key (g.onStrand c.r.entry fun st => st.goto pc))

/-- The instruction waits: the strand stands at its word, and nothing else changes (R205). -/
def Ctx.await (c : Ctx) (w : Wait) : Res :=
  .next (c.s.setGroup c.key (c.g.onStrand c.r.entry fun st => { st with wait := w }))

/-- The instruction stalls at issue: nothing changes (R205). -/
def Ctx.stall (c : Ctx) : Res := .next c.s

/-! ### The service ring (R408) -/

/-- A record in the service ring, with vector 64. A full ring loses its oldest record. -/
def State.serve (s : State) (kind unitClass : Byte) (unit : Nat) (detail : Word) (address : Nat) : State :=
  let r : ServiceRec := { kind := kind, unitClass := unitClass, unit := unit % 65536, detail := detail, address := BitVec.ofNat 64 address, time := s.now / 4, overwritten := s.service.overwritten }
  let full := Config.serviceSlots ≤ s.service.ring.length
  { s with service := { s.service with ring := (if full then s.service.ring.tail else s.service.ring) ++ [r], overwritten := if full then s.service.overwritten + 1 else s.service.overwritten }, links := { s.links with raised := s.links.raised ++ [64] } }

/-- The home slice of a line (R223). -/
def MemSys.slice (m : MemSys) (line : Nat) : Nat :=
  let idx := (line % 4096) ^^^ (line / 4096 % 4096) ^^^ (line / 2 ^ 24 % 4096) ^^^ (line / 2 ^ 36 % 1024)
  (m.spread.look idx).getD (idx % 64)

/-- Class and number of an array's unit in the service ring (R408). The numbers of columns and owner nodes are the model's
(LOG 35). -/
def State.unitOf (s : State) (u : ArrayUnit) : Byte × Nat :=
  match u with
  | .hbm line => (2, Config.rowOf line)
  | .l2 line => (1, s.mem.slice line)
  | .core c => (0, c)
  | .annex die column => (3, 136 * die + column)
  | .node die node => (6, 128 * die + node)

/-- The address of an array's unit in the service ring: that of a line, otherwise 0. -/
def ArrayUnit.address (u : ArrayUnit) : Nat := match u with | .hbm line => 64 * line | .l2 line => 64 * line | _ => 0

/-- An uncorrectable error in an array is recorded (R407, R408): the detail holds the fault code and the domain (LOG 35). -/
def State.serveUnit (s : State) (u : ArrayUnit) (domain : Nat) : State :=
  s.serve 2 (s.unitOf u).1 (s.unitOf u).2 (BitVec.ofNat 32 (6 + 256 * domain)) (ArrayUnit.address u)

/-- An uncorrectable read of a line on behalf of a domain is recorded, at its slice or at memory. -/
def State.serveBad (s : State) (line domain : Nat) : State :=
  s.serveUnit (if (s.mem.l2.look line).isSome && s.mem.badL2.contains line then .l2 line else .hbm line) domain

/-- A change that alters the attestation report raises vector 65 (R402). -/
def State.reportChanged (s : State) : State := { s with links := { s.links with raised := s.links.raised ++ [65] } }

/-- A tag that fails is counted for the owner of its granule (R400), which the attestation report shows. -/
def State.tagFails (s : State) (pa domain : Nat) : State :=
  let o := (s.keep.owners.look (pa / 65536)).getD domain
  if 64 ≤ o then s else (s.setDomain o { s.domain o with integrity := (s.domain o).integrity + 1 }).reportChanged

/-- An uncorrectable read of a line, recorded; where its tag failed, that is counted too (R400). -/
def State.logBad (s : State) (line domain : Nat) : State :=
  let s := if s.mem.bad.contains line && s.mem.forged.contains line then s.tagFails (64 * line) domain else s
  s.serveBad line domain

/-! ### The Spire link (R374) -/

/-- The port that leads to a peer: the one that the routing table names, and the lowest that is up where the table names
none or that one is down (R374, LOG 124). -/
def State.portTo (s : State) (peer : Nat) : Option (Nat × SpirePort) :=
  let named := (s.links.routes.look peer).bind fun k => (s.links.ports.look k).bind fun p => if p.up then some (k, p) else none
  named.orElse fun _ => s.links.ports.find? fun e => e.2.up

/-- A request, an answer or a message to a peer goes out in a flit with the port's next sequence number, and stands in the
sender's buffer until it is acknowledged (R374). -/
def State.sendFlit (s : State) (peer : Nat) : State :=
  match s.portTo peer with
  | some (k, p) => { s with links := { s.links with ports := s.links.ports.put k { p with nextSeq := p.nextSeq + 1, unacked := p.unacked ++ [p.nextSeq] } } }
  | none => s

/-- The peer device that a line of peer memory belongs to: PA[49:40] (R335). -/
def lineDevice (line : Nat) : Nat := line / 2 ^ 34 % 1024

/-! ### Faults -/

def faultIllegal : Byte := 0x01
def faultPriv : Byte := 0x02
def faultAlign : Byte := 0x03
def faultPage : Byte := 0x04
def faultProt : Byte := 0x05
def faultData : Byte := 0x06
def faultCatrange : Byte := 0x07
def faultCourier : Byte := 0x08
def faultGateframe : Byte := 0x09
def faultAnnexcfg : Byte := 0x0A
def faultStream : Byte := 0x0B
def faultRgrow : Byte := 0x0C
def faultMatrix : Byte := 0x0D
def faultLaunch : Byte := 0x0E
def faultWatch : Byte := 0x0F

/-- Raise a record: it waits to be delivered (R344). -/
def State.raise (s : State) (r : FaultRec) : State :=
  { s with faults := { s.faults with undelivered := s.faults.undelivered ++ [r] } }

/-- The queue and slot of the packet that a launch came from (R342). -/
def State.packetOf (s : State) (launch : Nat) : Nat × Nat :=
  match s.belfry.launches.look launch with
  | some l => (l.queue, l.slot)
  | none => (0, 0)

/-- Commissions of a group are cancelled (R349, R357): their jobs and their places on the path go. -/
def State.cancelJobs (s : State) (key : Nat) : State :=
  let s := { s with jobs := s.jobs.filter fun e => e.2.group != key }
  s.onGroup key fun g => { g with ops := g.ops.filter fun o => o.path != .cms }

/-- A launch is terminated (R349): it places nothing more, its groups stop issuing, its commissions are cancelled
and its pending resolutions lose their effect; the groups then end (`groupRetire`). -/
def State.terminate (s : State) (launch : Nat) : State :=
  let ks := (s.groups.filter fun e => e.2.launch == launch).map (·.1)
  let s := ks.foldl (fun s k => (s.cancelJobs k).onGroup k fun g => { g with stopping := .terminate }) s
  let s := { s with belfry := { s.belfry with launches := s.belfry.launches.adjust launch fun l => { l with terminating := true } } }
  { s with faults := { s.faults with awaiting := s.faults.awaiting.filter fun a => a.record.launch != some launch || a.record.flags.getLsbD 2 } }

/-- Byte of a flag word. -/
def flagByte (awaits precise deep terminated : Bool) : Byte :=
  (if awaits then 1 else 0) ||| (if precise then 2 else 0) ||| (if deep then 4 else 0) ||| (if terminated then 8 else 0)

/-- TAKING A FAULT of a core group (R342, R345), the one shared operation: the record is raised for the group's current
domain, or for the callee that issued the access and has been left (R159, LOG 141), and the group is suspended. At depth 0 a PAGE, or a WATCH from `brk`, awaits a
resolution, and every other fault terminates the launch once its record is written (R114, R344); at depth 1 or 2 every fault
awaits a resolution. The strand's pc, registers and memory do not change (R52). -/
def State.takeFault (s : State) (r : StrandRef) (pc : Dword) (f : FaultInfo) (callee : Option Nat := none) : State :=
  let key := gkey r.core r.slot
  match s.groups.look key with
  | none => s
  | some g =>
    let deep := g.depth != 0 || callee.isSome
    let isBrk := f.code == faultWatch && f.detail == 0x0100000000000000#64
    let awaits := deep || f.code == faultPage || isBrk
    let q := s.packetOf g.launch
    let id := s.nextId
    let s := { s with nextId := s.nextId + 1 }
    let blk := match s.blocks.look g.block with | some b => b.number | none => 0
    let rec_ : FaultRec := { id := id, code := f.code, source := 0, flags := flagByte awaits f.precise deep (!awaits), lane := f.lane, queue := q.1, slot := q.2, where_ := pc, va := f.va, detail := f.detail, core := r.core, slotNo := r.slot, incarnation := (s.core r.core).incarnation, block := blk, domain := callee.getD g.domain, launch := some g.launch, region := none, group := some key, job := none, port := none }
    (s.raise rec_).setGroup key { g with suspends := g.suspends ++ [{ code := f.code, entry := r.entry, lanes := f.lanes, record := id, late := callee.isSome, brk := isBrk }] }

/-- The instruction takes a fault precisely: nothing of it happens (R52). -/
def Ctx.fault (c : Ctx) (f : FaultInfo) : Res := .next (c.s.takeFault c.r c.st.pc f)

/-- The detail of a WATCH record (R342). -/
def watchDetail (source : Nat) (code : Word) : Dword := code.setWidth 64 ||| (BitVec.ofNat 64 source <<< 56)

/-! ### Issue -/

/-- Instructions that are refused inside a gate call whatever the entry (R157). -/
def Instr.gateRefused : Instr → Bool
  | .lds _ => true | .sts _ => true | .ldsx4 _ => true | .stsx4 _ => true
  | .sendGlb _ => true | .sendPeer _ => true | .sendTens _ => true | .sendm _ => true | .commission _ => true
  | .cbtest _ => true | .cbwait _ => true | .cbclr _ => true | .tlayout _ => true
  | .gath _ => true | .scat _ => true | .gstat _ => true
  | .cclaim _ => true | .cfree _ => true | .cins _ => true | .cprb _ => true | .cdel _ => true | .cacc _ => true
  | .cdrn _ => true | .cstat _ => true
  | .mzero _ => true | .mrdy _ => true | .mma _ => true | .mmaSp _ => true | .mmx _ => true | .mwait _ => true
  | .mdrain _ => true | .launch _ => true | .rlaunch _ => true
  | .aopen _ => true | .asend _ => true | .arecv _ => true | .aacc _ => true | .acmd _ => true | .afence _ => true
  | .aclose _ => true | .bar _ => true | .exit_ _ => true | .rgrow _ => true | .rshrink _ => true
  | .halt _ => true | .haltAll _ => true
  | _ => false

/-- The returns of R158 and R159, by which a uniform-only callee ends (DEDUCED, LOG 13). -/
def Instr.gateReturns : Instr → Bool
  | .gret _ => true | .gabort _ => true
  | _ => false

/-- A uniform word: bit 46 set (R36). -/
def Instr.uniform (i : Instr) : Bool :=
  match i.ruleV with
  | some (f, _) => f.u
  | none => match i with
    | .movi f => f.u
    | _ => false

/-- R157: the word is refused in the group's gate frame. -/
def Group.refuses (g : Group) (i : Instr) : Bool :=
  match g.frames with
  | [] => false
  | f :: _ => Instr.gateRefused i || (f.uniform && !Instr.uniform i && !Instr.gateReturns i)

/-- The scalars that a use of a field names. -/
def scalarOf (use : Use) (v : BitVec 8) (fl : Bool) : List Nat :=
  match use with
  | .src _ => if fl && v.toNat < 64 then [v.toNat] else []
  | .sel => if v.toNat < 64 then [v.toNat] else []
  | .selAny => if v.toNat < 64 then [v.toNat] else []
  | .selSet => if v.toNat < 64 then [v.toNat] else []
  | .sdst => [v.toNat]
  | .sdstAny => [v.toNat]
  | .link => [v.toNat]
  | _ => []

/-- The scalar registers that a word names. -/
def Instr.sregs (i : Instr) : List Nat :=
  match i.ruleV with
  | some (f, r) =>
    if f.u then [f.d.toNat, f.a.toNat, f.b.toNat, f.c.toNat]
    else scalarOf r.d f.d false ++ scalarOf r.a f.a false ++ scalarOf r.b f.b f.sb ++ scalarOf r.c f.c f.sc ++
      [f.a.toNat + 1]
  | none =>
    match i.regsM with
    | some (f, _) => [f.base.toNat]
    | none => match i with
      | .movi f => if f.u then [f.d.toNat] else []
      | .gate f => [f.d.toNat]
      | .call f => [f.k.toNat]
      | _ => []

/-- A register that the word names still has a write outstanding (R50). -/
def Group.pendingOn (g : Group) (i : Instr) : Bool :=
  (g.ops.any fun o =>
    o.regs.any (fun r => (Instr.vregs i).contains r) ||
    (match o.sreg with | some k => k != 0 && (Instr.sregs i).contains k | none => false)) ||
  g.strands.any fun e => match e.2.wait with
    | .bwait _ _ _ _ k => k != 0 && (Instr.sregs i).contains k
    | _ => false

/-- The word of an instruction, for the detail of an ILLEGAL record (R342). -/
def Instr.wordOf (i : Instr) : Dword := (encodeCore i).getD 0

/-- Issue a core instruction for the strand that `State.agent` names: ILLEGAL for what R63 and R34 refuse, GATEFRAME
for what R157 refuses, a stall while a register it names has a write outstanding (R50), and otherwise its meaning. -/
def issue (i : Instr) (s : State) (k : Ctx → Res) : Res :=
  match s.agent with
  | .strand r =>
    match s.strandAt r with
    | none => .fault .noAgent
    | some (g, st) =>
      if !i.accepted || i.vregs.any (fun v => g.nregs ≤ v) then
        .next (s.takeFault r st.pc { code := faultIllegal, detail := Instr.wordOf i })
      else if g.refuses i then .next (s.takeFault r st.pc { code := faultGateframe })
      else if g.pendingOn i then .next s
      else
        k { s := if g.owned.isEmpty then s else { s with fresh := s.fresh + 1 }, r := r, key := gkey r.core r.slot, g := g, st := st, free := s.fresh }
  | _ => .fault .noAgent

end Sys2Proof.Machine
end

