-- ==== Sys2Proof/Machine/Mem.lean ====
section
/-! DEFINITION. Memory: bytes and lines (R3, R222), physical targets (R366), homes and times (R223-R226, R404), the
copies of a core (R222, R231), and translation (R333-R336, R339, R340). -/
namespace Sys2Proof.Machine

/-! ### Bytes and lines -/

/-- The canonical form of memory: addresses strictly rising, no entry equal to what an unlisted byte reads as. -/
def Memory.wf (m : List Host.Cell) : Bool := Map.wf 0 m

/-- Byte i of a line. -/
def lineByte (d : LineData) (i : Nat) : Byte := (d >>> (8 * i)).setWidth 8

/-- A line from the function that gives its bytes. -/
def lineOf (f : Nat → Byte) : LineData :=
  (List.range 64).foldl (fun d i => d ||| ((f i).setWidth 512 <<< (8 * i))) 0

/-- The 512-bit mask of a byte mask. -/
def spreadMask (m : BitVec 64) : LineData := lineOf fun i => if m.getLsbD i then 0xFF else 0

/-- The masked bytes of `new` over `old`. -/
def mergeLine (old new : LineData) (m : BitVec 64) : LineData :=
  let k := spreadMask m
  (old &&& ~~~k) ||| (new &&& k)

/-- The byte mask of `n` bytes from an offset. -/
def byteMask (off n : Nat) : BitVec 64 := BitVec.ofNat 64 ((2 ^ n - 1) * 2 ^ off)

/-- `n` bytes of a line as a little-endian value. -/
def lineValue (d : LineData) (off n : Nat) : Nat := d.toNat / 2 ^ (8 * off) % 2 ^ (8 * n)

/-- The line that holds an `n`-byte value at an offset, zero elsewhere. -/
def lineWith (off n v : Nat) : LineData := BitVec.ofNat 512 (v % 2 ^ (8 * n) * 2 ^ (8 * off))

/-- A byte at memory itself: HBM, or what the device holds of host and peer memory. -/
def MemSys.byte (m : MemSys) (pa : Nat) : Byte := Map.get 0 m.bytes pa
def MemSys.setByte (m : MemSys) (pa : Nat) (b : Byte) : MemSys := { m with bytes := Map.set 0 m.bytes pa b }
def MemSys.setBytes (m : MemSys) (pa : Nat) (bs : List Byte) : MemSys :=
  match bs with
  | [] => m
  | b :: t => (m.setByte pa b).setBytes (pa + 1) t
/-- A line at memory. -/
def MemSys.line (m : MemSys) (line : Nat) : LineData := lineOf fun i => m.byte (64 * line + i)
/-- Write the masked bytes of a line at memory. -/
def MemSys.setLine (m : MemSys) (line : Nat) (d : LineData) (mask : BitVec 64) : MemSys :=
  (List.range 64).foldl (fun m i => if mask.getLsbD i then m.setByte (64 * line + i) (lineByte d i) else m) m

/-- Lines that have been written whole, or given away, are free of errors. -/
def MemSys.heal (m : MemSys) (p : Nat → Bool) : MemSys := { m with bad := m.bad.filter (fun l => !p l), forged := m.forged.filter (fun l => !p l), badL2 := m.badL2.filter fun l => !p l }

/-! ### Targets (R366, R367) -/

inductive Target where
  | hbm | host | peer | reserved
  deriving DecidableEq, Repr

def paTarget (pa : Nat) : Target :=
  match pa / 2 ^ 50 % 4 with
  | 0 => if pa / 2 ^ 40 % 2 ^ 10 = 0 then .hbm else .reserved
  | 1 => .host
  | 2 => if pa / 2 ^ 40 % 2 ^ 10 = Config.deviceNumber then .reserved else .peer
  | _ => .reserved

/-- The target of a line, by its number. The device's own number is never in a line that is reached. -/
def lineRemote (line : Nat) : Bool := line / 2 ^ 44 % 4 == 1 || line / 2 ^ 44 % 4 == 2
def linePeer (line : Nat) : Bool := line / 2 ^ 44 % 4 == 2

/-- Stack and base die of a local address (R367). -/
def paDie (pa : Nat) : Nat := pa / 2 ^ 36 % 16
/-- Owner node of a local address (R367). -/
def paNode (pa : Nat) : Nat := pa / 64 % 128

/-! ### Times (R226, R404) -/

def rebaseB : Nat := 0x4000000000

/-- `sat` of R404. -/
def sat (t : Time) : Time := if t.toNat < rebaseB then 0 else t - BitVec.ofNat 40 rebaseB

/-- A stored time as an agent reads it (R404). -/
def State.cur (s : State) (x : Stamp) : Time := if x.ph == s.phase then x.t else sat x.t
/-- A time as it is stored (R404). -/
def State.stamp (s : State) (t : Time) : Stamp := ⟨t, s.phase⟩

def State.mtsOf (s : State) (slice : Nat) : Time := s.cur (Map.get ⟨0, false⟩ s.mem.mts slice)
def State.setMts (s : State) (slice : Nat) (t : Time) : State :=
  { s with mem := { s.mem with mts := s.mem.mts.put slice (s.stamp t) } }

/-- The device floor: the least mts of the slices in service (R227). -/
def State.floor (s : State) : Time :=
  let xs := ((List.range 64).filter fun k => !s.service.slicesRetired.contains k).map s.mtsOf
  match xs with
  | [] => 0
  | x :: t => t.foldl (fun a b => if b.toNat < a.toNat then b else a) x

/-- A line as its home sees it: an absent line takes wts = rts = mts when it is brought in (R224). -/
structure HomeView where
  data : LineData
  dirty : Bool
  wts : Time
  rts : Time
  deriving DecidableEq, Repr

def State.homeView (s : State) (line : Nat) : HomeView :=
  match s.mem.l2.look line with
  | some h => ⟨h.data, h.dirty, s.cur h.wts, s.cur h.rts⟩
  | none =>
    let t := s.mtsOf (s.mem.slice line)
    ⟨s.mem.line line, false, t, t⟩

/-- Lines of a slice of 8 MiB (R1). -/
def sliceLines : Nat := 131072

/-- The slice of a line holds as many lines as it can. -/
def State.sliceFull (s : State) (line : Nat) : Bool :=
  sliceLines ≤ s.mem.l2.length && sliceLines ≤ (s.mem.l2.filter fun e => s.mem.slice e.1 == s.mem.slice line).length

/-- The value that a word has at its home: in its slice, or at memory. -/
def State.homeValue (s : State) (pa n : Nat) : Nat :=
  match s.mem.l2.look (pa / 64) with
  | some h => lineValue h.data (pa % 64) n
  | none => leValue ((List.range n).map fun i => s.mem.byte (pa + i))

/-- Memory after a line has left its slice: a dirty one is written back. One whose codeword in the slice is uncorrectable is not
delivered, and then memory's line is uncorrectable (R407). -/
def MemSys.dropL2 (m : MemSys) (line : Nat) (h : HomeLine) (writeBack : Bool) : MemSys :=
  let lost := m.badL2.contains line
  let m' := { m with l2 := m.l2.del line, badL2 := m.badL2.filter (· != line) }
  if !(h.dirty && writeBack) then m'
  else if lost then { m' with bad := line :: m'.bad.filter (· != line) }
  else m'.setLine line h.data (BitVec.allOnes 64)

/-- A line leaves its slice: it is written back if dirty, and mts rises to its rts (R224). -/
def State.evictLine (s : State) (line : Nat) (writeBack : Bool) (extra : Nat) : State :=
  match s.mem.l2.look line with
  | none => s
  | some h =>
    let sl := s.mem.slice line
    let s := { s with mem := s.mem.dropL2 line h writeBack }
    let s := if h.dirty && writeBack && linePeer line then s.sendFlit (lineDevice line) else s
    s.setMts sl (tmax (s.mtsOf sl) (s.cur h.rts + BitVec.ofNat 40 extra))

/-- A line stands in its slice, with a good codeword when it comes in. A slice that is full brings it in and replaces it at once
(R1, R224, LOG 120). -/
def State.setHome (s : State) (line : Nat) (h : HomeView) : State :=
  let fresh := (s.mem.l2.look line).isNone
  let own := match s.mem.l2.look line with | some x => x.own | none => false
  let t := { s with mem := { s.mem with l2 := s.mem.l2.put line ⟨h.data, h.dirty, s.stamp h.wts, s.stamp h.rts, own⟩, badL2 := if fresh then s.mem.badL2.filter (· != line) else s.mem.badL2 } }
  if fresh && s.sliceFull line then t.evictLine line true 0 else t

/-! ### Copies of a core (R222, R231, R404, R420) -/

/-- The key of a core's copy of a line. -/
def copyKey (core line : Nat) : Nat := core * 2 ^ 46 + line

/-- A copy with its times as they are read. A copy whose rts is of the old phase and below B is absent, but for its
pending bytes. -/
structure CopyView where
  data : LineData
  valid : BitVec 64
  wts : Time
  rts : Time
  pend : List (Nat × BitVec 64 × LineData)
  deriving DecidableEq, Repr

def State.view (s : State) (c : CopyLine) : Option CopyView :=
  if c.rts.ph == s.phase then some ⟨c.data, c.valid, c.wts.t, c.rts.t, c.pend⟩
  else if c.rts.t.toNat < rebaseB then
    if c.pend.isEmpty then none else some ⟨0, 0, 0, 0, c.pend⟩
  else some ⟨c.data, c.valid, s.cur c.wts, s.cur c.rts, c.pend⟩

def State.l1View (s : State) (core line : Nat) : Option CopyView :=
  match s.mem.l1.look (copyKey core line) with
  | some c => s.view c
  | none => none

/-- The L1 of a core holds as many lines as its carve-out has room for (R1, R330). -/
def State.l1Full (s : State) (core : Nat) : Bool :=
  let n := 16 * (s.core core).carve
  n ≤ s.mem.l1.length && n ≤ (s.mem.l1.filter fun e => e.1 / 2 ^ 46 == core).length

/-- A copy stands in a core's L1. An L1 that is full takes no further copy but for pending bytes (R1, R222, LOG 120). -/
def State.setL1 (s : State) (core line : Nat) (c : CopyView) : State :=
  let k := copyKey core line
  let full := (s.mem.l1.look k).isNone && s.l1Full core
  if full && c.pend.isEmpty then s
  else { s with mem := { s.mem with l1 := s.mem.l1.put k ⟨c.data, if full then 0 else c.valid, s.stamp c.wts, s.stamp c.rts, c.pend⟩ } }

/-- The bytes of a copy, pending bytes taking precedence (R228). -/
def CopyView.bytes (c : CopyView) : LineData := c.pend.foldl (fun d p => mergeLine d p.2.2 p.2.1) c.data
/-- Bytes that are valid or pending. -/
def CopyView.present (c : CopyView) : BitVec 64 := c.pend.foldl (fun m p => m ||| p.2.1) c.valid

/-- An L1 copy is evicted; pending bytes stay (R222). -/
def State.dropCopy (s : State) (core line : Nat) : State :=
  match s.mem.l1.look (copyKey core line) with
  | none => s
  | some c =>
    if c.pend.isEmpty then { s with mem := { s.mem with l1 := s.mem.l1.del (copyKey core line) } }
    else { s with mem := { s.mem with l1 := s.mem.l1.put (copyKey core line) { c with valid := 0 } } }

def State.dropFetch (s : State) (core line : Nat) : State :=
  { s with mem := { s.mem with icache := s.mem.icache.del (copyKey core line) } }

/-- Every L1 copy and instruction copy of a core goes; pending bytes stay. -/
def State.dropCore (s : State) (core : Nat) : State :=
  let mine (k : Nat) : Bool := k / 2 ^ 46 == core
  let l1 := (s.mem.l1.map fun e => if mine e.1 then (e.1, { e.2 with valid := 0 }) else e).filter fun e => !(mine e.1 && e.2.pend.isEmpty)
  { s with mem := { s.mem with l1 := l1, icache := s.mem.icache.filter fun e => !mine e.1 } }

/-- What an acknowledgement does to the issuing core's copy (R230, R232): with the previous wts it takes the bytes and
the new time, otherwise it keeps only its pending bytes. `msg` names the store whose pending bytes end. -/
def State.ackCopy (s : State) (core line msg : Nat) (prev t : Time) (data : LineData) (mask : BitVec 64) : State :=
  match s.l1View core line with
  | none => s
  | some c =>
    let pend := c.pend.filter fun p => p.1 != msg
    if c.valid != 0 && c.wts == prev then
      s.setL1 core line { data := mergeLine c.data data mask, valid := c.valid ||| mask, wts := t, rts := t, pend := pend }
    else if pend.isEmpty then { s with mem := { s.mem with l1 := s.mem.l1.del (copyKey core line) } }
    else s.setL1 core line { c with valid := 0, pend := pend }

/-! ### Translation -/

/-- What an access may do on an N page (R117). -/
inductive NRule where
  | any | refuse | require
  deriving DecidableEq, Repr

/-- An access as the walk sees it (R335): the permissions it needs and the access kind of the record (R342). -/
structure Want where
  r : Bool := false
  w : Bool := false
  x : Bool := false
  a : Bool := false
  kind : Nat
  n : NRule := .any
  deriving DecidableEq, Repr

def wantLoad : Want := { r := true, kind := 0 }
def wantStore : Want := { w := true, kind := 1 }
def wantAtomic : Want := { r := true, w := true, a := true, kind := 2, n := .refuse }
def wantFetch : Want := { x := true, kind := 3, n := .refuse }
def wantCourier : Want := { w := true, kind := 4 }
def wantCommission : Want := { r := true, kind := 5 }
def wantGather : Want := { r := true, kind := 6 }
def wantScatter : Want := { w := true, kind := 6 }
def wantStreamRead : Want := { r := true, kind := 8 }
def wantStreamWrite : Want := { w := true, kind := 9 }

/-- A translated address, or the fault of the walk. -/
inductive Trans where
  | ok (pa : Nat) (n : Bool)
  | bad (code : Byte) (detail : Dword)
  deriving DecidableEq, Repr

def walkDetail (kind level cause : Nat) : Dword := BitVec.ofNat 64 (kind + 2 ^ 8 * level + 2 ^ 16 * cause)

/-- First VA bit that a level indexes, and how many (R333). -/
def levelShift (l : Nat) : Nat := match l with | 0 => 47 | 1 => 38 | 2 => 29 | 3 => 21 | _ => 16
def levelBits (l : Nat) : Nat := match l with | 0 => 10 | 1 => 9 | 2 => 9 | 3 => 8 | _ => 5

/-- Fields of an entry (R334). -/
def entBase (e : Dword) : Nat := e.toNat / 2 ^ 8 % 2 ^ 44 * 256
def entLeaf (e : Dword) : Bool := e.getLsbD 1

/-- The entry is malformed at its level (R335). -/
def malformed (e : Dword) (l : Nat) : Bool :=
  e.toNat / 2 ^ 52 != 0 ||
  if entLeaf e then e.getLsbD 6 || l < 2 || entBase e % 2 ^ levelShift l != 0
  else l == 4 || entBase e % (8 * 2 ^ levelBits (l + 1)) != 0

/-- A read of the line would be uncorrectable, at its slice or, where it is absent, at memory (R406, R407). -/
def State.lineBad (s : State) (line : Nat) : Bool := if (s.mem.l2.look line).isSome then s.mem.badL2.contains line else s.mem.bad.contains line

/-- Where the entry of a table for an address stands. -/
def entryAt (va l table : Nat) : Nat := table + 8 * (va / 2 ^ levelShift l % 2 ^ levelBits l)

/-- The walk of R335 down to a leaf: the leaf and its level, or the fault with its level and cause; an entry that cannot be read
stops it with DATA (R407). -/
def State.walk (s : State) (va : Nat) (kind fuel l table : Nat) : Leaf ⊕ (Byte × Dword) :=
  match fuel with
  | 0 => .inr (faultProt, walkDetail kind l 2)
  | fuel + 1 =>
    let e := BitVec.ofNat 64 (s.homeValue (entryAt va l table) 8)
    if s.lineBad (entryAt va l table / 64) then .inr (faultData, 0)
    else if !e.getLsbD 0 then .inr (faultPage, walkDetail kind l 0)
    else if malformed e l then .inr (faultProt, walkDetail kind l 2)
    else if entLeaf e then .inl ⟨e, l⟩
    else s.walk va kind fuel (l + 1) (entBase e)

/-- The line of the table entry that a walk cannot read. -/
def State.badEntry (s : State) (va fuel l table : Nat) : Option Nat :=
  match fuel with
  | 0 => none
  | fuel + 1 =>
    let at_ := entryAt va l table
    let e := BitVec.ofNat 64 (s.homeValue at_ 8)
    if s.lineBad (at_ / 64) then some (at_ / 64)
    else if !e.getLsbD 0 || malformed e l || entLeaf e then none
    else s.badEntry va fuel (l + 1) (entBase e)

def Leaf.pa (x : Leaf) (va : Nat) : Nat := entBase x.ent + va % 2 ^ levelShift x.level
def Leaf.near (x : Leaf) : Bool := x.ent.getLsbD 5

/-- The rights that the domain's import table gives over a whole peer page (R376, R377). -/
def Domain.imported (d : Domain) (x : Leaf) (want : Want) : Bool :=
  let pa := entBase x.ent
  d.imports.any fun e =>
    let i := e.2
    i.length != 0 && i.device == pa / 2 ^ 40 % 2 ^ 10 && i.base ≤ pa % 2 ^ 40 &&
    pa % 2 ^ 40 + 2 ^ levelShift x.level ≤ i.base + i.length &&
    (!want.r || i.r) && (!want.w || i.w) && (!want.a || i.a)

/-- The owner of a granule of the device itself, in the table that otherwise holds domains (R400). -/
def deviceOwner : Nat := 64

/-- The owner of the granule of a local address is one whose key the domain may use (R400). -/
def State.mayReach (s : State) (d pa : Nat) : Bool :=
  match s.keep.owners.look (pa / 65536) with
  | some o => o == d || ((s.domain d).service && o != deviceOwner)
  | none => false

/-- The checks of a leaf that depend on its address: reserved and retired ranges, N on a host page (R366, R367), and
the owner of the granule (R400). -/
def State.leafFault (s : State) (va : Nat) (x : Leaf) (want : Want) : Option (Byte × Dword) :=
  let pa := x.pa va
  let bad := some (faultProt, walkDetail want.kind x.level 2)
  match paTarget pa with
  | .reserved => bad
  | .host => if x.near then bad else none
  | .peer => none
  | .hbm => if s.service.stacksRetired.contains (paDie pa) then bad else none

/-- The kernel covers a physical address. -/
def Kernel.covers (k : Kernel) (pa : Nat) : Bool := k.base ≤ pa && pa + 8 ≤ k.base + k.body.length

/-- The checks of a leaf that depend on the access (R335, R376, R400). Domain 0 may fetch the code of the self-test and
safe-function kernels from device-private memory (R392, LOG 157). -/
def State.permFault (s : State) (d va : Nat) (x : Leaf) (want : Want) : Option (Byte × Dword) :=
  let e := x.ent
  let no (cause : Nat) := some (faultProt, walkDetail want.kind x.level cause)
  if e.getLsbD 7 && !(s.domain d).service then some (faultPriv, walkDetail want.kind x.level 4)
  else if (want.r && !e.getLsbD 2) || (want.w && !e.getLsbD 3) || (want.x && !e.getLsbD 4) then no 1
  else if (x.near && want.n == .refuse) || (!x.near && want.n == .require) then no 3
  else match paTarget (x.pa va) with
    | .peer => if (s.domain d).imported x want then none else no 1
    | .hbm => if s.mayReach d (x.pa va) || (want.x && d == 0 && s.keep.kernels.any fun k => Kernel.covers k (x.pa va)) then none else no 1
    | _ => none

/-- The key of a TLB entry: a domain and a 64 KiB unit of its addresses (R336). -/
def tlbKey (d va : Nat) : Nat := d * 2 ^ 45 + va / 65536

/-- Where a core's own TLB stands in the table. -/
def coreTlb (core : Nat) : Nat := 2 ^ 52 * (core + 1)

/-- What the TLBs hold for a unit: the issuing core's own TLB first, then the die's (R336). A step that is no strand's runs with
no agent of a core (`State.take`). -/
def State.held (s : State) (d va : Nat) : Option Leaf :=
  match match s.agent with | .strand r => s.mem.tlb.look (coreTlb r.core + tlbKey d va) | _ => none with
  | some x => some x
  | none => s.mem.tlb.look (tlbKey d va)

/-- The leaf for an address: from a TLB, or by a walk. -/
def State.leafOf (s : State) (d va : Nat) (want : Want) : Leaf ⊕ (Byte × Dword) :=
  match s.held d va with
  | some x => .inl x
  | none =>
    match s.walk va want.kind 5 0 (s.domain d).root with
    | .inr f => .inr f
    | .inl x => match s.leafFault va x want with
      | some f => .inr f
      | none => .inl x

/-- Translate an address of a domain (R113, R335, R336, R340). -/
def State.trans (s : State) (d : Nat) (va : Dword) (want : Want) : Trans :=
  let v := va.toNat
  if v / 2 ^ 57 != 0 then .bad faultProt (walkDetail want.kind 0 5)
  else match s.leafOf d v want with
    | .inr f => .bad f.1 f.2
    | .inl x => match s.permFault d v x want with
      | some f => .bad f.1 f.2
      | none => .ok (x.pa v) x.near

/-- The leaves of the 64 KiB units that a range of addresses touches, as they are now. -/
def State.leaves (s : State) (d va n : Nat) (want : Want) (m : Map Leaf := []) : Map Leaf :=
  (List.range (if n == 0 then 0 else (va + n - 1) / 65536 + 1 - va / 65536)).foldl (fun (m : Map Leaf) i =>
    match s.leafOf d (65536 * (va / 65536 + i)) want with | .inl x => m.put (va / 65536 + i) x | .inr _ => m) m

/-- An address through leaves that were taken before: the physical address and whether the page is N. -/
def pageAt (m : Map Leaf) (va : Nat) : Option (Nat × Bool) := (m.look (va / 65536)).map fun x => (x.pa va, x.near)

/-- The line of a table entry that the walk for an address meets and cannot read (R407). -/
def State.walkBad (s : State) (d : Nat) (va : Dword) : Option Nat :=
  if (s.held d va.toNat).isSome || va.toNat / 2 ^ 57 != 0 then none else s.badEntry va.toNat 5 0 (s.domain d).root

/-- The record of an uncorrectable read at a virtual address (R407, R408). -/
def State.logBadAt (s : State) (d : Nat) (va : Dword) : State :=
  match s.trans d va { kind := 0 } with
  | .ok pa _ => s.logBad (pa / 64) d
  | .bad _ _ => s.logBad ((s.walkBad d va).getD 0) d

/-- A fault that a translation has found: a table entry that could not be read is recorded (R407, R408). -/
def State.logWalk (s : State) (d : Nat) (f : FaultInfo) : State :=
  match if f.code == faultData then s.walkBad d f.va else none with
  | some line => s.logBad line d
  | none => s

/-- The instruction takes a fault that a translation has found. -/
def Ctx.walkFault (c : Ctx) (f : FaultInfo) : Res := ({ c with s := c.s.logWalk c.g.domain f } : Ctx).fault f

/-- A TLB takes a leaf while it has room: 1,024 entries in a core's, 32,768 in the die's (R336). -/
def MemSys.addLeaf (m : MemSys) (base key : Nat) (x : Leaf) : MemSys :=
  let room := if base == 0 then 32768 else 1024
  let mine := if m.tlb.length < room then 0 else (m.tlb.filter fun e => e.1 / 2 ^ 52 == base / 2 ^ 52).length
  if mine < room then { m with tlb := m.tlb.put (base + key) x } else m

/-- A TLB replaces an entry. -/
def State.dropLeaf (s : State) (key : Nat) : State := { s with mem := { s.mem with tlb := s.mem.tlb.del key } }

/-- What the TLBs hold after a translation: a leaf that was walked to and used, in the issuing core's and in the die's
(R336). -/
def State.learn (s : State) (d : Nat) (va : Dword) (want : Want) : State :=
  match s.trans d va want with
  | .bad _ _ => s
  | .ok _ _ =>
    match s.leafOf d va.toNat want with
    | .inl x =>
      let k := tlbKey d va.toNat
      let m := if (s.held d va.toNat).isSome then s.mem else s.mem.addLeaf 0 k x
      { s with mem := match s.agent with | .strand r => if (m.tlb.look (coreTlb r.core + k)).isSome then m else m.addLeaf (coreTlb r.core) k x | _ => m }
    | .inr _ => s

end Sys2Proof.Machine
end

