-- ==== Sys2Proof/Machine/Operands.lean ====
section
/-! DEFINITION. Operand forms: special registers (R41), scalar selections (R36, R39, R59), general operands and
immediates (R56, R83), results (R37, R47, R48), cross-lane reads (R49) and addresses (R57). -/
namespace Sys2Proof.Machine

/-- `%stage` (R41) for a group. -/
def State.stageCode (s : State) (g : Group) : Nat :=
  match s.boot with
  | .stage1 => 1
  | .stage2 => if g.stackMode then 3 else 2
  | _ => 0

/-- The launch record of a group. -/
def State.launchOf (s : State) (g : Group) : Option LaunchRec := (s.belfry.launches.look g.launch).map (·.record)

/-- A special register's value in a lane (R41). Codes 148-255 are not read (`selOk`). -/
def Ctx.special (c : Ctx) (code l : Nat) : Dword :=
  let s := c.s; let g := c.g
  let blk := s.blocks.look g.block
  let rec_ := s.launchOf g
  let ofBlock (f : Block → Nat) : Dword := BitVec.ofNat 64 ((match blk with | some b => f b | none => 0) % 2 ^ 32)
  let ofRec (f : LaunchRec → Nat) : Dword := BitVec.ofNat 64 ((match rec_ with | some r => f r | none => 0) % 2 ^ 32)
  let cohort := match rec_ with | some r => r.cohort | none => 1
  match code with
  | 128 => BitVec.ofNat 64 l
  | 129 => BitVec.ofNat 64 (l / 4)
  | 130 => if g.helper.getLsbD l then 1 else 0
  | 131 => BitVec.ofNat 64 (g.groupid % 32)
  | 132 => ofBlock (·.number)
  | 133 => ofBlock (·.x)
  | 134 => ofBlock (·.y)
  | 135 => ofBlock (·.z)
  | 136 => ofRec (·.gridx)
  | 137 => ofRec (·.gridy)
  | 138 => ofRec (·.gridz)
  | 139 => ofBlock fun b => b.number / cohort
  | 140 => ofBlock fun b => b.number % cohort
  | 141 => BitVec.ofNat 64 (g.domain % 64)
  | 142 => BitVec.ofNat 64 (s.stageCode g)
  | 143 => c.lanesOf.setWidth 64
  | 144 => g.live.setWidth 64
  | 145 => BitVec.ofNat 64 g.nregs
  | 146 => BitVec.ofNat 64 (s.now - (s.core c.r.core).since)
  | 147 => g.rclk.setWidth 64
  | _ => 0

/-- The value of a scalar selection in a lane (R36, R39). -/
def Ctx.sel (c : Ctx) (v : BitVec 8) (l : Nat) : Dword :=
  if v.toNat < 64 then c.g.sreg v.toNat else c.special v.toNat l

/-- The value of a scalar selection that a strand-wide instruction reads. Where it names a special register that differs from
lane to lane (`%laneid`, `%quad`, `%helper`), that of the strand's lowest live lane (DESIGN CHOICE, LOG 133). -/
def Ctx.selWide (c : Ctx) (v : BitVec 8) : Dword := c.sel v ((lowestLane c.lanesOf).getD 0)

/-- Read v[r] of lane l: an undefined value where the matrix engine owns the register (R171). -/
def Ctx.vread (c : Ctx) (r l : Nat) : Word :=
  if c.g.owned.any fun o => o.holds r then
    (Config.freeWord (c.free * 8192 + 32 * r + l)).setWidth 32
  else c.g.vreg r l

/-- A lane value of one or two registers (R35). -/
def Ctx.lane (c : Ctx) (wide : Bool) (r l : Nat) : Dword :=
  if wide then (c.vread r l).setWidth 64 ||| ((c.vread (r + 1) l).setWidth 64 <<< 32)
  else (c.vread r l).setWidth 64

/-- Immediate b of Form I: sign-extended (R56). -/
def immInt (i : BitVec 16) : Dword := i.signExtend 64
/-- Immediate b of Form I in major 0x05: imm16 << 16 (R56). -/
def immFp (i : BitVec 16) : Dword := (i.setWidth 64) <<< 16

/-- Operand a of a Form V word in a lane, W bits (R83). -/
def Ctx.opA (c : Ctx) (f : FormV) (wide : Bool) (l : Nat) : Dword :=
  if f.u then low (if wide then 64 else 32) (c.sel f.a l) else c.lane wide f.a.toNat l

/-- Operand b (R83), with the immediate as `imm` makes it. -/
def Ctx.opB (c : Ctx) (f : FormV) (imm : BitVec 16 → Dword) (wide : Bool) (l : Nat) : Dword :=
  match f.tail with
  | .imm i => low (if wide then 64 else 32) (imm i)
  | .regs b _ sb _ =>
    if f.u || sb then low (if wide then 64 else 32) (c.sel b l) else c.lane wide b.toNat l

/-- Operand c (R83). -/
def Ctx.opC (c : Ctx) (f : FormV) (wide : Bool) (l : Nat) : Dword :=
  if f.u || f.sc then low (if wide then 64 else 32) (c.sel f.c l) else c.lane wide f.c.toNat l

/-- What a uniform result of W bits writes to a scalar (R37). -/
def scalarResult (t : Ty) (x : Dword) : Dword :=
  if t.wide then x else if t == .i32 then (x.setWidth 32).signExtend 64 else low 32 x

/-- A Form V or I instruction whose result in each lane is a function of the lane: `wide` is the width of d, `t` the
type that a uniform result is extended by. A uniform word runs once under its strand-wide guard (R36-R38). All reads
precede all writes. -/
def runV (f : FormV) (t : Ty) (wide : Bool) (c : Ctx) (fn : Nat → Dword) : Res :=
  if f.u then
    c.finish (if c.wide f.g then c.g.setS f.d.toNat (scalarResult (if wide && !t.wide then .n64 else t) (fn 0)) else c.g)
  else c.finish (c.g.setLanes wide f.d.toNat ((c.active f.g).map fun l => (l, fn l)))

/-- Write a predicate in each lane of a list (R40). -/
def Group.setPreds (g : Group) (k : Nat) (xs : List (Nat × Bool)) : Group :=
  xs.foldl (fun g e => g.setP k e.1 e.2) g

/-- A comparison: a predicate, or 1 or 0 in a scalar under uniform issue (R37, R97). -/
def runP (f : FormV) (c : Ctx) (fn : Nat → Bool) : Res :=
  if f.u then c.finish (if c.wide f.g then c.g.setS f.d.toNat (if fn 0 then 1 else 0) else c.g)
  else c.finish (c.g.setPreds f.d.toNat ((c.active f.g).map fun l => (l, fn l)))

/-- A cross-lane read (R49): the register of a lane, 0 for an exited lane or an index outside 0-31. -/
def Ctx.cross (c : Ctx) (wide : Bool) (r : Nat) (l : Int) : Dword :=
  if 0 ≤ l && l < 32 && c.g.live.getLsbD l.toNat then c.lane wide r l.toNat else 0

/-- An explicit lane write (R49): discarded for an exited lane or an index outside 0-31. -/
def Group.crossWrite (g : Group) (wide : Bool) (r l : Nat) (x : Dword) : Group :=
  if l < 32 && g.live.getLsbD l then g.setLane wide r l x else g

/-- Element i of a register (R15). -/
def elemOf (bits i : Nat) (w : Word) : Nat := w.toNat / 2 ^ (bits * i) % 2 ^ bits

/-- A register with element i replaced (R48). -/
def setElem (bits i : Nat) (w : Word) (x : Nat) : Word :=
  let mask := BitVec.ofNat 32 ((2 ^ bits - 1) * 2 ^ (bits * i))
  (w &&& ~~~mask) ||| (BitVec.ofNat 32 (x % 2 ^ bits * 2 ^ (bits * i)) &&& mask)

/-- Effective address of a lane of a Form M word (R57): s[base] + sext(off12) × the access size in units R57 gives. -/
def Ctx.ea (c : Ctx) (f : FormM) (l : Nat) : Dword :=
  let unit : Nat := f.size.toNat
  c.g.sreg f.base.toNat + (f.off.signExtend 64 <<< unit) +
    (if f.ix then (c.vread f.b.toNat l).setWidth 64 <<< unit else 0)

end Sys2Proof.Machine
end

