-- ==== Sys2Proof/Machine/Strands.lean ====
section
/-! DEFINITION. Strands and continuation records: ejection (R207), retirement of a strand (R89, R91), the
reconvergence stack (R90, R215) and block barriers (R128). -/
namespace Sys2Proof.Machine

/-- A strand built from a record (R207). -/
def Record.strand (r : Record) (now : Nat) : Strand :=
  { pc := r.pc, mask := r.mask, cont := r.cont, trapret := r.trapret, trapcode := r.trapcode, placed := now }

/-- A record written back from a strand (R208). -/
def Strand.record (st : Strand) (slot : Nat) : Record :=
  { pc := st.pc, mask := st.mask, cont := st.cont, slot := slot, trapret := st.trapret, trapcode := st.trapcode }

/-- The lowest free strand-table entry (R204, R207, LOG 163). -/
def Group.freeEntry (g : Group) : Option Nat :=
  let e := Map.freeKey g.strands 0 8
  if e < 8 then some e else none

/-- The Docent queue's records of a group slot (R206). -/
def Core.recordsOf (c : Core) (slot : Nat) : List Record := c.docent.filter fun r => r.slot == slot

/-- The record goes to the tail of its group's order: the queue, or the save area (R207). `g` is the group's current
value, not yet in the state; the answer is both. -/
def State.tail (s : State) (core : Nat) (g : Group) (r : Record) : State × Group :=
  if g.saveList.isEmpty && (s.core core).docent.length < 4096 then
    (s.onCore core fun c => { c with docent := c.docent ++ [r] }, g)
  else (s, { g with saveList := g.saveList ++ [r] })

/-- `eject(r)` of R207. -/
def State.eject (s : State) (core : Nat) (g : Group) (r : Record) : State × Group :=
  match if g.saveList.isEmpty then g.freeEntry else none with
  | some e => (s, g.setStrand e (r.strand s.now))
  | none => s.tail core g r

/-- No strand and no queued continuation is left (R91). -/
def State.noStrands (s : State) (key : Nat) (g : Group) : Bool :=
  g.strands.isEmpty && g.saveList.isEmpty && ((s.core (keyCore key)).recordsOf (keySlot key)).isEmpty

/-- What a strand left in flight belongs to no entry any more (R208). -/
def Group.orphan (g : Group) (e : Nat) : Group :=
  let own (x : Nat) : Nat := if x == e then 8 else x
  { g with ops := g.ops.map fun o => { o with entry := own o.entry }, words := g.words.map fun w => { w with entry := own w.entry } }

/-- A strand leaves its entry (R89, R91). When the group has no strand and no record left, the lanes of its pending
masks are marked exited (R91). -/
def State.dropStrand (s : State) (key : Nat) (g : Group) (e : Nat) : Group :=
  let g := { g.orphan e with strands := g.strands.del e, swapSince := s.now }
  if s.noStrands key g && g.frames.isEmpty then
    { g with live := g.pending.foldl (fun m x => m &&& ~~~x.2) g.live, pending := [] }
  else g

def Group.jcOf (g : Group) (k : BitVec 3) : Nat := Map.get 0 g.jc k.toNat
def Group.setJc (g : Group) (k : BitVec 3) (n : Nat) : Group := { g with jc := Map.set 0 g.jc k.toNat n }
def Group.pendingOf (g : Group) (k : BitVec 3) : LaneMask := Map.get 0 g.pending k.toNat
def Group.setPending (g : Group) (k : BitVec 3) (m : LaneMask) : Group := { g with pending := Map.set 0 g.pending k.toNat m }

/-- The indivisible step of a waiter at `join` k (R89). -/
def Group.takePending (g : Group) (e : Nat) (k : BitVec 3) : Group :=
  let m := g.pendingOf k &&& g.live
  (g.setPending k 0).onStrand e fun st => { st.goto (st.pc + 8) with mask := st.mask ||| m }

/-- Stack mode: the strand's mask is empty after `exit` (R91). Entries are popped while nothing is left. -/
def Group.unwind (g : Group) (e fuel : Nat) : Group :=
  match fuel with
  | 0 => { g with strands := g.strands.del e }
  | fuel + 1 =>
    match g.stack with
    | [] => { g with strands := g.strands.del e }
    | t :: rest =>
      let m := (if t.second then t.all else t.other) &&& g.live
      let pc := if t.second then t.otherPc + 8 else t.otherPc
      let g := { g with stack := if t.second then rest else { t with second := true } :: rest }
      if m == 0 then g.unwind e fuel else g.onStrand e fun st => { st.goto pc with mask := m }

/-- The groups of a block that have not retired. -/
def State.groupsOf (s : State) (block : Nat) : List (Nat × Group) := s.groups.filter fun e => e.2.block == block

/-- The lanes of a group that wait at barrier k, in strands that executed it in every lane (R128). -/
def Group.atBar (g : Group) (k : BitVec 2) : LaneMask :=
  g.strands.foldl (fun m e => if e.2.wait == .bar k true then m ||| e.2.mask else m) 0

/-- A group has arrived at barrier k when each of its lanes that has not exited waits there (R128): none stands in another
strand, in a record, in a pending mask or on the reconvergence stack. -/
def Group.arrivedAt (g : Group) (k : BitVec 2) : Bool := g.live != 0 && g.live &&& ~~~g.atBar k == 0

/-- A `.blk` fence's clock merge (R126): both clocks become the larger. -/
def Group.mergeClocks (g : Group) : Group := { g with rclk := tmax g.rclk g.wclk, wclk := tmax g.rclk g.wclk }

/-- The group's waiting strands at barrier k go on at the next word (R128). -/
def Group.passBar (g : Group) (k : BitVec 2) : Group :=
  { g.mergeClocks with strands := g.strands.map fun e => (e.1, if e.2.wait == .bar k true then e.2.goto (e.2.pc + 8) else e.2) }

/-- The earlier accesses that a releasing fence of a scope waits for are complete (R126): loads, scratchpad accesses,
and stores and reductions acknowledged at the scope, those of a callee among them (R158); at `.blk` a store is acknowledged when
it has written the L1. -/
def Group.quiet (g : Group) (scope : Scope) : Bool :=
  g.ops.all fun o => o.left == 0 || match o.path with
    | .gld => false
    | .spd => false
    | .gst => !o.store || (o.blk && scope == .blk)
    | .gat => !o.store || (o.blk && scope == .blk)
    | _ => true

/-- What a `fence.ar.blk` waits for. -/
def Group.quietBlk (g : Group) : Bool := g.quiet .blk

/-- A group is done: every lane has exited and it has no strand and no record (R218). -/
def State.finished (s : State) (key : Nat) (g : Group) : Bool := g.live == 0 && s.noStrands key g

/-- A group of the block has been spilled and is not resident (R216). -/
def State.hasSpilled (s : State) (block : Nat) : Bool :=
  s.cores.any fun e => e.2.spilled.any fun x => x.2.block == block

/-- Blocks of a cohort, wherever they are. -/
def State.cohortBlocks (s : State) (launch cohort : Nat) : List (Nat × Block) := s.blocks.filter fun e => e.2.launch == launch && e.2.cohort == cohort

/-- The eviction of a cohort is under way (R356). -/
def State.evicting (s : State) (launch cohort : Nat) : Bool := s.faults.evictions.any fun e => e.1 == launch && e.2.1 == cohort

/-- The arrivals at barrier k are recorded in the block (R128, R145). -/
def State.noteArrivals (s : State) (block : Nat) (k : BitVec 2) (gs : List (Nat × Group)) : State :=
  let m := maskOf fun i => gs.any fun e => e.2.groupid == i && e.2.arrivedAt k
  if m == 0 then s
  else s.onBlock block fun b => { b with bars := b.bars.put k.toNat (m ||| Map.get 0 b.bars k.toNat) }

/-- BAR_COMPLETE: the barrier completes when every group of the block that has not retired has arrived, and each group
then performs `fence.ar.blk` (R128). A group whose lanes have all exited counts as arrived. -/
def State.barComplete (s : State) (block : Nat) (k : BitVec 2) : State :=
  let gs := s.groupsOf block
  let s := s.noteArrivals block k gs
  if !s.hasSpilled block && gs.any (fun e => e.2.arrivedAt k) && gs.all (fun e => s.finished e.1 e.2 || (e.2.arrivedAt k && e.2.quietBlk)) then
    let s := gs.foldl (fun s e => if s.finished e.1 e.2 then s else s.onGroup e.1 fun g => g.passBar k) s
    s.onBlock block fun b => { b with bars := b.bars.del k.toNat }
  else s

/-- Every barrier of a block is looked at again, after a lane exits or an access completes. -/
def State.barriers (s : State) (block : Nat) : State :=
  [0, 1, 2, 3].foldl (fun s k => s.barComplete block (BitVec.ofNat 2 k)) s

end Sys2Proof.Machine
end

