-- ==== Sys2Proof/Machine/Access.lean ====
section
/-! DEFINITION. What the instructions that access memory share: in-flight operations (R127), fences and orders (R120,
R126, R231), the lanes of an access with their faults (R52, R113, R114, R340), and the scratchpad (R113). -/
namespace Sys2Proof.Machine

/-! ### In-flight operations (R127) -/

/-- Counters fall in issue order: completed operations leave once no earlier one of their path is incomplete. -/
def pruneOps (held : List Path) (ops : List PathOp) : List PathOp :=
  match ops with
  | [] => []
  | o :: t =>
    if o.left == 0 then
      if held.contains o.path then o :: pruneOps held t else pruneOps held t
    else o :: pruneOps (o.path :: held) t

/-- No earlier load is outstanding (R126). -/
def Group.loadsDone (g : Group) : Bool := g.ops.all fun o => o.left == 0 || o.path != .gld

/-- The acquiring fence that an access still owes completes (R120, R126). -/
def Group.settle (g : Group) : Group :=
  match g.hold with
  | none => g
  | some h =>
    if g.loadsDone && (match h.op with | some k => g.ops.all fun o => o.id != k || o.left == 0 | none => true) then
      { g with hold := none, rclk := tmax g.rclk g.wclk }
    else g

/-- Parts of an operation complete: with the last, its destinations are written. -/
def Group.partDone (g : Group) (id n : Nat) : Group :=
  let ops := g.ops.map fun o =>
    if o.id == id then
      let o := { o with left := o.left - n }
      if o.left == 0 then { o with regs := [], sreg := none, slot := none } else o
    else o
  ({ g with ops := pruneOps [] ops }).settle

/-- A new operation. One without parts completes at once. -/
def Group.addOp (g : Group) (o : PathOp) : Group :=
  ({ g with ops := pruneOps [] (g.ops ++ [if o.left == 0 then { o with regs := [], sreg := none, slot := none } else o]) })

/-- The path's counter is full (R127). -/
def Group.full (g : Group) (p : Path) : Bool := 1023 ≤ g.count p

/-! ### Fences (R126, R231) -/

/-- The stores marked in the group have been acknowledged, as a release beyond `.blk` waits for (R231). -/
def Group.marksDone (g : Group) : Bool := g.marks.all fun m => m.wts.isSome

/-- A fence of an order and scope can complete. -/
def Group.fenceReady (g : Group) (rel acq : Bool) (scope : Scope) : Bool :=
  g.hold.isNone && (!rel || (g.quiet scope && (scope == .blk || g.marksDone))) && (!acq || g.loadsDone)

/-- What a fence does to the clocks when it completes. -/
def Group.fence (g : Group) (rel acq : Bool) (scope : Scope) : Group :=
  let g := if rel && scope != .blk then
      { g with wclk := g.marks.foldl (fun t m => tmax t (m.wts.getD 0)) g.wclk, marks := [] }
    else g
  let g := if rel then { g with wclk := tmax g.wclk g.rclk, remote := if scope == .sys then [] else g.remote } else g
  if acq then { g with rclk := tmax g.rclk g.wclk } else g

/-- Orders with a release or an acquire before the access (R120). -/
def Order.relBefore (o : Order) : Bool := o == .rel || o == .ar || o == .sc
def Order.acqBefore (o : Order) : Bool := o == .sc
/-- Orders with an acquire after the access (R120). -/
def Order.acqAfter (o : Order) : Bool := o == .acq || o == .ar || o == .sc

/-- The acquiring fence that follows an access with an order (R120): the group issues no later access until it is
complete. An access whose fence another strand still owes is waited for too. -/
def Group.acquireAfter (g : Group) (o : Order) (op : Option Nat) : Group :=
  if Order.acqAfter o then ({ g with hold := some ⟨op.orElse fun _ => g.hold.bind (·.op)⟩ }).settle else g

/-- The frame of every access instruction (majors 0x08 to 0x0D and 0x10): it stalls while an acquire is owed (R120), and
it resets the strand's spin count (R234). -/
def access (i : Instr) (s : State) (k : Ctx → Res) : Res :=
  issue i s fun c =>
    if c.g.hold.isSome then c.stall
    else
      let g := c.g.onStrand c.r.entry fun st => { st with spin := 0 }
      k { c with g := g }

/-! ### Lanes of an access -/

/-- A lane of an access with its translated address. -/
structure LaneRef where
  lane : Nat
  va : Dword
  pa : Nat
  n : Bool
  deriving DecidableEq, Repr

/-- The lanes of an access: those whose address is good, and the faults of the others, in lane order. -/
structure LanePlan where
  s : State
  good : List LaneRef
  bad : List (Nat × FaultInfo)

/-- Check one address of a lane: ALIGN, then the walk (R340). -/
def State.check (s : State) (d : Nat) (va : Dword) (size : Nat) (want : Want) (lane : Nat) : LaneRef ⊕ FaultInfo :=
  if va.toNat % size != 0 then .inr { code := faultAlign, lane := BitVec.ofNat 8 lane, va := va }
  else match s.trans d va want with
    | .ok pa n => .inl ⟨lane, va, pa, n⟩
    | .bad code detail => .inr { code := code, lane := BitVec.ofNat 8 lane, va := va, detail := detail }

/-- Check the addresses of lanes. -/
def State.plan (s : State) (d : Nat) (size : Nat) (want : Want) (ls : List (Nat × Dword)) : LanePlan :=
  ls.foldl (fun p e =>
    match p.s.check d e.2 size want e.1 with
    | .inl x => { p with s := p.s.learn d e.2 want, good := p.good ++ [x] }
    | .inr f => { p with bad := p.bad ++ [(e.1, f)] }) ⟨s, [], []⟩

/-- The fault of the lowest-numbered lane of a list. -/
def lowestBad (bad : List (Nat × FaultInfo)) : Option (Nat × FaultInfo) :=
  bad.foldl (fun a x => match a with
    | none => some x
    | some y => if x.1 < y.1 then some x else some y) none

/-- The one fault that an instruction reports for its lanes (R114): that of the lowest lane whose fault is not PAGE, and
PAGE when there is no other. -/
def reported (bad : List (Nat × FaultInfo)) : Option FaultInfo :=
  let lanes := maskOf fun l => bad.any fun e => e.1 == l
  match lowestBad (bad.filter fun e => e.2.code != faultPage) with
  | some e => some { e.2 with lanes := lanes }
  | none => (lowestBad bad).map fun e => { e.2 with lanes := lanes }

/-- A fault that ends the launch when this group takes it (R345). -/
def Ctx.fatal (c : Ctx) (f : FaultInfo) : Bool := c.g.depth == 0 && f.code != faultPage

/-- Drop the faults of helper lanes (R45): the lanes whose fault is suppressed, and the other faults. -/
def Ctx.splitHelpers (c : Ctx) (bad : List (Nat × FaultInfo)) : List Nat × List (Nat × FaultInfo) :=
  ((bad.filter fun e => c.g.helper.getLsbD e.1).map (·.1), bad.filter fun e => !c.g.helper.getLsbD e.1)

/-- Faults that lanes of an operation have taken (R114). -/
def Group.addBad (g : Group) (op : Nat) (xs : List (Nat × FaultInfo)) : Group :=
  { g with ops := g.ops.map fun o => if o.id == op then { o with bad := o.bad ++ xs } else o }

/-- Perform a memory instruction in its lanes and take its fault (R52, R114). `perform` does the lanes and leaves the
strand at its word. Without a fault the strand goes on; on a fault that suspends the group the lanes without a fault
complete; on one that ends the launch each of them has performed or has not (free). While such lanes are still on their
way the strand stands at its word, and the record is raised when their operation completes. -/
def Ctx.lanewise (c : Ctx) (p : LanePlan) (bad : List (Nat × FaultInfo)) (perform : State → Group → List LaneRef → State × Group) : Res :=
  let p := { p with s := p.bad.foldl (fun (s : State) (e : Nat × FaultInfo) => s.logWalk c.g.domain e.2) p.s }
  match reported bad with
  | none =>
    let r := perform p.s c.g p.good
    c.finishIn r.1 r.2
  | some f =>
    let fatal := c.fatal f
    let n := p.s.fresh
    let s := if fatal then { p.s with fresh := n + 1 } else p.s
    let good := if fatal then p.good.filter fun x => Config.freeBit (64 * n + x.lane) else p.good
    let r := perform s c.g good
    match r.2.ops.find? fun o => p.s.nextId ≤ o.id && o.left != 0 with
    | some o => .next (r.1.setGroup c.key ((r.2.addBad o.id bad).onStrand c.r.entry fun st => { st with wait := .faulting o.id }))
    | none => .next ((r.1.setGroup c.key r.2).takeFault c.r c.st.pc f)

/-- The lines that accesses touch, in the order of their first lane. -/
def linesOf (xs : List LaneRef) : List Nat :=
  xs.foldl (fun ls x => if ls.contains (x.pa / 64) then ls else ls ++ [x.pa / 64]) []

/-! ### Messages -/

/-- Send a message to a home; the answer holds its name. -/
def State.send (s : State) (m : Msg) : Nat × State :=
  let id := s.nextId
  (id, { s with nextId := id + 1, mem := { s.mem with msgs := s.mem.msgs.put id m } })

/-- A request to a line of a peer's memory goes out over the Spire link (R374). -/
def State.toPeer (s : State) (line : Nat) : State := if linePeer line then s.sendFlit (lineDevice line) else s

/-- Send a request to the owner node of an address (R286, R378). -/
def State.sendOwner (s : State) (from_ : OwnerFrom) (pa : Nat) (work : OwnerWork) (va : Dword := 0) (lane : Nat := 32) : State :=
  let q : OwnerReq := { from_ := from_, die := paDie pa, node := paNode pa, va := va, work := work, lane := lane }
  ({ s with nextId := s.nextId + 1, mem := { s.mem with owner := s.mem.owner.put s.nextId q } } : State).toPeer (pa / 64)

/-- The bytes of its line that a request reads or writes as an access of its group; none for a `.blk` store, whose bytes
stand in the L1, for an engine's request and for a fetch. -/
def MsgKind.bytes (k : MsgKind) : BitVec 64 :=
  match k with
  | .renew loads _ _ => loads.foldl (fun m x => m ||| byteMask x.off x.size) 0
  | .poll off _ _ => byteMask off 32
  | .layout _ off => byteMask off 32
  | .store mask _ blk => if blk then 0 else mask
  | .atomic _ off size _ _ _ _ _ => byteMask off size
  | .arrive off _ _ => byteMask off 32
  | _ => 0

/-- The group has a request out that reads or writes one of these bytes of a line, so that a later access of the group
has to follow it (R115). -/
def State.busyBytes (s : State) (key line : Nat) (mask : BitVec 64) : Bool :=
  s.mem.msgs.any fun e => e.2.group == key && e.2.line == line && e.2.kind.bytes &&& mask != 0

/-! ### The scratchpad (R113, R225) -/

def Block.spadBytes (b : Block) : Nat := b.scratchKiB * 1024
def Claim.covers (c : Claim) (off n : Nat) : Bool := off < c.base + c.size && c.base < off + n
/-- A range that lies inside a live claim, in part or whole. -/
def Block.inClaim (b : Block) (off n : Nat) : Bool :=
  match b.claim with
  | some c => n != 0 && c.covers off n
  | none => false
def Block.read (b : Block) (off : Nat) : Byte := Map.get 0 b.spad off
def Block.bytes (b : Block) (off n : Nat) : List Byte := (List.range n).map fun i => b.read (off + i)
def Block.write (b : Block) (off : Nat) (x : Byte) : Block := { b with spad := Map.set 0 b.spad off x }
def Block.writes (b : Block) (off : Nat) (xs : List Byte) : Block :=
  match xs with
  | [] => b
  | x :: t => (b.write off x).writes (off + 1) t

/-- The check of a scratchpad range for a lane (R113): ALIGN, PROT beyond the scratchpad, CATRANGE inside a claim. -/
def Block.check (b : Block) (off : Dword) (n align lane : Nat) : Option FaultInfo :=
  let o := off.toNat
  let f (code : Byte) : Option FaultInfo := some { code := code, lane := BitVec.ofNat 8 lane, va := off }
  if o % align != 0 then f faultAlign
  else if b.spadBytes < o + n then f faultProt
  else if b.inClaim o n then f faultCatrange
  else none

/-- A store to the scratchpad taints the source of courier copies in flight (R136), but for copies that its own group
issued after it, which read it: `by_` is the store's group and operation. -/
def State.taint (s : State) (block off n : Nat) (by_ : Option (Nat × Nat)) : State :=
  if s.copies.isEmpty then s
  else { s with copies := s.copies.map fun e =>
    if e.2.block == block && !(match by_ with | some x => e.2.group == x.1 && x.2 < e.2.op | none => false) then (e.1, { e.2 with tainted := e.2.tainted ++ ((List.range n).map (off + ·)).filter fun o => e.2.src ≤ o && o < e.2.src + e.2.bytes && !e.2.tainted.contains o }) else e }

/-- Write bytes to a block's scratchpad. -/
def State.spadWrite (s : State) (block off : Nat) (xs : List Byte) (by_ : Option (Nat × Nat) := none) : State :=
  (s.taint block off xs.length by_).onBlock block fun b => b.writes off xs

def State.blockOf (s : State) (k : Nat) : Option Block := s.blocks.look k

/-- Every scratchpad store that the group issued before an operation has performed (R136). -/
def State.spadsBefore (s : State) (key op : Nat) : Bool :=
  match s.groups.look key with
  | none => true
  | some g => g.spads.all fun a => op ≤ a.op

/-! ### Lines of host and peer memory (R237) -/

/-- Who the device's own requests are counted for: no group has this key. -/
def deviceKey : Nat := 2 ^ 20

/-- The device asks the owner for a line of host or peer memory that it needs itself, once (R237). -/
def State.bring (s : State) (line : Nat) (excl near : Bool) : State :=
  if s.mem.msgs.any fun e => e.2.line == line && e.2.kind == .bring excl near then s
  else (s.send { group := deviceKey, core := 0, op := 0, pc := 0, entry := 0, line := line, va := 0, scope := .dev, clk := 0, lease := 0, kind := .bring excl near, stage := .atOwner s.nextId }).2.toPeer line

/-- What the owner answered to the device's own read of a line, or to its failed request (R373). -/
def State.answered (s : State) (line : Nat) (near : Bool) : Option (LineData × Bool) :=
  s.mem.msgs.findSome? fun e => if e.2.line == line then
      match e.2.kind, e.2.stage with
      | .bring _ n, .reply _ _ d bad => if n == near then some (d, bad) else none
      | _, _ => none
    else none

/-- The answers to the device's own requests for lines are used up. -/
def State.useUp (s : State) (lines : List Nat) : State :=
  { s with mem := { s.mem with msgs := s.mem.msgs.filter fun e => !(lines.contains e.2.line && (match e.2.kind, e.2.stage with | .bring _ _, .reply _ _ _ _ => true | _, _ => false)) } }

/-- A line as the device's own engines read it: at its home, at the owner node of an N page, or what the owner of an N
page of a peer has answered. Nothing where a line of host or peer memory has yet to come. -/
def State.lineNow (s : State) (line : Nat) (near : Bool) : Option LineData :=
  if !lineRemote line then some (if near then s.mem.line line else (s.homeView line).data)
  else if near then (s.answered line true).map (·.1)
  else (s.mem.l2.look line).map (·.data)

/-- The owner answered the device's request for a line with an error (R373). -/
def State.refused (s : State) (line : Nat) (near : Bool) : Bool :=
  match s.answered line near with | some x => x.2 | none => false

/-- The lines among these that have to be asked of their owners, each with whether its page is N. -/
def State.missing (s : State) (lines : List (Nat × Bool)) : List (Nat × Bool) :=
  lines.filter fun x => (s.lineNow x.1 x.2).isNone && !s.refused x.1 x.2

/-- The lines that a read of the device finds absent are asked of their owners. -/
def State.bringAll (s : State) (lines : List (Nat × Bool)) : State :=
  (s.missing lines).foldl (fun s x => s.bring x.1 false x.2) s

/-- Host and peer lines with stores of the group below `.sys` that the owner has not acknowledged: their proxy line is
still dirty (R126, R237). -/
def State.remoteDone (s : State) (g : Group) : Bool :=
  g.remote.all fun line => match s.mem.l2.look line with
    | some h => !h.dirty
    | none => true

/-- A fence of an order and scope can complete: its accesses have (R126), and at `.sys` the owners of host and peer lines
have acknowledged them. -/
def State.fenceReady (s : State) (g : Group) (rel acq : Bool) (scope : Scope) : Bool :=
  g.fenceReady rel acq scope && (!rel || scope != .sys || s.remoteDone g)

/-- The fences before an access with an order (R120), then the access. -/
def Ctx.ordered (c : Ctx) (o : Order) (scope : Scope) (k : Ctx → Res) : Res :=
  if c.s.fenceReady c.g (Order.relBefore o) (Order.acqBefore o) scope then
    k { c with g := c.g.fence (Order.relBefore o) (Order.acqBefore o) scope }
  else c.stall

/-- A strand of the group waits in `gate`: the group's other strands and its records are held (R156). -/
def Group.calling (g : Group) : Bool := g.strands.any fun e => e.2.wait.inGate

end Sys2Proof.Machine
end

