-- ==== Sys2Proof/Machine/Frames.lean ====
section
/-! DEFINITION. Leaving a gate frame: by `gret` and `gabort`, and by an abort from outside (R158, R159, R348, R350). -/
namespace Sys2Proof.Machine

/-- The registers v that a test of register and lane keeps. -/
def keepV (v : Map Word) (keep : Nat → Nat → Bool) : Map Word := v.filter fun e => keep (e.1 / 32) (e.1 % 32)

/-- Merge two register tables: entries of `a`, and those of `b`, whose keys differ. -/
def joinMaps {α : Type} (a b : Map α) : Map α := b.foldl (fun m e => m.put e.1 e.2) a

/-- The caller's registers after a return (R158, R159): results are kept in the lanes of the call, arguments that are
no results read zero, and everything else is the frame's. The stores move to the gate counter; a scalar that an `arrive` of the
callee is still to write is written only where it is a result (LOG 142). -/
def Group.leave (g : Group) (fr : Frame) (abort : Bool) : Group :=
  let vr := if abort then 0 else fr.vr
  let va := max fr.va fr.vr
  let sr := if abort then 0 else fr.sr
  let sa := max fr.sa fr.sr
  let v := if fr.uniform then g.v
    else joinMaps (keepV fr.v fun k l => !(fr.mask.getLsbD l && k < max va vr)) (keepV g.v fun k l => fr.mask.getLsbD l && k < vr)
  let s := joinMaps (fr.s.filter fun x => sa < x.1) (g.s.filter fun x => 1 ≤ x.1 && x.1 ≤ sr)
  let strands := fr.strands.map fun e => if e.1 == fr.strand then (e.1, e.2.goto fr.pc) else e
  let kept (k : Option Nat) : Option Nat := k.filter fun k => k ≤ sr && k != fr.d
  let ops := g.ops.map fun o => if o.path == .gst then { o with path := .gat, callee := some fr.callee, sreg := kept o.sreg } else o
  let g := { g with v := v, s := s, p := if fr.uniform then g.p else fr.p, jc := fr.jc, pending := fr.pending, strands := strands, saveList := fr.saveList, stack := fr.stack, trapvec := fr.trapvec, layouts := fr.layouts, live := fr.live, domain := fr.caller, frames := g.frames.tail, rclk := tmax fr.rclk g.rclk, wclk := tmax fr.wclk g.wclk, ops := pruneOps [] ops, suspends := [] }
  g.setS fr.d (if abort then 2 else 0)

/-- The `rgrow` requests of a group: entry, granules, order. A strand that a gate call has set aside does not wait there while
the frame is open (LOG 143). -/
def Group.requests (g : Group) : List (Nat × Nat × Nat) :=
  g.strands.filterMap fun e => match e.2.wait with | .rgrow n q => some (e.1, n, q) | _ => none

def Group.blocked (g : Group) : Bool := !g.requests.isEmpty

/-- The all-blocked timer of a quadrant restarts (R216). -/
def State.growTouch (s : State) (core quad : Nat) : State := s.onCore core fun c => { c with growSince := c.growSince.put quad s.now }

/-- A group returns from its innermost frame; its set-aside records go back in their old order (R158). -/
def State.leaveFrame (s : State) (key : Nat) (abort : Bool) : State :=
  match s.groups.look key with
  | none => s
  | some g =>
    match g.frames with
    | [] => s
    | fr :: _ =>
      let core := keyCore key
      let s := s.onCore core fun c => { c with docent := c.docent.filter fun q => q.slot != keySlot key }
      let room := 4096 - (s.core core).docent.length
      let g := g.leave fr abort
      let s := s.onCore core fun c => { c with docent := c.docent ++ fr.records.take room }
      let s := if g.blocked then s.growTouch core (slotQuad (keySlot key)) else s
      s.setGroup key { g with saveList := fr.records.drop room ++ g.saveList }

/-- The callee has no load and no near-memory operation outstanding, as a return waits for (R158). -/
def Group.mayLeave (g : Group) : Bool := g.count .gld == 0 && g.count .nmp == 0

/-- A group may run its strands: it is not suspended, no frame of it is being aborted, and it is not stopped; a group of a
launch that ends, or of a quarantined caller, runs on in its callee (R159, R349). -/
def Group.mayRun (g : Group) : Bool :=
  g.suspends.isEmpty && g.aborting.isEmpty &&
  match g.stopping with | .running => true | .terminate => !g.frames.isEmpty | .evict => false

/-- Frames of the callee domains that a group is to leave are aborted, innermost first, as by `gabort`: each once the loads
and near-memory operations are done (R159). -/
def State.abortFrames (s : State) (key fuel : Nat) : State :=
  match fuel, s.groups.look key with
  | fuel + 1, some g =>
    if g.aborting.isEmpty || !g.mayLeave then s
    else if g.frames.any fun f => g.aborting.contains f.callee then (s.leaveFrame key true).abortFrames key fuel
    else s.onGroup key fun g => { g with aborting := [] }
  | _, _ => s

/-- Every frame of a callee domain in a group is to be aborted (R159, R350). -/
def State.abortFramesOf (s : State) (key d : Nat) : State :=
  match s.groups.look key with
  | none => s
  | some g =>
    if g.frames.any fun f => f.callee == d then (s.setGroup key { g with aborting := d :: g.aborting }).abortFrames key 4 else s

end Sys2Proof.Machine
end

