-- ==== Sys2Proof/Machine/Home.lean ====
section
/-! DEFINITION. What happens to a request at its home and on its way back (R228, R230-R232, R237, R372, R378): renewals
and fills, stores and acknowledgements, atomics and completions, evictions, and the owners of proxy lines. -/
namespace Sys2Proof.Machine

/-- The new word of an atomic or owner-node operator (R122, R181) of `size` bytes. -/
def AtomicOp.apply (op : AtomicOp) (size : Nat) (old v cmp : Dword) : Dword :=
  let w := 8 * size
  let lt := valN true w old < valN true w v
  let x := old.toNat % 2 ^ 32
  let y := v.toNat % 2 ^ 32
  low w (match op with
    | .add => old + v
    | .min => if lt then old else v
    | .max => if lt then v else old
    | .and => old &&& v
    | .or => old ||| v
    | .xor => old ^^^ v
    | .xchg => v
    | .wr => v
    | .cas => if low w old == low w cmp then v else old
    | .fadd => BitVec.ofNat 64 (fp32.add .rne x y)
    | .fmin => BitVec.ofNat 64 (fp32.min x y)
    | .fmax => BitVec.ofNat 64 (fp32.max x y)
    | .bfadd2 => BitVec.ofNat 64 (bfloat16.add .rne (x % 65536) (y % 65536) + 65536 * bfloat16.add .rne (x / 65536) (y / 65536))
    | .bfmax2 => BitVec.ofNat 64 (bfloat16.max (x % 65536) (y % 65536) + 65536 * bfloat16.max (x / 65536) (y / 65536)))

def State.setMsg (s : State) (id : Nat) (m : Msg) : State := { s with mem := { s.mem with msgs := s.mem.msgs.put id m } }
def State.delMsg (s : State) (id : Nat) : State := { s with mem := { s.mem with msgs := s.mem.msgs.del id } }

/-- A bound landing range that a line lies in (R379). -/
def State.landingAt (s : State) (line : Nat) : Option (Nat × Landing) := s.mem.landings.find? fun e => e.2.lines.contains line

/-! ### The counters of an owner node (R287) -/

/-- The key of an owner node. -/
def nodeKey (die node : Nat) : Nat := 128 * die + node
def State.node (s : State) (die node : Nat) : OwnerNode := Map.get {} s.mem.nodes (nodeKey die node)
def State.setNode (s : State) (die node : Nat) (x : OwnerNode) : State :=
  { s with mem := { s.mem with nodes := Map.set {} s.mem.nodes (nodeKey die node) x } }

/-- The class that an owner node remembers (R287): operator code and size. -/
def nmClass (code size : Nat) : Nat := 2 * code + (if size == 8 then 1 else 0)

/-- Add to a 32-bit counter that saturates (R287). -/
def satAdd (c : Word) : Word := if c == BitVec.allOnes 32 then c else c + 1

/-- The 4-byte words that `n` bytes touch. -/
def wordsOf (pa n : Nat) : List Nat := (List.range ((pa + n + 3) / 4 - pa / 4)).map fun i => pa / 4 + i

/-- A request of a class to words: a mix counts when a remembered class differs, and the words become the most recent
(R287). -/
def OwnerNode.note (x : OwnerNode) (words : List Nat) (cls : Nat) : OwnerNode :=
  let mixed := words.any fun w => x.seen.any fun e => e.1 == w && e.2 != cls
  { x with mix := if mixed then satAdd x.mix else x.mix, seen := (words.map (fun w => (w, cls)) ++ x.seen.filter fun e => !words.contains e.1).take 256 }

def State.noteClass (s : State) (die node pa n cls : Nat) : State := s.setNode die node ((s.node die node).note (wordsOf pa n) cls)
/-- A misuse counts at the node (R287). -/
def State.noteMisuse (s : State) (die node : Nat) : State :=
  let x := s.node die node
  s.setNode die node { x with misuse := satAdd x.misuse }

/-- A store of the device itself at an owner node: one to a bound range is no contribution, and is discarded as a misuse
(R380). -/
def State.nodeStore (s : State) (pa : Nat) (bs : List Byte) : State :=
  if (s.landingAt (pa / 64)).isSome then s.noteMisuse (paDie pa) (paNode pa)
  else ({ s with mem := s.mem.setBytes pa bs } : State).noteClass (paDie pa) (paNode pa) pa bs.length (nmClass 10 bs.length)

/-- An access of a reuse class from 8 to 15 counts in its slice's telemetry (R116). -/
def State.countClass (s : State) (line cls : Nat) : State :=
  if cls < 8 then s
  else
    let k := 16 * s.mem.slice line + cls
    { s with mem := { s.mem with telemetry := s.mem.telemetry.put k (Map.get 0 s.mem.telemetry k + 1) } }

/-- The elements of a row of a `gath`: the physical address of each and whether its page is N. -/
def GathJob.elems (j : GathJob) (row : Nat) : List (Option (Nat × Bool)) :=
  (List.range (j.rowBytes / j.elemBytes)).map fun i => pageAt j.pages (row + i * j.elemBytes)

/-- A `gath` that the group issued before still reads a line (R115). -/
def State.gathReads (s : State) (key before line : Nat) : Bool :=
  s.gaths.any fun e => e.1 < before && e.2.group == key && e.2.rows.any fun r => (e.2.elems r.1).any fun x => match x with | some x => x.1 / 64 == line | none => false

/-- A request of a group to a line is performed only after its earlier ones to that line, and one that writes it after the rows
that an earlier `gath` of the group reads there (R115, R375); requests of one instruction to different addresses have no order
(R123, R143). -/
def State.turnAtHome (s : State) (id : Nat) (m : Msg) : Bool :=
  !((match m.kind with | .renew _ _ _ | .fetch | .poll _ _ _ | .layout _ _ | .bring _ _ => false | _ => true) && s.gathReads m.group id m.line) &&
  !s.mem.msgs.any fun e => e.1 < id && e.2.group == m.group && e.2.line == m.line && !(e.2.op == m.op && e.2.va != m.va) && (match e.2.stage with | .reply _ _ _ _ => false | _ => true)

def MsgKind.isRenew : MsgKind → Bool
  | .renew _ _ _ => true
  | .fetch => true
  | .poll _ _ _ => true
  | .layout _ _ => true
  | _ => false
def MsgKind.isStore : MsgKind → Bool
  | .store _ _ _ => true
  | .courier _ _ => true
  | _ => false
def MsgKind.isAtomic : MsgKind → Bool
  | .atomic _ _ _ _ _ _ _ _ => true
  | .arrive _ _ _ => true
  | _ => false

def MsgStage.isAtOwner : MsgStage → Bool
  | .atOwner _ => true
  | _ => false

/-- A request of this device for a line is with the line's owner. -/
def State.asked (s : State) (line : Nat) : Bool := s.mem.msgs.any fun e => e.2.line == line && e.2.stage.isAtOwner

/-- A peer is performing an atomic of this device on a line: its proxy home waits for the answer (R378). -/
def State.atPeer (s : State) (line : Nat) : Bool := linePeer line && s.mem.msgs.any fun e => e.2.line == line && e.2.kind.isAtomic && e.2.stage.isAtOwner

/-- A request that performs at a peer's home leaves once what the device has asked for the line is there, and its proxy line goes
first, written back (R237, R378). -/
def State.forward (s : State) (line : Nat) (atomic : Bool) : Option State :=
  if !(atomic && linePeer line) then some s else if s.asked line then none else some (s.evictLine line true 0)

/-- The device holds a proxy line of host memory in exclusive ownership (R372). -/
def State.owns (s : State) (line : Nat) : Bool :=
  match s.mem.l2.look line with | some h => h.own | none => false

/-- The request has to go to the host or the peer that owns the line (R237, R372, R378): a `.sys` access, an atomic that
does not find a host line in exclusive ownership, an atomic on a peer line, and whatever finds no proxy line. -/
def State.needsOwner (s : State) (m : Msg) : Bool :=
  lineRemote m.line && (m.scope == .sys && !m.kind.isAtomic || (m.kind.isAtomic && (linePeer m.line || !s.owns m.line)) || (s.mem.l2.look m.line).isNone)

/-- Put back a line after a request: into its slice, or, for a request that leaves no proxy line, into mts (R237). -/
def State.putHome (s : State) (line : Nat) (h : HomeView) (keep : Bool) : State :=
  if keep || (s.mem.l2.look line).isSome then s.setHome line h
  else
    let sl := s.mem.slice line
    let s := s.setMts sl (tmax (s.mtsOf sl) h.rts)
    if h.dirty then { s with mem := s.mem.setLine line h.data (BitVec.allOnes 64) } else s

/-- The barrier record with an arrival (R130): new record and old generation. -/
def arriveRecord (rec_ : Nat) (inc : Dword) : Nat × Nat :=
  let count := (rec_ + inc.toNat) % 2 ^ 64
  let target := rec_ / 2 ^ 64 % 2 ^ 64
  let gen := rec_ / 2 ^ 192 % 2 ^ 32
  let steps := target ≤ count
  let count := if steps then count - target else count
  let gen' := if steps then (gen + 1) % 2 ^ 32 else gen
  (count + 2 ^ 64 * target + rec_ / 2 ^ 128 % 2 ^ 64 * 2 ^ 128 + gen' * 2 ^ 192 + rec_ / 2 ^ 224 % 2 ^ 32 * 2 ^ 224, gen)

/-- What a store or an atomic does at home: the time it takes, and the line with new bytes (R230, R232). -/
def HomeView.write (h : HomeView) (clk : Time) (data : LineData) (mask : BitVec 64) : HomeView :=
  let t := tmax clk (h.rts + 1)
  { data := mergeLine h.data data mask, dirty := true, wts := t, rts := t }

/-- The bytes that a courier copy brings to a line, read from the source scratchpad; a source byte that was written
since issue is undefined (R136). -/
def State.courierLine (s : State) (copy : Nat) (bytes : List (Nat × Nat)) : LineData × BitVec 64 :=
  match s.copies.look copy with
  | none => (0, 0)
  | some c =>
    let b := (s.blocks.look c.block).getD { launch := 0, number := 0, cohort := 0, core := 0, x := 0, y := 0, z := 0, groups := 0, scratchKiB := 0, catalogueKiB := 0 }
    let val (src : Nat) : Byte := if c.tainted.contains src then Config.freeByte s.fresh src else b.read src
    let at_ (i : Nat) : Option Nat := (bytes.find? fun e => e.1 == i).map (·.2)
    (lineOf fun i => match at_ i with | some o => val o | none => 0,
      (List.range 64).foldl (fun m i => if (at_ i).isSome then m ||| (1 <<< i) else m) 0)

/-- A line at a home, or what an owner supplied, for a request. -/
def State.viewWith (s : State) (line : Nat) (data : Option LineData) : HomeView :=
  let h := s.homeView line
  match data with
  | some d => if h.dirty then h else { h with data := d }
  | none => h

/-- A proxy line is taken in exclusive ownership (R372). -/
def State.own (s : State) (line : Nat) (excl : Bool) : State :=
  if excl && !linePeer line then { s with mem := { s.mem with l2 := s.mem.l2.adjust line fun h => { h with own := true } } } else s

/-- A store at its home (R230): the new state, its time, and the line's wts before it. A part of an uncorrectable line that
is written goes to memory, and the line stays uncorrectable until all of it is written (R407). -/
def State.writeAtHome (s : State) (line : Nat) (data : Option LineData) (clk : Time) (d : LineData) (mask : BitVec 64) (keep : Bool) : State × Time × Time :=
  let h := s.viewWith line data
  let h' := h.write clk d mask
  let bad := data.isNone && s.lineBad line
  if bad && mask != BitVec.allOnes 64 then
    let sl := s.mem.slice line
    let s := { s with mem := s.mem.setLine line d mask }
    (s.setMts sl (tmax (s.mtsOf sl) h'.wts), h'.wts, h.wts)
  else
    let s := if bad then { s with mem := s.mem.heal (· == line) } else s
    (s.putHome line h' keep, h'.wts, h.wts)

/-- Perform a request at its home as one indivisible step. `data` is the line that an owner supplied, `keep` whether the
line stays in its slice. -/
def State.perform (s : State) (id : Nat) (m : Msg) (data : Option LineData) (keep : Bool) : State :=
  let h := s.viewWith m.line data
  let answer (s : State) (t prev : Time) (d : LineData) (bad : Bool) : State :=
    s.setMsg id { m with stage := .reply (s.stamp t) (s.stamp prev) d bad }
  let bad := data.isNone && s.lineBad m.line
  let s := s.countClass m.line m.cls
  let store (d : LineData) (mask : BitVec 64) : State :=
    let x := s.writeAtHome m.line data m.clk d mask keep
    answer x.1 x.2.1 x.2.2 d false
  match m.kind with
  | .store mask d _ => store d mask
  | .courier copy bytes =>
    let x := s.courierLine copy bytes
    store x.1 x.2
  | _ =>
    if bad then answer (s.logBad m.line (match s.groups.look m.group with | some g => g.domain | none => 0)) 0 0 0 true
    else match m.kind with
      | .atomic _ off size op v cmp _ _ =>
        let old := BitVec.ofNat 64 (lineValue h.data off size)
        let new := AtomicOp.apply op size old v cmp
        let x := s.writeAtHome m.line data m.clk (lineWith off size new.toNat) (byteMask off size) keep
        answer x.1 x.2.1 x.2.2 (lineWith 0 8 new.toNat ||| lineWith 32 8 old.toNat) false
      | .arrive off inc _ =>
        let r := arriveRecord (lineValue h.data off 32) inc
        let x := s.writeAtHome m.line data m.clk (lineWith off 32 r.1) (byteMask off 32) keep
        answer x.1 x.2.1 x.2.2 (lineWith 0 32 r.1 ||| lineWith 32 8 r.2) false
      | _ =>
        let h' := { h with rts := tmax h.rts (m.clk + m.lease) }
        answer (s.putHome m.line h' keep) h.wts h.wts h.data false

/-- A request reaches its home: it performs, or goes on to the line's owner. -/
def State.reachHome (s : State) (id : Nat) (which : MsgKind → Bool) : State :=
  match s.mem.msgs.look id with
  | none => s
  | some m =>
    let unread := match m.kind with
      | .courier copy _ => match s.copies.look copy with | some c => !s.spadsBefore c.group c.op | none => false
      | _ => false
    if m.stage != .toHome || !which m.kind || !s.turnAtHome id m || unread || s.atPeer m.line then s
    else if s.needsOwner m then
      match s.forward m.line m.kind.isAtomic with
      | none => s
      | some s => ({ s.setMsg id { m with stage := .atOwner s.nextId } with nextId := s.nextId + 1 } : State).toPeer m.line
    else
      let s' := s.perform id m none true
      match m.kind with
      | .courier _ _ => { s' with fresh := s'.fresh + 1 }
      | _ => s'

/-- HOME_RENEW (R228). -/
def execHomeRenew (id : Nat) (s : State) : Res := .next (s.reachHome id MsgKind.isRenew)
/-- HOME_STORE (R230). -/
def execHomeStore (id : Nat) (s : State) : Res := .next (s.reachHome id MsgKind.isStore)
/-- HOME_ATOMIC (R130, R232). -/
def execHomeAtomic (id : Nat) (s : State) : Res := .next (s.reachHome id MsgKind.isAtomic)

/-- The owner of a proxy line answers. Requests of scope `.sys` leave no proxy line, an atomic at a peer removes it, and an
atomic on a host line takes it in exclusive ownership; any other request brings the line in (R237, R372, R378). What the
device itself asked for stands in its proxy home, or, read at the owner node of an N page, in the answer. -/
def State.ownerAnswers (s : State) (id : Nat) (m : Msg) (data : LineData) : State :=
  match m.kind with
  | .bring excl near =>
    if near then s.setMsg id { m with stage := .reply (s.stamp 0) (s.stamp 0) data false }
    else ((s.setHome m.line (s.viewWith m.line (some data))).own m.line excl).delMsg id
  | _ =>
    let through := m.scope == .sys && !m.kind.isAtomic
    let away := m.kind.isAtomic && linePeer m.line
    let s := s.perform id m (some data) (!through && !away)
    if away then s.evictLine m.line false 0 else s.own m.line m.kind.isAtomic

/-- The owner answers a request with an error: its requester takes DATA (R373). -/
def State.ownerRefuses (s : State) (id : Nat) (m : Msg) : State := s.setMsg id { m with stage := .reply (s.stamp 0) (s.stamp 0) 0 true }

/-- CXL_PROXY_FILL: the host answers over CXL.cache; an error stops the requester with DATA (R372, R373). -/
def execCxlProxyFill (id : Nat) (data : LineData) (error : Bool) (s : State) : Res :=
  match s.mem.msgs.look id with
  | none => .next s
  | some m =>
    if !m.stage.isAtOwner || !lineRemote m.line || linePeer m.line || (m.kind.isStore && m.scope == .sys) then .next s
    else if error then .next (s.ownerRefuses id m)
    else .next (s.ownerAnswers id m data)

/-- CXL_GLOBAL_OBSERVATION: the host reports a `.sys` store written through, which is then acknowledged (R372), or answers
it with an error (R373). -/
def execCxlGlobalObservation (seen : Observation) (s : State) : Res :=
  match s.mem.msgs.look seen.msg with
  | none => .next s
  | some m =>
    if !m.stage.isAtOwner || !lineRemote m.line || linePeer m.line || !(m.kind.isStore && m.scope == .sys) then .next s
    else if seen.error then .next (s.ownerRefuses seen.msg m)
    else .next (s.perform seen.msg m none false)

/-- A peer performs the requests of this device to one line in the order in which they were sent (R375). -/
def State.turnAtPeer (s : State) (m : Msg) : Bool :=
  match m.stage with
  | .atOwner n => !s.mem.msgs.any fun e => e.2.line == m.line && (match e.2.stage with | .atOwner k => k < n | _ => false)
  | _ => false

/-! ### Answers at the requester -/

/-- The strand that a message's fault is taken for. -/
def Msg.ref (m : Msg) : StrandRef := { core := keyCore m.group, slot := keySlot m.group, entry := m.entry }

/-- DATA for an access whose line could not be read, in a lane (R340, R407). -/
def dataInfo (lane : Byte) (va : Dword) : FaultInfo := { code := faultData, lane := lane, va := va, precise := false }

/-- DATA that a strand takes for a message of its own. -/
def State.dataFault (s : State) (m : Msg) : State := s.takeFault m.ref m.pc (dataInfo 0xFF m.va)

/-- The one record of an operation whose lanes have faulted, once it is complete (R114); a strand that stood at its word
for it is free to be suspended. -/
def State.reportOp (s : State) (key : Nat) (o : PathOp) : State :=
  match reported o.bad with
  | none => s
  | some f =>
    let s := s.onGroup key fun g => g.onStrand o.entry fun st => if st.wait == .faulting o.id then { st with wait := .ready } else st
    s.takeFault { core := keyCore key, slot := keySlot key, entry := o.entry } o.pc f o.callee

/-- Parts of an operation of a group complete; barriers that waited for it are looked at again, and with the last part the
faults of its lanes are reported. -/
def State.partDone (s : State) (key op n : Nat) : State :=
  match s.groups.look key with
  | none => s
  | some g =>
    let s := (s.setGroup key (g.partDone op n)).barriers g.block
    let s := match g.ops.find? fun o => o.id == op with
      | some o => if o.left ≤ n then s.reportOp key o else s
      | none => s
    s.abortFrames key 4

/-- A part of an operation could not be read in these lanes. -/
def State.partBad (s : State) (key op : Nat) (xs : List (Nat × FaultInfo)) : State :=
  (s.onGroup key fun g => g.addBad op xs).partDone key op 1

/-- The registers of a lane take a loaded value of `size` bytes (R119). -/
def Group.loadLane (g : Group) (x : LaneLoad) (v : Nat) : Group :=
  (List.range (roundUp x.size 4 / 4)).foldl (fun g i => g.setV (x.reg + i) x.lane (BitVec.ofNat 32 (v / 2 ^ (32 * i)))) g

/-- Marks for the pending bytes of other groups that a load returned (R231). -/
def State.marksOf (s : State) (key : Nat) (c : CopyView) (mask : BitVec 64) : List Mark :=
  (c.pend.filter fun p => p.2.1 &&& mask != 0 && (match s.mem.msgs.look p.1 with | some m => m.group != key | none => false)).map fun p => ⟨p.1, none⟩

def Group.addMarks (g : Group) (ms : List Mark) : Group :=
  ms.foldl (fun g m => if g.marks.any (fun x => x.msg == m.msg) then g else { g with marks := g.marks ++ [m] }) g

/-- The bytes that lane loads read from a line. -/
def loadMask (xs : List LaneLoad) : BitVec 64 := xs.foldl (fun m x => m ||| byteMask x.off x.size) 0

/-- Deliver a line's bytes to the lanes of a load. -/
def Group.loadLanes (g : Group) (xs : List LaneLoad) (d : LineData) : Group :=
  xs.foldl (fun g x => g.loadLane x (lineValue d x.off x.size)) g

/-- `fill` of R228: the copy after a reply, unless it has advanced beyond the reply. -/
def fillCopy (c : Option CopyView) (wts rts : Time) (d : LineData) : CopyView :=
  match c with
  | some c => if c.valid != 0 && wts.toNat < c.wts.toNat then c else { c with data := d, valid := BitVec.allOnes 64, wts := wts, rts := rts }
  | none => { data := d, valid := BitVec.allOnes 64, wts := wts, rts := rts, pend := [] }

/-- A layout descriptor from its 32 bytes (R137), or nothing when it is refused. -/
def layoutOf (d : Nat) : Option Layout :=
  let fmt := d % 256
  match Ty.ofCode fmt with
  | none => none
  | some t =>
    let rank := d / 2 ^ 8 % 256
    let swz := d / 2 ^ 16 % 256
    let chunk := d / 2 ^ 24 % 256
    if fmt == 10 || rank == 0 || 4 < rank || 1 < swz || chunk < 6 || 9 < chunk || d / 2 ^ 32 % 2 ^ 32 != 0 then none
    else some { fmt := t, rank := rank, swizzle := swz == 1, chunk := chunk, stride1 := BitVec.ofNat 64 (d / 2 ^ 64), stride2 := BitVec.ofNat 64 (d / 2 ^ 128), stride3 := BitVec.ofNat 64 (d / 2 ^ 192) }

/-- The copy as a request of a group sees it: without the pending bytes of stores that the group issued after it (R115). -/
def State.seenBy (s : State) (id : Nat) (m : Msg) (c : CopyView) : CopyView :=
  let own (k : Nat) : Bool := match s.mem.msgs.look k with | some x => x.group == m.group | none => false
  { c with pend := c.pend.filter fun p => !(id < p.1 && own p.1) }

/-- A layout slot takes its descriptor; one that is refused leaves the slot, and `tlayout` reports COURIER when it
completes (R137, R138, LOG 112). -/
def Group.placeLayout (g : Group) (op slot : Nat) (l : Option Layout) : Group :=
  match l with
  | some l => { g with layouts := g.layouts.put slot l }
  | none => g.addBad op [(32, { code := faultCourier, precise := false })]

/-- A line fills the instruction cache (R420). -/
def State.fillFetch (s : State) (core line : Nat) (wts rts : Time) (d : LineData) : State :=
  { s with mem := { s.mem with icache := s.mem.icache.put (copyKey core line) ⟨d, BitVec.allOnes 64, s.stamp wts, s.stamp rts, []⟩ } }

/-- FILL (R228): the copy is updated, a store that the group issued after the load is not seen (R115), the load's registers are written, and rclk rises. -/
def State.fill (s : State) (id : Nat) (m : Msg) (wts : Time) (d : LineData) (bad : Bool) : State :=
  let core := keyCore m.group
  let s := s.delMsg id
  match m.kind with
  | .fetch =>
    if bad then
      match s.strandAt m.ref with
      | some (_, st) => if st.pc == m.pc then s.dataFault m else s
      | none => s
    else match (s.mem.icache.look (copyKey core m.line)).bind s.view with
    | some c => if wts.toNat < c.wts.toNat then s else s.fillFetch core m.line wts (m.clk + m.lease) d
    | none => s.fillFetch core m.line wts (m.clk + m.lease) d
  | .renew loads toL1 raises =>
    if bad then
      match s.groups.look m.group with
      | none => s
      | some g =>
        let help := loads.filter fun x => g.helper.getLsbD x.lane
        let real := loads.filter fun x => !g.helper.getLsbD x.lane
        let s := s.setGroup m.group (g.loadLanes help 0)
        s.partBad m.group m.op (real.map fun x => (x.lane, dataInfo (BitVec.ofNat 8 x.lane) x.va))
    else
      let old := s.l1View core m.line
      let c := fillCopy old wts (m.clk + m.lease) d
      let base := if toL1 then c else { c with data := d, pend := (match old with | some o => o.pend | none => []) }
      let seen := s.seenBy id m base
      let seenWts := if toL1 then c.wts else wts
      let s := if toL1 then s.setL1 core m.line c else s
      match s.groups.look m.group with
      | none => s
      | some g =>
        let g := (g.loadLanes loads seen.bytes).addMarks (if loads.isEmpty then [] else s.marksOf m.group seen (loadMask loads))
        let g := if raises then { g with rclk := tmax g.rclk seenWts } else g
        (s.setGroup m.group g).partDone m.group m.op 1
  | .poll off gen dst =>
    match s.strandAt m.ref with
    | none => s
    | some (g, st) =>
      if st.wait.message != some id then s
      else if bad then s.dataFault m
      else
        let x := BitVec.ofNat 32 (lineValue d (off + 24) 4)
        if x == gen then s
        else
          let g := { g.setS dst (x.setWidth 64) with rclk := tmax g.rclk wts }
          s.setGroup m.group ((g.acquireAfter .acq none).onStrand m.entry fun st => st.goto (st.pc + 8))
  | .layout slot off =>
    if bad then s.partBad m.group m.op [(32, dataInfo 0xFF m.va)]
    else
      let c := fillCopy (s.l1View core m.line) wts (m.clk + m.lease) d
      let s := s.setL1 core m.line c
      let seen := s.seenBy id m c
      match s.groups.look m.group with
      | none => s
      | some g =>
        let r := ({ g with rclk := tmax g.rclk c.wts }.addMarks (s.marksOf m.group seen (byteMask off 32))).placeLayout m.op slot (layoutOf (lineValue seen.bytes off 32))
        (s.setGroup m.group r).partDone m.group m.op 1
  | _ => s

/-- A reply is delivered to a core after the acknowledgements of its stores and atomics that performed earlier at that
line (R115, R231, LOG 113). -/
def State.replyTurn (s : State) (id : Nat) (m : Msg) (t : Time) : Bool :=
  !s.mem.msgs.any fun e => e.1 != id && e.2.core == m.core && e.2.line == m.line && e.2.group != deviceKey && (e.2.kind.isStore || e.2.kind.isAtomic) && (match e.2.stage with | .reply t' _ _ bad => !bad && (s.cur t').toNat ≤ t.toNat | _ => false)

/-- FILL. -/
def execFill (id : Nat) (s : State) : Res :=
  match s.mem.msgs.look id with
  | none => .next s
  | some m =>
    match m.stage with
    | .reply t _ d bad => if m.kind.isRenew && s.replyTurn id m (s.cur t) then .next (s.fill id m (s.cur t) d bad) else .next s
    | _ => .next s

/-- A marked store is acknowledged at a time (R231). -/
def Group.ackMark (id : Nat) (t : Time) (g : Group) : Group :=
  { g with marks := g.marks.map fun m => if m.msg == id then { m with wts := some t } else m }

/-- A store is acknowledged in every group that marked it, resident, spilled or saved (R231). -/
def State.markAcked (s : State) (id : Nat) (t : Time) : State :=
  let f := Group.ackMark id t
  let spill (c : Core) : Core := { c with spilled := c.spilled.map fun x => (x.1, f x.2) }
  let saves := s.faults.saves.map fun x => { x with groups := x.groups.map f }
  { s with groups := s.groups.map fun e => (e.1, f e.2), cores := s.cores.map fun e => (e.1, spill e.2), faults := { s.faults with saves := saves } }

/-- A part of a courier copy to global memory has been acknowledged at a time; with the last, wclk is raised to the
largest of these times and the copy ends (R136). -/
def State.copyAcked (s : State) (copy op : Nat) (t : Time) : State :=
  let s := { s with copies := s.copies.adjust copy fun c => { c with carried := tmax c.carried t } }
  match s.copies.look copy with
  | none => s
  | some c =>
    let last := match s.groups.look c.group with
      | some g => g.ops.any fun o => o.id == op && o.left == 1
      | none => true
    if last then
      ({ s with copies := s.copies.del copy }.onGroup c.group fun g => { g with wclk := tmax g.wclk c.carried }).partDone c.group op 1
    else s.partDone c.group op 1

/-- An acknowledged store or reduction below `.sys` to a line of host or peer memory: a `.sys` fence still waits for the
line's owner (R126). -/
def Group.noteRemote (g : Group) (line : Nat) (scope : Scope) : Group :=
  if lineRemote line && scope != .sys && !g.remote.contains line then { g with remote := line :: g.remote } else g

/-- The acknowledgement of a store (R230), a courier's among them (R136). -/
def State.storeAck (s : State) (id : Nat) (m : Msg) (t prev : Time) (d : LineData) (bad : Bool) : State :=
  let core := keyCore m.group
  let mask : BitVec 64 := match m.kind with
    | .store mask _ _ => mask
    | .courier _ bytes => bytes.foldl (fun m x => m ||| byteMask x.1 1) 0
    | _ => 0
  let s := s.delMsg id
  if bad then
    let s := s.onGroup m.group fun g => g.addBad m.op [(32, dataInfo 0xFF m.va)]
    match m.kind with
    | .courier copy _ => s.copyAcked copy m.op 0
    | _ => s.partDone m.group m.op 1
  else
    let s := s.ackCopy core m.line id prev t d mask
    match m.kind with
    | .courier copy _ => (s.onGroup m.group fun g => g.noteRemote m.line m.scope).copyAcked copy m.op t
    | _ =>
      let s := s.onGroup m.group fun g => { g with wclk := tmax g.wclk t }.noteRemote m.line m.scope
      (s.markAcked id t).partDone m.group m.op 1

/-- STORE_ACK. -/
def execStoreAck (id : Nat) (s : State) : Res :=
  match s.mem.msgs.look id with
  | none => .next s
  | some m =>
    match m.stage with
    | .reply t prev d bad => if m.kind.isStore && s.replyTurn id m (s.cur t) then .next (s.storeAck id m (s.cur t) (s.cur prev) d bad) else .next s
    | _ => .next s

/-- How an atomic's completion moves the clocks (R232). -/
def Group.atomicClocks (g : Group) (order : Order) (returns : Bool) (t oldwts : Time) : Group :=
  if order == .rlx then
    let g := { g with wclk := tmax g.wclk t }
    if returns then { g with rclk := tmax g.rclk oldwts } else g
  else { g with rclk := tmax g.rclk t, wclk := tmax g.wclk t }

/-- The completion of an atomic, a reduction or an arrival (R123, R130, R232). -/
def State.atomicDone (s : State) (id : Nat) (m : Msg) (t prev : Time) (d : LineData) (bad : Bool) : State :=
  let core := keyCore m.group
  let s := s.delMsg id
  match m.kind with
  | .atomic lane off size _ _ _ dst order =>
    if bad then s.partBad m.group m.op [(lane, dataInfo (BitVec.ofNat 8 lane) m.va)]
    else
      let old := lineValue d 32 size
      let s := s.onGroup m.group fun g =>
        let g := (g.atomicClocks order dst.isSome t prev).noteRemote m.line (if linePeer m.line then .sys else m.scope)
        match dst with
        | some r => g.loadLane { lane := lane, reg := r, off := 0, size := size } old
        | none => g
      (s.ackCopy core m.line id prev t (lineWith off size (lineValue d 0 size)) (byteMask off size)).partDone m.group m.op 1
  | .arrive off _ dst =>
    if bad then s.partBad m.group m.op [(32, dataInfo 0xFF m.va)]
    else
      let s := s.onGroup m.group fun g =>
        let g := g.atomicClocks .rel true t prev
        if g.ops.any fun o => o.id == m.op && o.sreg == some dst then g.setS dst (BitVec.ofNat 64 (lineValue d 32 4)) else g
      (s.ackCopy core m.line id prev t (lineWith off 32 (lineValue d 0 32)) (byteMask off 32)).partDone m.group m.op 1
  | _ => s

/-- ATOMIC_COMPLETE. -/
def execAtomicComplete (id : Nat) (s : State) : Res :=
  match s.mem.msgs.look id with
  | none => .next s
  | some m =>
    match m.stage with
    | .reply t prev d bad => if m.kind.isAtomic && m.group != deviceKey && s.replyTurn id m (s.cur t) then .next (s.atomicDone id m (s.cur t) (s.cur prev) d bad) else .next s
    | _ => .next s

/-- L2_EVICT: a line leaves its slice (R224). -/
def execL2Evict (line : Nat) (s : State) : Res := .next (s.evictLine line true 0)

/-- Requests before the keys are programmed, or before stage 2, have no effect (R368, R392). -/
def State.hostOpen (s : State) : Bool := s.boot == .stage2 && s.links.ideKeys

/-- HOST_SNOOP: a proxy line is taken away, and mts rises (R237, R372). A snoop over CXL.cache has no effect before the keys
are programmed (R368). -/
def execHostSnoop (line : Nat) (s : State) : Res :=
  if lineRemote line && (linePeer line || s.hostOpen) then .next (s.evictLine line true 0) else .next s

/-- How an access that the device makes itself ends: performed at a time; waiting for the owner of a host or peer line; or
turned away by its translation or an uncorrectable line. -/
inductive DeviceAccess where
  | done (s : State) (t : Time)
  | wait (s : State)
  | bad (s : State)

/-- The state that an access of the device leaves. -/
def DeviceAccess.state : DeviceAccess → State
  | .done s _ => s
  | .wait s => s
  | .bad s => s

/-- A line that the device needs at its home before it can go on (R237, R372): it goes on, waits for the line's owner, or
finds that the owner refused it (R373), or that a line which it reads is uncorrectable (R407). -/
def State.withLine (s : State) (line : Nat) (excl reads : Bool) (k : State → DeviceAccess) : DeviceAccess :=
  if s.atPeer line then .wait s
  else if (reads && s.lineBad line) || s.refused line false then .bad (s.useUp [line])
  else if lineRemote line && ((s.mem.l2.look line).isNone || (excl && !s.owns line)) then .wait (s.bring line excl false)
  else k s

/-- An arrival of the device at a peer's barrier record, which the peer performs (R378); `tag` names the arrival. -/
def State.arriveAtPeer (s : State) (line off : Nat) (inc : Dword) (clk : Time) (tag : Nat) : DeviceAccess :=
  match s.mem.msgs.find? fun e => e.2.group == deviceKey && e.2.op == tag && e.2.kind.isAtomic with
  | none => match s.forward line true with
    | none => .wait s
    | some s => .wait ((s.send { group := deviceKey, core := 0, op := tag, pc := 0, entry := 0, line := line, va := 0, scope := .dev, clk := clk, lease := 0, kind := .arrive off inc 0, stage := .atOwner s.nextId }).2.toPeer line)
  | some (id, m) => match m.stage with
    | .reply t _ _ bad => if bad then .bad (s.delMsg id) else .done (s.delMsg id) (s.cur t)
    | _ => .wait s

/-- An `arrive` of the device itself at a physical address, performed at the record's home with a carried clock (R130, R232), or
by the peer that owns the record (R378). -/
def State.arriveAt (s : State) (pa : Nat) (inc : Dword) (clk : Time) (tag : Nat) : DeviceAccess :=
  let line := pa / 64
  let off := pa % 64
  if linePeer line then s.arriveAtPeer line off inc clk tag
  else s.withLine line true true fun s =>
    let r := arriveRecord (lineValue (s.homeView line).data off 32) inc
    let x := s.writeAtHome line none clk (lineWith off 32 r.1) (byteMask off 32) true
    .done x.1 x.2.1

/-- An `arrive` of the device itself on the record at a virtual address. -/
def State.deviceArrive (s : State) (d : Nat) (va : Dword) (inc : Dword) (clk : Time) (tag : Nat) : DeviceAccess :=
  if va.toNat % 32 != 0 then .bad s
  else match s.trans d va wantAtomic with
    | .bad _ _ => .bad s
    | .ok pa _ => (s.learn d va wantAtomic).arriveAt pa inc clk tag

/-- A store of the device itself with a carried clock: bytes at a physical address inside one line, at the line's home, or
at the owner node of an N page (R117, R380). -/
def State.deviceStore (s : State) (pa : Nat) (near : Bool) (bs : List Byte) (clk : Time) : DeviceAccess :=
  let line := pa / 64
  if near then
    if lineRemote line then .done (s.sendOwner .device pa (.store pa bs)) clk
    else .done (s.nodeStore pa bs) clk
  else s.withLine line false false fun s =>
    let x := s.writeAtHome line none clk (lineWith (pa % 64) bs.length (leValue bs)) (byteMask (pa % 64) bs.length) true
    .done x.1 x.2.1

/-- What a read of the device itself finds. -/
inductive DeviceRead where
  | done (bytes : List Byte)
  | wait (s : State)
  | bad
  deriving DecidableEq, Repr

/-- The lines that a range of addresses touches, each with the address that stands in it; nothing when a page of the range
cannot be read. -/
def State.rangeLines (s : State) (d : Nat) (va : Dword) (n : Nat) (want : Want) : Option (List (Nat × Bool)) :=
  let offs := 0 :: (((List.range (n / 64 + 1)).map fun i => 64 * (i + 1) - va.toNat % 64).filter (· < n))
  offs.foldr (fun o acc => match acc, s.trans d (va + BitVec.ofNat 64 o) want with
    | some xs, .ok pa near => some ((pa / 64, near) :: xs)
    | _, _ => none) (some [])

/-- Bytes at a virtual address as the device reads them, one line after another (R237, R340, R407). -/
def State.deviceRead (s : State) (d : Nat) (va : Dword) (n : Nat) (want : Want) : DeviceRead :=
  match s.rangeLines d va n want with
  | none => .bad
  | some lines =>
    if lines.any fun x => s.lineBad x.1 || s.refused x.1 x.2 then .bad
    else if !(s.missing lines).isEmpty then .wait (s.bringAll lines)
    else .done ((List.range n).map fun i => match s.trans d (va + BitVec.ofNat 64 i) want with
      | .ok pa near => match s.lineNow (pa / 64) near with | some x => lineByte x (pa % 64) | none => 0
      | .bad _ _ => 0)

end Sys2Proof.Machine
end

