-- ==== Sys2Proof/Machine/Grid.lean ====
section
/-! DEFINITION. The grid of the Annex: token stores (R268, R269, R275), the fields of a task (R260, R261), the inputs of
an element (R265), and the pure operations of R195. -/
namespace Sys2Proof.Machine

/-! ### Stores (R269) -/

/-- Tokens held at the start of a fc: those accepted before, and those that left in it. -/
def Store.held (s : Store) (fc : Nat) : Nat :=
  (s.toks.filter fun t => t.2.1 < fc).length + (if s.popFc == fc then s.popped else 0)

/-- A store accepts a token in a fc when it held fewer than its capacity at the start, at most one token per fc. -/
def Store.accepts (s : Store) (cap fc : Nat) : Bool := s.held fc < cap && !s.toks.any fun t => t.2.1 == fc

/-- The token at the head at the start of a fc that can leave in it, with the fc it was accepted in. -/
def Store.head (s : Store) (fc : Nat) : Option (Token × Nat) :=
  match s.toks with
  | [] => none
  | t :: _ => if (s.popFc == fc && s.popped != 0) || fc ≤ t.2.1 || fc < t.2.2 then none else some (t.1, t.2.1)

def Store.push (s : Store) (t : Token) (fc ready : Nat) : Store := { s with toks := s.toks ++ [(t, fc, ready)] }
def Store.pop (s : Store) (fc : Nat) : Store := { toks := s.toks.tail, popFc := fc, popped := 1 }
def Store.size (s : Store) : Nat := s.toks.length

/-- A marker (R268). -/
def marker (tag : BitVec 7) : Token := { data := 0, tag := tag, eos := true }

/-! ### Tasks (R260, R261) -/

def ekey (x y : Nat) : Nat := 128 * y + x
def taskOp (w : Dword) : Nat := bitsAt w.toNat 56 8
/-- Source of input i: 0-7 a vc, 8 K, 9 none. -/
def taskIn (w : Dword) (i : Nat) : Nat := bitsAt w.toNat (52 - 4 * i) 4
/-- Destination i: 0-7 a vc, 8 none. -/
def taskOut (w : Dword) (i : Nat) : Nat := bitsAt w.toNat (40 - 4 * i) 4
def taskStage (w : Dword) : Nat := bitsAt w.toNat 33 3
def taskLanes (w : Dword) : Bool := w.getLsbD 32
def taskVar (w : Dword) : Nat := bitsAt w.toNat 24 8
def taskOff (w : Dword) (i : Nat) : Nat := bitsAt w.toNat (16 - 8 * i) 8

/-- The operation a task word names. -/
def taskFu (w : Dword) : Option FuOp := FuOp.ofCode (BitVec.ofNat 8 (taskOp w))

/-- Latency in fc (R195). -/
def fuLatency (op : FuOp) (var : Nat) : Nat :=
  match op with
  | .fadd => 4 | .fmul => 4 | .ffma => 4 | .bfma2 => 4 | .f8dot4 => 4
  | .acc => if var % 4 == 1 then 1 else 4
  | .hash => 2 | .owner => 2 | .ldt => 2 | .stt => 2
  | _ => 1

/-- Inputs that an operation reads (R195, R260). -/
def fuInputs (op : FuOp) (var : Nat) : List Nat :=
  match op with
  | .ffma => [0, 1, 2] | .bfma2 => [0, 1, 2] | .f8dot4 => [0, 1, 2] | .imad => [0, 1, 2] | .sel => [0, 1, 2] | .merge => [0, 1, 2]
  | .tag => [0] | .untag => [0] | .tagck => [0] | .hash => [0] | .ldt => [0] | .fifo => [0] | .mcast => [0]
  | .count => [] | .ctlSeq => [] | .ctlPipe => [] | .ctlStream => []
  | .agen => if var.testBit 1 then [1] else []
  | _ => [0, 1]

/-- The channel inputs of a task. -/
def taskChans (w : Dword) : List Nat :=
  match taskFu w with
  | none => []
  | some op => (fuInputs op (taskVar w)).filter fun i => taskIn w i < 8

/-- The outgoing vcs that a task writes. -/
def taskVcs (w : Dword) : List Nat := ([taskOut w 0, taskOut w 1]).filter (· < 8)

/-- Capacity of a task's output store (R269). -/
def outCap (op : FuOp) (var : Nat) : Nat := if op == .fifo then 16 else fuLatency op var + 2

/-! ### Inputs of an element (R265) -/

/-- The branch that ends at a destination: its route's and its own index. -/
def Inst.branchTo (n : Inst) (kind : Nat) (sel : Branch → Bool) : Option (Nat × Nat × Branch) :=
  let xs := (n.routes.mapIdx fun i r => r.branches.mapIdx fun j b => (i, j, b)).flatten
  xs.find? fun e => e.2.2.kind == kind && sel e.2.2

/-- The store that is an element's input: the last hop buffer of the branch that ends there. -/
def Inst.input (n : Inst) (x y vc : Nat) : Option (Nat × Nat × Branch) :=
  n.branchTo 0 fun b => b.x == x && b.y == y && b.vc == vc

def Branch.last (b : Branch) : Store := (b.hops.getLast?).getD {}
/-- Tokens on the hops of a branch. -/
def Branch.count (b : Branch) : Nat := (b.hops.map Store.size).foldl (· + ·) 0

def Inst.setBranch (n : Inst) (i j : Nat) (b : Branch) : Inst :=
  match n.routes[i]? with
  | none => n
  | some r => { n with routes := setNth n.routes i { r with branches := setNth r.branches j b } }

/-- Take the head of the last hop of a branch. -/
def Inst.popBranch (n : Inst) (i j fc : Nat) : Inst :=
  match (n.routes[i]?).bind fun r => r.branches[j]? with
  | none => n
  | some b => n.setBranch i j { b with hops := setNth b.hops (b.hops.length - 1) (b.last.pop fc) }

/-- The head of an element's input vc. -/
def Inst.inHead (n : Inst) (x y vc fc : Nat) : Option (Token × Nat) :=
  match n.input x y vc with
  | some e => e.2.2.last.head fc
  | none => none

def Inst.elem (n : Inst) (x y : Nat) : Elem := Map.get {} n.elems (ekey x y)
def Inst.setElem (n : Inst) (x y : Nat) (e : Elem) : Inst := { n with elems := n.elems.put (ekey x y) e }
def Inst.tile (n : Inst) (x y : Nat) : Tile := Map.get {} n.tiles (ekey x y)
def Inst.setTile (n : Inst) (x y : Nat) (t : Tile) : Inst := { n with tiles := n.tiles.put (ekey x y) t }

/-! ### Pure operations (R195) -/

/-- A 32-bit operation in the two lanes of a token (R195). -/
def inLanes (fn : Dword → Dword → Dword → Dword) (a b c : Dword) : Dword :=
  let lo (x : Dword) : Dword := (x.setWidth 32).setWidth 64
  let hi (x : Dword) : Dword := x >>> 32
  low 32 (fn (lo a) (lo b) (lo c)) ||| (low 32 (fn (hi a) (hi b) (hi c)) <<< 32)

/-- An integer operation on 64 bits or in two lanes. -/
def fuInt (two : Bool) (fn : Dword → Dword → Dword → Dword) (a b c : Dword) : Dword := if two then inLanes fn a b c else fn a b c

def lowWord (x : Dword) : Nat := x.toNat % 2 ^ 32
def highWord (x : Dword) : Nat := x.toNat / 2 ^ 32

/-- `bfma2`: lane j (R195). -/
def bfmaLane (a b : Dword) (j c : Nat) : Nat :=
  let p := (bfloat16.read (bitsAt a.toNat (16 * j) 16)).mul (bfloat16.read (bitsAt b.toNat (16 * j) 16))
  fp32.sum .rne fpOne2 [p, (fp32.read c).finer 149]

/-- `f8dot4`: lane j (R195). -/
def f8Lane (F : Fmt) (a b : Dword) (j c : Nat) : Nat :=
  let p (k : Nat) := (F.read (bitsAt a.toNat (8 * k) 8)).mul (F.read (bitsAt b.toNat (8 * k) 8))
  fp32.sum .rne fpOne2 [p (2 * j), p (2 * j + 1), (fp32.read c).finer 149]

/-- `cmp` (R195, R261). -/
def fuCompare (var : Nat) (two : Bool) (a b : Dword) : Dword :=
  let bit (x : Bool) : Dword := if x then 1 else 0
  if var.testBit 3 then bit (condFp (var % 8) (lowWord a) (lowWord b))
  else
    let w := if two then 32 else 64
    fuInt two (fun x y _ => bit (condInt (var % 8) (valN (var.testBit 4) w x) (valN (var.testBit 4) w y))) a b 0

/-- The data of the result of an operation that keeps no state; none for the others. -/
def fuPure (op : FuOp) (w a b c : Dword) : Option Dword :=
  let var := taskVar w
  let two := taskLanes w
  let f (x : Nat) : Option Dword := some (BitVec.ofNat 64 x)
  let i (fn : Dword → Dword → Dword → Dword) : Option Dword := some (fuInt two fn a b c)
  let n : Nat := if two then 32 else 64
  match op with
  | .fadd => f (fp32.add .rne (lowWord a) (lowWord b))
  | .fmul => f (fp32.mul .rne (lowWord a) (lowWord b))
  | .ffma => f (fp32.fma .rne (lowWord a) (lowWord b) (lowWord c))
  | .fmax => f (fp32.max (lowWord a) (lowWord b))
  | .fmin => f (fp32.min (lowWord a) (lowWord b))
  | .bfma2 => f (bfmaLane a b 0 (lowWord c) + 2 ^ 32 * bfmaLane a b 1 (highWord c))
  | .f8dot4 =>
    let F := if var.testBit 0 then e5m2Fmt else e4m3Fmt
    f (f8Lane F a b 0 (lowWord c) + 2 ^ 32 * f8Lane F a b 1 (highWord c))
  | .iadd => i fun x y _ => x + y
  | .isub => i fun x y _ => x - y
  | .imul => i fun x y _ => x * y
  | .imad => i fun x y z => x * y + z
  | .and => some (a &&& b)
  | .or => some (a ||| b)
  | .xor => some (a ^^^ b)
  | .shl => i fun x y _ => shlN n x (y.toNat % 64)
  | .shr => i fun x y _ => if var.testBit 0 then sarN n x (y.toNat % 64) else shrN n x (y.toNat % 64)
  | .cmp => some (fuCompare var two a b)
  | .sel => some (if a != 0 then b else c)
  | .hash => f ((a * 0x9E3779B97F4A7C15#64).toNat / 2 ^ (64 - var % 16))
  | .mcast => some a
  | .fifo => some a
  | .untag => some a
  | _ => none

/-- One step of the running sum of `acc` (R261, R271). -/
def accAdd (var : Nat) (two : Bool) (sum x : Dword) : Dword :=
  match var % 4 with
  | 0 => BitVec.ofNat 64 (fp32.add .rne (lowWord sum) (lowWord x))
  | 1 => fuInt two (fun a b _ => a + b) sum x 0
  | 2 => BitVec.ofNat 64 (fp32.max (lowWord sum) (lowWord x))
  | _ => BitVec.ofNat 64 (fp32.min (lowWord sum) (lowWord x))

/-- An operator of R181 by its code. -/
def nmOp (code : Nat) : Option AtomicOp :=
  match code with
  | 0 => some .add | 1 => some .fadd | 2 => some .bfadd2 | 3 => some .min | 4 => some .max | 5 => some .fmin
  | 6 => some .fmax | 7 => some .and | 8 => some .or | 9 => some .xor | 10 => some .wr | _ => none

/-- An operator that R181 gives at size 2 only. -/
def nmWordOnly (code : Nat) : Bool := code == 1 || code == 2 || code == 5 || code == 6

end Sys2Proof.Machine
end

