-- ==== Sys2Proof/Machine/Graph.lean ====
section
/-! DEFINITION. When a task fires and what its firing does to its instance (R270-R274, R280-R282, R286). -/
namespace Sys2Proof.Machine

/-- What a firing does: the inputs it consumes, the frame slots it clears, the tokens it writes by outgoing vc, its
task's new state, a tile word or a frame slot that it writes, and whether a pass of a leaf ends. -/
structure Fire where
  eat : List Nat := []
  clear : List Nat := []
  outs : List (Nat × Token) := []
  task : TaskState
  word : Option (Nat × Dword) := none
  slot : Option (Nat × Dword) := none
  passDone : Bool := false
  /-- A value of it is undefined (R5): the free values advance. -/
  free : Bool := false
  deriving DecidableEq, Repr

/-- What a task can do: nothing, block its element (cause and tags of R342), or fire. -/
inductive Plan where
  | idle
  | block (cause expect seen : Nat)
  | fire (f : Fire)
  deriving DecidableEq, Repr

/-- A firing that writes one token on every output of its task. -/
def emit (t : TaskState) (eat : List Nat) (x : Token) (t' : TaskState) : Fire :=
  { eat := eat, outs := (taskVcs t.word).map fun v => (v, x), task := t' }

/-- The operator of an `owner` task on a tile word (R261, R286); a 4-byte operator works on bits 31:0. -/
def ownerWord (var : Nat) (old v : Dword) : Dword :=
  match nmOp (var % 16) with
  | some op => AtomicOp.apply op (if nmWordOnly (var % 16) then 4 else 8) old v 0
  | none => old

/-- Words of a memory tile (R262). -/
def tileWords : Nat := 24576

/-- The firing of an operation other than `acc`, `repeat`, `count`, `agen` and the controllers on data tokens. `tok`
gives its inputs, `tag` the result's tag, `free` the index of free values. -/
def Inst.effect (n : Inst) (x y : Nat) (t : TaskState) (op : FuOp) (tok : Nat → Dword) (tag : BitVec 7) (free : Nat) : Plan :=
  let w := t.word
  let ins := taskChans w
  let put (d : Dword) (tg : BitVec 7) (t' : TaskState) : Plan := .fire (emit t ins ⟨d, tg, false⟩ t')
  let k := t.k.toNat
  match op with
  | .merge =>
    let i := if tok 2 != 0 then 0 else 1
    .fire (emit t (ins.filter fun j => j == 2 || j == i) ⟨tok i, tag, false⟩ t)
  | .steer =>
    let o := taskOut w (if tok 1 != 0 then 0 else 1)
    .fire { eat := ins, outs := if o < 8 then [(o, ⟨tok 0, tag, false⟩)] else [], task := t }
  | .tag =>
    if (taskVar w).testBit 0 then put (tok 0) (BitVec.ofNat 7 t.counter) { t with counter := if t.counter + 1 < k then t.counter + 1 else 0 }
    else put (tok 0) (BitVec.ofNat 7 k) t
  | .untag => put (tok 0) 0 t
  | .tagck =>
    if tag.toNat == t.counter then put (tok 0) 0 { t with counter := if t.counter + 1 < k then t.counter + 1 else 0 }
    else .block 3 t.counter tag.toNat
  | .ldt =>
    if tileWords ≤ (tok 0).toNat then .block 4 0 0 else put (Map.get 0 (n.tile x y).words (tok 0).toNat) tag t
  | .stt =>
    if tileWords ≤ (tok 0).toNat then .block 4 0 0
    else .fire { emit t ins ⟨Config.freeWord free, tag, false⟩ t with word := some ((tok 0).toNat, tok 1), free := true }
  | .owner =>
    if tileWords ≤ (tok 0).toNat then .block 4 0 0
    else
      let new := ownerWord (taskVar w) (Map.get 0 (n.tile x y).words (tok 0).toNat) (tok 1)
      .fire { emit t ins ⟨Config.freeWord free, tag, false⟩ t with word := some ((tok 0).toNat, new), free := true }
  | _ =>
    match fuPure op w (tok 0) (tok 1) (tok 2) with
    | some d => put d tag t
    | none => .idle

/-- A firing of `repeat` (R271): `eat` is what its last emission consumes. -/
def repeatFire (t : TaskState) (v count : Dword) (tag : BitVec 7) (eat : Fire → Fire) : Plan :=
  let left := (t.repeatLeft).getD count.toNat
  if left == 0 then .fire (eat { task := { t with repeatLeft := none } })
  else
    let f := emit t [] ⟨v, tag, false⟩ { t with repeatLeft := if left == 1 then none else some (left - 1) }
    .fire (if left == 1 then eat f else f)

/-! ### Passes (R261, R271, R281, R282) -/

/-- The extents and strides of an `agen` layout. -/
def Elem.slotAt (e : Elem) (k : Nat) : Dword := Map.get 0 e.frame k

/-- Words of a pass: K[31:0] for `count`, the product of the extents for `agen`. -/
def passLength (e : Elem) (t : TaskState) (op : FuOp) : Nat :=
  let o := taskOff t.word 0
  if op == .agen then ((List.range 4).map fun i => (e.slotAt (o + 1 + i)).toNat).foldl (· * ·) 1 else t.k.toNat % 2 ^ 32

/-- The k-th token of a pass. -/
def passWord (e : Elem) (t : TaskState) (op : FuOp) (k : Nat) : Dword :=
  if op == .agen then
    let o := taskOff t.word 0
    let ext (i : Nat) := (e.slotAt (o + 1 + i)).toNat
    let st (i : Nat) := e.slotAt (o + 5 + i)
    let i0 := k % ext 0
    let i1 := k / ext 0 % ext 1
    let i2 := k / (ext 0 * ext 1) % ext 2
    let i3 := k / (ext 0 * ext 1 * ext 2)
    e.slotAt o + BitVec.ofNat 64 i0 * st 0 + BitVec.ofNat 64 i1 * st 1 + BitVec.ofNat 64 i2 * st 2 + BitVec.ofNat 64 i3 * st 3
  else BitVec.ofNat 64 k

/-- The next firing of a pass that stands at position k. -/
def passFire (e : Elem) (t : TaskState) (op : FuOp) (k : Nat) : Plan :=
  let len := passLength e t op
  let mark := (taskVar t.word).testBit 0
  if k < len then
    let last := k + 1 == len && !mark
    .fire { emit t [] ⟨passWord e t op k, 0, false⟩ { t with pass := if last then none else some ⟨k + 1⟩ } with passDone := last }
  else if mark then .fire { emit t [] (marker 0) { t with pass := none } with passDone := true }
  else .fire { task := { t with pass := none }, passDone := true }

/-- `count` and `agen`. `head` is the head of i1 in channel mode. -/
def leafPlan (e : Elem) (t : TaskState) (op : FuOp) (head : Option Token) : Plan :=
  match t.pass with
  | some p => passFire e t op p.pos
  | none =>
    match if op == .agen && taskIn t.word 1 < 8 && (taskVar t.word).testBit 1 then head else none with
    | some x =>
      if x.eos then .fire (emit t [1] (marker 0) t)
      else if 8 < x.data.toNat / 2 ^ 60 then .block 4 0 0
      else .fire { eat := [1], task := t, slot := some (taskOff t.word 0 + x.data.toNat / 2 ^ 60, (x.data.setWidth 60).signExtend 64) }
    | none =>
      if t.permits == 0 then .idle
      else
        let t' := { t with permits := t.permits - 1 }
        if op == .agen && passLength e t op == 0 then .block 4 0 0 else passFire e t' op 0

/-! ### Channel mode (R270-R272) -/

/-- A firing that consumes markers and emits one on each output. -/
def markerFire (t : TaskState) (eat : List Nat) (tag : BitVec 7) : Plan := .fire (emit t eat (marker tag) t)

/-- `acc` in channel mode (R271, R272). -/
def accPlan (t : TaskState) (h0 h1 : Option (Token × Nat)) : Plan :=
  let w := t.word
  let out (eat : List Nat) (tag : BitVec 7) : Fire := emit t eat ⟨t.sum, tag, false⟩ { t with sum := 0 }
  let one : Option (Nat × Token) :=
    match h0, h1 with
    | some a, some b => if a.2 ≤ b.2 then some (0, a.1) else some (1, b.1)
    | some a, none => some (0, a.1)
    | none, some b => some (1, b.1)
    | none, none => none
  match if t.owesMarker then h0.map (fun a => (0, a.1)) else one with
  | none => .idle
  | some (0, x) =>
    if x.eos then
      if t.owesMarker then .fire (emit t (if taskIn w 0 < 8 then [0] else []) (marker x.tag) { t with owesMarker := false })
      else
        let f := out [] x.tag
        .fire { f with task := { f.task with owesMarker := true } }
    else .fire { eat := if taskIn w 0 < 8 then [0] else [], task := { t with sum := accAdd (taskVar w) (taskLanes w) t.sum x.data } }
  | some (_, x) =>
    let eat := if taskIn w 1 < 8 then [1] else []
    if x.eos then markerFire t eat x.tag else .fire (out eat x.tag)

/-- What a task of an element in channel mode can do, apart from the room on its outputs. -/
def Inst.channelPlan (n : Inst) (x y : Nat) (e : Elem) (t : TaskState) (op : FuOp) (fc free : Nat) : Plan :=
  let w := t.word
  let hd (i : Nat) : Option (Token × Nat) :=
    if taskIn w i < 8 then n.inHead x y (taskIn w i) fc else if taskIn w i == 8 then some (⟨t.k, 0, false⟩, 0) else none
  let chans := taskChans w
  let data (i : Nat) : Dword := match hd i with | some a => a.1.data | none => 0
  let eos (i : Nat) : Bool := match hd i with | some a => a.1.eos | none => false
  let tagOf (ins : List Nat) : BitVec 7 := match ins with | i :: _ => (match hd i with | some a => a.1.tag | none => 0) | [] => 0
  let ready (ins : List Nat) : Bool := ins.all fun i => (hd i).isSome
  let aligned (ins : List Nat) (k : Plan) : Plan :=
    let cs := ins.filter fun i => chans.contains i
    if !ready ins then .idle
    else if !cs.isEmpty && cs.all eos then markerFire t cs (tagOf cs)
    else if cs.any eos then .block 1 0 0
    else k
  let go (ins : List Nat) : Plan := n.effect x y t op data (tagOf (ins.filter fun i => chans.contains i)) free
  match op with
  | .acc => accPlan t (hd 0) (hd 1)
  | .merge =>
    if (hd 2).isNone then .idle
    else if eos 2 then aligned [0, 1, 2] .idle
    else
      let ins := if data 2 != 0 then [0, 2] else [1, 2]
      aligned ins (go ins)
  | .repeat =>
    aligned [0, 1] (repeatFire t (data 0) (data 1) (tagOf chans) fun f => { f with eat := chans })
  | .count => leafPlan e t op none
  | .agen => leafPlan e t op ((hd 1).map (·.1))
  | .tagck =>
    if !ready [0] then .idle
    else if eos 0 then markerFire t chans (tagOf chans)
    else go [0]
  | _ => aligned (fuInputs op (taskVar w)) (go (fuInputs op (taskVar w)))

/-! ### Frame mode (R273) -/

/-- Slot of an input of a task in a frame. -/
def frameSlot (e : Elem) (t : TaskState) (f i : Nat) : Nat := f * 2 ^ e.s + taskOff t.word i

/-- The fc in which the last slot of a frame that a task needs was set, when all of them were present at the start of
this fc. -/
def Elem.frameReady (e : Elem) (t : TaskState) (fc f : Nat) : Option Nat :=
  (taskChans t.word).foldl (fun a i =>
    match a, e.present.look (frameSlot e t f i) with
    | some m, some p => if p < fc then some (max m p) else none
    | _, _ => none) (some 0)

/-- There is room for what a firing writes (R270): one token in an fc on an outgoing vc (R269). -/
def Elem.room (e : Elem) (op : FuOp) (var fc : Nat) (f : Fire) : Bool :=
  (f.outs.map (·.1)).Nodup && f.outs.all fun o => (Map.get {} e.outs o.1).accepts (outCap op var) fc

/-- A plan for which there is room. -/
def Elem.roomy (e : Elem) (op : FuOp) (var fc : Nat) (p : Plan) : Plan :=
  match p with
  | .fire f => if e.room op var fc f then .fire f else .idle
  | p => p

def Plan.fires : Plan → Bool
  | .fire _ => true
  | _ => false
def Plan.acts : Plan → Bool
  | .idle => false
  | _ => true

/-- The firing of a task of an element in frame mode for a frame whose slots are present. -/
def Inst.frameFire (n : Inst) (x y : Nat) (e : Elem) (t : TaskState) (op : FuOp) (fc free f : Nat) : Plan :=
  let w := t.word
  let chans := taskChans w
  let data (i : Nat) : Dword := if taskIn w i == 8 then t.k else e.slotAt (frameSlot e t f i)
  let slots := chans.map fun i => frameSlot e t f i
  let tag := BitVec.ofNat 7 f
  let p := match op with
    | .repeat => repeatFire t (data 0) (data 1) tag fun g => { g with clear := slots }
    | .acc =>
      let t' := { t with sum := accAdd (taskVar w) (taskLanes w) t.sum (data 0) }
      .fire (if taskIn w 1 < 9 then emit t [] ⟨t'.sum, tag, false⟩ { t' with sum := 0 } else { task := t' })
    | _ => n.effect x y t op data tag free
  e.roomy op (taskVar w) fc (match p with
    | .fire g => .fire { g with eat := [], clear := if op == .repeat then g.clear else slots }
    | q => q)

/-- Of the frames that can fire, the firing of the one whose last slot was set earliest, then the lowest (R273). -/
def Inst.firstFrame (n : Inst) (x y : Nat) (e : Elem) (t : TaskState) (op : FuOp) (fc free : Nat) : Plan :=
  ((List.range (256 / 2 ^ e.s)).foldl (fun (a : Nat × Plan) f =>
    match e.frameReady t fc f with
    | some p =>
      if a.2.acts && a.1 ≤ p then a
      else
        let q := n.frameFire x y e t op fc free f
        if q.acts then (p, q) else a
    | none => a) (0, .idle)).2

/-- What a task of an element in frame mode does with the markers that it holds for all its inputs: it emits one; an `acc`
without i1 emits its sum first (R260, R272, R273). -/
def frameMarker (t : TaskState) (op : FuOp) (chans : List Nat) : Fire :=
  if op == .acc && taskIn t.word 1 == 9 && !t.owesMarker then emit t [] ⟨t.sum, 0, false⟩ { t with sum := 0, owesMarker := true }
  else emit t [] (marker 0) { t with owesMarker := false, markers := chans.foldl (fun m i => m.erase i) t.markers }

/-- What a task of an element in frame mode can do. -/
def Inst.framePlan (n : Inst) (x y : Nat) (e : Elem) (t : TaskState) (op : FuOp) (fc free : Nat) : Plan :=
  let chans := taskChans t.word
  let none_ (i : Nat) : Bool := (List.range (256 / 2 ^ e.s)).all fun f => (e.present.look (frameSlot e t f i)).isNone
  if op == .count || op == .agen then e.roomy op (taskVar t.word) fc (leafPlan e t op none)
  else if !chans.isEmpty && chans.all (fun i => t.markers.contains i && none_ i) then e.roomy op (taskVar t.word) fc (.fire (frameMarker t op chans))
  else n.firstFrame x y e t op fc free

/-! ### Controllers (R280, R281) -/

/-- The children of a controller entry, in entry order. -/
def Inst.children (n : Inst) (k : Nat) : List Nat := (List.range n.ctls.length).filter fun j => (match n.ctls[j]? with | some c => c.parent == some k | none => false)

/-- The controller entry of a task or of a tile. -/
def Inst.ctlOf (n : Inst) (x y : Nat) (tile : Bool) (task : Nat) : Option Nat :=
  let k := (n.ctls.takeWhile fun c => !(c.x == x && c.y == y && c.tile == tile && c.task == task)).length
  if k < n.ctls.length then some k else none

/-- The children that take their next permit now (R281): N iterations, depth D, or all together. -/
def permitsDue (c : Ctl) (kids : List Nat) (N D : Nat) (together : Bool) : List Nat :=
  let issued (j : Nat) := Map.get 0 c.issued j
  let done (j : Nat) := Map.get 0 c.done j
  let last := kids.getLast?.getD 0
  if together then
    let i := match kids with | j :: _ => issued j | [] => N
    if i < N && kids.all (fun j => issued j == i && done j == i) then kids else []
  else
    (List.range kids.length).filterMap fun q =>
      match kids[q]? with
      | none => none
      | some j =>
        let i := issued j
        let before := match q with | 0 => decide (i - done last < D) | q + 1 => (match kids[q]? with | some p => decide (i < done p) | none => false)
        if i < N && done j == i && before then some j else none

/-- A controller node's next act: permits to children, or done to its parent. -/
structure CtlAct where
  node : Nat
  permits : List Nat
  done : Bool

def Inst.ctlPlan (n : Inst) (x y task : Nat) (t : TaskState) (op : FuOp) : Option CtlAct :=
  match n.ctlOf x y false task with
  | none => none
  | some k =>
    match n.ctls[k]? with
    | none => none
    | some c =>
      if !c.running then none
      else
        let kids := n.children k
        let N := t.k.toNat % 2 ^ 32
        let due := permitsDue c kids N (if op == .ctlPipe then taskVar t.word % 16 else 1) (op == .ctlStream)
        let finished := if op == .ctlStream then kids.all (fun j => Map.get 0 c.done j == N) else Map.get 0 c.done (kids.getLast?.getD 0) == N
        if !due.isEmpty then some ⟨k, due, false⟩
        else if finished then some ⟨k, [], true⟩
        else none

/-! ### The choice of the task (R270) -/

/-- The instance's tasks can fire at all: it runs or runs down, and no stage swap is under way (R276, R360). -/
def Inst.live (n : Inst) : Bool := (n.state == .running || n.state == .draining) && n.nextStage.isNone

def isCtl (op : FuOp) : Bool := op == .ctlSeq || op == .ctlPipe || op == .ctlStream

/-- What a task can do in this fc. -/
def Inst.plan (n : Inst) (x y task fc free : Nat) : Plan :=
  let e := n.elem x y
  match e.tasks[task]? with
  | none => .idle
  | some t =>
    match taskFu t.word with
    | none => .idle
    | some op =>
      if !n.live || e.blocked || e.lastFc == some fc || taskStage t.word != n.stage then .idle
      else if isCtl op then (match n.ctlPlan x y task t op with | some _ => .fire { task := t } | none => .idle)
      else
        if e.frameMode then n.framePlan x y e t op fc free else e.roomy op (taskVar t.word) fc (n.channelPlan x y e t op fc free)

/-- Of the tasks that can fire, the one that fired least recently fires, then the lower index (R270). -/
def Inst.first (n : Inst) (x y task fc free : Nat) : Bool :=
  let e := n.elem x y
  let when_ (k : Nat) : Nat := match e.tasks[k]? with | some t => (match t.lastFired with | some f => f + 1 | none => 0) | none => 0
  (List.range e.tasks.length).all fun k =>
    k == task || !(n.plan x y k fc free).fires || when_ task < when_ k || (when_ task == when_ k && task < k)

/-- Any task of the instance can act. -/
def Inst.canFire (n : Inst) (fc free : Nat) : Bool :=
  n.elems.any fun e => (List.range e.2.tasks.length).any fun k => (n.plan (e.1 % 128) (e.1 / 128) k fc free).acts

/-- A leaf ends a pass: it reports done (R281). -/
def Inst.leafReports (n : Inst) (x y : Nat) (tile : Bool) (task fc : Nat) : Inst :=
  if n.ctls.isEmpty then
    let id := 16 * ekey x y + (if tile then 8 else task)
    { n with leafDone := if n.leafDone.contains id then n.leafDone else id :: n.leafDone }
  else match n.ctlOf x y tile task with
    | none => n
    | some k => match n.ctls[k]? with
      | none => n
      | some c => { n with ctls := setNth n.ctls k { c with doneAt := c.doneAt ++ [fc + 2] } }

/-- A firing happens. -/
def Inst.fire (n : Inst) (x y task fc : Nat) (op : FuOp) (f : Fire) : Inst :=
  let e := n.elem x y
  let lat := fuLatency op (taskVar f.task.word)
  let n := f.eat.foldl (fun n i => match n.input x y (taskIn f.task.word i) with | some b => n.popBranch b.1 b.2.1 fc | none => n) n
  let outs := f.outs.foldl (fun m o => m.put o.1 ((Map.get {} m o.1).push o.2 fc (fc + lat))) e.outs
  let present := f.clear.foldl (fun m k => m.del k) e.present
  let frame := match f.slot with | some s => Map.set 0 e.frame s.1 s.2 | none => e.frame
  let e := { e with outs := outs, present := present, frame := frame, lastFc := some fc, tasks := setNth e.tasks task { f.task with lastFired := some fc } }
  let n := { n.setElem x y e with lastFire := some fc }
  let n := match f.word with
    | some w => let t := n.tile x y; n.setTile x y { t with words := Map.set 0 t.words w.1 w.2 }
    | none => n
  if f.passDone then n.leafReports x y false task fc else n

/-- A controller node's act happens: permits take 2 fc, and so does a done report (R280). The root's done is the
instance's. -/
def Inst.ctlFire (n : Inst) (x y task fc : Nat) (a : CtlAct) : Inst :=
  let e := n.elem x y
  let e := { e with lastFc := some fc, tasks := e.tasks.mapIdx fun k t => if k == task then { t with lastFired := some fc } else t }
  let n := { n.setElem x y e with lastFire := some fc }
  match n.ctls[a.node]? with
  | none => n
  | some c =>
    if a.done then
      let c := { c with running := false, issued := [], done := [], doneAt := if c.parent.isSome then c.doneAt ++ [fc + 2] else c.doneAt }
      { n with ctls := setNth n.ctls a.node c, rootDone := n.rootDone || c.parent.isNone }
    else
      let c := { c with issued := a.permits.foldl (fun m j => m.put j (Map.get 0 m j + 1)) c.issued }
      let ctls := a.permits.foldl (fun cs j => match cs[j]? with | some d => setNth cs j { d with permitAt := some (fc + 2) } | none => cs) (setNth n.ctls a.node c)
      { n with ctls := ctls }

end Sys2Proof.Machine
end

