-- ==== Sys2Proof/Machine/Image.lean ====
section
/-! DEFINITION. The region image (R256-R266, R280): its tables, the checks of loading, and the instance, ports and
sequencers that it configures. -/
namespace Sys2Proof.Machine

/-- `n` bytes of an image at an offset, little-endian. -/
def imgAt (img : List Byte) (off n : Nat) : Nat := leValue ((img.drop off).take n)

/-- A part lies inside the image. -/
def imgHas (img : List Byte) (off n : Nat) : Bool := off + n ≤ img.length

/-- A die section entry (R257). -/
structure Section where
  patterns : Nat
  npat : Nat
  routes : Nat
  nroute : Nat
  ports : Nat
  nport : Nat
  seqs : Nat
  nseq : Nat
  ctls : Nat
  nctl : Nat
  deriving DecidableEq, Repr

def imgSection (img : List Byte) (k : Nat) : Section :=
  let o := imgAt img 16 4 + 32 * k
  { patterns := imgAt img o 4, npat := imgAt img (o + 4) 4, routes := imgAt img (o + 8) 4, nroute := imgAt img (o + 12) 4, ports := imgAt img (o + 16) 4, nport := imgAt img (o + 20) 1, nseq := imgAt img (o + 21) 1, nctl := imgAt img (o + 22) 2, seqs := imgAt img (o + 24) 4, ctls := imgAt img (o + 28) 4 }

/-- The header and the die table are in order (R256, R257). -/
def imgHeaderOk (img : List Byte) (cols rows dies : Nat) : Bool :=
  let dt := imgAt img 16 4
  let et := imgAt img 20 4
  imgAt img 0 4 == 0x47584E41 && imgAt img 4 2 == 1 && imgAt img 6 1 == cols && imgAt img 7 1 == rows &&
  imgAt img 8 1 == dies && imgAt img 9 1 ≤ 16 && imgAt img 10 2 == 0 && imgAt img 24 8 == 0 && imgAt img 12 4 == img.length &&
  dt % 8 == 0 && et % 8 == 0 && imgHas img dt (32 * dies) && imgHas img et (8 * imgAt img 9 1)

def Section.ok (c : Section) (img : List Byte) : Bool :=
  c.nport ≤ 64 && c.nseq ≤ 32 && c.nctl ≤ 256 && c.patterns % 8 == 0 && c.routes % 8 == 0 && c.ports % 8 == 0 && c.seqs % 8 == 0 && c.ctls % 8 == 0 &&
  imgHas img c.patterns 0 && imgHas img c.routes 0 && imgHas img c.ports (16 * c.nport) && imgHas img c.seqs (32 * c.nseq) && imgHas img c.ctls (8 * c.nctl) && (c.nctl != 0 || c.ctls == 0)

/-! ### Patterns (R258-R262) -/

structure Pattern where
  kind : Nat
  rects : List (Nat × Nat × Nat × Nat)
  words : List Dword
  deriving DecidableEq, Repr

/-- The pattern records, or nothing on a structural error. -/
def imgPatterns (img : List Byte) (cols rows n off : Nat) : Option (List Pattern) :=
  match n with
  | 0 => some []
  | n + 1 =>
    let nr := imgAt img (off + 2) 2
    let nw := imgAt img (off + 4) 4
    let w := off + 16 + roundUp (4 * nr) 8
    if !imgHas img off 16 || nr == 0 || 4096 < nr || !imgHas img w (8 * nw) then none
    else
      let rects := (List.range nr).map fun i => let o := off + 16 + 4 * i; (imgAt img o 1, imgAt img (o + 1) 1, imgAt img (o + 2) 1, imgAt img (o + 3) 1)
      if rects.any fun r => r.2.2.1 == 0 || r.2.2.2 == 0 || 16 * cols < r.1 + r.2.2.1 || 16 * rows < r.2.1 + r.2.2.2 then none
      else
        let bad := imgAt img (off + 1) 1 != 0 || imgAt img (off + 8) 8 != 0
        let p : Pattern := { kind := if bad then 2 else imgAt img off 1, rects := rects, words := (List.range nw).map fun i => BitVec.ofNat 64 (imgAt img (w + 8 * i) 8) }
        (imgPatterns img cols rows n (w + 8 * nw)).map fun t => p :: t

/-- An operation may use two 32-bit lanes (R195, R260). -/
def lanesAllowed (op : FuOp) (var : Nat) : Bool :=
  match op with
  | .iadd => true | .isub => true | .imul => true | .imad => true | .and => true | .or => true | .xor => true
  | .shl => true | .shr => true | .cmp => !var.testBit 3 | .acc => var % 4 == 1
  | _ => false

/-- The variant field and K are within R261. -/
def variantOk (op : FuOp) (var : Nat) (k : Dword) : Bool :=
  match op with
  | .f8dot4 => var < 2
  | .shr => var < 2
  | .cmp => var < 32 && (var % 8 < 6 || var.testBit 3) && !(var.testBit 3 && var.testBit 4)
  | .acc => var < 4
  | .count => var < 2
  | .agen => var < 4
  | .tag => var < 2 && (var == 0 || (1 ≤ k.toNat && k.toNat ≤ 128))
  | .tagck => var == 0 && 1 ≤ k.toNat && k.toNat ≤ 128
  | .hash => 1 ≤ var && var ≤ 11
  | .owner => var ≤ 10
  | .ctlPipe => 1 ≤ var && var ≤ 15 && k.toNat % 2 ^ 32 != 0
  | .ctlSeq => var == 0 && k.toNat % 2 ^ 32 != 0
  | .ctlStream => var == 0 && k.toNat % 2 ^ 32 != 0
  | _ => var == 0

/-- An attachment element, to which a memory tile is attached (R252). -/
def attaches (x y : Nat) : Bool := x % 16 == 0 && y % 4 == 0

/-- A task word and its constant are legal at an element (R260, R261, R266). -/
def taskOk (x y : Nat) (frame : Bool) (s : Nat) (w k : Dword) : Bool :=
  match taskFu w with
  | none => false
  | some op =>
    let ins := fuInputs op (taskVar w)
    (List.range 3).all (fun i => if ins.contains i then taskIn w i ≤ 8 || (op == .acc && i == 1 && taskIn w i == 9) else taskIn w i == 9) &&
    taskOut w 0 ≤ 8 && taskOut w 1 ≤ 8 &&
    (!taskLanes w || lanesAllowed op (taskVar w)) && variantOk op (taskVar w) k &&
    (List.range 3).all (fun i => if frame then taskOff w i < 2 ^ s else taskOff w i == 0) &&
    (!(op == .ldt || op == .stt || op == .owner) || attaches x y)

def noRepeat (xs : List Nat) : Bool :=
  match xs with
  | [] => true
  | x :: t => !t.contains x && noRepeat t

/-- The element that an FU pattern configures at (x, y), or nothing when a word of it is illegal (R259, R260). -/
def elemOfPattern (x y : Nat) (p : Pattern) : Option Elem :=
  let c := (p.words.headD 0).toNat
  let frame := c.testBit 61
  let T := bitsAt c 58 3 + 1
  let s := bitsAt c 54 4
  let first := bitsAt c 46 8
  let n := bitsAt c 38 8
  let word (i : Nat) : Dword := (p.words[i]?).getD 0
  let tasks := (List.range T).map fun i => ({ word := word (1 + 2 * i), k := word (2 + 2 * i) } : TaskState)
  let ins := tasks.flatMap fun t => (taskChans t.word).map fun i => taskIn t.word i
  let outs := tasks.flatMap fun t => (taskVcs t.word).eraseDups
  if p.kind != 0 || c / 2 ^ 62 != 0 || c % 2 ^ 37 != 0 || p.words.length != 1 + 2 * T + n || 256 < first + n ||
    (if frame then s < 1 || 8 < s else s != 0) || tasks.any (fun t => !taskOk x y frame s t.word t.k) || !noRepeat ins || !noRepeat outs then none
  else
    let frames := (List.range n).foldl (fun m i => Map.set 0 m (first + i) (word (1 + 2 * T + i))) ([] : Map Dword)
    let present := if c.testBit 37 then (List.range n).foldl (fun m i => Map.put m (first + i) 0) ([] : Map Nat) else []
    some { frameMode := frame, s := s, tasks := tasks, frame := frames, present := present }

/-- The memory tile that a tile pattern configures (R262). -/
def tileOfPattern (p : Pattern) : Option Tile :=
  let c := (p.words.headD 0).toNat
  let base := bitsAt c 45 15
  let n := bitsAt c 32 13
  let m := p.words.length - 1
  if p.kind != 1 || c / 2 ^ 62 != 1 || bitsAt c 60 2 == 3 || c % 2 ^ 20 != 0 || 4095 < n || 24575 < base + n || p.words.isEmpty || 24576 < base + m then none
  else
    let words := (List.range m).foldl (fun w i => Map.set 0 w (base + i) ((p.words[i + 1]?).getD 0)) ([] : Map Dword)
    some { mode := bitsAt c 60 2, base := base, n := n, rep := bitsAt c 24 8, ovc := bitsAt c 21 3, e := c.testBit 20, words := words }

/-- Elements of a list of rectangles. -/
def rectCells (rs : List (Nat × Nat × Nat × Nat)) : List (Nat × Nat) :=
  rs.flatMap fun r => (List.range r.2.2.2).flatMap fun j => (List.range r.2.2.1).map fun i => (r.1 + i, r.2.1 + j)

/-- A load in progress: the instance, and the elements that are blocked. -/
structure Loading where
  inst : Inst
  bad : List (Nat × Nat)

def Loading.block (l : Loading) (x y : Nat) : Loading := { l with bad := l.bad ++ [(x, y)] }

/-- A pattern configures the cells of its rectangles, each as often as they hold it; a cell that an earlier pattern has
configured is blocked (R258, R266). -/
def Loading.pattern (l : Loading) (p : Pattern) : Loading :=
  let old := l.inst
  (rectCells p.rects).foldl (fun l c =>
    let key := ekey c.1 c.2
    if p.kind == 1 then
      if !attaches c.1 c.2 then l
      else match tileOfPattern p with
        | some t => if (old.tiles.look key).isSome then l.block c.1 c.2 else { l with inst := { l.inst with tiles := l.inst.tiles.put key t } }
        | none => l.block c.1 c.2
    else match elemOfPattern c.1 c.2 p with
      | some e => if (old.elems.look key).isSome then l.block c.1 c.2 else { l with inst := { l.inst with elems := l.inst.elems.put key e } }
      | none => l.block c.1 c.2) l

/-! ### Endpoints, ports, sequencers, controllers -/

/-- Endpoint entries (R262); nothing when one is out of limits. -/
def imgEndpoints (img : List Byte) : Option (Map Endpoint) :=
  (List.range (imgAt img 9 1)).foldl (fun m e =>
    let o := imgAt img 20 4 + 8 * e
    let kind := imgAt img o 1
    let dies := imgAt img 8 1
    if 3 < kind || imgAt img (o + 3) 5 != 0 || (kind != 0 && dies ≤ imgAt img (o + 1) 1) || (kind == 3 && dies ≤ imgAt img (o + 2) 1) || (kind != 3 && imgAt img (o + 2) 1 != 0) then none
    else m.map fun m => if kind == 0 then m else m.put e { kind := kind, die := imgAt img (o + 1) 1, die2 := imgAt img (o + 2) 1, credits := if kind == 3 then 64 else 0 }) (some [])

/-- A port binding (R263). -/
structure Binding where
  port : Nat
  flags : Nat
  commands : List (BitVec 128)
  x : Nat
  y : Nat
  ok : Bool
  deriving DecidableEq, Repr

/-- A command that a region image may hold: all that R70 accepts, but for `sdrain` (R191). -/
def imageCommandOk (w : BitVec 128) : Bool :=
  match decodeStream w with
  | .ok (.sdrain _) => false
  | .ok _ => true
  | .error _ => false

def imgBinding (img : List Byte) (o : Nat) : Binding :=
  let n := imgAt img (o + 2) 2
  let at_ := imgAt img (o + 4) 4
  let cmds := (List.range (min n 16)).map fun i => BitVec.ofNat 128 (imgAt img (at_ + 16 * i) 16)
  { port := imgAt img o 1, flags := imgAt img (o + 1) 1, commands := cmds, x := imgAt img (o + 8) 1, y := imgAt img (o + 9) 1, ok := imgAt img o 1 < 64 && imgAt img (o + 1) 1 < 4 && imgAt img (o + 10) 6 == 0 && cmds.all imageCommandOk }

/-- A sequencer entry (R264): its number and state, or nothing when a field is out of limits. `arg` goes to k1 where
the image starts it with 0 (R255). -/
def imgSequencer (img : List Byte) (o inst : Nat) (arg : Dword) : Option (Nat × Seq) :=
  let n := imgAt img o 1
  let po := imgAt img (o + 4) 4
  let nw := imgAt img (o + 8) 2
  let lb := imgAt img (o + 10) 2
  let lo := imgAt img (o + 12) 4
  let ko := imgAt img (o + 16) 4
  if 31 < n || imgAt img (o + 1) 3 != 0 || nw == 0 || 1024 < nw || 4096 < lb || lb % 8 != 0 || imgAt img (o + 24) 8 != 0 ||
    !imgHas img po (4 * nw) || !imgHas img lo lb || (ko != 0 && !imgHas img ko 256) then none
  else
    let k (i : Nat) : Dword := if ko == 0 || i == 0 then 0 else BitVec.ofNat 64 (imgAt img (ko + 8 * i) 8)
    let ks := (List.range 32).foldl (fun m i => Map.set 0 m i (if i == 1 && k 1 == 0 then arg else k i)) ([] : Map Dword)
    let store := (List.range lb).foldl (fun m i => Map.set 0 m i (BitVec.ofNat 8 (imgAt img (lo + i) 1))) ([] : Map Byte)
    some (n, { inst := inst, k := ks, pc := imgAt img (o + 20) 4, prog := (List.range nw).map fun i => BitVec.ofNat 32 (imgAt img (po + 4 * i) 4), store := store })

/-- A controller entry (R280). -/
def imgCtl (img : List Byte) (o : Nat) : Ctl :=
  let p := imgAt img (o + 4) 2
  { x := imgAt img o 1, y := imgAt img (o + 1) 1, tile := imgAt img (o + 2) 1 == 1, task := imgAt img (o + 3) 1, parent := if p == 0xFFFF then none else some p }

/-- From an entry the root is reached. -/
def Inst.reachesRoot (n : Inst) (fuel k : Nat) : Bool :=
  match fuel with
  | 0 => false
  | fuel + 1 => match n.ctls[k]? with
    | none => false
    | some c => match c.parent with
      | none => true
      | some p => n.reachesRoot fuel p

/-- The operation of a task of the instance. -/
def Inst.opAt (n : Inst) (x y task : Nat) : Option FuOp := ((n.elem x y).tasks[task]?).bind fun t => taskFu t.word

/-- The controller entry is as R280 requires. -/
def Inst.ctlOk (n : Inst) (k : Nat) (c : Ctl) : Bool :=
  let kids := n.children k
  let op := if c.tile then none else n.opAt c.x c.y c.task
  n.reachesRoot 257 k && kids.length ≤ 16 &&
  (if kids.isEmpty then (if c.tile then c.task == 0 && (n.tiles.look (ekey c.x c.y)).any (fun t => t.mode == 2) else op == some .agen || op == some .count)
   else match op with | some o => isCtl o | none => false)

/-! ### Routes (R265) -/

/-- The steps of a branch's path: the links it uses, from an element on; nothing when it leaves the region. -/
def pathLinks (img : List Byte) (o cols rows h j x y : Nat) : Option (List (Nat × Nat × Nat) × Nat × Nat) :=
  match h with
  | 0 => some ([], x, y)
  | h + 1 =>
    let d := imgAt img (o + 8 + j / 4) 1 / 4 ^ (j % 4) % 4
    let nx := match d with | 1 => some (x + 1) | 3 => if x == 0 then none else some (x - 1) | _ => some x
    let ny := match d with | 0 => some (y + 1) | 2 => if y == 0 then none else some (y - 1) | _ => some y
    match nx, ny with
    | some nx, some ny =>
      if 16 * cols ≤ nx || 16 * rows ≤ ny then none
      else (pathLinks img o cols rows h (j + 1) nx ny).map fun r => ((x, y, d) :: r.1, r.2)
    | _, _ => none

/-- What the checks of a route need: the section, the endpoints and the sequencers. -/
structure RouteCtx where
  cols : Nat
  rows : Nat
  sec : Nat
  eps : Map Endpoint
  seqs : List Nat

/-- What a source names (R265): the tile attached at (x, y), any port of the die (LOG 108), an endpoint whose region side
sends here, or a sequencer of the image. -/
def RouteCtx.sourceOk (r : RouteCtx) (kind number x y : Nat) : Bool :=
  match kind with
  | 0 => number == 0
  | 1 => number == 0 && attaches x y
  | 2 => number < 64
  | 3 => (r.eps.look number).any fun e => (e.kind == 1 && e.die == r.sec) || (e.kind == 3 && e.die2 == r.sec)
  | 4 => number < 64
  | 5 => r.seqs.contains number
  | _ => false

/-- What a branch's end names (R265; LOG 108). -/
def RouteCtx.destOk (r : RouteCtx) (kind number x y : Nat) : Bool :=
  match kind with
  | 0 => number == 0
  | 1 => number == 0 && attaches x y
  | 2 => number < 64
  | 3 => (r.eps.look number).any fun e => (e.kind == 2 || e.kind == 3) && e.die == r.sec
  | 4 => r.seqs.contains number
  | _ => false

/-- A branch of a route whose header starts at (x, y): the branch, its links with their vc, and whether it is valid. -/
def imgBranch (img : List Byte) (r : RouteCtx) (o x y : Nat) : Branch × List (Nat × Nat × Nat × Nat) × Bool :=
  let h := imgAt img (o + 5) 1
  let local_ := imgAt img (o + 6) 1 == 1
  let bx := imgAt img (o + 2) 1
  let by_ := imgAt img (o + 3) 1
  let vc := imgAt img (o + 4) 1
  let b : Branch := { kind := imgAt img o 1, number := imgAt img (o + 1) 1, x := bx, y := by_, vc := vc, hops := List.replicate h {} }
  let ok := r.destOk b.kind b.number bx by_ && vc < 8 && 1 ≤ h && h ≤ 64 && imgAt img (o + 6) 1 ≤ 1 && imgAt img (o + 7) 1 == 0
  if local_ then (b, [], ok && h == 1 && bx == x && by_ == y && imgAt img (o + 8) 16 == 0)
  else match pathLinks img o r.cols r.rows h 0 x y with
    | some p => ({ b with dirs := p.1.map fun l => l.2.2 }, p.1.map fun l => (l.1, l.2.1, l.2.2, vc), ok && p.2.1 == bx && p.2.2 == by_)
    | none => (b, [], false)

/-- A destination that only one branch may have. -/
def Branch.target (b : Branch) : Nat × Nat × Nat × Nat × Nat :=
  match b.kind with
  | 0 => (0, 0, b.x, b.y, b.vc)
  | 1 => (1, 0, b.x, b.y, 0)
  | 4 => (4, b.number, 0, 0, b.vc)
  | k => (k, b.number, 0, 0, 0)

/-- The routes so far, their links and destinations, and the elements of invalid ones. -/
structure Routing where
  routes : List Route := []
  links : List (Nat × Nat × Nat × Nat) := []
  ends : List (Nat × Nat × Nat × Nat × Nat) := []
  bad : List (Nat × Nat) := []

/-- The route records; nothing on a structural error. -/
def imgRoutes (img : List Byte) (r : RouteCtx) (n off : Nat) (a : Routing) : Option Routing :=
  match n with
  | 0 => some a
  | n + 1 =>
    let nb := imgAt img (off + 5) 1
    if !imgHas img off (8 + 24 * nb) || 8 < nb then none
    else
      let x := imgAt img (off + 2) 1
      let y := imgAt img (off + 3) 1
      let kind := imgAt img off 1
      let bs := (List.range nb).map fun i => imgBranch img r (off + 8 + 24 * i) x y
      let route : Route := { kind := kind, number := imgAt img (off + 1) 1, x := x, y := y, vc := imgAt img (off + 4) 1, branches := bs.map (·.1) }
      let links := bs.flatMap fun b => b.2.1
      let ends := bs.map fun b => b.1.target
      let fresh := (a.links ++ links).Nodup && (a.ends ++ ends).Nodup
      let ok := r.sourceOk kind route.number x y && 1 ≤ nb && route.vc < 8 && imgAt img (off + 6) 2 == 0 && x < 16 * r.cols && y < 16 * r.rows && bs.all (fun b => b.2.2) && fresh
      imgRoutes img r n (off + 8 + 24 * nb) { routes := a.routes ++ [route], links := a.links ++ links, ends := a.ends ++ ends, bad := if ok then a.bad else a.bad ++ [(x, y)] }

/-! ### The whole load (R266) -/

/-- The outcome of a load: a structural error, or the instance with its endpoints, ports and sequencers and the
elements that are blocked. -/
structure Loaded where
  inst : Inst
  eps : Map Endpoint
  binds : List Binding
  seqs : List (Nat × Seq)
  bad : List (Nat × Nat)

/-- Load an image for an instance that the state holds as `n` under `key`. -/
def loadImage (img : List Byte) (n : Inst) (key dies : Nat) (arg : Dword) : Option Loaded :=
  let c := imgSection img n.section_
  if !imgHeaderOk img n.cols n.rows dies || !c.ok img then none
  else match imgEndpoints img, imgPatterns img n.cols n.rows c.npat c.patterns with
    | some eps, some pats =>
      let binds := (List.range c.nport).map fun i => imgBinding img (c.ports + 16 * i)
      let short := (List.range c.nport).any fun i => let o := c.ports + 16 * i; 16 < imgAt img (o + 2) 2 || !imgHas img (imgAt img (o + 4) 4) (16 * imgAt img (o + 2) 2)
      let seqs := (List.range c.nseq).map fun i => imgSequencer img (c.seqs + 32 * i) key arg
      let nums := seqs.filterMap fun q => q.map (·.1)
      let ctx : RouteCtx := { cols := n.cols, rows := n.rows, sec := n.section_, eps := eps, seqs := nums }
      if short || seqs.any (·.isNone) || !noRepeat nums || nums.any (fun q => !binds.any fun b => b.port / 2 == q) then none
      else match imgRoutes img ctx c.nroute c.routes {} with
        | none => none
        | some rt =>
          let l := pats.foldl Loading.pattern ⟨n, []⟩
          let ctls := (List.range c.nctl).map fun i => imgCtl img (c.ctls + 8 * i)
          let m := { l.inst with routes := rt.routes, ports := binds.map fun (b : Binding) => (b.port, b.flags, b.x, b.y), seqs := nums, ctls := ctls }
          let stages := (m.elems.flatMap fun e => e.2.tasks.map fun t => taskStage t.word + 1).foldl max 1
          let badBinds := (binds.mapIdx fun i b => (i, b)).filterMap fun e => if e.2.ok && !(binds.take e.1).any (fun b => b.port == e.2.port) then none else some (e.2.x, e.2.y)
          let roots := (ctls.filter fun c => c.parent.isNone).length
          let badCtls := (ctls.mapIdx fun i c => (i, c)).filterMap fun e => if m.ctlOk e.1 e.2 && roots == 1 && imgAt img (c.ctls + 8 * e.1 + 2) 1 ≤ 1 && imgAt img (c.ctls + 8 * e.1 + 6) 2 == 0 then none else some (e.2.x, e.2.y)
          some { inst := { m with stages := stages }, eps := eps, binds := binds, seqs := seqs.filterMap id, bad := l.bad ++ rt.bad ++ badBinds ++ badCtls }
    | _, _ => none

/-- The blocked element that a record names: the lowest (y, x). -/
def lowestCell (xs : List (Nat × Nat)) : Option (Nat × Nat) :=
  xs.foldl (fun a c => match a with | none => some c | some b => if c.2 < b.2 || (c.2 == b.2 && c.1 < b.1) then some c else some b) none

end Sys2Proof.Machine
end

