-- ==== Sys2Proof/Machine/StreamShape.lean ====
section
/-! DEFINITION. The shape of a stream (R68, R191-R194): which elements a command reads or writes, and where. -/
namespace Sys2Proof

/-- Flags E and C (R191), and the flags of R192. -/
def StreamCmd.flagE (f : StreamCmd) : Bool := f.flags.getLsbD 15
def StreamCmd.flagC (f : StreamCmd) : Bool := f.flags.getLsbD 14

/-- First byte: base × 512 plus the start offset of the pattern (R68, R193). -/
def StreamCmd.start (f : StreamCmd) : Dword := BitVec.ofNat 64 (512 * f.base.toNat + f.pattern.toNat % 512)

/-- log2 of the element size, as a size in bytes. -/
def StreamCmd.size (f : StreamCmd) : Nat := 2 ^ bitsAt f.pattern.toNat 9 2

/-- Extents of a layout (R193). -/
def extentAt (p lo n : Nat) : Nat := let x := bitsAt p lo n; if x == 0 then 2 ^ n else x

/-- A layout with its strides. -/
structure Lay where
  start : Dword
  size : Nat
  e0 : Nat
  e1 : Nat
  e2 : Nat
  e3 : Nat
  st1 : Dword
  st2 : Dword
  st3 : Dword
  deriving DecidableEq, Repr

/-- The layout of `slin`, `swrite` and `sred`; `strides` are the port's layout registers (R193). -/
def StreamCmd.lay (f : StreamCmd) (strides : Map Dword) : Lay :=
  let p := f.pattern.toNat
  let rank := bitsAt p 11 2 + 1
  let e0 := extentAt p 13 12
  let e1 := if rank < 2 then 1 else extentAt p 25 10
  let e2 := if rank < 3 then 1 else extentAt p 35 7
  let e3 := if rank < 4 then 1 else extentAt p 42 6
  let dense := f.flags.getLsbD 0
  let d1 := e0 * f.size
  { start := f.start, size := f.size, e0 := e0, e1 := e1, e2 := e2, e3 := e3, st1 := if dense then BitVec.ofNat 64 d1 else Map.get 0 strides 0, st2 := if dense then BitVec.ofNat 64 (d1 * e1) else Map.get 0 strides 1, st3 := if dense then BitVec.ofNat 64 (d1 * e1 * e2) else Map.get 0 strides 2 }

def Lay.count (x : Lay) : Nat := x.e0 * x.e1 * x.e2 * x.e3

/-- The address of the k-th element, i0 fastest (R192, R193). -/
def Lay.at (x : Lay) (k : Nat) : Dword :=
  let i0 := k % x.e0
  let i1 := k / x.e0 % x.e1
  let i2 := k / (x.e0 * x.e1) % x.e2
  let i3 := k / (x.e0 * x.e1 * x.e2)
  x.start + BitVec.ofNat 64 (i0 * x.size) + BitVec.ofNat 64 i1 * x.st1 + BitVec.ofNat 64 i2 * x.st2 + BitVec.ofNat 64 i3 * x.st3

/-- Index count of `sidx` and `sgath`, count of `sconst` (R192). -/
def StreamCmd.indexCount (f : StreamCmd) : Nat := bitsAt f.pattern.toNat 11 24
def StreamCmd.constCount (f : StreamCmd) : Nat := bitsAt f.pattern.toNat 11 32
/-- Where the header of `sidx` and `sgath` stands (R194). -/
def StreamCmd.header (f : StreamCmd) : Dword := f.start
/-- The constant of `sconst`, truncated to the element size (R192). -/
def StreamCmd.const (f : StreamCmd) : Nat :=
  (if f.flags.getLsbD 0 then f.base.signExtend 64 else f.base.setWidth 64).toNat % 2 ^ (8 * f.size)

end Sys2Proof

namespace Sys2Proof.Machine

/-- A read of an engine at a physical address inside one line: the value at its home, or at its owner node for an N
page (R117); 0 where the line has yet to come, which the engines ask for first (R237). -/
def State.engineValue (s : State) (pa n : Nat) (near : Bool) : Nat :=
  match s.lineNow (pa / 64) near with
  | some d => lineValue d (pa % 64) n
  | none => 0

/-- The write time that an engine's read of an address sees: none on an N page (R117, R238). -/
def State.engineWts (s : State) (pa : Nat) (n : Bool) : Time := if n then 0 else (s.homeView (pa / 64)).wts

/-- A line that an engine read as by a load takes the load's lease (R228); an N page has none (R117). -/
def State.leaseLine (s : State) (line : Nat) (near : Bool) (rclk lease : Time) : State :=
  if near then s
  else
    let h := s.homeView line
    s.setHome line { h with rts := tmax h.rts (rclk + lease) }

end Sys2Proof.Machine
end

