-- ==== Sys2Proof/Machine/Complete.lean ====
section
/-! DEFINITION. How work ends: the completion of a packet (R220, R240, R322, R331), of a launch (R349) and of a region
(R240, R289, R290), and the region's failure. -/
namespace Sys2Proof.Machine

def State.onQueue (s : State) (q : Nat) (f : Queue → Queue) : State := { s with belfry := { s.belfry with queues := s.belfry.queues.adjust q f } }
def State.onLaunch (s : State) (l : Nat) (f : Launch → Launch) : State := { s with belfry := { s.belfry with launches := s.belfry.launches.adjust l f } }
def State.onRegion (s : State) (r : Nat) (f : Region → Region) : State := { s with annex := { s.annex with regions := s.annex.regions.adjust r f } }
def State.onInst (s : State) (i : Nat) (f : Inst → Inst) : State := { s with annex := { s.annex with insts := s.annex.insts.adjust i f } }
def State.setPort (s : State) (k : Nat) (p : Port) : State := { s with annex := { s.annex with ports := s.annex.ports.put k p } }
def State.onPort (s : State) (k : Nat) (f : Port → Port) : State := { s with annex := { s.annex with ports := s.annex.ports.adjust k f } }
def State.setSeq (s : State) (k : Nat) (q : Seq) : State := { s with annex := { s.annex with seqs := s.annex.seqs.put k q } }

/-- A store of the device at a virtual address of a domain, not crossing a line. -/
def State.storeAt (s : State) (d : Nat) (va : Dword) (bs : List Byte) (clk : Time) : DeviceAccess :=
  match s.trans d va wantStore with
  | .bad _ _ => .bad s
  | .ok pa near => (s.learn d va wantStore).deviceStore pa near bs clk

/-- A LAUNCH record of the Belfry for a packet (R326, R419). -/
def launchRecord (id queue slot domain cause : Nat) (va : Dword) (launch region : Option Nat) (flags : Byte) : FaultRec :=
  { id := id, code := faultLaunch, source := 3, flags := flags, lane := 0xFF, queue := queue, slot := slot, where_ := 0, va := va, detail := BitVec.ofNat 64 cause, core := 0xFFFF, slotNo := 0, incarnation := 0, block := 0, domain := domain, launch := launch, region := region, group := none, job := none, port := none }

def State.raiseLaunch (s : State) (queue slot domain cause : Nat) (va : Dword) (launch region : Option Nat) (flags : Byte) : State :=
  ({ s with nextId := s.nextId + 1 } : State).raise (launchRecord s.nextId queue slot domain cause va launch region flags)

/-! ### What the Belfry owes in memory (R220, R317, R331) -/

/-- The completed count that the next completion raises: the cached one, or what the descriptor of a replaced queue holds
(R318). -/
def State.completedNow (s : State) (q : Queue) : DeviceRead :=
  if q.cached then .done (leBytes 8 q.completed) else s.deviceRead q.domain (q.descriptor + 32) 8 wantLoad

/-- The queue's completed count rises by 1 (R331): the new state, and whether the step is done. -/
def State.countCompleted (s : State) (queue slot : Nat) : State × Bool :=
  match s.belfry.queues.look queue with
  | none => (s, true)
  | some q =>
    let ends (s : State) (n : Nat) : State := s.onQueue queue fun q => { q with completed := n, open_ := q.open_.filter (· != slot) }
    match s.completedNow q with
    | .wait s => (s, false)
    | .bad => (ends s (q.completed + 1), true)
    | .done bs =>
      let n := leValue bs + 1
      match s.storeAt q.domain (q.descriptor + 32) (leBytes 8 n) 0 with
      | .wait s => (s, false)
      | .done s _ => (ends s n, true)
      | .bad s => (ends s n, true)

/-- A step that the Belfry owes is tried: the new state, and whether the step is done. A store that its domain may not make
is left out; a completion barrier that cannot be reached gives a LAUNCH record (R322). -/
def State.pay (s : State) (o : OwedStep) : State × Bool :=
  match o.what with
  | .release lines => (s, lines.all fun l => match s.mem.l2.look l with | some h => !h.dirty | none => true)
  | .store va bs => match s.storeAt o.domain va bs 0 with
    | .wait s => (s, false)
    | .done s _ => (s, true)
    | .bad s => (s, true)
  | .arrive va clk tag slot => match s.deviceArrive o.domain va 1 clk tag with
    | .wait s => (s, false)
    | .done s _ => (s, true)
    | .bad s => (s.raiseLaunch o.queue slot o.domain 80 va none none 0, true)
  | .count slot => s.countCompleted o.queue slot
  | .signal va clk tag report => match s.deviceArrive o.domain va 1 clk tag with
    | .wait s => (s, false)
    | .done s _ => (s, true)
    | .bad s => (match report with | some code => s.serve 12 7 o.domain (code.setWidth 32) 0 | none => s, true)

/-- The steps that are owed are tried in order; one that waits holds back the later ones of its queue. -/
def State.payAll (s : State) : State :=
  s.belfry.owed.foldl (fun s o =>
    let keep (s : State) : State := { s with belfry := { s.belfry with owed := s.belfry.owed ++ [o] } }
    if s.belfry.owed.any fun x => x.queue == o.queue then keep s
    else match s.pay o with
      | (s, true) => s
      | (s, false) => keep s) { s with belfry := { s.belfry with owed := [] } }

/-- The Belfry owes further steps, and tries what it owes. -/
def State.owe (s : State) (xs : List OwedStep) : State := ({ s with belfry := { s.belfry with owed := s.belfry.owed ++ xs } } : State).payAll

/-- An arrival by 1 on a barrier record that is no packet's: made now, or when its line has come. -/
def State.signal (s : State) (domain : Nat) (va : Dword) (clk : Time) (report : Option Byte) : State :=
  ({ s with nextId := s.nextId + 1 } : State).owe [⟨2 ^ 20 + s.nextId, domain, .signal va clk s.nextId report⟩]

/-- A packet completes: with SYS the owners of `remote` lines acknowledge first (R199); then `arrive` on its completion
barrier, if there is one, and then the count (R220, R240, R322, R326, R331). -/
def State.completePacket (s : State) (queue slot domain : Nat) (done : Dword) (clk : Time) (remote : List Nat) : State :=
  let step (w : Owed) : OwedStep := ⟨queue, domain, w⟩
  let s' : State := { s with nextId := s.nextId + 1 }
  s'.owe ((if remote.isEmpty then [] else [step (.release remote)]) ++
    (if done == 0 || done.toNat % 32 != 0 then [] else [step (.arrive done clk s.nextId slot)]) ++ [step (.count slot)])

/-- The wclk that a core's launch carried to the packet of a slot, after its release (R227). -/
def State.carried (s : State) (queue slot : Nat) : Option Time :=
  (s.belfry.starts.find? fun e => e.1 == queue && e.2.1 == slot).map fun e => e.2.2

/-- Start clocks that packets of given slots carried are used up. -/
def State.forgetStarts (s : State) (gone : Nat → Nat → Bool) : State :=
  { s with belfry := { s.belfry with starts := s.belfry.starts.filter fun e => !gone e.1 e.2.1 } }

/-- The head packet of a queue is dispatched: kind 0 in its slot, and the read index rises (R317, R319). -/
def State.dispatchHead (s : State) (queue : Nat) : State :=
  match s.belfry.queues.look queue with
  | none => s
  | some q =>
    match q.packets with
    | [] => s
    | p :: rest =>
      let s := (s.forgetStarts fun q n => q == queue && n == p.slot).onQueue queue fun q => { q with packets := rest, readIndex := p.slot + 1, open_ := q.open_ ++ [p.slot] }
      let step (va : Dword) (bs : List Byte) : OwedStep := ⟨queue, q.domain, .store va bs⟩
      s.owe [step (q.ring + BitVec.ofNat 64 (128 * (p.slot % 2 ^ q.size) + 64)) [0], step (q.descriptor + 24) (leBytes 8 (p.slot + 1))]

/-- Records of a launch or a region that are not delivered yet (R344). -/
def State.owesRecords (s : State) (launch region : Option Nat) : Bool :=
  s.faults.undelivered.any fun r => (launch.isSome && r.launch == launch) || (region.isSome && r.region == region)

/-- With PREV or SERIAL the previous packet of the queue has not completed (R319). -/
def Queue.prevOpen (q : Queue) (p : Packet) : Bool := (p.prev || q.serial) && p.slot != 0 && q.open_.contains (p.slot - 1)

/-- A packet of the slot is in the queue and its turn has not come (R319, R331). -/
def Queue.holdsBack (q : Queue) (slot : Nat) : Bool :=
  match q.packets with
  | p :: rest => (p.slot == slot && q.prevOpen p) || rest.any fun x => x.slot == slot
  | [] => false

/-- A packet that was refused or ended before it was placed completes after the previous packet of its queue, where PREV or
SERIAL holds (R331). -/
def Queue.heldByPrev (q : Queue) (l : Launch) : Bool := (l.prev || q.serial) && l.slot != 0 && q.open_.contains (l.slot - 1)

/-- A launch completes when all its blocks have retired and its records are delivered (R220, R344, R349); one that was
terminated before it was placed completes in its turn (LOG 107). -/
def State.tryLaunch (s : State) (launch : Nat) : State :=
  match s.belfry.launches.look launch with
  | none => s
  | some l =>
    let away := s.faults.saves.any (fun x => x.launch == launch) || s.cores.any fun c => c.2.spilled.any fun g => g.2.launch == launch
    let held := match s.belfry.queues.look l.queue with | some q => q.holdsBack l.slot || q.heldByPrev l | none => false
    if l.blocksLeft != 0 || !(l.terminating || l.placed == l.cohorts) || s.owesRecords (some launch) none || away || held then s
    else
      let s := match s.belfry.queues.look l.queue with
        | some q => (match q.packets with | p :: _ => if p.launch == some launch then s.dispatchHead l.queue else s | [] => s)
        | none => s
      let s := { s with belfry := { s.belfry with launches := s.belfry.launches.del launch } }
      s.completePacket l.queue l.slot l.record.domain l.record.done (tmax l.rmax l.wmax) l.remote

/-! ### Regions -/

/-- Where a region's record stands (R342). -/
def regionWhere (n : Inst) (x y : Nat) : Dword :=
  BitVec.ofNat 64 (n.die + 2 ^ 8 * x + 2 ^ 16 * y + 2 ^ 24 * n.section_ + 2 ^ 32 * n.sx + 2 ^ 40 * n.sy)

/-- A record of a region, with the next name (R342, R344). -/
def State.raiseRegion (s : State) (region : Nat) (n : Inst) (x y : Nat) (code source flags : Byte) (va detail : Dword) (port : Option Nat) : State :=
  match s.annex.regions.look region with
  | none => s
  | some g =>
    ({ s with nextId := s.nextId + 1 } : State).raise { id := s.nextId, code := code, source := source, flags := flags, lane := 0xFF, queue := g.queue, slot := g.slot, where_ := regionWhere n x y, va := va, detail := detail, core := 0xFFFF, slotNo := 0, incarnation := 0, block := 0, domain := g.record.domain, launch := none, region := some region, group := none, job := none, port := port }

/-- Lines in L2 whose memory lies in a range of a domain's addresses (R187, R240). -/
def State.linesIn (s : State) (d va len : Nat) : List Nat :=
  (List.range (len / 65536 + 2)).flatMap fun i =>
    let page := (va / 65536 + i) * 65536
    match s.leafOf d page { kind := 8 } with
    | .inr _ => []
    | .inl x =>
      let base := x.pa page
      (s.mem.l2.filter fun e => base ≤ 64 * e.1 && 64 * e.1 < base + 65536 && va < page + (64 * e.1 - base) + 64 && page + (64 * e.1 - base) < va + len).map (·.1)

/-- OUTPUT_RETIRE: lines of the output ranges leave L2 without being written back, and mts rises (R240). The answer
holds the largest mts left in a slice that held one. -/
def State.retireOutputs (s : State) (d : Nat) (ranges : List (Nat × Nat)) : State × Time :=
  let lines := ranges.flatMap fun r => if r.2 == 0 then [] else s.linesIn d r.1 r.2
  let s := lines.foldl (fun s l => s.evictLine l false 1) s
  (s, lines.foldl (fun t l => tmax t (s.mtsOf (s.mem.slice l))) 0)

/-- REGION_RELEASE of an instance: its squares and ports are free, and the squares keep the configuration (R289, R327,
R328). -/
def State.releaseInst (s : State) (id : Nat) : State :=
  match s.annex.insts.look id with
  | none => s
  | some n =>
    let ports := s.annex.ports.map fun e => if e.2.inst == some id then (e.1, ({} : Port)) else e
    let kept := match s.annex.regions.look n.region with
      | some g => if n.state == .loading || n.state == .queued then [] else [{ image := g.record.image, section_ := n.section_, domain := g.record.domain, die := n.die, sx := n.sx, sy := n.sy, cols := n.cols, rows := n.rows, stamp := n.stamp, elems := n.elems, tiles := n.tiles, routes := n.routes : Cached }]
      | none => []
    { s with annex := { s.annex with insts := s.annex.insts.del id, ports := ports, seqs := s.annex.seqs.filter fun e => e.2.inst != id, cache := s.annex.cache ++ kept } }

/-- The region's last step: when its records are delivered, the completion barrier steps (R240, R290, R349). Every store of
the region has performed at memory by then, so that a release at `.sys` (R255, SYS) waits for nothing more, and the arrive on
a host's or a peer's record goes to its owner at either scope (R372, R378). -/
def State.tryRegion (s : State) (region : Nat) : State :=
  match s.annex.regions.look region with
  | none => s
  | some g =>
    if !g.owes || s.owesRecords none (some region) then s
    else
      (s.onRegion region fun g => { g with owes := false }).completePacket g.queue g.slot g.record.domain g.record.done (tmax g.start g.clock) []

/-- A region ends, completed or failed: its output ranges are retired, its landing bindings and checkpoints end, tokens
in flight are discarded, and its instances are released (R240, R289, R290, R382). -/
def State.endRegion (s : State) (region : Nat) (how : RegionState) : State :=
  match s.annex.regions.look region with
  | none => s
  | some g =>
    if g.state == .completed || g.state == .failed then s
    else
      let r := s.retireOutputs g.record.domain g.record.outputs
      let s := g.insts.foldl (fun s i => s.releaseInst i) r.1
      let eps := g.eps.map fun e => (e.1, if e.2.kind == 2 then e.2 else { e.2 with buf := {}, credits := 64 })
      let s := s.onRegion region fun g => { g with state := how, insts := [], eps := eps, timeoutAt := none, drainFrom := none, pending := [], clock := r.2, owes := true }
      let s := { s with mem := { s.mem with landings := s.mem.landings.filter fun e => e.2.region != region } }
      let s := { s with annex := { s.annex with checkpoints := s.annex.checkpoints.filter fun c => c.region != region } }
      let s := { s with faults := { s.faults with awaiting := s.faults.awaiting.filter fun a => a.record.region != some region } }
      s.tryRegion region

/-- A region fails with an ANNEXCFG or STREAM record (R266, R290, R345). -/
def State.failRegion (s : State) (region : Nat) (n : Inst) (x y : Nat) (code source : Byte) (va detail : Dword) (port : Option Nat) : State :=
  (s.raiseRegion region n x y code source (flagByte false false false true) va detail port).endRegion region .failed

/-- What waited for an owner's answer or for another packet goes on: the steps that are owed, and the packets that can now
complete (R220, R331). -/
def State.settle (s : State) : State :=
  let s := if s.belfry.owed.isEmpty then s else s.payAll
  let s := s.belfry.launches.foldl (fun s e => if e.2.blocksLeft == 0 then s.tryLaunch e.1 else s) s
  s.annex.regions.foldl (fun s e => if e.2.owes then s.tryRegion e.1 else s) s

/-- ELEMENT_BLOCK: an element blocks at run time (R290). -/
def State.blockElem (s : State) (id x y cause expect seen : Nat) : State :=
  match s.annex.insts.look id with
  | none => s
  | some n =>
    s.failRegion n.region n x y faultAnnexcfg 1 0 (BitVec.ofNat 64 (cause + 2 ^ 8 * expect + 2 ^ 16 * seen)) none

/-- The domain of the region that an instance belongs to. -/
def State.instDomain (s : State) (id : Nat) : Nat :=
  match (s.annex.insts.look id).bind fun n => s.annex.regions.look n.region with
  | some g => g.record.domain
  | none => 0

end Sys2Proof.Machine
end

