-- ==== Sys2Proof/Machine/Token.lean ====
section
/-! DEFINITION. The steps of the Annex that move tokens, permits and credits (R262, R268-R273, R276-R281, R284, R329). -/
namespace Sys2Proof.Machine

/-- A port of the instance's die as the instance meets it: the crossbar delivers only the ports it binds (R327). -/
def State.boundPort (s : State) (id : Nat) (n : Inst) (number : Nat) : Option Port :=
  match s.annex.ports.look (64 * n.die + number) with
  | some p => if p.inst == some id then some p else none
  | none => none

/-- The source store of a route of instance `id`, with what it may give in this fc (R265, R269). -/
def State.routeSource (s : State) (id : Nat) (n : Inst) (r : Route) : Store :=
  match r.kind with
  | 0 => Map.get {} (n.elem r.x r.y).outs r.vc
  | 1 => let t := n.tile r.x r.y; if t.ovc != r.vc then {} else if t.mode == 1 then t.fifo else t.out
  | 2 => match s.boundPort id n r.number with | some p => p.rd | none => {}
  | 3 => match (s.annex.regions.look n.region).bind fun g => g.eps.look r.number with | some e => e.buf | none => {}
  | 4 => match s.boundPort id n r.number with | some p => p.cpl | none => {}
  | _ => match s.annex.seqs.look (32 * n.die + r.number) with | some q => Map.get {} q.sig r.vc | none => {}

/-- The head of a route's source leaves. -/
def State.popSource (s : State) (id : Nat) (n : Inst) (r : Route) : State :=
  match r.kind with
  | 0 => s.onInst id fun n => let e := n.elem r.x r.y; n.setElem r.x r.y { e with outs := e.outs.adjust r.vc fun q => q.pop s.fc }
  | 1 => s.onInst id fun n =>
      let t := n.tile r.x r.y
      n.setTile r.x r.y (if t.mode == 1 then { t with fifo := t.fifo.pop s.fc } else { t with out := t.out.pop s.fc })
  | 2 => s.onPort (64 * n.die + r.number) fun p => { p with rd := p.rd.pop s.fc }
  | 3 => s.onRegion n.region fun g => { g with eps := g.eps.adjust r.number fun e => { e with buf := e.buf.pop s.fc } }
  | 4 => s.onPort (64 * n.die + r.number) fun p => { p with cpl := p.cpl.pop s.fc }
  | _ =>
    match s.annex.seqs.look (32 * n.die + r.number) with
    | some q => s.setSeq (32 * n.die + r.number) { q with sig := q.sig.adjust r.vc fun x => x.pop s.fc }
    | none => s

/-- The head of a route's source moves into the first hop of every branch in the same fc, when each accepts (R277). -/
def State.moveSource (s : State) (id : Nat) (n : Inst) (route : Nat) : Option State :=
  match n.routes[route]? with
  | none => none
  | some r => match (s.routeSource id n r).head s.fc with
    | none => none
    | some x =>
      if r.branches.all fun b => (b.hops.headD {}).accepts 2 s.fc then
        let bs := r.branches.map fun b => { b with hops := setNth b.hops 0 ((b.hops.headD {}).push x.1 s.fc (s.fc + 1)) }
        some ((s.popSource id n r).onInst id fun n => { n with routes := setNth n.routes route { r with branches := bs } })
      else none

/-- A token moves from one hop of a branch to the next. -/
def Inst.moveHop (n : Inst) (route branch hop fc : Nat) (b : Branch) : Option Inst :=
  match b.hops[hop - 1]?, b.hops[hop]? with
  | some p, some q =>
    match p.head fc with
    | some x =>
      if q.accepts 2 fc then some (n.setBranch route branch { b with hops := setNth (setNth b.hops (hop - 1) (p.pop fc)) hop (q.push x.1 fc (fc + 1)) })
      else none
    | none => none
  | _, _ => none

/-- The task and input of a frame-mode element that a vc feeds (R260). -/
def Elem.inputOf (e : Elem) (vc : Nat) : Option (Nat × Nat) :=
  ((e.tasks.mapIdx fun k t => (taskChans t.word).map fun i => (k, i, taskIn t.word i)).flatten.find? fun c => c.2.2 == vc).map fun c => (c.1, c.2.1)

/-- FRAME_STORE_WRITE: a token at the head of a vc of a frame-mode element goes to its slot; a marker is held by the task; an overrun
blocks the element (R273). -/
def State.frameWrite (s : State) (id route branch : Nat) (n : Inst) (b : Branch) (x : Token) : Option State :=
  let e := n.elem b.x b.y
  match e.inputOf b.vc with
  | none => none
  | some (k, i) =>
    match e.tasks[k]? with
    | none => none
    | some t =>
      let taken := n.popBranch route branch s.fc
      if x.eos then some (s.onInst id fun _ => taken.setElem b.x b.y { e with tasks := setNth e.tasks k { t with markers := t.markers ++ [i] } })
      else
        let slot := frameSlot e t x.tag.toNat i
        if 256 / 2 ^ e.s ≤ x.tag.toNat || (e.present.look slot).isSome then some (s.blockElem id b.x b.y 2 0 0)
        else some (s.onInst id fun _ => taken.setElem b.x b.y { e with frame := Map.set 0 e.frame slot x.data, present := e.present.put slot s.fc })

/-- The last hop of a branch delivers its head: to a frame-mode element, a tile FIFO, a port's write stream, or an
endpoint. A channel-mode input is the hop buffer itself, and a mailbox takes its token in MAILBOX_ADD. A sink that was closed
discards up to the next marker, bound again or not (R178). -/
def State.deliverHead (s : State) (id route branch : Nat) (n : Inst) (b : Branch) : Option State :=
  match b.last.head s.fc with
  | none => none
  | some (x, _) =>
    let popped (s : State) : State := s.onInst id fun n => n.popBranch route branch s.fc
    match b.kind with
    | 0 => if (n.elem b.x b.y).frameMode && !(n.elem b.x b.y).blocked then s.frameWrite id route branch n b x else none
    | 1 =>
      let t := n.tile b.x b.y
      if t.mode == 1 && t.fifo.accepts (t.n + 1) s.fc then
        some ((popped s).onInst id fun n => n.setTile b.x b.y { t with fifo := t.fifo.push x s.fc (s.fc + 2) })
      else none
    | 2 =>
      match s.boundPort id n b.number with
      | none => none
      | some p =>
        if p.wr.accepts 16 s.fc then some ((popped s).onPort (64 * n.die + b.number) fun p => { p with wr := p.wr.push x s.fc (s.fc + 4) })
        else none
    | 3 =>
      match (s.annex.regions.look n.region).bind fun g => g.eps.look b.number with
      | none => none
      | some e =>
        if e.discard then
          some ((popped s).onRegion n.region fun g => { g with eps := g.eps.put b.number { e with discard := !x.eos } })
        else if e.credits == 0 || e.buf.toks.any (fun t => t.2.1 == s.fc) then none
        else
          let late := if e.kind == 3 then 24 else 1
          some ((popped s).onRegion n.region fun g => { g with eps := g.eps.put b.number { e with credits := e.credits - 1, buf := e.buf.push x s.fc (s.fc + late) } })
    | _ => none

/-- The tokens of an instance move: it runs, runs down, or waits for the region's other instances (R289). -/
def Inst.moves (n : Inst) : Bool := n.state == .running || n.state == .draining || n.state == .completing

/-- The move of a token along a route, if it happens in this fc: hop 0 moves the source's head into every branch, hop j a
token from one hop buffer to the next, and the hop after the last delivers it (R268, R269, R277). Buffers move in every stage,
and while the instance runs down. -/
def State.tokenMove (s : State) (h : RouteRef) : Option State :=
  match s.annex.insts.look h.inst with
  | none => none
  | some n =>
    if !n.moves then none
    else if h.hop == 0 then s.moveSource h.inst n h.route
    else match (n.routes[h.route]?).bind fun r => r.branches[h.branch]? with
      | none => none
      | some b =>
        if h.hop < b.hops.length then (n.moveHop h.route h.branch h.hop s.fc b).map fun n => s.onInst h.inst fun _ => n
        else if h.hop == b.hops.length then s.deliverHead h.inst h.route h.branch n b
        else none

/-- TOKEN_MOVE (R269). -/
def execTokenMove (h : RouteRef) (s : State) : Res := .next ((s.tokenMove h).getD s)

/-- The next word of a stream-out tile, or the marker after its words, if it can be emitted in this fc; with the last of them
the tile reports done (R262, R281). -/
def State.streamOut (s : State) (site : FuSite) : Option State :=
  match s.annex.insts.look site.inst with
  | none => none
  | some n =>
    match n.tiles.look (ekey site.x site.y) with
    | none => none
    | some t =>
      if t.mode != 2 || !(n.state == .running || n.state == .draining) || !t.out.accepts 3 s.fc then none
      else
        let len := (t.n + 1) * (t.rep + 1)
        match match t.pass with | some p => some p.pos | none => if t.permits == 0 then none else some 0 with
        | none => none
        | some k =>
          let t := if t.pass.isSome then t else { t with permits := t.permits - 1 }
          let x := if k < len then (⟨Map.get 0 t.words (t.base + k % (t.n + 1)), 0, false⟩ : Token) else marker 0
          let last := if t.e then k == len else k + 1 == len
          let t := { t with out := t.out.push x s.fc (s.fc + 1), pass := if last then none else some ⟨k + 1⟩ }
          some (s.onInst site.inst fun n =>
            let n := n.setTile site.x site.y t
            if last then n.leafReports site.x site.y true 0 s.fc else n)

/-- TILE_STREAM_OUT (R262). -/
def execTileStreamOut (site : FuSite) (s : State) : Res := .next ((s.streamOut site).getD s)

/-- A leaf gets a permit. -/
def Inst.permitLeaf (n : Inst) (x y : Nat) (tile : Bool) (task : Nat) : Inst :=
  if tile then n.setTile x y (let t := n.tile x y; { t with permits := t.permits + 1 })
  else
    let e := n.elem x y
    n.setElem x y { e with tasks := e.tasks.mapIdx fun k t => if k == task then { t with permits := t.permits + 1 } else t }

/-- A permit is applied at a controller entry: a node starts its run, a leaf gets one pass (R281). -/
def Inst.permitTo (n : Inst) (k : Nat) : Inst :=
  match n.ctls[k]? with
  | none => n
  | some c =>
    if (n.children k).isEmpty then n.permitLeaf c.x c.y c.tile c.task
    else { n with ctls := setNth n.ctls k { c with running := true, issued := [], done := [] } }

/-- PERMIT: a controller permit reaches its node or leaf, 2 fc after it was sent (R280). -/
def execPermit (inst node : Nat) (s : State) : Res :=
  match s.annex.insts.look inst with
  | none => .next s
  | some n =>
    match n.ctls[node]? with
    | none => .next s
    | some c =>
      match c.permitAt with
      | some f => if f ≤ s.fc then .next (s.onInst inst fun n => ({ n with ctls := setNth n.ctls node { c with permitAt := none } }).permitTo node) else .next s
      | none => .next s

/-- DONE_TOKEN: a child's done report reaches its parent (R280, R281). A single entry that is root and leaf completes
the tree. -/
def execDoneToken (inst node : Nat) (s : State) : Res :=
  match s.annex.insts.look inst with
  | none => .next s
  | some n =>
    match n.ctls[node]? with
    | none => .next s
    | some c =>
      match c.doneAt with
      | [] => .next s
      | f :: rest =>
        if s.fc < f then .next s
        else
          let n := { n with ctls := setNth n.ctls node { c with doneAt := rest } }
          match c.parent with
          | none => .next (s.onInst inst fun _ => { n with rootDone := true })
          | some p => match n.ctls[p]? with
            | none => .next (s.onInst inst fun _ => n)
            | some d => .next (s.onInst inst fun _ => { n with ctls := setNth n.ctls p { d with done := d.done.put node (Map.get 0 d.done node + 1) } })

/-- The routes of a region from its endpoint `num`: of its instances, and of the checkpoints that are not restored yet. -/
def State.endpointRoutes (s : State) (key : Nat) (g : Region) (num : Nat) : List Route :=
  let live := g.insts.filterMap fun i => s.annex.insts.look i
  let away := (s.annex.checkpoints.filter fun c => c.region == key).map (·.inst)
  (live ++ away).flatMap fun n => n.routes.filter fun r => r.kind == 3 && r.number == num

/-- Tokens of an endpoint that are sent and not consumed (R279), in a checkpoint too. `num` is the endpoint's number. -/
def State.outstanding (s : State) (key : Nat) (g : Region) (num : Nat) (e : Endpoint) : Nat :=
  e.buf.size + (if e.kind == 2 then 0 else ((s.endpointRoutes key g num).flatMap fun r => r.branches.map Branch.count).foldl max 0)

/-- A released source sends the marker that it owes once it has a credit (R174, R178). -/
def Endpoint.pay (e : Endpoint) (fc : Nat) : Endpoint :=
  if e.ending && e.credits != 0 then { e with ending := false, credits := e.credits - 1, buf := e.buf.push (marker 0) fc (fc + 1) } else e

/-- CREDIT_RETURN: a token was consumed and its credit goes back to the source, over a die link 24 fc later (R279). -/
def execCreditReturn (inst ep : Nat) (s : State) : Res :=
  match s.annex.insts.look inst with
  | none => .next s
  | some n =>
    match s.annex.regions.look n.region with
    | none => .next s
    | some g => match g.eps.look ep with
      | none => .next s
      | some e =>
        let put (e : Endpoint) : Res := .next (s.onRegion n.region fun g => { g with eps := g.eps.put ep (if g.state == .running then e.pay s.fc else e) })
        let window := if e.kind == 3 || e.bound.isSome || e.ending then 64 else 0
        match e.returning with
        | f :: rest =>
          if f + 24 ≤ s.fc then put { e with credits := e.credits + 1, returning := rest }
          else if e.credits + s.outstanding n.region g ep e + e.returning.length < window then put { e with returning := e.returning ++ [s.fc] }
          else .next s
        | [] =>
          if e.credits + s.outstanding n.region g ep e < window then
            if e.kind == 3 then put { e with returning := [s.fc] } else put { e with credits := e.credits + 1 }
          else .next s

/-! ### Stages (R276, R329) -/

/-- W of a stage in one instance: tokens in the FIFO tiles that feed its tasks (R329). -/
def Inst.stageLoad (n : Inst) (stage fc : Nat) : Nat :=
  ((n.tiles.filter fun t =>
    t.2.mode == 1 && n.routes.any fun r => r.kind == 1 && ekey r.x r.y == t.1 && r.branches.any fun b =>
      b.kind == 0 && (n.elem b.x b.y).tasks.any fun k => taskStage k.word == stage && (taskChans k.word).any fun i => taskIn k.word i == b.vc).map fun t => t.2.fifo.held fc).foldl (· + ·) 0

/-- A region's instances with their names. -/
def State.instsOf (s : State) (region : Nat) : List (Nat × Inst) :=
  match s.annex.regions.look region with
  | some g => g.insts.filterMap fun i => (s.annex.insts.look i).map fun n => (i, n)
  | none => []

/-- W of a stage of a region (R329). -/
def stageSum (ns : List (Nat × Inst)) (stage fc : Nat) : Nat := (ns.map fun e => e.2.stageLoad stage fc).foldl (· + ·) 0

/-- The enabled stage has fired no task for 64 fc, this one among them, or has been enabled for 65,536 fc (R329). -/
def stageDue (ns : List (Nat × Inst)) (since fc : Nat) : Bool :=
  (match (ns.filterMap fun e => e.2.lastFire).max? with | some f => f + 64 ≤ fc | none => since + 63 ≤ fc) || since + 65536 ≤ fc

/-- The stage that the region scheduler chooses in this fc, if it swaps: the one with the largest W, then the lowest (R329).
Instances that have completed fire no more, and the others go on (R291). -/
def State.nextStageOf (s : State) (region : Nat) : Option Nat :=
  let ns := s.instsOf region
  match ns with
  | [] => none
  | (_, n) :: _ =>
    if ns.any (fun e => (e.2.state != .running && e.2.state != .completing) || e.2.nextStage.isSome) || ns.all (fun e => e.2.state == .completing) || !stageDue ns n.stageSince s.fc then none
    else ((List.range 8).filter fun k => k != n.stage && stageSum ns k s.fc != 0).foldl (fun (a : Option Nat) k => match a with
      | none => some k
      | some b => if stageSum ns b s.fc < stageSum ns k s.fc then some k else some b) none

def State.onInsts (s : State) (ns : List (Nat × Inst)) (f : Inst → Inst) : State := ns.foldl (fun s e => s.onInst e.1 f) s

/-- STAGE_SWAP: the scheduler decides the next stage of the instance's region (R329). -/
def execStageSwap (inst : Nat) (s : State) : Res :=
  match s.annex.insts.look inst with
  | none => .next s
  | some n => match s.nextStageOf n.region with
    | none => .next s
    | some k => .next (s.onInsts (s.instsOf n.region) fun n => { n with nextStage := some (k, none) })

/-- Every store of the instance's streams has performed at memory. -/
def State.storesDone (s : State) (id : Nat) : Bool :=
  s.annex.ports.all fun e => e.2.inst != some id || e.2.accesses.all fun a => match a.kind with | .write _ _ => false | .owner => false | _ => true

/-- The next step of a stage swap of a region, if it happens in this fc: once every store of the old stage has performed,
64 fc begin; after them the new stage is enabled (R276). -/
def State.stageStep (s : State) (region : Nat) : Option State :=
  let ns := s.instsOf region
  match ns.head?.bind fun e => e.2.nextStage with
  | none => none
  | some (k, none) => if ns.all fun e => s.storesDone e.1 then some (s.onInsts ns fun n => { n with nextStage := some (k, some (s.fc + 64)) }) else none
  | some (k, some f) => if s.fc < f then none else some (s.onInsts ns fun n => { n with stage := k, stageSince := s.fc, lastFire := none, nextStage := none })

/-- STAGE_ENABLE: a stage swap of the instance's region goes on (R276). -/
def execStageEnable (inst : Nat) (s : State) : Res :=
  match s.annex.insts.look inst with
  | none => .next s
  | some n => .next ((s.stageStep n.region).getD s)

/-! ### Completion tokens and mailboxes (R284) -/

/-- A command of a port has been read, or has performed, at memory. -/
def Port.performed (p : Port) (cmd : Nat) : Bool :=
  p.accesses.all fun a => a.cmd != cmd || match a.kind with | .read _ => a.value.isSome | .write _ _ => false | .owner => false | _ => true

/-- COMPLETION_TOKEN: a command with C whose elements have all been read or performed emits its token (R284). -/
def execCompletionToken (die port : Nat) (s : State) : Res :=
  let k := 64 * die + port
  match s.annex.ports.look k with
  | none => .next s
  | some p =>
    match p.completions.find? p.performed with
    | none => .next s
    | some c => .next (s.onPort k fun p => { p with completions := p.completions.filter (· != c), cpl := p.cpl.push ⟨BitVec.ofNat 64 c, 0, false⟩ s.fc (s.fc + 1) })

def Seq.byteAt (q : Seq) (i : Nat) : Byte := Map.get 0 q.store i
def Seq.readStore (q : Seq) (i : Nat) : Dword := BitVec.ofNat 64 (leValue ((List.range 8).map fun j => q.byteAt (i + j)))
def Seq.writeStore (q : Seq) (i : Nat) (x : Dword) : Seq :=
  { q with store := (List.range 8).foldl (fun m j => Map.set 0 m (i + j) (BitVec.ofNat 8 (x.toNat / 2 ^ (8 * j)))) q.store }

/-- A token that has arrived at a mailbox channel adds 1 to its word, if there is one in this fc (R284). -/
def State.mailbox (s : State) (die seq chan : Nat) : Option State :=
  match s.annex.seqs.look (32 * die + seq) with
  | none => none
  | some q =>
    match s.annex.insts.look q.inst with
    | none => none
    | some n =>
      match n.branchTo 4 fun b => b.number == seq && b.vc == chan with
      | none => none
      | some (i, j, b) =>
        if 8 ≤ chan || (b.last.head s.fc).isNone || !n.moves then none
        else
          let at_ := 4032 + 8 * chan
          some ((s.setSeq (32 * die + seq) (q.writeStore at_ (q.readStore at_ + 1))).onInst q.inst fun n => n.popBranch i j s.fc)

/-- MAILBOX_ADD (R284). -/
def execMailboxAdd (die seq chan : Nat) (s : State) : Res := .next ((s.mailbox die seq chan).getD s)

/-! ### What has to happen in a fc (R269, R270, R273) -/

/-- A token of the instance moves in this fc, from a source, along a hop, or into what a branch ends at. -/
def State.tokenDue (s : State) (id : Nat) (n : Inst) : Bool :=
  (n.routes.mapIdx fun i r => (s.tokenMove ⟨id, i, 0, 0⟩).isSome ||
    (r.branches.mapIdx fun j b => (List.range b.hops.length).any fun k => (s.tokenMove ⟨id, i, j, k + 1⟩).isSome ||
      (b.kind == 4 && (s.mailbox n.die b.number b.vc).isSome)).any (· == true)).any (· == true) ||
  n.tiles.any fun t => (s.streamOut ⟨id, t.1 % 128, t.1 / 128, 0⟩).isSome

/-- A controller token is on its way, and has arrived by a fc (R280). -/
def Inst.ctlDue (n : Inst) (fc : Nat) : Bool :=
  n.moves && n.ctls.any fun c => (match c.permitAt with | some f => f ≤ fc | none => false) || (match c.doneAt with | f :: _ => f ≤ fc | [] => false)

/-- Something has to happen in the instance in this fc before the next begins: a task fires, a token moves, a controller token
arrives, or a stage is swapped. -/
def State.instDue (s : State) (id : Nat) (n : Inst) : Bool :=
  n.canFire s.fc s.fresh || s.tokenDue id n || n.ctlDue s.fc || (s.nextStageOf n.region).isSome || (s.stageStep n.region).isSome

/-- Nothing fires and nothing moves in the instance in this or any later fc, if nothing reaches it: what is in its pipelines
and on its links has arrived 64 fc on. -/
def State.instStill (s : State) (id : Nat) (n : Inst) : Bool :=
  let later : State := { s with now := s.now + 128 }
  n.nextStage.isNone && !n.canFire later.fc s.fresh && !later.tokenDue id n && n.ctls.all fun c => c.permitAt.isNone && c.doneAt.isEmpty

/-- Something has to happen in the Annex in the fc of this state. -/
def State.annexDue (s : State) : Bool := s.annex.insts.any fun e => s.instDue e.1 e.2

/-- Time passes: as far as the end of the first fc in which something still has to happen in the Annex. The answer says
whether all of it has passed. -/
def State.advance (s : State) (dt : Nat) : State × Bool :=
  let at_ (f : Nat) : State := { s with now := max s.now (2 * f) }
  match if s.annex.insts.isEmpty then none else ((List.range ((s.now + dt) / 2 - s.fc)).map (s.fc + ·)).find? fun f => (at_ f).annexDue with
  | some f => (at_ f, false)
  | none => ({ s with now := s.now + dt }, true)

end Sys2Proof.Machine
end

