-- ==== Sys2Proof/Machine/Regions.lean ====
section
/-! DEFINITION. The life of a region: loading, running, completing, draining and its checkpoint (R266, R289-R291, R352,
R360, R361, R365). -/
namespace Sys2Proof.Machine

/-! ### Extents (R352) -/

/-- The slot of a port whose page covers an address. -/
def Port.slotOf (p : Port) (va : Nat) : Option (Nat × Extent) := p.extents.find? fun e => e.2.va ≤ va && va < e.2.va + e.2.size

/-- The slot that a new page takes: a free one, or the least recently used. -/
def Port.victim (p : Port) : Nat :=
  let free := Map.freeKey p.extents 0 64
  if free < 64 then free
  else (p.extents.foldl (fun (a : Nat × Nat) e => if e.2.used < a.2 then (e.1, e.2.used) else a) (0, (match p.extents with | e :: _ => e.2.used | [] => 0))).1

/-- Put the page of a leaf into a slot. -/
def Port.setExtent (p : Port) (slot va : Nat) (x : Leaf) (now : Nat) : Port :=
  let size := 2 ^ levelShift x.level
  { p with extents := p.extents.put slot { va := va / size * size, size := size, leaf := x.ent, level := x.level, used := now } }

/-- The units of 64 KiB that a command addresses, ascending: of its elements, or of its header and single records. -/
def commandPages (w : BitVec 128) (strides : Map Dword) : List Nat :=
  let vas := match decodeStream w with
    | .ok (.slin f) => let l := f.lay strides; (List.range l.count).map fun k => (l.at k).toNat
    | .ok (.swrite f) => let l := f.lay strides; (List.range l.count).map fun k => (l.at k).toNat
    | .ok (.sred f) => let l := f.lay strides; (List.range l.count).map fun k => (l.at k).toNat
    | .ok (.sidx f) => (List.range (f.indexCount + 4)).map fun k => f.start.toNat + 4 * k
    | .ok (.sgath f) => (List.range (f.indexCount + 4)).map fun k => f.start.toNat + 4 * k
    | .ok (.sbar f) => [f.start.toNat]
    | .ok (.sland f) => (List.range ((f.start.toNat % 65536 + 64 * bitsAt f.pattern.toNat 9 20 + 65535) / 65536)).map fun k => f.start.toNat + 65536 * k
    | .ok (.spage f) => [f.start.toNat]
    | _ => []
  ((vas.map (· / 65536)).mergeSort).eraseDups.map (· * 65536)

/-- Load-time translation of a port's commands until its slots are full (R352). -/
def State.preload (s : State) (d : Nat) (p : Port) : Port :=
  p.queue.foldl (fun p w => (commandPages w p.strides).foldl (fun p va =>
    if (p.slotOf va).isSome || 64 ≤ p.extents.length then p
    else match s.leafOf d va wantStreamRead with
      | .inl x => p.setExtent p.victim va x s.now
      | .inr _ => p) p) p

/-! ### Loading (R266, R289) -/

/-- The bytes of a region's image, when they can be read; those in host or peer memory once they have come. -/
def State.readImage (s : State) (d : Nat) (va : Dword) : DeviceRead :=
  match s.deviceRead d va 32 wantLoad with
  | .done h => s.deviceRead d va (max 32 (imgAt h 12 4)) wantLoad
  | r => r

/-- The largest write time of the lines of a range (R328). -/
def State.stampOf (s : State) (d : Nat) (va : Dword) (n : Nat) : Time :=
  (List.range (n / 64 + 1)).foldl (fun t i =>
    match s.trans d (va + BitVec.ofNat 64 (64 * i)) wantLoad with
    | .ok pa _ => tmax t (s.homeView (pa / 64)).wts
    | .bad _ _ => t) 0

/-- Load the image for one instance of a region; nothing on a structural error, or where the image cannot be read. -/
def Region.loadOf (g : Region) (img : Option (List Byte)) (id : Nat) (n : Inst) : Option Loaded :=
  img.bind fun img => loadImage img n id ((List.range 16).filter fun i => g.record.dies.getLsbD i).length g.record.arg

/-- The load of a region fails: the first structural error, or the blocked element with the lowest (die, y, x). An
instance that is loaded has passed. -/
def State.loadFailure (s : State) (g : Region) (img : Option (List Byte)) : Option (Inst × Nat × Nat) :=
  let all := (g.insts.filterMap fun i => ((s.annex.insts.look i).filter fun n => !n.loaded).map fun n => (n, g.loadOf img i n))
  match all.find? fun e => e.2.isNone with
  | some e => some (e.1, 0xFF, 0xFF)
  | none => all.foldl (fun (a : Option (Inst × Nat × Nat)) e =>
      match e.2.bind fun l => lowestCell l.bad, a with
      | some c, some b => if e.1.die < b.1.die then some (e.1, c.1, c.2) else some b
      | some c, none => some (e.1, c.1, c.2)
      | none, a => a) none

/-- The port that a binding sets up. -/
def State.bindPort (s : State) (d id : Nat) (b : Binding) : Port :=
  s.preload d { inst := some id, x := b.x, y := b.y, queue := b.commands }

/-- The squares that an instance was placed on still hold the configuration of an instance of the same section of the same
image and domain, and no line of the image has been written since (R328). -/
def State.cachedFor (s : State) (g : Region) (n : Inst) (stamp : Time) : Option Cached :=
  s.annex.cache.find? fun c => c.image == g.record.image && c.domain == g.record.domain && c.section_ == n.section_ && c.die == n.die && c.sx == n.sx && c.sy == n.sy && c.cols == n.cols && c.rows == n.rows && stamp.toNat ≤ c.stamp.toNat

/-- A cached load: tasks, tile controls and routes stay as the squares hold them; frame slots and tile words come from the
image (R328). The image is checked whole all the same (LOG 121). -/
def Cached.apply (c : Cached) (n : Inst) : Inst :=
  let elem (k : Nat) (e : Elem) : Elem :=
    let x := Map.get {} n.elems k
    { frameMode := e.frameMode, s := e.s, tasks := e.tasks.map fun t => { word := t.word, k := t.k }, frame := x.frame, present := x.present }
  let tile (k : Nat) (t : Tile) : Tile := { mode := t.mode, base := t.base, n := t.n, rep := t.rep, ovc := t.ovc, e := t.e, words := (Map.get {} n.tiles k).words }
  { n with elems := c.elems.map fun e => (e.1, elem e.1 e.2), tiles := c.tiles.map fun t => (t.1, tile t.1 t.2), routes := c.routes.map fun r => { r with branches := r.branches.map fun b => { b with hops := List.replicate b.hops.length {} } } }

/-- An instance is loaded from its image: its tasks, tiles and routes, its ports with their commands, its sequencers, and the
region's endpoints (R266, R328). -/
def State.loadFresh (s : State) (g : Region) (id : Nat) (n : Inst) (l : Loaded) (stamp : Time) : State :=
  let m := match s.cachedFor g n stamp with | some c => c.apply l.inst | none => l.inst
  let s := s.onInst id fun _ => { m with stamp := stamp, loaded := true }
  let s := l.binds.foldl (fun s b => s.setPort (64 * n.die + b.port) (s.bindPort g.record.domain id b)) s
  let s := l.seqs.foldl (fun s e => s.setSeq (32 * n.die + e.1) e.2) s
  s.onRegion n.region fun g => if g.eps.isEmpty then { g with eps := l.eps } else g

/-- What a port held at the checkpoint goes on: with no slot yet, and with the accesses that had not performed to be translated
afresh (R361). -/
def Port.restored (p : Port) (id : Nat) : Port :=
  { p with inst := some id, extents := [], withheld := none, lines := [], accesses := p.accesses.map fun a => { a with again := a.value.isNone } }

/-- An instance is written back from its checkpoint; the extents are translated afresh (R361). -/
def State.loadBack (s : State) (g : Region) (id : Nat) (n : Inst) (c : Checkpoint) (stamp : Time) : State :=
  let s := s.onInst id fun _ => { c.inst with sx := n.sx, sy := n.sy, die := n.die, state := .loading, stamp := stamp, loaded := true, restored := true }
  let s := c.ports.foldl (fun s e => s.setPort (64 * n.die + e.1) (s.preload g.record.domain (e.2.restored id))) s
  let s := c.seqs.foldl (fun s e => s.setSeq (32 * n.die + e.1) { e.2 with inst := id }) s
  { s with annex := { s.annex with checkpoints := s.annex.checkpoints.filter fun x => !(x.region == n.region && x.inst.section_ == n.section_) } }

/-- What the squares of an instance held before it is loaded is gone (R328). -/
def State.overwrite (s : State) (n : Inst) : State :=
  let overlap (c : Cached) : Bool := c.die == n.die && c.sx < n.sx + n.cols && n.sx < c.sx + c.cols && c.sy < n.sy + n.rows && n.sy < c.sy + c.rows
  { s with annex := { s.annex with cache := s.annex.cache.filter fun c => !overlap c } }

/-- Every port that an image binds is the instance's own or free (R327). -/
def State.portsFree (s : State) (id : Nat) (n : Inst) (l : Loaded) : Bool :=
  l.binds.all fun b => match (s.annex.ports.look (64 * n.die + b.port)).bind (·.inst) with | some i => i == id | none => true

/-- REGION_LOAD: a placed instance loads and validates its image, or is restored from its checkpoint (R266, R328, R361). Where
the image has come to bind a port since the instance was placed that another instance holds, the load waits for the port
(R327, LOG 153). -/
def execRegionLoad (inst : Nat) (s : State) : Res :=
  match s.annex.insts.look inst with
  | none => .next s
  | some n =>
    match s.annex.regions.look n.region with
    | none => .next s
    | some g =>
      if n.state != .loading || n.loaded then .next s
      else
        let load (img : Option (List Byte)) : Res :=
          match s.loadFailure g img, g.loadOf img inst n with
          | some (m, x, y), _ => .next (s.failRegion n.region m x y faultAnnexcfg 1 0 0 none)
          | none, none => .next s
          | none, some l =>
            let stamp := match img with | some img => s.stampOf g.record.domain g.record.image img.length | none => 0
            match s.annex.checkpoints.find? fun c => c.region == n.region && c.inst.section_ == n.section_ with
            | some c => .next ((s.loadBack g inst n c stamp).overwrite n)
            | none => if s.portsFree inst n l then .next ((s.loadFresh g inst n l stamp).overwrite n) else .next s
        match s.readImage g.record.domain g.record.image with
        | .wait s => .next s
        | .bad => load none
        | .done img => load (some img)

/-- The first permits: the root's single one, or one for each leaf (R280, R281). -/
def Inst.firstPermits (n : Inst) : Inst :=
  if n.ctls.isEmpty then
    let n := n.elems.foldl (fun n e => (List.range e.2.tasks.length).foldl (fun n k =>
      match n.opAt (e.1 % 128) (e.1 / 128) k with
      | some .count => n.permitLeaf (e.1 % 128) (e.1 / 128) false k
      | some .agen => n.permitLeaf (e.1 % 128) (e.1 / 128) false k
      | _ => n) n) n
    n.tiles.foldl (fun n t => if t.2.mode == 2 then n.permitLeaf (t.1 % 128) (t.1 / 128) true 0 else n) n
  else (List.range n.ctls.length).foldl (fun n k => match n.ctls[k]? with | some c => if c.parent.isNone then n.permitTo k else n | none => n) n

/-- REGION_RUNNING: every instance has acknowledged; tasks, sequencers and ports start, and windows open (R289, R361). -/
def execRegionRunning (region : Nat) (s : State) : Res :=
  match s.annex.regions.look region with
  | none => .next s
  | some g =>
    let ns := g.insts.filterMap fun i => s.annex.insts.look i
    if g.state != .loading || ns.isEmpty || ns.any (fun n => !n.loaded) then .next s
    else
      let s := g.insts.foldl (fun s i => s.onInst i fun n =>
        let n := if n.restored then n else { n.firstPermits with stage := 0 }
        { n with state := .running, stageSince := s.fc, lastFire := none }) s
      .next (s.onRegion region fun g => { g with state := .running, timeoutAt := none, byTimeout := false, eps := g.eps.map fun e => (e.1, e.2.pay s.fc) })

/-! ### Completing (R240, R291) -/

/-- Leaves of an instance without a controller table that have to report. -/
def Inst.leaves (n : Inst) : List Nat :=
  (n.elems.flatMap fun e => (List.range e.2.tasks.length).filterMap fun k =>
    match n.opAt (e.1 % 128) (e.1 / 128) k with
    | some .count => some (16 * e.1 + k)
    | some .agen => some (16 * e.1 + k)
    | _ => none) ++ (n.tiles.filter fun t => t.2.mode == 2).map fun t => 16 * t.1 + 8

/-- The completion condition of an instance (R291). -/
def State.instDone (s : State) (id : Nat) (n : Inst) : Bool :=
  (if n.ctls.isEmpty then n.leaves.all fun l => n.leafDone.contains l else n.rootDone) &&
  (s.annex.seqs.all fun e => e.2.inst != id || (e.2.stopped && !e.2.failed)) &&
  (s.annex.ports.all fun e => e.2.inst != some id || (e.2.queue.isEmpty && e.2.accesses.isEmpty && e.2.completions.isEmpty && e.2.wr.toks.isEmpty)) &&
  (n.routes.all fun r => (s.routeSource id n r).toks.isEmpty && r.branches.all fun b => b.count == 0) &&
  s.instStill id n

/-- REGION_COMPLETE: an instance meets its condition; with the last, the region completes (R240, R289, R291). -/
def execRegionComplete (inst : Nat) (s : State) : Res :=
  match s.annex.insts.look inst with
  | none => .next s
  | some n =>
    if n.state != .running || !s.instDone inst n then .next s
    else
      let s := s.onInst inst fun n => { n with state := .completing }
      match s.annex.regions.look n.region with
      | none => .next s
      | some g =>
        if (g.insts.filterMap fun i => s.annex.insts.look i).all fun m => m.state == .completing then .next (s.endRegion n.region .completed)
        else .next s

/-! ### Draining (R289, R360, R365) -/

/-- Input gates close. -/
def State.drainRegion (s : State) (region : Nat) (timeout service : Bool) : State :=
  match s.annex.regions.look region with
  | none => s
  | some g =>
    if g.state != .running then s
    else
      let s := g.insts.foldl (fun s i => s.onInst i fun n => { n with state := .draining }) s
      s.onRegion region fun g => { g with state := .draining, drainFrom := some s.fc, byTimeout := timeout, forService := service }

/-- Bytes of a checkpoint with an instance's ports, sequencers, controller table and endpoints (R365). -/
def checkpointSize (n : Inst) (endpoints : Nat) : Nat :=
  256 + 2883584 * n.cols * n.rows + 512 * n.ports.length + 4608 * n.seqs.length + 32 * n.ctls.length + 2048 * endpoints

def State.checkpointBytes (s : State) (region : Nat) (n : Inst) : Nat :=
  checkpointSize n (match s.annex.regions.look region with | some g => g.eps.length | none => 0)

/-- Bytes of the save of a block with its groups (R363, R364). -/
def saveSize (scratchKiB groups : Nat) : Nat := roundUp (0x400 + 1024 * scratchKiB) 4096 + 40960 * groups

def Saved.size (x : Saved) : Nat := saveSize x.data.scratchKiB x.groups.length

/-- Bytes of the general pool that saves and checkpoints take (R362). -/
def State.poolUsed (s : State) : Nat :=
  ((s.faults.saves.filter fun x => x.reserve.isNone).map Saved.size).foldl (· + ·) 0 +
  ((s.annex.checkpoints.filter fun c => !c.reserved).map fun c => s.checkpointBytes c.region c.inst).foldl (· + ·) 0

/-- Bytes that the checkpoint of a region takes. -/
def State.regionSaveSize (s : State) (region : Nat) : Nat := ((s.instsOf region).map fun e => s.checkpointBytes region e.2).foldl (· + ·) 0

/-- Bytes that the saves of a cohort take: its blocks, with their resident and spilled groups (R216, R363, R364). -/
def State.cohortSaveSize (s : State) (launch cohort : Nat) : Nat :=
  let groups (k : Nat) : Nat := (s.groupsOf k).length + (s.cores.map fun e => (e.2.spilled.filter fun x => x.2.block == k).length).foldl (· + ·) 0
  ((s.cohortBlocks launch cohort).map fun e => saveSize e.2.scratchKiB (groups e.1)).foldl (· + ·) 0

/-- Bytes of the general pool that are taken: those of the saves there, and those of the evictions and drains for policy that
are under way (R362). -/
def State.poolTaken (s : State) : Nat :=
  s.poolUsed + (((s.faults.evictions.filter fun e => e.2.2).map fun e => s.cohortSaveSize e.1 e.2.1).foldl (· + ·) 0) +
  ((s.annex.regions.filter fun g => g.2.state == .draining && !g.2.forService).map fun g => s.regionSaveSize g.1).foldl (· + ·) 0

/-- The general pool has room for the checkpoint of a region (R362). -/
def State.poolTakes (s : State) (region : Nat) : Bool := s.poolTaken + s.regionSaveSize region ≤ Config.savePool

/-- REGION_DRAIN: firmware's scheduling policy drains a region, where the general pool can take its checkpoint (R289, R360,
R362). A fault timeout, a power request and a column remap drain for service. -/
def execRegionDrain (region : Nat) (s : State) : Res := if s.poolTakes region then .next (s.drainRegion region false false) else .next s

/-- FAULT_TIMEOUT: the stream-fault timeout expires (R255, R289). -/
def execFaultTimeout (region : Nat) (s : State) : Res :=
  match s.annex.regions.look region with
  | none => .next s
  | some g =>
    match g.timeoutAt with
    | some t => if t + 4000 * (if g.record.timeout == 0 then 50 else g.record.timeout) ≤ s.now then .next (s.drainRegion region true true) else .next s
    | none => .next s

/-- Every issued access of an instance's ports has performed. -/
def State.accessesDone (s : State) (id : Nat) : Bool :=
  s.annex.ports.all fun e => e.2.inst != some id || e.2.accesses.all fun a => match a.kind with
    | .write _ _ => false
    | .owner => false
    | .read _ => a.value.isSome
    | _ => true

/-- REGION_CHECKPOINT: when nothing can fire and every issued access has performed, or 12 µs after the request, the
region's state is saved and its squares and ports are free (R360, R365). -/
def execRegionCheckpoint (region : Nat) (s : State) : Res :=
  match s.annex.regions.look region with
  | none => .next s
  | some g =>
    let still := g.insts.all fun i => match s.annex.insts.look i with
      | some n => s.instStill i n && s.accessesDone i
      | none => true
    let late := match g.drainFrom with | some f => f + 24000 ≤ s.fc | none => false
    if g.state != .draining || !(still || late) then .next s
    else
      let saves := g.insts.filterMap fun i => (s.annex.insts.look i).map fun n =>
        ({ region := region, inst := { n with state := .checkpointed },
           ports := (s.annex.ports.filter fun e => e.2.inst == some i).map fun e => (e.1 % 64, e.2),
           seqs := (s.annex.seqs.filter fun e => e.2.inst == i).map fun e => (e.1 % 32, e.2), reserved := g.forService } : Checkpoint)
      let s := g.insts.foldl (fun s i => s.releaseInst i) s
      let s := { s with annex := { s.annex with checkpoints := s.annex.checkpoints ++ saves } }
      .next (s.onRegion region fun g => { g with state := .checkpointed, insts := [], drainFrom := none, timeoutAt := none, ready := s.now })

end Sys2Proof.Machine
end

