-- ==== Sys2Proof/Machine/Port.lean ====
section
/-! DEFINITION. Stream ports and their commands (R191-R194, R283, R284, R352-R354, R379). A port carries on with the
command at the head of its queue one element at a time; accesses perform in STREAM_ACCESS_PERFORMED. -/
namespace Sys2Proof.Machine

/-- What a command works on. -/
structure PortCtx where
  s : State
  key : Nat
  p : Port
  n : Inst
  g : Region

def PortCtx.die (c : PortCtx) : Nat := c.key / 64
def PortCtx.dom (c : PortCtx) : Nat := c.g.record.domain
def PortCtx.put (c : PortCtx) (p : Port) : Res := .next (c.s.setPort c.key p)
def PortCtx.stay (c : PortCtx) : Res := .next c.s

/-- The frame of every stream command: the agent is a port. A port that no running instance has bound, that withholds
(R353), or that waits for a page, does nothing. `reads` marks the commands whose gate closes while the region drains
(R360). -/
def portCommand (s : State) (reads : Bool) (k : PortCtx → Res) : Res :=
  match s.agent with
  | .port die port =>
    match s.annex.ports.look (64 * die + port) with
    | none => .fault .noAgent
    | some p =>
      match p.inst.bind fun i => s.annex.insts.look i with
      | none => .next s
      | some n =>
        match s.annex.regions.look n.region with
        | none => .next s
        | some g =>
          let open_ := n.state == .running || (n.state == .draining && !reads)
          if !open_ || p.withheld.isSome || p.wants.isSome then .next s
          else k { s := s, key := 64 * die + port, p := p, n := n, g := g }
  | _ => .fault .noAgent

/-- The detail of a STREAM record: command and element index (R342). -/
def Port.where_ (p : Port) : Dword := BitVec.ofNat 64 (p.cmd % 2 ^ 32 + 2 ^ 32 * (p.elem % 2 ^ 32))

/-- A stream permission, N or S fault fails the region (R345). -/
def PortCtx.streamFail (c : PortCtx) (va : Nat) : Res :=
  .next (c.s.failRegion c.n.region c.n c.p.x c.p.y faultStream 2 (BitVec.ofNat 64 va) c.p.where_ (some c.key))

/-- An error of a command's values fails the region with ANNEXCFG (R379, R381). -/
def PortCtx.configFail (c : PortCtx) : Res :=
  .next (c.s.failRegion c.n.region c.n c.p.x c.p.y faultAnnexcfg 2 0 0 (some c.key))

/-- Translate an element's address through the port's slots (R352): go on with its physical address, ask for the page,
or fail. -/
def PortCtx.at_ (c : PortCtx) (va : Nat) (want : Want) (k : PortCtx → Nat → Bool → Res) : Res :=
  if va / 2 ^ 57 != 0 then c.streamFail va
  else match c.p.slotOf va with
    | none => c.put { c.p with wants := some va }
    | some (slot, x) =>
      if x.stale then c.stay else
      let leaf : Leaf := ⟨x.leaf, x.level⟩
      match c.s.permFault c.dom va leaf want with
      | some _ => c.streamFail va
      | none => k { c with p := { c.p with extents := c.p.extents.put slot { x with used := c.s.now } } } (leaf.pa va) leaf.near

/-- An uncorrectable error stops a port's read: a DATA record, and the region fails (R345, R407). -/
def PortCtx.dataFail (c : PortCtx) (line va : Nat) : Res :=
  .next ((c.s.logBad line c.dom).failRegion c.n.region c.n c.p.x c.p.y faultData 2 (BitVec.ofNat 64 va) 0 (some c.key))

/-- The head command has issued everything: the next one starts (R283, R284). -/
def Port.next (p : Port) (c : Bool) : Port :=
  { p with queue := p.queue.tail, cmd := p.cmd + 1, elem := 0, header := none, rowIndex := none, unpack := [], completions := if c then p.completions ++ [p.cmd] else p.completions }

/-- Add an access in stream order. -/
def PortCtx.add (c : PortCtx) (a : Access) : PortCtx :=
  { c with s := { c.s with nextId := c.s.nextId + 1 }, p := { c.p with accesses := c.p.accesses ++ [{ a with id := c.s.nextId, cmd := c.p.cmd }] } }

def tokenAccess (t : Token) : Access := { id := 0, cmd := 0, va := 0, size := 0, kind := .token t, value := some 0 }

/-- A read command ends: flag E appends a marker (R191). -/
def PortCtx.endRead (c : PortCtx) (f : StreamCmd) : Res :=
  let c := if f.flagE then c.add (tokenAccess (marker 0)) else c
  c.put (c.p.next f.flagC)

/-- An element of a read command has been issued; with the last one the command ends. -/
def PortCtx.stepRead (c : PortCtx) (f : StreamCmd) (count : Nat) : Res :=
  let c := { c with p := { c.p with elem := c.p.elem + 1 } }
  if c.p.elem == count then c.endRead f else c.put c.p

/-- `slin` (R192, R193). -/
def execSlin (f : StreamCmd) (s : State) : Res :=
  portCommand s true fun c =>
    let l := f.lay c.p.strides
    let va := (l.at c.p.elem).toNat
    c.at_ va wantStreamRead fun c pa _ =>
      (c.add { id := 0, cmd := 0, va := va, size := l.size, kind := .read pa, packed := f.flags.getLsbD 1, flush := c.p.elem + 1 == l.count }).stepRead f l.count

/-- Two accesses of one port touch the same byte. -/
def Access.meets (a b : Access) : Bool := a.va < b.va + b.size && b.va < a.va + a.size

/-- An access of the port whose turn it is: the earlier ones of the port to the same address have performed (R283). -/
def Port.turn (p : Port) (a : Access) : Bool :=
  p.accesses.all fun b => !(b.id < a.id) || !b.meets a || match b.kind with | .write _ _ => false | .owner => false | .read _ => b.value.isSome | _ => true

/-- Bytes at memory itself, as a region reads them (R239); what host or peer memory holds is free (LOG 33). -/
def State.regionRead (s : State) (pa n : Nat) : Nat :=
  if lineRemote (pa / 64) then leValue ((List.range n).map fun i => Config.freeByte s.fresh (pa + i))
  else leValue ((List.range n).map fun i => s.mem.byte (pa + i))

/-- A word that a command itself reads, a header or an index, in its turn among the port's accesses (R194, R283); one that cannot
be read fails the region (R407). -/
def PortCtx.word (c : PortCtx) (va n : Nat) (k : PortCtx → Nat → Res) : Res :=
  c.at_ va wantStreamRead fun c pa _ =>
    if !c.p.turn { id := c.s.nextId, cmd := c.p.cmd, va := va, size := n, kind := .read pa } then c.stay
    else if c.s.mem.bad.contains (pa / 64) then c.dataFail (pa / 64) va
    else k { c with s := { c.s with fresh := c.s.fresh + 1 } } (c.s.regionRead pa n)

/-- `sidx` and `sgath` (R194): the header, then for each index its word and its row's elements. Where the row bytes are no
multiple of the element size, what is left over at a row's end is not streamed (DESIGN CHOICE, LOG 155). -/
def PortCtx.rows (c : PortCtx) (f : StreamCmd) (gather : Bool) : Res :=
  match c.p.header with
  | none =>
    c.word f.header.toNat 16 fun c h =>
      c.put { c.p with header := some (BitVec.ofNat 64 h, h / 2 ^ 64 % 2 ^ 32, h / 2 ^ 96 % 2 ^ 32) }
  | some (table, stride, row) =>
    let per := row / f.size
    let count := f.indexCount * per
    if count ≤ c.p.elem then c.endRead f
    else
      let i := c.p.elem / per
      let j := c.p.elem % per
      match c.p.rowIndex with
      | none =>
        c.word (f.header.toNat + 16 + 4 * i) 4 fun c ix => c.put { c.p with rowIndex := some ix }
      | some ix =>
        let va := (table + BitVec.ofNat 64 (ix * stride + j * f.size)).toNat
        let c := { c with p := { c.p with rowIndex := if j + 1 == per then none else some ix } }
        let a : Access := { id := 0, cmd := 0, va := va, size := f.size, kind := .replay, packed := f.flags.getLsbD 1, flush := c.p.elem + 1 == count }
        let seen := (c.p.rowCache.look (c.p.cmd * 2 ^ 57 + va)).isSome || c.p.accesses.any fun x => x.keep && x.cmd == c.p.cmd && x.va == va
        if gather && seen then (c.add a).stepRead f count
        else c.at_ va wantStreamRead fun c pa _ => (c.add { a with kind := .read pa, keep := gather }).stepRead f count

/-- `sidx` (R194). -/
def execSidx (f : StreamCmd) (s : State) : Res := portCommand s true fun c => c.rows f false
/-- `sgath` (R192, R194): each distinct row is fetched once; the reuse class changes no value. -/
def execSgath (f : StreamCmd) (s : State) : Res := portCommand s true fun c => c.rows f true

/-- `sconst` (R192). -/
def execSconst (f : StreamCmd) (s : State) : Res :=
  portCommand s true fun c =>
    if f.constCount ≤ c.p.elem then c.endRead f
    else (c.add (tokenAccess ⟨BitVec.ofNat 64 f.const, 0, false⟩)).stepRead f f.constCount

/-- `seos` (R192). -/
def execSeos (f : StreamCmd) (s : State) : Res :=
  portCommand s true fun c => let c := c.add (tokenAccess (marker 0)); c.put (c.p.next f.flagC)

/-- `scfg` (R192): commands run in order, so the register changes at a stream boundary. -/
def execScfg (f : StreamCmd) (s : State) : Res :=
  portCommand s false fun c => c.put ({ c.p with strides := Map.set 0 c.p.strides (f.pattern.toNat % 4) (f.base.signExtend 64) }.next f.flagC)

/-- A port's request to an owner node. -/
def PortCtx.sendOwner (c : PortCtx) (va size pa : Nat) (work : OwnerWork) : PortCtx :=
  let id := c.s.nextId
  let c := c.add { id := id, cmd := 0, va := va, size := size, kind := .owner }
  { c with s := c.s.sendOwner (.port (c.key / 64) (c.key % 64) id) pa work }

/-- The bytes gathered for a landing row go to its owner node, through the slot that covers their page now (R354). -/
def PortCtx.flushRow (c : PortCtx) (va : Nat) (bs : List Byte) : Res :=
  c.at_ va wantStreamWrite fun c pa near =>
    let c := { c with p := { c.p with row := none } }
    let c := if near then c.sendOwner va bs.length pa (.store pa bs) else c.add { id := 0, cmd := 0, va := va, size := bs.length, kind := .write pa bs }
    c.put c.p

/-- Bytes of an element for a bound landing range: a whole row is one contribution (R380). -/
def PortCtx.gatherRow (c : PortCtx) (va : Nat) (bs : List Byte) : PortCtx :=
  { c with p := { c.p with row := some (match c.p.row with | some (v, xs) => (v, xs ++ bs) | none => (va, bs)) } }

/-- An element at an address continues the row that is being gathered, inside its line. -/
def rowGrows (v n va : Nat) : Bool := n < 64 && v + n == va && v / 64 == va / 64

/-- `swrite` and `sred`: take the next token or element (R191-R193). `red` is the operator of `sred`. The row that is being
gathered for a landing range goes first, unless the next element continues it. -/
def PortCtx.writes (c : PortCtx) (f : StreamCmd) (red : Option Nat) : Res :=
  let l := f.lay c.p.strides
  let fc := c.s.fc
  let finish (c : PortCtx) : Res := c.put (c.p.next f.flagC)
  let taken (c : PortCtx) : PortCtx := { c with p := { c.p with wr := c.p.wr.pop fc } }
  let want := match red with | some _ => { wantStreamWrite with r := true, n := .require } | none => wantStreamWrite
  let va := (l.at c.p.elem).toNat
  let element (c : PortCtx) (bs : List Byte) : Res :=
    c.at_ va want fun c pa near =>
      let c := if c.p.unpack.isEmpty then taken c else c
      let c := match red, near with
        | some code, _ => c.sendOwner va l.size pa (match nmOp code with | some op => .word pa op l.size (BitVec.ofNat 64 (leValue bs)) (nmClass code l.size) | none => .misuse)
        | none, true => if (c.s.landingAt (pa / 64)).isSome then c.gatherRow va bs else c.sendOwner va l.size pa (.store pa bs)
        | none, false => c.add { id := 0, cmd := 0, va := va, size := l.size, kind := .write pa bs }
      let c := { c with p := { c.p with elem := c.p.elem + 1, unpack := c.p.unpack.drop l.size } }
      if c.p.elem == l.count && !f.flagE && c.p.row.isNone then finish c else c.put c.p
  let next : Res :=
    if c.p.elem == l.count && !f.flagE then finish c
    else if c.p.elem < l.count && !c.p.unpack.isEmpty then element c (c.p.unpack.take l.size)
    else match c.p.wr.head fc with
      | none => c.stay
      | some (x, _) =>
        if x.eos then
          if c.p.elem == l.count then finish (taken c) else (taken c).put (taken c).p
        else if c.p.elem == l.count then c.stay
        else if f.flags.getLsbD 1 then (let c := taken c; c.put { c.p with unpack := leBytes 8 x.data.toNat })
        else element c (leBytes l.size x.data.toNat)
  match c.p.row with
  | some (v, bs) => if c.p.elem < l.count && rowGrows v bs.length va then next else c.flushRow v bs
  | none => next

/-- `swrite` (R191-R193). -/
def execSwrite (f : StreamCmd) (s : State) : Res := portCommand s false fun c => c.writes f none
/-- `sred` (R192): N pages only. -/
def execSred (f : StreamCmd) (s : State) : Res := portCommand s false fun c => c.writes f (some f.op)

/-- Every access of the port that has been issued has performed at memory. -/
def Port.settled (p : Port) : Bool :=
  p.accesses.all fun a => match a.kind with | .read _ => a.value.isSome | .write _ _ => false | .owner => false | _ => true

/-- `sdrain` (R192, R354): its token reaches the memory edge behind the accesses already issued. -/
def execSdrain (f : StreamCmd) (s : State) : Res :=
  portCommand s false fun c => if c.p.settled then c.put ({ c.p with drains := c.p.drains + 1 }.next f.flagC) else c.stay

/-- Increment of `sbar` (R192). -/
def StreamCmd.increment (f : StreamCmd) : Nat := bitsAt f.pattern.toNat 9 32

/-- `sbar` (R192, R232): after every earlier command has performed, `arrive.dev` carrying clock 0, through the port's slots
(R352). -/
def execSbar (f : StreamCmd) (s : State) : Res :=
  portCommand s false fun c =>
    if !c.p.settled then c.stay
    else
      let va := 512 * f.base.toNat + f.pattern.toNat % 512
      c.at_ va wantAtomic fun c pa _ =>
        let tag := c.p.arriving.getD c.s.nextId
        let s := if c.p.arriving.isSome then c.s else { c.s with nextId := c.s.nextId + 1 }
        match s.arriveAt pa (BitVec.ofNat 64 (StreamCmd.increment f)) 0 tag with
        | .done s _ => ({ c with s := s } : PortCtx).put ({ c.p with arriving := none }.next f.flagC)
        | .wait s => ({ c with s := s } : PortCtx).put { c.p with arriving := some tag }
        | .bad s => .next (s.failRegion c.n.region c.n c.p.x c.p.y faultData 2 (BitVec.ofNat 64 va) 0 (some c.key))

/-- The next lines of a landing range, as far as its 64 KiB unit goes, become physical lines through the port's slots (R352);
a range that does not lie on N pages of the port's die fails the region (R345, R379). -/
def PortCtx.landingLines (c : PortCtx) (va n : Nat) : Res :=
  let v := va + 64 * c.p.lines.length
  c.at_ v { wantStreamWrite with n := .require } fun c pa _ =>
    if paTarget pa == .hbm && paDie pa == c.die then
      c.put { c.p with lines := c.p.lines ++ (List.range (min (n - c.p.lines.length) ((65536 - v % 65536) / 64))).map (pa / 64 + ·) }
    else c.streamFail v

/-- The done barrier of a landing header lies on an ordinary page, as far as its page is mapped (R379). -/
def PortCtx.doneOk (c : PortCtx) (done : Dword) : Bool :=
  done == 0 || match c.s.leafOf c.dom done.toNat wantAtomic with
    | .inl x => !x.near
    | .inr _ => true

/-- Staging lines that the ordered bindings of a die hold (R381). -/
def State.stagingUsed (s : State) (die : Nat) : Nat :=
  ((s.mem.landings.filter fun e => e.2.die == die && e.2.ordered).map fun e => (e.2.lines.length - 1) * e.2.e).foldl (· + ·) 0

/-- `sland` (R379, R381, R382): once its lines are known and its header's turn has come, the range is bound, and the command
stays at the head until its binding ends. -/
def execSland (f : StreamCmd) (s : State) : Res :=
  portCommand s false fun c =>
    match c.p.landing with
    | some id => if (c.s.mem.landings.look id).isSome then c.stay else c.put ({ c.p with landing := none }.next f.flagC)
    | none =>
      let n := bitsAt f.pattern.toNat 9 20
      let va := 512 * f.base.toNat + f.pattern.toNat % 512
      if c.p.lines.length < n then c.landingLines va n
      else if !c.p.turn { id := c.s.nextId, cmd := c.p.cmd, va := va, size := 64, kind := .owner } then c.stay
      else
        let h := (c.s.mem.line (c.p.lines.headD 0)).toNat
        let done := BitVec.ofNat 64 h
        let bound := BitVec.ofNat 64 (h / 2 ^ 64)
        let e := h / 2 ^ 128 % 2 ^ 32
        let ordered := f.flags.getLsbD 0
        let stage := (n - 1) * e
        if c.s.mem.bad.contains (c.p.lines.headD 0) then c.dataFail (c.p.lines.headD 0) va
        else if e == 0 || 1024 < e || done.toNat % 32 != 0 || !c.doneOk done || bound.toNat % 32 != 0 || h / 2 ^ 160 != 0 || (ordered && 65536 < stage) then c.configFail
        else if ordered && 65536 < c.s.stagingUsed c.die + stage then c.stay
        else
          let id := c.s.nextId
          let b : Landing := { die := c.die, port := c.key % 64, region := c.n.region, lines := c.p.lines, fmt := bitsAt f.pattern.toNat 29 3, ordered := ordered, e := e, doneVa := done, domain := c.dom }
          let s := { c.s with nextId := id + 1, mem := { c.s.mem with landings := c.s.mem.landings.put id b } }
          let s := if bound == 0 then s else s.signal c.dom bound 0 none
          ({ c with s := s } : PortCtx).put { c.p with landing := some id, lines := [] }

/-- `spage` (R192, R352): the page that contains the base goes into the named slot. -/
def execSpage (f : StreamCmd) (s : State) : Res :=
  portCommand s false fun c =>
    let slot := f.pattern.toNat % 64
    let level := 4 - bitsAt f.pattern.toNat 6 2
    let size := 2 ^ levelShift level
    let va := 512 * f.base.toNat
    let holds := (c.p.extents.look slot).any fun x => x.size == size && x.va == va / size * size
    let p := if holds then c.p
      else match c.s.leafOf c.dom va wantStreamRead with
        | .inl x => if x.level ≤ level then { c.p with extents := c.p.extents.put slot { va := va / size * size, size := size, leaf := x.ent, level := x.level, used := c.s.now } } else { c.p with extents := c.p.extents.del slot }
        | .inr _ => { c.p with extents := c.p.extents.del slot }
    c.put (p.next f.flagC)

/-! ### Accesses at memory (R283) -/

/-- Replace or remove an access. -/
def Port.setAccess (p : Port) (a : Access) : Port := { p with accesses := p.accesses.map fun b => if b.id == a.id then a else b }
def Port.dropAccess (p : Port) (id : Nat) : Port := { p with accesses := p.accesses.filter fun b => b.id != id }

/-- The first access whose token has not entered the crossbar. -/
def Port.oldest (p : Port) : Option Access := p.accesses.find? fun a => match a.kind with | .write _ _ => false | .owner => false | _ => true

/-- The token of the oldest access enters the crossbar, if there is room (R192, R269). A packed element only joins the
packing buffer until eight bytes are there. -/
def Port.emit (p : Port) (a : Access) (fc : Nat) : Port :=
  let send (p : Port) (t : Token) : Port := if p.rd.accepts 16 fc then { (p.dropAccess a.id) with rd := p.rd.push t fc (fc + 4) } else p
  match a.kind, match a.kind with | .replay => p.rowCache.look (a.cmd * 2 ^ 57 + a.va) | _ => a.value with
  | _, none => p
  | .token t, some _ => send p t
  | _, some v =>
    if a.packed then
      let bytes := p.pack ++ leBytes a.size v
      if 8 ≤ bytes.length || a.flush then
        if p.rd.accepts 16 fc then { (send p ⟨BitVec.ofNat 64 (leValue (bytes.take 8)), 0, false⟩) with pack := [] } else p
      else { (p.dropAccess a.id) with pack := bytes }
    else send p ⟨BitVec.ofNat 64 v, 0, false⟩

/-- An access that a checkpoint held, once it has its place again: nothing while its page is not to be had (R361). -/
def Access.placed (a : Access) (pa : Nat) : Access :=
  { a with again := false, kind := match a.kind with | .read _ => .read pa | .write _ bs => .write pa bs | k => k }

/-- An access that a checkpoint held is translated afresh through the port's slots, as a new one is (R352, R361). -/
def State.placeAccess (s : State) (key : Nat) (p : Port) (a : Access) : State :=
  match p.slotOf a.va with
  | none => if p.wants.isSome || p.withheld.isSome then s else s.setPort key { p with wants := some a.va }
  | some (_, x) =>
    let leaf : Leaf := ⟨x.leaf, x.level⟩
    let want := match a.kind with | .write _ _ => wantStreamWrite | _ => wantStreamRead
    if x.stale then s
    else match s.permFault (s.instDomain (p.inst.getD 0)) a.va leaf want, p.inst.bind fun i => s.annex.insts.look i with
      | some _, some n => s.failRegion n.region n p.x p.y faultStream 2 (BitVec.ofNat 64 a.va) p.where_ (some key)
      | some _, none => s
      | none, _ => s.setPort key (p.setAccess (a.placed (leaf.pa a.va)))

/-- STREAM_ACCESS_PERFORMED: a read takes its bytes at memory or, when it has, sends its token; a write performs
(R283). -/
def execStreamAccessPerformed (die port access : Nat) (s : State) : Res :=
  let key := 64 * die + port
  match s.annex.ports.look key with
  | none => .next s
  | some p =>
    match p.accesses.find? fun a => a.id == access with
    | none => .next s
    | some a =>
      let emit : Res := if p.oldest.any (fun b => b.id == a.id) then .next (s.setPort key (p.emit a s.fc)) else .next s
      if a.again then .next (s.placeAccess key p a)
      else match a.kind with
      | .owner => .next s
      | .write pa bytes => if p.turn a then .next (({ s with mem := s.mem.setBytes pa bytes } : State).setPort key (p.dropAccess a.id)) else .next s
      | .read pa =>
        if a.value.isSome then emit
        else if !p.turn a then .next s
        else if s.mem.bad.contains (pa / 64) then
          match p.inst.bind fun i => s.annex.insts.look i with
          | some n => .next ((s.logBad (pa / 64) (s.instDomain (p.inst.getD 0))).failRegion n.region n p.x p.y faultData 2 (BitVec.ofNat 64 a.va) 0 (some key))
          | none => .next s
        else
          let v := s.regionRead pa a.size
          let p := p.setAccess { a with value := some v }
          let p := if a.keep then { p with rowCache := p.rowCache.put (a.cmd * 2 ^ 57 + a.va) v } else p
          .next (({ s with fresh := s.fresh + 1 } : State).setPort key p)
      | _ => emit

/-! ### Pages of a port (R352-R354) -/

/-- The region's timeout clears when none of its ports withholds (R353). -/
def State.clearTimeout (s : State) (region : Nat) : State :=
  match s.annex.regions.look region with
  | none => s
  | some g =>
    let holds := s.annex.ports.any fun e => e.2.withheld.isSome && (match e.2.inst with | some i => g.insts.contains i | none => false)
    if holds then s else s.onRegion region fun g => { g with timeoutAt := none }

/-- A port translates an address (R352, R353): the page goes into a slot; a missing page writes a STREAM record, and
the port withholds; anything else fails the region. -/
def State.portTranslate (s : State) (key : Nat) (p : Port) (n : Inst) (va : Nat) : State :=
  let d := s.instDomain (p.inst.getD 0)
  match s.leafOf d va wantStreamRead with
  | .inl x =>
    let s := { s with mem := if (s.mem.tlb.look (tlbKey d va)).isSome then s.mem else s.mem.addLeaf 0 (tlbKey d va) x }
    (s.setPort key { (p.setExtent p.victim va x s.now) with wants := none, withheld := none }).clearTimeout n.region
  | .inr (code, _) =>
    if code == faultPage then
      let id := s.nextId
      let s := s.raiseRegion n.region n p.x p.y faultStream 2 (flagByte true false false false) (BitVec.ofNat 64 va) p.where_ (some key)
      let s := s.setPort key { p with withheld := some id, wants := some va }
      s.onRegion n.region fun g => { g with timeoutAt := if g.timeoutAt.isSome then g.timeoutAt else some s.now, pending := g.pending ++ [id] }
    else (s.logWalk d { code := code, va := BitVec.ofNat 64 va }).failRegion n.region n p.x p.y (if code == faultData then faultData else faultStream) 2 (BitVec.ofNat 64 va) p.where_ (some key)

/-- PORT_TRANSLATE (R352, R353): in a draining region too, whose write streams keep performing (R360). -/
def execPortTranslate (die port : Nat) (s : State) : Res :=
  let key := 64 * die + port
  match s.annex.ports.look key with
  | none => .next s
  | some p =>
    match p.wants, p.inst.bind fun i => s.annex.insts.look i with
    | some va, some n => if p.withheld.isSome || !(n.state == .running || n.state == .draining) then .next s else .next (s.portTranslate key p n va)
    | _, _ => .next s

end Sys2Proof.Machine
end

