-- ==== Sys2Proof/Machine/Owner.lean ====
section
/-! DEFINITION. Owner nodes (R286, R287) and the collective landing zone (R380-R382). -/
namespace Sys2Proof.Machine

/-! ### Arrival (R286) -/

/-- The line a request addresses. -/
def OwnerWork.line : OwnerWork → Option Nat
  | .load _ line => some line
  | .store pa _ => some (pa / 64)
  | .courier pa _ _ => some (pa / 64)
  | .word pa _ _ _ _ => some (pa / 64)
  | .index pa _ _ _ => some (pa / 64)
  | _ => none
/-- A near-memory request, which is ordered only within its instruction (R182). -/
def OwnerWork.near : OwnerWork → Bool
  | .word _ _ _ _ _ => true
  | .index _ _ _ _ => true
  | .misuse => true
  | _ => false

/-- An older request that has to arrive first (R115, R182, R286, R375). -/
def OwnerReq.before (a b : OwnerReq) : Bool :=
  match a.from_, b.from_ with
  | .group k op, .group k' op' => k == k' && a.work.line == b.work.line && (op == op' || (!a.work.near && !b.work.near))
  | .port d p _, .port d' p' _ => d == d' && p == p' && a.die == b.die && a.node == b.node
  | .copy i, .copy i' => i == i' && a.work.line == b.work.line
  | .outside d, .outside d' => d == d' && a.work.line == b.work.line
  | _, _ => false

/-- The port that holds an access: its instance, its place, and its number on the die while it is at work. -/
def State.portHolding (s : State) (access : Nat) : Option (Inst × Port × Option Nat) :=
  let has (p : Port) : Bool := p.accesses.any fun a => a.id == access
  match s.annex.ports.find? fun e => has e.2 with
  | some e => (e.2.inst.bind fun i => s.annex.insts.look i).map fun n => (n, e.2, some e.1)
  | none => (s.annex.checkpoints.findSome? fun c => (c.ports.find? fun e => has e.2).map fun e => (c.inst, e.2, none))

/-- The earlier accesses of the port to the same address have performed (R283). -/
def State.portTurn (s : State) (q : OwnerReq) : Bool :=
  match q.from_ with
  | .port _ _ access => match (s.portHolding access).bind fun x => (x.2.1.accesses.find? fun a => a.id == access).map fun a => (x.2.1, a) with
    | some (p, a) => p.turn a
    | none => true
  | _ => true

/-- A store of a group waits for the rows that an earlier `gath` of the group reads there (R115). -/
def State.gathTurn (s : State) (id : Nat) (q : OwnerReq) : Bool :=
  match q.from_, q.work with
  | .group key _, .store pa _ => !s.gathReads key id (pa / 64)
  | _, _ => true

/-- A request reaches the queue of 64 of its node of this device; the queue keeps the order of arrival. -/
def State.arriveOwner (s : State) (id : Nat) : State :=
  match s.mem.owner.look id with
  | none => s
  | some q =>
    let queued := (s.mem.owner.filter fun e => e.2.queued && e.2.die == q.die && e.2.node == q.node).length
    if q.queued || 64 ≤ queued || q.work.line.any linePeer || !s.portTurn q || !s.gathTurn id q || s.mem.owner.any (fun e => e.1 < id && !e.2.queued && e.2.before q) then s
    else { s with nextId := s.nextId + 1, mem := { s.mem with owner := (s.mem.owner.del id).put s.nextId { q with queued := true, bound := (q.work.line.bind s.landingAt).map (·.1) } } }

/-! ### Completion at the sender -/

/-- Remove an access of a port, wherever the port stands by now: at work, in a checkpoint, or placed again (R361). -/
def State.portDone (s : State) (access : Nat) : State :=
  { s with annex := { s.annex with ports := s.annex.ports.map fun e => (e.1, e.2.dropAccess access), checkpoints := s.annex.checkpoints.map fun c => { c with ports := c.ports.map fun e => (e.1, e.2.dropAccess access) } } }

/-- The device answers the host, or a peer over the Spire link (R374, LOG 36). -/
def State.answer (s : State) (device : Nat) (bs : List Byte) : State :=
  let s := { s with links := { s.links with replies := s.links.replies ++ [(device, bs)] } }
  if device == Config.deviceNumber then s else s.sendFlit device

/-- A write or a reduction from outside is done: a peer is told so (R376), and the host is not. -/
def State.confirm (s : State) (device : Nat) : State := if device == Config.deviceNumber then s else s.answer device []

/-- An uncorrectable error that a request of the host meets is logged in the CXL RAS structure (R373). -/
def State.logRas (s : State) (device line : Nat) : State :=
  if device == Config.deviceNumber then { s with links := { s.links with ras := s.links.ras ++ [line] } } else s

/-- The sender learns that its request has been applied, stored or discarded. -/
def State.ownerDone (s : State) (f : OwnerFrom) : State :=
  match f with
  | .outside d => s.confirm d
  | .device => s
  | .group key op => s.partDone key op 1
  | .copy id => match s.copies.look id with | some c => s.copyAcked id c.op 0 | none => s
  | .port _ _ access => s.portDone access

/-- A request whose line could not be read is not applied, and its sender takes DATA, a group once its operation completes
(R114, R407). -/
def State.ownerFault (s : State) (f : OwnerFrom) (va : Dword) (lane : Nat := 32) : State :=
  let bad : List (Nat × FaultInfo) := [(lane, dataInfo (if lane < 32 then BitVec.ofNat 8 lane else 0xFF) va)]
  match f with
  | .outside d => s.confirm d
  | .device => s
  | .group key op => s.partBad key op bad
  | .copy id => match s.copies.look id with | some c => (s.onGroup c.group fun g => g.addBad c.op bad).copyAcked id c.op 0 | none => s
  | .port _ _ access => match s.portHolding access with
    | some (n, p, key) => (s.portDone access).failRegion n.region n p.x p.y faultData 2 va 0 key
    | none => s

/-- The domain that a request acts for. -/
def State.ownerDomain (s : State) (f : OwnerFrom) : Nat :=
  match f with
  | .group key _ => match s.groups.look key with | some g => g.domain | none => 0
  | .copy id => match (s.copies.look id).bind fun c => s.groups.look c.group with | some g => g.domain | none => 0
  | .port _ _ access => match s.portHolding access with
    | some (n, _, _) => (match s.annex.regions.look n.region with | some g => g.record.domain | none => 0)
    | none => 0
  | .outside _ => 0
  | .device => 0

/-! ### Landing (R380-R382) -/

/-- The source number of a contribution (R380). -/
def OwnerFrom.source (f : OwnerFrom) : Nat := match f with | .outside d => d | _ => Config.deviceNumber

/-- Two rows added element by element (R381). -/
def rowAdd (fmt : Nat) (a b : LineData) : LineData :=
  let words (n w : Nat) (fn : Nat → Nat → Nat) : LineData :=
    BitVec.ofNat 512 ((List.range n).foldl (fun acc i => acc + fn (lineValue a (w * i) w) (lineValue b (w * i) w) % 2 ^ (8 * w) * 2 ^ (8 * w * i)) 0)
  match fmt with
  | 0 => words 16 4 (fp32.add .rne)
  | 1 => words 32 2 (bfloat16.add .rne)
  | _ => words 16 4 fun x y => x + y

/-- Insert a staged row by its source number, after those with the same (R381). -/
def stageInsert (xs : List (Nat × LineData)) (x : Nat × LineData) : List (Nat × LineData) :=
  match xs with
  | [] => [x]
  | y :: t => if x.1 < y.1 then x :: y :: t else y :: stageInsert t x

/-- BINDING_END: every data row holds E contributions: the done barrier steps, and the staging lines are free (R382). -/
def State.tryBinding (s : State) (id : Nat) : State :=
  match s.mem.landings.look id with
  | none => s
  | some b =>
    if (b.lines.drop 1).all fun l => Map.get 0 b.count l == b.e then
      let s := { s with mem := { s.mem with landings := s.mem.landings.del id } }
      if b.doneVa == 0 then s
      else s.signal b.domain b.doneVa 0 none
    else s

/-- LANDING_SUM: a contribution to a row of a binding (R380, R381). -/
def State.land (s : State) (id : Nat) (b : Landing) (c : Contribution) : State :=
  let n := Map.get 0 b.count c.line
  let node := paNode (64 * c.line)
  let store (s : State) (d : LineData) : State := { s with mem := s.mem.setLine c.line d (BitVec.allOnes 64) }
  let setB (s : State) (b : Landing) : State := { s with mem := { s.mem with landings := s.mem.landings.put id b } }
  let row := s.mem.line c.line
  if b.e ≤ n then (s.noteMisuse b.die node).ownerDone c.from_
  else if s.mem.bad.contains c.line then
    let s := s.logBad c.line (s.ownerDomain c.from_)
    let s := { s with mem := { s.mem with landings := s.mem.landings.del id } }
    s.ownerFault c.from_ 0
  else if b.ordered then
    let staged := Map.get [] b.staged c.line ++ [(c.source, c.data)]
    let full := n + 1 == b.e
    let sum := (staged.foldl stageInsert []).foldl (fun d x => rowAdd b.fmt d x.2) row
    let s := if full then store s sum else s
    let s := setB s { b with count := b.count.put c.line (n + 1), staged := if full then b.staged.del c.line else b.staged.put c.line staged }
    (s.ownerDone c.from_).tryBinding id
  else
    let s := setB (store s (rowAdd b.fmt row c.data)) { b with count := b.count.put c.line (n + 1) }
    (s.ownerDone c.from_).tryBinding id

/-! ### Application (R286) -/

/-- A store of bytes at a node: plain where it arrived with no binding on its line (R379), otherwise a contribution to the bound
range, or a misuse of it (R380). A row whose binding has ended since it arrived is discarded as surplus (LOG 72). -/
def State.ownerStore (s : State) (q : OwnerReq) (pa : Nat) (bs : List Byte) : State :=
  let row := pa % 64 == 0 && bs.length == 64
  match q.bound with
  | some id => match s.mem.landings.look id with
    | some b =>
      if row && b.lines.head? != some (pa / 64) then
        s.land id b { source := q.from_.source, line := pa / 64, data := BitVec.ofNat 512 (leValue bs), from_ := q.from_ }
      else (s.noteMisuse q.die q.node).ownerDone q.from_
    | none => (s.noteMisuse q.die q.node).ownerDone q.from_
  | none =>
    let s := { s with mem := s.mem.setBytes pa bs }
    let s := if row then { s with mem := s.mem.heal (· == pa / 64) } else s
    (s.noteClass q.die q.node pa bs.length (nmClass 10 bs.length)).ownerDone q.from_

/-- An operator applied to a word at a node (R124, R181); one that arrived while a binding held its line is a misuse (R380). -/
def State.ownerWord (s : State) (q : OwnerReq) (pa : Nat) (op : AtomicOp) (size : Nat) (value : Dword) (cls : Nat) : State :=
  if q.bound.isSome then (s.noteMisuse q.die q.node).ownerDone q.from_
  else if s.mem.bad.contains (pa / 64) then (s.logBad (pa / 64) (s.ownerDomain q.from_)).ownerFault q.from_ q.va q.lane
  else
    let old := leValue ((List.range size).map fun i => s.mem.byte (pa + i))
    let new := AtomicOp.apply op size (BitVec.ofNat 64 old) value 0
    (({ s with mem := s.mem.setBytes pa (leBytes size new.toNat) } : State).noteClass q.die q.node pa size cls).ownerDone q.from_

/-- A host's or a peer's read at a node: the bytes, or for the host all ones, with vector 64 and an entry of the CXL RAS log
(R370, R373, R378). -/
def State.answerNear (s : State) (device : Nat) (loads : List LaneLoad) (line : Nat) : State :=
  let x := loads.headD { lane := 0, reg := 0, off := 0, size := 0 }
  if s.mem.bad.contains line then
    ((s.logBad line 0).logRas device line).answer device (if device == Config.deviceNumber then List.replicate x.size 0xFF else [])
  else s.answer device ((List.range x.size).map fun i => lineByte (s.mem.line line) (x.off + i))

/-- Apply a request (R286). -/
def State.ownerApply (s : State) (q : OwnerReq) : State :=
  let data (line : Nat) : State := (s.logBad line (s.ownerDomain q.from_)).ownerFault q.from_ q.va
  match q.work with
  | .load loads line =>
    match q.from_ with
    | .group key op =>
      if s.mem.bad.contains line then
        let helper (x : LaneLoad) : Bool := match s.groups.look key with | some g => g.helper.getLsbD x.lane | none => false
        let bad := (loads.filter fun x => !helper x).map fun x => (x.lane, dataInfo (BitVec.ofNat 8 x.lane) x.va)
        ((s.onGroup key fun g => g.loadLanes (loads.filter helper) 0).logBad line (s.ownerDomain q.from_)).partBad key op bad
      else (s.onGroup key fun g => g.loadLanes loads (s.mem.line line)).partDone key op 1
    | .outside d => s.answerNear d loads line
    | f => s.ownerDone f
  | .touch => s.ownerDone q.from_
  | .store pa bs => s.ownerStore q pa bs
  | .courier pa copy src =>
    match s.copies.look copy with
    | none => s
    | some c =>
      let byte (o : Nat) : Byte := if c.tainted.contains o then Config.freeByte s.fresh o else match s.blocks.look c.block with | some b => b.read o | none => 0
      ({ s with fresh := s.fresh + 1 } : State).ownerStore q pa (src.map byte)
  | .word pa op size value cls => s.ownerWord q pa op size value cls
  | .index pa src op cls =>
    match s.answered (src / 64) true with
    | some (d, bad) => if bad then (s.useUp [src / 64]).ownerFault q.from_ q.va else (s.useUp [src / 64]).ownerWord q pa op 4 (BitVec.ofNat 64 (lineValue d (src % 64) 4)) cls
    | none =>
      if s.mem.bad.contains (src / 64) then data (src / 64)
      else s.ownerWord q pa op 4 (BitVec.ofNat 64 (leValue ((List.range 4).map fun i => s.mem.byte (src + i)))) cls
  | .misuse => (s.noteMisuse q.die q.node).ownerDone q.from_

/-- The request at the head of a node's queue. -/
def State.nodeHead (s : State) (die node : Nat) : Option (Nat × OwnerReq) := s.mem.owner.find? fun e => e.2.queued && e.2.die == die && e.2.node == node

/-- A write of a whole data row of the binding that held its line when it arrived (R380). -/
def State.contributes (s : State) (q : OwnerReq) : Bool :=
  let row (pa n : Nat) : Bool := pa % 64 == 0 && n == 64 && (q.bound.bind s.mem.landings.look).any fun b => b.lines.head? != some (pa / 64)
  match q.work with
  | .store pa bs => row pa bs.length
  | .courier pa _ src => row pa src.length
  | _ => false

/-- A source word of `nidx` that stands in a peer's memory and has yet to come (R378). -/
def State.sourceMissing (s : State) (q : OwnerReq) : Option Nat :=
  match q.work with
  | .index _ src _ _ => if lineRemote (src / 64) && (s.answered (src / 64) true).isNone then some (src / 64) else none
  | _ => none

/-- The head of a node's queue is applied, if a test accepts it; its source word comes first. -/
def State.applyHead (s : State) (die node : Nat) (which : OwnerReq → Bool) : State :=
  match s.nodeHead die node with
  | none => s
  | some (id, q) =>
    if !which q then s
    else match s.sourceMissing q with
      | some line => s.bring line false true
      | none => ({ s with mem := { s.mem with owner := s.mem.owner.del id } } : State).ownerApply q

/-- OWNER_APPLY: the node applies the head of its queue (R286). -/
def execOwnerApply (die node : Nat) (s : State) : Res := .next (s.applyHead die node fun q => !s.contributes q)

/-- LANDING_CONTRIBUTION: the head of the queue of the node numbered `index` is a contribution, which is added to its row or
stored (R380, R381). -/
def execLandingContribution (die index : Nat) (s : State) : Res := .next (s.applyHead die index s.contributes)

/-! ### Peers' answers (R237, R375, R378) -/

/-- A request to an owner node of a peer whose turn it is: the older requests of this device to the line are answered
(R375). -/
def State.ownerAtPeer (s : State) (id : Nat) : Option (OwnerReq × Nat) :=
  match s.mem.owner.look id with
  | none => none
  | some q => match q.work.line with
    | none => none
    | some line =>
      let older := s.mem.owner.any (fun e => e.1 < id && e.2.work.line == some line) || s.mem.msgs.any fun e => e.2.line == line && (match e.2.stage with | .atOwner k => k < id | _ => false)
      if linePeer line && !older then some (q, line) else none

/-- A peer's owner node has performed a request; a load takes the bytes that it sends (R378). -/
def State.peerApplied (s : State) (q : OwnerReq) (data : LineData) : State :=
  match q.work, q.from_ with
  | .load loads _, .group key op => (s.onGroup key fun g => g.loadLanes loads data).partDone key op 1
  | _, f => s.ownerDone f

/-- PEER_RESPONSE: a peer answers over the Spire link a request for a line, or one to its owner nodes (R237, R375, R378). -/
def execPeerResponse (id : Nat) (data : LineData) (s : State) : Res :=
  match s.ownerAtPeer id with
  | some (q, _) => .next (({ s with mem := { s.mem with owner := s.mem.owner.del id } } : State).peerApplied q data)
  | none => match s.mem.msgs.look id with
    | none => .next s
    | some m =>
      let waits := match m.stage with | .atOwner n => s.mem.owner.any fun e => e.1 < n && e.2.work.line == some m.line | _ => false
      if !linePeer m.line || !s.turnAtPeer m || waits then .next s
      else if m.kind.isStore && m.scope == .sys then .next (s.perform id m none false)
      else .next (s.ownerAnswers id m data)

/-- OWNER_COUNTER_REPORT: a kind 11 record with the counters of a node (R408). -/
def execOwnerCounterReport (die node : Nat) (s : State) : Res :=
  let x := s.node die node
  .next (s.serve 11 6 (nodeKey die node) x.mix x.misuse.toNat)

end Sys2Proof.Machine
end

