-- ==== Sys2Proof/Machine/Lane.lean ====
section
/-! DEFINITION. Cross-lane instructions, major 0x04 (R43, R101-R103). -/
namespace Sys2Proof.Machine

/-- A shuffle: each active lane reads a from the lane that `src` gives; its count is bits 31:0 of the b operand, which is as
wide as the type (R49, R83, R101). -/
def runShfl (i : Instr) (f : FormV) (s : State) (src : Nat → Nat → Int) : Res :=
  issue i s fun c => c.finish (c.g.setLanes f.ty.wide f.d.toNat ((c.active f.g).map fun l =>
    (l, c.cross f.ty.wide f.a.toNat (src l (low 32 (c.opB f immInt f.ty.wide l)).toNat))))

def execShflIdx (f : FormV) (s : State) : Res := runShfl (.shflIdx f) f s fun _ n => (n : Int)
def execShflUp (f : FormV) (s : State) : Res := runShfl (.shflUp f) f s fun l n => (l : Int) - (n : Int)
def execShflDown (f : FormV) (s : State) : Res := runShfl (.shflDown f) f s fun l n => (l : Int) + (n : Int)
def execShflXor (f : FormV) (s : State) : Res := runShfl (.shflXor f) f s fun l n => ((l ^^^ n : Nat) : Int)
def execQswapH (f : FormV) (s : State) : Res := runShfl (.qswapH f) f s fun l _ => ((l ^^^ 1 : Nat) : Int)
def execQswapV (f : FormV) (s : State) : Res := runShfl (.qswapV f) f s fun l _ => ((l ^^^ 2 : Nat) : Int)
def execQswapD (f : FormV) (s : State) : Res := runShfl (.qswapD f) f s fun l _ => ((l ^^^ 3 : Nat) : Int)
def execQbcast (f : FormV) (s : State) : Res := runShfl (.qbcast f) f s fun l n => ((4 * (l / 4) + n % 4 : Nat) : Int)

/-- The values a of the lanes of part, in ascending lane order. -/
def Ctx.partVals (c : Ctx) (f : FormV) : List (Nat × Dword) :=
  (c.part f.g).map fun l => (l, c.lane f.ty.wide f.a.toNat l)

/-- Exact integer sum of values. -/
def intSum (t : Ty) (xs : List Dword) : Int := xs.foldl (fun n x => n + t.val x) 0

/-- FP32 sum in ascending order, one rounding per addition; a NaN result is canonical (R102, R22). -/
def fpSum (rm : Rm) (xs : List Dword) : Nat :=
  match xs with
  | [] => 0
  | x :: rest => fp32.canon (rest.foldl (fun s y => fp32.add rm s (y.setWidth 32).toNat) (x.setWidth 32).toNat)

/-- `redx.add` over values (R102); also the reduction of `aacc` (R176). -/
def reduceAdd (t : Ty) (rm : Rm) (sat : Bool) (xs : List Dword) : Dword :=
  if t == .f32 then BitVec.ofNat 64 (fpSum rm xs) else t.wrap sat (intSum t xs)

/-- `redx.min` and `redx.max` over values (R102). -/
def reduceExt (t : Ty) (isMax : Bool) (xs : List Dword) : Dword :=
  match xs with
  | [] => 0
  | x :: rest =>
    if t == .f32 then
      BitVec.ofNat 64 (fp32.canon (rest.foldl (fun m y =>
        if isMax then fp32.max m (y.setWidth 32).toNat else fp32.min m (y.setWidth 32).toNat) (x.setWidth 32).toNat))
    else rest.foldl (fun m y => if isMax then (if t.val m < t.val y then y else m) else (if t.val y < t.val m then y else m)) x

/-- A reduction writes the same value in every lane of part (R102). -/
def runRedx (i : Instr) (f : FormV) (s : State) (red : List Dword → Dword) : Res :=
  issue i s fun c =>
    let xs := c.partVals f
    let r := red (xs.map (·.2))
    c.finish (c.g.setLanes f.ty.wide f.d.toNat (xs.map fun e => (e.1, r)))

def execRedxAdd (f : FormV) (s : State) : Res := runRedx (.redxAdd f) f s (reduceAdd f.ty f.rm f.sat)
def execRedxMin (f : FormV) (s : State) : Res := runRedx (.redxMin f) f s (reduceExt f.ty false)
def execRedxMax (f : FormV) (s : State) : Res := runRedx (.redxMax f) f s (reduceExt f.ty true)

/-- `scanx.add` (R102): the sum over the lanes up to a lane, or before it under `.excl`. -/
def execScanxAdd (f : FormV) (s : State) : Res :=
  issue (.scanxAdd f) s fun c =>
    let xs := c.partVals f
    let excl := f.x.getLsbD 0
    let at_ (j : Nat) : Dword :=
      let pre := (xs.take (if excl then j else j + 1)).map (·.2)
      if pre.isEmpty then 0 else reduceAdd f.ty f.rm f.sat pre
    c.finish (c.g.setLanes f.ty.wide f.d.toNat (xs.zipIdx.map fun e => (e.1.1, at_ e.2)))

/-- `compact` (R103). -/
def execCompact (f : FormV) (s : State) : Res :=
  issue (.compact f) s fun c =>
    let part := c.part f.g
    let a (l : Nat) := c.lane false f.a.toNat l
    let b (l : Nat) := c.opB f immInt false l
    let chosen := part.filter fun l =>
      if f.ty == .f32 then condFp 4 (a l).toNat (b l).toNat else condInt 4 (f.ty.val (a l)) (f.ty.val (b l))
    let out := (part.zip chosen).map fun e => (e.1, if f.x.getLsbD 0 then BitVec.ofNat 64 e.2 else a e.2)
    let g := c.g.setLanes false f.d.toNat out
    c.finish (if (c.active f.g).isEmpty then g else g.setS f.c.toNat (BitVec.ofNat 64 chosen.length))

/-- `expand` (R103). -/
def execExpand (f : FormV) (s : State) : Res :=
  issue (.expand f) s fun c =>
    let q := (c.active f.g).filter fun l => c.g.predBit f.b.toNat l
    c.finish (c.g.setLanes f.ty.wide f.d.toNat (q.zipIdx.map fun e => (e.1, c.cross f.ty.wide f.a.toNat (e.2 : Int))))

end Sys2Proof.Machine
end

