-- ==== Sys2Proof/Machine/AnnexCore.lean ====
section
/-! DEFINITION. The Annex instructions of a core, major 0x10 (R174-R184): endpoint slots, stream commands, and
near-memory operations. -/
namespace Sys2Proof.Machine

/-! ### Endpoints (R174-R178) -/

/-- The region that was most recently launched from a record of a domain (R175): its name, or that its packet is still
queued. -/
inductive NamedRegion where
  | none
  | waiting
  | found (key : Nat)
  deriving DecidableEq, Repr

def State.regionFrom (s : State) (d : Nat) (va : Dword) : NamedRegion :=
  match s.belfry.rlaunched.find? fun e => e.1 == d && e.2.1 == va with
  | none => .none
  | some (_, _, queue, slot) =>
    match s.annex.regions.find? fun e => e.2.queue == queue && e.2.slot == slot with
    | some (k, g) => match g.state with
      | .queued => .waiting
      | .loading => .waiting
      | .completed => .none
      | .failed => .none
      | .released => .none
      | _ => .found k
    | none => match s.belfry.queues.look queue with
      | some q => if q.fetch ≤ slot || q.packets.any (fun p => p.slot == slot) then .waiting else .none
      | none => .none

/-- What a region lets a bound slot do (R178). -/
inductive SlotLife where
  | live | paused | gone
  deriving DecidableEq, Repr

def State.slotLife (s : State) (region : Nat) : SlotLife :=
  match s.annex.regions.look region with
  | none => .gone
  | some g => match g.state with
    | .running => .live
    | .completed => .gone
    | .failed => .gone
    | .released => .gone
    | _ => .paused

def State.endpoint (s : State) (region ep : Nat) : Endpoint :=
  match (s.annex.regions.look region).bind fun g => g.eps.look ep with
  | some e => e
  | none => { kind := 0, die := 0, die2 := 0 }

def State.setEndpoint (s : State) (region ep : Nat) (e : Endpoint) : State := s.onRegion region fun g => { g with eps := g.eps.put ep e }

/-- Tokens enter a source endpoint together, and each takes a credit (R176). -/
def State.pushTokens (s : State) (region ep : Nat) (ts : List Token) : State :=
  let e := s.endpoint region ep
  s.setEndpoint region ep { e with credits := e.credits - ts.length, buf := ts.foldl (fun b t => b.push t s.fc (s.fc + 1)) e.buf }

/-- `aopen` (R175). A source whose last holder's marker has yet to go waits for it (LOG 154). A source that is opened again has the credits that its earlier tokens leave (R279), and a sink that was
closed still discards up to the next marker (R178). -/
def execAopen (f : FormV) (s : State) : Res :=
  access (.aopen f) s fun c =>
    if !c.wide f.g then c.finish c.g
    else
      let slot := f.x.toNat % 4
      let sink := f.x.getLsbD 2
      let num := (c.selWide f.b).toNat
      let status (n : Nat) : Res := c.finish (c.g.setS f.d.toNat (BitVec.ofNat 64 n))
      match c.s.regionFrom c.g.domain (c.selWide f.a) with
      | .waiting => c.stall
      | .none => status 1
      | .found r =>
        let e := c.s.endpoint r num
        let sent := match c.s.annex.regions.look r with | some g => c.s.outstanding r g num e | none => 0
        if e.kind != (if sink then 2 else 1) || e.bound.isSome || 16 ≤ num then status 2
        else if (c.g.eps.look slot).isSome then status 3
        else if e.ending then c.stall
        else
          let e := { e with bound := some c.key, credits := if sink then 64 else 64 - sent, buf := if sink then {} else e.buf }
          c.finishIn (c.s.setEndpoint r num e) ({ c.g with eps := c.g.eps.put slot ⟨r, num, sink⟩ }.setS f.d.toNat 0)

/-- ANNEXCFG, precisely (R176, R177). -/
def Ctx.annexFault (c : Ctx) : Res := c.fault { code := faultAnnexcfg }

/-- Send tokens through a source slot (R176, R178). -/
def Ctx.sendTokens (c : Ctx) (slot : Nat) (ts : List Token) : Res :=
  match c.g.eps.look slot with
  | none => c.annexFault
  | some b =>
    if b.sink then c.annexFault
    else if ts.isEmpty then c.finish c.g
    else match c.s.slotLife b.region with
      | .gone => c.finish c.g
      | .paused => c.stall
      | .live => if (c.s.endpoint b.region b.endpoint).credits < ts.length then c.stall else c.finishIn (c.s.pushTokens b.region b.endpoint ts) c.g

/-- `asend` (R176). -/
def execAsend (f : FormV) (s : State) : Res :=
  access (.asend f) s fun c =>
    c.sendTokens (f.x.toNat % 4) ((c.part f.g).map fun l => { data := c.lane f.ty.wide f.a.toNat l })

/-- `aacc` (R176): the lanes of part are reduced to one token. -/
def execAacc (f : FormV) (s : State) : Res :=
  access (.aacc f) s fun c =>
    let xs := (c.partVals f).map (·.2)
    let r := match f.x.toNat / 4 with
      | 0 => reduceAdd f.ty .rne f.sat xs
      | n => reduceExt f.ty (n == 2) xs
    c.sendTokens (f.x.toNat % 4) (if xs.isEmpty then [] else [{ data := r }])

/-- What a sink's buffer gives to `n` lanes: the data of the tokens taken, whether a marker is consumed, and whether the
strand waits (R177). `ended`: the region has ended, so a marker follows what is buffered (R178). -/
def takeTokens (b : List Token) (n : Nat) (ended : Bool) : List Dword × Bool × Bool :=
  match n with
  | 0 => ([], false, false)
  | n + 1 =>
    match b with
    | [] => ([], ended, !ended)
    | t :: rest =>
      if t.eos then ([], true, false)
      else
        let r := takeTokens rest n ended
        (t.data :: r.1, r.2)

/-- `arecv` (R177, R178). -/
def execArecv (f : FormV) (s : State) : Res :=
  access (.arecv f) s fun c =>
    let part := c.part f.g
    match c.g.eps.look (f.x.toNat % 4) with
    | none => c.annexFault
    | some b =>
      if !b.sink then c.annexFault
      else if part.isEmpty then c.finish (c.g.setS f.c.toNat 0)
      else
        let life := c.s.slotLife b.region
        let e := c.s.endpoint b.region b.endpoint
        let ready := ((e.buf.toks.takeWhile fun t => t.2.2 ≤ c.s.fc).map (·.1))
        let r := takeTokens ready part.length (life == .gone && ready.length == e.buf.toks.length)
        if life == .paused || r.2.2 then c.stall
        else
          let used := min e.buf.toks.length (r.1.length + (if r.2.1 then 1 else 0))
          let g := c.g.setLanes f.ty.wide f.d.toNat (part.zip r.1)
          let g := g.setS f.c.toNat (BitVec.ofNat 64 (r.1.length + (if r.2.1 then 2 ^ 63 else 0)))
          c.finishIn (c.s.setEndpoint b.region b.endpoint { e with buf := { e.buf with toks := e.buf.toks.drop used } }) g

/-- A source endpoint is released: it sends a marker, where the region still takes one. The marker waits for a credit, and while
the region's windows are closed, and then stands owed (R174, R178, R360). -/
def State.closeSource (s : State) (b : EpBinding) : State :=
  let e := s.endpoint b.region b.endpoint
  match s.slotLife b.region with
  | .gone => s.setEndpoint b.region b.endpoint { e with bound := none }
  | .live =>
    if e.credits == 0 then s.setEndpoint b.region b.endpoint { e with bound := none, ending := true }
    else
      let s := s.pushTokens b.region b.endpoint [marker 0]
      s.setEndpoint b.region b.endpoint { s.endpoint b.region b.endpoint with bound := none }
  | .paused => s.setEndpoint b.region b.endpoint { e with bound := none, ending := true }

/-- A sink endpoint is closed: it discards what it holds, and with `later` what comes up to the next marker (R174,
R178). -/
def State.closeSink (s : State) (b : EpBinding) (later : Bool) : State :=
  s.setEndpoint b.region b.endpoint { s.endpoint b.region b.endpoint with bound := none, buf := {}, credits := 0, discard := later }

/-- `aclose` (R178). -/
def execAclose (f : FormV) (s : State) : Res :=
  access (.aclose f) s fun c =>
    if !c.wide f.g then c.finish c.g
    else
      let slot := f.x.toNat % 4
      match c.g.eps.look slot with
      | none => c.finish c.g
      | some b =>
        let g := { c.g with eps := c.g.eps.del slot }
        let life := c.s.slotLife b.region
        if b.sink then c.finishIn (c.s.closeSink b (life != .gone)) g
        else if life == .paused || (life == .live && (c.s.endpoint b.region b.endpoint).credits == 0) then c.stall
        else c.finishIn (c.s.closeSource b) { g with closed := g.closed ++ [b] }

/-! ### Stream commands (R179, R180) -/

/-- A selector that names an Annex stream port (R139, R179). -/
def portSelector (sel : Dword) : Option (Nat × Nat) :=
  if sel.toNat / 2 ^ 16 != 0 || bitsAt sel.toNat 9 3 != 0 || bitsAt sel.toNat 6 2 != 0 || !sel.getLsbD 8 then none
  else some (bitsAt sel.toNat 12 4, sel.toNat % 64)

/-- The commands that `acmd` accepts (R179, R191). -/
def acmdAccepts (w : BitVec 128) : Bool :=
  match decodeStream w with
  | .ok (.seos _) => true
  | .ok (.scfg _) => true
  | .ok (.sbar _) => true
  | _ => false

/-- The domain whose running region owns a port. -/
def State.portOwner (s : State) (key : Nat) : Option Nat :=
  match ((s.annex.ports.look key).bind (·.inst)).bind fun i => s.annex.insts.look i with
  | some n => if n.state == .running then (s.annex.regions.look n.region).map (·.record.domain) else none
  | none => none

/-- `acmd` (R179). -/
def execAcmd (f : FormV) (s : State) : Res :=
  access (.acmd f) s fun c =>
    if !c.wide f.g then c.finish c.g
    else
      let w : BitVec 128 := BitVec.ofNat 128 ((c.g.sreg f.a.toNat).toNat + 2 ^ 64 * (c.g.sreg (f.a.toNat + 1)).toNat)
      match portSelector (c.selWide f.b) with
      | none => c.fault { code := faultCourier }
      | some (die, port) =>
        let key := 64 * die + port
        if !acmdAccepts w then c.fault { code := faultCourier }
        else if c.s.portOwner key != some c.g.domain then c.fault { code := faultProt }
        else c.ordered .rel .dev fun c =>
          match c.s.annex.ports.look key with
          | none => c.stall
          | some p => if 16 ≤ p.queue.length || c.g.full .nmp then c.stall else c.finishIn (c.s.setPort key { p with queue := p.queue ++ [w] }) c.g

/-- Every token that the group has sent has been accepted (R180). -/
def State.tokensAccepted (s : State) (g : Group) : Bool :=
  ((g.eps.map (·.2)).filter (fun b => !b.sink) ++ g.closed).all fun b =>
    match s.annex.regions.look b.region with
    | none => true
    | some r => match r.eps.look b.endpoint with
      | some e => s.outstanding b.region r b.endpoint e == 0
      | none => true

/-- `afence` (R180). -/
def execAfence (f : FormV) (s : State) : Res :=
  access (.afence f) s fun c =>
    if !c.wide f.g then c.finish c.g
    else if !c.s.tokensAccepted c.g then c.stall
    else c.ordered .rel .dev fun c => if c.g.count .nmp == 0 then c.finish { c.g with closed := [] } else c.stall

/-! ### Near-memory operations (R181-R184) -/

def wantNear : Want := { w := true, kind := 7, n := .require }
def wantNearRead : Want := { r := true, kind := 7, n := .require }

/-- The operation of a near-memory instruction on its path. -/
def Ctx.nearOp (c : Ctx) (op parts : Nat) : PathOp :=
  { id := op, path := .nmp, left := parts, pc := c.st.pc, entry := c.r.entry, regs := [], sreg := none, slot := none, blk := false, store := false }

/-- `nmr` (R181, R182). -/
def execNmr (f : FormM) (s : State) : Res :=
  access (.nmr f) s fun c =>
    if c.g.full .nmp then c.stall
    else c.ordered f.order f.scope fun c =>
      let size := 2 ^ f.size.toNat
      let p := c.s.plan c.g.domain size wantNear ((c.part f.g).map fun l => (l, c.ea f l))
      c.lanewise p p.bad fun s g good =>
        let op := s.nextId
        let cls := nmClass f.hint.toNat size
        let s := good.foldl (fun s x =>
          let v := c.lane (size == 8) f.d.toNat x.lane
          s.sendOwner (.group c.key op) x.pa (.word x.pa ((nmOp f.hint.toNat).getD .wr) size v cls) x.va x.lane) { s with nextId := op + 1 }
        (s, g.addOp (c.nearOp op good.length))

/-- A command of `nidx` for a lane: its destination row and its source rows; none is a misuse (R183). -/
structure IndexCmd where
  base : Dword
  rows : Option (Dword × List Dword)

def Ctx.indexCmd (c : Ctx) (f : FormV) (l : Nat) : IndexCmd :=
  let x := leValue ((List.range 4).flatMap fun i => leBytes 4 (c.vread (f.a.toNat + i) l).toNat)
  let base := c.sel f.d l
  let geo := (c.sel f.c l).toNat
  let rb := if bitsAt geo 32 12 == 0 then 4096 else bitsAt geo 32 12
  let n := bitsAt x 124 3
  if x.testBit 127 || 5 < n then ⟨base, none⟩
  else
    let dst := base + BitVec.ofNat 64 (bitsAt x 100 24 * roundUp rb 64)
    ⟨base, some (dst, (List.range n).map fun i => c.sel f.b l + BitVec.ofNat 64 (bitsAt x (20 * i) 20 * (geo % 2 ^ 32)))⟩

/-- Check a row: its first and its last word, so that every page of it is translated (R183). -/
def State.checkNearRow (s : State) (d : Nat) (va : Dword) (bytes : Nat) (want : Want) (lane : Nat) : State × Option FaultInfo :=
  match s.check d va 4 want lane with
  | .inr f => (s, some f)
  | .inl _ =>
    let s := s.learn d va want
    let last := va + BitVec.ofNat 64 (bytes - 4)
    match s.check d last 4 want lane with
    | .inr f => (s, some { f with va := BitVec.ofNat 64 (last.toNat / 65536 * 65536) })
    | .inl _ => (s.learn d last want, none)

/-- The checks of a lane of `nidx` (R183). -/
def State.checkIndex (s : State) (d : Nat) (x : IndexCmd) (bytes lane : Nat) : State × Option FaultInfo :=
  match x.rows with
  | none => s.checkNearRow d x.base 4 wantNear lane
  | some (dst, srcs) =>
    srcs.foldl (fun a r => match a.2 with | some _ => a | none => a.1.checkNearRow d r bytes wantNearRead lane) (s.checkNearRow d dst bytes wantNear lane)

/-- The operator of `nidx`, and its class (R183): `.max` on bf16 has a class of its own. -/
def indexOp (f : FormV) : AtomicOp × Nat :=
  if f.x == 0 then
    (match f.ty with | .f32 => (.fadd, nmClass 1 4) | .bf16 => (.bfadd2, nmClass 2 4) | _ => (.add, nmClass 0 4))
  else (match f.ty with | .f32 => (.fmax, nmClass 6 4) | .bf16 => (.bfmax2, 100) | _ => (.max, nmClass 4 4))

/-- Send the applications of a lane of `nidx`: the state, and how many there are. -/
def State.sendIndex (s : State) (d key op bytes : Nat) (f : FormV) (x : IndexCmd) : State × Nat :=
  let pa (va : Dword) (want : Want) : Nat := match s.trans d va want with | .ok pa _ => pa | .bad _ _ => 0
  match x.rows with
  | none => (s.sendOwner (.group key op) (pa x.base wantNear) .misuse, 1)
  | some (dst, srcs) =>
    let words := (List.range (bytes / 4)).map fun w => BitVec.ofNat 64 (4 * w)
    let s := srcs.foldl (fun s r => words.foldl (fun s w =>
      let a := pa (dst + w) wantNear
      s.sendOwner (.group key op) a (.index a (pa (r + w) wantNearRead) (indexOp f).1 (indexOp f).2) (dst + w)) s) s
    (s, srcs.length * words.length)

/-- `nidx` (R183). -/
def execNidx (f : FormV) (s : State) : Res :=
  access (.nidx f) s fun c =>
    if c.g.full .nmp then c.stall
    else
      let part := c.part f.g
      let bytes (l : Nat) : Nat := let b := bitsAt (c.sel f.c l).toNat 32 12; if b == 0 then 4096 else b
      let p : LanePlan :=
        if part.any fun l => bytes l % 4 != 0 then
          ⟨c.s, [], part.map fun l => (l, { code := faultAlign, lane := BitVec.ofNat 8 l })⟩
        else part.foldl (fun p l =>
          let r := p.s.checkIndex c.g.domain (c.indexCmd f l) (bytes l) l
          match r.2 with
          | none => { p with s := r.1, good := p.good ++ [⟨l, 0, 0, true⟩] }
          | some e => { p with s := r.1, bad := p.bad ++ [(l, e)] }) ⟨c.s, [], []⟩
      c.lanewise p p.bad fun s g good =>
        let op := s.nextId
        let r := good.foldl (fun (a : State × Nat) x =>
          let r := a.1.sendIndex c.g.domain c.key op (bytes x.lane) f (c.indexCmd f x.lane)
          (r.1, a.2 + r.2)) (({ s with nextId := op + 1 } : State), 0)
        (r.1, g.addOp (c.nearOp op r.2))

/-- `nfence` (R184). -/
def execNfence (f : FormV) (s : State) : Res :=
  access (.nfence f) s fun c => if !c.wide f.g || c.g.count .nmp == 0 then c.finish c.g else c.stall

end Sys2Proof.Machine
end

