-- ==== Sys2Proof/Machine/LoadStore.lean ====
section
/-! DEFINITION. Loads, stores and prefetch, major 0x08 (R118-R121), by the rules of R228, R230, R231 and R234. -/
namespace Sys2Proof.Machine

/-- Registers that a lane value of `size` bytes takes. -/
def laneRegs (size : Nat) : Nat := roundUp size 4 / 4

/-- A copy serves a load (R228): every byte is valid or pending, and the lease covers the group's read clock. A load of
reuse class 2, a `.sys` access to host or peer memory, and a load behind a request of the group to the same bytes are
served at home (R115, R116, R237; LOG 113). -/
def State.hits (s : State) (key : Nat) (g : Group) (core line cls : Nat) (scope : Scope) (mask : BitVec 64) : Option CopyView :=
  if cls == 2 || (scope == .sys && lineRemote line) || s.busyBytes key line mask then none
  else match s.l1View core line with
    | none => none
    | some c => if mask &&& ~~~c.present == 0 && g.rclk.toNat ≤ c.rts.toNat then some c else none

/-- Whether the spin count makes this load a renewal, and the new count (R234). -/
def spinStep (count : Nat) (oneLine hit : Bool) : Bool × Nat :=
  if oneLine && hit then (if 16 ≤ count + 1 then (true, 0) else (false, count + 1)) else (false, 0)

/-- The parts of a load. -/
structure LoadAcc where
  s : State
  g : Group
  left : Nat
  spin : Nat

/-- A global load of `size` bytes in lanes whose addresses are good (R119, R228). `zero` are the helper lanes whose
fault was suppressed (R45). -/
def Ctx.performLoad (c : Ctx) (f : FormM) (size : Nat) (zero : List Nat) (s : State) (g : Group) (good : List LaneRef) : State × Group :=
  let core := c.r.core
  let cls := f.hint.toNat
  let op := s.nextId
  let s := { s with nextId := op + 1 }
  let g := g.loadLanes (zero.map fun l => { lane := l, reg := f.d.toNat, off := 0, size := size }) 0
  let rclk := g.rclk
  let g0 := g
  let ordinary := good.filter fun x => !x.n
  let lines := linesOf ordinary
  let oneLine := lines.length == 1 && ordinary.length == good.length && zero.isEmpty
  let loadOf (x : LaneRef) : LaneLoad := { lane := x.lane, reg := f.d.toNat, off := x.pa % 64, size := size, va := x.va }
  let msg (line : Nat) (xs : List LaneLoad) : Msg := { group := c.key, core := core, op := op, pc := c.st.pc, entry := c.r.entry, line := line, va := (match ordinary.find? fun x => x.pa / 64 == line with | some x => x.va | none => 0), scope := f.scope, clk := rclk, lease := g0.lease, kind := .renew xs (cls != 2) true, cls := cls }
  let a := lines.foldl (fun a line =>
    let xs := (ordinary.filter fun x => x.pa / 64 == line).map loadOf
    let hit := a.s.hits c.key g0 core line cls f.scope (loadMask xs)
    let sp := spinStep c.st.spin oneLine hit.isSome
    match if sp.1 then none else hit with
    | some v =>
      let g := (a.g.loadLanes xs v.bytes).addMarks (a.s.marksOf c.key v (loadMask xs))
      { a with g := { g with rclk := tmax g.rclk v.wts }, spin := sp.2 }
    | none => { a with s := (a.s.send (msg line xs)).2, left := a.left + 1, spin := 0 }) (⟨s, g, 0, 0⟩ : LoadAcc)
  let near := good.filter fun x => x.n
  let a := (linesOf near).foldl (fun a line =>
    let xs := (near.filter fun x => x.pa / 64 == line).map loadOf
    { a with s := a.s.sendOwner (.group c.key op) (64 * line) (.load xs line) (match near.find? fun x => x.pa / 64 == line with | some x => x.va | none => 0), left := a.left + 1, spin := 0 }) a
  let o : PathOp := { id := op, path := .gld, left := a.left, pc := c.st.pc, entry := c.r.entry, regs := (List.range (laneRegs size)).map (f.d.toNat + ·), sreg := none, slot := none, blk := false, store := false }
  let g := (a.g.addOp o).acquireAfter f.order (some op)
  (a.s, g.onStrand c.r.entry fun st => { st with spin := a.spin })

/-- A global load (R119, R120). -/
def Ctx.globalLoad (c : Ctx) (f : FormM) (size : Nat) : Res :=
  if c.g.full .gld then c.stall
  else c.ordered f.order f.scope fun c =>
    let p := c.s.plan c.g.domain size wantLoad ((c.active f.g).map fun l => (l, c.ea f l))
    let h := c.splitHelpers p.bad
    c.lanewise p h.2 fun s g good => c.performLoad f size h.1 s g good

/-- `ld` (R119). -/
def execLd (f : FormM) (s : State) : Res := access (.ld f) s fun c => c.globalLoad f (2 ^ f.size.toNat)
/-- `ldx4` (R119). -/
def execLdx4 (f : FormM) (s : State) : Res := access (.ldx4 f) s fun c => c.globalLoad f 16

/-- The bytes that a lane stores (R119). -/
def Ctx.storeValue (c : Ctx) (d size l : Nat) : Nat :=
  leValue ((List.range (laneRegs size)).flatMap fun i => leBytes 4 (c.vread (d + i) l).toNat) % 2 ^ (8 * size)

/-- The bytes of lanes of one store to a line, lanes in ascending order, so that the highest remains (R115). -/
def storeLine (xs : List (LaneRef × Nat)) (size : Nat) : BitVec 64 × LineData :=
  xs.foldl (fun a x =>
    let off := x.1.pa % 64
    (a.1 ||| byteMask off size, mergeLine a.2 (lineWith off size x.2) (byteMask off size))) (0, 0)

/-- A `.blk` store writes the core's L1 as pending bytes at issue (R231). -/
def State.pendStore (s : State) (core line msg : Nat) (mask : BitVec 64) (d : LineData) : State :=
  let c := match s.l1View core line with
    | some c => c
    | none => { data := 0, valid := 0, wts := 0, rts := 0, pend := [] }
  s.setL1 core line { c with pend := c.pend ++ [(msg, mask, d)] }

/-- A global store of `size` bytes in lanes whose addresses are good (R119, R230, R231). -/
def Ctx.performStore (c : Ctx) (f : FormM) (size : Nat) (s : State) (g : Group) (good : List LaneRef) : State × Group :=
  let core := c.r.core
  let op := s.nextId
  let s := { s with nextId := op + 1 }
  let blk := f.scope == .blk
  let valued := good.map fun x => (x, c.storeValue f.d.toNat size x.lane)
  let ordinary := valued.filter fun x => !x.1.n
  let near := valued.filter fun x => x.1.n
  let lines := linesOf (ordinary.map (·.1))
  let s := lines.foldl (fun s line =>
    let xs := ordinary.filter fun x => x.1.pa / 64 == line
    let m := storeLine xs size
    let r := s.send { group := c.key, core := core, op := op, pc := c.st.pc, entry := c.r.entry, line := line, va := (match xs with | x :: _ => x.1.va | [] => 0), scope := f.scope, clk := g.wclk, lease := g.lease, kind := .store m.1 m.2 blk, cls := f.hint.toNat }
    if blk then r.2.pendStore core line r.1 m.1 m.2 else r.2) s
  let s := near.foldl (fun s x => s.sendOwner (.group c.key op) x.1.pa (.store x.1.pa (leBytes size x.2)) x.1.va) s
  let o : PathOp := { id := op, path := .gst, left := lines.length + near.length, pc := c.st.pc, entry := c.r.entry, regs := [], sreg := none, slot := none, blk := blk && near.isEmpty, store := true }
  (s, (g.addOp o).acquireAfter f.order (some op))

/-- A global store (R119, R120). Helper lanes store nothing (R45). -/
def Ctx.globalStore (c : Ctx) (f : FormM) (size : Nat) : Res :=
  if c.g.full .gst then c.stall
  else c.ordered f.order f.scope fun c =>
    let p := c.s.plan c.g.domain size wantStore ((c.part f.g).map fun l => (l, c.ea f l))
    c.lanewise p p.bad fun s g good => c.performStore f size s g good

/-- `st` (R119). -/
def execSt (f : FormM) (s : State) : Res := access (.st f) s fun c => c.globalStore f (2 ^ f.size.toNat)
/-- `stx4` (R119). -/
def execStx4 (f : FormM) (s : State) : Res := access (.stx4 f) s fun c => c.globalStore f 16

/-- The lanes of a scratchpad access with their faults (R113). -/
def Ctx.spadPlan (c : Ctx) (b : Block) (size : Nat) (ls : List (Nat × Dword)) : LanePlan :=
  ls.foldl (fun p e =>
    match b.check e.2 size size e.1 with
    | none => { p with good := p.good ++ [⟨e.1, e.2, e.2.toNat, false⟩] }
    | some f => { p with bad := p.bad ++ [(e.1, f)] }) ⟨c.s, [], []⟩

/-- A scratchpad access is issued (R119, R127): it counts on the scratchpad path until it performs. -/
def Ctx.issueSpad (c : Ctx) (f : FormM) (s : State) (g : Group) (a : SpadAccess) (regs : List Nat) : State × Group :=
  let nothing := a.loads.isEmpty && a.stores.isEmpty
  let o : PathOp := { id := a.op, path := .spd, left := if nothing then 0 else 1, pc := c.st.pc, entry := c.r.entry, regs := regs, sreg := none, slot := none, blk := false, store := false }
  let g := { g with spads := if nothing then g.spads else g.spads ++ [a] }
  ({ s with nextId := s.nextId + 1 }, (g.addOp o).acquireAfter f.order (some a.op))

/-- A scratchpad load (R119, R225); it reads the array when it performs there. -/
def Ctx.spadLoad (c : Ctx) (f : FormM) (size : Nat) : Res :=
  if c.g.full .spd then c.stall
  else c.ordered f.order .blk fun c =>
    match c.s.blockOf c.g.block with
    | none => c.finish c.g
    | some b =>
      let p := c.spadPlan b size ((c.active f.g).map fun l => (l, c.ea f l))
      let h := c.splitHelpers p.bad
      c.lanewise p h.2 fun s g good =>
        let g := g.loadLanes (h.1.map fun l => { lane := l, reg := f.d.toNat, off := 0, size := size }) 0
        c.issueSpad f s g { op := s.nextId, loads := good.map fun x => (x.lane, x.pa), reg := f.d.toNat, size := size, stores := [] } ((List.range (laneRegs size)).map (f.d.toNat + ·))

/-- A scratchpad store, lanes in ascending order (R115, R119, R225); its values are those at issue. -/
def Ctx.spadStore (c : Ctx) (f : FormM) (size : Nat) : Res :=
  if c.g.full .spd then c.stall
  else c.ordered f.order .blk fun c =>
    match c.s.blockOf c.g.block with
    | none => c.finish c.g
    | some b =>
      let p := c.spadPlan b size ((c.part f.g).map fun l => (l, c.ea f l))
      c.lanewise p p.bad fun s g good =>
        c.issueSpad f s g { op := s.nextId, loads := [], reg := 0, size := size, stores := good.map fun x => (x.pa, leBytes size (c.storeValue f.d.toNat size x.lane)) } []

/-- The oldest scratchpad access of a group performs at the array (R119, R225). A read that is uncorrectable gives its lanes
DATA, and helper lanes zero (R45, R407). -/
def State.performSpad (s : State) (core slot : Nat) (bad : Bool) : State :=
  let key := gkey core slot
  match s.groups.look key with
  | none => s
  | some g =>
    match g.spads, s.blockOf g.block with
    | a :: rest, some b =>
      let fails (x : Nat × Nat) : Bool := bad && !g.helper.getLsbD x.1
      let g := (a.loads.filter fun x => !fails x).foldl (fun g x => g.loadLane { lane := x.1, reg := a.reg, off := 0, size := a.size } (if bad then 0 else leValue (b.bytes x.2 a.size))) { g with spads := rest }
      let g := g.addBad a.op ((a.loads.filter fails).map fun x => (x.1, dataInfo (BitVec.ofNat 8 x.1) (BitVec.ofNat 64 x.2)))
      let s := a.stores.foldl (fun s x => s.spadWrite g.block x.1 x.2 (some (key, a.op))) (s.setGroup key g)
      s.partDone key a.op 1
    | _, _ => s

/-- `lds` (R119). -/
def execLds (f : FormM) (s : State) : Res := access (.lds f) s fun c => c.spadLoad f (2 ^ f.size.toNat)
/-- `sts` (R119). -/
def execSts (f : FormM) (s : State) : Res := access (.sts f) s fun c => c.spadStore f (2 ^ f.size.toNat)
/-- `ldsx4` (R119). -/
def execLdsx4 (f : FormM) (s : State) : Res := access (.ldsx4 f) s fun c => c.spadLoad f 16
/-- `stsx4` (R119). -/
def execStsx4 (f : FormM) (s : State) : Res := access (.stsx4 f) s fun c => c.spadStore f 16

/-- `prf`: the lines of the lanes that can be read are brought into L2, and at scope 0 into L1 with the lease of a load;
nothing else changes (R121). A line of reuse class 2 is brought into L2 only (R116, LOG 148). -/
def execPrf (f : FormM) (s : State) : Res :=
  access (.prf f) s fun c =>
    let p := c.s.plan c.g.domain (2 ^ f.size.toNat) wantLoad ((c.active f.g).map fun l => (l, c.ea f l))
    let toL1 := f.scope == .blk && f.hint != 2
    let lines := linesOf (p.good.filter fun x => !x.n)
    let op := p.s.nextId
    let s := lines.foldl (fun s line => (s.send { group := c.key, core := c.r.core, op := op, pc := c.st.pc, entry := c.r.entry, line := line, va := 0, scope := .dev, clk := if toL1 then c.g.rclk else 0, lease := if toL1 then c.g.lease else 0, kind := .renew [] toL1 false, cls := f.hint.toNat }).2) { p.s with nextId := op + 1 }
    c.finishIn s c.g

end Sys2Proof.Machine
end

