-- ==== Sys2Proof/Machine/Atomic.lean ====
section
/-! DEFINITION. Atomics and reductions, major 0x09 (R122-R124, R232). -/
namespace Sys2Proof.Machine

/-- The requests of an atomic or a reduction, one per lane in ascending lane order (R123). -/
def Ctx.performAtomic (c : Ctx) (f : FormM) (aop : AtomicOp) (returns : Bool) (s : State) (g : Group) (good : List LaneRef) : State × Group :=
  let size := 2 ^ f.size.toNat
  let n := laneRegs size
  let d := f.d.toNat
  let op := s.nextId
  let s := { s with nextId := op + 1 }
  let val (r l : Nat) : Dword := c.lane (n == 2) r l
  let s := good.foldl (fun s x =>
    let isCas := aop == .cas
    let cmp := if isCas then val d x.lane else 0
    let v := if isCas then val (d + n) x.lane else val d x.lane
    (s.send { group := c.key, core := c.r.core, op := op, pc := c.st.pc, entry := c.r.entry, line := x.pa / 64, va := x.va, scope := f.scope, clk := g.wclk, lease := g.lease, kind := .atomic x.lane (x.pa % 64) size aop v cmp (if returns then some d else none) f.order }).2) s
  let o : PathOp := { id := op, path := if returns then .gld else .gst, left := good.length, pc := c.st.pc, entry := c.r.entry, regs := if returns then (List.range n).map (d + ·) else [], sreg := none, slot := none, blk := false, store := true }
  (s, (g.addOp o).acquireAfter f.order (some op))

/-- An atomic of major 0x09 (R123, R120). Helper lanes perform nothing (R45). -/
def Ctx.atomic (c : Ctx) (f : FormM) (aop : AtomicOp) (returns : Bool) : Res :=
  if c.g.full (if returns then .gld else .gst) then c.stall
  else c.ordered f.order f.scope fun c =>
    let p := c.s.plan c.g.domain (2 ^ f.size.toNat) wantAtomic ((c.part f.g).map fun l => (l, c.ea f l))
    c.lanewise p p.bad fun s g good => c.performAtomic f aop returns s g good

/-- `atom.add` (R122, R123). -/
def execAtomAdd (f : FormM) (s : State) : Res := access (.atomAdd f) s fun c => c.atomic f .add true
/-- `atom.min` (R122, R123). -/
def execAtomMin (f : FormM) (s : State) : Res := access (.atomMin f) s fun c => c.atomic f .min true
/-- `atom.max` (R122, R123). -/
def execAtomMax (f : FormM) (s : State) : Res := access (.atomMax f) s fun c => c.atomic f .max true
/-- `atom.and` (R122, R123). -/
def execAtomAnd (f : FormM) (s : State) : Res := access (.atomAnd f) s fun c => c.atomic f .and true
/-- `atom.or` (R122, R123). -/
def execAtomOr (f : FormM) (s : State) : Res := access (.atomOr f) s fun c => c.atomic f .or true
/-- `atom.xor` (R122, R123). -/
def execAtomXor (f : FormM) (s : State) : Res := access (.atomXor f) s fun c => c.atomic f .xor true
/-- `atom.xchg` (R122, R123). -/
def execAtomXchg (f : FormM) (s : State) : Res := access (.atomXchg f) s fun c => c.atomic f .xchg true
/-- `atom.cas` (R122, R123). -/
def execAtomCas (f : FormM) (s : State) : Res := access (.atomCas f) s fun c => c.atomic f .cas true
/-- `atom.fadd` (R122, R123). -/
def execAtomFadd (f : FormM) (s : State) : Res := access (.atomFadd f) s fun c => c.atomic f .fadd true
/-- `atom.fmin` (R122, R123). -/
def execAtomFmin (f : FormM) (s : State) : Res := access (.atomFmin f) s fun c => c.atomic f .fmin true
/-- `atom.fmax` (R122, R123). -/
def execAtomFmax (f : FormM) (s : State) : Res := access (.atomFmax f) s fun c => c.atomic f .fmax true
/-- `atom.bfadd2` (R122, R123). -/
def execAtomBfadd2 (f : FormM) (s : State) : Res := access (.atomBfadd2 f) s fun c => c.atomic f .bfadd2 true
/-- `red.add` (R122, R123). -/
def execRedAdd (f : FormM) (s : State) : Res := access (.redAdd f) s fun c => c.atomic f .add false
/-- `red.min` (R122, R123). -/
def execRedMin (f : FormM) (s : State) : Res := access (.redMin f) s fun c => c.atomic f .min false
/-- `red.max` (R122, R123). -/
def execRedMax (f : FormM) (s : State) : Res := access (.redMax f) s fun c => c.atomic f .max false
/-- `red.and` (R122, R123). -/
def execRedAnd (f : FormM) (s : State) : Res := access (.redAnd f) s fun c => c.atomic f .and false
/-- `red.or` (R122, R123). -/
def execRedOr (f : FormM) (s : State) : Res := access (.redOr f) s fun c => c.atomic f .or false
/-- `red.xor` (R122, R123). -/
def execRedXor (f : FormM) (s : State) : Res := access (.redXor f) s fun c => c.atomic f .xor false
/-- `red.fadd` (R122, R123). -/
def execRedFadd (f : FormM) (s : State) : Res := access (.redFadd f) s fun c => c.atomic f .fadd false
/-- `red.fmin` (R122, R123). -/
def execRedFmin (f : FormM) (s : State) : Res := access (.redFmin f) s fun c => c.atomic f .fmin false
/-- `red.fmax` (R122, R123). -/
def execRedFmax (f : FormM) (s : State) : Res := access (.redFmax f) s fun c => c.atomic f .fmax false
/-- `red.bfadd2` (R122, R123). -/
def execRedBfadd2 (f : FormM) (s : State) : Res := access (.redBfadd2 f) s fun c => c.atomic f .bfadd2 false

end Sys2Proof.Machine
end

