-- ==== Sys2Proof/Machine/Gather.lean ====
section
/-! DEFINITION. Gather and scatter, major 0x0C (R141-R144). -/
namespace Sys2Proof.Machine

/-- The row geometry s[c] (R141). -/
structure Geo where
  elem : Nat
  row : Nat
  stride : Nat
  deriving DecidableEq, Repr

def geoOf (x : Dword) : Geo :=
  let r := bitsAt x.toNat 32 12
  { elem := 2 ^ bitsAt x.toNat 46 2, row := if r == 0 then 4096 else r, stride := x.toNat % 2 ^ 32 }

/-- Bytes of a row that are moved: whole elements (R141). -/
def Geo.moved (g : Geo) : Nat := g.row / g.elem * g.elem

/-- Check a row of `n` bytes page by page; the fault names the lowest faulting element (R142). A row whose bytes hold no whole
element moves none; its start is checked all the same (LOG 149). -/
def State.checkRow (s : State) (d : Nat) (va : Dword) (n align lane : Nat) (want : Want) : Option FaultInfo :=
  if va.toNat % align != 0 then some { code := faultAlign, lane := BitVec.ofNat 8 lane, va := va }
  else
    let offs := 0 :: (((List.range (n / 65536 + 1)).map fun i => 65536 * (i + 1) - va.toNat % 65536).filter (· < n))
    offs.findSome? fun o =>
      let a := va + BitVec.ofNat 64 o
      match s.trans d a want with
      | .ok _ _ => none
      | .bad code detail => some { code := code, lane := BitVec.ofNat 8 lane, va := a, detail := detail }

/-- The TLBs keep the leaves of a checked row. -/
def State.learnRow (s : State) (d : Nat) (va : Dword) (n : Nat) (want : Want) : State :=
  let offs := 0 :: (((List.range (n / 65536 + 1)).map fun i => 65536 * (i + 1) - va.toNat % 65536).filter (· < n))
  offs.foldl (fun s o => s.learn d (va + BitVec.ofNat 64 o) want) s

/-- A lane of a gather or scatter: its row, and its place in the scratchpad. -/
structure RowRef where
  lane : Nat
  row : Dword
  place : Nat
  deriving DecidableEq, Repr

/-- The rows of lanes, or their faults; with `.list` each index word is read once, at home (R141, R142). -/
structure RowPlan where
  s : State
  good : List RowRef
  bad : List (Nat × FaultInfo)
  wts : Time

def Ctx.rows (c : Ctx) (f : FormV) (geo : Geo) (want : Want) (ls : List Nat) : RowPlan :=
  let table := c.selWide f.b
  let base := (c.selWide f.d).toNat
  let d := c.g.domain
  ls.foldl (fun p l =>
    let place := base + l * roundUp geo.row 16
    let ix : (Nat × Time × State) ⊕ FaultInfo :=
      if f.x.getLsbD 0 then
        let va := c.lane true f.a.toNat l
        match p.s.check d va 4 wantGather l with
        | .inr e => .inr e
        | .inl r =>
          if p.s.lineBad (r.pa / 64) || p.s.refused (r.pa / 64) r.n then .inr { code := faultData, lane := BitVec.ofNat 8 l, va := va }
          else .inl (p.s.engineValue r.pa 4 r.n, p.s.engineWts r.pa r.n, (p.s.learn d va wantGather).leaseLine (r.pa / 64) r.n c.g.rclk c.g.lease)
      else .inl ((c.vread f.a.toNat l).toNat, 0, p.s)
    match ix with
    | .inr e => { p with s := if e.code == faultData && (p.s.walkBad d e.va).isNone then p.s.logBadAt d e.va else p.s, bad := p.bad ++ [(l, e)] }
    | .inl i =>
      let row := table + BitVec.ofNat 64 (i.1 * geo.stride)
      match p.s.checkRow d row geo.moved geo.elem l want with
      | some e => { p with bad := p.bad ++ [(l, e)] }
      | none => { s := i.2.2.learnRow d row geo.moved want, good := p.good ++ [⟨l, row, place⟩], bad := p.bad, wts := tmax p.wts i.2.1 }) ⟨c.s, [], [], 0⟩

/-- The index words that `.list` reads which have yet to come from the owners of their lines (R142, R237). -/
def Ctx.missingWords (c : Ctx) (f : FormV) (ls : List Nat) : List (Nat × Bool) :=
  if f.x.getLsbD 0 then
    c.s.missing (ls.filterMap fun l => match c.s.trans c.g.domain (c.lane true f.a.toNat l) wantGather with
      | .ok pa n => some (pa / 64, n)
      | .bad _ _ => none)
  else []

/-- The lines that the index words of `.list` stand in. -/
def Ctx.listLines (c : Ctx) (f : FormV) (ls : List Nat) : List Nat :=
  if f.x.getLsbD 0 then ls.filterMap fun l => match c.s.trans c.g.domain (c.lane true f.a.toNat l) wantGather with
    | .ok pa _ => some (pa / 64)
    | .bad _ _ => none
  else []

/-- A lane's place in the scratchpad (R141). -/
def Ctx.placeOf (c : Ctx) (f : FormV) (geo : Geo) (l : Nat) : Nat := (c.selWide f.d).toNat + l * roundUp geo.row 16

/-- The fault of a lane's place (R142): PROT outside the scratchpad, CATRANGE in a claim. -/
def Block.placeFault (b : Block) (place n l : Nat) : Option FaultInfo :=
  let f (code : Byte) : Option FaultInfo := some { code := code, lane := BitVec.ofNat 8 l, va := BitVec.ofNat 64 place, lanes := maskOf fun i => i == l }
  if b.spadBytes < place + n then f faultProt else if b.inClaim place n then f faultCatrange else none

/-- The places of lanes, checked for the whole instruction before any fetch (R142): the fault of the lowest lane that has
one (R114). -/
def Ctx.placesFault (c : Ctx) (f : FormV) (geo : Geo) (b : Block) (ls : List Nat) : Option FaultInfo :=
  ls.findSome? fun l => b.placeFault (c.placeOf f geo l) geo.moved l

/-- Distinct rows with their lanes, in the order of their first lane (R142). -/
def groupRows (xs : List RowRef) : List (Nat × List Nat) :=
  xs.foldl (fun rs x =>
    if rs.any fun r => r.1 == x.row.toNat then rs.map fun r => if r.1 == x.row.toNat then (r.1, r.2 ++ [x.lane]) else r
    else rs ++ [(x.row.toNat, [x.lane])]) []

/-- The key of a row's frequency counter: a domain and the row's start (R144). -/
def freqKey (d va : Nat) : Nat := d * 2 ^ 64 + va

/-- Rows are counted: requested, fetched, hits in the hot-row partition, and each row's frequency counter, which
saturates (R144). Which hot rows are still pinned is free. -/
def State.countRows (s : State) (core d cls : Nat) (rows : List (Nat × List Nat)) : State :=
  let asked := (rows.map fun r => r.2.length).foldl (· + ·) 0
  let hot := (rows.mapIdx fun i r => (i, r)).filter fun e => 4 ≤ cls && cls < 8 && Config.hotThreshold ≤ Map.get 0 s.mem.freq (freqKey d e.2.1) && Config.freeBit (64 * s.fresh + e.1)
  let s := s.onCore core fun c => { c with rowsAsked := c.rowsAsked + BitVec.ofNat 64 asked, rowsFetched := c.rowsFetched + BitVec.ofNat 64 rows.length, hotHits := c.hotHits + BitVec.ofNat 64 hot.length }
  let freq := rows.foldl (fun m r => m.put (freqKey d r.1) (min 65535 (Map.get 0 m (freqKey d r.1) + r.2.length))) s.mem.freq
  { s with mem := { s.mem with freq := freq }, fresh := s.fresh + 1 }

/-- `gath` (R142): its rows are asked for; each lands by `gathRowLand`. A helper lane whose place is out of range or in a
claim takes no part, and one whose row faults has its place filled with zeros (R45). -/
def execGath (f : FormV) (s : State) : Res :=
  access (.gath f) s fun c =>
    match c.s.blockOf c.g.block with
    | none => c.finish c.g
    | some b =>
      let geo := geoOf (c.selWide f.c)
      let act := (c.active f.g).filter fun l => !(c.g.helper.getLsbD l && (b.placeFault (c.placeOf f geo l) geo.moved l).isSome)
      if c.g.full .gld then c.stall
      else match c.placesFault f geo b act with
        | some e => c.fault e
        | none =>
          if !(c.missingWords f act).isEmpty then .next (c.s.bringAll (c.missingWords f act))
          else
            let p := c.rows f geo wantGather act
            let h := c.splitHelpers p.bad
            let zeros (s : State) : State := h.1.foldl (fun s l => s.spadWrite c.g.block (c.placeOf f geo l) ((List.range geo.moved).map fun _ => 0)) s
            let refs := p.good.map fun x => (⟨x.lane, x.row, x.place, false⟩ : LaneRef)
            c.lanewise ⟨p.s.useUp (c.listLines f act), refs, p.bad⟩ h.2 fun s g good =>
              let kept := p.good.filter fun x => good.any fun y => y.lane == x.lane
              let rows := groupRows kept
              let id := s.nextId
              let op := id + 1
              let job : GathJob := { group := c.key, op := op, block := c.g.block, domain := g.domain, dst := (c.selWide f.d).toNat, rowBytes := geo.row, elemBytes := geo.elem, rows := rows, pc := c.st.pc, entry := c.r.entry, maxWts := p.wts, rclk := c.g.rclk, lease := c.g.lease, pages := rows.foldl (fun m r => s.leaves g.domain r.1 geo.moved wantGather m) [] }
              let s := (zeros s).countRows c.r.core g.domain (bitsAt f.x.toNat 1 3) rows
              let s := if rows.isEmpty then { s with nextId := id + 2 } else { s with nextId := id + 2, gaths := s.gaths.put id job }
              (s, g.addOp { id := op, path := .gld, left := rows.length, pc := c.st.pc, entry := c.r.entry, regs := [], sreg := none, slot := none, blk := false, store := false })

/-- GATH_ROW_LAND: a row is read as by relaxed `.dev` loads, element by element at home, and lands in the places of its
lanes (R142, R228, R238, LOG 109), through the translations that it was issued under (R338, R340). Lines of host and peer memory are first asked of their owners (R237). -/
def execGathRowLand (id row : Nat) (s : State) : Res :=
  match s.gaths.look id with
  | none => .next s
  | some j =>
    match j.rows.find? fun r => r.1 == row with
    | none => .next s
    | some r =>
      let n := j.rowBytes / j.elemBytes
      let elems := j.elems r.1
      let lines := (elems.filterMap fun e => e.map fun x => (x.1 / 64, x.2)).eraseDups
      let bad := (List.range n).find? fun i => match elems[i]? with
        | some (some x) => s.lineBad (x.1 / 64) || s.refused (x.1 / 64) x.2
        | _ => true
      if bad.isNone && !(s.missing lines).isEmpty then .next (s.bringAll lines)
      else
        let rest := j.rows.filter fun x => x.1 != row
        let helper := match s.groups.look j.group with | some g => g.helper | none => 0
        let data := elems.flatMap fun e => leBytes j.elemBytes (match e with | some x => s.engineValue x.1 j.elemBytes x.2 | none => 0)
        let wts := lines.foldl (fun t x => tmax t (s.engineWts (64 * x.1) x.2)) j.maxWts
        let land (s : State) (l : Nat) : State := s.spadWrite j.block (j.dst + l * roundUp j.rowBytes 16) (if bad.isSome then data.map fun _ => 0 else data)
        let ls := if bad.isSome then r.2.filter fun l => helper.getLsbD l else r.2
        let s' := { ls.foldl land s with fresh := s.fresh + 1 }
        let s' := if bad.isSome then s' else lines.foldl (fun s x => s.leaseLine x.1 x.2 j.rclk j.lease) s'
        let s' := s'.useUp (lines.map (·.1))
        let s' := if rest.isEmpty then
            ({ s' with gaths := s'.gaths.del id } : State).onGroup j.group fun g => { g with rclk := tmax g.rclk wts }
          else { s' with gaths := s'.gaths.put id { j with rows := rest, maxWts := wts } }
        match bad with
        | some i =>
          let at_ := BitVec.ofNat 64 (r.1 + i * j.elemBytes)
          let faulty := r.2.filter fun l => !helper.getLsbD l
          .next ((s'.logBad (match elems[i]? with | some (some x) => x.1 / 64 | _ => 0) j.domain).partBad j.group j.op (faulty.map fun l => (l, dataInfo (BitVec.ofNat 8 l) at_)))
        | none => .next (s'.partDone j.group j.op 1)

/-- `scat` (R143): each row is written as stores, or with `.fadd` as FP32 additions at home. -/
def execScat (f : FormV) (s : State) : Res :=
  access (.scat f) s fun c =>
    let fadd := bitsAt f.x.toNat 1 2 == 1
    let act := c.part f.g
    match c.s.blockOf c.g.block with
    | none => c.finish c.g
    | some b =>
      let geo := if fadd then { geoOf (c.selWide f.c) with elem := 4 } else geoOf (c.selWide f.c)
      if c.g.full .gst || !c.g.spads.isEmpty then c.stall
      else match c.placesFault f geo b act with
        | some e => c.fault e
        | none =>
          if !(c.missingWords f act).isEmpty then .next (c.s.bringAll (c.missingWords f act))
          else
            let want := if fadd then { wantScatter with r := true, a := true, n := .refuse } else wantScatter
            let p := c.rows f geo want act
            let refs := p.good.map fun x => (⟨x.lane, x.row, x.place, false⟩ : LaneRef)
            c.lanewise ⟨p.s.useUp (c.listLines f act), refs, p.bad⟩ p.bad fun s g good =>
              let op := s.nextId
              let s := { s with nextId := op + 1 }
              let base : Msg := { group := c.key, core := c.r.core, op := op, pc := c.st.pc, entry := c.r.entry, line := 0, va := 0, scope := .dev, clk := g.wclk, lease := g.lease, kind := .store 0 0 false }
              let s := good.foldl (fun s x =>
                let elems := (List.range (geo.moved / geo.elem)).filterMap fun i =>
                  let va := x.va + BitVec.ofNat 64 (i * geo.elem)
                  match s.trans g.domain va want with
                  | .ok pa n => some (va, pa, n, b.bytes (x.pa + i * geo.elem) geo.elem)
                  | .bad _ _ => none
                if fadd then
                  elems.foldl (fun s e => (s.send { base with line := e.2.1 / 64, va := e.1, kind := .atomic x.lane (e.2.1 % 64) 4 .fadd (BitVec.ofNat 64 (leValue e.2.2.2)) 0 none .rlx }).2) s
                else
                  let near := elems.filter fun e => e.2.2.1
                  let ordinary := elems.filter fun e => !e.2.2.1
                  let s := near.foldl (fun s e => s.sendOwner (.group c.key op) e.2.1 (.store e.2.1 e.2.2.2)) s
                  (linesOf (ordinary.map fun e => ⟨x.lane, e.1, e.2.1, false⟩)).foldl (fun s line =>
                    let m := (ordinary.filter fun e => e.2.1 / 64 == line).foldl (fun (a : BitVec 64 × LineData) e => (a.1 ||| byteMask (e.2.1 % 64) geo.elem, a.2 ||| lineWith (e.2.1 % 64) geo.elem (leValue e.2.2.2))) (0, 0)
                    (s.send { base with line := line, va := x.va, kind := .store m.1 m.2 false }).2) s) s
              let left := (s.mem.msgs.filter fun e => e.2.op == op).length + (s.mem.owner.filter fun e => e.2.from_ == .group c.key op).length
              (s, g.addOp { id := op, path := .gst, left := left, pc := c.st.pc, entry := c.r.entry, regs := [], sreg := none, slot := none, blk := false, store := true })

/-- `gstat` (R144). -/
def execGstat (f : FormV) (s : State) : Res :=
  access (.gstat f) s fun c =>
    let core := c.s.core c.r.core
    let x : Dword := match f.x.toNat with
      | 0 => core.rowsAsked
      | 1 => core.rowsFetched
      | 2 => core.hotHits
      | _ => BitVec.ofNat 64 (Map.get 0 c.s.mem.freq (freqKey c.g.domain (c.selWide f.a).toNat))
    c.finish (if c.wide f.g then c.g.setS f.d.toNat x else c.g)

/-- FREQ_HALVE: every frequency counter is halved each 1 ms, which is 4,000,000 cc (R4, R144). -/
def execFreqHalve (s : State) : Res :=
  if s.mem.freqAt + 4000000 ≤ s.now then
    .next { s with mem := { s.mem with freq := (s.mem.freq.map fun e => (e.1, e.2 / 2)).filter fun e => e.2 != 0, freqAt := s.mem.freqAt + 4000000 } }
  else .next s

end Sys2Proof.Machine
end

