-- ==== Sys2Proof/Machine/Catalogue.lean ====
section
/-! DEFINITION. The Catalogue, major 0x0D (R146-R154). An instruction reaches the table port and is applied whole when it
issues, since CATRANGE is precise (R149, R150); it is complete when its registers are written (R152). -/
namespace Sys2Proof.Machine

/-- An empty slot's key (R146). -/
def catEmpty (k64 : Bool) : Dword := if k64 then BitVec.allOnes 64 else 0xFFFFFFFF

/-- The hash of R147, and the bucket of a key in a table of 2^b buckets. -/
def catHash (k : Dword) : Dword := k * 0x9E3779B97F4A7C15#64
def catBucket (k : Dword) (b : Nat) : Nat := (catHash k).toNat / 2 ^ (64 - b)

/-- Positions of buckets; overflow slot j stands at this plus j (R153). -/
def Claim.top (c : Claim) : Nat := 8 * 2 ^ c.b

/-- The slots of a key's bucket. -/
def Claim.bucketSlots (c : Claim) (k : Dword) : List Nat := (List.range 8).map (8 * catBucket k c.b + ·)

/-- The slot that holds a key: its bucket, then the overflow area (R151). -/
def Claim.find (c : Claim) (k : Dword) : Option Nat :=
  (c.bucketSlots k ++ (List.range c.ov).map (c.top + ·)).find? fun p => match c.slots.look p with | some e => e.1 == k | none => false

def Claim.value (c : Claim) (p : Nat) : Dword := match c.slots.look p with | some e => e.2 | none => 0

/-- Remove the entry of a slot, keeping the overflow area compact (R146, R151). -/
def Claim.remove (c : Claim) (p : Nat) : Claim :=
  if p < c.top then { c with slots := c.slots.del p, occ := c.occ - 1 }
  else
    let moved := (List.range (c.top + c.ov - (p + 1))).foldl (fun m i => match m.look (p + 1 + i) with | some e => m.put (p + i) e | none => m) c.slots
    { c with slots := moved.del (c.top + c.ov - 1), occ := c.occ - 1, ov := c.ov - 1 }

/-- Records that the spill ring holds: 2^q, or none (R148). -/
def Claim.ringSlots (c : Claim) : Nat := let q := bitsAt c.ring.toNat 58 6; if q == 0 then 0 else 2 ^ q
def Claim.ringVa (c : Claim) : Dword := BitVec.ofNat 64 (c.ring.toNat % 2 ^ 57)

/-- A table with the records that go to the ring, in order. -/
structure CatRun where
  c : Claim
  ring : List (Nat × Dword × Dword) := []

/-- `place` of R151: the table and the status. -/
def CatRun.place (t : CatRun) (k v : Dword) (s1 : Nat) : CatRun × Nat :=
  let c := t.c
  match (c.bucketSlots k).find? fun p => (c.slots.look p).isNone with
  | some p => ({ t with c := { c with slots := c.slots.put p (k, v), occ := c.occ + 1 } }, s1)
  | none =>
    if c.ov < 64 then ({ t with c := { c with slots := c.slots.put (c.top + c.ov) (k, v), ov := c.ov + 1, occ := c.occ + 1 } }, s1)
    else if c.spills.toNat < c.ringSlots then ({ t with c := { c with spills := c.spills + 1 }, ring := t.ring ++ [(c.spills.toNat, k, v)] }, 3)
    else (t, 5)

/-- What an operation by key does for a lane: the table, the value of d where it is written, and the status (R151). -/
inductive CatOp where
  | ins | prb | del
  | acc (op : Dword → Dword → Dword)

def CatRun.lane (t : CatRun) (op : CatOp) (k64 : Bool) (k v : Dword) : CatRun × Option Dword × Nat :=
  if k == catEmpty k64 then (t, none, 4)
  else match op, t.c.find k with
    | .prb, some p => (t, some (t.c.value p), 0)
    | .prb, none => (t, some 0, 2)
    | .del, some p => ({ t with c := t.c.remove p }, some (t.c.value p), 0)
    | .del, none => (t, some 0, 2)
    | .ins, some p => ({ t with c := { t.c with slots := t.c.slots.put p (k, v) } }, some (t.c.value p), 0)
    | .ins, none =>
      let r := t.place k v 1
      (r.1, if r.2 == 5 then none else some 0, r.2)
    | .acc f, some p =>
      let n := f (t.c.value p) v
      ({ t with c := { t.c with slots := t.c.slots.put p (k, n) } }, some n, 0)
    | .acc _, none =>
      let r := t.place k v 1
      (r.1, if r.2 == 5 then none else some v, r.2)

/-- The operator of `cacc` (R151): x[2:1] names add, min or max. -/
def caccOp (t : Ty) (sat : Bool) (x : Nat) (old v : Dword) : Dword :=
  let fp (F : Fmt) : Dword :=
    let a := old.toNat % 2 ^ F.bits
    let b := v.toNat % 2 ^ F.bits
    BitVec.ofNat 64 (match x with | 0 => F.add .rne a b | 1 => F.min a b | _ => F.max a b)
  match t with
  | .f32 => fp fp32
  | .bf16 => fp bfloat16
  | _ =>
    let a := t.val old
    let b := t.val v
    match x with
    | 0 => low t.w (t.wrap sat (a + b))
    | 1 => if a < b then low t.w old else low t.w v
    | _ => if a < b then low t.w v else low t.w old

/-- CATRANGE, precisely (R148-R150). -/
def Ctx.catFault (c : Ctx) : Res := c.fault { code := faultCatrange }

/-- The frame of a Catalogue instruction: the table port takes it as it issues, once the group's earlier scratchpad accesses
have performed and while the scratchpad path has room (R119, R127, R152; LOG 118). -/
def catAccess (i : Instr) (s : State) (k : Ctx → Res) : Res :=
  access i s fun c => if c.g.spads.isEmpty && !c.g.full .spd then k c else c.stall

/-- A Catalogue instruction that the table port has taken counts on the scratchpad path until its registers are written
(R127, R152). -/
def Ctx.catDone (c : Ctx) (s : State) (g : Group) (regs : List Nat) (sreg : Option Nat) : Res :=
  let op := s.nextId
  let o : PathOp := { id := op, path := .spd, left := 1, pc := c.st.pc, entry := c.r.entry, regs := regs, sreg := sreg, slot := none, blk := false, store := false }
  let a : SpadAccess := { op := op, loads := [], reg := 0, size := 0, stores := [] }
  c.finishIn { s with nextId := op + 1 } (({ g with spads := g.spads ++ [a] } : Group).addOp o)

/-- No Catalogue instruction and no scratchpad access of a block is on its way (R148, R149). -/
def State.spadsQuiet (s : State) (block : Nat) : Bool := (s.groupsOf block).all fun e => e.2.spads.isEmpty

/-- The address of a ring record through the page that the claim pins (R148). -/
def Claim.pinned (c : Claim) (va : Dword) : Option (Nat × Bool) := pageAt c.pins va.toNat

/-- Records of 16 bytes from an address are relaxed `.dev` stores of the group, counted on the global store path (R152). -/
def Ctx.recordStores (c : Ctx) (s : State) (g : Group) (base_ : Dword) (at_ : Dword → Option (Nat × Bool)) (recs : List (Nat × Dword × Dword)) : State × Group :=
  if recs.isEmpty then (s, g)
  else
    let op := s.nextId
    let s := { s with nextId := op + 1 }
    let base : Msg := { group := c.key, core := c.r.core, op := op, pc := c.st.pc, entry := c.r.entry, line := 0, va := 0, scope := .dev, clk := g.wclk, lease := g.lease, kind := .store 0 0 false }
    let r := recs.foldl (fun (a : State × Nat) e =>
      let va := base_ + BitVec.ofNat 64 (16 * e.1)
      match at_ va with
      | none => a
      | some (pa, n) =>
        let v := e.2.1.toNat + 2 ^ 64 * e.2.2.toNat
        if n then (a.1.sendOwner (.group c.key op) pa (.store pa (leBytes 16 v)), a.2 + 1)
        else ((a.1.send { base with line := pa / 64, va := va, kind := .store (byteMask (pa % 64) 16) (lineWith (pa % 64) 16 v) false }).2, a.2 + 1)) (s, 0)
    (r.1, g.addOp { id := op, path := .gst, left := r.2, pc := c.st.pc, entry := c.r.entry, regs := [], sreg := none, slot := none, blk := false, store := true })

/-- An instruction by key: lanes in ascending order, as one indivisible sequence (R150, R151). -/
def Ctx.catalogue (c : Ctx) (f : FormV) (op : CatOp) (ls : List Nat) : Res :=
  match c.s.blockOf c.g.block with
  | none => c.finish c.g
  | some b =>
    match b.claim with
    | none => c.catFault
    | some cl =>
      let k64 := f.x.getLsbD 0
      if cl.k64 != k64 then c.catFault
      else if c.g.full .gst then c.stall
      else
        let key (l : Nat) : Dword := c.lane k64 f.a.toNat l
        let value (l : Nat) : Dword :=
          let v := c.opB f immInt f.ty.wide l
          if f.ty == .bf16 then low 16 v else v
        let r := ls.foldl (fun (a : CatRun × List (Nat × Option Dword × Nat)) l =>
          let x := a.1.lane op k64 (key l) (value l)
          (x.1, a.2 ++ [(l, x.2.1, x.2.2)])) ({ c := cl }, [])
        let g := r.2.foldl (fun g e =>
          let g := match e.2.1 with | some v => g.setLane f.ty.wide f.d.toNat e.1 v | none => g
          g.setV f.c.toNat e.1 (BitVec.ofNat 32 e.2.2)) c.g
        let s := c.s.onBlock c.g.block fun b => { b with claim := some r.1.c }
        let x := c.recordStores s g cl.ringVa cl.pinned r.1.ring
        c.catDone x.1 x.2 (f.c.toNat :: f.d.toNat :: if f.ty.wide then [f.d.toNat + 1] else []) none

/-- `cins` (R151). -/
def execCins (f : FormV) (s : State) : Res := catAccess (.cins f) s fun c => c.catalogue f .ins (c.part f.g)
/-- `cprb`: helper lanes take part (R45, R151). -/
def execCprb (f : FormV) (s : State) : Res := catAccess (.cprb f) s fun c => c.catalogue f .prb (c.active f.g)
/-- `cdel` (R151). -/
def execCdel (f : FormV) (s : State) : Res := catAccess (.cdel f) s fun c => c.catalogue f .del (c.part f.g)
/-- `cacc` (R151). -/
def execCacc (f : FormV) (s : State) : Res :=
  catAccess (.cacc f) s fun c => c.catalogue f (.acc (caccOp f.ty f.sat (bitsAt f.x.toNat 1 2))) (c.part f.g)

/-- log2 of the bucket count that a claim of a size holds (R148). -/
def catBuckets (size : Nat) : Nat := ((List.range 12).filter fun b => 1280 + 128 * 2 ^ b ≤ size).foldl max 0

/-- `cclaim` (R148): accesses of the block that were issued before it perform first. -/
def execCclaim (f : FormV) (s : State) : Res :=
  catAccess (.cclaim f) s fun c =>
    if !c.wide f.g then c.finish c.g
    else match c.s.blockOf c.g.block with
      | none => c.finish c.g
      | some b =>
        let base := (c.selWide f.a).toNat
        let size := (c.selWide f.b).toNat
        let rd := c.selWide f.c
        let q := bitsAt rd.toNat 58 6
        let ring := rd.toNat % 2 ^ 57
        if b.claim.isSome || base % 256 != 0 || size % 256 != 0 || size < 1536 || b.spadBytes < base + size || b.catalogueKiB * 1024 < size || rd.getLsbD 57 || (q != 0 && (q < 4 || 32 < q)) || (q != 0 && ring % 64 != 0) then c.catFault
        else
          let n := if q == 0 then 0 else 16 * 2 ^ q
          if !c.s.spadsQuiet c.g.block then c.stall
          else
          let va := BitVec.ofNat 64 ring
          match if n == 0 then none else c.s.checkRow c.g.domain va n 1 255 wantStore with
          | some e => c.walkFault e
          | none =>
            let s := if n == 0 then c.s else c.s.learnRow c.g.domain va n wantStore
            let bk := catBuckets size
            let pins := c.s.leaves c.g.domain ring n wantStore
            let cl : Claim := { base := base, size := size, ring := rd, spills := 0, occ := 0, ov := 0, b := bk, k64 := f.x.getLsbD 0, slots := [], pins := pins }
            c.catDone ((s.taint c.g.block base size none).onBlock c.g.block fun b => { b with claim := some cl }) (c.g.setS f.d.toNat (BitVec.ofNat 64 bk)) [] (some f.d.toNat)

/-- A claim ends: its range becomes ordinary scratchpad with undefined contents (R149). -/
def State.endClaim (s : State) (block : Nat) : State :=
  match s.blocks.look block with
  | none => s
  | some b =>
    match b.claim with
    | none => s
    | some cl =>
      let s := s.onBlock block fun b => { b with claim := none }
      { s.spadWrite block cl.base ((List.range cl.size).map fun i => Config.freeByte s.fresh i) with fresh := s.fresh + 1 }

/-- `cfree` (R149): it waits until the Catalogue instructions of the block before it are complete. -/
def execCfree (f : FormV) (s : State) : Res :=
  catAccess (.cfree f) s fun c =>
    if !c.wide f.g then c.finish c.g
    else match c.s.blockOf c.g.block with
      | none => c.finish c.g
      | some b => if b.claim.isNone then c.catFault else if !c.s.spadsQuiet c.g.block then c.stall else c.catDone (c.s.endClaim c.g.block) c.g [] none

/-- A drain (R153): records in drain order, the position reached, and the table. -/
structure Drain where
  c : Claim
  p : Nat
  out : List (Dword × Dword) := []

def Drain.step (clr : Bool) (n : Nat) (d : Drain) : Drain :=
  if d.out.length < n && d.p < d.c.top + d.c.ov then
    match d.c.slots.look d.p with
    | some e =>
      if clr then
        { c := d.c.remove d.p, p := if d.p < d.c.top then d.p + 1 else d.p, out := d.out ++ [e] }
      else { d with p := d.p + 1, out := d.out ++ [e] }
    | none => { d with p := d.p + 1 }
  else d

/-- `cdrn` (R153). -/
def execCdrn (f : FormV) (s : State) : Res :=
  catAccess (.cdrn f) s fun c =>
    if !c.wide f.g then c.finish c.g
    else match c.s.blockOf c.g.block with
      | none => c.finish c.g
      | some b =>
        let dst := c.selWide f.d
        let n := min (c.selWide f.b).toNat 1024
        let glb := f.x.getLsbD 0
        if dst.toNat % 16 != 0 then c.fault { code := faultAlign, va := dst }
        else match b.claim with
          | none => c.catFault
          | some cl =>
            let bad : Option FaultInfo :=
              if n == 0 then none
              else if glb then c.s.checkRow c.g.domain dst (16 * n) 1 255 wantStore
              else if b.spadBytes < dst.toNat + 16 * n then some { code := faultProt, va := dst }
              else if b.inClaim dst.toNat (16 * n) then some { code := faultCatrange, va := dst } else none
            match bad with
            | some e => c.walkFault e
            | none =>
              if glb && c.g.full .gst then c.stall
              else
                let start := (c.selWide f.a).toNat
                let d := (List.range (cl.top + 64)).foldl (fun d _ => d.step (f.x.getLsbD 1) n) ({ c := cl, p := start } : Drain)
                let cursor : Dword := if d.c.top + d.c.ov ≤ d.p then BitVec.allOnes 64 else BitVec.ofNat 64 d.p
                let g := (c.g.setS f.a.toNat cursor).setS f.c.toNat (BitVec.ofNat 64 d.out.length)
                let s := c.s.onBlock c.g.block fun b => { b with claim := some d.c }
                if glb then
                  let s := s.learnRow c.g.domain dst (16 * n) wantStore
                  let x := c.recordStores s g dst (fun va => match s.trans c.g.domain va wantStore with | .ok pa n => some (pa, n) | .bad _ _ => none) (d.out.mapIdx fun i e => (i, e.1, e.2))
                  c.catDone x.1 x.2 [] (some f.c.toNat)
                else
                  c.catDone (s.spadWrite c.g.block dst.toNat (d.out.flatMap fun e => leBytes 8 e.1.toNat ++ leBytes 8 e.2.toNat)) g [] (some f.c.toNat)

/-- `cstat` (R154). -/
def execCstat (f : FormV) (s : State) : Res :=
  catAccess (.cstat f) s fun c =>
    if !c.wide f.g then c.finish c.g
    else match (c.s.blockOf c.g.block).bind (·.claim) with
      | none => c.catFault
      | some cl =>
        let x : Dword := match f.x.toNat with
          | 0 => BitVec.ofNat 64 cl.occ
          | 1 => BitVec.ofNat 64 cl.ov
          | _ => cl.spills
        let s := if f.x == 3 then c.s.onBlock c.g.block fun b => { b with claim := some { cl with spills := 0 } } else c.s
        c.catDone s (c.g.setS f.d.toNat x) [] (some f.d.toNat)

end Sys2Proof.Machine
end

