-- ==== Sys2Proof/Machine/Courier.lean ====
section
/-! DEFINITION. The courier, major 0x0B (R134-R140, R238), and the steps by which its bytes land. -/
namespace Sys2Proof.Machine

/-- COURIER, precisely: nothing moves (R134). -/
def Ctx.courierFault (c : Ctx) : Res := c.fault { code := faultCourier }

/-- Copies in flight of the core (R134). -/
def State.copiesOn (s : State) (core : Nat) : Nat := (s.copies.filter fun e => keyCore e.2.group == core).length

/-- A range of a block's scratchpad that a courier may touch (R136). -/
def Block.courierOk (b : Block) (off n : Nat) : Bool := off + n ≤ b.spadBytes && !b.inClaim off n

/-- The blocks of the issuing block's cohort, by rank (R136). -/
def State.cohortBlock (s : State) (b : Block) (rank : Nat) : Option (Nat × Block) :=
  s.blocks.find? fun e => e.2.launch == b.launch && e.2.cohort == b.cohort && e.2.number % (match s.belfry.launches.look b.launch with | some l => l.record.cohort | none => 1) == rank

/-- The cohort size of a block (R136). -/
def State.cohortSize (s : State) (b : Block) : Nat := match s.belfry.launches.look b.launch with | some l => l.record.cohort | none => 1

/-- A piece of a copy to global memory: its address and its bytes' offsets in the scratchpad. -/
structure Piece where
  va : Dword
  src : List Nat

/-- Translate the pieces of a copy in order: the state, the pieces' addresses, or the first fault. -/
def State.pieces (s : State) (d : Nat) (ps : List Piece) : State × List (Nat × Bool × List Nat) × Option FaultInfo :=
  ps.foldl (fun a p =>
    match a.2.2 with
    | some _ => a
    | none => match a.1.trans d p.va wantCourier with
      | .ok pa n => (a.1.learn d p.va wantCourier, a.2.1 ++ [(pa, n, p.src)], none)
      | .bad code detail => (a.1, a.2.1, some { code := code, va := p.va, detail := detail })) (s, [], none)

/-- The bytes that pieces bring to each line: offset in the line and offset in the source; a later piece stands over an
earlier one. -/
def pieceLines (ps : List (Nat × Bool × List Nat)) : Map (Bool × List (Nat × Nat)) :=
  ps.foldl (fun m p =>
    let line := p.1 / 64
    let bytes := (p.2.2.mapIdx fun i o => (p.1 % 64 + i, o)).reverse
    match m.look line with
    | some x => m.put line (x.1, bytes ++ x.2)
    | none => m.put line (p.2.1, bytes)) []

/-- Start a copy to global memory (R136, R138). -/
def Ctx.startGlobal (c : Ctx) (src total : Nat) (ps : List Piece) : Res :=
  let r := c.s.pieces c.g.domain ps
  match r.2.2 with
  | some f => c.walkFault f
  | none =>
    let s := r.1
    let id := s.nextId
    let op := id + 1
    let lines := pieceLines r.2.1
    let copy : Copy := { group := c.key, op := op, block := c.g.block, src := src, bytes := total, dests := [], dst := 0, carried := 0, landed := [], tainted := [], toGlobal := true }
    let s := { s with nextId := id + 2, copies := s.copies.put id copy }
    let s := lines.foldl (fun s e =>
      if e.2.1 then
        let pas := (List.range 64).filter fun i => e.2.2.any fun x => x.1 == i
        let runs := pas.foldl (fun (rs : List (Nat × List Nat)) i =>
          let o := (e.2.2.find? fun x => x.1 == i).elim 0 (·.2)
          match rs.getLast? with
          | some l => if l.1 + l.2.length == i then rs.dropLast ++ [(l.1, l.2 ++ [o])] else rs ++ [(i, [o])]
          | none => [(i, [o])]) []
        runs.foldl (fun s x => s.sendOwner (.copy id) (64 * e.1 + x.1) (.courier (64 * e.1 + x.1) id x.2)) s
      else (s.send { group := c.key, core := c.r.core, op := op, pc := c.st.pc, entry := c.r.entry, line := e.1, va := 0, scope := .dev, clk := c.g.wclk, lease := c.g.lease, kind := .courier id e.2.2 }).2) s
    let left := (s.mem.msgs.filter fun e => e.2.op == op).length + (s.mem.owner.filter fun e => e.2.from_ == .copy id).length
    c.finishIn s (c.g.addOp { id := op, path := .snd, left := left, pc := c.st.pc, entry := c.r.entry, regs := [], sreg := none, slot := none, blk := false, store := false })

/-- `send.glb` (R136). -/
def execSendGlb (f : FormV) (s : State) : Res :=
  access (.sendGlb f) s fun c =>
    if !c.wide f.g then c.finish c.g
    else match c.s.blockOf c.g.block with
      | none => c.finish c.g
      | some b =>
        let dst := c.selWide f.d
        let src := (c.selWide f.a).toNat
        let n := (c.selWide f.b).toNat
        if n == 0 && src % 16 == 0 && dst.toNat % 16 == 0 then c.finish c.g
        else if n % 16 != 0 || src % 16 != 0 || dst.toNat % 16 != 0 || !b.courierOk src n then c.courierFault
        else if c.g.full .snd || 128 ≤ c.s.copiesOn c.r.core then c.stall
        else c.startGlobal src n ((List.range (n / 16)).map fun i => { va := dst + BitVec.ofNat 64 (16 * i), src := (List.range 16).map fun j => src + 16 * i + j })

/-- Start a copy to scratchpads of the cohort (R136). -/
def Ctx.startPeer (c : Ctx) (src n dst : Nat) (dests : List (Option Nat)) : Res :=
  let id := c.s.nextId
  let op := id + 1
  let chunks := (dst + n - 1) / 512 + 1 - dst / 512
  let copy : Copy := { group := c.key, op := op, block := c.g.block, src := src, bytes := n, dests := dests, dst := dst, carried := tmax c.g.rclk c.g.wclk, landed := [], tainted := [], toGlobal := false }
  c.finishIn { c.s with nextId := id + 2, copies := c.s.copies.put id copy } (c.g.addOp { id := op, path := .snd, left := chunks * dests.length, pc := c.st.pc, entry := c.r.entry, regs := [], sreg := none, slot := none, blk := false, store := false })

/-- Where a rank of the cohort stands: a block, or one that has retired, whose bytes are discarded (R219). Every block of a
cohort is placed at once (R202), so a rank that the launch has and that no block holds has retired. -/
def State.rankPlace (s : State) (b : Block) (rank : Nat) : Option (Option (Nat × Block)) :=
  let first := b.number - b.number % s.cohortSize b
  let total := match s.belfry.launches.look b.launch with
    | some l => l.record.gridx * l.record.gridy * l.record.gridz
    | none => 0
  if s.cohortSize b ≤ rank then none
  else match s.cohortBlock b rank with
    | some x => some (some x)
    | none => if first + rank < total then some none else none

/-- Where the block's shares of a range fit: in a block that has retired, in its launch's scratchpad. -/
def Block.placeOk (b : Block) (d : Option (Nat × Block)) (off n : Nat) : Bool :=
  match d with
  | some d => d.2.courierOk off n
  | none => off + n ≤ b.spadBytes

/-- `send.peer` and `sendm` to ranks of the cohort (R136, R219). A byte count of 0 does nothing, once its offsets and ranks are
good (LOG 150). -/
def Ctx.sendRanks (c : Ctx) (f : FormV) (ranks : List Nat) : Res :=
  match c.s.blockOf c.g.block with
  | none => c.finish c.g
  | some b =>
    let dst := (c.selWide f.d).toNat
    let src := (c.selWide f.a).toNat
    let n := (c.selWide f.b).toNat
    let dests := ranks.map fun r => c.s.rankPlace b r
    if n % 16 != 0 || src % 16 != 0 || dst % 16 != 0 || dests.any (·.isNone) then c.courierFault
    else if n == 0 || dests.isEmpty then c.finish c.g
    else if !b.courierOk src n || dests.any (fun d => match d with | some d => !b.placeOk d dst n | none => true) then c.courierFault
    else if c.g.full .snd || 128 ≤ c.s.copiesOn c.r.core then c.stall
    else c.startPeer src n dst (dests.map fun d => match d with | some (some x) => some x.1 | _ => none)

/-- `send.peer` (R136). -/
def execSendPeer (f : FormV) (s : State) : Res :=
  access (.sendPeer f) s fun c =>
    if c.wide f.g then c.sendRanks f [(c.selWide f.c).toNat % 16] else c.finish c.g

/-- `sendm`: one copy for all ranks of the mask (R136). -/
def execSendm (f : FormV) (s : State) : Res :=
  access (.sendm f) s fun c =>
    if c.wide f.g then c.sendRanks f ((List.range 16).filter fun r => (c.selWide f.c).getLsbD r) else c.finish c.g

/-- A byte of the dense source under the swizzle of a layout (R137). -/
def Layout.source (l : Layout) (rowBytes o : Nat) : Nat :=
  if l.swizzle then
    let r := o / rowBytes
    let u := o % 128 / 16
    o / 128 * 128 + (u ^^^ (r % 8)) * 16 + o % 16
  else o

/-- `send.tens` (R138): it waits for a `tlayout` of its slot that is in flight (LOG 116). Of R136's checks it makes those
that R138 keeps: its addresses are aligned to the element, and its total size need not be a multiple of 16 (LOG 117). -/
def execSendTens (f : FormV) (s : State) : Res :=
  access (.sendTens f) s fun c =>
    if !c.wide f.g then c.finish c.g
    else match c.s.blockOf c.g.block with
      | none => c.finish c.g
      | some b =>
        if c.g.ops.any (fun o => o.slot == some ((c.selWide f.c).toNat % 8)) then c.stall
        else match c.g.layouts.look ((c.selWide f.c).toNat % 8) with
        | none => c.courierFault
        | some l =>
          let base := c.selWide f.d
          let src := (c.selWide f.a).toNat
          let ext (i : Nat) : Nat := if i < l.rank then bitsAt (c.selWide f.b).toNat (16 * i) 16 else 1
          let e := l.fmt.bits / 8
          let row := ext 0 * e
          let total := row * ext 1 * ext 2 * ext 3
          let at_ (k : Nat) : Dword :=
            base + BitVec.ofNat 64 (k % ext 0 * e) + BitVec.ofNat 64 (k / ext 0 % ext 1) * l.stride1 + BitVec.ofNat 64 (k / (ext 0 * ext 1) % ext 2) * l.stride2 + BitVec.ofNat 64 (k / (ext 0 * ext 1 * ext 2)) * l.stride3
          let ks := List.range (ext 0 * ext 1 * ext 2 * ext 3)
          if total == 0 then c.finish c.g
          else if src % 16 != 0 || !b.courierOk src total || (l.swizzle && row % 128 != 0) || ks.any (fun k => (at_ k).toNat % e != 0) then c.courierFault
          else if c.g.full .snd || 128 ≤ c.s.copiesOn c.r.core then c.stall
          else c.startGlobal src total (ks.map fun k => { va := at_ k, src := (List.range e).map fun j => src + l.source row (e * k + j) })

/-- The header of a claim after courier bytes landed on it: its fields are undefined values, within the limits of R147
(LOG 114). -/
def Claim.spoilHeader (c : Claim) (free : Nat) : Claim :=
  let x (i : Nat) : Nat := (Config.freeWord (free * 40000 + i)).toNat
  let b := min c.b (1 + x 3 % 11)
  { c with ring := Config.freeWord (free * 40000), spills := Config.freeWord (free * 40000 + 1), occ := x 2 % 16449, ov := x 4 % 65, b := b, k64 := Config.freeBit (free * 40000 + 5) }

/-- Bytes that land in a claim make the overlapped table contents undefined (R136, R148): slots and header fields. -/
def State.spoilClaim (s : State) (block off n : Nat) : State :=
  s.onBlock block fun b =>
    match b.claim with
    | none => b
    | some cl =>
      if !cl.covers off n then b
      else
        let ps := (List.range (8 * 2 ^ cl.b + 64)).filter fun p => off < cl.base + 256 + 16 * p + 16 && cl.base + 256 + 16 * p < off + n
        let slots := ps.foldl (fun m p => m.put p (Config.freeWord (2 * p + 16 + 40000 * s.fresh), Config.freeWord (2 * p + 17 + 40000 * s.fresh))) cl.slots
        let cl := { cl with slots := slots }
        { b with claim := some (if off < cl.base + 23 && cl.base < off + n then cl.spoilHeader s.fresh else cl) }

/-- COURIER_LAND: the bytes of one chunk of a transfer land and its arrival bit is set (R135, R136, R238). The chunks of
a copy are numbered over its destinations in order. -/
def State.landChunk (s : State) (copy chunk : Nat) (bad : Bool) : State :=
  match s.copies.look copy with
  | none => s
  | some c =>
    let per := (c.dst + c.bytes - 1) / 512 + 1 - c.dst / 512
    match c.dests[chunk / per]? with
    | none => s
    | some blk =>
      if c.toGlobal || c.landed.contains chunk || !s.spadsBefore c.group c.op then s
      else
        let k := c.dst / 512 + chunk % per
        let lo := max c.dst (512 * k)
        let hi := min (c.dst + c.bytes) (512 * k + 512)
        let b := (s.blocks.look c.block).map fun b => (List.range (hi - lo)).map fun i =>
          let o := c.src + (lo - c.dst) + i
          if c.tainted.contains o then Config.freeByte s.fresh o else b.read o
        let s := match if bad then none else blk with
          | none => s
          | some blk => ((s.spadWrite blk lo (b.getD [])).spoilClaim blk lo (hi - lo)).onBlock blk fun b => { b with arrival := b.arrival.put k true, kept := b.kept.put k (tmax (Map.get 0 b.kept k) c.carried) }
        let s := { s with fresh := s.fresh + 1 }
        let done := c.landed.length + 1 == per * c.dests.length
        let s := { s with copies := if done then s.copies.del copy else s.copies.adjust copy fun x => { x with landed := chunk :: c.landed } }
        if bad then s.partBad c.group c.op [(32, dataInfo 0xFF 0)] else s.partDone c.group c.op 1

/-- COURIER_LAND (R135, R136). -/
def execCourierLand (copy chunk : Nat) (s : State) : Res := .next (s.landChunk copy chunk false)

/-! ### Commissions (R139) -/

/-- What a commission streams: a layout's elements, a constant, or the elements of rows that index words name, each distinct
row fetched once where `once` (`sgath`, R192). -/
inductive Feed where
  | lay (x : Lay)
  | const (value size count : Nat)
  | rows (header : Dword) (size count : Nat) (once : Bool)
  deriving DecidableEq, Repr

/-- The commands that a producer accepts (R139). -/
def feedOf (w : BitVec 128) : Option Feed :=
  match decodeStream w with
  | .ok (.slin f) => if f.flags.getLsbD 0 && !f.flagE && !f.flagC then some (.lay (f.lay [])) else none
  | .ok (.sconst f) => if !f.flagE && !f.flagC then some (.const f.const f.size f.constCount) else none
  | .ok (.sidx f) => if !f.flagE && !f.flagC then some (.rows f.header f.size f.indexCount false) else none
  | .ok (.sgath f) => if !f.flagE && !f.flagC then some (.rows f.header f.size f.indexCount true) else none
  | _ => none

/-- Bytes of a stream; those of a row stream follow from the row bytes of its header. -/
def Feed.bytes (x : Feed) (row : Nat) : Nat :=
  match x with
  | .lay x => x.count * x.size
  | .const _ size count => size * count
  | .rows _ size count _ => count * (row / size) * size

/-- What a producer's read finds: a value with its write time and the job after it, a fault, or a line that is asked of its
owner first. -/
inductive Produce where
  | value (x : Nat) (t : Time) (j : Job)
  | fault (f : FaultInfo)
  | wait (s : State)

/-- Read `n` bytes of one line for a producer, each line once when it is reached (R139); `index` says whether they are an
index word. -/
def State.produceLine (s : State) (j : Job) (va : Dword) (n : Nat) (index : Bool) : Produce :=
  match s.trans j.domain va wantCommission with
  | .bad code detail => .fault { code := code, va := va, detail := detail, precise := false }
  | .ok pa near =>
    let line := pa / 64
    let held := if index then j.heldIndex else j.held
    match if near then none else held.filter fun x => x.1 == line with
    | some x => .value (lineValue x.2 (pa % 64) n) 0 j
    | none =>
      if s.lineBad line || s.refused line near then .fault { code := faultData, va := va, precise := false }
      else match s.lineNow line near with
        | none => .wait (s.bring line false near)
        | some d => .value (lineValue d (pa % 64) n) (s.engineWts pa near) (if index then { j with heldIndex := some (line, d) } else { j with held := some (line, d) })

/-- Read `n` bytes at an address for a producer: an element that lies in two lines is read from both (R139, LOG 56). -/
def State.produce (s : State) (j : Job) (va : Dword) (n : Nat) (index : Bool) : Produce :=
  let k := 64 - va.toNat % 64
  if n ≤ k then s.produceLine j va n index
  else match s.produceLine j va k index with
    | .value x t j => match s.produceLine j (va + BitVec.ofNat 64 k) (n - k) index with
      | .value y u j => .value (x + 2 ^ (8 * k) * y) (tmax t u) j
      | r => r
    | r => r

/-- The header of a row stream: table, stride, row bytes (R194). -/
def State.readHeader (s : State) (j : Job) (va : Dword) : Produce :=
  match j.header with
  | some _ => .value 0 0 j
  | none =>
    match s.produce j va 8 true with
    | .value table t0 j => match s.produce j (va + 8) 4 true with
      | .value stride t1 j => match s.produce j (va + 12) 4 true with
        | .value row t2 j => .value 0 0 { j with header := some (table, stride, row, tmax t0 (tmax t1 t2)), maxWts := tmax j.maxWts (tmax t0 (tmax t1 t2)) }
        | r => r
      | r => r
    | r => r

/-- The next index word of a row stream, unless it has been read (R142, R194). -/
def State.readIndex (s : State) (j : Job) (va : Dword) (i : Nat) : Produce :=
  match j.index[i]? with
  | some x => .value x 0 j
  | none => match s.produce j (va + BitVec.ofNat 64 (16 + 4 * i)) 4 true with
    | .value x t j => .value x t { j with index := j.index ++ [x], maxWts := tmax j.maxWts t }
    | r => r

/-- An element of a row stream; with `once`, one that was fetched before is delivered again (R192). -/
def State.readElement (s : State) (j : Job) (va : Dword) (size : Nat) (once : Bool) : Produce :=
  match if once then j.fetched.look va.toNat else none with
  | some x => .value x 0 j
  | none => match s.produce j va size false with
    | .value x t j => .value x t { j with fetched := if once then j.fetched.put va.toNat x else j.fetched, maxWts := tmax j.maxWts t }
    | r => r

/-- What a producer delivers next: the bytes of its element at `pos` (none at the stream's end) and the bytes of the whole
stream; or a fault; or nothing yet. -/
inductive Next where
  | bytes (bs : List Byte) (total : Nat) (j : Job)
  | fault (f : FaultInfo)
  | wait (s : State)

/-- The next element of a job (R139, R192-R194). -/
def State.nextElement (s : State) (j : Job) : Next :=
  match feedOf j.command with
  | none => .bytes [] 0 j
  | some (.lay x) =>
    match s.produce j (x.at j.pos) x.size false with
    | .value v t j => .bytes (leBytes x.size v) (x.count * x.size) { j with maxWts := tmax j.maxWts t }
    | .fault f => .fault f
    | .wait s => .wait s
  | some (.const v size count) => .bytes (if j.pos < count then leBytes size v else []) (size * count) j
  | some (.rows header size count once) =>
    match s.readHeader j header with
    | .fault f => .fault f
    | .wait s => .wait s
    | .value _ _ j =>
      match j.header with
      | none => .bytes [] 0 j
      | some (table, stride, row, _) =>
        let per := row / size
        let total := count * per * size
        let i := if per == 0 then count else j.pos / per
        if count ≤ i then .bytes [] total j
        else match s.readIndex j header i with
          | .fault f => .fault f
          | .wait s => .wait s
          | .value ix _ j =>
            match s.readElement j (BitVec.ofNat 64 (table + ix * stride + j.pos % per * size)) size once with
            | .value v _ j => .bytes (leBytes size v) total j
            | .fault f => .fault f
            | .wait s => .wait s

/-- The row bytes that a row stream's header gives as the commission issues, where it can be read (R139, LOG 115). -/
def State.feedRow (s : State) (j : Job) (x : Feed) : Produce :=
  match x with
  | .rows header _ _ _ => s.readHeader j header
  | _ => .value 0 0 j

/-- `commission` (R139). The port field of a command to an L2 slice is ignored (R68). -/
def execCommission (f : FormV) (s : State) : Res :=
  access (.commission f) s fun c =>
    if !c.wide f.g then c.finish c.g
    else if !c.g.spads.isEmpty then c.stall
    else match c.s.blockOf c.g.block with
      | none => c.finish c.g
      | some b =>
        let dst := (c.selWide f.d).toNat
        let at_ := (c.selWide f.a).toNat
        let sel := c.selWide f.b
        let raw := BitVec.ofNat 128 (leValue (b.bytes at_ 16))
        let cmd := if sel.getLsbD 8 then raw else raw &&& ~~~(0xFF#128 <<< 112)
        if at_ % 16 != 0 || !b.courierOk at_ 16 || dst % 512 != 0 || sel.toNat / 2 ^ 16 != 0 || bitsAt sel.toNat 9 3 != 0 || bitsAt sel.toNat 6 2 != 0 then c.courierFault
        else match feedOf cmd with
          | none => c.courierFault
          | some feed =>
            let id := c.s.nextId
            let op := id + 1
            let job : Job := { group := c.key, op := op, block := c.g.block, domain := c.g.domain, command := cmd, dst := dst, selector := sel, pc := c.st.pc, pos := 0, maxWts := 0, aside := none, index := [] }
            let start (job : Job) : Res :=
              if !b.courierOk dst (feed.bytes (match job.header with | some h => h.2.2.1 | none => 0)) then c.courierFault
              else if c.g.full .cms || 128 ≤ c.s.copiesOn c.r.core then c.stall
              else c.finishIn { c.s with nextId := id + 2, jobs := c.s.jobs.put id job } (c.g.addOp { id := op, path := .cms, left := 1, pc := c.st.pc, entry := c.r.entry, regs := [], sreg := none, slot := none, blk := false, store := false })
            match c.s.feedRow job feed with
            | .value _ _ job => start job
            | .fault _ => start job
            | .wait s => .next s

/-- A job ends: its group's counter falls and rclk rises to the largest write time read (R238). -/
def State.endJob (s : State) (id : Nat) (j : Job) (t : Time) : State :=
  (({ s with jobs := s.jobs.del id } : State).onGroup j.group fun g => { g with rclk := tmax g.rclk t }).partDone j.group j.op 1

/-- A PAGE record for a commission that is set aside; its group runs on (R139, R345). -/
def State.setAside (s : State) (id : Nat) (j : Job) (f : FaultInfo) : State :=
  match s.groups.look j.group with
  | none => s
  | some g =>
    let q := s.packetOf g.launch
    let rid := s.nextId
    let core := keyCore j.group
    let r : FaultRec := { id := rid, code := f.code, source := 4, flags := flagByte true false false false, lane := 0xFF, queue := q.1, slot := q.2, where_ := j.pc, va := f.va, detail := f.detail, core := core, slotNo := keySlot j.group, incarnation := (s.core core).incarnation, block := (match s.blocks.look g.block with | some b => b.number | none => 0), domain := j.domain, launch := some g.launch, region := none, group := some j.group, job := some id, port := none }
    { (s.raise r) with nextId := rid + 1, jobs := s.jobs.put id { j with aside := some rid } }

/-- A commission ends with a fault of its group (R139, R345). -/
def State.failJob (s : State) (id : Nat) (j : Job) (f : FaultInfo) : State :=
  (({ s with jobs := s.jobs.del id } : State).takeFault { core := keyCore j.group, slot := keySlot j.group, entry := 0 } j.pc f).partDone j.group j.op 1

/-- Bytes of an element land in the scratchpad; chunks whose bytes have all landed take their arrival bit (R135). -/
def State.deliver (s : State) (j : Job) (bs : List Byte) (total : Nat) : State :=
  let off := j.dst + j.pos * bs.length
  let s := { (s.spadWrite j.block off bs).spoilClaim j.block off bs.length with fresh := s.fresh + 1 }
  let whole := j.pos * bs.length + bs.length == total
  if whole || (off + bs.length) % 512 == 0 then s.onBlock j.block fun b => { b with arrival := b.arrival.put (off / 512) true } else s

/-- COMMISSION_DELIVER: the producer reads its next element at its home and delivers it (R135, R139). -/
def execCommissionDeliver (id : Nat) (s : State) : Res :=
  match s.jobs.look id with
  | none => .next s
  | some j =>
    if j.aside.isSome then .next s
    else match s.nextElement j with
      | .wait s => .next s
      | .fault f =>
        if f.code == faultPage then .next (s.setAside id j f)
        else .next (((if f.code == faultData then s.logBadAt j.domain f.va else s).useUp (s.mem.msgs.map fun e => e.2.line)).failJob id j f)
      | .bytes bs total j =>
        let fits := match s.blocks.look j.block with | some b => b.courierOk j.dst total | none => false
        let late := match feedOf j.command with | some (.rows _ _ _ _) => !fits && j.pos == 0 | _ => false
        let s := s.useUp (s.mem.msgs.map fun e => e.2.line)
        if bs.isEmpty then .next (s.endJob id j j.maxWts)
        else if late then .next (s.failJob id j { code := faultCourier, precise := false })
        else
          let s := s.deliver j bs total
          let whole := j.pos * bs.length + bs.length == total
          let j := { j with pos := j.pos + 1 }
          if whole then .next (s.endJob id j j.maxWts) else .next { s with jobs := s.jobs.put id j }

/-- COMMISSION_RESUME: a command that was set aside resumes once its page is mapped (R139). -/
def execCommissionResume (id : Nat) (s : State) : Res :=
  match s.jobs.look id with
  | none => .next s
  | some j =>
    match j.aside, s.nextElement j with
    | _, .fault _ => .next s
    | some rid, _ => .next { s with jobs := s.jobs.put id { j with aside := none }, faults := { s.faults with awaiting := s.faults.awaiting.filter fun a => a.record.id != rid } }
    | none, _ => .next s

/-! ### The arrival map (R135, R140) -/

/-- The masked chunks from `first` on. -/
def maskedChunks (first : Nat) (mask : Dword) : List (Nat × Nat) :=
  ((List.range 64).filter fun i => mask.getLsbD i).map fun i => (i, first + i)

def Block.chunkIn (b : Block) (k : Nat) : Bool := 512 * k < b.spadBytes

/-- rclk rises to the kept times of chunks whose set bit was seen (R238). -/
def Group.seeChunks (g : Group) (b : Block) (ks : List Nat) : Group :=
  { g with rclk := ks.foldl (fun t k => tmax t (Map.get 0 b.kept k)) g.rclk }

/-- `cbtest` (R140). -/
def execCbtest (f : FormV) (s : State) : Res :=
  access (.cbtest f) s fun c =>
    match c.wide f.g, c.s.blockOf c.g.block with
    | true, some b =>
      let ks := (maskedChunks (c.selWide f.a).toNat (c.selWide f.b)).filter fun e => b.chunkIn e.2 && Map.get false b.arrival e.2
      let bits := ks.foldl (fun (m : Dword) e => m ||| (1 <<< e.1)) 0
      c.finish ((c.g.seeChunks b (ks.map (·.2))).setS f.d.toNat bits)
    | _, _ => c.finish c.g

/-- `cbwait` (R140). -/
def execCbwait (f : FormV) (s : State) : Res :=
  access (.cbwait f) s fun c =>
    match c.wide f.g, c.s.blockOf c.g.block with
    | true, some b =>
      let ks := (maskedChunks (c.selWide f.a).toNat (c.selWide f.b)).map (·.2)
      if ks.any fun k => !b.chunkIn k then c.courierFault
      else if ks.all fun k => Map.get false b.arrival k then c.finish (c.g.seeChunks b ks)
      else c.stall
    | _, _ => c.finish c.g

/-- `cbclr` (R140). -/
def execCbclr (f : FormV) (s : State) : Res :=
  access (.cbclr f) s fun c =>
    if c.wide f.g then
      let ks := (maskedChunks (c.selWide f.a).toNat (c.selWide f.b)).map (·.2)
      c.finishIn (c.s.onBlock c.g.block fun b => { b with arrival := ks.foldl (fun m k => if b.chunkIn k then m.del k else m) b.arrival }) c.g
    else c.finish c.g

/-- `tlayout` (R138): the descriptor is read as by a relaxed `.dev` load (R228), from the core's copy where it serves, and
counts on the global load path (R127). -/
def execTlayout (f : FormV) (s : State) : Res :=
  access (.tlayout f) s fun c =>
    let va := c.selWide f.a
    if !c.wide f.g then c.finish c.g
    else if c.g.full .gld then c.stall
    else if va.toNat % 32 != 0 then c.fault { code := faultAlign, va := va }
    else match c.s.trans c.g.domain va { wantLoad with n := .refuse } with
      | .bad code detail => c.walkFault { code := code, va := va, detail := detail }
      | .ok pa _ =>
        let s := c.s.learn c.g.domain va { wantLoad with n := .refuse }
        let line := pa / 64
        let off := pa % 64
        match s.hits c.key c.g c.r.core line 0 .dev (byteMask off 32) with
        | some v =>
          let g := ({ c.g with rclk := tmax c.g.rclk v.wts }).addMarks (s.marksOf c.key v (byteMask off 32))
          match layoutOf (lineValue v.bytes off 32) with
          | some l => c.finishIn s { g with layouts := g.layouts.put f.x.toNat l }
          | none => .next ((s.setGroup c.key g).takeFault c.r c.st.pc { code := faultCourier })
        | none =>
          let op := s.nextId
          let r := ({ s with nextId := op + 1 } : State).send { group := c.key, core := c.r.core, op := op, pc := c.st.pc, entry := c.r.entry, line := line, va := va, scope := .dev, clk := c.g.rclk, lease := c.g.lease, kind := .layout f.x.toNat off }
          c.finishIn r.2 (c.g.addOp { id := op, path := .gld, left := 1, pc := c.st.pc, entry := c.r.entry, regs := [], sreg := none, slot := some f.x.toNat, blk := false, store := false })

end Sys2Proof.Machine
end

