-- ==== Sys2Proof/Machine/Fetch.lean ====
section
/-! DEFINITION. Instruction fetch (R339, R420). -/
namespace Sys2Proof.Machine

/-- What a strand finds at its pc. -/
inductive Fetched where
  /-- A fault that is raised now that the word reaches issue (R339). -/
  | fault (f : FaultInfo)
  /-- No copy serves the fetch: the line is fetched. -/
  | miss (pa : Nat)
  /-- The word, and its line's wts. -/
  | word (w : Dword) (wts : Time)
  deriving DecidableEq, Repr

/-- The word of the kernel that a launch runs: the newest image loaded before the launch was placed (R397). -/
def State.kernelWord (s : State) (launch pa : Nat) : Option Dword :=
  (s.keep.kernels.find? fun k => Kernel.covers k pa && k.at_ < launch).map fun k => BitVec.ofNat 64 (leValue ((k.body.drop (pa - k.base)).take 8))

/-- Fetch the word at an address (R420): a copy whose rts is at least the group's rclk serves it. The code of the self-test and
safe-function kernels comes from device-private memory, and stage 1 runs no other code (R392, LOG 157). -/
def State.fetch (s : State) (core : Nat) (g : Group) (pc : Dword) : Fetched :=
  match s.trans g.domain pc wantFetch with
  | .bad code detail => .fault { code := code, va := pc, detail := detail }
  | .ok pa _ =>
    if s.keep.kernels.any (fun k => Kernel.covers k pa) || s.boot == .stage1 then
      match s.kernelWord g.launch pa with
      | some w => .word w 0
      | none => .fault { code := faultProt, va := pc, detail := walkDetail 3 0 1 }
    else match (s.mem.icache.look (copyKey core (pa / 64))).bind s.view with
    | some c =>
      if g.rclk.toNat ≤ c.rts.toNat then .word (BitVec.ofNat 64 (lineValue c.data (pa % 64) 8)) c.wts
      else if s.lineBad (pa / 64) then .fault { code := faultData, va := pc }
      else .miss pa
    | none => if s.lineBad (pa / 64) then .fault { code := faultData, va := pc } else .miss pa

/-- INSTRUCTION_FETCH: the line is renewed at its home and fills the instruction cache; a line of host or peer memory
is asked of its proxy (R420). -/
def execInstructionFetch (r : StrandRef) (s : State) : Res :=
  match s.strandAt r with
  | none => .next s
  | some (g, st) =>
    match s.fetch r.core g st.pc with
    | .miss pa =>
      let line := pa / 64
      let key := gkey r.core r.slot
      let s := s.learn g.domain st.pc wantFetch
      if lineRemote line then
        if s.mem.msgs.any fun e => e.2.group == key && e.2.line == line && e.2.kind == .fetch then .next s
        else .next (s.send { group := key, core := r.core, op := s.nextId, pc := st.pc, entry := r.entry, line := line, va := st.pc, scope := .dev, clk := g.rclk, lease := g.lease, kind := .fetch }).2
      else
        let h := s.homeView line
        let h' := { h with rts := tmax h.rts (g.rclk + g.lease) }
        let s := s.setHome line h'
        .next { s with mem := { s.mem with icache := s.mem.icache.put (copyKey r.core line) ⟨h.data, BitVec.allOnes 64, s.stamp h.wts, s.stamp (g.rclk + g.lease), []⟩ } }
    | _ => .next s

/-- A fault of a fetch is taken at the word (R339); an uncorrectable word is recorded (R407). -/
def State.fetchFault (s : State) (r : StrandRef) (pc : Dword) (f : FaultInfo) : State :=
  let d := match s.groups.look (gkey r.core r.slot) with | some g => g.domain | none => 0
  (if f.code == faultData then s.logBadAt d pc else s).takeFault r pc f

end Sys2Proof.Machine
end

