-- ==== Sys2Proof/Machine/Gate.lean ====
section
/-! DEFINITION. Gate calls, register growth and halting, major 0x0E (R155-R164), and the steps of `rgrow` (R216). -/
namespace Sys2Proof.Machine

/-- An entry that can be called from a domain with an allocation (R155, R156). -/
def GateEntry.callable (e : GateEntry) (caller nregs : Nat) : Bool :=
  e.target.getLsbD 7 && !e.target.getLsbD 6 && e.reserved == 0 && e.entry.toNat % 8 == 0 && e.va.toNat ≤ 64 && e.sa.toNat ≤ 16 && e.vr.toNat ≤ 64 && e.sr.toNat ≤ 16 && e.flags.toNat < 4 && e.callers.getLsbD caller && !(e.flags.getLsbD 0 && (e.va != 0 || e.vr != 0)) && e.va.toNat ≤ nregs && e.vr.toNat ≤ nregs

/-- No operation of the matrix engine that the group takes part in is outstanding. -/
def Group.matrixQuiet (g : Group) : Bool := g.words.isEmpty && g.owned.all (·.complete)

/-- The group enters a callee (R156): the frame holds the caller's state, and every saved register reads zero. -/
def Group.enter (g : Group) (e : GateEntry) (r : StrandRef) (st : Strand) (d : Nat) (n : Nat) (records : List Record) : Group :=
  let m := st.mask &&& g.live
  let g := g.mergeClocks
  let uniform := e.flags.getLsbD 0
  let fr : Frame := { v := g.v, s := g.s, p := g.p, jc := g.jc, pending := g.pending, strands := g.strands, records := records, saveList := g.saveList, stack := g.stack, trapvec := g.trapvec, layouts := g.layouts, live := g.live, rclk := g.rclk, wclk := g.wclk, caller := g.domain, callee := e.target.toNat % 64, entry := n, strand := r.entry, mask := m, pc := st.pc + 8, d := d, va := e.va.toNat, sa := e.sa.toNat, vr := e.vr.toNat, sr := e.sr.toNat, uniform := uniform }
  let v := if uniform then g.v else keepV g.v fun k l => k < e.va.toNat && m.getLsbD l
  let s := (g.s.filter fun x => 1 ≤ x.1 && x.1 ≤ e.sa.toNat)
  { g with v := v, s := Map.set 0 s 63 e.stack, p := if uniform then g.p else [], jc := [], pending := [], strands := [(r.entry, { pc := e.entry, mask := m, placed := st.placed })], saveList := [], stack := [], trapvec := 0, layouts := [], live := m, domain := e.target.toNat % 64, frames := fr :: g.frames }

/-- The call is made (R156): the group's records are set aside with its other strands. A blocked group stops being blocked, so
the all-blocked timer restarts (R216). -/
def State.enterGate (s : State) (r : StrandRef) (g : Group) (st : Strand) (e : GateEntry) (n d : Nat) : State :=
  let records := (s.core r.core).recordsOf r.slot
  let s := s.onCore r.core fun x => { x with docent := x.docent.filter fun q => q.slot != r.slot }
  let s := if g.blocked then s.growTouch r.core (slotQuad r.slot) else s
  s.setGroup (gkey r.core r.slot) (g.enter e r st d n records)

/-- A strand that waits in `gate` makes its call once the group's counters are 0 and the engine holds no operation of it
(R156). A target that has been quarantined or released meanwhile gives GATE_FAULT (LOG 145). -/
def State.openGate (s : State) (r : StrandRef) : State :=
  match s.strandAt r with
  | none => s
  | some (g, st) => match st.wait with
    | .gate e n d =>
      if !g.idle || !g.matrixQuiet then s
      else if (s.domain (e.target.toNat % 64)).state != .active then s.setGroup (gkey r.core r.slot) ((g.setS d 2).onStrand r.entry fun st => st.goto (st.pc + 8))
      else s.enterGate r g st e n d
    | _ => s

/-- `gate` (R156): the entry is read whole at issue; the call is made at once where nothing is outstanding, and otherwise the
strand waits, and the group's other strands and records are held. -/
def execGate (f : FormL) (s : State) : Res :=
  issue (.gate f) s fun c =>
    let d := f.d.toNat
    let status (x : Dword) : Res := c.finish (c.g.setS d x)
    if !c.wide f.g then c.finish c.g
    else match (c.s.domain c.g.domain).gates.look f.imm.toNat with
      | none => status 1
      | some e =>
        let target := c.s.domain (e.target.toNat % 64)
        if !GateEntry.callable e c.g.domain c.g.nregs || target.state == .free then status 1
        else if c.g.depth == 2 || (c.g.depth == 1 && !e.flags.getLsbD 1) then status 3
        else if target.state == .quarantined then status 2
        else if !c.g.idle || !c.g.matrixQuiet then c.await (.gate e f.imm.toNat d)
        else .next (c.s.enterGate c.r c.g c.st e f.imm.toNat d)

/-- Whether the callee has another strand or a record (R158). -/
def Ctx.othersInCallee (c : Ctx) : Bool :=
  c.g.strands.any (fun e => e.1 != c.r.entry) || !c.g.saveList.isEmpty || !((c.s.core c.r.core).recordsOf c.r.slot).isEmpty

/-- `gret` and `gabort` (R158, R159). -/
def Ctx.gateReturn (c : Ctx) (gd : Guard) (abort : Bool) : Res :=
  if !c.wide gd then c.finish c.g
  else if c.g.frames.isEmpty || c.othersInCallee then c.fault { code := faultGateframe }
  else if !c.g.mayLeave then c.stall
  else .next (c.s.leaveFrame c.key abort)

/-- `gret` (R158). -/
def execGret (f : FormV) (s : State) : Res := issue (.gret f) s fun c => c.gateReturn f.g false
/-- `gabort` (R159). -/
def execGabort (f : FormV) (s : State) : Res := issue (.gabort f) s fun c => c.gateReturn f.g true

/-! ### Register growth -/

/-- The resident groups of a quadrant. -/
def State.inQuad (s : State) (core quad : Nat) : List (Nat × Group) :=
  s.groups.filter fun e => keyCore e.1 == core && slotQuad (keySlot e.1) == quad

/-- Free granules of a quadrant (R32). -/
def State.freeGranules (s : State) (core quad : Nat) : Nat := 64 - ((s.inQuad core quad).map fun e => e.2.nregs / 16).foldl (· + ·) 0

/-- The oldest waiting request of a quadrant (R162, R216): the group's key, and the entry, granules and order. Of groups with
one stamp, that whose request was made first (LOG 144). -/
def State.oldestRequest (s : State) (core quad : Nat) : Option (Nat × Group × Nat × Nat × Nat) :=
  let xs := (s.inQuad core quad).flatMap fun e => e.2.requests.map fun r => (e.1, e.2, r)
  xs.foldl (fun a x => match a with
    | none => some x
    | some y => if x.2.1.stamp < y.2.1.stamp || (x.2.1.stamp == y.2.1.stamp && x.2.2.2.2 < y.2.2.2.2) then some x else some y) none

/-- The oldest request of a quadrant is granted when its granules are free, and the new registers read zero; one that would
pass 16 granules by then raises RGROW (R33, R162). -/
def State.grant (s : State) (core quad : Nat) : State :=
  match s.oldestRequest core quad with
  | none => s
  | some (key, g, entry, n, _) =>
    if 16 < g.nregs / 16 + n then
      let r : StrandRef := { core := core, slot := keySlot key, entry := entry }
      let s := (s.onGroup key fun g => g.onStrand entry fun st => { st with wait := .ready }).growTouch core quad
      s.takeFault r (match g.strands.look entry with | some st => st.pc | none => 0) { code := faultRgrow }
    else if n ≤ s.freeGranules core quad then
      (s.setGroup key ({ g with nregs := g.nregs + 16 * n, v := keepV g.v fun k _ => k < g.nregs }.onStrand entry fun st => st.goto (st.pc + 8))).growTouch core quad
    else s

/-- The requests that can be granted are granted one after another, the oldest first (R162). -/
def State.grants (s : State) (core quad fuel : Nat) : State :=
  match fuel with
  | 0 => s
  | fuel + 1 => (s.grant core quad).grants core quad fuel

/-- Granules of a quadrant that a group may take on becoming resident: those that the waiting requests leave, since a
request is granted as soon as its granules are free (R162, R216). -/
def State.spareGranules (s : State) (core quad : Nat) : Nat :=
  match s.oldestRequest core quad with
  | none => s.freeGranules core quad
  | some _ => (s.grants core quad 128).freeGranules core quad

/-- `rgrow` (R162). The all-blocked timer starts anew where the group was not blocked before (R216). -/
def execRgrow (f : FormL) (s : State) : Res :=
  issue (.rgrow f) s fun c =>
    let n := f.imm.toNat
    if !c.wide f.g || n == 0 then c.finish c.g
    else if 16 < c.g.nregs / 16 + n then c.fault { code := faultRgrow }
    else
      let quad := slotQuad c.r.slot
      let s := ({ c.s with nextId := c.s.nextId + 1 } : State).setGroup c.key (c.g.onStrand c.r.entry fun st => { st with wait := .rgrow n c.s.nextId })
      .next ((if c.g.blocked then s else s.growTouch c.r.core quad).grant c.r.core quad)

/-- RGROW_GRANT (R162, R216). -/
def execRgrowGrant (core quad : Nat) (s : State) : Res := .next (s.grant core quad)

/-- A group as it is saved by a spill: its records join its save list, and its `rgrow` words are repeated (R216). -/
def Group.spill (g : Group) (records : List Record) : Group :=
  { g with saveList := records ++ g.saveList, strands := g.strands.map fun e => (e.1, match e.2.wait with | .rgrow _ _ => { e.2 with wait := .ready } | .gate _ _ _ => { e.2 with wait := .ready } | _ => e.2) }

/-- RGROW_SPILL: every group of the quadrant is blocked, the oldest request does not fit, and the timer has run 4,096 cc:
the youngest group is spilled once its operations have drained (R216); of groups with one stamp, that in the lowest slot (LOG
144). -/
def execRgrowSpill (core quad : Nat) (s : State) : Res :=
  let gs := s.inQuad core quad
  match s.oldestRequest core quad with
  | none => .next s
  | some (_, _, _, n, _) =>
    if gs.any (fun e => !e.2.blocked) || n ≤ s.freeGranules core quad || s.now < Map.get 0 (s.core core).growSince quad + 4096 then .next s
    else
      let young := gs.foldl (fun (a : Option (Nat × Group)) x => match a with | none => some x | some y => if y.2.stamp < x.2.stamp then some x else some y) none
      match young with
      | none => .next s
      | some (key, g) =>
        if !g.idle || !g.matrixQuiet then .next s
        else
          let records := (s.core core).recordsOf (keySlot key)
          let s := s.onCore core fun c => { c with docent := c.docent.filter fun q => q.slot != keySlot key, spilled := c.spilled ++ [(quad, g.spill records)] }
          .next (({ s with groups := s.groups.del key } : State).growTouch core quad)

/-- A free group slot of a quadrant. -/
def State.freeSlot (s : State) (core quad : Nat) : Option Nat :=
  ((List.range 16).map (16 * quad + ·)).find? fun k => (s.groups.look (gkey core k)).isNone

/-- A record of a group that is resident again in another slot. -/
def Record.inSlot (slot : Nat) (r : Record) : Record := { r with slot := slot }
/-- A frame of a group that is resident again in another slot: its set-aside records are that slot's (R156, R359). -/
def Frame.inSlot (slot : Nat) (f : Frame) : Frame := { f with records := f.records.map (·.inSlot slot), saveList := f.saveList.map (·.inSlot slot), strands := f.strands.map fun e => (e.1, e.2.resumed) }

/-- A group's cohort is being evicted: it takes no slot, and is saved where it is (R356). -/
def State.groupEvicting (s : State) (g : Group) : Bool :=
  match s.blocks.look g.block with | some b => s.evicting b.launch b.cohort | none => false

/-- SPILLED_RETURN: the group spilled first becomes resident again when a slot and its granules are free and the waiting
requests leave them; it takes a new stamp, and its rclk is at least the device floor (R162, R216, R233). A group of a cohort
that is being evicted stays away (R356). -/
def execSpilledReturn (core quad : Nat) (s : State) : Res :=
  let mine (x : Nat × Group) : Bool := x.1 == quad && !s.groupEvicting x.2
  match (s.core core).spilled.find? mine with
  | none => .next s
  | some (_, g) =>
    match s.freeSlot core quad with
    | none => .next s
    | some slot =>
      if s.spareGranules core quad < g.nregs / 16 then .next s
      else
        let g := { g with stamp := s.now, rclk := tmax g.rclk s.floor, saveList := g.saveList.map (·.inSlot slot), frames := g.frames.map (·.inSlot slot), strands := g.strands.map fun e => (e.1, e.2.resumed) }
        let s := s.onCore core fun c => { c with spilled := c.spilled.eraseP mine }
        .next ((s.setGroup (gkey core slot) g).growTouch core quad)

/-- `rshrink` (R163): it waits until nothing outstanding targets the released registers, whose contents are lost. -/
def execRshrink (f : FormL) (s : State) : Res :=
  issue (.rshrink f) s fun c =>
    let n := f.imm.toNat
    let left := c.g.nregs - 16 * n
    if !c.wide f.g || n == 0 then c.finish c.g
    else if c.g.nregs < 16 * n + 16 then c.fault { code := faultRgrow }
    else if c.g.ops.any (fun o => o.regs.any (left ≤ ·)) || c.g.owned.any (fun o => !o.complete && (List.range (c.g.nregs - left)).any fun i => o.holds (left + i)) then c.stall
    else c.finish { c.g with nregs := left, v := keepV c.g.v (fun k _ => k < left), owned := c.g.owned.map fun o => o.release left }

/-- `halt` (R164): once the counters have drained, every lane of the group exits and its records are discarded; the
group then retires (`groupRetire`). -/
def execHalt (f : FormV) (s : State) : Res :=
  issue (.halt f) s fun c =>
    if !c.wide f.g then c.finish c.g
    else if !c.g.idle then c.stall
    else
      let s := c.s.onCore c.r.core fun x => { x with docent := x.docent.filter fun q => q.slot != c.r.slot }
      .next ((s.setGroup c.key { c.g with live := 0, strands := [], saveList := [], pending := [], jc := [], stack := [] }).barriers c.g.block)

/-- `halt.all` (R164): the launch is terminated with a WATCH record. -/
def execHaltAll (f : FormV) (s : State) : Res :=
  issue (.haltAll f) s fun c =>
    if c.wide f.g then c.fault { code := faultWatch, detail := watchDetail 4 0 } else c.finish c.g

end Sys2Proof.Machine
end

