-- ==== Sys2Proof/Machine/Launch.lean ====
section
/-! DEFINITION. Launching from a core, major 0x11 (R185-R187), and the packet it writes (R315, R316). `launch` performs its
steps when it issues; `rlaunch` reserves its slot then, and writes it in a second step (LOG 34). -/
namespace Sys2Proof.Machine

/-! ### Memory as an instruction of the group accesses it at once -/

/-- A read of bytes inside one line as a relaxed `.dev` load of a group (R228): from the core's copy where it hits,
otherwise by a renewal; pending bytes of other groups that it returns are marked (R231). -/
def State.loadNow (s : State) (key : Nat) (g : Group) (pa n : Nat) (near : Bool) : State × Group × Nat :=
  let core := keyCore key
  let line := pa / 64
  let off := pa % 64
  if near then (s, g, s.engineValue pa n true)
  else match s.hits key g core line 0 .dev (byteMask off n) with
    | some c => (s, { g.addMarks (s.marksOf key c (byteMask off n)) with rclk := tmax g.rclk c.wts }, lineValue c.bytes off n)
    | none =>
      let h := s.homeView line
      let c := fillCopy (s.l1View core line) h.wts (g.rclk + g.lease) h.data
      let clk := g.rclk
      let g := { g.addMarks (s.marksOf key c (byteMask off n)) with rclk := tmax g.rclk c.wts }
      ((s.setHome line { h with rts := tmax h.rts (clk + g.lease) }).setL1 core line c, g, lineValue c.bytes off n)

/-- A store of bytes inside one line by a group at a physical address, performed and acknowledged at once (R230); an N page
stands outside the timestamp rules (R243). -/
def State.storeNow (s : State) (key : Nat) (g : Group) (pa : Nat) (near : Bool) (bs : List Byte) : State × Group :=
  let line := pa / 64
  let prev := (s.homeView line).wts
  match s.deviceStore pa near bs g.wclk with
  | .done s' t => if near then (s', g) else (s'.ackCopy (keyCore key) line s.nextId prev t (lineWith (pa % 64) bs.length (leValue bs)) (byteMask (pa % 64) bs.length), { g with wclk := tmax g.wclk t })
  | .wait s' => (s', g)
  | .bad s' => (s', g)

/-- Pieces of `bs` that stay inside lines. -/
def lineChunks (pa : Nat) (bs : List Byte) (fuel : Nat) : List (Nat × List Byte) :=
  match fuel with
  | 0 => []
  | fuel + 1 =>
    if bs.isEmpty then []
    else
      let n := min bs.length (64 - pa % 64)
      (pa, bs.take n) :: lineChunks (pa + n) (bs.drop n) fuel

/-- A store of any length to consecutive physical addresses. -/
def State.storeAll (s : State) (key : Nat) (g : Group) (pa : Nat) (near : Bool) (bs : List Byte) : State × Group :=
  (lineChunks pa bs 4).foldl (fun a x => a.1.storeNow key a.2 x.1 near x.2) (s, g)

/-- What a group reads of a range, word by word; or the fault of the first address that it may not read. -/
def State.loadWords (s : State) (key : Nat) (g : Group) (va : Dword) (n : Nat) : (State × Group × List Dword) ⊕ FaultInfo :=
  (List.range n).foldl (fun a i =>
    match a with
    | .inr f => .inr f
    | .inl (s, g, ws) =>
      let at_ := va + BitVec.ofNat 64 (8 * i)
      match s.trans g.domain at_ wantLoad with
      | .bad code detail => .inr { code := code, va := at_, detail := detail }
      | .ok pa near =>
        let r := (s.learn g.domain at_ wantLoad).loadNow key g pa 8 near
        .inl (r.1, r.2.1, ws ++ [BitVec.ofNat 64 r.2.2])) (Sum.inl (s, g, []))

/-- The lines that the instruction is to read or write at their homes are there, those of host and peer memory brought by
their owners (R237); an uncorrectable one raises DATA (R340, R407). -/
def Ctx.withLines (c : Ctx) (va : Dword) (lines : List (Nat × Bool)) (k : Res) : Res :=
  if lines.any fun x => c.s.lineBad x.1 || c.s.refused x.1 x.2 then
    .next ((((c.s.useUp (lines.map (·.1))).logBadAt c.g.domain va)).takeFault c.r c.st.pc (dataInfo 0xFF va))
  else if !(c.s.missing lines).isEmpty then .next (c.s.bringAll lines)
  else k

/-- The words of a structure that the group reads as relaxed `.dev` loads (R186, R187). -/
def Ctx.readWords (c : Ctx) (va : Dword) (n : Nat) (k : Ctx → List Dword → Res) : Res :=
  match c.s.loadWords c.key c.g va n with
  | .inr f => c.walkFault f
  | .inl (s, g, ws) =>
    let lines := ((c.s.rangeLines c.g.domain va (8 * n) wantLoad).getD []).filter fun x => x.2 || (c.s.hits c.key c.g c.r.core x.1 0 .dev (BitVec.allOnes 64)).isNone
    c.withLines va lines (k { c with s := s, g := g } ws)

/-! ### The packet -/

/-- The packet that a core writes: kind, flags 0, gen0 = 1, no other wait entry (R316). -/
def packetBytes (record : List Dword) (kind : Nat) : List Byte :=
  record.flatMap (fun w => leBytes 8 w.toNat) ++ leBytes 4 kind ++ leBytes 4 1 ++ leBytes 56 0

/-- The word of a record that holds its domain, and the place of the domain in it (R198, R255). -/
def recordDomain (region : Bool) (ws : List Dword) : Nat :=
  if region then bitsAt ((ws[6]?).getD 0).toNat 0 8 else bitsAt ((ws[7]?).getD 0).toNat 0 8

/-- An entry of a range table is out of form (R187). -/
def rangeBad (ws : List Dword) : Bool :=
  (List.range 32).any fun i =>
    let va := ((ws[2 * i]?).getD 0).toNat
    let len := ((ws[2 * i + 1]?).getD 0).toNat
    len != 0 && (va % 64 != 0 || len % 64 != 0)

/-- Every dirty L2 line of a range is written back to memory (R187); the lines stay, but for one that cannot be read (R407). A page of the range that does not
translate has no lines to write back (LOG 151). -/
def State.cleanLines (s : State) (lines : List Nat) : State :=
  lines.foldl (fun s l =>
    match s.mem.l2.look l with
    | some h =>
      if !h.dirty then s
      else if s.mem.badL2.contains l then s.evictLine l true 0
      else { s with mem := { s.mem.setLine l h.data (BitVec.allOnes 64) with l2 := s.mem.l2.put l { h with dirty := false } } }
    | none => s) s

def State.cleanRanges (s : State) (d : Nat) (table : List Dword) : State :=
  (List.range 16).foldl (fun s i =>
    let va := ((table[2 * i]?).getD 0).toNat
    let len := ((table[2 * i + 1]?).getD 0).toNat
    if len == 0 then s else s.cleanLines (s.linesIn d va len)) s

/-- The packet is written into the reserved slot (R185, step 6), and what was launched from a region record is remembered
(R175). -/
def State.writePacket (s : State) (key : Nat) (g : Group) (region : Bool) (pa : Nat) (near : Bool) (index queue : Nat) (va : Dword) (record : List Dword) : State × Group :=
  let r := s.storeAll key g pa near (packetBytes record (if region then 2 else 1))
  if region then
    ({ r.1 with belfry := { r.1.belfry with rlaunched := (g.domain, va, queue, index) :: r.1.belfry.rlaunched.filter fun e => !(e.1 == g.domain && e.2.1 == va) } }, r.2)
  else r

/-- The packet of a slot carries the launching group's wclk after its release (R227, R239). -/
def State.noteStart (s : State) (queue index : Nat) (start : Time) : State :=
  { s with belfry := { s.belfry with starts := (queue, index, start) :: s.belfry.starts.filter fun e => !(e.1 == queue && e.2.1 == index) } }

/-- `rlaunch` has reserved its slot: it counts on the store path until the packet is there (R186, R316), and the region's
start clock is the group's wclk after the release (R239). -/
def Ctx.reserved (c : Ctx) (dst pa : Nat) (near : Bool) (index queue : Nat) (va : Dword) (record table : List Dword) (start : Time) : Res :=
  let op := c.s.nextId
  let o : PathOp := { id := op, path := .gst, left := 1, pc := c.st.pc, entry := c.r.entry, regs := [], sreg := some dst, slot := none, blk := false, store := false }
  let g := (c.g.addOp o).onStrand c.r.entry fun st => { st with wait := .rlaunch op pa near index queue va record table }
  .next (({ c.s with nextId := op + 1 } : State).noteStart queue index start |>.setGroup c.key g)

/-- The lines of a reserved slot: those of an ordinary page stand at their homes when the packet is written (R237). -/
def slotLines (pa : Nat) (near : Bool) : List (Nat × Bool) := if near then [] else [(pa / 64, false), ((pa + 127) / 64, false)]

/-- The second step of `rlaunch` (R187, R316): the input ranges are written back to memory, the packet is written, and the
strand goes on with status 0. It happens whatever has stopped the group's other instructions (R349, R356). A line of host or
peer memory that has left its home since the slot was reserved is asked of its owner again (R237), whose error is DATA (R373). -/
def State.landPacket (s : State) (r : StrandRef) : State :=
  match s.strandAt r with
  | none => s
  | some (g, st) => match st.wait with
    | .rlaunch op pa near index queue va record table =>
      let key := gkey r.core r.slot
      let lines := slotLines pa near
      if lines.any fun x => s.refused x.1 x.2 then
        ((s.useUp (lines.map (·.1))).onGroup key fun g => g.onStrand r.entry fun st => { st with wait := .faulting op }).partBad key op [(32, dataInfo 0xFF va)]
      else if !(s.missing lines).isEmpty then s.bringAll lines
      else
      let dst := match (g.ops.find? fun o => o.id == op).bind (·.sreg) with | some d => d | none => 0
      let x := (s.cleanRanges g.domain table).writePacket key g true pa near index queue va record
      let g := (x.2.setS dst 0).onStrand r.entry fun st => st.goto (st.pc + 8)
      (x.1.setGroup key g).partDone key op 1
    | _ => s

/-- Steps 3 to 6 of R185 for a record that has passed the checks of its status: translate the descriptor and the slot,
reserve, clean, write the packet. The descriptor is read and the slot reserved at the descriptor's home (R316), whatever
copy of its line the core holds. An owner's error for a line of the slot is DATA (R373). -/
def Ctx.enqueue (c : Ctx) (region : Bool) (dst queue : Nat) (descriptor va : Dword) (record table : List Dword) : Res :=
  let d := c.g.domain
  if descriptor.toNat % 64 != 0 then c.fault { code := faultAlign, va := descriptor }
  else match c.s.trans d descriptor wantStore, c.s.trans d descriptor wantLoad with
    | .bad code detail, _ => c.walkFault { code := code, va := descriptor, detail := detail }
    | _, .bad code detail => c.walkFault { code := code, va := descriptor, detail := detail }
    | .ok pa near, .ok _ _ =>
      let s := (c.s.learn d descriptor wantStore).learn d descriptor wantLoad
      ({ c with s := s } : Ctx).withLines descriptor [(pa / 64, near)]
        (let word (i : Nat) : Nat := s.engineValue (pa + 8 * i) 8 near
        let size := 2 ^ (word 1 % 256)
        let write := word 2
        let slot := BitVec.ofNat 64 (word 0 + 128 * (write % size))
        match s.trans d slot wantStore with
        | .bad code detail => c.walkFault { code := code, va := slot, detail := detail }
        | .ok at_ slotNear =>
          let lines := slotLines at_ slotNear
          if size ≤ (write + 2 ^ 64 - word 3) % 2 ^ 64 then c.finishIn s (c.g.setS dst 1)
          else if lines.any fun x => s.refused x.1 x.2 then .next ((s.useUp (lines.map (·.1))).takeFault c.r c.st.pc (dataInfo 0xFF slot))
          else if !(s.missing lines).isEmpty then .next (s.bringAll lines)
          else
            let start := c.g.wclk
            let r := s.storeNow c.key c.g (pa + 16) near (leBytes 8 (write + 1))
            if region then ({ c with s := r.1, g := r.2 } : Ctx).reserved dst at_ slotNear write queue va record table start
            else
              let r := (r.1.noteStart queue write start).writePacket c.key r.2 false at_ slotNear write queue va record
              c.finishIn r.1 (r.2.setS dst 0))

/-- `launch` and `rlaunch` (R185-R187). -/
def Ctx.launch (c : Ctx) (f : FormV) (region : Bool) : Res :=
  let va := c.selWide f.a
  let sel := (c.selWide f.b).toNat
  if va.toNat % 64 != 0 then c.fault { code := faultAlign, va := va }
  else if c.g.full .gst then c.stall
  else c.ordered .rel .dev fun c =>
    let status (c : Ctx) (n : Nat) : Res := c.finish (c.g.setS f.d.toNat (BitVec.ofNat 64 n))
    match c.s.belfry.queues.look sel with
    | none => status c 2
    | some q =>
      if sel / 2 ^ 20 != 0 || q.domain != c.g.domain || q.descriptor == 0 then status c 2
      else c.readWords va 8 fun c record =>
        if recordDomain region record != c.g.domain then status c 2
        else
          let table := (record[5]?).getD 0
          if !region || table == 0 then c.enqueue region f.d.toNat sel q.descriptor va record []
          else if table.toNat % 64 != 0 then status c 3
          else c.readWords table 64 fun c ws => if rangeBad ws then status c 3 else c.enqueue region f.d.toNat sel q.descriptor va record ws

/-- `launch` (R185, R186). -/
def execLaunch (f : FormV) (s : State) : Res :=
  issue (.launch f) s fun c =>
    if !c.wide f.g then c.finish c.g else if c.g.hold.isSome then c.stall else c.launch f false

/-- `rlaunch` (R185, R187): its first step; `State.landPacket` is the second. -/
def execRlaunch (f : FormV) (s : State) : Res :=
  issue (.rlaunch f) s fun c => if !c.wide f.g then c.finish c.g else if c.g.hold.isSome then c.stall else c.launch f true

end Sys2Proof.Machine
end

