-- ==== Sys2Proof/Machine/Matrix.lean ====
section
/-! DEFINITION. The matrix engine, major 0x0F (R165-R173), its operations, and their arithmetic (R16, R21, R29, R30). -/
namespace Sys2Proof.Machine

/-- Elements of a 32-bit word (R15, R167). -/
def mmaE (t : Ty) : Nat := 32 / t.bits

/-- `fn` of the three words. -/
def fnMma : Nat := 2
def fnSp : Nat := 3
def fnMx : Nat := 4

/-- A floating-point input as the engine reads it: FP8 and FP4 subnormals are zeros (R21). -/
def mmaRead (t : Ty) (w : Nat) : FpVal :=
  match t.fmt with
  | none => .nan
  | some F =>
    match F.read w with
    | .num neg m => if t.bits ≤ 8 && w / 2 ^ F.mbits % 2 ^ F.ebits == 0 then .num neg 0 else .num neg m
    | v => v

/-- The integer that an i8 or n8 input is. -/
def mmaInt (t : Ty) (w : Nat) : Int := valN t.isSigned 8 (BitVec.ofNat 64 w)

/-- Element e of lane l of a register. -/
def Group.elem (g : Group) (t : Ty) (reg l e : Nat) : Nat := elemOf t.bits e (g.vreg reg l)

/-- The quartet's groups with their words, by rank. -/
abbrev Quartet := List (Group × MmaWord)

/-- Input A[i][k], for `mma.sp` kept element k of row i (R168). -/
def Quartet.a (q : Quartet) (t : Ty) (i k : Nat) : Nat :=
  match q[i / 16]? with
  | some x => x.1.elem t (x.2.a + i % 16) (k / mmaE t) (k % mmaE t)
  | none => 0

/-- Input B[k][n] (R168). -/
def Quartet.b (q : Quartet) (t : Ty) (k n : Nat) : Nat :=
  match q[n / 32]? with
  | some x => x.1.elem t (x.2.b + 32 * (k / (32 * mmaE t)) + n % 32) (k % (32 * mmaE t) / mmaE t) (k % mmaE t)
  | none => 0

/-- C[i][n] before the operation (R168). -/
def Quartet.c (q : Quartet) (i n : Nat) : Nat :=
  match q[i / 16]? with
  | some x => (x.1.vreg (x.2.d + 4 * (i % 16) + n / 32) (n % 32)).toNat
  | none => 0

/-- idx of kept element j of row i (R168). -/
def Quartet.idx (q : Quartet) (i j : Nat) : Nat :=
  match q[i / 16]? with
  | some x =>
    let w := 8 * (i % 16) + j / 16
    bitsAt (x.1.vreg (x.2.c + w / 32) (w % 32)).toNat (2 * (j % 16)) 2
  | none => 0

/-- The scale byte of row i and of column n for block m (R168). -/
def Quartet.scaleA (q : Quartet) (i m : Nat) : Nat :=
  match q[i / 16]? with
  | some x => bitsAt (x.1.vreg x.2.c (2 * (i % 16) + m / 4)).toNat (8 * (m % 4)) 8
  | none => 0
def Quartet.scaleB (q : Quartet) (n m : Nat) : Nat :=
  match q[n / 32]? with
  | some x => bitsAt (x.1.vreg (x.2.c + 1 + m / 4) (n % 32)).toNat (8 * (m % 4)) 8
  | none => 0

/-- A value scaled by a block scale, in units finer by 2^127 (R16). -/
def scaled (e : Nat) (v : FpVal) : FpVal := if e == 255 then .nan else v.finer e

/-- The kept element and the position in k of each product of a row and a column, for the j-th group of 16 positions. -/
def Quartet.pairs (q : Quartet) (fn i grp : Nat) : List (Nat × Nat) :=
  if fn == fnSp then (List.range 8).map fun x => let j := 8 * grp + x; (j, 4 * (j / 2) + q.idx i j)
  else (List.range 16).map fun x => (16 * grp + x, 16 * grp + x)

/-- Reduction length (R167). -/
def mmaK (fn : Nat) (t : Ty) : Nat := 32 * mmaE t * (if fn == fnSp then 2 else 1)

/-- The products of one group of 16 positions, with their denominator (R29, R30). -/
def Quartet.products (q : Quartet) (w : MmaWord) (i n grp : Nat) : List FpVal × Nat :=
  let ps := (q.pairs w.fn i grp).map fun p =>
    let x := mmaRead w.ty (q.a w.ty i p.1)
    let y := mmaRead w.ty (q.b w.ty p.2 n)
    if w.fn == fnMx then (scaled (q.scaleA i (p.2 / 32)) x).mul (scaled (q.scaleB n (p.2 / 32)) y) else x.mul y
  (if w.fn == fnSp then ps ++ [.num false 0] else ps, if w.fn == fnMx then fpOne2 * 2 ^ 254 else fpOne2)

/-- C[i][n] after the operation (R169, R29, R30). -/
def Quartet.result (q : Quartet) (w : MmaWord) (i n : Nat) : Word :=
  let grps := mmaK w.fn w.ty / 16
  if w.ty.isInt then
    let t := (List.range grps).foldl (fun acc grp => (q.pairs w.fn i grp).foldl (fun acc p => acc + mmaInt w.ty (q.a w.ty i p.1) * mmaInt w.ty (q.b w.ty p.2 n)) acc) (0 : Int)
    let x := (BitVec.ofNat 32 (q.c i n)).toInt + t
    BitVec.ofInt 32 (if w.sat then clampInt x (-(2 ^ 31)) (2 ^ 31 - 1) else x)
  else
    BitVec.ofNat 32 ((List.range grps).foldl (fun c grp =>
      let p := q.products w i n grp
      fp32.add .rne c (fp32.sum .rne p.2 p.1)) (q.c i n))

/-! ### Quartets -/

/-- The groups of the issuing group's quartet by rank, or nothing when the quartet is incomplete (R165). -/
def State.quartet (s : State) (g : Group) : Option (List (Nat × Group)) :=
  let base := g.groupid / 4 * 4
  let xs := (List.range 4).filterMap fun k => s.groups.find? fun e => e.2.block == g.block && e.2.groupid == base + k
  if xs.length == 4 then some xs else none

/-- The block has all four groups of the quartet, whether or not they are resident (R165). -/
def State.quartetComplete (s : State) (g : Group) : Bool :=
  match s.blocks.look g.block with
  | some b => g.groupid / 4 * 4 + 4 ≤ b.groups
  | none => false

/-- MATRIX, precisely (R165, R173). -/
def Ctx.matrixFault (c : Ctx) : Res := c.fault { code := faultMatrix }

/-- `mzero` (R172): all 32 lanes of the C range take +0. -/
def execMzero (f : FormV) (s : State) : Res :=
  issue (.mzero f) s fun c =>
    if c.wide f.g then
      c.finish ((List.range 64).foldl (fun g i => (List.range 32).foldl (fun g l => g.setV (f.d.toNat + i) l 0) g) c.g)
    else c.finish c.g

/-- The strand waits in the group's n-th `mrdy`. -/
def Wait.isMrdy (w : Wait) (n : Nat) : Bool :=
  match w with
  | .mrdy k _ => k == n
  | _ => false

/-- A strand in `bwait` that issued before a cc still owes the write of its scalar (R131, R170). -/
def Strand.owesScalar (st : Strand) (before : Option Nat) : Bool :=
  match st.wait, st.last, before with
  | .bwait _ _ _ _ d, some a, some b => d != 0 && a < b
  | _, _, _ => false

/-- A group waits in its n-th `mrdy`, and its writes issued before it, of vector and of scalar registers, have completed
(R170). -/
def Group.readyToArm (g : Group) (n : Nat) : Bool :=
  !g.calling && g.strands.any fun e => match e.2.wait with
    | .mrdy k mark => k == n && (g.ops.all fun o => (o.regs.isEmpty && o.sreg.isNone) || mark ≤ o.id) && g.strands.all fun x => !x.2.owesScalar e.2.last
    | _ => false

/-- The n-th rendezvous completes in a group. -/
def Group.arm (g : Group) (n : Nat) : Group :=
  { g with armed := true, strands := g.strands.map fun e => (e.1, if Wait.isMrdy e.2.wait n then e.2.goto (e.2.pc + 8) else e.2) }

/-- A member of the group's quartet has retired: its block is resident and it is neither on the core nor spilled (R217, LOG
73). -/
def State.mateGone (s : State) (g : Group) : Bool :=
  (List.range 4).any fun k =>
    let mate (x : Group) : Bool := x.block == g.block && x.groupid == g.groupid / 4 * 4 + k
    !(s.groups.any fun e => mate e.2) && !(s.cores.any fun e => e.2.spilled.any fun x => mate x.2)

/-- The n-th rendezvous of a group's quartet, when every group has issued its n-th `mrdy` (R170, R217). A strand that waits in
`mrdy` for a member that has retired, as one does that was spilled meanwhile, takes MATRIX (R173, R216, R217). -/
def State.rendezvous (s : State) (key n : Nat) : State :=
  match s.groups.look key with
  | none => s
  | some g =>
    if s.mateGone g then
      match g.strands.find? fun e => Wait.isMrdy e.2.wait n with
      | some e => (s.onGroup key fun g => g.onStrand e.1 fun st => { st with wait := .ready }).takeFault { core := keyCore key, slot := keySlot key, entry := e.1 } e.2.pc { code := faultMatrix }
      | none => s
    else match s.quartet g with
      | none => s
      | some xs => if xs.all fun e => e.2.readyToArm n then xs.foldl (fun s e => s.onGroup e.1 (fun x => x.arm n)) s else s

/-- `mrdy` (R170): counted once, then the rendezvous is looked at each time the strand would issue. -/
def execMrdy (f : FormV) (s : State) : Res :=
  issue (.mrdy f) s fun c =>
    match c.st.wait with
    | .mrdy n _ => .next (c.s.rendezvous c.key n)
    | _ =>
      if !c.wide f.g then c.finish c.g
      else if !c.s.quartetComplete c.g || c.s.mateGone c.g then c.matrixFault
      else
        let n := c.g.mrdyCount + 1
        let g := { c.g with mrdyCount := n, mrdyMark := c.s.nextId, wrote := [] }.onStrand c.r.entry fun st => { st with wait := .mrdy n c.s.nextId }
        .next (({ c.s with nextId := c.s.nextId + 1 }.setGroup c.key g).rendezvous c.key n)

/-- Two ranges overlap. -/
def overlaps (a n b m : Nat) : Bool := n != 0 && m != 0 && a < b + m && b < a + n

/-- A range overlaps any range of an operation. -/
def Owned.touches (o : Owned) (r n : Nat) : Bool := overlaps r n o.a 16 || overlaps r n o.b o.nb || overlaps r n o.c o.nc || overlaps r n o.d 64

/-- An operation of the group reads and writes its C range: what that does to the operations that hold it (R171). -/
def noteAll (d : Nat) (o : Owned) : Owned := (List.range 64).foldl (fun o i => o.note (d + i)) o

/-- The group's ranges of a new operation, after those it already owns (R170, R171): in this group it chains when its C range is
that of an operation and its other ranges overlap with nothing. An operation that has completed counts until its `mwait` (LOG
146). What it reads from ranges that the engine holds is undefined unless it is chained in every group; where it does not
chain here, its C range touches the operations that hold it. -/
def Group.own (g : Group) (o : Owned) : Group :=
  let others (p : Owned) : Bool := p.touches o.a 16 || p.touches o.b o.nb || p.touches o.c o.nc
  let chained := g.owned.any (fun p => p.d == o.d && o.d + 64 ≤ p.keep) && !g.owned.any others
  let early := g.wrote.any o.operand
  let cEarly := g.wrote.filter fun r => inRange r o.d 64
  let undef := (List.range g.nregs).filter fun r => o.holds r && g.owned.any fun p => p.holds r
  let mine := { o with tainted := early, cWritten := cEarly, chains := chained, undef := undef }
  { g with owned := (if chained then g.owned else g.owned.map (noteAll o.d)) ++ [mine], mmaCount := g.mmaCount + 1, armed := false }

/-- The tag is still outstanding for the quartet (R170). -/
def State.tagBusy (s : State) (core key tag : Nat) (g : Group) : Bool :=
  g.words.any (fun w => w.x.toNat % 4 == tag) || (s.core core).engine.any fun o => o.groups.contains key && o.words.any fun w => w.x.toNat % 4 == tag

/-- Whether two words of an operation agree (R170). -/
def MmaWord.agrees (a b : MmaWord) : Bool := a.fn == b.fn && a.ty == b.ty && a.sat == b.sat && a.x == b.x

/-- The ranges of a group's oldest word that belongs to no operation yet. -/
def Group.nextOwned (g : Group) : Option Owned := g.owned.find? fun o => o.op.isNone

/-- The group's oldest word becomes part of an operation. An operation that does not chain in every group of the quartet is
chained in none: where this group chained, its C range is then a touch (R170, R171). -/
def Group.join (g : Group) (id : Nat) (chained : Bool) : Group :=
  let i := (g.owned.takeWhile fun o => o.op.isSome).length
  let mine (o : Owned) : Owned := { o with op := some id, undef := if chained then [] else o.undef }
  let before (o : Owned) : Owned := match g.nextOwned with
    | some n => if !chained && n.chains then noteAll n.d o else o
    | none => o
  { g with words := g.words.tail, owned := g.owned.mapIdx fun k o => if k == i then mine o else if k < i then before o else o }

/-- The group as the engine reads it for an operation: registers that it holds for others read as undefined values (R171). -/
def Group.blurred (g : Group) (id rank free : Nat) : Group :=
  let regs := (g.owned.filter fun o => o.op == some id).flatMap (·.undef)
  { g with v := regs.foldl (fun v r => (List.range 32).foldl (fun v l => Map.set 0 v (32 * r + l) ((Config.freeWord (free * 32768 + 8192 * rank + 32 * r + l)).setWidth 32)) v) g.v }

/-- An operation enters the engine queue. Of those whose fourth words issued in one cc, that of the group with the older
residency stamp stands first (R217); with equal stamps, that which issued first in the schedule (LOG 147). -/
def enterQueue (q : List MatOp) (op : MatOp) : List MatOp :=
  match q with
  | [] => [op]
  | o :: t => if o.formed == op.formed && op.stamp < o.stamp then { op with started := o.started } :: { o with started := none } :: t else o :: enterQueue t op

/-- The quartet's next operation is formed from the oldest word of each group; `stamp` is the residency stamp of the group
that issued the fourth (R170, R217). -/
def State.formOp (s : State) (core stamp : Nat) (xs : List (Nat × Group)) : State :=
  let id := s.nextId
  let op : MatOp := { id := id, groups := xs.map (·.1), words := xs.filterMap fun e => e.2.words.head?, formed := s.now, stamp := stamp, started := none }
  let chained := xs.all fun e => match e.2.nextOwned with | some o => o.chains | none => false
  let s := xs.foldl (fun s e => s.onGroup e.1 fun g => g.join id chained) s
  ({ s with nextId := id + 1 } : State).onCore core fun c => { c with engine := enterQueue c.engine op }

/-- A word of an operation (R169, R170, R173). -/
def Ctx.mmaWord (c : Ctx) (f : FormV) (fn nb nc : Nat) : Res :=
  if !c.wide f.g then c.finish c.g
  else if !c.s.quartetComplete c.g || !c.g.armed || c.s.mateGone c.g then c.matrixFault
  else
    let tag := f.x.toNat % 4
    let w : MmaWord := { pc := c.st.pc, entry := c.r.entry, fn := fn, ty := f.ty, sat := f.sat, x := f.x, d := f.d.toNat, a := f.a.toNat, b := f.b.toNat, c := f.c.toNat }
    if c.s.tagBusy c.r.core c.key tag c.g then c.stall
    else
      let o : Owned := { op := none, tag := tag, d := w.d, a := w.a, b := w.b, nb := nb, c := w.c, nc := nc, tainted := false, cWritten := [], complete := false }
      let g := { c.g.own o with words := c.g.words ++ [w] }
      match c.s.quartet c.g with
      | none => c.finish g
      | some xs =>
        let xs := xs.map fun e => if e.1 == c.key then (e.1, g) else e
        if xs.all fun e => !e.2.words.isEmpty then
          let heads := xs.filterMap fun e => e.2.words.head?
          if heads.any fun x => heads.any fun y => !x.agrees y then
            .next (xs.foldl (fun s e =>
              match e.2.words.head? with
              | some h => s.takeFault { core := c.r.core, slot := keySlot e.1, entry := h.entry } h.pc { code := faultMatrix }
              | none => s) c.s)
          else if 8 ≤ (c.s.core c.r.core).engine.length then c.stall
          else
            match c.finish g with
            | .next s => .next (s.formOp c.r.core c.g.stamp (xs.map fun e => (e.1, (s.groups.look e.1).getD e.2)))
            | r => r
        else c.finish g

/-- `mma` (R169). -/
def execMma (f : FormV) (s : State) : Res := issue (.mma f) s fun c => c.mmaWord f fnMma 32 0
/-- `mma.sp` (R169). -/
def execMmaSp (f : FormV) (s : State) : Res := issue (.mmaSp f) s fun c => c.mmaWord f fnSp 64 4
/-- `mmx` (R169). -/
def execMmx (f : FormV) (s : State) : Res := issue (.mmx f) s fun c => c.mmaWord f fnMx 32 3

/-- The engine gives back the ranges of complete operations that a test selects; a C register that was written meanwhile,
and that the group still has (R33), holds an undefined value (R171). -/
def Group.giveBack (g : Group) (sel : Owned → Bool) (free : Nat) : Group :=
  let mine := g.owned.filter fun o => o.complete && sel o
  let regs := (mine.flatMap (·.cWritten)).filter (· < g.nregs)
  let v := regs.foldl (fun v r => (List.range 32).foldl (fun v l => Map.set 0 v (32 * r + l) ((Config.freeWord (free * 8192 + 32 * r + l)).setWidth 32)) v) g.v
  { g with owned := g.owned.filter fun o => !(o.complete && sel o), v := v }

/-- `mwait` (R172). -/
def execMwait (f : FormV) (s : State) : Res :=
  issue (.mwait f) s fun c =>
    let tag := f.x.toNat % 4
    if !c.wide f.g then c.finish c.g
    else if c.g.owned.any fun o => o.tag == tag && !o.complete then c.stall
    else c.finish (c.g.giveBack (fun o => o.tag == tag) c.free)

/-- `mdrain` (R172). -/
def execMdrain (f : FormV) (s : State) : Res :=
  issue (.mdrain f) s fun c =>
    if !c.wide f.g then c.finish c.g
    else if c.g.owned.any fun o => !o.complete then c.stall
    else c.finish { c.g.giveBack (fun _ => true) c.free with armed := false }

/-- MATRIX_OP_START: the oldest operation of the queue starts when none runs (R170). -/
def execMatrixOpStart (core : Nat) (s : State) : Res :=
  match (s.core core).engine with
  | [] => .next s
  | o :: t => if o.started.isSome then .next s else .next (s.onCore core fun c => { c with engine := { o with started := some s.now } :: t })

/-- The C range of the group of rank r after an operation: each result, or an undefined value. -/
def Group.writeC (g : Group) (q : Quartet) (w : MmaWord) (rank id : Nat) (spoilt : Bool) (free : Nat) : Group :=
  let written := (g.owned.filter fun o => o.op == some id).flatMap (·.cWritten)
  let v := (List.range 64).foldl (fun v k =>
    (List.range 32).foldl (fun v l =>
      let x := if spoilt || written.contains (w.d + k) then (Config.freeWord (free * 8192 + rank * 2048 + 32 * k + l)).setWidth 32
        else q.result w (16 * rank + k / 4) (32 * (k % 4) + l)
      Map.set 0 v (32 * (w.d + k) + l) x) v) g.v
  { g with v := v, owned := g.owned.map fun o => if o.op == some id then { o with complete := true } else o }

/-- MATRIX_OP_COMPLETE: 64 cc after its start the operation writes the C ranges of all four groups at once (R167,
R169, R172). -/
def execMatrixOpComplete (core : Nat) (s : State) : Res :=
  match (s.core core).engine with
  | [] => .next s
  | o :: t =>
    match o.started with
    | none => .next s
    | some from_ =>
      if s.now < from_ + 64 then .next s
      else
        let gs := o.groups.filterMap fun k => (s.groups.look k).map fun g => (k, g)
        let q : Quartet := (gs.zip o.words).mapIdx fun i e => (e.1.2.blurred o.id i (s.fresh + 1), e.2)
        let spoilt := gs.any fun e => e.2.owned.any fun x => x.op == some o.id && x.tainted
        let s' := (gs.zip o.words).foldl (fun (a : State × Nat) e => (a.1.setGroup e.1.1 (e.1.2.writeC q e.2 a.2 o.id spoilt s.fresh), a.2 + 1)) (s, 0)
        .next ({ s'.1 with fresh := s.fresh + 2 }.onCore core fun c => { c with engine := t })

end Sys2Proof.Machine
end

