-- ==== Sys2Proof/Machine/Sync.lean ====
section
/-! DEFINITION. Fences, counters and waits, major 0x0A (R125-R133), and the reread of `bwait`. -/
namespace Sys2Proof.Machine

/-- `fence` (R126): it completes when the accesses it waits for have. -/
def execFence (f : FormM) (s : State) : Res :=
  access (.fence f) s fun c =>
    let rel := Order.relBefore f.order
    let acq := Order.acqAfter f.order
    if !c.wide f.g then c.finish c.g
    else if c.s.fenceReady c.g rel acq f.scope then c.finish (c.g.fence rel acq f.scope)
    else c.stall

/-- The path that a field names (R127). -/
def pathOf (x : Nat) : Path :=
  match x with
  | 0 => .gld | 1 => .gst | 2 => .spd | 3 => .snd | 4 => .cms | 5 => .nmp | _ => .gat

/-- `wait` (R127). -/
def execWait (f : FormV) (s : State) : Res :=
  access (.wait f) s fun c =>
    if !c.wide f.g || c.g.count (pathOf f.x.toNat) ≤ (c.selWide f.b).toNat then c.finish c.g else c.stall

/-- `bar k` (R128): the strand waits, and the barrier may complete. -/
def execBar (f : FormV) (s : State) : Res :=
  access (.bar f) s fun c =>
    let k := f.x.setWidth 2
    let act := c.active f.g
    if act.isEmpty then c.finish c.g
    else
      let whole := maskOf (fun l => act.contains l) == c.lanesOf
      .next ((c.s.setGroup c.key (c.g.onStrand c.r.entry fun st => { st with wait := .bar k whole })).barComplete c.g.block k)

/-- The scope of `arrive` and `bwait`, x[2:0] (R125). -/
def scopeOf (x : Nat) : Scope :=
  match x % 4 with | 0 => .blk | 1 => .clu | 2 => .dev | _ => .sys

/-- Check the address of a barrier record (R130, R131): the physical address, or the fault. -/
def Ctx.record (c : Ctx) (va : Dword) (want : Want) (k : State → Nat → Res) : Res :=
  if va.toNat % 32 != 0 then c.fault { code := faultAlign, va := va }
  else match c.s.trans c.g.domain va want with
    | .bad code detail => c.walkFault { code := code, va := va, detail := detail }
    | .ok pa _ => k (c.s.learn c.g.domain va want) pa

/-- `arrive` (R130): the release, then a request to the record's home, counted as a store. -/
def execArrive (f : FormV) (s : State) : Res :=
  access (.arrive f) s fun c =>
    if !c.wide f.g then c.finish c.g
    else if c.g.full .gst then c.stall
    else
      let scope := scopeOf f.x.toNat
      c.ordered .rel scope fun c =>
        let va := c.selWide f.a
        c.record va wantAtomic fun s pa =>
          let op := s.nextId
          let r := ({ s with nextId := op + 1 } : State).send { group := c.key, core := c.r.core, op := op, pc := c.st.pc, entry := c.r.entry, line := pa / 64, va := va, scope := scope, clk := c.g.wclk, lease := c.g.lease, kind := .arrive (pa % 64) (c.selWide f.b) f.d.toNat }
          let o : PathOp := { id := op, path := .gst, left := 1, pc := c.st.pc, entry := c.r.entry, regs := [], sreg := some f.d.toNat, slot := none, blk := false, store := false }
          c.finishIn r.2 (c.g.addOp o)

/-- The read of a generation that `bwait` waits for is sent to the record's home (R131). -/
def State.sendPoll (s : State) (r : StrandRef) (g : Group) (pc : Dword) (pa : Nat) (va : Dword) (gen : Word) (scope : Scope) (dst : Nat) : State :=
  let key := gkey r.core r.slot
  let m := s.send { group := key, core := r.core, op := s.nextId, pc := pc, entry := r.entry, line := pa / 64, va := va, scope := scope, clk := g.rclk, lease := g.lease, kind := .poll (pa % 64) gen dst }
  m.2.setGroup key (g.onStrand r.entry fun st => { st with wait := .bwait m.1 va gen scope dst })

/-- What `bwait` needs of the record's page: an atomic's fault rules do not apply to a read, but an N page is refused (R117,
R131). -/
def wantPoll : Want := { wantLoad with n := .refuse }

/-- `bwait` (R131): the generation is read at home; the strand waits until the answer comes. -/
def execBwait (f : FormV) (s : State) : Res :=
  access (.bwait f) s fun c =>
    if !c.wide f.g then c.finish c.g
    else
      let va := c.selWide f.a
      c.record va wantPoll fun s pa =>
        .next (s.sendPoll c.r c.g c.st.pc pa va ((c.selWide f.b).setWidth 32) (scopeOf f.x.toNat) f.d.toNat)

/-- BWAIT_REREAD: after an answer that found the same generation, the strand reads it again (R131). -/
def execBwaitReread (r : StrandRef) (s : State) : Res :=
  match s.strandAt r with
  | none => .next s
  | some (g, st) =>
    match st.wait with
    | .bwait id va gen scope dst =>
      if (s.mem.msgs.look id).isSome || !g.suspends.isEmpty then .next s
      else match s.trans g.domain va wantPoll with
        | .bad code detail => .next (((s.logWalk g.domain { code := code, va := va }).onGroup (gkey r.core r.slot) fun g => g.onStrand r.entry fun st => { st with wait := .ready }).takeFault r st.pc { code := code, va := va, detail := detail })
        | .ok pa _ => .next ((s.learn g.domain va wantPoll).sendPoll r g st.pc pa va gen scope dst)
    | _ => .next s

/-- `renew` (R132): each active lane's line is renewed at home; on an N page its owner node is asked (R117). An
address that is not a multiple of the size is misaligned (R340; DEDUCED, LOG 30). A line of reuse class 2 is not allocated in
the L1 (R116). -/
def execRenew (f : FormM) (s : State) : Res :=
  access (.renew f) s fun c =>
    if c.g.full .gld then c.stall
    else
      let p := c.s.plan c.g.domain (2 ^ f.size.toNat) wantLoad ((c.active f.g).map fun l => (l, c.ea f l))
      let h := c.splitHelpers p.bad
      c.lanewise p h.2 fun s g good =>
        let op := s.nextId
        let s := { s with nextId := op + 1 }
        let lines := linesOf (good.filter fun x => !x.n)
        let loads (line : Nat) : List LaneLoad := (good.filter fun x => x.pa / 64 == line).map fun x => { lane := x.lane, reg := 0, off := x.pa % 64, size := 0, va := x.va }
        let near := linesOf (good.filter fun x => x.n)
        let s := lines.foldl (fun s line => (s.send { group := c.key, core := c.r.core, op := op, pc := c.st.pc, entry := c.r.entry, line := line, va := 0, scope := f.scope, clk := g.rclk, lease := g.lease, kind := .renew (loads line) (f.hint != 2) true, cls := f.hint.toNat }).2) s
        let s := near.foldl (fun s line => s.sendOwner (.group c.key op) (64 * line) .touch) s
        let o : PathOp := { id := op, path := .gld, left := lines.length + near.length, pc := c.st.pc, entry := c.r.entry, regs := [], sreg := none, slot := none, blk := false, store := false }
        (s, g.addOp o)

/-- `rdclk` (R133). -/
def execRdclk (f : FormV) (s : State) : Res :=
  access (.rdclk f) s fun c =>
    let t := if f.x == 0 then c.g.rclk else c.g.wclk
    c.finish (if c.wide f.g then c.g.setS f.d.toNat (t.setWidth 64) else c.g)

end Sys2Proof.Machine
end

