-- ==== Sys2Proof/Machine/Ready.lean ====
section
/-! DEFINITION. Which strands are ready (R205), and which of them a quadrant's scheduler issues (R209-R211). -/
namespace Sys2Proof.Machine

/-- The meanings of the words that can stall at issue for another reason than R50; nothing for any other word. -/
def State.trial (s : State) (i : Instr) : Option Res :=
  match i with
  | .ld f => some (execLd f s) | .st f => some (execSt f s) | .ldx4 f => some (execLdx4 f s) | .stx4 f => some (execStx4 f s)
  | .lds f => some (execLds f s) | .sts f => some (execSts f s) | .ldsx4 f => some (execLdsx4 f s) | .stsx4 f => some (execStsx4 f s)
  | .prf f => some (execPrf f s)
  | .atomAdd f => some (execAtomAdd f s) | .atomMin f => some (execAtomMin f s) | .atomMax f => some (execAtomMax f s)
  | .atomAnd f => some (execAtomAnd f s) | .atomOr f => some (execAtomOr f s) | .atomXor f => some (execAtomXor f s)
  | .atomXchg f => some (execAtomXchg f s) | .atomCas f => some (execAtomCas f s) | .atomFadd f => some (execAtomFadd f s)
  | .atomFmin f => some (execAtomFmin f s) | .atomFmax f => some (execAtomFmax f s) | .atomBfadd2 f => some (execAtomBfadd2 f s)
  | .redAdd f => some (execRedAdd f s) | .redMin f => some (execRedMin f s) | .redMax f => some (execRedMax f s)
  | .redAnd f => some (execRedAnd f s) | .redOr f => some (execRedOr f s) | .redXor f => some (execRedXor f s)
  | .redFadd f => some (execRedFadd f s) | .redFmin f => some (execRedFmin f s) | .redFmax f => some (execRedFmax f s)
  | .redBfadd2 f => some (execRedBfadd2 f s)
  | .fence f => some (execFence f s) | .wait f => some (execWait f s) | .bar f => some (execBar f s)
  | .arrive f => some (execArrive f s) | .bwait f => some (execBwait f s) | .renew f => some (execRenew f s) | .rdclk f => some (execRdclk f s)
  | .sendGlb f => some (execSendGlb f s) | .sendPeer f => some (execSendPeer f s) | .sendTens f => some (execSendTens f s) | .sendm f => some (execSendm f s)
  | .commission f => some (execCommission f s) | .cbtest f => some (execCbtest f s) | .cbwait f => some (execCbwait f s) | .cbclr f => some (execCbclr f s)
  | .tlayout f => some (execTlayout f s) | .gath f => some (execGath f s) | .scat f => some (execScat f s) | .gstat f => some (execGstat f s)
  | .cclaim f => some (execCclaim f s) | .cfree f => some (execCfree f s) | .cins f => some (execCins f s) | .cprb f => some (execCprb f s)
  | .cdel f => some (execCdel f s) | .cacc f => some (execCacc f s) | .cdrn f => some (execCdrn f s) | .cstat f => some (execCstat f s)
  | .gate f => some (execGate f s) | .gret f => some (execGret f s) | .gabort f => some (execGabort f s)
  | .rshrink f => some (execRshrink f s) | .halt f => some (execHalt f s)
  | .mzero f => some (execMzero f s) | .mma f => some (execMma f s) | .mmaSp f => some (execMmaSp f s) | .mmx f => some (execMmx f s)
  | .mwait f => some (execMwait f s) | .mdrain f => some (execMdrain f s)
  | .launch f => some (execLaunch f s) | .rlaunch f => some (execRlaunch f s)
  | .aopen f => some (execAopen f s) | .asend f => some (execAsend f s) | .arecv f => some (execArecv f s) | .aacc f => some (execAacc f s)
  | .acmd f => some (execAcmd f s) | .afence f => some (execAfence f s) | .aclose f => some (execAclose f s)
  | .nmr f => some (execNmr f s) | .nidx f => some (execNidx f s) | .nfence f => some (execNfence f s)
  | _ => none

/-- A word that was tried has left its strand as it was: it did not complete, does not wait, and took no fault. -/
def State.unmoved (s : State) (r : StrandRef) (g : Group) (st : Strand) (t : State) : Bool :=
  t.faults.undelivered.length == s.faults.undelivered.length &&
  match t.strandAt r with
  | some (g', st') => st'.issued == st.issued && st'.wait == st.wait && g'.suspends.length == g.suspends.length && g'.frames.length == g.frames.length
  | none => false

/-- A strand's next word is stalled at issue, waits for a write to an operand, or waits for its own completion condition
(R50, R205), or has not been fetched yet. -/
def State.stalls (s : State) (r : StrandRef) : Bool :=
  match s.strandAt r with
  | none => true
  | some (g, st) => match s.fetch r.core g st.pc with
    | .fault _ => false
    | .miss _ => true
    | .word w _ => match decodeCore w with
      | .error _ => false
      | .ok i => g.pendingOn i || match ({ s with agent := .strand r } : State).trial i with
        | some (.next t) => s.unmoved r g st t
        | _ => false

/-- A strand is ready: it may run, no gate call of its group holds it, it waits for nothing, and its next word does not stall
(R156, R205). -/
def State.isReady (s : State) (r : StrandRef) : Bool :=
  match s.strandAt r with
  | none => false
  | some (g, st) => g.mayRun && !g.calling && st.wait == .ready && !s.stalls r

/-- The strand of a group that issues: the ready one that has issued least recently since it was placed, then the lowest entry
(R209, LOG 122). -/
def State.nextStrand (s : State) (key : Nat) (g : Group) : Option Nat :=
  let since (st : Strand) : Nat := match st.last with | some t => t + 1 | none => 0
  ((g.strands.filter fun e => s.isReady { core := keyCore key, slot := keySlot key, entry := e.1 }).foldl (fun (a : Option (Nat × Nat)) e => match a with
    | none => some (e.1, since e.2)
    | some b => if since e.2 < b.2 then some (e.1, since e.2) else some b) none).map (·.1)

/-- The strand that a quadrant issues now: that of the first slot after the one visited last whose group has a ready strand
(R209). -/
def State.pickStrand (s : State) (core quad : Nat) : Option StrandRef :=
  let at_ := Map.get 15 (s.core core).ring quad
  ((List.range 16).map fun i => 16 * quad + (at_ + 1 + i) % 16).findSome? fun slot =>
    (s.groups.look (gkey core slot)).bind fun g => (s.nextStrand (gkey core slot) g).map fun e => { core := core, slot := slot, entry := e }

/-- The strand issues in this cc: its quadrant has issued nothing in it, and the round comes to the strand (R209). -/
def State.mayIssue (s : State) (r : StrandRef) : Bool :=
  Map.get 0 (s.core r.core).issuedAt (slotQuad r.slot) ≤ s.now && s.pickStrand r.core (slotQuad r.slot) == some r

/-- A strand issues a word of a line with write time `wts`: the round goes on behind it, and rclk is raised to the line's
wts (R209, R420). -/
def State.issues (s : State) (r : StrandRef) (g : Group) (wts : Time) : State :=
  let quad := slotQuad r.slot
  let s := s.onCore r.core fun c => { c with ring := c.ring.put quad (r.slot % 16), issuedAt := c.issuedAt.put quad (s.now + 1) }
  s.setGroup (gkey r.core r.slot) ({ g with rclk := tmax g.rclk wts }.onStrand r.entry fun st => { st with last := some s.now })

end Sys2Proof.Machine
end

