-- ==== Sys2Proof/Machine/Docent.lean ====
section
/-! DEFINITION. The Docent (R207, R208), the creep of the read clocks (R233), and the retirement of groups, blocks and
launches (R173, R218-R220, R349). -/
namespace Sys2Proof.Machine

/-- CREEP: every 1,024 cc of a core the rclk of each resident group rises by 1 (R233). -/
def execCreep (core : Nat) (s : State) : Res :=
  let c := s.core core
  if !c.service || (s.now - c.since) / 1024 ≤ c.creeps then .next s
  else
    let groups := s.groups.map fun e => if keyCore e.1 == core then (e.1, { e.2 with rclk := e.2.rclk + 1 }) else e
    .next (({ s with groups := groups } : State).onCore core fun c => { c with creeps := c.creeps + 1 })

/-! ### Refill and swap (R207, R208) -/

/-- Save-area records move into the queue while it has space, in each group's order. -/
def State.fillQueue (s : State) (core : Nat) : State :=
  (s.groups.filter fun e => keyCore e.1 == core).foldl (fun s e =>
    let room := 4096 - (s.core core).docent.length
    let moved := e.2.saveList.take room
    if moved.isEmpty then s
    else (s.onCore core fun c => { c with docent := c.docent ++ moved }).onGroup e.1 fun g => { g with saveList := g.saveList.drop room }) s

/-- A group whose free entry takes a record: it is not being evicted, and no gate call holds its records (R156). -/
def Group.refills (g : Group) : Bool := g.stopping != .evict && !g.calling && g.freeEntry.isSome

/-- REFILL: the oldest queued record whose group has a free entry is placed there, and the queue takes records of the
save areas (R207). -/
def execRefill (core : Nat) (s : State) : Res :=
  let fits (r : Record) : Bool := match s.groups.look (gkey core r.slot) with | some g => g.refills | none => false
  match (s.core core).docent.find? fits with
  | none => .next (s.fillQueue core)
  | some r =>
    let s := s.onCore core fun c => { c with docent := c.docent.eraseP fun x => fits x }
    let s := s.onGroup (gkey core r.slot) fun g => match g.freeEntry with | some e => g.setStrand e (r.strand s.now) | none => g
    .next (s.fillQueue core)

/-- A strand that a swap may take: one at `join`, or a ready one, without an instruction between issue and completion; the
lanes of a replay stand between the two (R52, R208). -/
def State.swappable (s : State) (key : Nat) (g : Group) (e : Nat) (st : Strand) : Bool :=
  (match st.wait with
    | .join _ => true
    | _ => s.isReady { core := keyCore key, slot := keySlot key, entry := e }) && st.replay.isNone &&
  g.ops.all (fun o => o.left == 0 || o.entry != e) && g.words.all fun w => w.entry != e

/-- The candidate that has held its entry longest; among those placed in one cc, that of the lowest entry (R208, LOG 162). -/
def State.swapVictim (s : State) (key : Nat) (g : Group) : Option (Nat × Strand) :=
  (g.strands.filter fun e => s.swappable key g e.1 e.2).foldl (fun a x => match a with
    | none => some x
    | some y => if x.2.placed < y.2.placed then some x else some y) none

/-- The oldest record of a group leaves the queue or the save area. -/
def State.takeRecord (s : State) (core slot : Nat) : State × Option Record :=
  match ((s.core core).recordsOf slot).head? with
  | some r => (s.onCore core fun c => { c with docent := c.docent.eraseP fun x => x.slot == slot }, some r)
  | none => match (s.groups.look (gkey core slot)).bind fun g => g.saveList.head? with
    | some r => (s.onGroup (gkey core slot) fun g => { g with saveList := g.saveList.tail }, some r)
    | none => (s, none)

/-- SWAP: the longest-held candidate of a full table is written back, and the oldest record takes its entry (R208). Strands that a
gate call holds stay where they are (R156). -/
def execSwap (core slot : Nat) (s : State) : Res :=
  let key := gkey core slot
  match s.groups.look key with
  | none => .next s
  | some g =>
    let waits := !((s.core core).recordsOf slot).isEmpty || !g.saveList.isEmpty
    let open_ := g.stopping == .running && g.frames.isEmpty && !g.calling && !g.stackMode
    if !open_ || g.freeEntry.isSome || !waits || s.now < g.swapSince + 4096 then .next s
    else match s.swapVictim key g with
      | none => .next s
      | some (e, st) =>
        let r := s.tail core { g with strands := g.strands.del e, swapSince := s.now } (st.record slot)
        let t := (r.1.setGroup key r.2).takeRecord core slot
        .next (match t.2 with | some x => t.1.onGroup key fun g => g.setStrand e (x.strand s.now) | none => t.1)

/-! ### Retirement (R173, R218-R220, R349) -/

/-- The engine holds no operation that names a group. -/
def State.engineFree (s : State) (key : Nat) : Bool := (s.core (keyCore key)).engine.all fun o => !o.groups.contains key

/-- A block with no group left retires: its claim ends, its scratchpad, arrival map and barriers are free (R219). -/
def State.retireBlock (s : State) (block : Nat) : State :=
  match s.blocks.look block with
  | none => s
  | some b =>
    if !(s.groupsOf block).isEmpty || s.hasSpilled block then s
    else ({ s with blocks := s.blocks.del block } : State).onLaunch b.launch fun l => { l with blocksLeft := l.blocksLeft - 1 }

/-- The clocks of a group that ends count for its launch's completion (R238), and so do its stores to host and peer memory
below `.sys` where the launch releases at `.sys` (R199, R220). -/
def State.noteClocks (s : State) (g : Group) : State :=
  s.onLaunch g.launch fun l => { l with rmax := tmax l.rmax g.rclk, wmax := tmax l.wmax g.wclk, remote := if l.record.sys then l.remote ++ g.remote.filter fun x => !l.remote.contains x else l.remote }

/-- A group's endpoint slots are released (R174, R218). -/
def State.closeEndpoints (s : State) (g : Group) : State :=
  g.eps.foldl (fun s e => if e.2.sink then s.closeSink e.2 false else s.closeSource e.2) s

/-- Groups and blocks of a terminated launch that are not resident end at once, and release their endpoint slots: spilled
groups, and the saves of an evicted cohort (R218, R349, R351). -/
def State.reap (s : State) (launch : Nat) : State :=
  match s.belfry.launches.look launch with
  | none => s
  | some l =>
    if !l.terminating then s
    else
      let spilled := s.cores.flatMap fun e => (e.2.spilled.map (·.2)).filter fun g => g.launch == launch
      let cores := s.cores.map fun (e : Nat × Core) => (e.1, { e.2 with spilled := e.2.spilled.filter fun x => x.2.launch != launch })
      let s : State := { s with cores := cores }
      let s := spilled.foldl (fun s g => ((s.closeEndpoints g).noteClocks g).retireBlock g.block) s
      let saves := s.faults.saves.filter fun x => x.launch == launch
      let others := s.faults.saves.filter fun x => x.launch != launch
      let ev := s.faults.evictions.filter fun e => e.1 != launch
      let s : State := { s with faults := { s.faults with saves := others, evictions := ev } }
      let s := saves.foldl (fun s x => (x.groups.foldl (fun s g => (s.closeEndpoints g).noteClocks g) s).onLaunch launch fun l => { l with blocksLeft := l.blocksLeft - 1 }) s
      s.tryLaunch launch

/-- A member of the retiring group's quartet that waits for it (R173): the strand that takes MATRIX. -/
def State.matrixWaiter (s : State) (key : Nat) (g : Group) : Option (StrandRef × Dword) :=
  let mates := s.groups.filter fun e => e.1 != key && e.2.block == g.block && e.2.groupid / 4 == g.groupid / 4
  (mates.filterMap fun e =>
    let at_ (entry : Nat) (pc : Dword) : Option (StrandRef × Dword) := some ({ core := keyCore e.1, slot := keySlot e.1, entry := entry }, pc)
    match e.2.strands.find? fun x => x.2.wait.inMrdy with
    | some x => at_ x.1 x.2.pc
    | none => match e.2.words.find? fun _ => g.mmaCount < e.2.mmaCount with
      | some w => at_ w.entry w.pc
      | none => none).head?

/-- The group's slot, granules, endpoint and layout slots are free (R174, R218). -/
def State.releaseGroup (s : State) (key : Nat) (g : Group) : State :=
  let core := keyCore key
  let s := (s.closeEndpoints g).onCore core fun c => { c with docent := c.docent.filter fun q => q.slot != keySlot key }
  let s := (s.noteClocks g).growTouch core (slotQuad (keySlot key))
  let s := { s with groups := s.groups.del key, gaths := s.gaths.filter fun e => e.2.group != key }
  (s.barriers g.block).retireBlock g.block

/-- GROUP_RETIRE: a group with no lane left, or one that its launch's termination ends, retires once its counters are
zero and the engine names none of its registers (R218, R349). With its block's and its launch's last group those end
too (R219, R220). -/
def execGroupRetire (core slot : Nat) (s : State) : Res :=
  let key := gkey core slot
  match s.groups.look key with
  | none => .next s
  | some g =>
    let done := s.finished key g && g.frames.isEmpty && g.matrixQuiet
    let dead := g.stopping == .terminate && (g.frames.isEmpty || !g.suspends.isEmpty) && s.engineFree key
    if !(done || dead) || !g.idle then .next s
    else
      let s := match if dead then none else s.matrixWaiter key g with
        | some (r, pc) => s.takeFault r pc { code := faultMatrix }
        | none => s
      .next (((s.releaseGroup key g).reap g.launch).tryLaunch g.launch)

end Sys2Proof.Machine
end

