-- ==== Sys2Proof/Machine/Place.lean ====
section
/-! DEFINITION. Placement by the Belfry: cohorts on cores (R197, R201-R203, R227, R359), regions on base dies (R327, R328,
R361), their order, aging and backfill (R323, R324), and the carve-out (R330). -/
namespace Sys2Proof.Machine

/-! ### Cohorts on cores (R202) -/

/-- What a block asks of a core: group slots and granules of each quadrant, and scratchpad KiB. -/
structure Need where
  slots : List Nat
  granules : List Nat
  scratch : Nat
  deriving DecidableEq, Repr

/-- What a core has free. -/
structure Room where
  core : Nat
  slots : List Nat
  granules : List Nat
  scratch : Nat
  deriving DecidableEq, Repr

def Need.ofGroups (gs : List (Nat × Nat)) (scratch : Nat) : Need :=
  let quad (q : Nat) : List (Nat × Nat) := gs.filter fun g => g.1 % 4 == q
  { slots := (List.range 4).map fun q => (quad q).length, granules := (List.range 4).map fun q => ((quad q).map (·.2)).foldl (· + ·) 0, scratch := scratch }

/-- Group numbers and granules of a block of a record. -/
def LaunchRec.need (r : LaunchRec) : Need := Need.ofGroups ((List.range r.groups).map fun g => (g, r.regs / 16)) r.scratch

def allLe (xs ys : List Nat) : Bool := (xs.zip ys).all fun e => e.1 ≤ e.2

def Room.fits (r : Room) (n : Need) : Bool := allLe n.slots r.slots && allLe n.granules r.granules && n.scratch ≤ r.scratch
def Room.take (r : Room) (n : Need) : Room :=
  { r with slots := (r.slots.zip n.slots).map fun e => e.1 - e.2, granules := (r.granules.zip n.granules).map fun e => e.1 - e.2, scratch := r.scratch - n.scratch }
def Room.freeSlots (r : Room) : Nat := r.slots.foldl (· + ·) 0

/-- The core with the most free group slots that a block fits, on a tie the lowest number (R202). -/
def bestRoom (rooms : List Room) (n : Need) : Option Room :=
  (rooms.filter fun r => r.fits n).foldl (fun a r => match a with
    | none => some r
    | some b => if b.freeSlots < r.freeSlots then some r else some b) none

/-- The cores of the blocks of a cohort in rank order, when every one of them fits at once. -/
def planBlocks (rooms : List Room) (ns : List Need) : Option (List Nat) :=
  match ns with
  | [] => some []
  | n :: t => match bestRoom rooms n with
    | none => none
    | some r => (planBlocks (rooms.map fun x => if x.core == r.core then x.take n else x) t).map fun cs => r.core :: cs

/-- The logical cores of a cluster: 16 clusters of 24 (R1). -/
def clusterCores (k : Nat) : List Nat := (List.range 24).map (24 * k + ·)

/-- The core takes new blocks: it is in service, it is not being evacuated, its carve-out is not changing, and its
reserve share holds no save (R202, R330, R362, R410). -/
def State.coreOpen (s : State) (core : Nat) : Bool :=
  let c := s.core core
  c.service && !c.retired && !c.held && c.carveNext.isNone && !s.faults.saves.any fun x => x.reserve == some core

def State.blocksOn (s : State) (core : Nat) : List (Nat × Block) := s.blocks.filter fun b => b.2.core == core

/-- What a core has free, at a carve-out. -/
def State.room (s : State) (core carve : Nat) : Room :=
  { core := core, slots := (List.range 4).map fun q => 16 - (s.inQuad core q).length, granules := (List.range 4).map fun q => s.spareGranules core q, scratch := 2048 - carve - ((s.blocksOn core).map fun b => b.2.scratchKiB).foldl (· + ·) 0 }

/-- An empty core. -/
def emptyRoom (core carve : Nat) : Room := { core := core, slots := [16, 16, 16, 16], granules := [64, 64, 64, 64], scratch := 2048 - carve }

/-- Rooms of a cluster's cores that have the carve-out a record asks for. -/
def State.rooms (s : State) (k carve : Nat) : List Room :=
  ((clusterCores k).filter fun c => s.coreOpen c && (carve == 0 || (s.core c).carve == carve)).map fun c => s.room c (s.core c).carve

/-- Resident cohorts of all launches in a cluster. -/
def State.cohortsIn (s : State) (k : Nat) : Nat :=
  (((s.blocks.filter fun b => b.2.core / 24 == k).map fun b => (b.2.launch, b.2.cohort)).eraseDups).length

/-- Among clusters that answer, the one with the fewest resident cohorts, on a tie the lowest number (R202). -/
def State.bestCluster {α : Type} (s : State) (f : Nat → Option α) : Option α :=
  ((List.range 16).foldl (fun (a : Option (Nat × α)) k => match f k, a with
    | none, a => a
    | some x, none => some (s.cohortsIn k, x)
    | some x, some b => if s.cohortsIn k < b.1 then some (s.cohortsIn k, x) else some b) none).map (·.2)

/-- The cores that a cohort's blocks take now. -/
def State.planCohort (s : State) (carve : Nat) (ns : List Need) : Option (List Nat) :=
  s.bestCluster fun k => planBlocks (s.rooms k carve) ns

/-- The cohort fits an empty cluster of in-service cores (R325). -/
def State.cohortFits (s : State) (r : LaunchRec) (blocks : Nat) : Bool :=
  (List.range 16).any fun k =>
    let cs := (clusterCores k).filter fun c => (s.core c).service && !(s.core c).retired
    (planBlocks (cs.map fun c => emptyRoom c (if r.carve == 0 then (s.core c).carve else r.carve)) (List.replicate blocks r.need)).isSome

def LaunchRec.blocks (r : LaunchRec) : Nat := r.gridx * r.gridy * r.gridz
def LaunchRec.cohorts (r : LaunchRec) : Nat := (r.blocks + r.cohort - 1) / r.cohort
/-- Block numbers of a cohort (R202). -/
def LaunchRec.members (r : LaunchRec) (k : Nat) : List Nat := ((List.range r.cohort).map (r.cohort * k + ·)).filter (· < r.blocks)

/-! ### The start of a block (R42, R44, R201, R203, R227) -/

/-- A lane lies beyond the lane extent (R201). -/
def LaunchRec.beyond (r : LaunchRec) (bx g l : Nat) : Bool := r.extent != 0 && r.extent ≤ 32 * (bx * r.groups + g) + l
/-- Helper lanes share a quad with a lane inside the extent (R44). -/
def LaunchRec.helper (r : LaunchRec) (bx g l : Nat) : Bool := r.beyond bx g l && (List.range 4).any fun i => !r.beyond bx g (l / 4 * 4 + i)

/-- A group starts in the lowest free slot of its quadrant. -/
def State.startGroup (s : State) (launch block : Nat) (b : Block) (r : LaunchRec) (start : Time) (g : Nat) : State :=
  match s.freeSlot b.core (g % 4) with
  | none => s
  | some slot =>
    let helper := maskOf fun l => r.helper b.x g l
    let live := maskOf fun l => !r.beyond b.x g l || r.helper b.x g l
    let first : Strand := { pc := r.code, mask := live, placed := s.now }
    s.setGroup (gkey b.core slot) { block := block, launch := launch, groupid := g, domain := r.domain, nregs := r.regs, s := Map.set 0 [] 1 r.arg, live := live, helper := helper, strands := if live == 0 then [] else [(0, first)], swapSince := s.now, stackMode := r.stack || s.boot == .stage1, rclk := start, wclk := start, lease := BitVec.ofNat 40 (if r.lease == 0 then 64 else r.lease), stamp := s.now }

/-- A block starts on a core: its scratchpad reads zero and its groups become resident together (R203, R330). -/
def State.startBlock (s : State) (launch : Nat) (r : LaunchRec) (number core : Nat) (start : Time) : State :=
  let id := s.nextId
  let b : Block := { launch := launch, number := number, cohort := number / r.cohort, core := core, x := number % r.gridx, y := number / r.gridx % r.gridy, z := number / r.gridx / r.gridy, groups := r.groups, scratchKiB := r.scratch, catalogueKiB := r.catalogue }
  let s := ({ s with nextId := id + 1 } : State).setBlock id b
  (List.range r.groups).foldl (fun s g => s.startGroup launch id b r start g) s

/-! ### Evicted cohorts (R357-R359) -/

/-- What a saved block asks of a core: slots and granules for its groups but for those that had been spilled, which wait for a
slot again as R216 says (R359). -/
def Saved.need (x : Saved) : Need :=
  Need.ofGroups ((x.groups.filter fun g => !x.spilled.contains g.groupid).map fun g => (g.groupid, g.nregs / 16)) x.data.scratchKiB

/-- The saves of a cohort, in rank order. -/
def State.savesOf (s : State) (launch cohort : Nat) : List Saved :=
  (s.faults.saves.filter fun x => x.launch == launch && x.cohort == cohort).mergeSort fun a b => a.data.number ≤ b.data.number

/-- Records at the head of the save area go to the queue while it has room (R207). -/
def State.fillSlot (s : State) (core slot : Nat) : State :=
  match s.groups.look (gkey core slot) with
  | none => s
  | some g =>
    let room := 4096 - (s.core core).docent.length
    (s.onCore core fun c => { c with docent := c.docent ++ g.saveList.take room }).onGroup (gkey core slot) fun g => { g with saveList := g.saveList.drop room }

/-- A strand of a saved group goes on: one that was blocked in `rgrow` repeats its request (R358). -/
def Strand.restored (st : Strand) : Strand :=
  match st.wait with
  | .rgrow _ _ => { st with wait := .ready }.resumed
  | _ => st.resumed

/-- A saved group becomes resident in a slot: a new stamp, clocks at the device floor or above, its strands resumed, and its
records, those of its frames among them, under the new slot (R234, R358, R359). -/
def Group.restored (g : Group) (slot : Nat) (floor : Time) (now : Nat) : Group :=
  { g with stamp := now, rclk := tmax g.rclk floor, wclk := tmax g.wclk floor, stopping := .running, swapSince := now, saveList := g.saveList.map (·.inSlot slot), frames := g.frames.map (·.inSlot slot), strands := g.strands.map fun e => (e.1, e.2.restored) }

/-- A saved group becomes resident; its commissions are issued again whole (R357, R359). -/
def State.restoreGroup (s : State) (core : Nat) (jobs : List Job) (g : Group) : State :=
  match s.freeSlot core (g.groupid % 4) with
  | none => s
  | some slot =>
    let key := gkey core slot
    let s := s.setGroup key (g.restored slot s.floor s.now)
    let s := (jobs.filter fun j => j.group == g.groupid).foldl (fun s j => { s with nextId := s.nextId + 1, jobs := s.jobs.put s.nextId { j with group := key, pos := 0, index := [], maxWts := 0, header := none, held := none, heldIndex := none, fetched := [] } }) s
    s.fillSlot core slot

/-- A saved group that had been spilled waits for a slot and its granules again (R216, R359). -/
def State.restoreSpilled (s : State) (core : Nat) (g : Group) : State :=
  s.onCore core fun c => { c with spilled := c.spilled ++ [(g.groupid % 4, g.restored 0 s.floor s.now)] }

/-- A saved block is written back to a core, where no copy from before its eviction serves its loads (R359). -/
def State.restoreBlock (s : State) (x : Saved) (core : Nat) : State :=
  let s := (s.dropCore core).setBlock x.block { x.data with core := core }
  x.groups.foldl (fun s g => if x.spilled.contains g.groupid then s.restoreSpilled core g else s.restoreGroup core x.jobs g) s

/-! ### Regions on base dies (R327) -/

/-- A rectangle of squares holds a square. -/
def covers (x y w h sx sy : Nat) : Bool := x ≤ sx && sx < x + w && y ≤ sy && sy < y + h

/-- A square is free: no instance holds it, it is in placement, and its reserve share holds no checkpoint. -/
def State.squareFree (s : State) (die sx sy : Nat) : Bool :=
  sx < 8 && sy < 8 && !s.service.squaresOut.contains (die, 8 * sy + sx) &&
  !s.annex.insts.any (fun e => e.2.die == die && covers e.2.sx e.2.sy e.2.cols e.2.rows sx sy) &&
  !s.annex.checkpoints.any fun c => c.reserved && c.inst.die == die && covers c.inst.sx c.inst.sy c.inst.cols c.inst.rows sx sy

def State.rectFree (s : State) (die sx sy w h : Nat) : Bool :=
  (List.range h).all fun j => (List.range w).all fun i => s.squareFree die (sx + i) (sy + j)

/-- The origin of an instance: the cached one, or the lowest sy, then sx, at which it fits (R327, R328). -/
def State.originFor (s : State) (r : RegionRec) (sec die : Nat) : Option (Nat × Nat) :=
  match s.annex.cache.find? fun c => c.image == r.image && c.domain == r.domain && c.section_ == sec && c.die == die && c.cols == r.cols && c.rows == r.rows && s.rectFree die c.sx c.sy r.cols r.rows with
  | some c => some (c.sx, c.sy)
  | none => ((List.range 64).map fun i => (i % 8, i / 8)).find? fun o => s.rectFree die o.1 o.2 r.cols r.rows

/-- Squares of a die that a domain's instances hold. -/
def State.squaresHeld (s : State) (d die : Nat) : Nat :=
  ((s.annex.insts.filter fun e => e.2.die == die && s.instDomain e.1 == d).map fun e => e.2.cols * e.2.rows).foldl (· + ·) 0

def State.quota (s : State) (d die : Nat) : Nat := Map.get 64 (s.domain d).quota die

/-- Firmware sets a quota of 0 to 64 squares (R327). -/
def State.setQuota (s : State) (d die n : Nat) : State :=
  if s.boot == .off || s.boot == .stage0 || 64 ≤ d || 16 ≤ die || 64 < n then s
  else (s.setDomain d { s.domain d with quota := Map.set 64 (s.domain d).quota die n }).reportChanged

/-- Ports that a section of an image binds; nothing while lines of the image are still on their way. An image that cannot be
read binds none, and fails when it is loaded. -/
def State.imagePorts (s : State) (r : RegionRec) (sec : Nat) : Option (List Nat) :=
  match s.readImage r.domain r.image with
  | .wait _ => none
  | .bad => some []
  | .done img => let c := imgSection img sec; some ((List.range c.nport).map fun i => (imgBinding img (c.ports + 16 * i)).port)

/-- The ports of an instance: those of its checkpoint, or those that its image binds. -/
def State.sectionPorts (s : State) (r : RegionRec) (back : List Checkpoint) (sec : Nat) : Option (List Nat) :=
  match back.find? fun c => c.inst.section_ == sec with
  | some c => some (c.ports.map (·.1))
  | none => s.imagePorts r sec

def State.portFree (s : State) (die p : Nat) : Bool := (Map.get {} s.annex.ports (64 * die + p)).inst.isNone

/-- A die is retired for regions: its Annex failed training, or its stack did (R325, R392). -/
def State.dieRetired (s : State) (die : Nat) : Bool := s.service.stacksRetired.contains die || s.service.diesRetired.contains die

/-- A die is in service for regions. -/
def State.dieUp (s : State) (die : Nat) : Bool := s.boot == .stage2 && !s.dieRetired die

/-- A die holds as many instances as it can, 16 (R254). -/
def State.dieFull (s : State) (die : Nat) : Bool := 16 ≤ (s.annex.insts.filter fun e => e.2.die == die).length

/-- The dies of a mask with their section numbers (R255). -/
def RegionRec.sections (r : RegionRec) : List (Nat × Nat) := ((List.range 16).filter fun i => r.dies.getLsbD i).mapIdx fun k die => (die, k)

/-- Die, section and origin of every instance, when all of them can be taken at once (R327). `back` holds the checkpoints
of a region that is placed again. -/
def State.planRegion (s : State) (r : RegionRec) (back : List Checkpoint) : Option (List (Nat × Nat × Nat × Nat)) :=
  let one (e : Nat × Nat) : Option (Nat × Nat × Nat × Nat) :=
    let free := match s.sectionPorts r back e.2 with | some ports => ports.all fun p => s.portFree e.1 p | none => false
    if !s.dieUp e.1 || s.dieFull e.1 || s.quota r.domain e.1 < s.squaresHeld r.domain e.1 + r.cols * r.rows || !free then none
    else (s.originFor r e.2 e.1).map fun o => (e.1, e.2, o.1, o.2)
  let all := r.sections.map one
  if all.any (·.isNone) then none else some (all.filterMap id)

/-! ### Order (R323, R359, R353) -/

/-- Who waits for placement: the head of a queue, an evicted cohort, or a checkpointed region. -/
inductive Cand where
  | packet (queue : Nat)
  | cohort (launch cohort : Nat)
  | region (key : Nat)
  deriving DecidableEq, Repr

/-- A candidate with its effective priority, ready time, queue, and whether its backfill window has closed. -/
structure Ranked where
  cand : Cand
  eff : Nat
  ready : Nat
  queue : Nat
  blocked : Option Nat
  expired : Bool
  deriving DecidableEq, Repr

/-- 50 µs in cc. -/
def window : Nat := 200000

def Ranked.before (a b : Ranked) : Bool := b.eff < a.eff || (a.eff == b.eff && (a.ready < b.ready || (a.ready == b.ready && a.queue ≤ b.queue)))

/-- The steps by which a ready packet has aged, and whether the window of its block has closed. -/
def Packet.age (p : Packet) (now : Nat) : Packet :=
  { p with aged := (match p.ready with | some t => (now - t) / window | none => 0), expired := (match p.blocked with | some t => t + window ≤ now | none => false) }

def State.ageAll (s : State) : State :=
  let qs := s.belfry.queues.map fun (e : Nat × Queue) => (e.1, { e.2 with packets := e.2.packets.map fun p => p.age s.now })
  { s with belfry := { s.belfry with queues := qs } }

/-- The priority that a fetched packet names, parsed or not: byte 57 of a launch record, byte 49 of a region record (R198,
R255, R315). -/
def Packet.priority (p : Packet) : Nat :=
  let byte (i : Nat) : Nat := ((p.raw[i]?).getD 0).toNat
  match p.work with
  | some (.launch r) => r.priority
  | some (.region r) => r.priority
  | none => match byte 64 with
    | 1 => byte 57
    | 2 => byte 49
    | _ => 0

/-- p of R323: the largest priority among the head and the packets fetched behind it. -/
def Queue.priority (q : Queue) : Nat := (q.packets.map Packet.priority).foldl max 0

/-- The launch of a partly placed packet is being terminated (R349). -/
def State.ended (s : State) (p : Packet) : Bool :=
  match p.launch.bind fun l => s.belfry.launches.look l with
  | some l => l.terminating
  | none => false

/-- The ready heads of queues whose work a test accepts. -/
def State.readyHeads (s : State) (f : Work → Bool) : List Ranked :=
  s.belfry.queues.filterMap fun e =>
    match e.2.packets with
    | [] => none
    | p :: _ => match p.ready, p.work with
      | some t, some w => if f w && p.parsed && !s.ended p then some { cand := .packet e.1, eff := min 3 (e.2.priority + p.aged), ready := t, queue := e.1, blocked := p.blocked, expired := p.expired } else none
      | _, _ => none

/-- Launches' candidates in placement order. -/
def State.launchOrder (s : State) : List Ranked :=
  let heads := s.readyHeads fun w => match w with | .launch _ => true | .region _ => false
  let away := ((s.faults.saves.map fun x => (x.launch, x.cohort)).eraseDups).filterMap fun (e : Nat × Nat) =>
    (s.belfry.launches.look e.1).map fun l =>
      ({ cand := .cohort e.1 e.2, eff := min 3 (l.priority + (s.now - l.ready) / window), ready := l.ready, queue := l.queue, blocked := l.blocked, expired := match l.blocked with | some t => t + window ≤ s.now | none => false } : Ranked)
  (heads ++ away).mergeSort Ranked.before

/-- Regions' candidates in placement order. A region that the timeout checkpointed waits for its records (R353). -/
def State.regionOrder (s : State) : List Ranked :=
  let heads := s.readyHeads fun w => match w with | .region _ => true | .launch _ => false
  let back := s.annex.regions.filterMap fun e =>
    if e.2.state == .checkpointed && (!e.2.byTimeout || e.2.pending.isEmpty) then
      some ({ cand := .region e.1, eff := min 3 (e.2.priority + (s.now - e.2.ready) / window), ready := e.2.ready, queue := e.2.queue, blocked := e.2.blocked, expired := match e.2.blocked with | some t => t + window ≤ s.now | none => false } : Ranked)
    else none
  (heads ++ back).mergeSort Ranked.before

/-! ### What a candidate can take now -/

def State.headOf (s : State) (queue : Nat) : Option Packet := (s.belfry.queues.look queue).bind fun q => q.packets.head?

/-- The next cohort of a head packet, with its record. -/
def State.nextCohort (s : State) (queue : Nat) : Option (LaunchRec × Nat) :=
  match s.headOf queue with
  | none => none
  | some p => match p.work with
    | some (.launch r) => match p.launch.bind fun l => s.belfry.launches.look l with
      | some l => if l.terminating || r.cohorts ≤ l.placed then none else some (r, l.placed)
      | none => some (r, 0)
    | _ => none

/-- Cores for a candidate's next cohort. -/
def State.planLaunch (s : State) (c : Ranked) : Option (List Nat) :=
  match c.cand with
  | .packet queue => match s.nextCohort queue with
    | some (r, k) => s.planCohort r.carve ((r.members k).map fun _ => r.need)
    | none => none
  | .cohort launch cohort => match s.belfry.launches.look launch with
    | some l => if l.terminating then none else s.planCohort l.record.carve ((s.savesOf launch cohort).map Saved.need)
    | none => none
  | .region _ => none

/-- The region record of a candidate, with the checkpoints that are written back. -/
def State.regionOf (s : State) (c : Ranked) : Option (RegionRec × List Checkpoint) :=
  match c.cand with
  | .packet queue => match (s.headOf queue).bind fun p => p.work with
    | some (.region r) => some (r, [])
    | _ => none
  | .region key => (s.annex.regions.look key).map fun g => (g.record, s.annex.checkpoints.filter fun x => x.region == key)
  | .cohort _ _ => none

def State.planFor (s : State) (c : Ranked) : Option (List (Nat × Nat × Nat × Nat)) := (s.regionOf c).bind fun r => s.planRegion r.1 r.2

/-- Two regions' masks share a die. -/
def State.shareDie (s : State) (a b : Ranked) : Bool :=
  match s.regionOf a, s.regionOf b with
  | some x, some y => x.1.dies &&& y.1.dies != 0
  | _, _ => false

/-- The first candidate that can be placed and that no blocked one before it holds back; a blocked one that is held back
itself holds back what comes after it all the same (R324). -/
def pick {α : Type} (cands : List Ranked) (plan : Ranked → Option α) (holds : Ranked → Ranked → Bool) (closed : List Ranked) : Option (Ranked × α) :=
  match cands with
  | [] => none
  | c :: t =>
    if closed.any fun b => holds b c then pick t plan holds (if c.expired then c :: closed else closed)
    else match plan c with
      | some x => some (c, x)
      | none => pick t plan holds (if c.expired then c :: closed else closed)

def State.setBlocked (s : State) (c : Cand) (t : Option Nat) : State :=
  match c with
  | .packet queue => s.onQueue queue fun q => { q with packets := match q.packets with | p :: rest => { p with blocked := t, expired := false } :: rest | [] => [] }
  | .cohort launch _ => s.onLaunch launch fun l => { l with blocked := t }
  | .region key => s.onRegion key fun g => { g with blocked := t }

/-- Candidates that cannot be placed block from now on (R324). -/
def State.markBlocked (s : State) : State :=
  let s' := (s.launchOrder.filter fun c => c.blocked.isNone && (s.planLaunch c).isNone).foldl (fun s c => s.setBlocked c.cand (some s.now)) s
  (s.regionOrder.filter fun c => c.blocked.isNone && (s.planFor c).isNone).foldl (fun s c => s.setBlocked c.cand (some s.now)) s'

/-! ### Placing -/

/-- Place the next cohort of a head packet; with the last one the packet is dispatched (R219, R319). -/
def State.placeHead (s : State) (queue : Nat) (cores : List Nat) : State :=
  match s.nextCohort queue, s.headOf queue with
  | some (r, k), some p =>
    let prio := match s.belfry.queues.look queue with | some q => q.priority | none => 0
    let id := p.launch.getD s.nextId
    let start := tmax p.start s.floor
    let fresh : Launch := { queue := queue, slot := p.slot, record := r, start := start, cohorts := r.cohorts, placed := 0, blocksLeft := 0, priority := prio, ready := p.ready.getD s.now, rmax := 0, wmax := 0, terminating := false, prev := p.prev }
    let s := if p.launch.isSome then s else
      { s with nextId := s.nextId + 1, belfry := { s.belfry with launches := s.belfry.launches.put id fresh } }
    let s := s.onQueue queue fun q => { q with packets := match q.packets with | p :: rest => { p with launch := some id } :: rest | [] => [] }
    let ms := r.members k
    let s := s.onLaunch id fun l => { l with placed := k + 1, blocksLeft := l.blocksLeft + ms.length }
    let s := (ms.zip cores).foldl (fun s e => s.startBlock id r e.1 e.2 start) s
    if k + 1 == r.cohorts then s.dispatchHead queue else s
  | _, _ => s

/-- An evicted cohort becomes resident again (R359). -/
def State.placeBack (s : State) (launch cohort : Nat) (cores : List Nat) : State :=
  let xs := s.savesOf launch cohort
  let s := { s with faults := { s.faults with saves := s.faults.saves.filter fun x => !(x.launch == launch && x.cohort == cohort) } }
  (xs.zip cores).foldl (fun s e => s.restoreBlock e.1 e.2) s

/-- Cores of a cluster whose carve-out would be changed for a launch: those with the fewest resident blocks, and only as
many as its cohort needs (R330). -/
def State.carveCores (s : State) (r : LaunchRec) (ns : List Need) (k : Nat) : Option (List Nat) :=
  let others := ((clusterCores k).filter fun c => s.coreOpen c && (s.core c).carve != r.carve).mergeSort fun a b =>
    let x := (s.blocksOn a).length
    let y := (s.blocksOn b).length
    x < y || (x == y && a ≤ b)
  let n := (List.range (others.length + 1)).find? fun n => (planBlocks (s.rooms k r.carve ++ (others.take n).map fun c => emptyRoom c r.carve) ns).isSome
  match n with
  | some (n + 1) => some (others.take (n + 1))
  | _ => none

/-- A carve-out change is started for the first blocked launch that names one; the cores take no new
block until the change is applied (R330). -/
def State.askCarve (s : State) : State :=
  let wants (c : Ranked) : Option (Nat × LaunchRec × List Need) :=
    if (s.planLaunch c).isSome then none
    else match c.cand with
      | .packet queue => (s.nextCohort queue).map fun e => (queue, e.1, (e.1.members e.2).map fun _ => e.1.need)
      | .cohort launch cohort => (s.belfry.launches.look launch).map fun l => (l.queue, l.record, (s.savesOf launch cohort).map Saved.need)
      | .region _ => none
  if s.cores.any fun c => c.2.carveNext.isSome then s
  else match (s.launchOrder.filterMap wants).find? fun e => e.2.1.carve != 0 with
    | none => s
    | some (queue, r, ns) => match s.bestCluster (s.carveCores r ns) with
      | none => s
      | some cs => cs.foldl (fun s c => s.onCore c fun x => { x with carveNext := some r.carve, keptFor := some queue }) s

/-- What a placement round ends with: candidates that cannot be placed block, and a carve-out change may start (R324,
R330). -/
def State.endRound (s : State) : State := s.markBlocked.askCarve

/-- The next cohort of a candidate takes its cores. -/
def State.placeOn (s : State) (c : Ranked) (cores : List Nat) : State :=
  let s := s.setBlocked c.cand none
  match c.cand with
  | .packet queue => s.placeHead queue cores
  | .cohort launch cohort => s.placeBack launch cohort cores
  | .region _ => s

/-- PLACE_COHORT: the next cohort of the first launch in the order that can be placed (R202, R323, R324, R330, R359). -/
def execPlaceCohort (s : State) : Res :=
  let s := s.ageAll
  match pick s.launchOrder s.planLaunch (fun _ _ => true) [] with
  | some (c, cores) => .next (s.placeOn c cores).endRound
  | none => .next s.endRound

/-- New instances of a region, loading, with their squares and their ports (R289, R327). -/
def State.startInsts (s : State) (region : Nat) (r : RegionRec) (back : List Checkpoint) (plan : List (Nat × Nat × Nat × Nat)) : State :=
  let ports (sec : Nat) : List Nat := (s.sectionPorts r back sec).getD []
  plan.foldl (fun s e =>
    let id := s.nextId
    let n : Inst := { region := region, die := e.1, section_ := e.2.1, sx := e.2.2.1, sy := e.2.2.2, cols := r.cols, rows := r.rows, state := .loading }
    let s := ({ s with nextId := id + 1, annex := { s.annex with insts := s.annex.insts.put id n } } : State).onRegion region fun g => { g with insts := g.insts ++ [id] }
    (ports e.2.1).foldl (fun s p => s.setPort (64 * e.1 + p) { inst := some id }) s) s

/-- The lines of the images that candidates wait for are asked of the host or of the peers that hold them (R237). -/
def State.askImages (s : State) : State :=
  s.regionOrder.foldl (fun s c => match s.regionOf c with
    | some (r, _) => (match s.readImage r.domain r.image with | .wait s => s | _ => s)
    | none => s) s

/-- The start clock of a region (R239): the wclk that `rlaunch` carried, after its release; that of a packet which other
software enqueued is its start clock, at least the device floor (R227, LOG 125). -/
def State.regionStart (s : State) (queue : Nat) (p : Packet) : Time :=
  (s.carried queue p.slot).getD (tmax p.start s.floor)

/-- PLACE_REGION: every instance of the first region in the order that can be placed takes its squares and ports; the
region enters Loading, and its packet is dispatched (R319, R324, R327, R361). -/
def execPlaceRegion (s : State) : Res :=
  let s := s.ageAll
  match pick s.regionOrder s.planFor s.shareDie [] with
  | none => .next s.askImages.markBlocked
  | some (c, plan) =>
    let s := s.setBlocked c.cand none
    match c.cand, s.regionOf c with
    | .packet queue, some (r, back) =>
      match s.headOf queue, s.belfry.queues.look queue with
      | some p, some q =>
        let id := s.nextId
        let g : Region := { queue := queue, slot := p.slot, record := r, start := s.regionStart queue p, state := .loading, priority := q.priority, ready := p.ready.getD s.now }
        let s : State := { s with nextId := id + 1, annex := { s.annex with regions := s.annex.regions.put id g } }
        .next ((s.startInsts id r back plan).dispatchHead queue).askImages.markBlocked
      | _, _ => .next s
    | .region key, some (r, back) =>
      let s := s.onRegion key fun g => { g with state := .loading, byTimeout := false, forService := false }
      .next (s.startInsts key r back plan).askImages.markBlocked
    | _, _ => .next s

/-- PRIORITY_AGING: the effective priority of a queue's ready head rises with each 50 µs (R323). -/
def execPriorityAging (queue : Nat) (s : State) : Res :=
  .next (s.onQueue queue fun q => { q with packets := q.packets.map fun p => { p with aged := (p.age s.now).aged } })

/-- BACKFILL_EXPIRY: 50 µs after a packet blocks, what it holds back is no longer placed (R324). -/
def execBackfillExpiry (queue : Nat) (s : State) : Res :=
  .next (s.onQueue queue fun q => { q with packets := q.packets.map fun p => { p with expired := (p.age s.now).expired } })

/-- The cores whose carve-out is changing. -/
def State.changing (s : State) : List Nat := (s.cores.filter fun e => e.2.carveNext.isSome).map (·.1)

/-- A core holds no block, and no byte of its L1 waits for an acknowledgement (R330). -/
def State.coreIdle (s : State) (core : Nat) : Bool :=
  (s.blocksOn core).isEmpty && !s.mem.l1.any fun e => e.1 / 2 ^ 46 == core && !e.2.pend.isEmpty

/-- A core takes its new carve-out; its L1 copies go where the L1 shrinks (R330, LOG 84). -/
def State.applyCarve (s : State) (core : Nat) : State :=
  match (s.core core).carveNext with
  | none => s
  | some n =>
    let l1 := if n < (s.core core).carve then s.mem.l1.filter fun e => !(e.1 / 2 ^ 46 == core) else s.mem.l1
    ({ s with mem := { s.mem with l1 := l1 } } : State).onCore core fun c => { c with carve := n, carveNext := none, keptFor := none }

/-- The cohort that a change was for is placed (R330, LOG 84). -/
def State.placeKept (s : State) (queue : Nat) : State :=
  match pick (s.launchOrder.filter fun c => c.queue == queue) s.planLaunch (fun _ _ => false) [] with
  | some (c, cores) => s.placeOn c cores
  | none => s

/-- CARVE_CHANGE: once every core of the change holds no block and no pending byte, the change is applied to all of them and
the cohort that it was for is placed (R330). -/
def execCarveChange (core : Nat) (s : State) : Res :=
  let c := s.core core
  if c.carveNext.isNone || !s.changing.all s.coreIdle then .next s
  else
    let t := s.changing.foldl State.applyCarve s
    .next (match c.keptFor with | some q => t.placeKept q | none => t)

end Sys2Proof.Machine
end

