-- ==== Sys2Proof/Machine/Belfry.lean ====
section
/-! DEFINITION. The Belfry's queues (R313-R318), its checks of packets (R200, R255, R325, R326, R419), and their
dependences (R319-R322). -/
namespace Sys2Proof.Machine

/-! ### What the Belfry reads (R317, R407) -/

/-- A read by the Belfry: bytes with the largest write time of their lines; the state in which a line has been asked of the
host or the peer that owns it; or what stops the read. -/
inductive DevRead where
  | ok (bs : List Byte) (wts : Time)
  | wait (s : State)
  | bad (code : Byte) (va detail : Dword)
  deriving DecidableEq, Repr

/-- Bytes inside one line, as a relaxed `.dev` load: at the line's home, or at the owner node of an N page, which carries no
time (R117, R237, R243). -/
def State.readPiece (s : State) (d : Nat) (va : Dword) (n : Nat) : DevRead :=
  match s.trans d va wantLoad with
  | .bad code detail => .bad code va detail
  | .ok pa near =>
    let line := pa / 64
    if s.lineBad line || s.refused line near then .bad faultData va 0
    else match s.lineNow line near with
      | none => .wait (s.bring line false near)
      | some x => .ok ((List.range n).map fun i => lineByte x (pa % 64 + i)) (if near then 0 else (s.homeView line).wts)

/-- Bytes of any length. -/
def State.readPieces (s : State) (d : Nat) (va : Dword) (n fuel : Nat) : DevRead :=
  match fuel with
  | 0 => .ok [] 0
  | fuel + 1 =>
    if n == 0 then .ok [] 0
    else
      let k := min n (64 - va.toNat % 64)
      match s.readPiece d va k with
      | .bad code va detail => .bad code va detail
      | .wait s => .wait s
      | .ok bs t => match s.readPieces d (va + BitVec.ofNat 64 k) (n - k) fuel with
        | .bad code va detail => .bad code va detail
        | .wait s => .wait s
        | .ok bs' t' => .ok (bs ++ bs') (tmax t t')

/-- A read of a structure of up to 576 bytes. -/
def State.belfryRead (s : State) (d : Nat) (va : Dword) (n : Nat) : DevRead := s.readPieces d va n 10

/-- What the owners of a range's lines answered to the device's own requests is used up. -/
def State.forget (s : State) (d : Nat) (va : Dword) (n : Nat) : State :=
  s.useUp (((s.rangeLines d va n wantLoad).getD []).map (·.1))

/-- What the TLB holds after a read of `n` bytes. -/
def State.noteRead (s : State) (d : Nat) (va : Dword) (n : Nat) : State := (s.forget d va n).learn d va wantLoad

/-- A little-endian field of a structure. -/
def fieldAt (bs : List Byte) (off n : Nat) : Nat := leValue ((bs.drop off).take n)

/-- A record of the Belfry that is no LAUNCH: a structure could not be read (R317, R407). -/
def State.raiseBelfry (s : State) (queue slot domain : Nat) (code : Byte) (va detail : Dword) : State :=
  ({ s with nextId := s.nextId + 1 } : State).raise { launchRecord s.nextId queue slot domain 0 va none none 0 with code := code, detail := detail }

/-- A structure of a queue cannot be read: the queue stops, with a record unless it is a retry (R317, R407). -/
def State.queueFault (s : State) (queue slot : Nat) (code : Byte) (va detail : Dword) (quiet : Bool) : State :=
  match s.belfry.queues.look queue with
  | none => s
  | some q =>
    let s := (s.forget q.domain va 1).onQueue queue fun q => { q with stop := .fault }
    if quiet then s
    else
      let s := if code == faultData then s.logBadAt q.domain va else s
      s.raiseBelfry queue slot q.domain (if code == faultData then faultData else faultPage) va detail

/-! ### The queue-state cache (R317, R318) -/

/-- A queue leaves the cache: its read index is written back, and its fetched packets go. -/
def State.uncache (s : State) (queue : Nat) : State :=
  match s.belfry.queues.look queue with
  | none => s
  | some q => (s.onQueue queue fun q => { q with cached := false, packets := [], fetch := q.readIndex }).owe [⟨queue, q.domain, .store (q.descriptor + 24) (leBytes 8 q.readIndex)⟩]

/-- No packet of the queue has gone beyond Parse: it has none in Dependence, Arbitration or Placement (R312, R317). -/
def Queue.replaceable (q : Queue) : Bool := q.packets.all fun p => !p.parsed

/-- Queues that the cache holds (R1). -/
def cacheSize : Nat := 4096

/-- A full cache replaces the least recently used queue that it may replace (R317). Nothing where it may replace none: the
further queue is then not cached, and the Belfry finds it at a later reread (DESIGN CHOICE, LOG 123). -/
def State.makeRoom (s : State) : Option State :=
  let cached := s.belfry.queues.filter fun e => e.2.cached
  if cached.length < cacheSize then some s
  else ((cached.filter fun e => e.2.replaceable).foldl (fun (a : Option (Nat × Queue)) e => match a with
      | none => some e
      | some b => if e.2.used < b.2.used then some e else some b) none).map fun e => s.uncache e.1

/-- A descriptor can be used (R317). -/
def descriptorOk (bs : List Byte) : Bool :=
  let size := fieldAt bs 8 1
  4 ≤ size && size ≤ 16 && fieldAt bs 0 8 % 128 == 0 && fieldAt bs 9 1 == 0 && fieldAt bs 10 2 / 2 == 0 && fieldAt bs 12 4 == 0 && fieldAt bs 40 24 == 0

/-- The cache takes the fields of a descriptor (R318). -/
def Queue.adopt (q : Queue) (bs : List Byte) : Queue :=
  { q with cached := true, ring := BitVec.ofNat 64 (fieldAt bs 0 8), size := fieldAt bs 8 1, serial := fieldAt bs 10 2 % 2 == 1, readIndex := fieldAt bs 24 8, fetch := fieldAt bs 24 8, completed := fieldAt bs 32 8 }

/-! ### Fetching (R317) -/

/-- Wait entries of a slot; entry 0 is the record's wait barrier (R315). -/
def slotWaits (bs : List Byte) : List WaitEntry :=
  let w (va gen : Nat) : WaitEntry := { va := BitVec.ofNat 64 va, gen := BitVec.ofNat 32 gen, satisfied := false, registered := false }
  [w (fieldAt bs (if fieldAt bs 64 1 == 2 then 32 else 48) 8) (fieldAt bs 68 4), w (fieldAt bs 72 8) (fieldAt bs 80 4), w (fieldAt bs 88 8) (fieldAt bs 96 4)]

/-- Fetch the slots that are written, at most 4 ahead of the head; false when a read failed. -/
def State.fetchSlots (s : State) (queue write : Nat) (quiet : Bool) (fuel : Nat) : State × Bool :=
  match fuel with
  | 0 => (s, true)
  | fuel + 1 =>
    match s.belfry.queues.look queue with
    | none => (s, true)
    | some q =>
      if write ≤ q.fetch || q.readIndex + 4 < q.fetch then (s, true)
      else
        let va := q.ring + BitVec.ofNat 64 (128 * (q.fetch % 2 ^ q.size))
        match s.belfryRead q.domain va 128 with
        | .bad code va detail => (s.queueFault queue q.fetch code va detail quiet, false)
        | .wait s => (s, false)
        | .ok bs wts =>
          if fieldAt bs 64 1 == 0 then (s, true)
          else
            let p : Packet := { slot := q.fetch, raw := bs, parsed := false, work := none, prev := fieldAt bs 66 2 % 2 == 1, waits := slotWaits bs, start := tmax wts ((s.carried queue q.fetch).getD 0), ready := none, blocked := none, launch := none }
            ((s.noteRead q.domain va 128).onQueue queue fun q => { q with packets := q.packets ++ [p], fetch := q.fetch + 1 }).fetchSlots queue write quiet fuel

/-! ### Wait entries (R320, R321) -/

/-- G has reached g: (G − g) mod 2^32 < 2^31. -/
def reached (G g : Nat) : Bool := (G + 2 ^ 32 - g) % 2 ^ 32 < 2 ^ 31

def State.onHead (s : State) (queue : Nat) (f : Packet → Packet) : State :=
  s.onQueue queue fun q => { q with packets := match q.packets with | p :: rest => f p :: rest | [] => [] }

def Packet.setWait (p : Packet) (k : Nat) (w : WaitEntry) : Packet := { p with waits := setNth p.waits k w }

/-- The waiter head of a record names the Belfry's list, and flags[0] is set (R321). The list's address is free (LOG 3). A record
of a peer is registered by no store: its home is the peer's, and the rereads of R320 find its steps (LOG 126). -/
def State.registerWaiter (s : State) (queue k pa : Nat) (bs : List Byte) : State :=
  let line := pa / 64
  let h := s.homeView line
  let list := let v := Config.freeWord s.fresh; if v == 0 then 1 else v
  let s := { s with fresh := s.fresh + 1, belfry := { s.belfry with waiters := s.belfry.waiters ++ [(pa, queue, k)] } }
  if fieldAt bs 16 8 != 0 || linePeer line then s
  else
    let d := lineWith (pa % 64 + 16) 8 list.toNat ||| lineWith (pa % 64 + 28) 1 (fieldAt bs 28 1 ||| 1)
    s.setHome line (h.write 0 d (byteMask (pa % 64 + 16) 8 ||| byteMask (pa % 64 + 28) 1))

/-- Read the generation of a wait entry of the head; an entry that is not satisfied is registered. False when the read
failed. -/
def State.checkWait (s : State) (queue k : Nat) (quiet : Bool) : State × Bool :=
  match s.belfry.queues.look queue with
  | none => (s, true)
  | some q =>
    match q.packets.head?, q.packets.head?.bind fun p => p.waits[k]? with
    | some p, some w =>
      if w.va == 0 || w.satisfied then (s, true)
      else match s.belfryRead q.domain w.va 32, s.trans q.domain w.va wantLoad with
        | .ok bs wts, .ok pa near =>
          let s := s.noteRead q.domain w.va 32
          if reached (fieldAt bs 24 4) w.gen.toNat then
            let s := s.onHead queue fun p => { p.setWait k { w with satisfied := true } with start := tmax p.start wts }
            ({ s with belfry := { s.belfry with waiters := s.belfry.waiters.filter fun x => !(x.2.1 == queue && x.2.2 == k) } }, true)
          else if w.registered then (s, true)
          else if lineRemote (pa / 64) && !linePeer (pa / 64) && !near && !s.owns (pa / 64) then (s.bring (pa / 64) true false, true)
          else ((s.registerWaiter queue k pa bs).onHead queue fun p => p.setWait k { w with registered := true }, true)
        | .bad code va detail, _ => ((s.queueFault queue p.slot code va detail quiet).onQueue queue fun q => { q with stop := .waitFault }, false)
        | .wait s, _ => (s, false)
        | _, _ => (s, true)
    | _, _ => (s, true)

def State.checkWaits (s : State) (queue : Nat) (quiet : Bool) : State × Bool :=
  [0, 1, 2].foldl (fun a k => if a.2 then a.1.checkWait queue k quiet else a) (s, true)

/-! ### Refusal (R326) -/

/-- A packet that is refused, as a launch with no block: it completes when its record is delivered (R326, R349). -/
def refusedLaunch (queue slot domain : Nat) (done : Dword) (start : Time) : Launch :=
  let r : LaunchRec := { code := 0, gridx := 0, gridy := 0, gridz := 0, groups := 1, cohort := 1, regs := 16, scratch := 0, catalogue := 0, carve := 0, lease := 0, arg := 0, done := done, wait := 0, domain := domain, priority := 0, stack := false, sys := false, extent := 0 }
  { queue := queue, slot := slot, record := r, start := start, cohorts := 0, placed := 0, blocksLeft := 0, priority := 0, ready := 0, rmax := start, wmax := start, terminating := true }

/-- The completion barrier field of a packet. -/
def Packet.done (p : Packet) : Dword :=
  match fieldAt p.raw 64 1 with
  | 1 => BitVec.ofNat 64 (fieldAt p.raw 40 8)
  | 2 => BitVec.ofNat 64 (fieldAt p.raw 24 8)
  | _ => 0

/-- The head of a queue is refused: it is dispatched, a LAUNCH record names the check, and completed rises (R326). -/
def State.refuse (s : State) (queue cause : Nat) (va : Dword) : State :=
  match s.belfry.queues.look queue with
  | none => s
  | some q => match q.packets with
    | [] => s
    | p :: _ =>
      let s := s.dispatchHead queue
      let id := s.nextId
      let s := { s with nextId := id + 1, belfry := { s.belfry with launches := s.belfry.launches.put id { refusedLaunch queue p.slot q.domain p.done p.start with prev := p.prev }, waiters := s.belfry.waiters.filter fun x => x.2.1 != queue } }
      s.raiseLaunch queue p.slot q.domain cause va (some id) none 0

/-! ### Checks (R200, R255, R325, R419) -/

def launchRec (b : List Byte) : LaunchRec :=
  { code := BitVec.ofNat 64 (fieldAt b 0 8), gridx := fieldAt b 8 4, gridy := fieldAt b 12 4, gridz := fieldAt b 16 4, groups := fieldAt b 20 1, cohort := fieldAt b 21 1, regs := fieldAt b 22 2, scratch := fieldAt b 24 2, catalogue := fieldAt b 26 2, carve := fieldAt b 28 2, lease := fieldAt b 30 2, arg := BitVec.ofNat 64 (fieldAt b 32 8), done := BitVec.ofNat 64 (fieldAt b 40 8), wait := BitVec.ofNat 64 (fieldAt b 48 8), domain := fieldAt b 56 1, priority := fieldAt b 57 1, stack := fieldAt b 58 2 % 2 == 1, sys := fieldAt b 58 2 / 2 % 2 == 1, extent := fieldAt b 60 4 }

def regionRec (b : List Byte) (outputs : List (Nat × Nat)) : RegionRec :=
  { image := BitVec.ofNat 64 (fieldAt b 0 8), cols := fieldAt b 8 1, rows := fieldAt b 9 1, dies := BitVec.ofNat 16 (fieldAt b 10 2), timeout := fieldAt b 12 4, arg := BitVec.ofNat 64 (fieldAt b 16 8), done := BitVec.ofNat 64 (fieldAt b 24 8), wait := BitVec.ofNat 64 (fieldAt b 32 8), ranges := BitVec.ofNat 64 (fieldAt b 40 8), domain := fieldAt b 48 1, priority := fieldAt b 49 1, sys := fieldAt b 50 2 % 2 == 1, outputs := outputs }

/-- A check: its cause, whether it fails, and the address it names. -/
abbrev Check := Nat × Bool × Dword

def badBarrier (va : Dword) : Bool := va != 0 && va.toNat % 32 != 0

/-- The checks of a launch record (R200). -/
def LaunchRec.checks (r : LaunchRec) (flags : Nat) (lantern : Bool) : List Check :=
  [ (1, r.code.toNat % 8 != 0, 0),
    (2, r.code.toNat / 2 ^ 57 != 0, 0),
    (3, r.groups == 0 || 32 < r.groups, 0),
    (4, r.cohort == 0 || 16 < r.cohort, 0),
    (5, r.regs % 16 != 0 || r.regs < 16 || 256 < r.regs, 0),
    (6, 64 < (r.groups + 3) / 4 * r.regs / 16, 0),
    (7, !([0, 384, 512, 768, 1024, 1536].contains r.carve), 0),
    (8, if r.carve == 0 then 1664 < r.scratch else 2048 < r.scratch + r.carve, 0),
    (9, 512 < r.catalogue, 0),
    (10, r.scratch < r.catalogue, 0),
    (11, r.lease != 0 && (r.lease < 16 || 1024 < r.lease), 0),
    (12, badBarrier r.done, 0),
    (13, badBarrier r.wait, 0),
    (14, 3 < r.priority, 0),
    (15, flags % 2 == 1 && !lantern, 0),
    (16, flags / 4 != 0, 0),
    (17, 2 ^ 32 < r.gridx * r.gridy * r.gridz, 0),
    (18, 32 * r.groups * r.gridx < r.extent, 0) ]

/-- The checks of a region record's own fields (R255). -/
def RegionRec.checks (r : RegionRec) (flags reserved : Nat) : List Check :=
  [ (32, r.image.toNat % 64 != 0, 0),
    (33, r.cols == 0 || 8 < r.cols, 0),
    (34, r.rows == 0 || 8 < r.rows, 0),
    (35, r.dies == 0, 0),
    (36, r.timeout != 0 && (r.timeout < 10 || 1000 < r.timeout), 0),
    (37, badBarrier r.done, 0),
    (38, badBarrier r.wait, 0),
    (39, 63 < r.domain, 0),
    (40, 3 < r.priority, 0),
    (41, flags / 2 != 0 || reserved != 0, 0) ]

/-- The words of a range table. -/
def tableWords (bs : List Byte) : List Dword := (List.range 64).map fun i => BitVec.ofNat 64 (fieldAt bs (8 * i) 8)

/-- The first entry of a range table that is out of form (R187). -/
def badRange (ws : List Dword) : Option Nat :=
  (List.range 32).find? fun i =>
    let va := ((ws[2 * i]?).getD 0).toNat
    let len := ((ws[2 * i + 1]?).getD 0).toNat
    len != 0 && (va % 64 != 0 || len % 64 != 0)

/-- The checks of what a region record points at: its range table and its image header (R187, R255). The output ranges are
entries 16 to 31. -/
def State.regionChecks (s : State) (r : RegionRec) : List Check × List (Nat × Nat) :=
  let table : List Check × List (Nat × Nat) :=
    if r.ranges == 0 then ([], [])
    else if r.ranges.toNat % 64 != 0 then ([(42, true, r.ranges)], [])
    else match s.belfryRead r.domain r.ranges 512 with
      | .bad _ va _ => ([(43, true, va)], [])
      | .wait _ => ([], [])
      | .ok bs _ =>
        let ws := tableWords bs
        match badRange ws with
        | some i => ([(42, true, r.ranges + BitVec.ofNat 64 (16 * i))], [])
        | none => ([], (List.range 16).map fun i => (((ws[32 + 2 * i]?).getD 0).toNat, ((ws[33 + 2 * i]?).getD 0).toNat))
  let dies := ((List.range 16).filter fun i => r.dies.getLsbD i).length
  let header : List Check := match s.belfryRead r.domain r.image 32 with
    | .bad _ va _ => [(44, true, va)]
    | .wait _ => []
    | .ok bs _ => [(45, fieldAt bs 0 4 != 0x47584E41 || fieldAt bs 4 2 != 1 || fieldAt bs 6 1 != r.cols || fieldAt bs 7 1 != r.rows || fieldAt bs 8 1 != dies, r.image)]
  (table.1 ++ header, table.2)

/-- Parse waits for lines of the range table or of the image header that the host or a peer holds. -/
def State.parseWait (s : State) (p : Packet) : Option State :=
  if fieldAt p.raw 64 1 != 2 then none
  else
    let r := regionRec p.raw []
    match if r.ranges == 0 || r.ranges.toNat % 64 != 0 then DevRead.ok [] 0 else s.belfryRead r.domain r.ranges 512, s.belfryRead r.domain r.image 32 with
    | .wait s, _ => some s
    | _, .wait s => some s
    | _, _ => none

/-- What the owners of the lines that Parse has read answered is used up. -/
def State.parseDone (s : State) (p : Packet) : State :=
  if fieldAt p.raw 64 1 != 2 then s
  else let r := regionRec p.raw []; (s.forget r.domain r.ranges 512).forget r.domain r.image 32

/-- The checks of the packet itself and of what the device can place (R315, R318, R325, R327, R350, R351). -/
def State.packetChecks (s : State) (q : Queue) (p : Packet) (domain : Nat) : List Check :=
  let b := p.raw
  [ (64, domain != q.domain, 0),
    (65, 2 < fieldAt b 64 1, 0),
    (66, fieldAt b 65 1 != 0 || fieldAt b 66 2 / 2 != 0 || fieldAt b 84 4 != 0 || fieldAt b 100 28 != 0, 0),
    (67, (fieldAt b 72 8) % 32 != 0 || (fieldAt b 88 8) % 32 != 0, 0),
    (72, (s.domain q.domain).state == .quarantined, 0),
    (73, q.doomed.contains p.slot, 0) ]

/-- A region's mask names a retired die (R325). -/
def State.namesRetired (s : State) (r : RegionRec) : Bool := (List.range 16).any fun i => r.dies.getLsbD i && s.dieRetired i

/-- The failed check with the lowest cause (R419). -/
def lowestCheck (cs : List Check) : Option (Nat × Dword) :=
  (cs.filter fun c => c.2.1).foldl (fun a c => match a with
    | none => some (c.1, c.2.2)
    | some b => if c.1 < b.1 then some (c.1, c.2.2) else some b) none

/-- What Parse finds: the failed check, or the work of the packet. -/
def State.parsePacket (s : State) (q : Queue) (p : Packet) : (Nat × Dword) ⊕ Work :=
  let b := p.raw
  if fieldAt b 64 1 == 1 then
    let r := launchRec b
    let own := r.checks (fieldAt b 58 2) (Config.lanternSubmitted q.descriptor.toNat p.slot)
    let size := match r.cohort with | 0 => 0 | _ => min r.cohort r.blocks
    let fit : List Check := [(68, size != 0 && !s.cohortFits r size, 0)]
    match lowestCheck (own ++ s.packetChecks q p r.domain ++ if (lowestCheck own).isNone then fit else []) with
    | some c => .inl c
    | none => .inr (.launch r)
  else if fieldAt b 64 1 == 2 then
    let r := regionRec b []
    let own := r.checks (fieldAt b 50 2) (fieldAt b 52 12)
    let more := s.regionChecks r
    let place : List Check :=
      [ (70, s.namesRetired r, 0),
        (71, (List.range 16).any fun i => r.dies.getLsbD i && s.quota r.domain i < r.cols * r.rows, 0) ]
    match lowestCheck (own ++ more.1 ++ place ++ s.packetChecks q p r.domain) with
    | some c => .inl c
    | none => .inr (.region { r with outputs := more.2 })
  else match lowestCheck (s.packetChecks q p q.domain) with
    | some c => .inl c
    | none => .inl (65, 0)

/-! ### The head (R319, R320, R322) -/

/-- A zero-block launch completes in place of placement (R322). -/
def State.completeEmpty (s : State) (queue : Nat) (p : Packet) (done : Dword) : State :=
  match s.belfry.queues.look queue with
  | none => s
  | some q => (s.dispatchHead queue).completePacket queue p.slot q.domain done (tmax p.start s.floor) []

/-- The head becomes ready when its wait entries are satisfied and, with PREV or SERIAL, the previous packet has
completed (R319). -/
def State.tryReady (s : State) (queue : Nat) : State :=
  match s.belfry.queues.look queue with
  | none => s
  | some q => match q.packets with
    | [] => s
    | p :: _ =>
      let waits := p.waits.any (fun w => w.va != 0 && !w.satisfied) || ((p.prev || q.serial) && p.slot != 0 && q.open_.contains (p.slot - 1))
      if p.ready.isSome || !p.parsed || q.stop != .running || waits then s
      else match p.work with
        | none => s
        | some (.launch r) => if r.blocks == 0 then s.completeEmpty queue p r.done else (s.onHead queue fun p => { p with ready := some s.now }).markBlocked
        | some (.region _) => (s.onHead queue fun p => { p with ready := some s.now }).markBlocked

/-- The read of a wait entry that stopped the queue is tried again, with no further record (R317, R320). -/
def State.retryWaits (s : State) (queue : Nat) : State :=
  let r := match s.headOf queue with
    | some p => if p.launch.isSome then (s, true) else s.checkWaits queue true
    | none => (s, true)
  if r.2 then r.1.onQueue queue fun q => { q with stop := .running } else r.1

/-- One pass of the Belfry over a queue: its descriptor and its slots (R317). A queue that has left the cache is read again
once its read index has been written back (R318). -/
def State.queuePass (s : State) (queue : Nat) : State :=
  match s.belfry.queues.look queue with
  | none => s
  | some q =>
    let quiet := q.stop == .fault
    let writing := !q.cached && s.belfry.owed.any fun o => o.queue == queue
    if q.descriptor == 0 || writing then s
    else if q.stop == .waitFault && !q.packets.isEmpty then s.retryWaits queue
    else match s.belfryRead q.domain q.descriptor 64 with
      | .bad code va detail => s.queueFault queue q.fetch code va detail quiet
      | .wait s => s
      | .ok bs _ =>
        let s := s.noteRead q.domain q.descriptor 64
        if !q.cached && !descriptorOk bs then
          let s := s.onQueue queue fun q => { q with stop := .badDescriptor }
          if q.stop == .badDescriptor then s else s.raiseLaunch queue q.fetch q.domain 74 q.descriptor none none 0
        else match if q.cached then some s else s.makeRoom.map fun s => s.onQueue queue fun q => q.adopt bs with
          | none => s
          | some s =>
            let s := s.onQueue queue fun q => { q with used := s.now }
            let r := s.fetchSlots queue (fieldAt bs 16 8) quiet 6
            if r.2 then r.1.onQueue queue fun q => { q with stop := .running } else r.1

/-- Whether a queue is one that runs. -/
def State.queueRuns (s : State) (queue : Nat) : Bool :=
  match s.belfry.queues.look queue with | some q => q.stop == .running | none => false

/-- The descriptor and the slot to be fetched next send notices: neither lies in host memory (R371). -/
def State.noticed (s : State) (queue : Nat) : Bool :=
  match s.belfry.queues.look queue with
  | none => false
  | some q =>
    let local_ (va : Dword) : Bool := match s.trans q.domain va wantLoad with | .ok pa _ => paTarget pa != .host | .bad _ _ => true
    local_ q.descriptor && (!q.cached || local_ (q.ring + BitVec.ofNat 64 (128 * (q.fetch % 2 ^ q.size))))

/-- BELFRY_NOTICE: a store to the write-index line or to a slot line notifies the Belfry, which fetches what is written
(R316, R317). -/
def execBelfryNotice (queue : Nat) (s : State) : Res :=
  if s.queueRuns queue && s.noticed queue then .next (s.queuePass queue) else .next s

/-- SLOT_REREAD: at least every 10 µs the Belfry reads again (R317). -/
def execSlotReread (queue : Nat) (s : State) : Res := if s.queueRuns queue then .next (s.queuePass queue) else .next s

/-- QUEUE_FAULT_RETRY: a stopped queue is tried again at least every 10 µs (R317). -/
def execQueueFaultRetry (queue : Nat) (s : State) : Res := if s.queueRuns queue then .next s else .next (s.queuePass queue)

/-- QUEUE_RESTART: a store to the descriptor line of a stopped queue (R317). -/
def execQueueRestart (queue : Nat) (s : State) : Res :=
  if s.queueRuns queue || !s.noticed queue then .next s else .next (s.queuePass queue)

/-- A packet is the head of its queue. -/
def Queue.isHead (q : Queue) (p : Packet) : Bool := q.packets.head?.map (·.slot) == some p.slot

/-- The packet that Parse takes next: the first that is not parsed, but one behind the head that is to be refused when it is
the head does not hold up those behind it (R319, R326). -/
def State.toParse (s : State) (q : Queue) : Option Packet :=
  q.packets.find? fun p => !p.parsed && (q.isHead p || (s.parseWait p).isSome || (match s.parsePacket q p with | .inr _ => true | .inl _ => false))

/-- PARSE: the next packet that is not parsed is checked; a head that fails is refused, a later one when it is the head
(R200, R255, R325, R326). -/
def execParse (queue : Nat) (s : State) : Res :=
  match s.belfry.queues.look queue with
  | none => .next s
  | some q =>
    match s.toParse q with
    | none => .next s
    | some p => match s.parseWait p with
      | some s => .next s
      | none => match s.parsePacket q p with
        | .inr w => .next ((s.parseDone p).onQueue queue fun q => { q with packets := q.packets.map fun x => if x.slot == p.slot then { x with parsed := true, work := some w } else x })
        | .inl (cause, va) => .next ((s.parseDone p).refuse queue cause va)

/-- The head whose launch is terminated is dispatched; a launch with no block left then completes (R319, R349). -/
def State.dropEnded (s : State) (queue : Nat) (p : Packet) : State :=
  let s := s.dispatchHead queue
  match p.launch with
  | some l => s.tryLaunch l
  | none => s

/-- A region packet whose mask names a die that has been retired since it was parsed (R325, R392). -/
def State.lateRetired (s : State) (p : Packet) : Bool :=
  match p.work with
  | some (.region r) => s.namesRetired r
  | _ => false

/-- PACKET_HEAD: the head's waits are checked; the head of a quarantined domain is refused, and so is a region whose mask names
a die that stage 2 has retired meanwhile; the packet of a terminated launch counts as dispatched, in its turn (R319, R325,
R349-R351). -/
def execPacketHead (queue : Nat) (s : State) : Res :=
  match s.belfry.queues.look queue with
  | none => .next s
  | some q => match q.packets with
    | [] => .next s
    | p :: _ =>
      if !p.parsed || q.stop != .running then .next s
      else if s.ended p then .next (if q.prevOpen p then s else s.dropEnded queue p)
      else if p.launch.isNone && s.lateRetired p then .next (s.refuse queue 70 0)
      else if p.launch.isSome || p.ready.isSome then .next s
      else if (s.domain q.domain).state == .quarantined then .next (s.refuse queue 72 0)
      else
        let r := s.checkWaits queue false
        .next (if r.2 then r.1.tryReady queue else r.1)

/-- A wait entry of the head is read again. -/
def State.waitAgain (s : State) (queue entry : Nat) : State :=
  match (s.headOf queue).bind fun p => p.waits[entry]? with
  | some w =>
    if !w.registered || w.satisfied || !s.queueRuns queue then s
    else
      let r := s.checkWait queue entry false
      if r.2 then r.1.tryReady queue else r.1
  | none => s

/-- WAIT_NOTICE: a generation step notifies the Belfry of a waiter (R130, R320, R321). -/
def execWaitNotice (queue entry : Nat) (s : State) : Res :=
  if s.belfry.waiters.any fun x => x.2.1 == queue && x.2.2 == entry then .next (s.waitAgain queue entry) else .next s

/-- WAIT_REREAD: a wait barrier is read at least every 10 µs (R320). -/
def execWaitReread (queue entry : Nat) (s : State) : Res := .next (s.waitAgain queue entry)

/-- QUEUE_INSTALL: the management Curator installs or removes an entry of the queue table (R313, R399). -/
def execQueueInstall (queue descriptor domain : Nat) (remove : Bool) (s : State) : Res :=
  if !(s.boot == .stage1 || s.boot == .stage2) || 2 ^ 20 ≤ queue then .next s
  else if remove then .next (({ s with belfry := { s.belfry with queues := s.belfry.queues.del queue } } : State).forgetStarts fun q _ => q == queue).reportChanged
  else if descriptor == 0 || descriptor % 64 != 0 || 2 ^ 64 ≤ descriptor || 64 ≤ domain || (s.domain domain).state == .free || (s.boot == .stage1 && domain != 0) then .next s
  else
    let q : Queue := { descriptor := BitVec.ofNat 64 descriptor, domain := domain }
    .next ({ s with belfry := { s.belfry with queues := s.belfry.queues.put queue q } } : State).reportChanged

end Sys2Proof.Machine
end

