-- ==== Sys2Proof/Machine/Lantern.lean ====
section
/-! DEFINITION. The Lantern: delivery of fault records (R341-R344, R418), resolutions (R346-R348), terminations (R349-R351),
invalidations (R337, R338, R354) and the eviction of cohorts (R355-R358, R362). -/
namespace Sys2Proof.Machine

/-! ### Delivery (R341-R344, R369, R418) -/

/-- The 64 bytes of a record (R342). -/
def FaultRec.bytes (r : FaultRec) (seq : Word) : List Byte :=
  [r.code, r.source, r.flags, r.lane] ++ leBytes 4 r.queue ++ leBytes 8 r.slot ++ leBytes 8 r.where_.toNat ++ leBytes 8 r.va.toNat ++ leBytes 8 r.detail.toNat ++
  leBytes 2 r.core ++ leBytes 1 r.slotNo ++ leBytes 1 r.incarnation.toNat ++ leBytes 4 r.block ++ leBytes 8 0 ++ leBytes 4 seq.toNat ++ leBytes 4 0

/-- A fault queue descriptor within the limits of R341. -/
def faultQueueOk (va : Dword) (bs : List Byte) : Bool :=
  let size := fieldAt bs 8 1
  va.toNat % 64 == 0 && 4 ≤ size && size ≤ 16 && fieldAt bs 0 8 % 64 == 0 && fieldAt bs 9 7 == 0 && fieldAt bs 40 24 == 0

/-- What a delivery finds: the record is written at a physical address; a line of its queue has been asked of the host or the
peer that holds it; the queue is full; or it cannot be written. -/
inductive Delivery where
  | done (s : State) (pa : Nat)
  | wait (s : State)
  | full
  | undeliverable

/-- Write a record, raise the write index and step the notify barrier (R344). A notify barrier that cannot be stepped is
reported (R418). -/
def State.writeRecord (s : State) (r : FaultRec) : Delivery :=
  let d := s.domain r.domain
  let fq := d.faultQueue
  if fq == 0 then .undeliverable
  else match s.belfryRead r.domain fq 64, s.trans r.domain fq wantStore with
    | .wait s, _ => .wait s
    | .ok bs _, .ok _ _ =>
      if !faultQueueOk fq bs then .undeliverable
      else
        let w := fieldAt bs 16 8
        let size := 2 ^ fieldAt bs 8 1
        let slot := BitVec.ofNat 64 (fieldAt bs 0 8 + 64 * (w % size))
        if (w + 2 ^ 64 - fieldAt bs 24 8) % 2 ^ 64 == size then .full
        else match s.trans r.domain slot wantStore, s.storeAt r.domain slot (r.bytes d.faultSeq) 0 with
          | .ok pa _, .done s t => match s.storeAt r.domain (fq + 16) (leBytes 8 (w + 1)) t with
            | .bad _ => .undeliverable
            | .wait s => .wait s
            | .done s t =>
              let s := (s.forget r.domain fq 64).setDomain r.domain { d with faultSeq := d.faultSeq + 1 }
              let notify := BitVec.ofNat 64 (fieldAt bs 32 8)
              .done (if notify == 0 then s else s.signal r.domain notify t (some r.code)) pa
          | .ok _ _, .wait s => .wait s
          | _, _ => .undeliverable
    | _, _ => .undeliverable

/-- Two records come from one source, whose records arrive in order: the Belfry or the Lantern for one domain, a group or its
commissions, or one place of a region (R344). -/
def FaultRec.sameSource (a b : FaultRec) : Bool :=
  a.source == b.source && a.domain == b.domain &&
  (a.source == 3 || a.source == 5 || (a.launch == b.launch && a.region == b.region && a.group == b.group && (a.region.isNone || a.where_ == b.where_)))

/-- The launch or region of a record is over but for its records (R349, step 5). -/
def State.sourceOver (s : State) (r : FaultRec) : Bool :=
  (match r.launch with
    | some l => match s.belfry.launches.look l with
      | some x => x.terminating && x.blocksLeft == 0
      | none => true
    | none => false) ||
  match r.region with
    | some g => match s.annex.regions.look g with
      | some x => x.state == .failed
      | none => true
    | none => false

/-- A record that waits for a queue which cannot be written is discarded: its launch or region is over, or its domain is
quarantined (R418). -/
def State.discards (s : State) (r : FaultRec) : Bool := s.sourceOver r || (s.domain r.domain).state == .quarantined

/-- The held-back records of a launch or region for a domain are discarded, those that were not tried among them, and their
number is reported (R418). -/
def State.discardRecords (s : State) (r : FaultRec) : State :=
  let mine (x : FaultRec) : Bool := x.domain == r.domain && x.launch == r.launch && x.region == r.region
  let n := (s.faults.undelivered.filter mine).length
  let s := { s with faults := { s.faults with undelivered := s.faults.undelivered.filter fun x => !mine x } }
  s.serve 12 7 r.domain (r.code.setWidth 32) n

/-- What waited for a record to be delivered goes on (R344). -/
def State.afterRecord (s : State) (r : FaultRec) : State :=
  let s := match r.launch with | some l => s.tryLaunch l | none => s
  match r.region with | some g => s.tryRegion g | none => s

/-- Change a record that is not delivered. -/
def State.onRecord (s : State) (id : Nat) (f : FaultRec → FaultRec) : State :=
  { s with faults := { s.faults with undelivered := s.faults.undelivered.map fun x => if x.id == id then f x else x } }

/-- The launch that a core group's record terminates once it is written (R114, R345). -/
def FaultRec.fatalTo (r : FaultRec) : Option Nat := if r.source == 0 && r.flags.getLsbD 3 then r.launch else none

/-- Change every resident group. -/
def State.onResident (s : State) (f : Group → Group) : State := { s with groups := s.groups.map fun (e : Nat × Group) => (e.1, f e.2) }

/-- Change every group that is not resident: those of saved blocks, and those that R216 spilled. -/
def State.onAway (s : State) (f : Group → Group) : State :=
  let spill (c : Core) : Core := { c with spilled := c.spilled.map fun x => (x.1, f x.2) }
  { s with cores := s.cores.map fun (e : Nat × Core) => (e.1, spill e.2), faults := { s.faults with saves := s.faults.saves.map fun (x : Saved) => { x with groups := x.groups.map f } } }

/-- A group's suspension for a record takes the sequence number that the record was written with (R342, R363). -/
def Group.sequenced (g : Group) (id : Nat) (seq : Word) : Group :=
  { g with suspends := g.suspends.map fun x => if x.record == id then { x with seq := seq } else x }

/-- Try to deliver an undelivered record. -/
def State.tryDeliver (s : State) (index : Nat) : State :=
  match s.faults.undelivered[index]? with
  | none => s
  | some r =>
    if (s.faults.undelivered.take index).any fun x => x.sameSource r then s
    else match s.writeRecord r with
      | .done t pa =>
        let s := (t.onResident fun g => g.sequenced r.id (s.domain r.domain).faultSeq).onAway fun g => g.sequenced r.id (s.domain r.domain).faultSeq
        let s := { s with faults := { s.faults with undelivered := s.faults.undelivered.filter fun x => x.id != r.id, awaiting := if r.flags.getLsbD 0 && !s.sourceOver r then s.faults.awaiting ++ [({ record := r, pa := pa } : Await)] else s.faults.awaiting } }
        let s := if (s.domain r.domain).msix then { s with links := { s.links with raised := s.links.raised ++ [r.domain] } } else s
        (match r.fatalTo with | some l => (s.terminate l).reap l | none => s).afterRecord r
      | .wait s => s
      | .full => s.onRecord r.id fun x => { x with waiting := true }
      | .undeliverable =>
        let s := s.onRecord r.id fun x => { x with waiting := true, reported := true }
        let s := if r.reported then s else s.serve 12 7 r.domain (r.code.setWidth 32) 0
        if s.discards r then (s.discardRecords r).afterRecord r else s

/-- FAULT_DELIVER (R344). -/
def execFaultDeliver (index : Nat) (s : State) : Res := .next (s.tryDeliver index)
/-- FAULT_QUEUE_RETRY: a source that waits tries again (R344, R418). -/
def execFaultQueueRetry (index : Nat) (s : State) : Res := .next (s.tryDeliver index)

/-! ### Resolutions (R346-R348) -/

def FaultRec.deep (r : FaultRec) : Bool := r.flags.getLsbD 2
/-- A record of a suspended core group. -/
def FaultRec.ofGroup (r : FaultRec) : Bool := r.source == 0
/-- A record of a commission that is set aside. -/
def FaultRec.ofJob (r : FaultRec) : Bool := r.source == 4
def FaultRec.ofBrk (r : FaultRec) : Bool := r.code == faultWatch && r.detail == watchDetail 1 0

/-- A value of the resolution word is accepted for a record, with the resume VA beside it (R346, R348). -/
def FaultRec.accepts (r : FaultRec) (v va : Nat) : Bool :=
  match v with
  | 1 => r.code == faultStream || r.ofJob || (r.ofGroup && r.code == faultPage)
  | 2 => r.ofGroup && r.deep && r.code != faultPage && va % 8 == 0
  | 3 => r.ofGroup && r.deep
  | 4 => !r.deep
  | 5 => r.ofGroup && r.ofBrk
  | _ => false

/-- The resolution word of a record and its resume VA as its line holds them now. -/
def State.resolution (s : State) (a : Await) : Nat × Nat := (s.homeValue (a.pa + 60) 4, s.homeValue (a.pa + 48) 8)

/-- The first accepted value that is written acts, and later writes to the word are ignored: it is kept as soon as it stands
there (R346). -/
def State.latch (s : State) : State :=
  let one (a : Await) : Await :=
    let x := s.resolution a
    if a.choice.isNone && a.record.accepts x.1 x.2 then { a with choice := some x } else a
  if s.faults.awaiting.isEmpty then s else { s with faults := { s.faults with awaiting := s.faults.awaiting.map one } }

/-- The record that awaits a resolution, and the value that resolves it with the resume VA: the one kept, or what its line
holds now. -/
def State.awaited (s : State) (id : Nat) : Option (FaultRec × Nat × Nat) :=
  (s.faults.awaiting.find? fun a => a.record.id == id).map fun a => (a.record, a.choice.getD (s.resolution a))

/-- A resolution has been accepted. -/
def State.accepted (s : State) (id : Nat) : State :=
  { s with faults := { s.faults with awaiting := s.faults.awaiting.filter fun a => a.record.id != id } }

/-- Change the group that is suspended for a record, wherever it is: resident, spilled or saved (R216, R358). A group of a
launch that is being terminated ends without a resolution (R349). -/
def State.onSuspended (s : State) (id : Nat) (f : Group → Suspend → Group) : State :=
  let one (g : Group) : Group := match if g.stopping == .terminate then none else g.suspends.find? fun x => x.record == id with
    | some x => f { g with suspends := g.suspends.filter fun y => y.record != id } x
    | none => g
  (s.onResident one).onAway one

/-- A commission that was set aside goes on, resident or saved (R139, R357). -/
def State.replayJob (s : State) (id : Nat) : State :=
  let one (j : Job) : Job := if j.aside == some id then { j with aside := none } else j
  let jobs := s.jobs.map fun (e : Nat × Job) => (e.1, one e.2)
  let saves := s.faults.saves.map fun (x : Saved) => { x with jobs := x.jobs.map one }
  { s with jobs := jobs, faults := { s.faults with saves := saves } }

/-- A STREAM record is resolved with 1 (R353), in a draining region as in a running one, since its write streams keep performing
(R360). -/
def State.replayStream (s : State) (id : Nat) (r : FaultRec) : State :=
  match r.region, r.port with
  | some region, some key =>
    let s := s.onRegion region fun g => { g with pending := g.pending.filter (· != id) }
    match s.annex.regions.look region with
    | none => s
    | some g =>
      if g.state == .checkpointed then if g.pending.isEmpty then s.onRegion region fun g => { g with ready := s.now } else s
      else match s.annex.ports.look key with
        | none => s
        | some p => match p.withheld == some id, p.wants, p.inst.bind fun i => s.annex.insts.look i with
          | true, some va, some n => if n.state == .running || n.state == .draining then s.portTranslate key { p with withheld := none } n va else s
          | _, _, _ => s
  | _, _ => s

/-- RESOLUTION_REPLAY: value 1, for a PAGE, a set-aside commission and a STREAM record (R346, R347, R353, R357). -/
def execResolutionReplay (id : Nat) (s : State) : Res :=
  match s.awaited id with
  | some (r, 1, _) =>
    if r.code == faultStream then .next ((s.accepted id).replayStream id r)
    else if r.ofJob then .next ((s.accepted id).replayJob id)
    else if r.ofGroup && r.code == faultPage then
      .next ((s.accepted id).onSuspended id fun g x => g.onStrand x.entry fun st => { st with wait := .ready, replay := if x.lanes == 0 then none else some x.lanes })
    else .next s
  | _ => .next s

/-- RESOLUTION_RESUME: value 2, for a suspend at depth 1 or 2 other than PAGE; the resume VA is a multiple of 8 (R346,
R348). -/
def execResolutionResume (id : Nat) (s : State) : Res :=
  match s.awaited id with
  | some (r, 2, va) =>
    if r.ofGroup && r.deep && r.code != faultPage && va % 8 == 0 then
      .next ((s.accepted id).onSuspended id fun g x => if x.late then g else g.onStrand x.entry fun st => st.goto (BitVec.ofNat 64 va))
    else .next s
  | _ => .next s

/-- A saved group's innermost frame is aborted. -/
def Group.abortSaved (g : Group) : Group :=
  match g.frames with
  | [] => g
  | fr :: _ => let g' := g.leave fr true; { g' with saveList := fr.records ++ g'.saveList }

/-- The innermost frame of the group that is suspended for a record is aborted, as by `gabort`: once the callee's loads and
near-memory operations are done (R158, R159, R348). Nothing while they are not. Where the frame has been left before the fault
was found, the suspension just ends (LOG 141). -/
def State.abortFor (s : State) (id : Nat) : Option State :=
  let has (g : Group) : Bool := g.stopping != .terminate && g.suspends.any fun x => x.record == id
  let late (g : Group) : Bool := g.suspends.any fun x => x.record == id && x.late
  if s.groups.any fun e => has e.2 && late e.2 then some (s.onSuspended id fun g _ => g)
  else match s.groups.find? fun e => has e.2 with
  | some (key, g) => if g.mayLeave then some (s.leaveFrame key true) else none
  | none => some (s.onAway fun g => if has g then (if late g then { g with suspends := g.suspends.filter fun y => y.record != id } else g.abortSaved) else g)

/-- RESOLUTION_ABORT: value 3, for every suspend at depth 1 or 2 (R346, R348). -/
def execResolutionAbort (id : Nat) (s : State) : Res :=
  match s.awaited id with
  | some (r, 3, _) => if r.ofGroup && r.deep then (match (s.accepted id).abortFor id with | some t => .next t | none => .next s) else .next s
  | _ => .next s

/-- RESOLUTION_TERMINATE: value 4, for every suspend at depth 0, a set-aside commission and a STREAM record (R346). -/
def execResolutionTerminate (id : Nat) (s : State) : Res :=
  match s.awaited id with
  | some (r, 4, _) =>
    if r.deep then .next s
    else match r.launch, r.region with
      | some l, _ => .next (((s.accepted id).terminate l).reap l)
      | none, some g => .next ((s.accepted id).endRegion g .failed)
      | none, none => .next s
  | _ => .next s

/-- RESOLUTION_CONTINUE: value 5, after `brk` (R346). -/
def execResolutionContinue (id : Nat) (s : State) : Res :=
  match s.awaited id with
  | some (r, 5, _) =>
    if r.ofGroup && r.ofBrk then .next ((s.accepted id).onSuspended id fun g x => g.onStrand x.entry fun st => st.goto (st.pc + 8)) else .next s
  | _ => .next s

/-! ### Termination by request, quarantine (R350, R351) -/

/-- The record of a termination by request (R351). -/
def State.raiseRequested (s : State) (queue slot domain : Nat) (launch region : Option Nat) : State :=
  let r := { launchRecord s.nextId queue slot domain 0 0 launch region 8 with code := faultWatch, source := 5, detail := watchDetail 6 0 }
  ({ s with nextId := s.nextId + 1 } : State).raise r

def Requester.may (s : State) (r : Requester) (d : Nat) : Bool :=
  match r with
  | .host => true
  | .domain x => x == d || x == (s.domain d).manager

/-- A packet that has passed Parse and is not placed yet is terminated: its record is raised, and it becomes a launch with
no block, which completes in its turn; the output ranges of a region are retired (R349, R351; LOG 107). -/
def State.withdraw (s : State) (queue : Nat) (q : Queue) (p : Packet) : State :=
  let r := match p.work with
    | some (.region r) => s.retireOutputs q.domain r.outputs
    | _ => (s, 0)
  let id := r.1.nextId
  let s : State := { r.1 with nextId := id + 1, belfry := { r.1.belfry with launches := r.1.belfry.launches.put id { refusedLaunch queue p.slot q.domain p.done (tmax p.start r.2) with prev := p.prev } } }
  let s := s.onQueue queue fun q => { q with packets := q.packets.map fun x => if x.slot == p.slot then { x with launch := some id } else x }
  let head := match q.packets with | h :: _ => h.slot == p.slot | [] => false
  let s : State := if head then { s with belfry := { s.belfry with waiters := s.belfry.waiters.filter fun x => x.2.1 != queue } } else s
  s.raiseRequested queue p.slot q.domain (some id) none

/-- TERMINATION_REQUEST (R351). -/
def execTerminationRequest (who : Requester) (queue slot : Nat) (s : State) : Res :=
  match s.belfry.queues.look queue with
  | none => .next s
  | some q =>
    if !Requester.may s who q.domain then .next s
    else match s.belfry.launches.find? fun e => e.2.queue == queue && e.2.slot == slot with
      | some (id, l) => if l.terminating then .next s else .next (((s.raiseRequested queue slot q.domain (some id) none).terminate id).reap id)
      | none => match s.annex.regions.find? fun e => e.2.queue == queue && e.2.slot == slot with
        | some (id, g) => if g.state == .completed || g.state == .failed || g.state == .released then .next s else .next ((s.raiseRequested queue slot q.domain none (some id)).endRegion id .failed)
        | none =>
          if slot < q.readIndex then .next s
          else match q.packets.find? fun p => p.slot == slot && p.parsed with
            | some p => .next (if p.launch.isSome then s else s.withdraw queue q p)
            | none => .next (s.onQueue queue fun q => { q with doomed := slot :: q.doomed })

/-- The packets fetched for a queue are refused, each as it becomes the head (R350). -/
def State.refuseAll (s : State) (queue fuel : Nat) : State :=
  match fuel with
  | 0 => s
  | fuel + 1 => match s.headOf queue with
    | none => s
    | some p =>
      if s.ended p then (s.dropEnded queue p).refuseAll queue fuel
      else if p.launch.isSome then s
      else (s.refuse queue 72 0).refuseAll queue fuel

/-- Frames into a domain are aborted in every group, resident, spilled or saved (R159, R350). -/
def State.abortInto (s : State) (d : Nat) : State :=
  let one (g : Group) : Group :=
    let g := if g.frames.any fun f => f.callee == d then g.abortSaved else g
    if g.frames.any fun f => f.callee == d then g.abortSaved else g
  ((s.groups.map (·.1)).foldl (fun s k => s.abortFramesOf k d) s).onAway one

/-- QUARANTINE: at the request of the domain's manager or of the host its packets are refused, its launches terminated, its
regions Failed, and every frame into it aborted (R350, R399). -/
def execQuarantine (who : Requester) (d : Nat) (s : State) : Res :=
  let allowed := match who with | .host => true | .domain x => x == (s.domain d).manager
  if !allowed || (s.domain d).state != .active then .next s
  else
    let s := s.setDomain d { s.domain d with state := .quarantined }
    let ls := (s.belfry.launches.filter fun e => e.2.record.domain == d && !e.2.terminating).map (·.1)
    let s := ls.foldl (fun s l => (s.terminate l).reap l) s
    let s := s.abortInto d
    let rs := (s.annex.regions.filter fun e => e.2.record.domain == d).map (·.1)
    let s := rs.foldl (fun s r => s.endRegion r .failed) s
    let qs := (s.belfry.queues.filter fun e => e.2.domain == d).map (·.1)
    .next (qs.foldl (fun s q => s.refuseAll q 6) s).reportChanged

/-! ### Invalidation (R336-R338, R354) -/

/-- An address lies in the range of a request. -/
def InvRequest.coversVa (r : InvRequest) (va size : Nat) : Bool := r.all || (va < r.va + 65536 * r.units && r.va < va + size)

/-- Whether a region's ports act for a domain. -/
def State.portOf (s : State) (d : Nat) (p : Port) : Bool :=
  match p.inst with | some i => s.instDomain i == d | none => false

/-- The control block's fields: root, ring, size, write index (R337). Nonzero reserved bytes (17 to 23 and 40 to 63) are
ignored: R337 names no consequence and no check of the block (DESIGN CHOICE, LOG 128). -/
def State.controlBlock (s : State) (d : Nat) : Option (List Byte) :=
  let x := s.domain d
  if x.state == .free || x.controlBlock.toNat % 64 != 0 then none
  else match s.belfryRead x.manager x.controlBlock 64 with
    | .ok bs _ => some bs
    | _ => none

/-- The control block lies in memory of the host or of a peer, whose line is asked for first (R237). -/
def State.controlWait (s : State) (d : Nat) : Option State :=
  let x := s.domain d
  if x.state == .free || x.controlBlock.toNat % 64 != 0 then none
  else match s.belfryRead x.manager x.controlBlock 64 with
    | .wait s => some s
    | _ => none

/-- The Lantern raises the read index of a ring, and then steps the request's barrier, if there is one (R338). -/
def State.raiseRead (s : State) (d : Nat) (barrier : Dword) : State :=
  let x := s.domain d
  let name := s.nextId
  let step (w : Owed) : OwedStep := ⟨2 ^ 20 + name, x.manager, w⟩
  let s := ({ s with nextId := name + 1 } : State).setDomain d { x with invRead := x.invRead + 1, invalidation := none }
  s.owe (step (.store (x.controlBlock + 32) (leBytes 8 (x.invRead + 1))) :: if barrier == 0 then [] else [step (.signal barrier 0 name none)])

/-- A live claim of a domain pins the page of an address in its spill ring (R148). -/
def State.pinned (s : State) (d unit : Nat) : Bool :=
  s.blocks.any fun e =>
    (match s.belfry.launches.look e.2.launch with | some l => l.record.domain == d | none => false) &&
    match e.2.claim with
    | some c => (c.pins.look unit).isSome
    | none => false

/-- Translations of a domain that a request covers leave the TLBs (R336, R338); `keep` says which 64 KiB units stay. -/
def State.dropLeaves (s : State) (d : Nat) (r : InvRequest) (keep : Nat → Bool) : State :=
  let gone (k : Nat) : Bool := k % 2 ^ 52 / 2 ^ 45 == d && r.coversVa (k % 2 ^ 45 * 65536) 65536 && !keep (k % 2 ^ 45)
  { s with mem := { s.mem with tlb := s.mem.tlb.filter fun e => !gone e.1 } }

/-- What a request does at once: translations leave the TLBs, but for those of the pages that claims pin (R148), extents
become stale, and what is in flight is noted (R338, R354). ALL takes the root from the control block. -/
def State.startInvalidation (s : State) (d : Nat) (r : InvRequest) (root : Nat) : State :=
  let covered := s.groups.flatMap fun e => (e.2.ops.filter fun o => o.left != 0 && o.path != .cms && (e.2.domain == d || o.path == .gat)).map fun o => (e.1, o.id)
  let reads (m : Msg) : Bool := (match m.kind with | .poll _ _ _ => true | .fetch => true | _ => false) && match s.groups.look m.group with | some g => g.domain == d | none => false
  let ports := s.annex.ports.map fun (e : Nat × Port) => if s.portOf d e.2 then (e.1, { e.2 with lines := [], extents := e.2.extents.map fun x => if r.coversVa x.2.va x.2.size then (x.1, { x.2 with stale := true }) else x }) else e
  let x := s.domain d
  let messages := (s.mem.msgs.filter fun e => reads e.2).map (·.1)
  let s := { s.dropLeaves d r (s.pinned d) with annex := { s.annex with ports := ports } }
  s.setDomain d { x with root := if r.all then root else x.root, invalidation := some { r with covered := covered, messages := messages } }

/-- INVALIDATION_REQUEST: the Lantern takes the next request of a ring; one with a reserved bit set is skipped with a PROT
record for the manager (R338). The ALL request of a revocation goes first (R377). -/
def execInvalidationRequest (d : Nat) (s : State) : Res :=
  let x := s.domain d
  match if x.invalidation.isNone then s.controlWait d else none with
  | some s => .next s
  | none =>
  match x.invalidation, x.revocations, s.controlBlock d with
  | none, c :: rest, cb =>
    let r : InvRequest := { index := 0, va := 0, units := 0, all := true, barrier := 0, covered := [], curator := some c }
    .next ((s.setDomain d { x with revocations := rest }).startInvalidation d r (match cb with | some bs => fieldAt bs 0 8 | none => x.root))
  | none, [], some cb =>
    let size := fieldAt cb 16 1
    if fieldAt cb 24 8 ≤ x.invRead || size < 4 || 12 < size || fieldAt cb 8 8 % 32 != 0 then .next s
    else match s.belfryRead x.manager (BitVec.ofNat 64 (fieldAt cb 8 8 + 32 * (x.invRead % 2 ^ size))) 32 with
      | .wait s => .next s
      | .bad _ _ _ => .next s
      | .ok bs _ =>
        if fieldAt bs 12 1 / 2 != 0 || fieldAt bs 13 3 != 0 || fieldAt bs 24 8 != 0 then
          let r := { launchRecord s.nextId 0 0 x.manager 0 0 none none 0 with code := faultProt, source := 5, detail := 0 }
          .next ((({ s with nextId := s.nextId + 1 } : State).raise r).raiseRead d 0)
        else
          let r : InvRequest := { index := x.invRead, va := fieldAt bs 0 8 / 65536 * 65536, units := fieldAt bs 8 4, all := fieldAt bs 12 1 % 2 == 1, barrier := BitVec.ofNat 64 (fieldAt bs 16 8), covered := [] }
          .next (s.startInvalidation d r (fieldAt cb 0 8))
  | _, _, _ => .next s

/-- A live claim's ring of a domain overlaps the range: its pages are pinned (R147). -/
def State.ringPinned (s : State) (d : Nat) (r : InvRequest) : Bool :=
  let pinned (b : Block) : Bool :=
    (match s.belfry.launches.look b.launch with | some l => l.record.domain == d | none => false) &&
    match b.claim with
    | some c => c.ringSlots != 0 && r.coversVa c.ringVa.toNat (16 * c.ringSlots)
    | none => false
  s.blocks.any (fun e => pinned e.2) || s.faults.saves.any fun x => pinned x.data

/-- INVALIDATION_COMPLETE: every access that was in flight has completed and every extent has been translated again: the read
index rises and the barrier steps (R338). -/
def execInvalidationComplete (d : Nat) (s : State) : Res :=
  match (s.domain d).invalidation with
  | none => .next s
  | some r =>
    let flying := r.covered.any fun c => match s.groups.look c.1 with | some g => g.ops.any fun o => o.id == c.2 && o.left != 0 | none => false
    let reading := r.messages.any fun id => (s.mem.msgs.look id).isSome
    let ports := s.annex.ports.any fun e => s.portOf d e.2 && (e.2.extents.any (fun x => x.2.stale) || e.2.accesses.any fun a => r.coversVa a.va a.size && a.value.isNone && a.kind != .replay)
    if flying || reading || ports || s.ringPinned d r then .next s
    else
      let s := s.dropLeaves d r fun _ => false
      match r.curator with
      | some (peer, grant) =>
        let x := s.domain d
        .next (({ (s.setDomain d { x with invalidation := none }) with links := { s.links with sent := s.links.sent ++ [(peer, .cleared grant)] } } : State).sendFlit peer)
      | none => .next (s.raiseRead d r.barrier)

/-- EXTENT_REPATCH: an `sdrain` has followed the port's issued accesses to the memory edge; the slot is translated again in
place, or left invalid (R354). -/
def execExtentRepatch (die port slot : Nat) (s : State) : Res :=
  let key := 64 * die + port
  match s.annex.ports.look key with
  | none => .next s
  | some p => match p.extents.look slot with
    | none => .next s
    | some x =>
      let pending := p.accesses.any fun a => x.va ≤ a.va && a.va < x.va + x.size && a.value.isNone && a.kind != .replay
      if !x.stale || pending then .next s
      else
        let d := s.instDomain (p.inst.getD 0)
        match s.leafOf d x.va wantStreamRead with
        | .inl l =>
          let size := 2 ^ levelShift l.level
          .next (s.setPort key { p with extents := p.extents.put slot { va := x.va / size * size, size := size, leaf := l.ent, level := l.level, used := x.used } })
        | .inr _ => .next (s.setPort key { p with extents := p.extents.del slot })

/-! ### Eviction (R355-R358, R362) -/

/-- What a block's save would hold now: its groups, resident and spilled (R216, R358). -/
def State.saveOf (s : State) (key : Nat) (b : Block) (reserve : Option Nat) : Saved :=
  let wake (st : Strand) : Strand := match st.wait with
    | .join _ => { st with wait := .ready }
    | .bwait _ _ _ _ _ => { st with wait := .ready }
    | .gate _ _ _ => { st with wait := .ready }
    | .matrix => { st with wait := .ready }
    | _ => st
  let group (e : Nat × Group) : Group :=
    { e.2 with strands := e.2.strands.map fun x => (x.1, wake x.2), saveList := (s.core (keyCore e.1)).recordsOf (keySlot e.1) ++ e.2.saveList }
  let resident := s.groupsOf key
  let spilled := s.cores.flatMap fun e => (e.2.spilled.map (·.2)).filter fun g => g.block == key
  let number (k : Nat) : Nat := match s.groups.look k with | some g => g.groupid | none => 0
  let jobs := (s.jobs.filter fun e => e.2.block == key).map fun e => { e.2 with group := number e.2.group }
  { launch := b.launch, cohort := b.cohort, block := key, data := b, groups := resident.map group ++ spilled, spilled := spilled.map (·.groupid), jobs := jobs, reserve := reserve, at_ := s.now }

/-- What a strand at `mwait` or `mdrain` does there now. -/
def State.matrixWord (s : State) (r : StrandRef) : Option Res :=
  match s.strandAt r with
  | none => none
  | some (g, st) => match s.fetch r.core g st.pc with
    | .word w _ => match decodeCore w with
      | .ok (.mwait f) => some (execMwait f { s with agent := .strand r })
      | .ok (.mdrain f) => some (execMdrain f { s with agent := .strand r })
      | _ => none
    | _ => none

/-- A ready strand waits in `mwait` or `mdrain`: it issued the word, which has not completed (R172, R205). -/
def State.waitsInMatrix (s : State) (r : StrandRef) : Bool :=
  match s.strandAt r, s.matrixWord r with
  | some (_, st), some (.next t) => st.wait == .ready && (match t.strandAt r with | some (g, x) => x.issued == st.issued && g.suspends.isEmpty | none => false)
  | _, _ => false

/-- The strands of a group that wait in `mwait` or `mdrain` when its eviction is asked for (R358). -/
def State.markMatrix (s : State) (key : Nat) (g : Group) : Group :=
  { g with strands := g.strands.map fun e => (e.1, if s.waitsInMatrix { core := keyCore key, slot := keySlot key, entry := e.1 } then { e.2 with wait := .matrix } else e.2) }

/-- A strand that waited in `mwait` or `mdrain` completes it: the operations have completed (R356, step 2; R358). -/
def State.endMatrixWait (s : State) (r : StrandRef) : State :=
  match s.strandAt r, s.matrixWord r with
  | some (_, st), some (.next t) => if st.wait == .matrix then { t with agent := s.agent } else s
  | _, _ => s

/-- The matrix waits of a group end. -/
def State.endMatrixWaits (s : State) (key : Nat) (g : Group) : State :=
  g.strands.foldl (fun s e => s.endMatrixWait { core := keyCore key, slot := keySlot key, entry := e.1 }) s

/-- Start the eviction of a cohort: its groups stop issuing (R356). -/
def State.startEviction (s : State) (launch cohort : Nat) (policy : Bool) : State :=
  let bs := s.cohortBlocks launch cohort
  let ending := match s.belfry.launches.look launch with | some l => l.terminating | none => true
  if bs.isEmpty || s.evicting launch cohort || ending || (policy && Config.savePool < s.poolTaken + s.cohortSaveSize launch cohort) then s
  else
    let mine (g : Group) : Bool := bs.any fun b => b.1 == g.block
    let groups := s.groups.map fun (e : Nat × Group) => if mine e.2 && e.2.stopping == .running then (e.1, { s.markMatrix e.1 e.2 with stopping := .evict }) else e
    { s with groups := groups, faults := { s.faults with evictions := s.faults.evictions ++ [(launch, cohort, policy)] } }

/-- EVICT_COHORT: for firmware's policy only where the general pool can take the saves, for service always (R355, R356,
R362). -/
def execEvictCohort (launch cohort : Nat) (policy : Bool) (s : State) : Res := .next (s.startEviction launch cohort policy)

/-- Commissions that a group's save has room for (R363). -/
def savedJobs : Nat := 128

/-- A group has come to rest: nothing is in flight but commissions, no more of them than its save holds (R363, LOG 127), and
the engine has none of its operations; a word of an operation that is not formed yet is saved with its count (R173, R356). -/
def State.atRest (s : State) (key : Nat) (g : Group) : Bool :=
  g.stopping == .evict && (g.ops.all fun o => o.left == 0 || o.path == .cms) && s.engineFree key && g.owned.all (fun o => o.complete || o.op.isNone) &&
  (s.jobs.filter fun e => e.2.group == key).length ≤ savedJobs

/-- A block leaves its core for its save. -/
def State.saveBlock (s : State) (key : Nat) (b : Block) (policy : Bool) : State :=
  let x := s.saveOf key b (if policy then none else some b.core)
  let gs := (s.groupsOf key).map (·.1)
  let mine (k : Nat) : Bool := gs.contains k
  let msgs := s.mem.msgs.filter fun e => !(mine e.2.group && (match e.2.kind with | .poll _ _ _ => true | .fetch => true | _ => false))
  let s := gs.foldl (fun s k => s.growTouch (keyCore k) (slotQuad (keySlot k))) s
  let cores := s.cores.map fun (e : Nat × Core) => (e.1, { e.2 with docent := e.2.docent.filter fun r => !mine (gkey e.1 r.slot), spilled := e.2.spilled.filter fun p => p.2.block != key })
  { s with cores := cores, groups := s.groups.filter (fun e => !mine e.1), blocks := s.blocks.del key, jobs := s.jobs.filter (fun e => e.2.block != key), mem := { s.mem with msgs := msgs }, faults := { s.faults with saves := s.faults.saves ++ [x] } }

/-- QUIESCENCE: once every group of the cohort is at rest, the saves are written and the cores' resources are free (R356,
R357). -/
def execQuiescence (launch cohort : Nat) (s : State) : Res :=
  match s.faults.evictions.find? fun e => e.1 == launch && e.2.1 == cohort with
  | none => .next s
  | some (_, _, policy) =>
    let bs := s.cohortBlocks launch cohort
    if bs.any fun b => (s.groupsOf b.1).any fun e => !s.atRest e.1 e.2 then .next s
    else
      let s := bs.foldl (fun s b => (s.groupsOf b.1).foldl (fun s e => s.endMatrixWaits e.1 e.2) s) s
      let s := bs.foldl (fun s b => s.saveBlock b.1 b.2 policy) s
      .next { s with faults := { s.faults with evictions := s.faults.evictions.filter fun e => !(e.1 == launch && e.2.1 == cohort) } }

/-- SAVE_MOVE: a save, or a checkpoint after the saves, moves from the reserve to the general pool when it has room
(R362). -/
def execSaveMove (index : Nat) (s : State) : Res :=
  match s.faults.saves[index]? with
  | some x =>
    if x.reserve.isNone || Config.savePool < s.poolTaken + x.size then .next s
    else .next { s with faults := { s.faults with saves := setNth s.faults.saves index { x with reserve := none } } }
  | none =>
    let i := index - s.faults.saves.length
    match s.annex.checkpoints[i]? with
    | some c =>
      if !c.reserved || Config.savePool < s.poolTaken + s.checkpointBytes c.region c.inst then .next s
      else .next { s with annex := { s.annex with checkpoints := setNth s.annex.checkpoints i { c with reserved := false } } }
    | none => .next s

end Sys2Proof.Machine
end

