-- ==== Sys2Proof/Machine/Host.lean ====
section
/-! DEFINITION. The host and the peers: host accesses (R368, R370, R373), peer requests (R376, R378), the remote write clock
(R237), the Spire link (R374, R414) and peer grants (R377). -/
namespace Sys2Proof.Machine

/-! ### Accesses from outside -/

/-- An access from outside stays inside a line (a CXL.mem line or a Spire line). -/
def inLine (pa n : Nat) : Bool := n != 0 && pa % 64 + n ≤ 64

/-- The key under which an outside access reaches memory is the key of the granule's owner (R400). -/
def State.keyFits (s : State) (pa domain : Nat) : Bool := s.keep.owners.look (pa / 65536) == some domain

/-- An uncorrectable read from outside is recorded; under a key that is not the owner's it is a tag that fails (R400). -/
def State.logOutside (s : State) (pa domain : Nat) : State :=
  if s.keyFits pa domain then s.logBad (pa / 64) domain else (s.tagFails pa domain).serveBad (pa / 64) domain

/-- A read from outside at home: the current value, no lease, and xclk rises to the line's wts (R237). An uncorrectable
error gives the host all-ones data, is logged in the CXL RAS structure and raises vector 64 (R373). -/
def State.outsideRead (s : State) (device pa n domain : Nat) : State :=
  let line := pa / 64
  let host := device == Config.deviceNumber
  if !s.keyFits pa domain || s.lineBad line then
    ((s.logOutside pa domain).logRas device line).answer device (if host then List.replicate n 0xFF else [])
  else
    let h := s.homeView line
    let s := { s with mem := { s.mem with xclk := tmax s.mem.xclk h.wts } }
    s.answer device ((List.range n).map fun i => lineByte h.data (pa % 64 + i))

/-- A line's times rise beyond a slice that the line has left: the slice's mts covers them (R224, R226). -/
def State.raiseMts (s : State) (line : Nat) (t : Time) : State := s.setMts (s.mem.slice line) (tmax (s.mtsOf (s.mem.slice line)) t)

/-- A change from outside at home: a store that carries xclk, which it raises (R237). Under a key that is not the owner's it
leaves a line whose tag fails (R400); a part of an uncorrectable line goes to memory, and the line stays uncorrectable (R407).
Either way the line's times never fall (R226). -/
def State.outsideWrite (s : State) (pa domain : Nat) (data : LineData) (mask : BitVec 64) : State :=
  let line := pa / 64
  let h := (s.homeView line).write s.mem.xclk data mask
  let s' :=
    if !s.keyFits pa domain then
      let m := s.mem.heal (· == line)
      ({ s with mem := { m with bad := line :: m.bad, forged := line :: m.forged, l2 := m.l2.del line } } : State).raiseMts line h.rts
    else if !s.lineBad line || mask == BitVec.allOnes 64 then ({ s with mem := s.mem.heal (· == line) } : State).setHome line h
    else ({ s with mem := s.mem.setLine line data mask } : State).raiseMts line h.rts
  { s' with mem := { s'.mem with xclk := tmax s'.mem.xclk h.wts } }

/-- An atomic from outside at home; the old word is the answer (R237). -/
def State.outsideAtomic (s : State) (device pa size domain : Nat) (op : AtomicOp) (value cmp : Dword) : State :=
  let line := pa / 64
  let host := device == Config.deviceNumber
  if !s.keyFits pa domain || s.lineBad line then
    ((s.logOutside pa domain).logRas device line).answer device (if host then List.replicate size 0xFF else [])
  else
    let h := s.homeView line
    let old := lineValue h.data (pa % 64) size
    let new := AtomicOp.apply op size (BitVec.ofNat 64 old) value cmp
    (s.outsideWrite pa domain (lineWith (pa % 64) size new.toNat) (byteMask (pa % 64) size)).answer device (leBytes size old)

/-! ### The host (R368, R370) -/

/-- The valid window that an access falls in, with the device address. -/
def State.windowFor (s : State) (hpa n : Nat) : Option (HostWindow × Nat) :=
  (s.links.windows.find? fun e => e.2.flags.getLsbD 7 && e.2.length != 0 && e.2.hpa ≤ hpa && hpa + n ≤ e.2.hpa + e.2.length).map fun e => (e.2, e.2.pa + (hpa - e.2.hpa))

/-- A read from outside of a word on an N page, at its owner node (R286): under a key that is not the owner's it goes the way
of every read whose tag fails (R400). -/
def State.nearRead (s : State) (device pa n domain : Nat) : State :=
  if s.keyFits pa domain then s.sendOwner (.outside device) pa (.load [{ lane := 0, reg := 0, off := pa % 64, size := n }] (pa / 64))
  else s.outsideRead device pa n domain

/-- A write from outside of words on an N page, at their owner node (R286): under a key that is not the owner's it leaves a
line that its owner cannot read (R400). -/
def State.nearWrite (s : State) (device pa domain : Nat) (bytes : List Byte) : State :=
  if s.keyFits pa domain then s.sendOwner (.outside device) pa (.store pa bytes)
  else (s.outsideWrite pa domain (lineWith (pa % 64) bytes.length (leValue bytes)) (byteMask (pa % 64) bytes.length)).confirm device

/-- An access outside every window, or without permission, counts (R370). -/
def State.hostDenied (s : State) : State := { s with links := { s.links with outside := s.links.outside + 1 } }

def HostWindow.may (w : HostWindow) (r wr : Bool) : Bool := (!r || w.flags.getLsbD 0) && (!wr || w.flags.getLsbD 1)

/-- HOST_READ (R237, R370, R373). -/
def execHostRead (hpa size : Nat) (s : State) : Res :=
  let me := Config.deviceNumber
  let zeros := List.replicate size (0 : Byte)
  if !inLine hpa size then .next s
  else if !s.hostOpen then .next (s.answer me zeros)
  else match s.windowFor hpa size with
    | none => .next (s.hostDenied.answer me zeros)
    | some (w, pa) =>
      if !HostWindow.may w true false then .next (s.hostDenied.answer me zeros)
      else if w.flags.getLsbD 2 then .next (s.nearRead me pa size w.domain)
      else .next (s.outsideRead me pa size w.domain)

/-- HOST_WRITE (R237, R370). -/
def execHostWrite (hpa : Nat) (bytes : List Byte) (s : State) : Res :=
  if !inLine hpa bytes.length || !s.hostOpen then .next s
  else match s.windowFor hpa bytes.length with
    | none => .next s.hostDenied
    | some (w, pa) =>
      if !HostWindow.may w false true then .next s.hostDenied
      else if w.flags.getLsbD 2 then .next (s.nearWrite Config.deviceNumber pa w.domain bytes)
      else .next (s.outsideWrite pa w.domain (lineWith (pa % 64) bytes.length (leValue bytes)) (byteMask (pa % 64) bytes.length))

/-- An operator and size that an atomic from outside may have: a naturally aligned word (R122). -/
def atomicFits (pa size : Nat) : Bool := (size == 4 || size == 8) && pa % size == 0

/-- HOST_ATOMIC (R237): in a window with R and W. Where the window's N bit is set it is as an access without permission,
since N pages take no atomics (R117). -/
def execHostAtomic (hpa : Nat) (op : AtomicOp) (size : Nat) (value cmp : Dword) (s : State) : Res :=
  let me := Config.deviceNumber
  let zeros := List.replicate size (0 : Byte)
  if !atomicFits hpa size then .next s
  else if !s.hostOpen then .next (s.answer me zeros)
  else match s.windowFor hpa size with
    | none => .next (s.hostDenied.answer me zeros)
    | some (w, pa) =>
      if !HostWindow.may w true true || w.flags.getLsbD 2 then .next (s.hostDenied.answer me zeros)
      else .next (s.outsideAtomic me pa size w.domain op value cmp)

/-- A window's fields are in order (R370). -/
def HostWindow.ok (w : HostWindow) : Bool :=
  w.hpa % 2 ^ 21 == 0 && w.length % 2 ^ 21 == 0 && w.pa % 2 ^ 21 == 0 && w.pa + w.length ≤ 2 ^ 40 && w.domain < 64 && (w.flags &&& 0x78) == 0 && w.reserved == 0

/-- HOST_WINDOW_INSTALL: one of 16 entries (R370, R399). -/
def execHostWindowInstall (index : Nat) (w : HostWindow) (s : State) : Res :=
  if s.boot != .stage2 || 16 ≤ index || !HostWindow.ok w then .next s
  else .next ({ s with links := { s.links with windows := s.links.windows.put index w } } : State).reportChanged

/-- IDE_KEY_PROGRAM (R368). -/
def execIdeKeyProgram (s : State) : Res :=
  if s.boot == .off then .next s else .next { s with links := { s.links with ideKeys := true } }

/-! ### Peer requests (R375, R376, R378) -/

def PeerAccess.size : PeerAccess → Nat
  | .read n => n
  | .write bs => bs.length
  | .atomic _ n _ _ => n

/-- The export entry that grants an access: R for a read, W for a write and for a near-memory operator, and R, W and A for an
atomic, as the sender's walk asks of its import (R376, R377). -/
def State.exportFor (s : State) (q : PeerRequest) : Option Export :=
  let n := PeerAccess.size q.access
  (s.links.exports.find? fun e =>
    let x := e.2
    x.length != 0 && x.device == q.device && x.domain == q.domain && x.base ≤ q.pa && q.pa + n ≤ x.base + x.length &&
    match q.access with
    | .read _ => x.r
    | .write _ => x.w
    | .atomic _ _ _ _ => x.w && (q.near || (x.r && x.a))).map (·.2)

/-- The code of a near-memory operator (R181), which the counters of its owner node remember (R287). An operator that R181 does
not have is no near-memory operator; it takes the code 11. -/
def AtomicOp.nmCode (op : AtomicOp) : Nat := ((List.range 11).find? fun k => nmOp k == some op).getD 11

/-- PEER_REQUEST: checked against the export table, then performed at home or, on an N page, at the owner node; a denied
request reads zeros or is discarded, and counts. Every request is acknowledged (R376, R378). -/
def execPeerRequest (q : PeerRequest) (s : State) : Res :=
  let n := PeerAccess.size q.access
  let fits := match q.access with | .atomic _ size _ _ => atomicFits q.pa size | _ => inLine q.pa n
  if s.boot != .stage2 || !fits || 2 ^ 40 ≤ q.pa then .next s
  else match s.exportFor q with
    | none =>
      let s := { s with links := { s.links with denials := s.links.denials + 1 } }
      .next (match q.access with | .write _ => s.confirm q.device | _ => s.answer q.device (List.replicate n 0))
    | some x => match q.near, q.access with
      | true, .read size => .next (s.nearRead q.device q.pa size x.local_)
      | true, .write bs => .next (s.nearWrite q.device q.pa x.local_ bs)
      | true, .atomic op size v cmp =>
        if s.keyFits q.pa x.local_ then .next (s.sendOwner (.outside q.device) q.pa (.word q.pa op size v (nmClass (AtomicOp.nmCode op) size)))
        else .next (s.outsideAtomic q.device q.pa size x.local_ op v cmp)
      | false, .read size => .next (s.outsideRead q.device q.pa size x.local_)
      | false, .write bs => .next ((s.outsideWrite q.pa x.local_ (lineWith (q.pa % 64) bs.length (leValue bs)) (byteMask (q.pa % 64) bs.length)).confirm q.device)
      | false, .atomic op size v cmp => .next (s.outsideAtomic q.device q.pa size x.local_ op v cmp)

/-! ### The link (R374, R414) -/

def State.onSpire (s : State) (port : Nat) (f : SpirePort → SpirePort) : State :=
  { s with links := { s.links with ports := s.links.ports.adjust port f } }

/-- FLIT_REPLAY: the flits before the one that failed have been received; that one and the later ones are sent again, in
sequence, from the sender's buffer (R374). -/
def execFlitReplay (port seq : Nat) (s : State) : Res :=
  .next (s.onSpire port fun p => if p.up && p.unacked.contains seq then { p with unacked := p.unacked.dropWhile (· != seq) } else p)

/-- A port goes down. Its unacknowledged flits go first on the replacement route, and its routes lead there (R374, R414). -/
def State.portDown (s : State) (port : Nat) (lanes : Nat) : State :=
  match s.links.ports.look port with
  | none => s
  | some p =>
    let n := p.unacked.length
    let s := s.onSpire port fun p => { p with up := false, lanes := lanes }
    match s.links.ports.find? fun e => e.2.up with
    | none => s
    | some (k, _) =>
      let s := s.onSpire port fun p => { p with unacked := [] }
      let s := s.onSpire k fun p => { p with nextSeq := p.nextSeq + n, unacked := p.unacked ++ (List.range n).map (p.nextSeq + ·) }
      let routes := s.links.routes.map fun (e : Nat × Nat) => if e.2 == port then (e.1, k) else e
      { s with links := { s.links with routes := routes } }

/-- PORT_RETRAIN: a port with a flit that fails authentication goes down; a port that is down retrains, where it has its lanes
and a link key from its peer's attestation (R374). -/
def execPortRetrain (port : Nat) (s : State) : Res :=
  match s.links.ports.look port with
  | none => .next s
  | some p =>
    if p.up then .next (s.portDown port p.lanes)
    else if p.lanes == 0 || p.key.isNone then .next s
    else .next (s.onSpire port fun p => { p with up := true, retrains := p.retrains + 1 })

/-- LANE_SPARE: a lane fails. The spare takes the place of the first; with 4 to 7 lanes left the port retrains at 4; with fewer
it goes down and its routes are recomputed (R414). The service ring names lane l of port p as 9 × p + l (R408, LOG 35). -/
def execLaneSpare (port lane : Nat) (s : State) : Res :=
  let unit := 9 * port + lane
  match if 9 ≤ lane then none else s.links.ports.look port with
  | none => .next s
  | some p =>
    if p.failed.contains lane then .next s
    else
      let good := 8 - p.failed.length
      let s := s.onSpire port fun p => { p with failed := lane :: p.failed }
      if 8 ≤ good then
        if lane == 8 then .next (s.serve 5 4 unit 0 0)
        else .next (((s.serve 3 4 unit 0 0).onSpire port fun p => { p with spareUsed := true }).serve 4 4 unit 0 0).reportChanged
      else if 4 ≤ good then .next ((s.onSpire port fun p => { p with lanes := 4, retrains := p.retrains + 1 }).serve 5 4 unit 0 0)
      else .next ((s.portDown port 0).serve 5 4 unit 0 0)

/-! ### Grants (R377) -/

/-- A message to a peer's Curator, over the Spire link (R374, R377). -/
def State.tell (s : State) (peer : Nat) (m : GrantMessage) : State :=
  ({ s with links := { s.links with sent := s.links.sent ++ [(peer, m)] } } : State).sendFlit peer

/-- The domain for which the Curator takes a request: the host's go as those of domain 0 (R399, LOG 158). -/
def Requester.domainOf (q : Requester) : Nat := match q with | .domain d => d | .host => 0

/-- A range of whole granules that a domain owns. -/
def State.ownsRange (s : State) (d base length : Nat) : Bool :=
  base % 65536 == 0 && length % 65536 == 0 && length != 0 && base + length ≤ 2 ^ 40 &&
  (List.range (length / 65536)).all fun i => s.keep.owners.look (base / 65536 + i) == some d

/-- GRANT_REQUEST: the exporting domain's manager asks; the export entry is installed and the peer's Curator told (R377). -/
def execGrantRequest (q : GrantRequest) (s : State) : Res :=
  let d := s.domain q.domain
  if s.boot != .stage2 || d.state != .active || d.manager != Requester.domainOf q.requester || 1024 ≤ q.peer || q.peer == Config.deviceNumber || 64 ≤ q.peerDomain ||
    4096 ≤ s.links.exports.length || !s.ownsRange q.domain q.base q.length then .next s
  else
    let n := s.links.nextGrant
    let x : Export := { base := q.base, length := q.length, device := q.peer, domain := q.peerDomain, local_ := q.domain, r := q.r, w := q.w, a := q.a }
    let s := { s with links := { s.links with nextGrant := n + 1, exports := s.links.exports.put n x } }
    .next ((s.tell q.peer (.install n Config.deviceNumber q.peerDomain q.base q.length q.r q.w q.a)).reportChanged)

/-- The key of an import entry: its peer and grant. -/
def grantKey (peer grant : Nat) : Nat := peer * 2 ^ 32 + grant

/-- The domain that holds an import of a grant. -/
def State.importer (s : State) (peer grant : Nat) : Option Nat :=
  (s.domains.find? fun e => (e.2.imports.look (grantKey peer grant)).isSome).map (·.1)

/-- An import entry is cleared; an ALL request for its domain follows (R377). -/
def State.clearImport (s : State) (d peer grant : Nat) : State :=
  let x := s.domain d
  (s.setDomain d { x with imports := x.imports.del (grantKey peer grant), revocations := x.revocations ++ [(peer, grant)] }).reportChanged

/-- A grant that this device made is revoked: the export entry goes, and the peer's Curator is told. -/
def State.revokeExport (s : State) (grant : Nat) (x : Export) : State :=
  let s := { s with links := { s.links with exports := s.links.exports.del grant, revoking := grant :: s.links.revoking } }
  (s.tell x.device (.clear grant Config.deviceNumber)).reportChanged

/-- GRANT_MESSAGE: what a peer's Curator sends (R377): a grant, the reply to one, the notice that the peer has cleared its
export entry, the confirmation of such a notice, and that the peer has released the domain that imported, on which this
device revokes the grant. -/
def execGrantMessage (m : GrantMessage) (s : State) : Res :=
  if s.boot != .stage2 then .next s
  else match m with
    | .install grant peer domain base length r w a =>
      let d := s.domain domain
      if d.state != .active || 64 ≤ d.imports.length || base % 65536 != 0 || length % 65536 != 0 || length == 0 then .next s
      else
        let i : Import := { base := base, length := length, device := peer, r := r, w := w, a := a }
        .next (((s.setDomain domain { d with imports := d.imports.put (grantKey peer grant) i }).tell peer (.reply grant)).reportChanged)
    | .reply grant => .next { s with links := { s.links with exports := s.links.exports.adjust grant fun x => { x with complete := true } } }
    | .clear grant peer =>
      match s.importer peer grant with
      | some d => .next (s.clearImport d peer grant)
      | none => .next (s.tell peer (.cleared grant))
    | .cleared grant => .next { s with links := { s.links with revoking := s.links.revoking.filter (· != grant) } }
    | .released grant peer =>
      match s.links.exports.look grant with
      | some x => if x.device == peer then .next (s.revokeExport grant x) else .next s
      | none => .next s

/-- REVOKE: at the request of the exporting domain's manager (R377). -/
def execRevoke (requester : Requester) (grant : Nat) (s : State) : Res :=
  match s.links.exports.look grant with
  | none => .next s
  | some x => if (s.domain x.local_).manager != Requester.domainOf requester then .next s else .next (s.revokeExport grant x)

end Sys2Proof.Machine
end

