-- ==== Sys2Proof/Machine/Keep.lean ====
section
/-! DEFINITION. The Keep and the management Curator: images (R395-R398), start-up (R392-R394), domains (R399, R400), gate
tables (R81) and attestation (R401). -/
namespace Sys2Proof.Machine

/-! ### Images (R395, R396) -/

/-- Bytes 0 to 95 of an image's header (R395). -/
def imageHeader (i : Image) : List Byte :=
  leBytes 4 i.magic.toNat ++ leBytes 2 i.version.toNat ++ [i.kind, i.svn] ++ leBytes 8 i.body.length ++ leBytes 8 i.loadOffset.toNat ++ leBytes 64 i.digest.toNat ++ [i.key] ++ leBytes 7 i.reserved

/-- The public key that an image names. -/
def Keep.keyOf (k : Keep) (i : Image) : Nat := if i.key == 4 then k.operatorKey.getD 0 else Config.rootKey i.key.toNat

/-- `accept` of R396. -/
def Keep.accepts (k : Keep) (i : Image) (kind : Nat) : Bool :=
  i.magic == 0x4E474953 && i.version == 1 && i.kind.toNat == kind && i.reserved == 0 && i.reservedEnd == 0 && i.body.length ≤ 2 ^ 24 && i.loadOffset.toNat % 65536 == 0 && i.svn.toNat ≤ 64 &&
  i.key.toNat ≤ 4 && !(i.key.toNat ≤ 3 && k.revoke.getLsbD i.key.toNat) && !(i.key == 4 && (kind != 3 || k.operatorKey.isNone)) &&
  Config.falconVerify (k.keyOf i) (imageHeader i) i.signature && Config.shake i.body 512 == i.digest.toNat && Map.get 0 k.arb kind ≤ i.svn.toNat

def imageMeasurement (i : Image) : Nat := Config.shake (imageHeader i ++ i.body) 512

def Keep.kind (k : Keep) (n : Nat) : Firmware := Map.get {} k.firmware n
def Keep.setKind (k : Keep) (n : Nat) (f : Firmware) : Keep := { k with firmware := k.firmware.put n f }
def State.onKeep (s : State) (f : Keep → Keep) : State := { s with keep := f s.keep }

def Firmware.slot (f : Firmware) (b : Bool) : Slot := if b then f.b else f.a
def Firmware.setSlot (f : Firmware) (b : Bool) (x : Slot) : Firmware := if b then { f with b := x } else { f with a := x }

/-- A slot whose image is accepted is measured; a refused image leaves the measurement as it was (R396). -/
def Keep.trySlot (k : Keep) (n : Nat) (b : Bool) : Option Keep :=
  let f := k.kind n
  match (f.slot b).image with
  | none => none
  | some i => if k.accepts i n then some (k.setKind n ({ f with loaded := some i }.setSlot b { image := some i, measurement := imageMeasurement i, svn := i.svn, key := i.key })) else none

/-- The boot choice of a kind: the slot of the active marker, otherwise the other one, whose marker becomes the active one
(R396). -/
def Keep.bootKind (k : Keep) (n : Nat) : Option Keep :=
  let b := (k.kind n).activeB
  match k.trySlot n b with
  | some k => some (k.setKind n { k.kind n with fallback := false })
  | none => match k.trySlot n (!b) with
    | some k => some (k.setKind n { k.kind n with activeB := !b, fallback := true })
    | none => none

/-- A body is loaded at its offset of device-private memory (R395). Kernels, of kinds 4 and 5, stand there for the launches that
are placed from now on; `id` names the load (R392, R397). -/
def Keep.load (k : Keep) (i : Image) (id : Nat) : Keep :=
  let kernel := i.kind == 4 || i.kind == 5
  { k with private_ := (List.range i.body.length).foldl (fun m j => Map.set 0 m (i.loadOffset.toNat + j) (i.body[j]?.getD 0)) k.private_, kernels := if kernel then { kind := i.kind.toNat, base := Config.privateBase + i.loadOffset.toNat, body := i.body, at_ := id } :: k.kernels else k.kernels }

def Keep.loadKind (k : Keep) (id n : Nat) : Keep := match (k.kind n).loaded with | some i => k.load i id | none => k

/-! ### Start-up (R392-R394) -/

/-- An ASCII label. -/
def label (s : String) : List Byte := s.toList.map fun c => BitVec.ofNat 8 c.toNat

/-- POWER_GOOD: stage 0. The ROM is checked, the fuses are read, and the identity is derived (R392, R394). -/
def execPowerGood (romDigest : Nat) (s : State) : Res :=
  if s.boot != .off then .next s
  else if romDigest != Config.romDigest then .next (s.onKeep fun k => { k with romOk := false, failure := some 0 }).reportChanged
  else
    let uds := leBytes 64 s.keep.uds.toNat
    let seed := Config.shake (uds ++ label "identity") 384
    let s := s.onKeep fun k => { k with romOk := true, idPub := some (Config.falconPublic seed), devKey := some (Config.shake (uds ++ label "device") 768), failure := none }
    .next ({ s with boot := .stage0, now := 0 } : State).reportChanged

/-- The kinds that stage 1 needs are verified one after another: the Lantern (1), the Belfry (2) and the Curator (3) that domain
0 is created from; the answer names the first kind that fails in both slots. What was accepted before it stays measured, and
its marker moved (R392, R396, R399, LOG 131). -/
def Keep.bootStage1 (k : Keep) : Keep × Option Nat :=
  [1, 2, 3].foldl (fun (a : Keep × Option Nat) n => match a.2 with
    | some _ => a
    | none => match a.1.bootKind n with
      | some k => (k, none)
      | none => (a.1, some n)) (k, none)

/-- Kinds that are accepted where they are good, and not loaded otherwise. -/
def Keep.bootMore (k : Keep) (id : Nat) (ns : List Nat) : Keep :=
  ns.foldl (fun k n => match k.bootKind n with | some k => k.loadKind id n | none => k) k

/-- The cores of a cluster enter service. -/
def State.startCores (s : State) (k : Nat) : State :=
  (clusterCores k).foldl (fun s c => s.onCore c fun x => { x with service := true, since := s.now }) s

/-- Granules are given to a domain: they read zero under its key, and no cache holds what they held (R399, R400). -/
def State.giveGranules (s : State) (d : Nat) (gs : List Nat) : State :=
  let mine (line : Nat) : Bool := gs.contains (line / 1024)
  let lines := (s.mem.l2.filter fun e => mine e.1).map (·.1)
  let s := lines.foldl (fun s l => s.evictLine l false 0) s
  let m := s.mem.heal mine
  let mem := { m with bytes := m.bytes.filter (fun e => !mine (e.1 / 64)), l1 := m.l1.filter (fun e => !(mine (e.1 % 2 ^ 46) && e.2.pend.isEmpty)), icache := m.icache.filter fun e => !mine (e.1 % 2 ^ 46) }
  { s with mem := mem, keep := { s.keep with owners := gs.foldl (fun o g => o.put g d) s.keep.owners } }

/-- A key is drawn for a domain (R394). -/
def State.drawKey (s : State) : Nat × State := (Config.random s.fresh, { s with fresh := s.fresh + 1 })

/-- An entry of a gate table from its 32 bytes, little-endian (R155). -/
def gateOf (w : BitVec 256) : GateEntry :=
  let f (off n : Nat) : Nat := bitsAt w.toNat (8 * off) (8 * n)
  { entry := BitVec.ofNat 64 (f 0 8), callers := BitVec.ofNat 64 (f 8 8), stack := BitVec.ofNat 64 (f 16 8), target := BitVec.ofNat 8 (f 24 1), va := BitVec.ofNat 8 (f 25 1), sa := BitVec.ofNat 8 (f 26 1), vr := BitVec.ofNat 8 (f 27 1), sr := BitVec.ofNat 8 (f 28 1), flags := BitVec.ofNat 8 (f 29 1), reserved := BitVec.ofNat 16 (f 30 2) }

/-- The 32 bytes of an entry in a gate table or a gate section (R81, R155, R385). -/
def GateEntry.bytes (e : GateEntry) : List Byte :=
  leBytes 8 e.entry.toNat ++ leBytes 8 e.callers.toNat ++ leBytes 8 e.stack.toNat ++ [e.target, e.va, e.sa, e.vr, e.sr, e.flags] ++ leBytes 2 e.reserved.toNat

/-- The management Curator's gate entries stand in the table of a domain that manages others (R399, LOG 159). -/
def State.installCurator (s : State) (manager : Nat) : State :=
  let d := s.domain manager
  s.setDomain manager { d with gates := Config.curatorGates.foldl (fun m e => m.put e.1 (gateOf e.2)) d.gates }

/-- STAGE1_ENTRY: the images are verified, the cluster and the stack that qualify are scrubbed, and domain 0 is created with the
service flag, on granules of that stack (R392). A failure leaves the device in stage 0 for good. -/
def execStage1Entry (cluster stack : Option Nat) (s : State) : Res :=
  if s.boot != .stage0 || s.keep.failure.isSome then .next s
  else
    let b := s.keep.bootStage1
    let fail (k : Keep) (n : Nat) : Res := .next (s.onKeep fun _ => { k with failure := some n }).reportChanged
    match b.2, cluster, stack with
    | some n, _, _ => fail b.1 n
    | none, none, _ => fail b.1 16
    | none, _, none => fail b.1 17
    | none, some c, some m =>
      let k := ([1, 2, 3].foldl (fun k n => k.loadKind s.nextId n) b.1).bootMore s.nextId [4, 5]
      let kept := Config.deviceGranules.foldl (fun o g => o.put g deviceOwner) k.owners
      let s := ({ s with nextId := s.nextId + 1 } : State).onKeep fun _ => { k with firstStack := some (m % 16), owners := kept }
      let s := s.startCores (c % 16)
      let key := s.drawKey
      let s := key.2.giveGranules 0 (Config.rootGranules.filter fun g => paDie (65536 * g) == m % 16)
      let curator := (k.kind 3).loaded
      let d : Domain := { state := .active, service := true, manager := 0, controlBlock := Config.rootControl, faultQueue := Config.rootFaults, root := Config.rootTable, msix := Config.msixEnabled 0, key := some key.1, measurement := (curator.map imageMeasurement).getD 0, signer := (curator.map fun i => i.key.toNat).getD 0 }
      .next ((({ s.setDomain 0 d with boot := .stage1 } : State).installCurator 0).reportChanged)

/-- A Spire port as stage 2 finds it: one that trains has agreed a link key with the Keep of its peer, which has attested
(R374, R392, R394). -/
def State.trainPort (s : State) (bad : List Nat) (p : Nat) : SpirePort :=
  if bad.contains p then { up := false, lanes := 0, retired := true } else { up := true, key := some (Config.linkKey p s.fresh) }

/-- STAGE2_ENTRY: the other clusters, stacks and dies are trained and their memory zeroed; what fails is retired; the strip
is configured, the Spire ports are up, firmware writes the routing table, and xclk starts at the device floor (R237, R374,
R392). The cluster and the stack of stage 1 are trained already. -/
def execStage2Entry (bad : TrainingReport) (s : State) : Res :=
  if s.boot != .stage1 then .next s
  else
    let s := ({ s with nextId := s.nextId + 1 } : State).onKeep fun k => k.bootMore s.nextId [6]
    let more := (List.range 16).filter fun k => !(clusterCores k).any fun c => (s.core c).service
    let s := more.foldl (fun s k =>
      if bad.clusters.contains k then (clusterCores k).foldl (fun s c => s.onCore c fun x => { x with retired := true }) s
      else s.startCores k) s
    let ports := (List.range 36).foldl (fun (m : Map SpirePort) p => m.put p (s.trainPort bad.ports p)) []
    let routes := (List.range 1024).foldl (fun (m : Map Nat) d => m.put d (Config.routeTo d % 36)) []
    let s := { s with fresh := s.fresh + 1, service := { s.service with stacksRetired := bad.stackList.filter fun k => k < 16 && s.keep.firstStack != some k, diesRetired := bad.dies.filter (· < 16) }, links := { s.links with ports := ports, routes := routes } }
    .next ({ s with boot := .stage2, mem := { s.mem with xclk := s.floor } } : State).reportChanged

/-- POWER_LOSS: everything but fuses and flash is lost, with every domain key; a marker that is not yet written stays as it
was (R394, R397). -/
def execPowerLoss (s : State) : Res :=
  let flash := s.keep.firmware.map fun (e : Nat × Firmware) =>
    (e.1, { e.2 with activeB := if e.2.unwritten then !e.2.activeB else e.2.activeB, unwritten := false, loaded := none, fallback := false })
  let keep : Keep := { uds := s.keep.uds, arb := s.keep.arb, revoke := s.keep.revoke, serial := s.keep.serial, factory := s.keep.factory, firmware := flash }
  .next { State.reset with schedule := s.schedule, fresh := s.fresh, nextId := s.nextId, keep := keep }

/-! ### Slots, switches, commits (R395, R397, R398) -/

/-- SLOT_WRITE: only into the inactive slot (R395). -/
def execSlotWrite (kind : Nat) (slotB : Bool) (i : Image) (s : State) : Res :=
  let f := s.keep.kind kind
  if s.boot == .off || kind == 0 || 6 < kind || slotB == f.activeB then .next s
  else .next (s.onKeep fun k => k.setKind kind (f.setSlot slotB { f.slot slotB with image := some i })).reportChanged

/-- Nothing between Parse and Dispatch (R312). -/
def State.belfryIdle (s : State) : Bool := s.belfry.queues.all fun e => e.2.packets.all fun p => !p.parsed

/-- The switch point of a kind (R397). -/
def State.switchPoint (s : State) (kind : Nat) : Bool :=
  match kind with
  | 1 => s.faults.evictions.isEmpty && s.domains.all (fun e => e.2.invalidation.isNone) && s.cores.all (fun e => !e.2.held) &&
    s.annex.regions.all (fun e => !(e.2.state == .draining && e.2.forService)) && s.service.remapping.isEmpty
  | 2 => s.belfryIdle
  | 6 => s.mem.landings.isEmpty && s.mem.owner.all fun e => !e.2.queued
  | _ => true

/-- What a switch does to running work (R397). -/
def State.afterSwitch (s : State) (kind : Nat) : State :=
  match kind with
  | 2 =>
    let s := (s.belfry.queues.filter fun e => e.2.cached).foldl (fun s e => s.uncache e.1) s
    let qs := s.belfry.queues.map fun (e : Nat × Queue) => (e.1, { e.2 with packets := [], fetch := e.2.readIndex })
    { s with belfry := { s.belfry with queues := qs } }
  | 6 => { s with mem := { s.mem with nodes := s.mem.nodes.map fun e => (e.1, { e.2 with mix := 0, misuse := 0 }) } }
  | _ => s

/-- SLOT_SWITCH: the verified inactive slot becomes active at its switch point; the marker is written to flash when the
switch has completed (R397). -/
def execSlotSwitch (kind : Nat) (s : State) : Res :=
  let f := s.keep.kind kind
  if s.boot == .off || kind == 0 || 6 < kind then .next s
  else if f.unwritten then .next (s.onKeep fun k => k.setKind kind { f with unwritten := false })
  else if !s.switchPoint kind then .next s
  else match s.keep.trySlot kind (!f.activeB) with
    | none => .next s
    | some k =>
      let k := k.setKind kind { k.kind kind with activeB := !f.activeB, unwritten := true, fallback := false }
      .next ((({ s with nextId := s.nextId + 1 } : State).onKeep fun _ => k.loadKind s.nextId kind).afterSwitch kind).reportChanged

/-- COMMIT: the anti-rollback counter rises to the svn of the active image, the one that was accepted last, unless that came by
fallback (R398, LOG 140). -/
def execCommit (kind : Nat) (s : State) : Res :=
  let f := s.keep.kind kind
  match f.loaded with
  | none => .next s
  | some i =>
    if s.boot == .off || f.fallback then .next s
    else .next (s.onKeep fun k => { k with arb := Map.set 0 k.arb kind (max (Map.get 0 k.arb kind) i.svn.toNat) }).reportChanged

/-- OPERATOR_KEY_ENROLL: at stage 0, once in a power cycle (R395). -/
def execOperatorKeyEnroll (key : Nat) (s : State) : Res :=
  if s.boot != .stage0 || s.keep.operatorKey.isSome then .next s
  else .next (s.onKeep fun k => { k with operatorKey := some key }).reportChanged

/-! ### Domains (R399, R400) -/

/-- A granule of local memory that may be given to a domain. -/
def State.granuleFree (s : State) (g : Nat) : Bool :=
  g < 2 ^ 24 && (s.keep.owners.look g).isNone && !s.service.stacksRetired.contains (paDie (65536 * g))

/-- DOMAIN_CREATE: the key is drawn, the granules zeroed, and then the domain marked active; a service domain is created from
the image of the kind 3 slots, which is accepted now and loaded, and from which it takes its measurement (R396, R399). The
first root is the control block's (R337). -/
def execDomainCreate (q : DomainRequest) (s : State) : Res :=
  let keep := if q.service then s.keep.bootKind 3 else some s.keep
  if s.boot != .stage2 || q.domain == 0 || 64 ≤ q.domain || 64 ≤ q.manager || (s.domain q.domain).state != .free || q.granules.any (fun g => !s.granuleFree g) then .next s
  else match keep, s.belfryRead q.manager q.controlBlock 8 with
    | none, _ => .next s
    | _, .wait s => .next s
    | some k, r =>
      let image := if q.service then (k.kind 3).loaded else none
      let s := ({ s with nextId := s.nextId + 1 } : State).onKeep fun _ => if q.service then k.loadKind s.nextId 3 else k
      let key := s.drawKey
      let s := key.2.giveGranules q.domain q.granules
      let root := match r with | .ok bs _ => fieldAt bs 0 8 | _ => 0
      let d : Domain := { state := .active, service := q.service, manager := q.manager, controlBlock := q.controlBlock, faultQueue := q.faultQueue, root := root, msix := Config.msixEnabled q.domain, key := some key.1, measurement := (image.map imageMeasurement).getD 0, signer := (image.map fun i => i.key.toNat).getD 0 }
      .next ((s.setDomain q.domain d).installCurator q.manager).reportChanged

/-- The gate entries that target a domain lose their valid bit (R399). -/
def clearGates (m : Map GateEntry) (d : Nat) : Map GateEntry :=
  m.map fun (e : Nat × GateEntry) => if bitsAt e.2.target.toNat 0 6 == d then (e.1, { e.2 with target := e.2.target &&& 0x7F }) else e

/-- A request is on its way to a granule of the domain. -/
def State.reaches (s : State) (d : Nat) : Bool :=
  let mine (line : Nat) : Bool := s.keep.owners.look (line / 1024) == some d
  s.mem.msgs.any (fun e => mine e.2.line) || s.mem.owner.any fun e => e.2.work.line.any mine

/-- A domain has work: a launch or a region that has not ended, a group that executes in it, or a request on its way to its
memory. -/
def State.domainBusy (s : State) (d : Nat) : Bool :=
  let group (g : Group) : Bool := g.domain == d
  s.reaches d || s.groups.any (fun e => group e.2) || s.cores.any (fun e => e.2.spilled.any fun x => group x.2) || s.faults.saves.any (fun x => x.groups.any group) ||
  s.belfry.launches.any (fun e => e.2.record.domain == d) ||
  s.annex.regions.any fun e => e.2.record.domain == d && !(e.2.state == .completed || e.2.state == .failed || e.2.state == .released)

/-- DOMAIN_RELEASE: gate entries, then grants; then the key, once the domain has no work that could still reach its granules
(R403, LOG 160). The granules stay unassigned (R399). -/
def execDomainRelease (domain : Nat) (s : State) : Res :=
  if s.boot != .stage2 || domain == 0 || (s.domain domain).state == .free then .next s
  else
    let ds := s.domains.map fun (e : Nat × Domain) => (e.1, { e.2 with gates := clearGates e.2.gates domain })
    let s := { s with domains := ds }
    let s := (s.links.exports.filter fun e => e.2.local_ == domain).foldl (fun s e => s.revokeExport e.1 e.2) s
    let s := (s.domain domain).imports.foldl (fun s e => s.tell e.2.device (.released (e.1 % 2 ^ 32) Config.deviceNumber)) s
    if s.domainBusy domain then .next s
    else
    let s := { s with mem := { s.mem with tlb := s.mem.tlb.filter fun e => e.1 % 2 ^ 52 / 2 ^ 45 != domain }, keep := { s.keep with owners := s.keep.owners.filter fun e => e.2 != domain } }
    .next (s.setDomain domain {}).reportChanged

/-- An entry's fields are within R155. -/
def gateFieldsOk (e : GateEntry) : Bool :=
  e.entry.toNat % 8 == 0 && !e.target.getLsbD 6 && e.va.toNat ≤ 64 && e.sa.toNat ≤ 16 && e.vr.toNat ≤ 64 && e.sr.toNat ≤ 16 && e.flags.toNat / 4 == 0 && e.reserved == 0

/-- A requester may install an entry for a caller: it manages the caller, and the entry's target is a service domain or one that
it manages too; nobody manages a free domain (R81). -/
def State.gateAllowed (s : State) (requester : Requester) (caller : Nat) (e : GateEntry) : Bool :=
  let target := bitsAt e.target.toNat 0 6
  let manages (d : Nat) : Bool := (s.domain d).state != .free && (s.domain d).manager == Requester.domainOf requester
  manages caller && ((s.domain target).service || manages target)

/-- GATE_INSTALL: every valid entry of a section goes to its index of the caller's table, or nothing is installed and the
first failing entry is reported (R81). -/
def execGateInstall (requester : Requester) (caller : Nat) (entries : List GateEntry) (s : State) : Res :=
  let es := (entries.take 256).mapIdx fun i e => (i, e)
  let valid := es.filter fun e => e.2.target.getLsbD 7
  let bad := valid.find? fun e => !(gateFieldsOk e.2 && s.gateAllowed requester caller e.2)
  if s.boot != .stage2 then .next s
  else match bad with
    | some e => .next (s.onKeep fun k => { k with gateReport := some e.1 })
    | none =>
      let d := s.domain caller
      let t := if valid.isEmpty then s else s.setDomain caller { d with gates := valid.foldl (fun m e => m.put e.1 e.2) d.gates }
      .next (t.onKeep fun k => { k with gateReport := none })

/-! ### Attestation (R394, R401) -/

/-- GET_CERTIFICATE: Troiq's certificate for the identity (R394). -/
def execGetCertificate (s : State) : Res :=
  match s.keep.idPub with
  | some k => .next (s.onKeep fun x => { x with certificate := some (Config.certificate k) })
  | none => .next s

def bootNumber : Boot → Nat
  | .off => 0
  | .stage0 => 0
  | .stage1 => 1
  | .stage2 => 2

def flag (b : Bool) : List Byte := [if b then 1 else 0]

/-- A kind's part of the report: measurement, svn, key index and marker of both slots, each of the image that was accepted last
(R396, R403). -/
def Keep.reportKind (k : Keep) (n : Nat) : List Byte :=
  let f := k.kind n
  let one (x : Slot) (active : Bool) : List Byte :=
    leBytes 64 x.measurement ++ [x.svn, x.key] ++ flag active
  one f.a (!f.activeB) ++ one f.b f.activeB

/-- A domain's part of the report. -/
def State.reportDomain (s : State) (n : Nat) : List Byte :=
  let d := s.domain n
  let number : DomainState → Nat := fun x => match x with | .free => 0 | .active => 1 | .quarantined => 2
  let rights (r w a : Bool) : List Byte := flag r ++ flag w ++ flag a
  leBytes 1 (number d.state) ++ flag d.service ++ leBytes 1 d.manager ++ leBytes 4 (s.keep.owners.filter fun e => e.2 == n).length ++
  (List.range 16).flatMap (fun i => leBytes 1 (s.quota n i)) ++
  (let qs := s.belfry.queues.filter fun e => e.2.domain == n; leBytes 4 qs.length ++ qs.flatMap fun e => leBytes 4 e.1) ++
  (s.links.windows.filter fun e => e.2.domain == n).flatMap (fun e => leBytes 8 e.2.hpa ++ leBytes 8 e.2.length ++ leBytes 8 e.2.pa ++ [e.2.flags]) ++
  d.imports.flatMap (fun e => leBytes 8 e.1 ++ leBytes 8 e.2.base ++ leBytes 8 e.2.length ++ leBytes 2 e.2.device ++ rights e.2.r e.2.w e.2.a) ++
  (s.links.exports.filter fun e => e.2.local_ == n).flatMap (fun e => leBytes 4 e.1 ++ leBytes 8 e.2.base ++ leBytes 8 e.2.length ++ leBytes 2 e.2.device ++ leBytes 1 e.2.domain ++ rights e.2.r e.2.w e.2.a) ++
  leBytes 8 d.integrity ++ (if d.service then leBytes 64 d.measurement ++ leBytes 1 d.signer else [])

/-- The spare map's part of the report. -/
def State.reportSpares (s : State) : List Byte :=
  (List.range 384).flatMap (fun c => flag (s.core c).retired) ++ s.service.substitute.flatMap (fun e => leBytes 2 e.1 ++ leBytes 2 e.2) ++
  s.service.columns.flatMap (fun e => leBytes 1 e.1 ++ e.2.flatMap (leBytes 1)) ++ s.service.slicesRetired.flatMap (leBytes 1) ++
  s.service.stacksRetired.flatMap (leBytes 1) ++ s.service.diesRetired.flatMap (leBytes 1) ++ s.service.rowMap.flatMap (fun e => leBytes 8 e.1) ++ s.links.ports.flatMap fun e => flag e.2.spareUsed ++ flag e.2.retired

/-- The report of R401, its parts in the order of the table, on the domains asked for. The layout is the model's (LOG 37). -/
def State.reportText (s : State) (nonce user : List Byte) (domains : List Nat) : List Byte :=
  nonce ++ user ++ leBytes 64 (Config.shake (leBytes 1793 (s.keep.idPub.getD 0)) 512) ++ leBytes 8 s.keep.serial.toNat ++
  leBytes 64 (match s.keep.idPub with | some k => Config.shake (leBytes 4096 (Config.certificate k)) 512 | none => 0) ++ leBytes 1 (bootNumber s.boot) ++ leBytes 1 (s.keep.failure.getD 255) ++
  (List.range 6).flatMap (fun i => s.keep.reportKind (i + 1)) ++ (List.range 8).flatMap (fun i => leBytes 8 (Map.get 0 s.keep.arb i)) ++ leBytes 64 (match s.keep.operatorKey with | some k => Config.shake (leBytes 1793 k) 512 | none => 0) ++
  domains.flatMap s.reportDomain ++ s.reportSpares ++ leBytes 8 s.keep.reports

/-- A report as one snapshot, signed with the identity key (R401). -/
def State.signReport (s : State) (nonce user : List Byte) (domains : List Nat) : State × (List Byte × Nat) :=
  let s := s.onKeep fun k => { k with reports := k.reports + 1 }
  let text := s.reportText nonce user domains
  (s, text, Config.falconSign (Config.shake (leBytes 64 s.keep.uds.toNat ++ label "identity") 384) text)

/-- Bytes for consecutive addresses, in pieces that stay inside lines. -/
def linePieces (va : Dword) (bs : List Byte) (fuel : Nat) : List (Dword × List Byte) :=
  match fuel with
  | 0 => []
  | fuel + 1 =>
    if bs.isEmpty then []
    else
      let n := 64 - va.toNat % 64
      (va, bs.take n) :: linePieces (va + BitVec.ofNat 64 n) (bs.drop n) fuel

/-- Bytes of a signature in the padded format (R395, R401). -/
def signatureBytes : Nat := 1280

/-- GET_MEASUREMENTS: the host's report, signed (R401), with a nonce of 32 bytes and user data of 64. A domain's report is about
itself, and is written with its signature into the domain's memory (LOG 99). -/
def execGetMeasurements (nonce : List Byte) (user : ReportUser) (s : State) : Res :=
  match s.keep.idPub, user with
  | none, _ => .next s
  | some _, .host data =>
    if nonce.length != 32 || data.length != 64 then .next s
    else let r := s.signReport nonce data (List.range 64); .next (r.1.onKeep fun k => { k with report := some r.2 })
  | some _, .domain d va data =>
    if nonce.length != 32 || data.length != 64 || s.boot != .stage2 || (s.domain d).state != .active then .next s
    else
      let r := s.signReport nonce data [d]
      let bs := r.2.1 ++ leBytes signatureBytes r.2.2
      .next (({ r.1 with nextId := r.1.nextId + 1 } : State).owe ((linePieces va bs (bs.length + 1)).map fun x => ⟨2 ^ 20 + r.1.nextId, d, .store x.1 x.2⟩))

/-! ### Telemetry (R402, R408) -/

/-- A record of the service ring as its 32 bytes (R408); a time in ns. -/
def ServiceRec.bytes (r : ServiceRec) : List Byte :=
  [r.kind, r.unitClass] ++ leBytes 2 r.unit ++ leBytes 4 r.detail.toNat ++ leBytes 8 r.address.toNat ++ leBytes 8 r.time ++ leBytes 4 r.overwritten ++ leBytes 4 0

/-- The service ring, oldest record first. -/
def State.ringBytes (s : State) : List Byte := s.service.ring.flatMap ServiceRec.bytes

/-- Telemetry: power and temperature, which are free; the stage; the error counts; and the service ring (R402, R408). Its layout
is the model's (LOG 161). -/
def State.telemetryText (s : State) : List Byte :=
  leBytes 8 (Config.freeWord s.fresh).toNat ++ leBytes 8 (Config.freeWord (s.fresh + 1)).toNat ++ leBytes 1 (bootNumber s.boot) ++
  s.service.corrected.flatMap (fun e => leBytes 8 e.1 ++ leBytes 4 (e.2 % 2 ^ 20)) ++ (List.range 64).flatMap (fun d => leBytes 8 (s.domain d).integrity) ++ s.ringBytes

/-- The host reads telemetry, and the management Curator of domain 0 the service ring (R402, R408). -/
def State.readTelemetry (s : State) (who : Requester) : State :=
  match who with
  | .host => if s.boot == .off then s else ({ s with fresh := s.fresh + 2 } : State).onKeep fun k => { k with telemetry := s.telemetryText }
  | .domain d => if d == 0 && (s.boot == .stage1 || s.boot == .stage2) then s.onKeep fun k => { k with ringRead := s.ringBytes } else s

end Sys2Proof.Machine
end

