-- ==== Sys2Proof/Machine/Service.lean ====
section
/-! DEFINITION. Service and repair: the rebase of times (R404, R405), scrub and repair (R409-R415), power (R416, R417). -/
namespace Sys2Proof.Machine

/-! ### Rebase (R404, R405) -/

def Frame.rebase (f : Frame) : Frame := { f with rclk := sat f.rclk, wclk := sat f.wclk }
def Group.rebase (g : Group) : Group :=
  { g with rclk := sat g.rclk, wclk := sat g.wclk, marks := g.marks.map fun m => { m with wts := m.wts.map sat }, frames := g.frames.map Frame.rebase }
def Block.rebase (b : Block) : Block := { b with kept := b.kept.map fun e => (e.1, sat e.2) }
def Job.rebase (j : Job) : Job :=
  let header : Option (Nat × Nat × Nat × Time) := j.header.map fun h => (h.1, h.2.1, h.2.2.1, sat h.2.2.2)
  { j with maxWts := sat j.maxWts, header := header }
def GathJob.rebase (j : GathJob) : GathJob := { j with maxWts := sat j.maxWts, rclk := sat j.rclk }
def OwedStep.rebase (o : OwedStep) : OwedStep :=
  { o with what := match o.what with
    | .arrive va clk tag slot => .arrive va (sat clk) tag slot
    | .signal va clk tag report => .signal va (sat clk) tag report
    | w => w }
def Saved.rebase (x : Saved) : Saved := { x with data := x.data.rebase, groups := x.groups.map Group.rebase, jobs := x.jobs.map Job.rebase }
def Core.rebase (c : Core) : Core := { c with spilled := c.spilled.map fun e => (e.1, e.2.rebase) }
def Packet.rebase (p : Packet) : Packet := { p with start := sat p.start }
def Queue.rebase (q : Queue) : Queue := { q with packets := q.packets.map Packet.rebase }
def Launch.rebase (l : Launch) : Launch := { l with start := sat l.start, rmax := sat l.rmax, wmax := sat l.wmax }
def Region.rebase (g : Region) : Region := { g with start := sat g.start, clock := sat g.clock }
def Inst.rebase (n : Inst) : Inst := { n with stamp := sat n.stamp }

/-- Apply a function to every entry of a table. -/
def Map.each {α : Type} (m : Map α) (f : α → α) : Map α := m.map fun e => (e.1, f e.2)

/-- 2^39 or more. -/
def timeHigh (t : Time) : Bool := t.getLsbD 39

/-- Every time that a group holds. -/
def Group.times (g : Group) : List Time := [g.rclk, g.wclk] ++ g.marks.filterMap (·.wts) ++ g.frames.flatMap fun f => [f.rclk, f.wclk]
def Block.times (b : Block) : List Time := b.kept.map (·.2)
def Job.times (j : Job) : List Time := j.maxWts :: (match j.header with | some h => [h.2.2.2] | none => [])
def Saved.times (x : Saved) : List Time := x.data.times ++ x.groups.flatMap Group.times ++ x.jobs.flatMap Job.times
def OwedStep.times (o : OwedStep) : List Time := match o.what with | .arrive _ clk _ _ => [clk] | .signal _ clk _ _ => [clk] | _ => []
/-- The times that a request carries, and those of its answer. -/
def State.msgTimes (s : State) (m : Msg) : List Time := m.clk :: (match m.stage with | .reply t p _ _ => [s.cur t, s.cur p] | _ => [])
def Region.times (g : Region) : List Time := [g.start, g.clock]
def Launch.times (l : Launch) : List Time := [l.start, l.rmax, l.wmax]

/-- Every time that the device holds or carries (R404): of cores and their groups, of memory and what is on its way, of the
Belfry's packets and launches, of the Annex, and of saves. -/
def State.times (s : State) : List Time :=
  let copy (c : CopyLine) : List Time := [s.cur c.wts, s.cur c.rts]
  s.groups.flatMap (fun e => e.2.times) ++ s.cores.flatMap (fun e => e.2.spilled.flatMap fun x => x.2.times) ++ s.blocks.flatMap (fun e => e.2.times) ++
  s.jobs.flatMap (fun e => e.2.times) ++ s.gaths.flatMap (fun e => [e.2.maxWts, e.2.rclk]) ++ s.copies.map (fun e => e.2.carried) ++ s.faults.saves.flatMap Saved.times ++
  s.mem.xclk :: s.mem.mts.map (fun e => s.cur e.2) ++ s.mem.l2.flatMap (fun e => [s.cur e.2.wts, s.cur e.2.rts]) ++ s.mem.l1.flatMap (fun e => copy e.2) ++ s.mem.icache.flatMap (fun e => copy e.2) ++
  s.mem.msgs.flatMap (fun e => s.msgTimes e.2) ++ s.belfry.queues.flatMap (fun e => e.2.packets.map (·.start)) ++ s.belfry.launches.flatMap (fun e => e.2.times) ++
  s.belfry.starts.map (fun e => e.2.2) ++ s.belfry.owed.flatMap OwedStep.times ++ s.annex.regions.flatMap (fun e => e.2.times) ++ s.annex.insts.map (fun e => e.2.stamp) ++
  s.annex.checkpoints.map (fun c => c.inst.stamp) ++ s.annex.cache.map (·.stamp)

/-- A group clock, an mts or a stored time has reached 2^39. -/
def State.rebaseDue (s : State) : Bool := s.times.any timeHigh

/-- A request keeps its clock. One that its home has answered keeps the end of the lease that the home granted, which is what the
copy takes (R228, R405). -/
def Msg.rebase (m : Msg) : Msg :=
  match m.stage with
  | .reply _ _ _ _ => { m with clk := sat m.clk, lease := sat (m.clk + m.lease) - sat m.clk }
  | _ => { m with clk := sat m.clk }

/-- The phase flips, and every clock and every time in flight is lowered. Stored times keep their phase bit until the sweep
(R404). -/
def State.rebase (s : State) : State :=
  let mts := Map.each s.mem.mts fun x => (⟨sat (s.cur x), !s.phase⟩ : Stamp)
  let mem := { s.mem with mts := mts, xclk := sat s.mem.xclk, msgs := Map.each s.mem.msgs Msg.rebase }
  let annex := { s.annex with regions := Map.each s.annex.regions Region.rebase, insts := Map.each s.annex.insts Inst.rebase, checkpoints := s.annex.checkpoints.map (fun c => { c with inst := c.inst.rebase }), cache := s.annex.cache.map fun c => { c with stamp := sat c.stamp } }
  let belfry := { s.belfry with queues := Map.each s.belfry.queues Queue.rebase, launches := Map.each s.belfry.launches Launch.rebase, starts := s.belfry.starts.map (fun e => (e.1, e.2.1, sat e.2.2)), owed := s.belfry.owed.map OwedStep.rebase }
  { s with phase := !s.phase, sweeping := true, mem := mem, annex := annex, belfry := belfry, cores := Map.each s.cores Core.rebase, groups := Map.each s.groups Group.rebase, blocks := Map.each s.blocks Block.rebase, copies := Map.each s.copies (fun c => { c with carried := sat c.carried }), jobs := Map.each s.jobs Job.rebase, gaths := Map.each s.gaths GathJob.rebase, faults := { s.faults with saves := s.faults.saves.map Saved.rebase } }

/-- REBASE_START: a time has reached 2^39 and no sweep is running (R404). -/
def execRebaseStart (s : State) : Res :=
  if s.sweeping || !s.rebaseDue then .next s else .next (s.rebase.serve 6 7 0 0 0)

/-- REBASE_SWEEP_DONE: every old-phase time has been rewritten in the current phase; copies that it makes absent are gone
(R404). -/
def execRebaseSweepDone (s : State) : Res :=
  if !s.sweeping then .next s
  else
    let now (x : Stamp) : Stamp := s.stamp (s.cur x)
    let copy (c : CopyLine) : Option CopyLine := (s.view c).map fun v => ⟨v.data, v.valid, s.stamp v.wts, s.stamp v.rts, v.pend⟩
    let copies (m : Map CopyLine) : Map CopyLine := m.filterMap fun e => (copy e.2).map fun c => (e.1, c)
    let msg (m : Msg) : Msg := match m.stage with | .reply t p d b => { m with stage := .reply (now t) (now p) d b } | _ => m
    let mem := { s.mem with mts := Map.each s.mem.mts now, l2 := Map.each s.mem.l2 (fun h => { h with wts := now h.wts, rts := now h.rts }), l1 := copies s.mem.l1, icache := copies s.mem.icache, msgs := Map.each s.mem.msgs msg }
    .next (({ s with mem := mem, sweeping := false } : State).serve 7 7 0 0 0)

/-! ### Scrub and rows (R409, R411) -/

/-- cc of a scrub pass of 24 h. -/
def scrubPass : Nat := 24 * 3600 * 4000000000

/-- The key of a unit's count. -/
def State.unitKey (s : State) (u : ArrayUnit) : Nat := 8 * (s.unitOf u).2 + (s.unitOf u).1.toNat

/-- Correctable errors of a unit in the current pass. -/
def State.errorsOf (s : State) (key : Nat) : Nat :=
  let x := Map.get 0 s.service.corrected key
  if x / 2 ^ 20 == s.now / scrubPass then x % 2 ^ 20 else 0

/-- A corrected error counts against its unit, and for HBM against its row; at 16 in a pass the row's repair is scheduled (R406,
R409). The data are as they were. -/
def State.countCorrected (s : State) (u : ArrayUnit) : State :=
  let k := s.unitKey u
  let n := s.errorsOf k + 1
  let s := { s with service := { s.service with corrected := s.service.corrected.put k (s.now / scrubPass * 2 ^ 20 + n) } }
  match u with
  | .hbm line =>
    let row := Config.rowOf line
    if n == 16 then ({ s with service := { s.service with scheduled := row :: s.service.scheduled.filter (· != row) } } : State).serve 1 2 row (BitVec.ofNat 32 n) (64 * line) else s
  | _ => s

/-- The codeword of an array has become uncorrectable: its line stays so until it is written whole, or leaves its slice. What the
other arrays hold meets the reads of `State.upset` (R406, R407). -/
def State.spoil (s : State) (u : ArrayUnit) : State :=
  match u with
  | .hbm line => { s with mem := { s.mem with bad := line :: s.mem.bad.filter (· != line) } }
  | .l2 line => if (s.mem.l2.look line).isSome then { s with mem := { s.mem with badL2 := line :: s.mem.badL2.filter (· != line) } } else s
  | _ => s

/-- The tag of a line no longer fits (R400). -/
def State.spoilTag (s : State) (line : Nat) : State :=
  (({ s with mem := { s.mem with forged := line :: s.mem.forged.filter (· != line) } } : State)).spoil (.hbm line)

/-- The domain that owns the granule of an array's line; 0 for other arrays and for the device's own granules. -/
def State.unitDomain (s : State) (u : ArrayUnit) : Nat :=
  match u with
  | .hbm line => (s.keep.owners.look (line / 1024)).getD 0 % 64
  | .l2 line => (s.keep.owners.look (line / 1024)).getD 0 % 64
  | _ => 0

/-- PATROL_SCRUB: what scrub finds in a line of HBM or L2, in an array of a core or in an Annex column; it changes no time and no
value (R406, R407, R409). -/
def execPatrolScrub (line : ArrayUnit) (found : ScrubResult) (s : State) : Res :=
  if s.boot != .stage2 then .next s
  else match found, line with
    | .clean, _ => .next s
    | .corrected, u => .next (s.countCorrected u)
    | .uncorrectable, u => .next ((s.spoil u).serveUnit u (s.unitDomain u))
    | .badTag, .hbm l => .next ((s.spoilTag l).logBad l (s.unitDomain (.hbm l)))
    | .badTag, u => .next ((s.spoil u).serveUnit u (s.unitDomain u))

/-- ROW_REPAIR: a row whose repair is scheduled goes to a spare row of its bank, also from a spare row that has failed in its turn,
which changes no value; without a spare it stays and is reported (R411). -/
def execRowRepair (row : Nat) (s : State) : Res :=
  if !s.service.scheduled.contains row then .next s
  else
    let bank := Config.bankOf row
    let used := Map.get 0 s.service.rowsUsed bank
    let s := { s with service := { s.service with scheduled := s.service.scheduled.filter (· != row) } }
    if used < Config.spareRows then
      let s := s.serve 3 2 row 0 0
      let s := { s with service := { s.service with rowMap := s.service.rowMap.put row used, rowsUsed := s.service.rowsUsed.put bank (used + 1), corrected := s.service.corrected.del (8 * row + 2) } }
      .next (s.serve 4 2 row 0 0).reportChanged
    else .next (s.serve 5 2 row 0 0)

/-! ### Cores (R410, R415) -/

/-- Cohorts with a block on a core. -/
def State.cohortsOn (s : State) (core : Nat) : List (Nat × Nat) := ((s.blocksOn core).map fun b => (b.2.launch, b.2.cohort)).eraseDups

/-- The name under which what a core's lost groups have issued goes on; no resident group has it. -/
def lostGroup (core : Nat) : Nat := 2 ^ 40 + core

/-- A core's L1 and instruction cache are invalid whole, pending bytes included (R410, R415). -/
def State.clearL1 (s : State) (core : Nat) : State :=
  let mine (k : Nat) : Bool := k / 2 ^ 46 == core
  { s with mem := { s.mem with l1 := s.mem.l1.filter (fun e => !mine e.1), icache := s.mem.icache.filter fun e => !mine e.1 } }

/-- The core's incarnation rises, and messages of the earlier one are discarded by whoever receives them (R415). -/
def State.newIncarnation (s : State) (core : Nat) : State :=
  let old (f : OwnerFrom) : Bool := match f with | .group k _ => k == lostGroup core | _ => false
  let mem := { s.mem with msgs := s.mem.msgs.filter (fun e => e.2.group != lostGroup core), owner := s.mem.owner.filter fun e => !old e.2.from_ }
  ({ s with mem := mem } : State).onCore core fun c => { c with incarnation := c.incarnation + 1 }

/-- The groups of a core that failed before they could be saved are lost; what they have issued goes on, and completes for
nobody (R410, R415). -/
def State.loseCore (s : State) (core : Nat) : State :=
  let ls := ((s.blocksOn core).map fun b => b.2.launch).eraseDups
  let lost := s.blocksOn core
  let gs := s.groups.filter fun e => keyCore e.1 == core
  let s := gs.foldl (fun s e => (e.2.eps.foldl (fun s x => if x.2.sink then s.closeSink x.2 false else s.closeSource x.2) s).noteClocks e.2) s
  let msgs := (s.mem.msgs.filter fun e => e.2.core != core || e.2.kind.isStore || e.2.kind.isAtomic).map fun (e : Nat × Msg) => if e.2.core == core then (e.1, { e.2 with group := lostGroup core }) else e
  let owner := s.mem.owner.map fun (e : Nat × OwnerReq) => match e.2.from_ with
    | .group k op => if keyCore k == core then (e.1, { e.2 with from_ := .group (lostGroup core) op }) else e
    | _ => e
  let s := { s with mem := { s.mem with msgs := msgs, owner := owner }, groups := s.groups.filter (fun e => keyCore e.1 != core), jobs := s.jobs.filter (fun e => keyCore e.2.group != core), gaths := s.gaths.filter (fun e => keyCore e.2.group != core), copies := s.copies.filter fun e => keyCore e.2.group != core }
  let s := s.onCore core fun c => { c with docent := [], spilled := [], engine := [] }
  let s := lost.foldl (fun s b => ({ s with blocks := s.blocks.del b.1 } : State).onLaunch b.2.launch fun l => { l with blocksLeft := l.blocksLeft - 1 }) s
  ls.foldl (fun s l =>
    let q := s.packetOf l
    let d := match s.belfry.launches.look l with | some x => x.record.domain | none => 0
    let r := { launchRecord s.nextId q.1 q.2 d 0 0 (some l) none 8 with code := faultData, source := 5, detail := 0, core := core, incarnation := (s.core core).incarnation }
    ((({ s with nextId := s.nextId + 1 } : State).raise r).terminate l).reap l) s

/-- The core leaves service, and the cluster's spare takes its number where it can; a core that enters service counts its rows
from 0 (R144). -/
def State.replaceCore (s : State) (core : Nat) (spareOk lost : Bool) : State :=
  let cluster := core / 24
  let s := s.clearL1 core
  let s := s.serve 3 0 core 0 0
  if spareOk && !s.service.spareUsed.contains cluster then
    let s := { s with service := { s.service with spareUsed := cluster :: s.service.spareUsed, substitute := s.service.substitute.put core (25 * cluster + 24) } }
    ((s.newIncarnation core).onCore core fun c => { c with service := true, retired := false, held := false, since := s.now, creeps := 0, left := none, carveNext := none, rowsAsked := 0, rowsFetched := 0, hotHits := 0 }).serve 4 0 core 0 0
  else (s.onCore core fun c => { c with service := false, retired := !lost, held := false, left := some s.now, carveNext := none }).serve 5 0 core 0 0

/-- CORE_SUBSTITUTE: the core's cohorts are evicted, and once it is empty the cluster's spare takes its number, or it is
retired; a core that has failed loses its groups (R410). -/
def execCoreSubstitute (core : Nat) (spareOk lost : Bool) (s : State) : Res :=
  if !(s.core core).service then .next s
  else if lost then .next ((s.loseCore core).replaceCore core spareOk true).reportChanged
  else
    let s := s.onCore core fun c => { c with held := true }
    if (s.blocksOn core).isEmpty then .next ((s.replaceCore core spareOk false).reportChanged)
    else .next ((s.cohortsOn core).foldl (fun s e => s.startEviction e.1 e.2 false) s)

/-- CORE_REJOIN: no earlier than 1 ms after it left service a core rejoins, with its L1 invalid, pending bytes included, its row
counters at 0 (R144) and the next incarnation; messages of the earlier one are discarded (R415). -/
def execCoreRejoin (core : Nat) (s : State) : Res :=
  let c := s.core core
  match c.left with
  | none => .next s
  | some t =>
    if c.service || c.retired || s.now < t + 4000000 then .next s
    else
      let s := ((s.clearL1 core).newIncarnation core).onCore core fun c => { c with service := true, since := s.now, creeps := 0, left := none, rowsAsked := 0, rowsFetched := 0, hotHits := 0 }
      .next ((s.serve 10 0 core 0 0).reportChanged)

/-! ### Columns and slices (R412, R413) -/

/-- COLUMN_REMAP: instances in the square column are drained, then the column moves to one of 4 spares, or its 8 squares leave
placement; a strip column waits for its owner nodes and bindings (R412). A remap that waits is in progress (R397). -/
def execColumnRemap (die column : Nat) (s : State) : Res :=
  let used := Map.get [] s.service.columns die
  let unit := 136 * die + column
  let wait (s : State) : State := { s with service := { s.service with remapping := (die, column) :: s.service.remapping.filter (· != (die, column)) } }
  let move (s : State) : Res :=
    let s := ({ s with service := { s.service with remapping := s.service.remapping.filter (· != (die, column)) } } : State).serve 3 3 unit 0 0
    if used.length < 4 then
      .next (({ s with service := { s.service with columns := s.service.columns.put die (used ++ [column]) } } : State).serve 4 3 unit 0 0).reportChanged
    else
      .next (({ s with service := { s.service with squaresOut := s.service.squaresOut ++ (if column < 128 then (List.range 8).map fun sy => (die, 8 * sy + column / 16) else []) } } : State).serve 5 3 unit 0 0).reportChanged
  if s.boot != .stage2 || 16 ≤ die || 136 ≤ column then .next s
  else if 128 ≤ column then
    if s.mem.owner.any (fun e => e.2.queued && e.2.die == die) || s.mem.landings.any fun e => e.2.die == die then .next (wait s) else move s
  else
    let hit := s.annex.insts.filter fun e => e.2.die == die && e.2.sx ≤ column / 16 && column / 16 < e.2.sx + e.2.cols
    if hit.isEmpty then move s
    else .next (wait (hit.foldl (fun s e => s.drainRegion e.2.region false true) s))

/-- The slice that an index of the spread table names (R223). -/
def State.spreadOf (s : State) (i : Nat) : Nat := (s.mem.spread.look i).getD (i % 64)

/-- Index of a line in the spread table (R223). -/
def lineIndex (line : Nat) : Nat := (line % 4096) ^^^ (line / 4096 % 4096) ^^^ (line / 2 ^ 24 % 4096) ^^^ (line / 2 ^ 36 % 1024)

/-- The in-service slice with the fewest entries, on a tie the lowest number, other than `k`. -/
def State.newSlice (s : State) (k : Nat) : Nat :=
  let count (t : Nat) : Nat := ((List.range 4096).filter fun i => s.spreadOf i == t).length
  let open_ := (List.range 64).filter fun t => t != k && !s.service.slicesRetired.contains t
  match open_ with
  | [] => k
  | t :: rest => (rest.foldl (fun (a : Nat × Nat) t => let n := count t; if n < a.2 then (t, n) else a) (t, count t)).1

/-- One index moves to a new slice, whose mts covers every lease that was granted for it (R413). -/
def State.moveIndex (s : State) (k i : Nat) : State :=
  let t := s.newSlice k
  let ls := (s.mem.l2.filter fun e => lineIndex e.1 == i).map (·.1)
  let high := ls.foldl (fun a l => match s.mem.l2.look l with | some h => tmax a (s.cur h.rts) | none => a) 0
  let s := ls.foldl (fun s l => s.evictLine l true 0) s
  let s := s.setMts t (tmax (tmax (s.mtsOf t) (s.mtsOf k)) high)
  { s with mem := { s.mem with spread := if t == i % 64 then s.mem.spread.del i else s.mem.spread.put i t } }

/-- SLICE_RETIRE: once the requests already at the slice have completed, every index moves, and the slice is power-gated
(R413). -/
def execSliceRetire (slice : Nat) (s : State) : Res :=
  let waiting := s.mem.msgs.any fun e => MsgStage.isAtOwner e.2.stage && s.mem.slice e.2.line == slice
  if 64 ≤ slice || s.service.slicesRetired.contains slice || 63 ≤ s.service.slicesRetired.length || waiting || s.boot != .stage2 then .next s
  else
    let s := ((List.range 4096).filter fun i => s.spreadOf i == slice).foldl (fun s i => s.moveIndex slice i) s
    let s := { s with service := { s.service with slicesRetired := s.service.slicesRetired ++ [slice], gated := (400 + slice) :: s.service.gated } }
    .next ((s.serve 5 1 slice 0 0).reportChanged)

/-! ### Power (R416, R417) -/

def PowerRequest.has (q : PowerRequest) (c : Nat) : Bool := q.channel ≤ c && c < q.channel + q.count

/-- Instances that hold state served by the channels: those that bind a port of one of them (R367, R417). -/
def State.served (s : State) (q : PowerRequest) : List (Nat × Inst) :=
  s.annex.insts.filter fun e => e.2.die == q.die && e.2.ports.any fun p => PowerRequest.has q (p.1 / 2)

/-- Channel of a local line (R367). -/
def lineChannel (line : Nat) : Nat := (line / 4 % 32) ^^^ (line / 2 ^ 15 % 32)

/-- The island that a request names: a controller's for its four channels, otherwise the channel pair's of the Annex die (R416,
LOG 38). -/
def PowerRequest.island (q : PowerRequest) : Nat := if q.count == 4 then 496 + 8 * q.die + q.channel / 4 else 624 + 25 * q.die + 9 + q.channel / 2

/-- POWER_REQUEST: deferred while an instance or a landing binding holds state there; the regions are drained to a checkpoint;
then it is applied (R417). -/
def execPowerRequest (q : PowerRequest) (s : State) : Res :=
  let unit := PowerRequest.island q
  let live := s.served q
  let bound := s.mem.landings.any fun e => e.2.die == q.die && e.2.lines.any fun l => PowerRequest.has q (lineChannel l)
  if s.boot != .stage2 || s.service.poweredDown.contains q then .next s
  else if live.isEmpty && !bound then
    let s := { s with service := { s.service with deferred := s.service.deferred.filter (· != q), poweredDown := s.service.poweredDown ++ [q] } }
    .next (s.serve 9 5 unit 0 0)
  else
    let s := if s.service.deferred.contains q then s else ({ s with service := { s.service with deferred := s.service.deferred ++ [q] } } : State).serve 8 5 unit 0 0
    .next (live.foldl (fun s e => s.drainRegion e.2.region false true) s)

/-- Whether an island may be gated (R416): of a core, by the groups that the physical core holds, which for one that has been
replaced are none (R410). Islands are numbered in the order of R416's table: 400 cores, 64 slices, 16 cluster
networks, 3 segments, Belfry, Lantern, Keep and CXL port, 9 Spire groups, 128 controllers, and for each die 8 square rows, the
strip and 16 channel pairs (LOG 38). -/
def State.mayGate (s : State) (island : Nat) : Bool :=
  if island < 400 then
    let number := 24 * (island / 25) + island % 25
    let logical :=
      if island % 25 == 24 then (s.service.substitute.find? fun e => e.2 == island).map (·.1)
      else if (s.service.substitute.look number).isSome then none else some number
    match logical with
    | some c => !s.groups.any fun e => keyCore e.1 == c
    | none => true
  else if island < 464 then true
  else if island < 624 then false
  else
    let die := (island - 624) / 25
    let k := (island - 624) % 25
    if k < 8 then !s.annex.insts.any fun e => e.2.die == die && e.2.sy ≤ k && k < e.2.sy + e.2.rows
    else k == 8 && s.boot != .stage2

/-- An island is gated: firmware has gated it, and it may be (R416). A core that takes a group, or a square row that takes an
instance, is powered as long as it holds it. -/
def State.islandGated (s : State) (island : Nat) : Bool := s.service.gated.contains island && s.mayGate island

/-- OPERATING_POINT_CHANGE: a change of point changes time only; an island is gated only where it may be (R416). In stage 0 every
island but the Keep's, number 485, stays at its lowest point, 0 (R392, LOG 38). -/
def execOperatingPointChange (island point : Nat) (gate : Bool) (s : State) : Res :=
  if 1024 ≤ island || ((s.boot == .off || s.boot == .stage0) && island != 485) then .next s
  else if gate then
    if s.mayGate island then .next { s with service := { s.service with gated := if s.service.gated.contains island then s.service.gated else island :: s.service.gated } } else .next s
  else
    let off := 400 ≤ island && s.service.slicesRetired.contains (island - 400)
    .next { s with service := { s.service with points := s.service.points.put island point, gated := if off then s.service.gated else s.service.gated.filter (· != island) } }

end Sys2Proof.Machine
end

