-- ==== Sys2Proof/Machine/Arrays.lean ====
section
/-! DEFINITION. Uncorrectable reads of arrays other than memory: register files, scratchpads and courier sources (R406, R407). -/
namespace Sys2Proof.Machine

/-- An uncorrectable read of an array of a core is recorded (R408): unit class 0. -/
def State.serveCore (s : State) (core domain : Nat) : State := s.serve 2 0 core (BitVec.ofNat 32 (6 + 256 * domain)) 0

/-- The record of an error in a core's array, for the domain that a group executes in. -/
def State.serveGroup (s : State) (key : Nat) : State :=
  s.serveCore (keyCore key) (match s.groups.look key with | some g => g.domain | none => 0)

/-- The next word of a strand names a register. -/
def State.readsRegister (s : State) (r : StrandRef) : Bool :=
  match s.strandAt r with
  | none => false
  | some (g, st) => match s.fetch r.core g st.pc with
    | .word w _ => match decodeCore w with
      | .ok i => !(Instr.vregs i).isEmpty || (Instr.sregs i).any (fun k => k != 0 && k < 64)
      | .error _ => false
    | _ => false

/-- The instruction of a strand's next word. -/
def State.nextInstr (s : State) (r : StrandRef) : Option Instr :=
  match s.strandAt r with
  | none => none
  | some (g, st) => match s.fetch r.core g st.pc with
    | .word w _ => (match decodeCore w with | .ok i => some i | .error _ => none)
    | _ => none

/-- A Catalogue instruction that reads its table. -/
def Instr.readsTable : Instr → Bool
  | .cins _ => true
  | .cprb _ => true
  | .cdel _ => true
  | .cacc _ => true
  | .cdrn _ => true
  | _ => false

/-- A strand's next word is a load of which a lane hits in the core's L1 (R228). -/
def State.loadsCached (s : State) (r : StrandRef) : Bool :=
  match s.strandAt r, s.nextInstr r with
  | some (g, st), some (.ld f) =>
    let c : Ctx := { s := s, r := r, key := gkey r.core r.slot, g := g, st := st, free := s.fresh }
    (c.active f.g).any fun l => match s.trans g.domain (c.ea f l) wantLoad with
      | .ok pa near => !near && (s.l1View r.core (pa / 64)).isSome
      | .bad _ _ => false
  | _, _ => false

/-- A strand's next word takes DATA when it would issue, for an array of its core that the word reads. -/
def State.upsetWord (s : State) (r : StrandRef) (reads : Bool) : State :=
  if s.isReady r && s.mayIssue r && reads then
    match s.strandAt r with
    | some (_, st) => (s.serveGroup (gkey r.core r.slot)).takeFault r st.pc { code := faultData }
    | none => s
  else s

/-- A read of an array is uncorrectable (R407, LOG 139): the word that reads a register, a Catalogue table, an L1 copy or the
instruction cache takes DATA when it would issue; the lanes of a scratchpad load do; a courier's group does, and the chunk or
line that it did not read stays as it was. A codeword or tag of a line stops whoever reads the line next. -/
def State.upset (s : State) (x : ArrayRead) : State :=
  match x with
  | .register r => s.upsetWord r (s.readsRegister r)
  | .table r => s.upsetWord r ((s.nextInstr r).any Instr.readsTable)
  | .cached r => s.upsetWord r (s.loadsCached r)
  | .fetched r => s.upsetWord r (s.nextInstr r).isSome
  | .codeword line l2 => s.spoil (if l2 then .l2 line else .hbm line)
  | .tag line => s.spoilTag line
  | .spad core slot =>
    match (s.groups.look (gkey core slot)).bind fun g => g.spads.head? with
    | some a => if a.loads.isEmpty then s else (s.serveGroup (gkey core slot)).performSpad core slot true
    | none => s
  | .chunk copy chunk =>
    match s.copies.look copy with
    | some c => if c.toGlobal then s else (s.serveGroup c.group).landChunk copy chunk true
    | none => s
  | .line id =>
    match s.mem.msgs.look id with
    | some m => match m.kind, m.stage with
      | .courier _ _, .toHome => (s.serveGroup m.group).ownerRefuses id m
      | _, _ => s
    | none => s
  | .request id =>
    match s.mem.owner.look id with
    | some q => match q.work with
      | .courier _ copy _ => ((({ s with mem := { s.mem with owner := s.mem.owner.del id } } : State).serveGroup (match s.copies.look copy with | some c => c.group | none => 0)).ownerFault q.from_ q.va)
      | _ => s
    | none => s

end Sys2Proof.Machine
end

