-- ==== Sys2Proof/Machine/Control.lean ====
section
/-! DEFINITION. Control flow, major 0x01 (R85-R94), and the wake events of `join` and `nap`. -/
namespace Sys2Proof.Machine

/-- `nop`: no effect (R85). -/
def execNop (f : FormV) (s : State) : Res := issue (.nop f) s fun c => c.finish c.g

/-- Target of a Form B word (R58). -/
def Ctx.target (c : Ctx) (disp : BitVec 32) : Dword := c.st.pc + (disp.signExtend 64 <<< 3)

/-- `bra` (R87). -/
def execBra (f : FormB) (s : State) : Res :=
  issue (.bra f) s fun c => if c.wide f.g then c.branch c.g (c.target f.disp) else c.finish c.g

/-- A branch to a value that has to be a multiple of 8: ALIGN otherwise, with nothing done (R87, R92). -/
def Ctx.branchTo (c : Ctx) (g : Group) (t : Dword) : Res :=
  if t &&& 7 == 0 then c.branch g t else c.fault { code := faultAlign, va := t }

/-- `brx` (R87). -/
def execBrx (f : FormV) (s : State) : Res :=
  issue (.brx f) s fun c => if c.wide f.g then c.branchTo c.g (c.selWide f.a) else c.finish c.g

/-- `call` (R92). -/
def execCall (f : FormB) (s : State) : Res :=
  issue (.call f) s fun c =>
    if c.wide f.g then c.branch (c.g.setS f.k.toNat (c.st.pc + 8)) (c.target f.disp) else c.finish c.g

/-- `callx`: the target is read before the link is written (R92). -/
def execCallx (f : FormV) (s : State) : Res :=
  issue (.callx f) s fun c =>
    if c.wide f.g then c.branchTo (c.g.setS f.d.toNat (c.st.pc + 8)) (c.selWide f.a) else c.finish c.g

/-- `ret` (R92). -/
def execRet (f : FormV) (s : State) : Res :=
  issue (.ret f) s fun c => if c.wide f.g then c.branchTo c.g (c.selWide f.a) else c.finish c.g

/-- A division of a strand in continuation mode (R88): the larger side stays, on a tie the fall-through side. -/
def Ctx.divide (c : Ctx) (k : BitVec 3) (t f : LaneMask) (target : Dword) : Res :=
  let next := c.st.pc + 8
  let takenStays := laneCount f < laneCount t
  let stay := if takenStays then t else f
  let stayPc := if takenStays then target else next
  let go := if takenStays then f else t
  let goPc := if takenStays then next else target
  let g := (c.g.setJc k (c.g.jcOf k + 1)).setStrand c.r.entry { c.st.goto stayPc with mask := stay }
  let rec_ : Record := { pc := goPc, mask := go, cont := some k, slot := c.r.slot, trapret := c.st.trapret, trapcode := c.st.trapcode }
  let r := c.s.eject c.r.core g rec_
  .next (r.1.setGroup c.key r.2)

/-- A division in stack mode (R90): the taken side runs first. A push beyond 4,096 entries terminates the launch
(R215). -/
def Ctx.pushStack (c : Ctx) (k : BitVec 3) (t f : LaneMask) (target : Dword) : Res :=
  if 4096 ≤ c.g.stack.length then c.fault { code := faultWatch, detail := watchDetail 5 0 }
  else
    let e : StackEntry := { k := k, second := false, other := f, otherPc := c.st.pc + 8, all := c.st.mask }
    .next (c.s.setGroup c.key ({ c.g with stack := e :: c.g.stack }.setStrand c.r.entry { c.st.goto target with mask := t }))

/-- `brd` (R88, R90). -/
def execBrd (f : FormB) (s : State) : Res :=
  issue (.brd f) s fun c =>
    let m := c.lanesOf
    let t := maskOf fun l => m.getLsbD l && c.g.guardLane f.g l
    let e := m &&& ~~~t
    let target := c.target f.disp
    let k := f.k.setWidth 3
    if e == 0 then c.branch c.g target
    else if t == 0 then c.finish c.g
    else if c.g.stackMode then c.pushStack k t e target
    else c.divide k t e target

/-- `join` in stack mode (R90). The entry keeps the address of the join at which the first side stopped. -/
def Ctx.joinStack (c : Ctx) (k : BitVec 3) : Res :=
  match c.g.stack with
  | [] => c.finish c.g
  | e :: rest =>
    if e.k != k then c.finish c.g
    else if !e.second then
      .next (c.s.setGroup c.key ({ c.g with stack := { e with second := true, otherPc := c.st.pc } :: rest }.setStrand c.r.entry
        { c.st.goto e.otherPc with mask := e.other }))
    else
      .next (c.s.setGroup c.key ({ c.g with stack := rest }.setStrand c.r.entry
        { c.st.goto (c.st.pc + 8) with mask := e.all &&& c.g.live }))

/-- `join` (R89, R90). -/
def execJoin (f : FormB) (s : State) : Res :=
  issue (.join f) s fun c =>
    let k := f.k.setWidth 3
    if c.g.stackMode then c.joinStack k
    else if c.st.cont == some k then
      let g := (c.g.setJc k (c.g.jcOf k - 1)).setPending k (c.g.pendingOf k ||| c.st.mask)
      .next (c.s.setGroup c.key (c.s.dropStrand c.key g c.r.entry))
    else if c.g.jcOf k = 0 then .next (c.s.setGroup c.key (c.g.takePending c.r.entry k))
    else c.await (.join k)

/-- A waiter at `join` sees jc reach zero (R89). -/
def execJoinWake (r : StrandRef) (s : State) : Res :=
  match s.strandAt r with
  | none => .next s
  | some (g, st) =>
    match st.wait with
    | .join k => if g.jcOf k = 0 && g.mayRun && !g.calling then .next (s.setGroup (gkey r.core r.slot) (g.takePending r.entry k)) else .next s
    | _ => .next s

/-- `exit` (R91): the active lanes exit, and the strand ends when its mask becomes empty. A barrier that waits for the
exited lanes may complete (R128). -/
def execExit (f : FormV) (s : State) : Res :=
  issue (.exit_ f) s fun c =>
    let x := maskOf fun l => (c.active f.g).contains l
    let g := { c.g with live := c.g.live &&& ~~~x }
    let m := c.st.mask &&& g.live
    let s' :=
      if m != 0 then c.s.setGroup c.key (g.setStrand c.r.entry { c.st.goto (c.st.pc + 8) with mask := m })
      else if g.stackMode then c.s.setGroup c.key (g.unwind c.r.entry (g.stack.length * 2 + 1))
      else
        let g := match c.st.cont with | some k => g.setJc k (g.jcOf k - 1) | none => g
        c.s.setGroup c.key (c.s.dropStrand c.key g c.r.entry)
    .next (s'.barriers c.g.block)

/-- `yield`: the strand goes on; the order of issue is the schedule's (R93, R211). -/
def execYield (f : FormV) (s : State) : Res := issue (.yield f) s fun c => c.finish c.g

/-- `nap n` (R93). -/
def execNap (f : FormL) (s : State) : Res :=
  issue (.nap f) s fun c =>
    if c.wide f.g && f.imm != 0 then
      .next (c.s.setGroup c.key (c.g.onStrand c.r.entry fun st => { st.goto (st.pc + 8) with wait := .nap (c.s.now + f.imm.toNat) }))
    else c.finish c.g

/-- A nap runs out (R93). -/
def execNapExpiry (r : StrandRef) (s : State) : Res :=
  match s.strandAt r with
  | none => .next s
  | some (g, st) =>
    match st.wait with
    | .nap t => if t ≤ s.now then .next (s.setGroup (gkey r.core r.slot) (g.setStrand r.entry { st with wait := .ready })) else .next s
    | _ => .next s

/-- `brk`: WATCH, and the group is suspended (R94). -/
def execBrk (f : FormV) (s : State) : Res :=
  issue (.brk f) s fun c =>
    if c.wide f.g then c.fault { code := faultWatch, detail := watchDetail 1 0 } else c.finish c.g

/-- `trap code` (R94). -/
def execTrap (f : FormL) (s : State) : Res :=
  issue (.trap f) s fun c =>
    if !c.wide f.g then c.finish c.g
    else if c.g.trapvec == 0 then c.fault { code := faultWatch, detail := watchDetail 2 f.imm }
    else if c.g.trapvec &&& 7 != 0 then c.fault { code := faultAlign, va := c.g.trapvec }
    else .next (c.s.setGroup c.key (c.g.setStrand c.r.entry { c.st.goto c.g.trapvec with trapret := c.st.pc + 8, trapcode := f.imm }))

/-- `tret` (R94). -/
def execTret (f : FormV) (s : State) : Res :=
  issue (.tret f) s fun c => if c.wide f.g then c.branchTo c.g c.st.trapret else c.finish c.g

end Sys2Proof.Machine
end

