-- ==== Sys2Proof/Machine/Convert.lean ====
section
/-! DEFINITION. Conversions, major 0x07 (R26-R28, R108-R112). -/
namespace Sys2Proof.Machine

/-- Bits of an element of a type; 64 for the pairs. -/
def Ty.width (t : Ty) : Nat := t.bits

/-- A pattern of `n` bits of an integer. -/
def intPattern (n : Nat) (x : Int) : Nat := (x % (2 ^ n : Int)).toNat

/-- Convert a pattern from one type to another (R26, R27, R28). -/
def convert (dst src : Ty) (rm : Rm) (sat : Bool) (w : Nat) : Nat :=
  match dst.fmt, src.fmt with
  | some G, some F => G.convert rm sat (F.read w)
  | none, some F => intPattern dst.bits ((F.read w).toInt rm dst.lo dst.hi)
  | some G, none => G.ofInt rm sat (valN src.isSigned src.bits (BitVec.ofNat 64 w))
  | none, none =>
    let x := valN src.isSigned src.bits (BitVec.ofNat 64 w)
    intPattern dst.bits (if sat then clampInt x dst.lo dst.hi else x)

/-- Write an element of a register (R48, R109): a narrow result changes only its element. -/
def Group.setElemV (g : Group) (t : Ty) (r l e : Nat) (old : Word) (x : Nat) : Group :=
  if t.wide then g.setLane true r l (BitVec.ofNat 64 x)
  else if t.bits = 32 then g.setV r l (BitVec.ofNat 32 x)
  else g.setV r l (setElem t.bits e old x)

/-- The element `e` of a lane value read in a type (R109). -/
def elemVal (t : Ty) (e : Nat) (x : Dword) : Nat := if t.wide then x.toNat else elemOf t.bits e (x.setWidth 32)

/-- `cvt` (R109). -/
def execCvt (f : FormV) (s : State) : Res :=
  issue (.cvt f) s fun c =>
    let src := (Ty.ofCode f.x.toNat).getD .b32
    if f.u then
      let w := (convert f.ty src f.rm f.sat ((c.sel f.a 0).toNat % 2 ^ src.bits))
      c.finish (if c.wide f.g then c.g.setS f.d.toNat (scalarResult f.ty (BitVec.ofNat 64 w)) else c.g)
    else
      let rs := (c.active f.g).map fun l =>
        (l, convert f.ty src f.rm f.sat (elemVal src f.b.toNat (c.lane src.wide f.a.toNat l)))
      c.finish (rs.foldl (fun g e => g.setElemV f.ty f.d.toNat e.1 f.c.toNat (c.vread f.d.toNat e.1) e.2) c.g)

/-- `cvtpk` (R110): a and b go into elements 2 pos and 2 pos + 1. -/
def execCvtpk (f : FormV) (s : State) : Res :=
  issue (.cvtpk f) s fun c =>
    let G := (f.ty.fmt).getD fp16
    let pos := f.x.toNat
    let one (x : Dword) : Nat := G.convert f.rm f.sat (fp32.read (low 32 x).toNat)
    let rs := (c.active f.g).map fun l =>
      let old := c.vread f.d.toNat l
      (l, setElem f.ty.bits (2 * pos + 1) (setElem f.ty.bits (2 * pos) old (one (c.opA f false l))) (one (c.opB f immInt false l)))
    c.finish (rs.foldl (fun g e => g.setV f.d.toNat e.1 e.2) c.g)

/-- `cvtsr` (R111). -/
def execCvtsr (f : FormV) (s : State) : Res :=
  issue (.cvtsr f) s fun c =>
    let G := (f.ty.fmt).getD fp16
    let rs := (c.active f.g).map fun l =>
      (l, setElem f.ty.bits f.c.toNat (c.vread f.d.toNat l)
        (G.convertSr ((c.sel f.b l).toNat % 2 ^ 16) l f.sat (fp32.read (c.opA f false l).toNat)))
    c.finish (rs.foldl (fun g e => g.setV f.d.toNat e.1 e.2) c.g)

/-- emax of R112. -/
def qscaleEmax (t : Ty) : Int := match t with | .e4m3 => 8 | .e5m2 => 15 | _ => 2

/-- The E8M0 code of a block of FP32 values (R112). -/
def qscaleCode (t : Ty) (xs : List Nat) : Nat :=
  let bad := xs.any fun x => match fp32.read x with | .num _ _ => false | _ => true
  if bad then 0xFF
  else
    let mx := xs.foldl (fun m x => match fp32.read x with | .num _ k => Nat.max m k | _ => m) 0
    if mx = 0 then 0x7F
    else (clampInt ((Nat.log2 mx : Int) - 149 - qscaleEmax t + 127) 0 254).toNat

/-- A value scaled by 2^(127 - code), rounded RNE to FP32 (R112). -/
def qscaleApply (code : Nat) (x : Nat) : Nat :=
  match fp32.read x with
  | .num neg m =>
    if code ≤ 127 then fp32.round .rne neg (m * 2 ^ (127 - code)) fpOne
    else fp32.round .rne neg m (fpOne * 2 ^ (code - 127))
  | _ => fp32.nanCode

/-- `qscale` (R112). -/
def execQscale (f : FormV) (s : State) : Res :=
  issue (.qscale f) s fun c =>
    let act := c.active f.g
    let a (l : Nat) : Nat := (c.opA f false l).toNat
    let code := qscaleCode f.ty (act.map a)
    let rs := act.map fun l =>
      (l, if f.x == 0 then setElem 8 0 (c.vread f.d.toNat l) code
          else BitVec.ofNat 32 (if code = 0xFF then fp32.nanCode else qscaleApply code (a l)))
    c.finish (rs.foldl (fun g e => g.setV f.d.toNat e.1 e.2) c.g)

end Sys2Proof.Machine
end

