-- ==== Sys2Proof/Machine/Float.lean ====
section
/-! DEFINITION. FP32 instructions, major 0x05 (R104-R106). -/
namespace Sys2Proof.Machine

/-- An instruction on two FP32 operands. -/
def runF2 (i : Instr) (f : FormV) (s : State) (fn : Nat → Nat → Nat) : Res :=
  issue i s fun c => runV f f.ty false c fun l => BitVec.ofNat 64 (fn (c.opA f false l).toNat (c.opB f immFp false l).toNat)

/-- An instruction on one FP32 operand. -/
def runF1 (i : Instr) (f : FormV) (s : State) (fn : Nat → Nat) : Res :=
  issue i s fun c => runV f f.ty false c fun l => BitVec.ofNat 64 (fn (c.opA f false l).toNat)

def execFadd (f : FormV) (s : State) : Res := runF2 (.fadd f) f s (fp32.add f.rm)
def execFsub (f : FormV) (s : State) : Res := runF2 (.fsub f) f s (fp32.sub f.rm)
def execFmul (f : FormV) (s : State) : Res := runF2 (.fmul f) f s (fp32.mul f.rm)
def execFmin (f : FormV) (s : State) : Res := runF2 (.fmin f) f s fp32.min
def execFmax (f : FormV) (s : State) : Res := runF2 (.fmax f) f s fp32.max
def execFminm (f : FormV) (s : State) : Res := runF2 (.fminm f) f s fp32.minm
def execFabs (f : FormV) (s : State) : Res := runF1 (.fabs f) f s fun a => a % 2 ^ 31
def execFneg (f : FormV) (s : State) : Res := runF1 (.fneg f) f s fun a => (a + 2 ^ 31) % 2 ^ 32

/-- `ffma`: one rounding (R104). -/
def execFfma (f : FormV) (s : State) : Res :=
  issue (.ffma f) s fun c => runV f f.ty false c fun l =>
    BitVec.ofNat 64 (fp32.fma f.rm (c.opA f false l).toNat (c.opB f immFp false l).toNat (c.opC f false l).toNat)

/-- `fcmp` (R97). -/
def execFcmp (f : FormV) (s : State) : Res :=
  issue (.fcmp f) s fun c => runP f c fun l => condFp f.x.toNat (c.opA f false l).toNat (c.opB f immFp false l).toNat

/-- `fclass` (R105). -/
def execFclass (f : FormV) (s : State) : Res := runF1 (.fclass f) f s fun a => 2 ^ fclassBit a

def execFrcp (f : FormV) (s : State) : Res := runF1 (.frcp f) f s (frcpCode f.rm)
def execFsqrt (f : FormV) (s : State) : Res := runF1 (.fsqrt f) f s (fsqrtCode f.rm)
def execFrsq (f : FormV) (s : State) : Res := runF1 (.frsq f) f s fun a => frsqCode (faithfulRm 12 a) a
def execFexp2 (f : FormV) (s : State) : Res := runF1 (.fexp2 f) f s fun a => fexp2Code (faithfulRm 14 a) a
def execFlog2 (f : FormV) (s : State) : Res := runF1 (.flog2 f) f s fun a => flog2Code (faithfulRm 15 a) a
def execFsin (f : FormV) (s : State) : Res := runF1 (.fsin f) f s fun a => fsincosCode false 16 (faithfulRm 16 a) a
def execFcos (f : FormV) (s : State) : Res := runF1 (.fcos f) f s fun a => fsincosCode true 17 (faithfulRm 17 a) a

end Sys2Proof.Machine
end

