-- ==== Sys2Proof/Machine/Fu.lean ====
section
/-! DEFINITION. The firings of FU operations (R195, R270-R274), one per operation. -/
namespace Sys2Proof.Machine

/-- A firing of a task with an operation: the instance runs, the task is the one of its element that fires in this fc,
and it has its inputs and room (R270). Anything else does not happen. A misuse blocks the element (R290). -/
def State.firing (s : State) (op : FuOp) (site : FuSite) : State :=
  match s.annex.insts.look site.inst with
  | none => s
  | some n =>
    match (n.elem site.x site.y).tasks[site.task]? with
    | none => s
    | some t =>
      if taskFu t.word != some op then s
      else match n.plan site.x site.y site.task s.fc s.fresh with
        | .idle => s
        | .block cause expect seen => s.blockElem site.inst site.x site.y cause expect seen
        | .fire f =>
          if !n.first site.x site.y site.task s.fc s.fresh then s
          else
            let s := if f.free then { s with fresh := s.fresh + 1 } else s
            match if isCtl op then n.ctlPlan site.x site.y site.task t op else none with
            | some a => s.onInst site.inst fun _ => n.ctlFire site.x site.y site.task s.fc a
            | none => s.onInst site.inst fun _ => n.fire site.x site.y site.task s.fc op f

def execFuFadd (site : FuSite) (s : State) : Res := .next (s.firing .fadd site)
def execFuFmul (site : FuSite) (s : State) : Res := .next (s.firing .fmul site)
def execFuFfma (site : FuSite) (s : State) : Res := .next (s.firing .ffma site)
def execFuFmax (site : FuSite) (s : State) : Res := .next (s.firing .fmax site)
def execFuFmin (site : FuSite) (s : State) : Res := .next (s.firing .fmin site)
def execFuBfma2 (site : FuSite) (s : State) : Res := .next (s.firing .bfma2 site)
def execFuF8dot4 (site : FuSite) (s : State) : Res := .next (s.firing .f8dot4 site)
def execFuIadd (site : FuSite) (s : State) : Res := .next (s.firing .iadd site)
def execFuIsub (site : FuSite) (s : State) : Res := .next (s.firing .isub site)
def execFuImul (site : FuSite) (s : State) : Res := .next (s.firing .imul site)
def execFuImad (site : FuSite) (s : State) : Res := .next (s.firing .imad site)
def execFuAnd (site : FuSite) (s : State) : Res := .next (s.firing .and site)
def execFuOr (site : FuSite) (s : State) : Res := .next (s.firing .or site)
def execFuXor (site : FuSite) (s : State) : Res := .next (s.firing .xor site)
def execFuShl (site : FuSite) (s : State) : Res := .next (s.firing .shl site)
def execFuShr (site : FuSite) (s : State) : Res := .next (s.firing .shr site)
def execFuCmp (site : FuSite) (s : State) : Res := .next (s.firing .cmp site)
def execFuSel (site : FuSite) (s : State) : Res := .next (s.firing .sel site)
def execFuAcc (site : FuSite) (s : State) : Res := .next (s.firing .acc site)
def execFuMerge (site : FuSite) (s : State) : Res := .next (s.firing .merge site)
def execFuSteer (site : FuSite) (s : State) : Res := .next (s.firing .steer site)
def execFuRepeat (site : FuSite) (s : State) : Res := .next (s.firing .repeat site)
def execFuCount (site : FuSite) (s : State) : Res := .next (s.firing .count site)
def execFuAgen (site : FuSite) (s : State) : Res := .next (s.firing .agen site)
def execFuTag (site : FuSite) (s : State) : Res := .next (s.firing .tag site)
def execFuUntag (site : FuSite) (s : State) : Res := .next (s.firing .untag site)
def execFuTagck (site : FuSite) (s : State) : Res := .next (s.firing .tagck site)
def execFuHash (site : FuSite) (s : State) : Res := .next (s.firing .hash site)
def execFuOwner (site : FuSite) (s : State) : Res := .next (s.firing .owner site)
def execFuLdt (site : FuSite) (s : State) : Res := .next (s.firing .ldt site)
def execFuStt (site : FuSite) (s : State) : Res := .next (s.firing .stt site)
def execFuFifo (site : FuSite) (s : State) : Res := .next (s.firing .fifo site)
def execFuMcast (site : FuSite) (s : State) : Res := .next (s.firing .mcast site)
def execFuCtlSeq (site : FuSite) (s : State) : Res := .next (s.firing .ctlSeq site)
def execFuCtlPipe (site : FuSite) (s : State) : Res := .next (s.firing .ctlPipe site)
def execFuCtlStream (site : FuSite) (s : State) : Res := .next (s.firing .ctlStream site)

end Sys2Proof.Machine
end

