-- ==== Sys2Proof/Machine/Integer.lean ====
section
/-! DEFINITION. Integer and address arithmetic, major 0x02 (R95-R98). -/
namespace Sys2Proof.Machine

/-- An instruction of R95 whose result is an exact integer of two operands of the operation's width. -/
def runInt (i : Instr) (f : FormV) (s : State) (fn : Int → Int → Int) : Res :=
  issue i s fun c => runV f f.ty f.ty.wide c fun l =>
    f.ty.wrap f.sat (fn (f.ty.val (c.opA f f.ty.wide l)) (f.ty.val (c.opB f immInt f.ty.wide l)))

/-- An instruction of R95 on the bits of two operands. -/
def runBits (i : Instr) (f : FormV) (s : State) (fn : Dword → Dword → Dword) : Res :=
  issue i s fun c => runV f f.ty f.ty.wide c fun l =>
    low f.ty.w (fn (c.opA f f.ty.wide l) (c.opB f immInt f.ty.wide l))

/-- A shift or bit-field instruction: b is 32-bit (R96). -/
def runShift (i : Instr) (f : FormV) (s : State) (fn : Dword → Dword → Dword) : Res :=
  issue i s fun c => runV f f.ty f.ty.wide c fun l => fn (c.opA f f.ty.wide l) (c.opB f immInt false l)

def execAdd (f : FormV) (s : State) : Res := runInt (.add f) f s fun a b => a + b
def execSub (f : FormV) (s : State) : Res := runInt (.sub f) f s fun a b => a - b
def execMul (f : FormV) (s : State) : Res := runInt (.mul f) f s fun a b => a * b
/-- High W bits of the product (R95). -/
def execMulhi (f : FormV) (s : State) : Res := runInt (.mulhi f) f s fun a b => a * b / (2 ^ f.ty.w : Int)
def execMin (f : FormV) (s : State) : Res := runInt (.min_ f) f s fun a b => if b < a then b else a
def execMax (f : FormV) (s : State) : Res := runInt (.max_ f) f s fun a b => if a < b then b else a
def execAnd (f : FormV) (s : State) : Res := runBits (.and_ f) f s fun a b => a &&& b
def execOr (f : FormV) (s : State) : Res := runBits (.or_ f) f s fun a b => a ||| b
def execXor (f : FormV) (s : State) : Res := runBits (.xor_ f) f s fun a b => a ^^^ b
def execAndn (f : FormV) (s : State) : Res := runBits (.andn f) f s fun a b => a &&& ~~~b

/-- `mad` (R95). -/
def execMad (f : FormV) (s : State) : Res :=
  issue (.mad f) s fun c => runV f f.ty f.ty.wide c fun l =>
    f.ty.wrap f.sat (f.ty.val (c.opA f f.ty.wide l) * f.ty.val (c.opB f immInt f.ty.wide l) + f.ty.val (c.opC f f.ty.wide l))

/-- `madw`: 32-bit a and b, 64-bit c and d (R95). -/
def execMadw (f : FormV) (s : State) : Res :=
  let w : Ty := if f.ty == .i32 then .i64 else .n64
  issue (.madw f) s fun c => runV f f.ty true c fun l =>
    w.wrap f.sat (f.ty.val (c.opA f false l) * f.ty.val (c.opB f immInt false l) + w.val (c.opC f true l))

/-- An instruction of R95 with one operand. -/
def runInt1 (i : Instr) (f : FormV) (s : State) (fn : Dword → Dword) : Res :=
  issue i s fun c => runV f f.ty f.ty.wide c fun l => fn (c.opA f f.ty.wide l)

def execAbs (f : FormV) (s : State) : Res := runInt1 (.abs_ f) f s fun a => f.ty.wrap f.sat (f.ty.val a).natAbs
def execNeg (f : FormV) (s : State) : Res := runInt1 (.neg f) f s fun a => f.ty.wrap f.sat (-(f.ty.val a))
def execNot (f : FormV) (s : State) : Res := runInt1 (.not_ f) f s fun a => low f.ty.w (~~~a)
def execPopc (f : FormV) (s : State) : Res := runInt1 (.popc f) f s fun a => BitVec.ofNat 64 (popBits f.ty.w a)
def execClz (f : FormV) (s : State) : Res := runInt1 (.clz f) f s fun a => BitVec.ofNat 64 (clzBits f.ty.w a)
def execCtz (f : FormV) (s : State) : Res := runInt1 (.ctz f) f s fun a => BitVec.ofNat 64 (ctzBits f.ty.w a)
def execBrev (f : FormV) (s : State) : Res := runInt1 (.brev f) f s fun a => revBits f.ty.w a

def execShl (f : FormV) (s : State) : Res := runShift (.shl f) f s fun a b => shlN f.ty.w a (low 32 b).toNat
def execShr (f : FormV) (s : State) : Res := runShift (.shr f) f s fun a b => shrN f.ty.w a (low 32 b).toNat
def execSar (f : FormV) (s : State) : Res := runShift (.sar f) f s fun a b => sarN f.ty.w a (low 32 b).toNat
def execRotl (f : FormV) (s : State) : Res := runShift (.rotl f) f s fun a b => rotlN f.ty.w a (low 32 b).toNat
def execBfx (f : FormV) (s : State) : Res := runShift (.bfx f) f s fun a b => bfxN f.ty.isSigned f.ty.w a b

/-- `bfi` (R96). -/
def execBfi (f : FormV) (s : State) : Res :=
  issue (.bfi f) s fun c => runV f f.ty f.ty.wide c fun l =>
    bfiN f.ty.w (c.opA f f.ty.wide l) (c.opB f immInt false l) (c.opC f f.ty.wide l)

/-- `perm` (R95). -/
def execPerm (f : FormV) (s : State) : Res :=
  issue (.perm f) s fun c => runV f f.ty false c fun l => permBytes (c.opA f false l) (c.opB f immInt false l) (c.opC f false l)

/-- The predicate that field c names, or bit 0 of a scalar in a uniform word (R98). -/
def Ctx.predC (c : Ctx) (f : FormV) (l : Nat) : Bool :=
  if f.u then (c.sel f.c l).getLsbD 0 else c.g.predBit f.c.toNat l

/-- `sel` (R95). -/
def execSel (f : FormV) (s : State) : Res :=
  issue (.sel f) s fun c => runV f f.ty f.ty.wide c fun l =>
    if c.predC f l then c.opA f f.ty.wide l else c.opB f immInt f.ty.wide l

/-- `cmp` (R97). -/
def execCmp (f : FormV) (s : State) : Res :=
  issue (.cmp f) s fun c => runP f c fun l =>
    condInt f.x.toNat (f.ty.val (c.opA f f.ty.wide l)) (f.ty.val (c.opB f immInt f.ty.wide l))

/-- `addc` and `subc` (R98): the result and the carry or borrow of each lane. A uniform word whose d and c name one scalar leaves
the carry or borrow in it (DESIGN CHOICE, LOG 136). -/
def runCarry (f : FormV) (c : Ctx) (fn : Dword → Dword → Bool → Dword × Bool) : Res :=
  let at_ (l : Nat) := fn (c.opA f f.ty.wide l) (c.opB f immInt f.ty.wide l) (c.predC f l)
  if f.u then
    c.finish (if c.wide f.g then (c.g.setS f.d.toNat (scalarResult f.ty (at_ 0).1)).setS f.c.toNat (if (at_ 0).2 then 1 else 0) else c.g)
  else
    let rs := (c.active f.g).map fun l => (l, at_ l)
    c.finish ((c.g.setLanes f.ty.wide f.d.toNat (rs.map fun e => (e.1, e.2.1))).setPreds f.c.toNat (rs.map fun e => (e.1, e.2.2)))

def execAddc (f : FormV) (s : State) : Res := issue (.addc f) s fun c => runCarry f c (addCarry f.ty.w)
def execSubc (f : FormV) (s : State) : Res := issue (.subc f) s fun c => runCarry f c (subBorrow f.ty.w)

/-- `lea` (R95): d and b are 64-bit, a is 32-bit. -/
def execLea (f : FormV) (s : State) : Res :=
  issue (.lea f) s fun c => runV f f.ty true c fun l =>
    leaSum (f.ty == .i32) (c.opA f false l) (c.opB f immInt true l) f.x.toNat

end Sys2Proof.Machine
end

