-- ==== Sys2Proof/Machine/Move.lean ====
section
/-! DEFINITION. Moves, votes and predicates, major 0x03 (R99, R100). -/
namespace Sys2Proof.Machine

/-- `mov` (R99). -/
def execMov (f : FormV) (s : State) : Res :=
  issue (.mov f) s fun c => runV f f.ty f.ty.wide c fun l => c.opB f immInt f.ty.wide l

/-- `movi` with its `.sx` and `.hi` forms under uniform issue (R99). -/
def execMovi (f : FormL) (s : State) : Res :=
  issue (.movi f) s fun c =>
    let imm : Dword := f.imm.setWidth 64
    if f.u then
      let x : Dword := if f.x == 0 then imm else if f.x == 1 then f.imm.signExtend 64
        else (imm <<< 32) ||| low 32 (c.g.sreg f.d.toNat)
      c.finish (if c.wide f.g then c.g.setS f.d.toNat x else c.g)
    else c.finish (c.g.setLanes false f.d.toNat ((c.active f.g).map fun l => (l, imm)))

/-- `bcast` (R99). -/
def execBcast (f : FormV) (s : State) : Res :=
  issue (.bcast f) s fun c =>
    let act := c.active f.g
    let x := c.lane f.ty.wide f.a.toNat (act.headD 0)
    c.finish (c.g.setLanes f.ty.wide f.d.toNat (act.map fun l => (l, x)))

/-- `rdlane` (R99). A selection that names a lane-varying special register is read in the lowest active lane (DESIGN CHOICE, LOG
137). -/
def execRdlane (f : FormV) (s : State) : Res :=
  issue (.rdlane f) s fun c =>
    match (c.active f.g).head? with
    | none => c.finish c.g
    | some l0 => c.finish (c.g.setS f.d.toNat (c.cross f.ty.wide f.a.toNat ((c.sel f.b l0).toNat : Int)))

/-- `wrlane` (R99). Selections that name a lane-varying special register are read in the lowest active lane (DESIGN CHOICE, LOG
137). -/
def execWrlane (f : FormV) (s : State) : Res :=
  issue (.wrlane f) s fun c =>
    match (c.active f.g).head? with
    | none => c.finish c.g
    | some l0 => c.finish (c.g.crossWrite f.ty.wide f.d.toNat (c.sel f.b l0).toNat (c.sel f.a l0))

/-- A trap register of the issuing strand (R94). -/
def Ctx.trapReg (c : Ctx) (k : Nat) : Dword :=
  match k with
  | 0 => c.g.trapvec
  | 1 => c.st.trapret
  | _ => c.st.trapcode.setWidth 64

/-- `rdsr` (R99). -/
def execRdsr (f : FormV) (s : State) : Res :=
  issue (.rdsr f) s fun c =>
    let rd (l : Nat) : Dword := if f.x == 0 then c.special f.b.toNat l else c.trapReg f.b.toNat
    if f.u then c.finish (if c.wide f.g then c.g.setS f.d.toNat (rd 0) else c.g)
    else c.finish (c.g.setLanes f.ty.wide f.d.toNat ((c.active f.g).map fun l => (l, rd l)))

/-- `wrsr` (R99): trapvec is the group's, trapret and trapcode are the issuing strand's own. -/
def execWrsr (f : FormV) (s : State) : Res :=
  issue (.wrsr f) s fun c =>
    let x : Option Dword :=
      if f.u then (if c.wide f.g then some (c.sel f.a 0) else none)
      else ((c.active f.g).head?).map fun l => c.lane false f.a.toNat l
    match x with
    | none => c.finish c.g
    | some x =>
      match f.d.toNat with
      | 0 => c.finish { c.g with trapvec := x }
      | 1 => c.finish (c.g.onStrand c.r.entry fun st => { st with trapret := x })
      | _ => c.finish (c.g.onStrand c.r.entry fun st => { st with trapcode := x.setWidth 32 })

/-- `vote.any` (R99, R100). -/
def execVoteAny (f : FormV) (s : State) : Res :=
  issue (.voteAny f) s fun c =>
    let part := c.part f.g
    let b := part.any fun l => c.g.predBit f.a.toNat l
    c.finish (c.g.setPreds f.d.toNat (part.map fun l => (l, b)))

/-- `vote.all` (R99, R100). -/
def execVoteAll (f : FormV) (s : State) : Res :=
  issue (.voteAll f) s fun c =>
    let part := c.part f.g
    let b := part.all fun l => c.g.predBit f.a.toNat l
    c.finish (c.g.setPreds f.d.toNat (part.map fun l => (l, b)))

/-- The lanes of part whose predicate is set. -/
def Ctx.voters (c : Ctx) (f : FormV) : List Nat := (c.part f.g).filter fun l => c.g.predBit f.a.toNat l

/-- `ballot` (R99, R100). -/
def execBallot (f : FormV) (s : State) : Res :=
  issue (.ballot f) s fun c =>
    let m : Dword := (maskOf fun l => (c.voters f).contains l).setWidth 64
    c.finish (c.g.setLanes false f.d.toNat ((c.part f.g).map fun l => (l, m)))

/-- `ppopc` (R99, R100). -/
def execPpopc (f : FormV) (s : State) : Res :=
  issue (.ppopc f) s fun c =>
    c.finish (c.g.setLanes false f.d.toNat ((c.part f.g).map fun l => (l, BitVec.ofNat 64 (c.voters f).length)))

/-- `pand`, `por`, `pxor`: x bit 0 negates a, x bit 1 negates b (R99). -/
def runPreds (i : Instr) (f : FormV) (s : State) (op : Bool → Bool → Bool) : Res :=
  issue i s fun c =>
    c.finish (c.g.setPreds f.d.toNat ((c.active f.g).map fun l =>
      (l, op (c.g.predBit f.a.toNat l != f.x.getLsbD 0) (c.g.predBit f.b.toNat l != f.x.getLsbD 1))))

def execPand (f : FormV) (s : State) : Res := runPreds (.pand f) f s fun a b => a && b
def execPor (f : FormV) (s : State) : Res := runPreds (.por f) f s fun a b => a || b
def execPxor (f : FormV) (s : State) : Res := runPreds (.pxor f) f s fun a b => a != b

/-- `pnot` (R99). -/
def execPnot (f : FormV) (s : State) : Res :=
  issue (.pnot f) s fun c =>
    c.finish (c.g.setPreds f.d.toNat ((c.active f.g).map fun l => (l, !c.g.predBit f.a.toNat l)))

end Sys2Proof.Machine
end

