-- ==== Sys2Proof/Machine/Packed.lean ====
section
/-! DEFINITION. Packed 16-bit instructions, major 0x06 (R107). -/
namespace Sys2Proof.Machine

/-- Element i of a packed operand (R15). -/
def half (i : Nat) (x : Dword) : Nat := elemOf 16 i (x.setWidth 32)

/-- Both elements computed independently. -/
def packedOp (fn : Nat → Nat) : Dword := BitVec.ofNat 64 (fn 0 % 2 ^ 16 + fn 1 % 2 ^ 16 * 2 ^ 16)

/-- The format of a packed instruction's type. -/
def packedFmt (f : FormV) : Fmt := (f.ty.fmt).getD fp16

def runH2 (i : Instr) (f : FormV) (s : State) (fn : Nat → Nat → Nat) : Res :=
  issue i s fun c => runV f f.ty false c fun l =>
    packedOp fun e => fn (half e (c.opA f false l)) (half e (c.opB f immInt false l))

def execHadd2 (f : FormV) (s : State) : Res := runH2 (.hadd2 f) f s ((packedFmt f).add f.rm)
def execHmul2 (f : FormV) (s : State) : Res := runH2 (.hmul2 f) f s ((packedFmt f).mul f.rm)
def execHmin2 (f : FormV) (s : State) : Res := runH2 (.hmin2 f) f s (packedFmt f).min
def execHmax2 (f : FormV) (s : State) : Res := runH2 (.hmax2 f) f s (packedFmt f).max

/-- `hfma2`: one rounding per element. -/
def execHfma2 (f : FormV) (s : State) : Res :=
  issue (.hfma2 f) s fun c => runV f f.ty false c fun l =>
    packedOp fun e => (packedFmt f).fma f.rm (half e (c.opA f false l)) (half e (c.opB f immInt false l)) (half e (c.opC f false l))

/-- `hdot2`: the sum of two products and an FP32 addend, exact before one rounding. -/
def execHdot2 (f : FormV) (s : State) : Res :=
  issue (.hdot2 f) s fun c => runV f .f32 false c fun l =>
    let F := packedFmt f
    let p (e : Nat) := (F.read (half e (c.opA f false l))).mul (F.read (half e (c.opB f immInt false l)))
    BitVec.ofNat 64 (fp32.sum f.rm fpOne2 [p 0, p 1, (fp32.read (c.opC f false l).toNat).finer 149])

end Sys2Proof.Machine
end

