-- ==== Sys2Proof/Machine/Sequencer.lean ====
section
/-! DEFINITION. Port sequencers and their compact words (R65-R67, R188-R190). -/
namespace Sys2Proof.Machine

/-- What a compact word works on: the sequencer, its die and number. -/
structure SeqCtx where
  s : State
  die : Nat
  n : Nat
  q : Seq

/-- k[i]; k0 reads zero (R65). -/
def Seq.kreg (q : Seq) (i : Nat) : Dword := if i = 0 then 0 else Map.get 0 q.k i
/-- Write k[i]; k0 ignores writes (R65). -/
def Seq.setK (q : Seq) (i : Nat) (x : Dword) : Seq := if i = 0 then q else { q with k := Map.set 0 q.k i x }

/-- The sequencer has its next state. -/
def SeqCtx.put (c : SeqCtx) (q : Seq) : Res := .next (c.s.setSeq (32 * c.die + c.n) q)
/-- It goes on at the next word. -/
def SeqCtx.go (c : SeqCtx) (q : Seq) : Res := c.put { q with pc := q.pc + 1 }
/-- It waits at the word. -/
def SeqCtx.stay (c : SeqCtx) : Res := .next c.s

/-- The frame of a compact word: the agent is a sequencer; one that has stopped or whose instance does not run does
nothing. -/
def seqWord (s : State) (k : SeqCtx → Res) : Res :=
  match s.agent with
  | .seq die n =>
    match s.annex.seqs.look (32 * die + n) with
    | none => .fault .noAgent
    | some q =>
      if q.stopped || !(s.annex.insts.look q.inst).any (fun i => i.state == .running) then .next s
      else k { s := s, die := die, n := n, q := q }
  | _ => .fault .noAgent

/-- SEQUENCER_STOP_FAULT: the sequencer stops at its word, its ports withhold, and the region takes ANNEXCFG naming the
sequencer and the word's address (R67, R190, R289). R342 gives the record no field for either: the sequencer's number stands in
detail byte 33, the word's address in VA, and x and y are those of the first port that it drives (DESIGN CHOICE, LOG 134). -/
def SeqCtx.fail (c : SeqCtx) : Res :=
  let s := c.s.setSeq (32 * c.die + c.n) { c.q with stopped := true, failed := true }
  match s.annex.insts.look c.q.inst with
  | none => .next s
  | some n =>
    let at_ := (n.ports.find? fun p => p.1 / 2 == c.n).elim (0, 0) fun p => (p.2.2.1, p.2.2.2)
    .next (s.failRegion n.region n at_.1 at_.2 faultAnnexcfg 2 (BitVec.ofNat 64 (4 * c.q.pc)) (BitVec.ofNat 64 (5 + 2 ^ 8 * c.n)) none)

/-- Whether a word is one that no row of R66 has. -/
def undecodable (w : Word) : Bool := match decodeCompact w with | .ok _ => false | .error _ => true

/-- SEQ_UNDECODABLE_WORD: the sequencer reaches a word that is no compact word, or leaves its program: it does not execute
it (R67). -/
def execSeqUndecodableWord (word : Word) (s : State) : Res :=
  seqWord s fun c => match c.q.prog[c.q.pc]? with
    | some w => if w == word && undecodable w then c.fail else c.stay
    | none => c.fail

/-- A three-register operation. -/
def runK (f : KRegs) (s : State) (fn : Dword → Dword → Dword) : Res :=
  seqWord s fun c => c.go (c.q.setK f.d.toNat (fn (c.q.kreg f.a.toNat) (c.q.kreg f.b.toNat)))

/-- Go to a byte address of the program (R65, R190). A target that is not a multiple of 4 stops the sequencer as a word that is
not in the program does (DESIGN CHOICE, LOG 135). -/
def SeqCtx.jump (c : SeqCtx) (q : Seq) (target : Dword) : Res :=
  if target.toNat % 4 != 0 || q.prog.length ≤ target.toNat / 4 then c.fail else c.put { q with pc := target.toNat / 4 }

/-- The word's own address plus 4 × sext(imm16), or the register's. -/
def SeqCtx.target (_c : SeqCtx) (base : Dword) (imm : BitVec 16) : Dword := base + 4 * imm.signExtend 64
/-- The word's own address; the first word of a program is at 0 (DESIGN CHOICE, LOG 135). -/
def SeqCtx.here (c : SeqCtx) : Dword := BitVec.ofNat 64 (4 * c.q.pc)

/-- A compare and branch. -/
def runBranch (f : KImm) (s : State) (test : Dword → Dword → Bool) : Res :=
  seqWord s fun c =>
    if test (c.q.kreg f.d.toNat) (c.q.kreg f.a.toNat) then c.jump c.q (c.target c.here f.imm) else c.go c.q

def execSeqAdd (f : KRegs) (s : State) : Res := runK f s fun a b => a + b
def execSeqSub (f : KRegs) (s : State) : Res := runK f s fun a b => a - b
def execSeqMul (f : KRegs) (s : State) : Res := runK f s fun a b => a * b
def execSeqAnd (f : KRegs) (s : State) : Res := runK f s fun a b => a &&& b
def execSeqOr (f : KRegs) (s : State) : Res := runK f s fun a b => a ||| b
def execSeqXor (f : KRegs) (s : State) : Res := runK f s fun a b => a ^^^ b
def execSeqShl (f : KRegs) (s : State) : Res := runK f s fun a b => a <<< (b.toNat % 64)
def execSeqShr (f : KRegs) (s : State) : Res := runK f s fun a b => a >>> (b.toNat % 64)
def execSeqShrA (f : KRegs) (s : State) : Res := runK f s fun a b => a.sshiftRight (b.toNat % 64)

/-- `addi` (R189). -/
def execSeqAddi (f : KImm) (s : State) : Res := seqWord s fun c => c.go (c.q.setK f.d.toNat (c.q.kreg f.a.toNat + f.imm.signExtend 64))
/-- `lih` (R189). -/
def execSeqLih (f : KImm) (s : State) : Res := seqWord s fun c => c.go (c.q.setK f.d.toNat (c.q.kreg f.a.toNat + f.imm.signExtend 64 * 0x10000))

/-- An address of the local store that R190 admits. -/
def SeqCtx.storeAt (c : SeqCtx) (f : KImm) : Option Nat :=
  let a := (c.q.kreg f.a.toNat + f.imm.signExtend 64).toNat
  if a % 8 != 0 || 4095 < a then none else some a

/-- `ld` (R189, R190). -/
def execSeqLd (f : KImm) (s : State) : Res :=
  seqWord s fun c => match c.storeAt f with
    | some a => c.go (c.q.setK f.d.toNat (c.q.readStore a))
    | none => c.fail
/-- `st` (R189, R190). -/
def execSeqSt (f : KImm) (s : State) : Res :=
  seqWord s fun c => match c.storeAt f with
    | some a => c.go (c.q.writeStore a (c.q.kreg f.d.toNat))
    | none => c.fail

def execSeqBeq (f : KImm) (s : State) : Res := runBranch f s fun a b => a == b
def execSeqBne (f : KImm) (s : State) : Res := runBranch f s fun a b => a != b
def execSeqBlt (f : KImm) (s : State) : Res := runBranch f s fun a b => a.toInt < b.toInt
def execSeqBge (f : KImm) (s : State) : Res := runBranch f s fun a b => b.toInt ≤ a.toInt

/-- Where `jmp` and `jal` start from (R65). -/
def SeqCtx.base (c : SeqCtx) (f : KImm) : Dword := if f.a == 0 then c.here else c.q.kreg f.a.toNat
/-- `jmp` (R65). -/
def execSeqJmp (f : KImm) (s : State) : Res := seqWord s fun c => c.jump c.q (c.target (c.base f) f.imm)
/-- `jal` (R65). -/
def execSeqJal (f : KImm) (s : State) : Res := seqWord s fun c => c.jump (c.q.setK f.d.toNat (c.here + 4)) (c.target (c.base f) f.imm)

/-- A port of the sequencer, as the port table holds it. -/
def SeqCtx.port (c : SeqCtx) (p : Nat) : Port := Map.get {} c.s.annex.ports (64 * c.die + p)

/-- `scmd` (R189, R190): the command k[d+1] : k[d] goes to the queue of its port, or the word waits for room. One for port 2n or
2n + 1 that the sequencer's own instance has not bound stops it as any other port does (DESIGN CHOICE, LOG 156). -/
def execSeqScmd (f : KImm) (s : State) : Res :=
  seqWord s fun c =>
    let w : BitVec 128 := (c.q.kreg (f.d.toNat + 1)) ++ (c.q.kreg f.d.toNat)
    let p := w.toNat / 2 ^ 112 % 256
    match decodeStream w with
    | .error _ => c.fail
    | .ok _ =>
      if p / 2 != c.n || (c.port p).inst != some c.q.inst then c.fail
      else if 16 ≤ (c.port p).queue.length then c.stay
      else
        let s := c.s.onPort (64 * c.die + p) fun x => { x with queue := x.queue ++ [w] }
        ({ c with s := s } : SeqCtx).go c.q

/-- `swait` (R189). -/
def execSeqSwait (f : KImm) (s : State) : Res :=
  seqWord s fun c =>
    let free := 16 - (c.port (2 * c.n + f.imm.toNat % 2)).queue.length
    if free < min (c.q.kreg f.a.toNat).toNat 16 then c.stay else c.go (c.q.setK f.d.toNat (BitVec.ofNat 64 free))

/-- `ssig` (R189, R190): a token on a signal channel, whose store holds as many tokens as an output of latency 1. -/
def execSeqSsig (f : KImm) (s : State) : Res :=
  seqWord s fun c =>
    let ch := f.imm.toNat % 8
    let wired := (c.s.annex.insts.look c.q.inst).any fun n => n.routes.any fun r => r.kind == 5 && r.number == c.n && r.vc == ch
    let st := Map.get {} c.q.sig ch
    if !wired then c.fail
    else if !st.accepts 3 c.s.fc then c.stay
    else c.go { c.q with sig := c.q.sig.put ch (st.push ⟨c.q.kreg f.a.toNat, 0, false⟩ c.s.fc (c.s.fc + 1)) }

/-- `sfault` (R189, R344, R345): a WATCH record, and the sequencer goes on; it stalls while a record of it waits. -/
def execSeqSfault (f : KImm) (s : State) : Res :=
  seqWord s fun c =>
    match c.s.annex.insts.look c.q.inst with
    | none => c.stay
    | some n =>
      let at_ := (n.ports.find? fun p => p.1 / 2 == c.n).elim (0, 0) fun p => (p.2.2.1, p.2.2.2)
      let mine (r : FaultRec) : Bool := r.code == faultWatch && r.source == 2 && r.region == some n.region && r.where_ == regionWhere n at_.1 at_.2 && r.waiting
      if c.s.faults.undelivered.any mine then c.stay
      else
        let s := c.s.raiseRegion n.region n at_.1 at_.2 faultWatch 2 0 (c.q.kreg f.a.toNat) (watchDetail 3 (f.imm.setWidth 32)) none
        ({ c with s := s } : SeqCtx).go c.q

/-- `nop` (R189). -/
def execSeqNop (s : State) : Res := seqWord s fun c => c.go c.q
/-- `stop` (R189): commands already queued still run. -/
def execSeqStop (s : State) : Res := seqWord s fun c => c.put { c.q with stopped := true }

end Sys2Proof.Machine
end

