-- ==== Sys2Proof/Machine/Dispatch.lean ====
section
/-! DEFINITION. What each instruction does: one arm per constructor of `Instr`. -/
namespace Sys2Proof.Machine

def exec (i : Instr) (s : State) : Host.Outcome State Fault Refusal :=
  match i with
  | .nop f => Sys2Proof.Machine.execNop f s
  | .bra f => Sys2Proof.Machine.execBra f s
  | .brd f => Sys2Proof.Machine.execBrd f s
  | .brx f => Sys2Proof.Machine.execBrx f s
  | .call f => Sys2Proof.Machine.execCall f s
  | .callx f => Sys2Proof.Machine.execCallx f s
  | .ret f => Sys2Proof.Machine.execRet f s
  | .join f => Sys2Proof.Machine.execJoin f s
  | .exit_ f => Sys2Proof.Machine.execExit f s
  | .yield f => Sys2Proof.Machine.execYield f s
  | .nap f => Sys2Proof.Machine.execNap f s
  | .brk f => Sys2Proof.Machine.execBrk f s
  | .trap f => Sys2Proof.Machine.execTrap f s
  | .tret f => Sys2Proof.Machine.execTret f s
  | .add f => Sys2Proof.Machine.execAdd f s
  | .sub f => Sys2Proof.Machine.execSub f s
  | .mul f => Sys2Proof.Machine.execMul f s
  | .mulhi f => Sys2Proof.Machine.execMulhi f s
  | .mad f => Sys2Proof.Machine.execMad f s
  | .madw f => Sys2Proof.Machine.execMadw f s
  | .min_ f => Sys2Proof.Machine.execMin f s
  | .max_ f => Sys2Proof.Machine.execMax f s
  | .abs_ f => Sys2Proof.Machine.execAbs f s
  | .neg f => Sys2Proof.Machine.execNeg f s
  | .and_ f => Sys2Proof.Machine.execAnd f s
  | .or_ f => Sys2Proof.Machine.execOr f s
  | .xor_ f => Sys2Proof.Machine.execXor f s
  | .andn f => Sys2Proof.Machine.execAndn f s
  | .not_ f => Sys2Proof.Machine.execNot f s
  | .shl f => Sys2Proof.Machine.execShl f s
  | .shr f => Sys2Proof.Machine.execShr f s
  | .sar f => Sys2Proof.Machine.execSar f s
  | .rotl f => Sys2Proof.Machine.execRotl f s
  | .bfx f => Sys2Proof.Machine.execBfx f s
  | .bfi f => Sys2Proof.Machine.execBfi f s
  | .popc f => Sys2Proof.Machine.execPopc f s
  | .clz f => Sys2Proof.Machine.execClz f s
  | .ctz f => Sys2Proof.Machine.execCtz f s
  | .brev f => Sys2Proof.Machine.execBrev f s
  | .perm f => Sys2Proof.Machine.execPerm f s
  | .sel f => Sys2Proof.Machine.execSel f s
  | .cmp f => Sys2Proof.Machine.execCmp f s
  | .addc f => Sys2Proof.Machine.execAddc f s
  | .subc f => Sys2Proof.Machine.execSubc f s
  | .lea f => Sys2Proof.Machine.execLea f s
  | .mov f => Sys2Proof.Machine.execMov f s
  | .movi f => Sys2Proof.Machine.execMovi f s
  | .bcast f => Sys2Proof.Machine.execBcast f s
  | .rdlane f => Sys2Proof.Machine.execRdlane f s
  | .wrlane f => Sys2Proof.Machine.execWrlane f s
  | .rdsr f => Sys2Proof.Machine.execRdsr f s
  | .wrsr f => Sys2Proof.Machine.execWrsr f s
  | .voteAny f => Sys2Proof.Machine.execVoteAny f s
  | .voteAll f => Sys2Proof.Machine.execVoteAll f s
  | .ballot f => Sys2Proof.Machine.execBallot f s
  | .pand f => Sys2Proof.Machine.execPand f s
  | .por f => Sys2Proof.Machine.execPor f s
  | .pxor f => Sys2Proof.Machine.execPxor f s
  | .pnot f => Sys2Proof.Machine.execPnot f s
  | .ppopc f => Sys2Proof.Machine.execPpopc f s
  | .shflIdx f => Sys2Proof.Machine.execShflIdx f s
  | .shflUp f => Sys2Proof.Machine.execShflUp f s
  | .shflDown f => Sys2Proof.Machine.execShflDown f s
  | .shflXor f => Sys2Proof.Machine.execShflXor f s
  | .qswapH f => Sys2Proof.Machine.execQswapH f s
  | .qswapV f => Sys2Proof.Machine.execQswapV f s
  | .qswapD f => Sys2Proof.Machine.execQswapD f s
  | .qbcast f => Sys2Proof.Machine.execQbcast f s
  | .redxAdd f => Sys2Proof.Machine.execRedxAdd f s
  | .redxMin f => Sys2Proof.Machine.execRedxMin f s
  | .redxMax f => Sys2Proof.Machine.execRedxMax f s
  | .scanxAdd f => Sys2Proof.Machine.execScanxAdd f s
  | .compact f => Sys2Proof.Machine.execCompact f s
  | .expand f => Sys2Proof.Machine.execExpand f s
  | .fadd f => Sys2Proof.Machine.execFadd f s
  | .fsub f => Sys2Proof.Machine.execFsub f s
  | .fmul f => Sys2Proof.Machine.execFmul f s
  | .ffma f => Sys2Proof.Machine.execFfma f s
  | .fmin f => Sys2Proof.Machine.execFmin f s
  | .fmax f => Sys2Proof.Machine.execFmax f s
  | .fminm f => Sys2Proof.Machine.execFminm f s
  | .fabs f => Sys2Proof.Machine.execFabs f s
  | .fneg f => Sys2Proof.Machine.execFneg f s
  | .fcmp f => Sys2Proof.Machine.execFcmp f s
  | .fclass f => Sys2Proof.Machine.execFclass f s
  | .frcp f => Sys2Proof.Machine.execFrcp f s
  | .frsq f => Sys2Proof.Machine.execFrsq f s
  | .fsqrt f => Sys2Proof.Machine.execFsqrt f s
  | .fexp2 f => Sys2Proof.Machine.execFexp2 f s
  | .flog2 f => Sys2Proof.Machine.execFlog2 f s
  | .fsin f => Sys2Proof.Machine.execFsin f s
  | .fcos f => Sys2Proof.Machine.execFcos f s
  | .hadd2 f => Sys2Proof.Machine.execHadd2 f s
  | .hmul2 f => Sys2Proof.Machine.execHmul2 f s
  | .hfma2 f => Sys2Proof.Machine.execHfma2 f s
  | .hmin2 f => Sys2Proof.Machine.execHmin2 f s
  | .hmax2 f => Sys2Proof.Machine.execHmax2 f s
  | .hdot2 f => Sys2Proof.Machine.execHdot2 f s
  | .cvt f => Sys2Proof.Machine.execCvt f s
  | .cvtpk f => Sys2Proof.Machine.execCvtpk f s
  | .cvtsr f => Sys2Proof.Machine.execCvtsr f s
  | .qscale f => Sys2Proof.Machine.execQscale f s
  | .ld f => Sys2Proof.Machine.execLd f s
  | .st f => Sys2Proof.Machine.execSt f s
  | .ldx4 f => Sys2Proof.Machine.execLdx4 f s
  | .stx4 f => Sys2Proof.Machine.execStx4 f s
  | .lds f => Sys2Proof.Machine.execLds f s
  | .sts f => Sys2Proof.Machine.execSts f s
  | .ldsx4 f => Sys2Proof.Machine.execLdsx4 f s
  | .stsx4 f => Sys2Proof.Machine.execStsx4 f s
  | .prf f => Sys2Proof.Machine.execPrf f s
  | .atomAdd f => Sys2Proof.Machine.execAtomAdd f s
  | .atomMin f => Sys2Proof.Machine.execAtomMin f s
  | .atomMax f => Sys2Proof.Machine.execAtomMax f s
  | .atomAnd f => Sys2Proof.Machine.execAtomAnd f s
  | .atomOr f => Sys2Proof.Machine.execAtomOr f s
  | .atomXor f => Sys2Proof.Machine.execAtomXor f s
  | .atomXchg f => Sys2Proof.Machine.execAtomXchg f s
  | .atomCas f => Sys2Proof.Machine.execAtomCas f s
  | .atomFadd f => Sys2Proof.Machine.execAtomFadd f s
  | .atomFmin f => Sys2Proof.Machine.execAtomFmin f s
  | .atomFmax f => Sys2Proof.Machine.execAtomFmax f s
  | .atomBfadd2 f => Sys2Proof.Machine.execAtomBfadd2 f s
  | .redAdd f => Sys2Proof.Machine.execRedAdd f s
  | .redMin f => Sys2Proof.Machine.execRedMin f s
  | .redMax f => Sys2Proof.Machine.execRedMax f s
  | .redAnd f => Sys2Proof.Machine.execRedAnd f s
  | .redOr f => Sys2Proof.Machine.execRedOr f s
  | .redXor f => Sys2Proof.Machine.execRedXor f s
  | .redFadd f => Sys2Proof.Machine.execRedFadd f s
  | .redFmin f => Sys2Proof.Machine.execRedFmin f s
  | .redFmax f => Sys2Proof.Machine.execRedFmax f s
  | .redBfadd2 f => Sys2Proof.Machine.execRedBfadd2 f s
  | .fence f => Sys2Proof.Machine.execFence f s
  | .wait f => Sys2Proof.Machine.execWait f s
  | .bar f => Sys2Proof.Machine.execBar f s
  | .arrive f => Sys2Proof.Machine.execArrive f s
  | .bwait f => Sys2Proof.Machine.execBwait f s
  | .renew f => Sys2Proof.Machine.execRenew f s
  | .rdclk f => Sys2Proof.Machine.execRdclk f s
  | .sendGlb f => Sys2Proof.Machine.execSendGlb f s
  | .sendPeer f => Sys2Proof.Machine.execSendPeer f s
  | .sendTens f => Sys2Proof.Machine.execSendTens f s
  | .sendm f => Sys2Proof.Machine.execSendm f s
  | .commission f => Sys2Proof.Machine.execCommission f s
  | .cbtest f => Sys2Proof.Machine.execCbtest f s
  | .cbwait f => Sys2Proof.Machine.execCbwait f s
  | .cbclr f => Sys2Proof.Machine.execCbclr f s
  | .tlayout f => Sys2Proof.Machine.execTlayout f s
  | .gath f => Sys2Proof.Machine.execGath f s
  | .scat f => Sys2Proof.Machine.execScat f s
  | .gstat f => Sys2Proof.Machine.execGstat f s
  | .cclaim f => Sys2Proof.Machine.execCclaim f s
  | .cfree f => Sys2Proof.Machine.execCfree f s
  | .cins f => Sys2Proof.Machine.execCins f s
  | .cprb f => Sys2Proof.Machine.execCprb f s
  | .cdel f => Sys2Proof.Machine.execCdel f s
  | .cacc f => Sys2Proof.Machine.execCacc f s
  | .cdrn f => Sys2Proof.Machine.execCdrn f s
  | .cstat f => Sys2Proof.Machine.execCstat f s
  | .gate f => Sys2Proof.Machine.execGate f s
  | .gret f => Sys2Proof.Machine.execGret f s
  | .gabort f => Sys2Proof.Machine.execGabort f s
  | .rgrow f => Sys2Proof.Machine.execRgrow f s
  | .rshrink f => Sys2Proof.Machine.execRshrink f s
  | .halt f => Sys2Proof.Machine.execHalt f s
  | .haltAll f => Sys2Proof.Machine.execHaltAll f s
  | .mzero f => Sys2Proof.Machine.execMzero f s
  | .mrdy f => Sys2Proof.Machine.execMrdy f s
  | .mma f => Sys2Proof.Machine.execMma f s
  | .mmaSp f => Sys2Proof.Machine.execMmaSp f s
  | .mmx f => Sys2Proof.Machine.execMmx f s
  | .mwait f => Sys2Proof.Machine.execMwait f s
  | .mdrain f => Sys2Proof.Machine.execMdrain f s
  | .aopen f => Sys2Proof.Machine.execAopen f s
  | .asend f => Sys2Proof.Machine.execAsend f s
  | .arecv f => Sys2Proof.Machine.execArecv f s
  | .aacc f => Sys2Proof.Machine.execAacc f s
  | .acmd f => Sys2Proof.Machine.execAcmd f s
  | .afence f => Sys2Proof.Machine.execAfence f s
  | .aclose f => Sys2Proof.Machine.execAclose f s
  | .nmr f => Sys2Proof.Machine.execNmr f s
  | .nidx f => Sys2Proof.Machine.execNidx f s
  | .nfence f => Sys2Proof.Machine.execNfence f s
  | .launch f => Sys2Proof.Machine.execLaunch f s
  | .rlaunch f => Sys2Proof.Machine.execRlaunch f s
  | .seqAdd f => Sys2Proof.Machine.execSeqAdd f s
  | .seqSub f => Sys2Proof.Machine.execSeqSub f s
  | .seqAddi f => Sys2Proof.Machine.execSeqAddi f s
  | .seqMul f => Sys2Proof.Machine.execSeqMul f s
  | .seqAnd f => Sys2Proof.Machine.execSeqAnd f s
  | .seqOr f => Sys2Proof.Machine.execSeqOr f s
  | .seqXor f => Sys2Proof.Machine.execSeqXor f s
  | .seqShl f => Sys2Proof.Machine.execSeqShl f s
  | .seqShr f => Sys2Proof.Machine.execSeqShr f s
  | .seqShrA f => Sys2Proof.Machine.execSeqShrA f s
  | .seqLih f => Sys2Proof.Machine.execSeqLih f s
  | .seqLd f => Sys2Proof.Machine.execSeqLd f s
  | .seqSt f => Sys2Proof.Machine.execSeqSt f s
  | .seqBeq f => Sys2Proof.Machine.execSeqBeq f s
  | .seqBne f => Sys2Proof.Machine.execSeqBne f s
  | .seqBlt f => Sys2Proof.Machine.execSeqBlt f s
  | .seqBge f => Sys2Proof.Machine.execSeqBge f s
  | .seqJmp f => Sys2Proof.Machine.execSeqJmp f s
  | .seqJal f => Sys2Proof.Machine.execSeqJal f s
  | .seqScmd f => Sys2Proof.Machine.execSeqScmd f s
  | .seqSwait f => Sys2Proof.Machine.execSeqSwait f s
  | .seqSsig f => Sys2Proof.Machine.execSeqSsig f s
  | .seqSfault f => Sys2Proof.Machine.execSeqSfault f s
  | .seqNop => Sys2Proof.Machine.execSeqNop s
  | .seqStop => Sys2Proof.Machine.execSeqStop s
  | .slin f => Sys2Proof.Machine.execSlin f s
  | .sidx f => Sys2Proof.Machine.execSidx f s
  | .sconst f => Sys2Proof.Machine.execSconst f s
  | .swrite f => Sys2Proof.Machine.execSwrite f s
  | .sred f => Sys2Proof.Machine.execSred f s
  | .seos f => Sys2Proof.Machine.execSeos f s
  | .scfg f => Sys2Proof.Machine.execScfg f s
  | .sdrain f => Sys2Proof.Machine.execSdrain f s
  | .sbar f => Sys2Proof.Machine.execSbar f s
  | .sland f => Sys2Proof.Machine.execSland f s
  | .sgath f => Sys2Proof.Machine.execSgath f s
  | .spage f => Sys2Proof.Machine.execSpage f s
  | .fuFadd site => Sys2Proof.Machine.execFuFadd site s
  | .fuFmul site => Sys2Proof.Machine.execFuFmul site s
  | .fuFfma site => Sys2Proof.Machine.execFuFfma site s
  | .fuFmax site => Sys2Proof.Machine.execFuFmax site s
  | .fuFmin site => Sys2Proof.Machine.execFuFmin site s
  | .fuBfma2 site => Sys2Proof.Machine.execFuBfma2 site s
  | .fuF8dot4 site => Sys2Proof.Machine.execFuF8dot4 site s
  | .fuIadd site => Sys2Proof.Machine.execFuIadd site s
  | .fuIsub site => Sys2Proof.Machine.execFuIsub site s
  | .fuImul site => Sys2Proof.Machine.execFuImul site s
  | .fuImad site => Sys2Proof.Machine.execFuImad site s
  | .fuAnd site => Sys2Proof.Machine.execFuAnd site s
  | .fuOr site => Sys2Proof.Machine.execFuOr site s
  | .fuXor site => Sys2Proof.Machine.execFuXor site s
  | .fuShl site => Sys2Proof.Machine.execFuShl site s
  | .fuShr site => Sys2Proof.Machine.execFuShr site s
  | .fuCmp site => Sys2Proof.Machine.execFuCmp site s
  | .fuSel site => Sys2Proof.Machine.execFuSel site s
  | .fuAcc site => Sys2Proof.Machine.execFuAcc site s
  | .fuMerge site => Sys2Proof.Machine.execFuMerge site s
  | .fuSteer site => Sys2Proof.Machine.execFuSteer site s
  | .fuRepeat site => Sys2Proof.Machine.execFuRepeat site s
  | .fuCount site => Sys2Proof.Machine.execFuCount site s
  | .fuAgen site => Sys2Proof.Machine.execFuAgen site s
  | .fuTag site => Sys2Proof.Machine.execFuTag site s
  | .fuUntag site => Sys2Proof.Machine.execFuUntag site s
  | .fuTagck site => Sys2Proof.Machine.execFuTagck site s
  | .fuHash site => Sys2Proof.Machine.execFuHash site s
  | .fuOwner site => Sys2Proof.Machine.execFuOwner site s
  | .fuLdt site => Sys2Proof.Machine.execFuLdt site s
  | .fuStt site => Sys2Proof.Machine.execFuStt site s
  | .fuFifo site => Sys2Proof.Machine.execFuFifo site s
  | .fuMcast site => Sys2Proof.Machine.execFuMcast site s
  | .fuCtlSeq site => Sys2Proof.Machine.execFuCtlSeq site s
  | .fuCtlPipe site => Sys2Proof.Machine.execFuCtlPipe site s
  | .fuCtlStream site => Sys2Proof.Machine.execFuCtlStream site s
  | .joinWake r => Sys2Proof.Machine.execJoinWake r s
  | .napExpiry r => Sys2Proof.Machine.execNapExpiry r s
  | .bwaitReread r => Sys2Proof.Machine.execBwaitReread r s
  | .courierLand copy chunk => Sys2Proof.Machine.execCourierLand copy chunk s
  | .commissionDeliver job => Sys2Proof.Machine.execCommissionDeliver job s
  | .commissionResume job => Sys2Proof.Machine.execCommissionResume job s
  | .gathRowLand job row => Sys2Proof.Machine.execGathRowLand job row s
  | .freqHalve => Sys2Proof.Machine.execFreqHalve s
  | .rgrowGrant core quad => Sys2Proof.Machine.execRgrowGrant core quad s
  | .rgrowSpill core quad => Sys2Proof.Machine.execRgrowSpill core quad s
  | .spilledReturn core quad => Sys2Proof.Machine.execSpilledReturn core quad s
  | .matrixOpStart core => Sys2Proof.Machine.execMatrixOpStart core s
  | .matrixOpComplete core => Sys2Proof.Machine.execMatrixOpComplete core s
  | .completionToken die port => Sys2Proof.Machine.execCompletionToken die port s
  | .mailboxAdd die seq chan => Sys2Proof.Machine.execMailboxAdd die seq chan s
  | .portTranslate die port => Sys2Proof.Machine.execPortTranslate die port s
  | .tokenMove hop => Sys2Proof.Machine.execTokenMove hop s
  | .tileStreamOut site => Sys2Proof.Machine.execTileStreamOut site s
  | .permit inst node => Sys2Proof.Machine.execPermit inst node s
  | .doneToken inst node => Sys2Proof.Machine.execDoneToken inst node s
  | .creditReturn inst ep => Sys2Proof.Machine.execCreditReturn inst ep s
  | .stageSwap inst => Sys2Proof.Machine.execStageSwap inst s
  | .stageEnable inst => Sys2Proof.Machine.execStageEnable inst s
  | .regionLoad inst => Sys2Proof.Machine.execRegionLoad inst s
  | .regionRunning region => Sys2Proof.Machine.execRegionRunning region s
  | .regionComplete region => Sys2Proof.Machine.execRegionComplete region s
  | .regionDrain region => Sys2Proof.Machine.execRegionDrain region s
  | .regionCheckpoint region => Sys2Proof.Machine.execRegionCheckpoint region s
  | .faultTimeout region => Sys2Proof.Machine.execFaultTimeout region s
  | .ownerApply die node => Sys2Proof.Machine.execOwnerApply die node s
  | .landingContribution die index => Sys2Proof.Machine.execLandingContribution die index s
  | .homeRenew msg => Sys2Proof.Machine.execHomeRenew msg s
  | .fill_ msg => Sys2Proof.Machine.execFill msg s
  | .homeStore msg => Sys2Proof.Machine.execHomeStore msg s
  | .storeAck msg => Sys2Proof.Machine.execStoreAck msg s
  | .homeAtomic msg => Sys2Proof.Machine.execHomeAtomic msg s
  | .atomicComplete msg => Sys2Proof.Machine.execAtomicComplete msg s
  | .l2Evict line => Sys2Proof.Machine.execL2Evict line s
  | .instructionFetch r => Sys2Proof.Machine.execInstructionFetch r s
  | .creep core => Sys2Proof.Machine.execCreep core s
  | .refill core => Sys2Proof.Machine.execRefill core s
  | .swap core slot => Sys2Proof.Machine.execSwap core slot s
  | .groupRetire core slot => Sys2Proof.Machine.execGroupRetire core slot s
  | .belfryNotice queue => Sys2Proof.Machine.execBelfryNotice queue s
  | .slotReread queue => Sys2Proof.Machine.execSlotReread queue s
  | .parse queue => Sys2Proof.Machine.execParse queue s
  | .queueFaultRetry queue => Sys2Proof.Machine.execQueueFaultRetry queue s
  | .queueRestart queue => Sys2Proof.Machine.execQueueRestart queue s
  | .packetHead queue => Sys2Proof.Machine.execPacketHead queue s
  | .waitNotice queue entry => Sys2Proof.Machine.execWaitNotice queue entry s
  | .waitReread queue entry => Sys2Proof.Machine.execWaitReread queue entry s
  | .priorityAging queue => Sys2Proof.Machine.execPriorityAging queue s
  | .backfillExpiry queue => Sys2Proof.Machine.execBackfillExpiry queue s
  | .placeCohort => Sys2Proof.Machine.execPlaceCohort s
  | .placeRegion => Sys2Proof.Machine.execPlaceRegion s
  | .carveChange core => Sys2Proof.Machine.execCarveChange core s
  | .invalidationRequest domain => Sys2Proof.Machine.execInvalidationRequest domain s
  | .invalidationComplete domain => Sys2Proof.Machine.execInvalidationComplete domain s
  | .extentRepatch die port slot => Sys2Proof.Machine.execExtentRepatch die port slot s
  | .faultDeliver index => Sys2Proof.Machine.execFaultDeliver index s
  | .faultQueueRetry index => Sys2Proof.Machine.execFaultQueueRetry index s
  | .resolutionReplay record => Sys2Proof.Machine.execResolutionReplay record s
  | .resolutionResume record => Sys2Proof.Machine.execResolutionResume record s
  | .resolutionAbort record => Sys2Proof.Machine.execResolutionAbort record s
  | .resolutionTerminate record => Sys2Proof.Machine.execResolutionTerminate record s
  | .resolutionContinue record => Sys2Proof.Machine.execResolutionContinue record s
  | .terminationRequest requester queue slot => Sys2Proof.Machine.execTerminationRequest requester queue slot s
  | .quarantine requester domain => Sys2Proof.Machine.execQuarantine requester domain s
  | .evictCohort launch cohort policy => Sys2Proof.Machine.execEvictCohort launch cohort policy s
  | .quiescence launch cohort => Sys2Proof.Machine.execQuiescence launch cohort s
  | .saveMove index => Sys2Proof.Machine.execSaveMove index s
  | .gateInstall requester caller entries => Sys2Proof.Machine.execGateInstall requester caller entries s
  | .domainCreate req => Sys2Proof.Machine.execDomainCreate req s
  | .domainRelease domain => Sys2Proof.Machine.execDomainRelease domain s
  | .grantRequest req => Sys2Proof.Machine.execGrantRequest req s
  | .grantMessage msg => Sys2Proof.Machine.execGrantMessage msg s
  | .revoke requester grant => Sys2Proof.Machine.execRevoke requester grant s
  | .hostRead hpa size => Sys2Proof.Machine.execHostRead hpa size s
  | .hostWrite hpa bytes => Sys2Proof.Machine.execHostWrite hpa bytes s
  | .hostAtomic hpa op size value cmp => Sys2Proof.Machine.execHostAtomic hpa op size value cmp s
  | .hostSnoop line => Sys2Proof.Machine.execHostSnoop line s
  | .cxlProxyFill msg data error => Sys2Proof.Machine.execCxlProxyFill msg data error s
  | .peerRequest req => Sys2Proof.Machine.execPeerRequest req s
  | .flitReplay port seq => Sys2Proof.Machine.execFlitReplay port seq s
  | .portRetrain port => Sys2Proof.Machine.execPortRetrain port s
  | .laneSpare port lane => Sys2Proof.Machine.execLaneSpare port lane s
  | .ideKeyProgram => Sys2Proof.Machine.execIdeKeyProgram s
  | .getCertificate => Sys2Proof.Machine.execGetCertificate s
  | .getMeasurements nonce user => Sys2Proof.Machine.execGetMeasurements nonce user s
  | .slotWrite kind slotB image => Sys2Proof.Machine.execSlotWrite kind slotB image s
  | .slotSwitch kind => Sys2Proof.Machine.execSlotSwitch kind s
  | .commit_ kind => Sys2Proof.Machine.execCommit kind s
  | .operatorKeyEnroll key => Sys2Proof.Machine.execOperatorKeyEnroll key s
  | .powerGood romDigest => Sys2Proof.Machine.execPowerGood romDigest s
  | .stage1Entry cluster stack => Sys2Proof.Machine.execStage1Entry cluster stack s
  | .stage2Entry bad => Sys2Proof.Machine.execStage2Entry bad s
  | .rebaseStart => Sys2Proof.Machine.execRebaseStart s
  | .rebaseSweepDone => Sys2Proof.Machine.execRebaseSweepDone s
  | .patrolScrub line found => Sys2Proof.Machine.execPatrolScrub line found s
  | .rowRepair row => Sys2Proof.Machine.execRowRepair row s
  | .coreSubstitute core spareOk lost => Sys2Proof.Machine.execCoreSubstitute core spareOk lost s
  | .columnRemap die column => Sys2Proof.Machine.execColumnRemap die column s
  | .sliceRetire slice => Sys2Proof.Machine.execSliceRetire slice s
  | .coreRejoin core => Sys2Proof.Machine.execCoreRejoin core s
  | .powerRequest request => Sys2Proof.Machine.execPowerRequest request s
  | .operatingPointChange island point gate => Sys2Proof.Machine.execOperatingPointChange island point gate s
  | .ownerCounterReport die node => Sys2Proof.Machine.execOwnerCounterReport die node s
  | .powerLoss => Sys2Proof.Machine.execPowerLoss s
  | .seqUndecodableWord word => Sys2Proof.Machine.execSeqUndecodableWord word s
  | .peerResponse msg data => Sys2Proof.Machine.execPeerResponse msg data s
  | .cxlGlobalObservation seen => Sys2Proof.Machine.execCxlGlobalObservation seen s
  | .streamAccessPerformed die port access => Sys2Proof.Machine.execStreamAccessPerformed die port access s
  | .queueInstall queue descriptor domain remove => Sys2Proof.Machine.execQueueInstall queue descriptor domain remove s
  | .hostWindowInstall index window => Sys2Proof.Machine.execHostWindowInstall index window s

end Sys2Proof.Machine
end

