-- ==== Sys2Proof/Machine/Step.lean ====
section
/-! DEFINITION. One step of the device: the next turn happens, and who issues issues (LOG 2). -/
namespace Sys2Proof.Machine

/-- The word at a strand's pc: a word that the round has come to issues, and one that stalls is looked at again, which may ask
for what it waits for (R50, R205, R209). A word that is not an instruction raises ILLEGAL (R63, R64), and a word that cannot
be fetched raises what its translation or its line gives (R339, R407). -/
def State.moveReady (s : State) (r : StrandRef) (g : Group) (st : Strand) : Res :=
  match s.fetch r.core g st.pc with
  | .miss _ => execInstructionFetch r s
  | .fault f => if s.mayIssue r then .next ((s.issues r g 0).fetchFault r st.pc f) else .next s
  | .word w wts => match decodeCore w with
    | .error _ => if s.mayIssue r then .next ((s.issues r g wts).takeFault r st.pc { code := faultIllegal, detail := w }) else .next s
    | .ok i => if s.stalls r then exec i s else if s.mayIssue r then exec i (s.issues r g wts) else .next s

/-- A strand moves: its word issues, or its line is fetched (R420); an `rlaunch` with its slot reserved writes the packet (R316),
an `mrdy` looks at its rendezvous again (R170), and a `gate` at the counters it waits for, while it holds the group's other
strands (R156). -/
def State.moveStrand (s : State) (r : StrandRef) : Res :=
  match s.strandAt r with
  | none => .next s
  | some (g, st) =>
    if st.wait.reserved then .next (s.landPacket r)
    else if !g.mayRun then .next s
    else match st.wait with
      | .ready => if g.calling then .next s else s.moveReady r g st
      | .gate _ _ _ => .next (s.openGate r)
      | .mrdy n _ => .next (s.rendezvous (gkey r.core r.slot) n)
      | _ => .next s

/-- A sequencer moves: it executes the word at its program counter (R188, R67). -/
def State.moveSeq (s : State) (die n : Nat) : Res :=
  match s.annex.seqs.look (32 * die + n) with
  | none => .next s
  | some q =>
    if q.stopped then .next s
    else match q.prog[q.pc]? with
      | none => execSeqUndecodableWord 0 s
      | some w => match decodeCompact w with
        | .ok i => exec i s
        | .error _ => execSeqUndecodableWord w s

/-- A stream port moves: it carries on with the command at the head of its queue (R191-R194). -/
def State.movePort (s : State) (die p : Nat) : Res :=
  match s.annex.ports.look (64 * die + p) with
  | none => .next s
  | some q =>
    match q.queue with
    | [] => .next s
    | w :: _ => match decodeStream w with
      | .ok i => exec i s
      | .error _ => .next s

/-- The agent moves. -/
def State.move (s : State) : Res :=
  match s.agent with
  | .nobody => .next s
  | .strand r => s.moveStrand r
  | .seq die n => s.moveSeq die n
  | .port die p => s.movePort die p

/-- A turn happens. -/
def State.turn (s : State) (a : Act) : Res :=
  match a with
  | .agent a => ({ s with agent := a } : State).move
  | .event i =>
    match i with
    | .seqUndecodableWord _ => .next s
    | i => match i.kind with
      | .event => exec i s
      | .firing => exec i s
      | _ => .next s
  | .dropCopy core line => .next (s.dropCopy core line)
  | .dropFetch core line => .next (s.dropFetch core line)
  | .arriveOwner msg => .next (s.arriveOwner msg)
  | .spad core slot => .next (s.performSpad core slot false)
  | .dropLeaf key => .next (s.dropLeaf key)
  | .setQuota d die n => .next (s.setQuota d die n)
  | .upset x => .next (s.upset x)
  | .corrected u => .next (if s.boot == .stage2 then s.countCorrected u else s)
  | .telemetry who => .next (s.readTelemetry who)

/-- The agent stays what it was across a turn that is not an agent's. -/
def keepAgent (a : Act) (was : Agent) (r : Res) : Res :=
  match a, r with
  | .agent _, r => r
  | _, .next s => .next { s with agent := was }
  | _, r => r

/-- Before an act, what waited for an answer goes on (`State.settle`), what software has written to resolution words is kept
(`State.latch`), and time passes. Where something has to happen in the Annex before all of the time has passed, the act does
not happen (R269, R270). No strand acts in any of this, nor in an event, so no core's TLB serves it (R336). -/
def State.take (s : State) (dt : Nat) (a : Act) : Res :=
  let x := ({ s with agent := .nobody } : State).settle.latch.advance dt
  if x.2 then keepAgent a s.agent (x.1.turn a) else .next { x.1 with agent := s.agent }

/-- One step: the head of the schedule, after the cc it waits for; with an empty schedule the agent moves again in the next
cc. -/
def step (s : State) : Res :=
  match s.schedule with
  | [] => s.take 1 (.agent s.agent)
  | t :: rest => ({ s with schedule := rest } : State).take t.dt t.act

/-! ### The instruction that the next step runs -/

/-- What a program's start needs around the instruction itself: stage 2, nothing scheduled, and an agent. -/
def State.withAgent (s : State) (a : Agent) : State := { s with boot := .stage2, schedule := [], agent := a }

/-- Physical and virtual address of the word of `withFetchWord`: the second 64 KiB page. -/
def fetchPage : Nat := 0x10000

/-- A core word: strand 0 of the group in slot 0 of core 0 stands at the word, whose page is mapped for domain 0, and whose
line is in memory and in the core's instruction cache. -/
def State.withCoreWord (s : State) (w : Dword) : State :=
  let line := fetchPage / 64
  let g : Group := { block := 0, launch := 0, groupid := 0, domain := 0, nregs := 256, live := BitVec.allOnes 32, helper := 0, strands := [(0, { pc := BitVec.ofNat 64 fetchPage, mask := BitVec.allOnes 32 })], rclk := 0, wclk := 0 }
  let copy : CopyLine := ⟨w.setWidth 512, BitVec.allOnes 64, ⟨0, s.phase⟩, ⟨0, s.phase⟩, []⟩
  let leaf : Leaf := ⟨BitVec.ofNat 64 (fetchPage + 0x1F), 4⟩
  let mem := (s.mem.setBytes fetchPage (natToBytes 8 w.toNat))
  let mem := { mem with l2 := mem.l2.del line, icache := mem.icache.put (copyKey 0 line) copy, tlb := mem.tlb.put (tlbKey 0 fetchPage) leaf }
  ({ s with mem := mem, groups := s.groups.put 0 g, keep := { s.keep with owners := s.keep.owners.put (fetchPage / 65536) 0 } } : State).withAgent (.strand { core := 0, slot := 0, entry := 0 })

/-- The record of the region that `withFetchWord` runs. -/
def fetchRegion : RegionRec :=
  { image := 0, cols := 1, rows := 1, dies := 1, timeout := 0, arg := 0, done := 0, wait := 0, ranges := 0, domain := 0, priority := 0, sys := false, outputs := [] }

/-- Region 0 with a running instance 0 on die 0 that binds port 0. -/
def State.withRegion (s : State) : State :=
  let g : Region := { queue := 0, slot := 0, record := fetchRegion, start := 0, state := .running, insts := [0] }
  let n : Inst := { region := 0, die := 0, section_ := 0, sx := 0, sy := 0, cols := 1, rows := 1, state := .running, ports := [(0, 0, 0, 0)], seqs := [0] }
  { s with annex := { s.annex with regions := s.annex.regions.put 0 g, insts := s.annex.insts.put 0 n } }

/-- A compact word: sequencer 0 of die 0 stands at the one word of its program. -/
def State.withSeqWord (s : State) (w : Word) : State :=
  (s.withRegion.setSeq 0 { inst := 0, prog := [w] }).withAgent (.seq 0 0)

/-- A stream command: it is the head of the queue of port 0 of die 0. -/
def State.withStreamWord (s : State) (w : BitVec 128) : State :=
  (s.withRegion.setPort 0 { inst := some 0, queue := [w] }).withAgent (.port 0 0)

/-- The state whose next step runs the instruction with the bits `w`: a compact word of up to 32 bits, a core word of up to
64, a stream command above. It stands for the load of a program from outside the machine (LOG 40). -/
def State.withFetchWord (s : State) (nbits w : Nat) : State :=
  let w := w % 2 ^ nbits
  if nbits ≤ 32 then s.withSeqWord (BitVec.ofNat 32 w)
  else if nbits ≤ 64 then s.withCoreWord (BitVec.ofNat 64 w)
  else s.withStreamWord (BitVec.ofNat 128 w)

end Sys2Proof.Machine
end

