-- ==== Sys2Proof/Safety.lean ====
section
/-! DEFINITION. The terms that statements about the machine use: when a core instruction runs, what a register
instruction leaves behind, and what every step keeps. -/
namespace Sys2Proof.Machine

/-- The instruction runs for the strand of `c`: the strand issues it, the word is one that R63 and R34 accept, the group's
gate frame does not refuse it (R157), and no register it names has a write outstanding (R50). `c` is what it reads. -/
structure Runs (i : Instr) (s : State) (c : Ctx) : Prop where
  agent : s.agent = .strand c.r
  strand : s.strandAt c.r = some (c.g, c.st)
  accepted : i.accepted = true
  inRange : ∀ v ∈ i.vregs, v < c.g.nregs
  allowed : c.g.refuses i = false
  ready : c.g.pendingOn i = false
  reads : c = { s := if c.g.owned.isEmpty then s else { s with fresh := s.fresh + 1 }, r := c.r, key := gkey c.r.core c.r.slot, g := c.g, st := c.st, free := s.fresh }

/-- The outcome is the next state in which the group's registers read as `v`, `sc` and `p` say, its strand is `st`, and nothing
else of the device differs but the matrix engine's notes of written registers (R171). -/
def Ctx.Leaves (c : Ctx) (o : Res) (st : Strand) (v : Nat → Nat → Word) (sc : Nat → Dword) (p : Nat → Nat → Bool) : Prop :=
  ∃ g : Group, o = .next (c.s.setGroup c.key g) ∧
    g = { c.g with v := g.v, s := g.s, p := g.p, wrote := g.wrote, owned := g.owned, strands := c.g.strands.put c.r.entry st } ∧
    (∀ r l, l < 32 → g.vreg r l = v r l) ∧ (∀ k, g.sreg k = sc k) ∧ (∀ k l, l < 32 → g.predBit k l = p k l)

/-- The strand at the next word. -/
def Ctx.onward (c : Ctx) : Strand := c.st.goto (c.st.pc + 8)

/-- The instruction completes and leaves every register as it is. -/
def Ctx.Passes (c : Ctx) (o : Res) : Prop := c.Leaves o c.onward c.g.vreg c.g.sreg c.g.predBit

/-- A register pair d, d+1 (or d alone) takes the value `x l` in the lanes of a list, low word first (R35). -/
def Ctx.withLanes (c : Ctx) (wide : Bool) (d : Nat) (ls : List Nat) (x : Nat → Dword) (r l : Nat) : Word :=
  if l ∈ ls then
    if r = d then (x l).setWidth 32 else if wide ∧ r = d + 1 then (x l >>> 32).setWidth 32 else c.g.vreg r l
  else c.g.vreg r l

/-- s[k] takes a value; s0 discards it (R37). -/
def Ctx.withScalar (c : Ctx) (d : Nat) (x : Dword) (k : Nat) : Dword := if k = d ∧ k ≠ 0 then x else c.g.sreg k

/-- p[k] takes the value `b l` in the lanes of a list; p0 discards it (R40). -/
def Ctx.withPred (c : Ctx) (d : Nat) (ls : List Nat) (b : Nat → Bool) (k l : Nat) : Bool :=
  if k = d ∧ k ≠ 0 ∧ l ∈ ls then b l else c.g.predBit k l

/-- The result of a Form V or I instruction: d of each active lane takes `x l` (R46, R47); under uniform issue s[d] takes
`x 0`, extended by the type, if the strand-wide guard holds (R36-R38); nothing else changes, and the strand goes on. -/
def Ctx.Result (c : Ctx) (o : Res) (f : FormV) (t : Ty) (wide : Bool) (x : Nat → Dword) : Prop :=
  if f.u then
    c.Leaves o c.onward c.g.vreg
      (if c.wide f.g then c.withScalar f.d.toNat (scalarResult t (x 0)) else c.g.sreg) c.g.predBit
  else c.Leaves o c.onward (c.withLanes wide f.d.toNat (c.active f.g) x) c.g.sreg c.g.predBit

/-- The result of a comparison: p[d] of each active lane takes `b l`, or s[d] takes 1 or 0 under uniform issue (R37, R97). -/
def Ctx.PredResult (c : Ctx) (o : Res) (f : FormV) (b : Nat → Bool) : Prop :=
  if f.u then
    c.Leaves o c.onward c.g.vreg
      (if c.wide f.g then c.withScalar f.d.toNat (if b 0 then 1 else 0) else c.g.sreg) c.g.predBit
  else c.Leaves o c.onward c.g.vreg c.g.sreg (c.withPred f.d.toNat (c.active f.g) b)

/-- The strand of `c` goes on at the next word. -/
def Ctx.GoesOn (c : Ctx) (t : State) : Prop :=
  ∃ g st, t.strandAt c.r = some (g, st) ∧ st.pc = c.st.pc + 8 ∧ st.mask = c.st.mask ∧ st.wait = .ready

/-- The group's registers read as before. -/
def Group.SameRegs (g h : Group) : Prop :=
  (∀ r l, l < 32 → h.vreg r l = g.vreg r l) ∧ (∀ k, h.sreg k = g.sreg k) ∧ ∀ k l, l < 32 → h.predBit k l = g.predBit k l

/-- The access instruction runs: nothing is owed to an acquire (R120), the path's counter is not full (R127), and the fences
before it can complete (R126). -/
structure Accesses (i : Instr) (s : State) (c : Ctx) (path : Path) (o : Order) (scope : Scope) : Prop where
  runs : Runs i s c
  free : c.g.hold = none
  room : c.g.full path = false
  fenced : c.s.fenceReady c.g (Order.relBefore o) (Order.acqBefore o) scope = true

/-- The group when its access starts: after the fence before the access (R120). -/
def Ctx.fenced (c : Ctx) (o : Order) (scope : Scope) : Group := c.g.fence (Order.relBefore o) (Order.acqBefore o) scope

/-- Every lane of the list has a good address, and these are the lanes with it. -/
def Ctx.Reaches (c : Ctx) (f : FormM) (size : Nat) (want : Want) (ls : List Nat) (good : List LaneRef) : Prop :=
  let p := c.s.plan c.g.domain size want (ls.map fun l => (l, c.ea f l))
  p.bad = [] ∧ p.good = good

/-- The access lies in its bytes: an offset is one of those a lane stores to. -/
def LaneRef.covers (x : LaneRef) (size a : Nat) : Prop := x.pa ≤ a ∧ a < x.pa + size

/-- The words of a structure are read at once: no line of it is uncorrectable, and none has yet to come from its owner; `d` is
what the instruction goes on with. -/
structure Ctx.Reads (c : Ctx) (va : Dword) (n : Nat) (d : Ctx) (ws : List Dword) : Prop where
  words : c.s.loadWords c.key c.g va n = .inl (d.s, d.g, ws)
  same : d = { c with s := d.s, g := d.g }
  present : ∀ x ∈ ((c.s.rangeLines c.g.domain va (8 * n) wantLoad).getD []).filter fun x => x.2 || (c.s.hits c.key c.g c.r.core x.1 0 .dev (BitVec.allOnes 64)).isNone,
    c.s.lineBad x.1 = false ∧ c.s.refused x.1 x.2 = false ∧ c.s.lineNow x.1 x.2 ≠ none

/-- A request is out at the homes. -/
def State.HasMsg (s : State) (p : Msg → Prop) : Prop := ∃ id m, s.mem.msgs.look id = some m ∧ p m

/-- Everything outside the group of `c` and outside the paths to memory is as it was: other groups, blocks, memory itself and
what the homes hold. -/
structure Ctx.OnlyIssues (c : Ctx) (s t : State) : Prop where
  memory : t.mem.bytes = s.mem.bytes
  homes : t.mem.l2 = s.mem.l2
  blocks : t.blocks = s.blocks
  others : ∀ k, k ≠ c.key → t.groups.look k = s.groups.look k
  cores : t.cores = s.cores
  annex : t.annex = s.annex
  belfry : t.belfry = s.belfry
  domains : t.domains = s.domains

/-- A port sequencer of a running instance stands at a word that it may execute (R188, R289). -/
structure SeqRuns (s : State) (die n : Nat) (q : Seq) : Prop where
  agent : s.agent = .seq die n
  seq : s.annex.seqs.look (32 * die + n) = some q
  going : q.stopped = false
  running : ∃ i, s.annex.insts.look q.inst = some i ∧ i.state = .running

/-- The sequencer goes on at program index `pc`, with k[d] set to a value (k0 ignores it) or with none of its registers changed;
nothing but the sequencer changes. -/
def SeqGoes (s : State) (die n : Nat) (q : Seq) (o : Res) (pc : Nat) (w : Option (Nat × Dword)) : Prop :=
  ∃ t q', o = .next t ∧ t = s.setSeq (32 * die + n) q' ∧ q'.pc = pc ∧ q'.prog = q.prog ∧ q'.store = q.store ∧ q'.stopped = false ∧
    ∀ k, q'.kreg k = match w with | some (d, x) => if k = d ∧ k ≠ 0 then x else q.kreg k | none => q.kreg k

/-- A stream port of a running region carries on with the command at the head of its queue (R191). -/
structure PortRuns (s : State) (die port : Nat) (p : Port) (n : Inst) (g : Region) : Prop where
  agent : s.agent = .port die port
  port : s.annex.ports.look (64 * die + port) = some p
  inst : p.inst.bind (fun i => s.annex.insts.look i) = some n
  region : s.annex.regions.look n.region = some g
  running : n.state = .running
  free : p.withheld = none ∧ p.wants = none

/-- A task of an element in channel mode whose operation is `op`, in a fc in which the element has not fired, and which comes
first among its element's tasks (R270). -/
structure Stands (s : State) (op : FuOp) (site : FuSite) (n : Inst) (t : TaskState) : Prop where
  inst : s.annex.insts.look site.inst = some n
  task : (n.elem site.x site.y).tasks[site.task]? = some t
  op : taskFu t.word = some op
  live : n.live = true
  open_ : (n.elem site.x site.y).blocked = false
  once : (n.elem site.x site.y).lastFc ≠ some s.fc
  stage : taskStage t.word = n.stage
  channel : (n.elem site.x site.y).frameMode = false
  first : n.first site.x site.y site.task s.fc s.fresh = true

/-- Input i of a task has this data token at the start of the fc: the head of its channel, or its constant (R260, R270). -/
def Stands.input (s : State) (site : FuSite) (n : Inst) (t : TaskState) (i : Nat) (x : Token) : Prop :=
  x.eos = false ∧ ((taskIn t.word i < 8 ∧ ∃ since, n.inHead site.x site.y (taskIn t.word i) s.fc = some (x, since)) ∨
    (taskIn t.word i = 8 ∧ x = ⟨t.k, 0, false⟩))

/-- The outputs of a task have room for a token (R269, R270), and are two different channels. -/
def Stands.room (s : State) (site : FuSite) (n : Inst) (t : TaskState) (op : FuOp) : Prop :=
  (taskVcs t.word).Nodup ∧ ∀ v ∈ taskVcs t.word, (Map.get {} (n.elem site.x site.y).outs v).accepts (outCap op (taskVar t.word)) s.fc = true

/-- The firing happens: the task's state is `u` (with its firing noted), each outgoing channel of `vcs` has taken the token,
every other has what it had, and nothing outside the instance changes but the counter of free values. -/
def Stands.Fires (s : State) (site : FuSite) (n : Inst) (op : FuOp) (o : Res) (u : TaskState) (vcs : List Nat) (x : Token) (more : Inst → Prop) : Prop :=
  ∃ t n', o = .next t ∧ t.annex.insts.look site.inst = some n' ∧ t.mem = s.mem ∧ t.annex.regions = s.annex.regions ∧ t.annex.ports = s.annex.ports ∧
    (∀ k, k ≠ site.inst → t.annex.insts.look k = s.annex.insts.look k) ∧
    (n'.elem site.x site.y).tasks[site.task]? = some { u with lastFired := some s.fc } ∧ (n'.elem site.x site.y).lastFc = some s.fc ∧
    (∀ v, Map.get {} (n'.elem site.x site.y).outs v = if v ∈ vcs then (Map.get {} (n.elem site.x site.y).outs v).push x s.fc (s.fc + fuLatency op (taskVar u.word))
      else Map.get {} (n.elem site.x site.y).outs v) ∧ more n'

/-- What every step keeps of a state: the fused identity (R393), every anti-rollback counter or a larger value (R395), the
count of cc while the power is on (R1), and the canonical form of memory. -/
structure Keeps (s t : State) : Prop where
  uds : t.keep.uds = s.keep.uds
  serial : t.keep.serial = s.keep.serial
  factory : t.keep.factory = s.keep.factory
  rollback : ∀ k, Map.get 0 s.keep.arb k ≤ Map.get 0 t.keep.arb k
  time : s.boot ≠ .off → t.boot ≠ .off → s.now ≤ t.now
  memory : Memory.wf s.mem.bytes = true → Memory.wf t.mem.bytes = true

/-- The management Curator's own events, which write the tables of R399, with the events that set them up at start-up or clear
them at a power loss. -/
def curates (i : Instr) : Bool :=
  match i with
  | .gateInstall _ _ _ => true
  | .domainCreate _ => true
  | .domainRelease _ => true
  | .grantRequest _ => true
  | .grantMessage _ => true
  | .revoke _ _ => true
  | .hostWindowInstall _ _ => true
  | .queueInstall _ _ _ _ => true
  | .stage1Entry _ _ => true
  | .powerLoss => true
  | _ => false

/-- The tables that the Curator alone writes (R399): gate tables, import and export tables, host windows, and the descriptor and
the domain of every entry of the queue table. -/
structure SameTables (s t : State) : Prop where
  gates : ∀ d, (t.domain d).gates = (s.domain d).gates
  imports : ∀ d, (t.domain d).imports = (s.domain d).imports
  exports_ : t.links.exports = s.links.exports
  windows : t.links.windows = s.links.windows
  queues : ∀ k, (t.belfry.queues.look k).map (fun q => (q.descriptor, q.domain)) = (s.belfry.queues.look k).map (fun q => (q.descriptor, q.domain))

end Sys2Proof.Machine
end

