-- ==== Sys2Proof/Certificates/Slice0/Obligations.lean ====
section
/-! DEFINITION. The statements: what the instructions and the events of the device do, rule by rule. -/
open Sys2Proof Sys2Proof.Machine

/-- R95. The exact integer result, clamped under `.sat`, then kept to W bits, in every active lane or in a scalar.
R95. `madw` and `lea`, whose results are 64-bit. -/
def Obligations.IntegerArithmetic : Prop :=
  (∀ (f : FormV) (s : State) (c : Ctx),
    let a (l : Nat) := f.ty.val (c.opA f f.ty.wide l)
    let b (l : Nat) := f.ty.val (c.opB f immInt f.ty.wide l)
    let d (l : Nat) := f.ty.val (c.opC f f.ty.wide l)
    let gives (i : Instr) (r : Nat → Int) := Runs i s c → c.Result (exec i s) f f.ty f.ty.wide fun l => f.ty.wrap f.sat (r l)
    gives (.add f) (fun l => a l + b l) ∧ gives (.sub f) (fun l => a l - b l) ∧ gives (.mul f) (fun l => a l * b l) ∧
    gives (.mulhi f) (fun l => a l * b l / 2 ^ f.ty.w) ∧ gives (.mad f) (fun l => a l * b l + d l) ∧
    gives (.min_ f) (fun l => min (a l) (b l)) ∧ gives (.max_ f) (fun l => max (a l) (b l)) ∧
    gives (.abs_ f) (fun l => (a l).natAbs) ∧ gives (.neg f) (fun l => -a l)) ∧
  (∀ (f : FormV) (s : State) (c : Ctx),
    (Runs (.madw f) s c →
      let w : Ty := if f.ty = .i32 then .i64 else .n64
      c.Result (exec (.madw f) s) f .n64 true fun l =>
        w.wrap f.sat (f.ty.val (c.opA f false l) * f.ty.val (c.opB f immInt false l) + w.val (c.opC f true l))) ∧
    (Runs (.lea f) s c →
      c.Result (exec (.lea f) s) f .n64 true fun l =>
        BitVec.ofInt 64 ((c.opB f immInt true l).toInt + f.ty.val (c.opA f false l) * 2 ^ f.x.toNat)))

/-- R95. The bitwise results, bit by bit, the counts and the byte permute.
R95. Leading and trailing zeros: W for zero, otherwise the place of the outermost one bit. -/
def Obligations.BitResults : Prop :=
  (∀ (f : FormV) (s : State) (c : Ctx),
    let a (l : Nat) := c.opA f f.ty.wide l
    let b (l : Nat) := c.opB f immInt f.ty.wide l
    let gives (i : Instr) (r : Nat → Dword) := Runs i s c → c.Result (exec i s) f f.ty f.ty.wide r
    let bits (i : Instr) (r : Nat → Nat → Bool) := ∃ x : Nat → Dword, gives i x ∧
      ∀ l j, j < 64 → (x l).getLsbD j = (decide (j < f.ty.w) && r l j)
    bits (.and_ f) (fun l j => (a l).getLsbD j && (b l).getLsbD j) ∧ bits (.or_ f) (fun l j => (a l).getLsbD j || (b l).getLsbD j) ∧
    bits (.xor_ f) (fun l j => (a l).getLsbD j != (b l).getLsbD j) ∧
    bits (.andn f) (fun l j => (a l).getLsbD j && !(b l).getLsbD j) ∧ bits (.not_ f) (fun l j => !(a l).getLsbD j) ∧
    bits (.brev f) (fun l j => (a l).getLsbD (f.ty.w - 1 - j)) ∧
    gives (.popc f) (fun l => BitVec.ofNat 64 ((List.range f.ty.w).countP fun j => (a l).getLsbD j)) ∧
    gives (.clz f) (fun l => BitVec.ofNat 64 (clzBits f.ty.w (a l))) ∧ gives (.ctz f) (fun l => BitVec.ofNat 64 (ctzBits f.ty.w (a l))) ∧
    gives (.sel f) (fun l => if c.predC f l then a l else b l) ∧
    (Runs (.perm f) s c → c.Result (exec (.perm f) s) f f.ty false fun l =>
      permBytes (c.opA f false l) (c.opB f immInt false l) (c.opC f false l))) ∧
  (∀ (w : Nat) (x : Dword), w ≤ 64 →
    (∀ n, n ≤ w → (clzBits w x = n ↔ (∀ j, j < n → x.getLsbD (w - 1 - j) = false) ∧ (n < w → x.getLsbD (w - 1 - n) = true))) ∧
    (∀ n, n ≤ w → (ctzBits w x = n ↔ (∀ j, j < n → x.getLsbD j = false) ∧ (n < w → x.getLsbD n = true))))

/-- R96. Shifts, rotate and bit fields, with the count and the field descriptor in b.
R96. Bit by bit: a rotate takes bit j from bit j - n, and `bfi` replaces just the field. -/
def Obligations.ShiftResults : Prop :=
  (∀ (f : FormV) (s : State) (c : Ctx),
    let w := f.ty.w
    let a (l : Nat) := c.opA f f.ty.wide l
    let n (l : Nat) := (c.opB f immInt false l).toNat
    let pos (l : Nat) := n l % 256
    let len (l : Nat) := n l / 256 % 256
    let m (l : Nat) := min (len l) (w - pos l)
    let gives (i : Instr) (r : Nat → Dword) := Runs i s c → c.Result (exec i s) f f.ty f.ty.wide r
    gives (.shl f) (fun l => if n l < w then BitVec.ofNat 64 ((a l).toNat * 2 ^ n l % 2 ^ w) else 0) ∧
    gives (.shr f) (fun l => if n l < w then BitVec.ofNat 64 ((a l).toNat / 2 ^ n l) else 0) ∧
    gives (.sar f) (fun l => low w (BitVec.ofInt 64 (valN true w (a l) / 2 ^ min (n l) (w - 1)))) ∧
    gives (.rotl f) (fun l => rotlN w (a l) (n l)) ∧
    gives (.bfx f) (fun l => if len l = 0 ∨ w ≤ pos l then 0 else
      low w (BitVec.ofInt 64 (valN f.ty.isSigned (m l) (a l >>> pos l)))) ∧
    (Runs (.bfi f) s c → c.Result (exec (.bfi f) s) f f.ty f.ty.wide fun l =>
      bfiN w (a l) (c.opB f immInt false l) (c.opC f f.ty.wide l))) ∧
  (∀ (w : Nat) (a c desc : Dword) (n j : Nat), (w = 32 ∨ w = 64) → j < w → a.toNat < 2 ^ w →
    (rotlN w a n).getLsbD ((j + n) % w) = a.getLsbD j ∧
    (let pos := desc.toNat % 256
     let len := desc.toNat / 256 % 256
     (bfiN w a desc c).getLsbD j = if pos ≤ j ∧ j < pos + len then a.getLsbD (j - pos) else c.getLsbD j))

/-- R97, R98. Comparisons into a predicate, and the carry and the borrow that pass through one. That the carry or the borrow is
written last where it names the same register as the sum is the model's choice (LOG 136). -/
def Obligations.ComparesAndCarries : Prop :=
  ∀ (f : FormV) (s : State) (c : Ctx),
    let a (l : Nat) := c.opA f f.ty.wide l
    let b (l : Nat) := c.opB f immInt f.ty.wide l
    let cond (x y : Int) : Bool := match f.x.toNat with
      | 0 => x = y | 1 => x ≠ y | 2 => x < y | 3 => x ≤ y | 4 => x > y | 5 => x ≥ y | _ => false
    let carries (i : Instr) (r : Nat → Int) := Runs i s c →
      let d (l : Nat) : Dword := BitVec.ofInt 64 (r l % 2 ^ f.ty.w)
      let p (l : Nat) : Bool := r l < 0 ∨ 2 ^ f.ty.w ≤ r l
      if f.u then
        c.Leaves (exec i s) c.onward c.g.vreg
          (if c.wide f.g then fun k => if k = f.c.toNat ∧ k ≠ 0 then (if p 0 then 1 else 0) else c.withScalar f.d.toNat (scalarResult f.ty (d 0)) k
           else c.g.sreg) c.g.predBit
      else c.Leaves (exec i s) c.onward (c.withLanes f.ty.wide f.d.toNat (c.active f.g) d) c.g.sreg
        (c.withPred f.c.toNat (c.active f.g) p)
    (Runs (.cmp f) s c → c.PredResult (exec (.cmp f) s) f fun l => cond (f.ty.val (a l)) (f.ty.val (b l))) ∧
    (Runs (.fcmp f) s c → c.PredResult (exec (.fcmp f) s) f fun l =>
      condFp f.x.toNat (c.opA f false l).toNat (c.opB f immFp false l).toNat) ∧
    carries (.addc f) (fun l => ((low f.ty.w (a l)).toNat : Int) + (low f.ty.w (b l)).toNat + (c.predC f l).toNat) ∧
    carries (.subc f) (fun l => ((low f.ty.w (a l)).toNat : Int) - (low f.ty.w (b l)).toNat - (c.predC f l).toNat)

/-- R99. The moves: what each writes, once per issue or in every active lane. That a scalar selection which differs by lane is
read in the lowest active lane is the model's choice (LOG 137). -/
def Obligations.Moves : Prop :=
  ∀ (f : FormV) (h : FormL) (s : State) (c : Ctx),
    (Runs (.mov f) s c → c.Result (exec (.mov f) s) f f.ty f.ty.wide fun l => c.opB f immInt f.ty.wide l) ∧
    (Runs (.movi h) s c →
      if h.u then c.Leaves (exec (.movi h) s) c.onward c.g.vreg
        (if c.wide h.g then c.withScalar h.d.toNat
          (if h.x = 0 then h.imm.setWidth 64 else if h.x = 1 then h.imm.signExtend 64
           else h.imm ++ (c.g.sreg h.d.toNat).setWidth 32) else c.g.sreg) c.g.predBit
      else c.Leaves (exec (.movi h) s) c.onward (c.withLanes false h.d.toNat (c.active h.g) fun _ => h.imm.setWidth 64)
        c.g.sreg c.g.predBit) ∧
    (Runs (.bcast f) s c → c.Leaves (exec (.bcast f) s) c.onward
      (c.withLanes f.ty.wide f.d.toNat (c.active f.g) fun _ => c.lane f.ty.wide f.a.toNat ((c.active f.g).headD 0))
      c.g.sreg c.g.predBit) ∧
    (Runs (.rdlane f) s c → c.Leaves (exec (.rdlane f) s) c.onward c.g.vreg
      (match (c.active f.g).head? with
       | none => c.g.sreg
       | some l => c.withScalar f.d.toNat (c.cross f.ty.wide f.a.toNat (c.sel f.b l).toNat)) c.g.predBit) ∧
    (Runs (.wrlane f) s c → c.Leaves (exec (.wrlane f) s) c.onward
      (match (c.active f.g).head? with
       | none => c.g.vreg
       | some l =>
         let n := (c.sel f.b l).toNat
         c.withLanes f.ty.wide f.d.toNat (if n < 32 ∧ c.g.live.getLsbD n then [n] else []) fun _ => c.sel f.a l)
      c.g.sreg c.g.predBit)

/-- R94, R99. Reading the special and the trap registers, and writing the trap registers: trapvec is the group's, trapret
and trapcode are the strand's. -/
def Obligations.SpecialAndTrapRegisters : Prop :=
  ∀ (f : FormV) (s : State) (c : Ctx),
    let value := if f.u then (if c.wide f.g then some (c.sel f.a 0) else none)
      else (c.active f.g).head?.map fun l => (c.vread f.a.toNat l).setWidth 64
    (Runs (.rdsr f) s c → c.Result (exec (.rdsr f) s) f .n64 f.ty.wide fun l =>
      if f.x = 0 then c.special f.b.toNat l else
        match f.b.toNat with | 0 => c.g.trapvec | 1 => c.st.trapret | _ => c.st.trapcode.setWidth 64) ∧
    (Runs (.wrsr f) s c →
      match value with
      | none => c.Passes (exec (.wrsr f) s)
      | some x =>
        (f.d.toNat = 0 → exec (.wrsr f) s = .next (c.s.setGroup c.key { c.g with trapvec := x, strands := c.g.strands.put c.r.entry c.onward })) ∧
        (f.d.toNat = 1 → c.Leaves (exec (.wrsr f) s) { c.onward with trapret := x } c.g.vreg c.g.sreg c.g.predBit) ∧
        (f.d.toNat = 2 → c.Leaves (exec (.wrsr f) s) { c.onward with trapcode := x.setWidth 32 } c.g.vreg c.g.sreg c.g.predBit))

/-- R99, R100. Votes and predicate logic: votes count and write only the lanes of part. -/
def Obligations.VotesAndPredicates : Prop :=
  ∀ (f : FormV) (s : State) (c : Ctx),
    let part := c.part f.g
    let pa (l : Nat) := c.g.predBit f.a.toNat l
    let sets (i : Instr) (ls : List Nat) (b : Nat → Bool) := Runs i s c →
      c.Leaves (exec i s) c.onward c.g.vreg c.g.sreg (c.withPred f.d.toNat ls b)
    let a (l : Nat) : Bool := pa l ^^ f.x.getLsbD 0
    let b (l : Nat) : Bool := c.g.predBit f.b.toNat l ^^ f.x.getLsbD 1
    let lanes (i : Instr) (x : Dword) := Runs i s c →
      c.Leaves (exec i s) c.onward (c.withLanes false f.d.toNat part fun _ => x) c.g.sreg c.g.predBit
    sets (.voteAny f) part (fun _ => part.any pa) ∧ sets (.voteAll f) part (fun _ => part.all pa) ∧
    sets (.pand f) (c.active f.g) (fun l => a l && b l) ∧ sets (.por f) (c.active f.g) (fun l => a l || b l) ∧
    sets (.pxor f) (c.active f.g) (fun l => a l ^^ b l) ∧ sets (.pnot f) (c.active f.g) (fun l => !pa l) ∧
    lanes (.ppopc f) (BitVec.ofNat 64 (part.countP pa)) ∧
    (∃ m : Dword, lanes (.ballot f) m ∧ ∀ j, j < 64 → (m.getLsbD j = true ↔ j ∈ part ∧ pa j = true))

/-- R43, R101. Shuffles: each active lane reads a from one lane; an exited lane and an index outside 0-31 give 0 (R49). -/
def Obligations.Shuffles : Prop :=
  ∀ (f : FormV) (s : State) (c : Ctx),
    let n (l : Nat) : Nat := (c.opB f immInt f.ty.wide l).toNat % 2 ^ 32
    let from_ (i : Instr) (src : Nat → Int) := Runs i s c →
      c.Leaves (exec i s) c.onward (c.withLanes f.ty.wide f.d.toNat (c.active f.g) fun l =>
        if 0 ≤ src l ∧ src l < 32 ∧ c.g.live.getLsbD (src l).toNat = true then c.lane f.ty.wide f.a.toNat (src l).toNat else 0)
        c.g.sreg c.g.predBit
    from_ (.shflIdx f) (fun l => n l) ∧ from_ (.shflUp f) (fun l => l - n l) ∧ from_ (.shflDown f) (fun l => l + n l) ∧
    from_ (.shflXor f) (fun l => (l ^^^ n l : Nat)) ∧
    from_ (.qswapH f) (fun l => (l ^^^ 1 : Nat)) ∧ from_ (.qswapV f) (fun l => (l ^^^ 2 : Nat)) ∧ from_ (.qswapD f) (fun l => (l ^^^ 3 : Nat)) ∧
    from_ (.qbcast f) (fun l => (4 * (l / 4) + n l % 4 : Nat))

/-- R102. Reductions and the scan over the lanes of part; the integer sum is exact before it wraps or clamps, and the FP32 sum
runs in ascending lane order.
R102. The integer extremes are attained, and bound every value. -/
def Obligations.Reductions : Prop :=
  (∀ (f : FormV) (s : State) (c : Ctx),
    let part := c.part f.g
    let a (l : Nat) : Dword := c.lane f.ty.wide f.a.toNat l
    let lanes (i : Instr) (x : Nat → Dword) := Runs i s c →
      c.Leaves (exec i s) c.onward (c.withLanes f.ty.wide f.d.toNat part x) c.g.sreg c.g.predBit
    lanes (.redxAdd f) (fun _ => if f.ty = .f32 then BitVec.ofNat 64 (fpSum f.rm (part.map a)) else f.ty.wrap f.sat (part.map fun l => f.ty.val (a l)).sum) ∧
    lanes (.redxMin f) (fun _ => reduceExt f.ty false (part.map a)) ∧ lanes (.redxMax f) (fun _ => reduceExt f.ty true (part.map a)) ∧
    lanes (.scanxAdd f) (fun l =>
      let before := (part.take (part.idxOf l + if f.x.getLsbD 0 then 0 else 1)).map a
      if before = [] then 0 else if f.ty = .f32 then BitVec.ofNat 64 (fpSum f.rm before) else f.ty.wrap f.sat (before.map f.ty.val).sum)) ∧
  (∀ (t : Ty) (x : Dword) (xs : List Dword), t ≠ .f32 →
    (let m := reduceExt t false (x :: xs); m ∈ x :: xs ∧ ∀ y ∈ x :: xs, t.val m ≤ t.val y) ∧
    (let m := reduceExt t true (x :: xs); m ∈ x :: xs ∧ ∀ y ∈ x :: xs, t.val y ≤ t.val m))

/-- R103. `compact` packs the chosen lanes' values, or their indices, into the first lanes of part and writes their count;
`expand` spreads the first lanes' values over the lanes with p[b]. -/
def Obligations.CompactAndExpand : Prop :=
  ∀ (f : FormV) (s : State) (c : Ctx),
    let part := c.part f.g
    let a (l : Nat) : Dword := c.lane false f.a.toNat l
    let b (l : Nat) : Dword := c.opB f immInt false l
    let chosen := part.filter fun l =>
      if f.ty = .f32 then condFp 4 (a l).toNat (b l).toNat else decide (f.ty.val (b l) < f.ty.val (a l))
    let q := (c.active f.g).filter fun l => c.g.predBit f.b.toNat l
    (Runs (.compact f) s c → c.Leaves (exec (.compact f) s) c.onward
      (c.withLanes false f.d.toNat (part.take chosen.length) fun l =>
        let src := chosen.getD (part.idxOf l) 0
        if f.x.getLsbD 0 then BitVec.ofNat 64 src else a src)
      (if (c.active f.g) = [] then c.g.sreg else c.withScalar f.c.toNat (BitVec.ofNat 64 chosen.length)) c.g.predBit) ∧
    (Runs (.expand f) s c → c.Leaves (exec (.expand f) s) c.onward
      (c.withLanes f.ty.wide f.d.toNat q fun l => c.cross f.ty.wide f.a.toNat (q.idxOf l)) c.g.sreg c.g.predBit)

/-- R104-R106, R25, R23. FP32 arithmetic in every active lane or in a scalar: one rounding in the word's mode; a faithful
function takes one of the two neighbours, always the same one for an operand (LOG 9).
R22. Arithmetic never returns a NaN but the canonical one.
R19. A value that the format has rounds to its own pattern in every mode. -/
def Obligations.FloatResults : Prop :=
  (∀ (f : FormV) (s : State) (c : Ctx),
    let a (l : Nat) := (c.opA f false l).toNat
    let b (l : Nat) := (c.opB f immFp false l).toNat
    let d (l : Nat) := (c.opC f false l).toNat
    let gives (i : Instr) (r : Nat → Nat) := Runs i s c → c.Result (exec i s) f f.ty false fun l => BitVec.ofNat 64 (r l)
    let faithful (i : Instr) (r : Rm → Nat → Nat) := ∃ pick : Nat → Rm, (∀ w, pick w = .ru ∨ pick w = .rd) ∧ gives i fun l => r (pick (a l)) (a l)
    gives (.fadd f) (fun l => fp32.add f.rm (a l) (b l)) ∧ gives (.fsub f) (fun l => fp32.sub f.rm (a l) (b l)) ∧
    gives (.fmul f) (fun l => fp32.mul f.rm (a l) (b l)) ∧ gives (.ffma f) (fun l => fp32.fma f.rm (a l) (b l) (d l)) ∧
    gives (.fmin f) (fun l => fp32.min (a l) (b l)) ∧ gives (.fmax f) (fun l => fp32.max (a l) (b l)) ∧
    gives (.fminm f) (fun l => if fp32.isNan (a l) ∨ fp32.isNan (b l) then 0x7FC00000 else fp32.min (a l) (b l)) ∧
    gives (.fabs f) (fun l => a l % 2 ^ 31) ∧ gives (.fneg f) (fun l => (a l + 2 ^ 31) % 2 ^ 32) ∧
    gives (.fclass f) (fun l => 2 ^ fclassBit (a l)) ∧
    gives (.frcp f) (fun l => frcpCode f.rm (a l)) ∧ gives (.fsqrt f) (fun l => fsqrtCode f.rm (a l)) ∧
    faithful (.frsq f) frsqCode ∧ faithful (.fexp2 f) fexp2Code ∧ faithful (.flog2 f) flog2Code ∧
    faithful (.fsin f) (fsincosCode false 16) ∧ faithful (.fcos f) (fsincosCode true 17)) ∧
  (∀ (F : Fmt) (rm : Rm) (a b d : Nat), F = fp32 ∨ F = fp16 ∨ F = bfloat16 →
    (F.isNan (F.add rm a b) = true → F.add rm a b = F.nanCode) ∧ (F.isNan (F.sub rm a b) = true → F.sub rm a b = F.nanCode) ∧
    (F.isNan (F.mul rm a b) = true → F.mul rm a b = F.nanCode) ∧ (F.isNan (F.fma rm a b d) = true → F.fma rm a b d = F.nanCode)) ∧
  (∀ (F : Fmt) (rm : Rm) (w : Nat), F = fp32 ∨ F = fp16 ∨ F = bfloat16 ∨ F = e4m3Fmt ∨ F = e5m2Fmt ∨ F = e2m1Fmt →
    w < 2 ^ F.bits → F.read w ≠ .nan → F.exact rm (F.read w) = w)

/-- R107. Packed results, element by element, and the dot product with one rounding. -/
def Obligations.PackedResults : Prop :=
  ∀ (f : FormV) (s : State) (c : Ctx),
    let F := packedFmt f
    let a (l e : Nat) := half e (c.opA f false l)
    let b (l e : Nat) := half e (c.opB f immInt false l)
    let d (l e : Nat) := half e (c.opC f false l)
    let gives (i : Instr) (r : Nat → Nat → Nat) := Runs i s c →
      c.Result (exec i s) f f.ty false fun l => BitVec.ofNat 64 (r l 0 % 2 ^ 16 + r l 1 % 2 ^ 16 * 2 ^ 16)
    gives (.hadd2 f) (fun l e => F.add f.rm (a l e) (b l e)) ∧ gives (.hmul2 f) (fun l e => F.mul f.rm (a l e) (b l e)) ∧
    gives (.hfma2 f) (fun l e => F.fma f.rm (a l e) (b l e) (d l e)) ∧
    gives (.hmin2 f) (fun l e => F.min (a l e) (b l e)) ∧ gives (.hmax2 f) (fun l e => F.max (a l e) (b l e)) ∧
    (Runs (.hdot2 f) s c → c.Result (exec (.hdot2 f) s) f .f32 false fun l =>
      BitVec.ofNat 64 (fp32.sum f.rm fpOne2 [(F.read (a l 0)).mul (F.read (b l 0)), (F.read (a l 1)).mul (F.read (b l 1)),
        (fp32.read (c.opC f false l).toNat).finer 149]))

/-- R48, R109-R112. Conversions: a narrow result replaces its element only and keeps the register's others.
R15, R48. An element written is read back, and the register's other elements stay. -/
def Obligations.Conversions : Prop :=
  (∀ (f : FormV) (s : State) (c : Ctx),
    let act := c.active f.g
    let src := (Ty.ofCode f.x.toNat).getD .b32
    let F := (f.ty.fmt).getD fp16
    let a (l : Nat) := (c.opA f false l).toNat
    let old (l : Nat) := c.vread f.d.toNat l
    let code := qscaleCode f.ty (act.map a)
    let writes (i : Instr) (x : Nat → Word) := Runs i s c →
      c.Leaves (exec i s) c.onward (fun r l => if r = f.d.toNat ∧ l ∈ act then x l else c.g.vreg r l) c.g.sreg c.g.predBit
    (Runs (.cvt f) s c →
      if f.u then c.Result (exec (.cvt f) s) f f.ty f.ty.wide fun _ =>
        BitVec.ofNat 64 (convert f.ty src f.rm f.sat ((c.sel f.a 0).toNat % 2 ^ src.bits))
      else
        let x (l : Nat) := convert f.ty src f.rm f.sat (elemVal src f.b.toNat (c.lane src.wide f.a.toNat l))
        if 32 ≤ f.ty.bits then c.Leaves (exec (.cvt f) s) c.onward
          (c.withLanes f.ty.wide f.d.toNat act fun l => BitVec.ofNat 64 (x l)) c.g.sreg c.g.predBit
        else c.Leaves (exec (.cvt f) s) c.onward
          (fun r l => if r = f.d.toNat ∧ l ∈ act then setElem f.ty.bits f.c.toNat (old l) (x l) else c.g.vreg r l) c.g.sreg c.g.predBit) ∧
    writes (.cvtpk f) (fun l =>
      setElem f.ty.bits (2 * f.x.toNat + 1) (setElem f.ty.bits (2 * f.x.toNat) (old l) (F.convert f.rm f.sat (fp32.read (a l))))
        (F.convert f.rm f.sat (fp32.read (c.opB f immInt false l).toNat))) ∧
    writes (.cvtsr f) (fun l => setElem f.ty.bits f.c.toNat (old l)
      (F.convertSr ((c.sel f.b l).toNat % 2 ^ 16) l f.sat (fp32.read (a l)))) ∧
    writes (.qscale f) (fun l => if f.x = 0 then setElem 8 0 (old l) code
      else BitVec.ofNat 32 (if code = 0xFF then 0x7FC00000 else qscaleApply code (a l)))) ∧
  (∀ (bits i j x : Nat) (w : Word), 0 < bits → bits * (i + 1) ≤ 32 → bits * (j + 1) ≤ 32 →
    elemOf bits j (setElem bits i w x) = if j = i then x % 2 ^ bits else elemOf bits j w)

/-- R85-R87, R92, R93. Straight-line control: where each strand-wide instruction leaves the strand when its guard holds, and
that it has no effect when it does not (R86). -/
def Obligations.StrandWideControl : Prop :=
  ∀ (f : FormV) (b : FormB) (n : FormL) (s : State) (c : Ctx),
    let goes (i : Instr) (g : Guard) (st : Strand) (sc : Nat → Dword) := Runs i s c →
      if c.wide g then c.Leaves (exec i s) st c.g.vreg sc c.g.predBit else c.Passes (exec i s)
    let target := c.st.pc + 8 * b.disp.signExtend 64
    let link (k : BitVec 8) := c.withScalar k.toNat (c.st.pc + 8)
    (Runs (.nop f) s c → c.Passes (exec (.nop f) s)) ∧ (Runs (.yield f) s c → c.Passes (exec (.yield f) s)) ∧
    goes (.bra b) b.g (c.st.goto target) c.g.sreg ∧ goes (.call b) b.g (c.st.goto target) (link b.k) ∧
    (c.selWide f.a &&& 7 = 0 → goes (.brx f) f.g (c.st.goto (c.selWide f.a)) c.g.sreg ∧
      goes (.callx f) f.g (c.st.goto (c.selWide f.a)) (link f.d) ∧ goes (.ret f) f.g (c.st.goto (c.selWide f.a)) c.g.sreg) ∧
    (c.st.trapret &&& 7 = 0 → goes (.tret f) f.g (c.st.goto c.st.trapret) c.g.sreg) ∧
    goes (.nap n) n.g (if n.imm = 0 then c.onward else { c.onward with wait := .nap (c.s.now + n.imm.toNat) }) c.g.sreg ∧
    (c.g.trapvec ≠ 0 → c.g.trapvec &&& 7 = 0 →
      goes (.trap n) n.g { c.st.goto c.g.trapvec with trapret := c.st.pc + 8, trapcode := n.imm } c.g.sreg)

/-- R87, R92, R94. Where these raise a precise fault instead: a target that is not a multiple of 8, `trap` without a handler,
and `brk`. -/
def Obligations.ControlFaults : Prop :=
  ∀ (f : FormV) (n : FormL) (s : State) (c : Ctx),
    let raises (i : Instr) (g : Guard) (x : FaultInfo) := Runs i s c →
      if c.wide g then exec i s = .next (c.s.takeFault c.r c.st.pc x) else c.Passes (exec i s)
    let misaligned (t : Dword) : FaultInfo := { code := faultAlign, va := t }
    (c.selWide f.a &&& 7 ≠ 0 → raises (.brx f) f.g (misaligned (c.selWide f.a)) ∧
      raises (.callx f) f.g (misaligned (c.selWide f.a)) ∧ raises (.ret f) f.g (misaligned (c.selWide f.a))) ∧
    (c.st.trapret &&& 7 ≠ 0 → raises (.tret f) f.g (misaligned c.st.trapret)) ∧
    (c.g.trapvec ≠ 0 → c.g.trapvec &&& 7 ≠ 0 → raises (.trap n) n.g (misaligned c.g.trapvec)) ∧
    (c.g.trapvec = 0 → raises (.trap n) n.g { code := faultWatch, detail := watchDetail 2 n.imm }) ∧
    raises (.brk f) f.g { code := faultWatch, detail := watchDetail 1 0 }

/-- R88, R90, R207, R215. A divergent branch: a strand whose lanes agree goes where they go; a continuation-mode strand keeps its
larger side (the fall-through side on a tie) and ejects the other, which counts in jc[k]. The ejected side takes a free entry of
the strand table (the lowest one: the model's choice, LOG 163), with none free the tail of the Docent queue, and with that queue
full or records in the save area the tail of the save area. A stack-mode strand takes the branch first; a push onto 4,096
entries raises WATCH. -/
def Obligations.DivergentBranch : Prop :=
  ∀ (b : FormB) (s : State) (c : Ctx), Runs (.brd b) s c →
    let m := c.lanesOf
    let t := maskOf fun l => m.getLsbD l && c.g.guardLane b.g l
    let e := m &&& ~~~t
    let target := c.st.pc + 8 * b.disp.signExtend 64
    let next := c.st.pc + 8
    let k : BitVec 3 := b.k.setWidth 3
    (e = 0 → c.Leaves (exec (.brd b) s) (c.st.goto target) c.g.vreg c.g.sreg c.g.predBit) ∧
    (e ≠ 0 → t = 0 → c.Passes (exec (.brd b) s)) ∧
    (e ≠ 0 → t ≠ 0 → c.g.stackMode = true → c.g.stack.length < 4096 →
      exec (.brd b) s = .next (c.s.setGroup c.key { c.g with
        stack := { k := k, second := false, other := e, otherPc := next, all := c.st.mask } :: c.g.stack,
        strands := c.g.strands.put c.r.entry { c.st.goto target with mask := t } })) ∧
    (e ≠ 0 → t ≠ 0 → c.g.stackMode = true → 4096 ≤ c.g.stack.length →
      exec (.brd b) s = .next (c.s.takeFault c.r c.st.pc { code := faultWatch, detail := watchDetail 5 0 })) ∧
    (e ≠ 0 → t ≠ 0 → c.g.stackMode = false →
      let taken : Bool := laneCount e < laneCount t
      let stay : Strand := { c.st.goto (if taken then target else next) with mask := if taken then t else e }
      let go : Record := { pc := if taken then next else target, mask := if taken then e else t, cont := some k, slot := c.r.slot, trapret := c.st.trapret, trapcode := c.st.trapcode }
      let g : Group := { c.g with jc := Map.set 0 c.g.jc k.toNat (Map.get 0 c.g.jc k.toNat + 1), strands := c.g.strands.put c.r.entry stay }
      (∀ n, c.g.saveList = [] → g.freeEntry = some n →
        exec (.brd b) s = .next (c.s.setGroup c.key { g with strands := g.strands.put n (go.strand c.s.now) })) ∧
      (c.g.saveList = [] → g.freeEntry = none → (c.s.core c.r.core).docent.length < 4096 →
        exec (.brd b) s = .next ((c.s.onCore c.r.core fun x => { x with docent := x.docent ++ [go] }).setGroup c.key g)) ∧
      (c.g.saveList ≠ [] ∨ (g.freeEntry = none ∧ 4096 ≤ (c.s.core c.r.core).docent.length) →
        exec (.brd b) s = .next (c.s.setGroup c.key { g with saveList := g.saveList ++ [go] })))

/-- R89, R90. `join`: a continuation that reports to k retires into pending[k]; a waiter goes on with the pending lanes once
jc[k] is 0, and waits until then; in stack mode the entry on top decides.
R89, R93, R156. A waiter at `join` k goes on when jc[k] is 0 and no gate call holds its group, and a napping strand becomes ready when its time has come. -/
def Obligations.Join : Prop :=
  (∀ (b : FormB) (s : State) (c : Ctx), Runs (.join b) s c →
    let k : BitVec 3 := b.k.setWidth 3
    let jc := Map.get 0 c.g.jc k.toNat
    let pending := Map.get 0 c.g.pending k.toNat
    (c.g.stackMode = false → c.st.cont = some k →
      let g : Group := { c.g with jc := Map.set 0 c.g.jc k.toNat (jc - 1), pending := Map.set 0 c.g.pending k.toNat (pending ||| c.st.mask) }
      exec (.join b) s = .next (c.s.setGroup c.key (c.s.dropStrand c.key g c.r.entry))) ∧
    (c.g.stackMode = false → c.st.cont ≠ some k → jc = 0 →
      exec (.join b) s = .next (c.s.setGroup c.key { c.g with
        pending := Map.set 0 c.g.pending k.toNat 0,
        strands := c.g.strands.put c.r.entry { c.onward with mask := c.st.mask ||| (pending &&& c.g.live) } })) ∧
    (c.g.stackMode = false → c.st.cont ≠ some k → jc ≠ 0 →
      exec (.join b) s = .next (c.s.setGroup c.key { c.g with strands := c.g.strands.put c.r.entry { c.st with wait := .join k } })) ∧
    (c.g.stackMode = true → (∀ x, c.g.stack.head? = some x → x.k ≠ k) → c.Passes (exec (.join b) s)) ∧
    (∀ x rest, c.g.stackMode = true → c.g.stack = x :: rest → x.k = k → x.second = true →
      exec (.join b) s = .next (c.s.setGroup c.key { c.g with
        stack := rest, strands := c.g.strands.put c.r.entry { c.onward with mask := x.all &&& c.g.live } })) ∧
    (∀ x rest, c.g.stackMode = true → c.g.stack = x :: rest → x.k = k → x.second = false →
      ∃ y : StackEntry, y.k = x.k ∧ y.second = true ∧ y.all = x.all ∧
        exec (.join b) s = .next (c.s.setGroup c.key { c.g with
          stack := y :: rest, strands := c.g.strands.put c.r.entry { c.st.goto x.otherPc with mask := x.other } }))) ∧
  (∀ (r : StrandRef) (s : State) (g : Group) (st : Strand) (k : BitVec 3) (t : Nat), s.strandAt r = some (g, st) →
    (st.wait = .join k → Map.get 0 g.jc k.toNat = 0 → g.mayRun = true → g.calling = false →
      exec (.joinWake r) s = .next (s.setGroup (gkey r.core r.slot) { g with
        pending := Map.set 0 g.pending k.toNat 0,
        strands := g.strands.put r.entry { st.goto (st.pc + 8) with mask := st.mask ||| (Map.get 0 g.pending k.toNat &&& g.live) } })) ∧
    (st.wait = .nap t → t ≤ s.now →
      exec (.napExpiry r) s = .next (s.setGroup (gkey r.core r.slot) { g with strands := g.strands.put r.entry { st with wait := .ready } })))

/-- R91. `exit` marks the active lanes exited; a strand with lanes left goes on. In continuation mode one without retires, leaving
the join counter it reports to one lower. In stack mode it goes on as at the join of the entry on top: with the other side in
phase 1, behind the join with the lanes that are left in phase 2, and it retires when no entry has a lane left. The block's
barriers are then looked at again (R128). -/
def Obligations.ExitLanes : Prop :=
  ∀ (f : FormV) (s : State) (c : Ctx), Runs (.exit_ f) s c →
    let live := c.g.live &&& ~~~(maskOf fun l => decide (l ∈ c.active f.g))
    let m := c.st.mask &&& live
    (m ≠ 0 → exec (.exit_ f) s = .next ((c.s.setGroup c.key { c.g with
      live := live, strands := c.g.strands.put c.r.entry { c.onward with mask := m } }).barriers c.g.block)) ∧
    (m = 0 → c.g.stackMode = false →
      let jc := match c.st.cont with
        | none => c.g.jc
        | some k => Map.set 0 c.g.jc k.toNat (Map.get 0 c.g.jc k.toNat - 1)
      exec (.exit_ f) s = .next ((c.s.setGroup c.key (c.s.dropStrand c.key { c.g with live := live, jc := jc } c.r.entry)).barriers c.g.block)) ∧
    (m = 0 → c.g.stackMode = true → (∀ x ∈ c.g.stack, x.other &&& live = 0 ∧ x.all &&& live = 0) →
      exec (.exit_ f) s = .next ((c.s.setGroup c.key { c.g with live := live, stack := [], strands := c.g.strands.del c.r.entry }).barriers c.g.block)) ∧
    (∀ x rest, m = 0 → c.g.stackMode = true → c.g.stack = x :: rest → x.second = false → x.other &&& live ≠ 0 →
      exec (.exit_ f) s = .next ((c.s.setGroup c.key { c.g with
        live := live, stack := { x with second := true } :: rest,
        strands := c.g.strands.put c.r.entry { c.st.goto x.otherPc with mask := x.other &&& live } }).barriers c.g.block)) ∧
    (∀ x rest, m = 0 → c.g.stackMode = true → c.g.stack = x :: rest → x.second = true → x.all &&& live ≠ 0 →
      exec (.exit_ f) s = .next ((c.s.setGroup c.key { c.g with
        live := live, stack := rest,
        strands := c.g.strands.put c.r.entry { c.st.goto (x.otherPc + 8) with mask := x.all &&& live } }).barriers c.g.block))

/-- R63, R34, R157, R50. What comes before any core instruction's own effect: a word that is not accepted, or that names a
register the group does not have, raises ILLEGAL; inside a gate call a refused word raises GATEFRAME (that a uniform-only callee
may still return is the model's reading, LOG 13); and a word that names a register with a write outstanding waits at issue, with
nothing changed (that this holds for destinations too, and whatever lanes are active, is the model's reading, LOG 25). -/
def Obligations.CoreIssue : Prop :=
  ∀ (i : Instr) (s : State) (r : StrandRef) (g : Group) (st : Strand),
    i.kind = .core → s.agent = .strand r → s.strandAt r = some (g, st) →
    let bad := i.accepted = false ∨ ∃ v ∈ i.vregs, g.nregs ≤ v
    (bad → exec i s = .next (s.takeFault r st.pc { code := faultIllegal, detail := Instr.wordOf i })) ∧
    (¬bad → g.refuses i = true → exec i s = .next (s.takeFault r st.pc { code := faultGateframe })) ∧
    (¬bad → g.refuses i = false → g.pendingOn i = true → exec i s = .next s)

/-- R52, R114, R342, R345. Taking a fault: the record names the code, the word, the address and the domain; registers, memory and
every strand stay as they are, and the group is suspended. Nothing is terminated before the record is written (R114). -/
def Obligations.FaultEntry : Prop :=
  ∀ (s : State) (r : StrandRef) (pc : Dword) (f : FaultInfo) (g : Group), s.groups.look (gkey r.core r.slot) = some g →
    let t := s.takeFault r pc f
    let suspends : Bool := g.depth ≠ 0 ∨ f.code = faultPage ∨ (f.code = faultWatch ∧ f.detail = watchDetail 1 0)
    (∃ x, t.faults.undelivered = s.faults.undelivered ++ [x] ∧ x.id = s.nextId ∧ x.code = f.code ∧ x.where_ = pc ∧ x.va = f.va ∧
      x.detail = f.detail ∧ x.lane = f.lane ∧ x.domain = g.domain ∧ x.core = r.core ∧ x.slotNo = r.slot ∧ x.launch = some g.launch ∧
      x.flags = flagByte suspends f.precise (g.depth ≠ 0) (!suspends)) ∧
    t.mem = s.mem ∧ t.blocks = s.blocks ∧ t.keep = s.keep ∧ t.annex = s.annex ∧ t.domains = s.domains ∧
    t.belfry = s.belfry ∧ t.cores = s.cores ∧ t.jobs = s.jobs ∧
    t.groups = s.groups.put (gkey r.core r.slot) { g with suspends := g.suspends ++
      [{ code := f.code, entry := r.entry, lanes := f.lanes, record := s.nextId, brk := f.code == faultWatch && f.detail == watchDetail 1 0 }] }

/-- R117, R119, R228, R234. Global loads: the strand goes on and the load is in flight. The lanes of a line that a copy serves read it
at once, and the read clock takes the copy's time; a line that none serves is asked for at its home, in one request for all its
lanes (the model's choice, LOG 16), with the group's read clock and lease; a line of an N page is asked of its owner node. The load
is outstanding until every line that was asked for has come. The sixteenth hit in a row of a strand on one line is asked for too. -/
def Obligations.GlobalLoads : Prop :=
  ∀ (f : FormM) (s : State) (c : Ctx) (i : Instr) (size : Nat) (good : List LaneRef),
    (i = .ld f ∧ size = 2 ^ f.size.toNat) ∨ (i = .ldx4 f ∧ size = 16) →
    Accesses i s c .gld f.order f.scope → c.Reaches f size wantLoad (c.active f.g) good →
    let ordinary := good.filter fun x => !x.n
    let near := good.filter fun x => x.n
    let loadsOf (xs : List LaneRef) (line : Nat) : List LaneLoad :=
      (xs.filter fun x => x.pa / 64 == line).map fun x => { lane := x.lane, reg := f.d.toNat, off := x.pa % 64, size := size, va := x.va }
    let hit (line : Nat) := c.s.hits c.key (c.fenced f.order f.scope) c.r.core line f.hint.toNat f.scope (loadMask (loadsOf ordinary line))
    let alone : Prop := (linesOf ordinary).length = 1 ∧ near = []
    ∃ t g, exec i s = .next t ∧ c.GoesOn t ∧ c.OnlyIssues s t ∧ t.groups.look c.key = some g ∧
      (∀ r l, l < 32 → (∀ x ∈ good, x.lane ≠ l) ∨ r < f.d.toNat ∨ f.d.toNat + laneRegs size ≤ r → g.vreg r l = c.g.vreg r l) ∧
      (∀ k, g.sreg k = c.g.sreg k) ∧ (∀ k l, l < 32 → g.predBit k l = c.g.predBit k l) ∧
      (c.fenced f.order f.scope).rclk.toNat ≤ g.rclk.toNat ∧
      (∀ line v, line ∈ linesOf ordinary → hit line = some v → c.st.spin < 15 ∨ ¬alone →
        (∀ x ∈ ordinary, x.pa / 64 = line → ∀ j, j < laneRegs size →
          g.vreg (f.d.toNat + j) x.lane = BitVec.ofNat 32 (lineValue v.bytes (x.pa % 64) size / 2 ^ (32 * j))) ∧
        v.wts.toNat ≤ g.rclk.toNat ∧ (alone → t.mem.msgs = s.mem.msgs)) ∧
      (∀ line ∈ linesOf ordinary, hit line = none ∨ (alone ∧ 15 ≤ c.st.spin) →
        (∀ x ∈ ordinary, x.pa / 64 = line → ∀ r, g.vreg r x.lane = c.g.vreg r x.lane) ∧
        t.HasMsg fun m => m.line = line ∧ m.group = c.key ∧ m.stage = .toHome ∧ m.clk = (c.fenced f.order f.scope).rclk ∧ m.lease = c.g.lease ∧
          m.kind = .renew (loadsOf ordinary line) (f.hint.toNat != 2) true ∧
          ∃ o ∈ g.ops, o.id = m.op ∧ o.path = .gld ∧ o.regs = (List.range (laneRegs size)).map (f.d.toNat + ·)) ∧
      (∀ line ∈ linesOf near,
        (∀ x ∈ near, x.pa / 64 = line → ∀ r, g.vreg r x.lane = c.g.vreg r x.lane) ∧
        ∃ id q op, t.mem.owner.look id = some q ∧ q.from_ = .group c.key op ∧ q.die = paDie (64 * line) ∧ q.node = paNode (64 * line) ∧
          q.queued = false ∧ q.work = .load (loadsOf near line) line ∧
          ∃ o ∈ g.ops, o.id = op ∧ o.path = .gld ∧ o.regs = (List.range (laneRegs size)).map (f.d.toNat + ·)) ∧
      (c.st.spin < 15 ∨ ¬alone →
        let asked := ((linesOf ordinary).filter fun line => (hit line).isNone).length + (linesOf near).length
        0 < asked → ∃ o ∈ g.ops, o.path = .gld ∧ o.left = asked ∧ o.regs = (List.range (laneRegs size)).map (f.d.toNat + ·))

/-- R117, R119, R230, R231. Global stores: the strand goes on, registers and memory stay. The lanes' bytes for a line are on their
way to its home in one request (the model's choice, LOG 16) with the group's write clock; a `.blk` store also stands as pending
bytes in the core's L1; a lane on an N page sends its bytes to the owner node of its word. The store is outstanding until every
request is acknowledged.
R115, R119. The bytes of one store to a line: lanes that overlap leave the highest lane's bytes. -/
def Obligations.GlobalStores : Prop :=
  (∀ (f : FormM) (s : State) (c : Ctx) (i : Instr) (size : Nat) (good : List LaneRef),
    (i = .st f ∧ size = 2 ^ f.size.toNat) ∨ (i = .stx4 f ∧ size = 16) →
    Accesses i s c .gst f.order f.scope → c.Reaches f size wantStore (c.part f.g) good →
    let ordinary := good.filter fun x => !x.n
    let near := good.filter fun x => x.n
    let asked := (linesOf ordinary).length + near.length
    ∃ t g, exec i s = .next t ∧ c.GoesOn t ∧ c.OnlyIssues s t ∧ t.groups.look c.key = some g ∧ g.SameRegs c.g ∧
      (∀ line ∈ linesOf ordinary,
        let w := storeLine ((ordinary.filter fun x => x.pa / 64 == line).map fun x => (x, c.storeValue f.d.toNat size x.lane)) size
        ∃ id m, t.mem.msgs.look id = some m ∧ m.line = line ∧ m.group = c.key ∧ m.stage = .toHome ∧
          m.clk = (c.fenced f.order f.scope).wclk ∧ m.kind = .store w.1 w.2 (f.scope == .blk) ∧
          (f.scope = .blk → ∃ v, t.l1View c.r.core line = some v ∧ (id, w.1, w.2) ∈ v.pend) ∧
          ∃ o ∈ g.ops, o.id = m.op ∧ o.path = .gst ∧ o.left = asked ∧ o.store = true) ∧
      (∀ x ∈ near, ∃ id q op, t.mem.owner.look id = some q ∧ q.from_ = .group c.key op ∧ q.die = paDie x.pa ∧ q.node = paNode x.pa ∧
        q.queued = false ∧ q.work = .store x.pa (leBytes size (c.storeValue f.d.toNat size x.lane)) ∧
        ∃ o ∈ g.ops, o.id = op ∧ o.path = .gst ∧ o.left = asked ∧ o.store = true)) ∧
  (∀ (xs : List (LaneRef × Nat)) (x : LaneRef × Nat) (size j : Nat), x.1.pa % 64 + size ≤ 64 → j < 64 →
    let w := storeLine (xs ++ [x]) size
    let covered := x.1.pa % 64 ≤ j ∧ j < x.1.pa % 64 + size
    (w.1.getLsbD j = true ↔ covered ∨ (storeLine xs size).1.getLsbD j = true) ∧
    (covered → lineByte w.2 j = BitVec.ofNat 8 (x.2 / 2 ^ (8 * (j - x.1.pa % 64)))) ∧
    (¬covered → lineByte w.2 j = lineByte (storeLine xs size).2 j))

/-- R113, R115, R119, R127, R225. Scratchpad accesses are counted on their path when they issue, and the strand goes on; nothing
else happens until they perform at the array.
R115, R225. The oldest access of a group performs there: loads give the bytes, of overlapping stores the last remains, and every
other byte of the scratchpad and every other register stays. -/
def Obligations.ScratchpadAccesses : Prop :=
  (∀ (f : FormM) (s : State) (c : Ctx) (b : Block) (i : Instr) (size : Nat),
    let load := (i = .lds f ∧ size = 2 ^ f.size.toNat) ∨ (i = .ldsx4 f ∧ size = 16)
    let store := (i = .sts f ∧ size = 2 ^ f.size.toNat) ∨ (i = .stsx4 f ∧ size = 16)
    let lanes := if load then c.active f.g else c.part f.g
    let off (l : Nat) := (c.ea f l).toNat
    load ∨ store → Runs i s c → c.g.hold = none → c.g.full .spd = false →
    c.g.fenceReady (Order.relBefore f.order) (Order.acqBefore f.order) .blk = true →
    s.blocks.look c.g.block = some b → (∀ l ∈ lanes, b.check (c.ea f l) size size l = none) →
    ∃ t g, exec i s = .next t ∧ c.GoesOn t ∧ t.blocks = s.blocks ∧ t.mem = s.mem ∧ t.groups.look c.key = some g ∧ g.SameRegs c.g ∧
      (lanes = [] → g.spads = c.g.spads) ∧
      (lanes ≠ [] → ∃ a o, g.spads = c.g.spads ++ [a] ∧ a.size = size ∧ o ∈ g.ops ∧ o.id = a.op ∧ o.path = .spd ∧ o.left = 1 ∧
        (load → a.loads = lanes.map (fun l => (l, off l)) ∧ a.stores = [] ∧ a.reg = f.d.toNat ∧ o.regs = (List.range (laneRegs size)).map (f.d.toNat + ·)) ∧
        (store → a.loads = [] ∧ a.stores = lanes.map fun l => (off l, leBytes size (c.storeValue f.d.toNat size l))))) ∧
  (∀ (s : State) (core slot : Nat) (g : Group) (a : SpadAccess) (rest : List SpadAccess) (b : Block),
    s.groups.look (gkey core slot) = some g → g.spads = a :: rest → g.aborting = [] → s.blocks.look g.block = some b →
    (a.loads.map (·.1)).Nodup → (∀ x ∈ a.loads, x.1 < 32) →
    ∃ t g' b', s.turn (.spad core slot) = .next t ∧ t.groups.look (gkey core slot) = some g' ∧ g'.spads = rest ∧ t.mem = s.mem ∧
      t.blocks.look g.block = some b' ∧ b' = { b with spad := b'.spad, bars := b'.bars } ∧ (∀ k, k ≠ g.block → t.blocks.look k = s.blocks.look k) ∧
      (∀ r l, l < 32 → g'.vreg r l = match a.loads.find? (fun x => x.1 == l) with
        | some x => if a.reg ≤ r ∧ r < a.reg + laneRegs a.size then BitVec.ofNat 32 (leValue (b.bytes x.2 a.size) / 2 ^ (32 * (r - a.reg))) else g.vreg r l
        | none => g.vreg r l) ∧
      (∀ k, g'.sreg k = g.sreg k) ∧ (∀ k l, l < 32 → g'.predBit k l = g.predBit k l) ∧
      ∀ n, b'.read n = match a.stores.reverse.find? (fun x => decide (x.1 ≤ n ∧ n < x.1 + x.2.length)) with
        | some x => x.2.getD (n - x.1) 0
        | none => b.read n)

/-- R122, R123. Atomics and reductions: each lane sends one request to its word's home; an atomic's old word comes back into
d, a reduction returns nothing; the strand goes on and registers stay until then. -/
def Obligations.AtomicRequests : Prop :=
  ∀ (f : FormM) (s : State) (c : Ctx) (good : List LaneRef),
    let size := 2 ^ f.size.toNat
    let n := laneRegs size
    let d := f.d.toNat
    let val (r l : Nat) : Dword := c.lane (n == 2) r l
    let asks (i : Instr) (op : AtomicOp) (returns : Bool) :=
      Accesses i s c (if returns then .gld else .gst) f.order f.scope → c.Reaches f size wantAtomic (c.part f.g) good →
      ∃ t g, exec i s = .next t ∧ c.GoesOn t ∧ c.OnlyIssues s t ∧ t.groups.look c.key = some g ∧ g.SameRegs c.g ∧
        (good ≠ [] → ∃ o ∈ g.ops, o.path = (if returns then .gld else .gst) ∧ o.left = good.length ∧
          o.regs = if returns then (List.range n).map (d + ·) else []) ∧
        ∀ x ∈ good, t.HasMsg fun m => m.line = x.pa / 64 ∧ m.group = c.key ∧ m.stage = .toHome ∧
          m.clk = (c.fenced f.order f.scope).wclk ∧
          m.kind = .atomic x.lane (x.pa % 64) size op (if op = .cas then val (d + n) x.lane else val d x.lane)
            (if op = .cas then val d x.lane else 0) (if returns then some d else none) f.order
    asks (.atomAdd f) .add true ∧ asks (.atomMin f) .min true ∧ asks (.atomMax f) .max true ∧ asks (.atomAnd f) .and true ∧
    asks (.atomOr f) .or true ∧ asks (.atomXor f) .xor true ∧ asks (.atomXchg f) .xchg true ∧ asks (.atomCas f) .cas true ∧
    asks (.atomFadd f) .fadd true ∧ asks (.atomFmin f) .fmin true ∧ asks (.atomFmax f) .fmax true ∧
    asks (.atomBfadd2 f) .bfadd2 true ∧
    asks (.redAdd f) .add false ∧ asks (.redMin f) .min false ∧ asks (.redMax f) .max false ∧ asks (.redAnd f) .and false ∧
    asks (.redOr f) .or false ∧ asks (.redXor f) .xor false ∧ asks (.redFadd f) .fadd false ∧ asks (.redFmin f) .fmin false ∧
    asks (.redFmax f) .fmax false ∧ asks (.redBfadd2 f) .bfadd2 false

/-- R228, R230, R232, R130. At a home, one indivisible step: a renewal extends the lease and answers with the line; a store
takes a time above every lease and write before it and merges its bytes; an atomic and an arrival take such a time too, and
answer with the old word. The line stands in its slice; a slice that is full of other lines puts it out again at once, with its
data in memory and its time in mts (R224; that it is this line which goes, and at once, is the model's choice, LOG 120). -/
def Obligations.HomeRules : Prop :=
  ∀ (id : Nat) (s : State) (m : Msg), s.mem.msgs.look id = some m → m.stage = .toHome → s.turnAtHome id m = true →
    s.needsOwner m = false → s.atPeer m.line = false → s.lineBad m.line = false →
    let h := s.homeView m.line
    let at_ := tmax m.clk (h.rts + 1)
    let room : Bool := (s.mem.l2.look m.line).isSome || !s.sliceFull m.line
    let does (o : Res) (h' : HomeView) (prev : Time) (answer : LineData) := ∃ t, o = .next t ∧
      (room = true → t.homeView m.line = h' ∧ (∀ x, x ≠ m.line → t.homeView x = s.homeView x) ∧ t.mem.bytes = s.mem.bytes) ∧
      (t.homeView m.line).data = h'.data ∧ h'.rts.toNat ≤ (t.homeView m.line).rts.toNat ∧ t.mem.l1 = s.mem.l1 ∧
      t.groups = s.groups ∧ t.blocks = s.blocks ∧
      t.mem.msgs.look id = some { m with stage := .reply (s.stamp h'.wts) (s.stamp prev) answer false } ∧
      (∀ x, x ≠ id → t.mem.msgs.look x = s.mem.msgs.look x)
    (m.kind.isRenew = true →
      does (exec (.homeRenew id) s) { h with rts := tmax h.rts (m.clk + m.lease) } h.wts h.data) ∧
    (∀ mask data blk, m.kind = .store mask data blk →
      does (exec (.homeStore id) s) { data := mergeLine h.data data mask, dirty := true, wts := at_, rts := at_ } h.wts data) ∧
    (∀ lane off size op v cmp dst order, m.kind = .atomic lane off size op v cmp dst order →
      let old := BitVec.ofNat 64 (lineValue h.data off size)
      let new := AtomicOp.apply op size old v cmp
      does (exec (.homeAtomic id) s)
        { data := mergeLine h.data (lineWith off size new.toNat) (byteMask off size), dirty := true, wts := at_, rts := at_ }
        h.wts (lineWith 0 8 new.toNat ||| lineWith 32 8 old.toNat)) ∧
    (∀ off inc dst, m.kind = .arrive off inc dst →
      let r := arriveRecord (lineValue h.data off 32) inc
      does (exec (.homeAtomic id) s)
        { data := mergeLine h.data (lineWith off 32 r.1) (byteMask off 32), dirty := true, wts := at_, rts := at_ }
        h.wts (lineWith 0 32 r.1 ||| lineWith 32 8 r.2))

/-- R122. The new word of each operator on a word of 4 or 8 bytes; min and max are signed, and `bfadd2` adds BF16 elements.
R130. An arrival adds to the count; when the count reaches the target, the count goes down by the target and the
generation steps. Target and reserved words stay. -/
def Obligations.AtomicOperators : Prop :=
  (∀ (size : Nat) (old v cmp : Dword), size = 4 ∨ size = 8 →
    let w := 8 * size
    let new (op : AtomicOp) := AtomicOp.apply op size old v cmp
    let lo (x : Dword) := x.toNat % 2 ^ w
    let sgn (x : Dword) : Int := valN true w x
    (new .add).toNat = (old.toNat + v.toNat) % 2 ^ w ∧ (new .xchg).toNat = lo v ∧
    (new .and).toNat = lo old &&& lo v ∧ (new .or).toNat = lo old ||| lo v ∧ (new .xor).toNat = lo old ^^^ lo v ∧
    (new .min).toNat = (if sgn old < sgn v then lo old else lo v) ∧ (new .max).toNat = (if sgn old < sgn v then lo v else lo old) ∧
    (new .cas).toNat = (if lo old = lo cmp then lo v else lo old) ∧
    (new .fadd).toNat = fp32.add .rne (old.toNat % 2 ^ 32) (v.toNat % 2 ^ 32) ∧
    (new .fmin).toNat = fp32.min (old.toNat % 2 ^ 32) (v.toNat % 2 ^ 32) ∧ (new .fmax).toNat = fp32.max (old.toNat % 2 ^ 32) (v.toNat % 2 ^ 32) ∧
    (new .bfadd2).toNat = bfloat16.add .rne (old.toNat % 2 ^ 16) (v.toNat % 2 ^ 16) +
      2 ^ 16 * bfloat16.add .rne (old.toNat / 2 ^ 16 % 2 ^ 16) (v.toNat / 2 ^ 16 % 2 ^ 16)) ∧
  (∀ (count target x gen y : Nat) (inc : Dword), count < 2 ^ 64 → target < 2 ^ 64 → x < 2 ^ 64 → gen < 2 ^ 32 → y < 2 ^ 32 →
    let rec_ (c g : Nat) := c + 2 ^ 64 * target + 2 ^ 128 * x + 2 ^ 192 * g + 2 ^ 224 * y
    let sum := (count + inc.toNat) % 2 ^ 64
    arriveRecord (rec_ count gen) inc =
      (if target ≤ sum then rec_ (sum - target) ((gen + 1) % 2 ^ 32) else rec_ sum gen, gen))

/-- R228, R230, R232. What an answer does at the requester: a load's registers take the bytes and the read clock the time of what
it read; an acknowledgement raises the write clock; an atomic's old word comes back and both clocks move as its order says. The
request is gone, and memory itself is as it was. An answer is delivered after those to the core's stores and atomics that performed
earlier at the line (R115).
R228. A copy of the line takes the reply's bytes and lease, unless it has advanced beyond the reply; the load reads the copy.
R230, R232. An acknowledgement writes a copy whose write time is the one before the store, and takes the store's time; any other
copy keeps only its pending bytes, without those of the store that is acknowledged. -/
def Obligations.Replies : Prop :=
  ∀ (id : Nat) (s : State) (m : Msg) (g : Group) (wts prev : Stamp) (d : LineData),
    s.mem.msgs.look id = some m → m.stage = .reply wts prev d false → s.groups.look m.group = some g → g.aborting = [] → m.group ≠ deviceKey →
    s.replyTurn id m (s.cur wts) = true →
    let t := s.cur wts
    let core := keyCore m.group
    let copy := s.l1View core m.line
    let ends (o : Res) (p : State → Group → Prop) := ∃ u g', o = .next u ∧ u.groups.look m.group = some g' ∧
      u.mem.msgs.look id = none ∧ u.mem.bytes = s.mem.bytes ∧ u.mem.l2 = s.mem.l2 ∧ (∀ k, k ≠ id → u.mem.msgs.look k = s.mem.msgs.look k) ∧ p u g'
    let filled : CopyView := match copy with
      | none => { data := d, valid := BitVec.allOnes 64, wts := t, rts := m.clk + m.lease, pend := [] }
      | some c => if c.valid ≠ 0 ∧ t.toNat < c.wts.toNat then c
        else { data := d, valid := BitVec.allOnes 64, wts := t, rts := m.clk + m.lease, pend := c.pend }
    let acked (mask : BitVec 64) (data : LineData) : Option CopyView := match copy with
      | none => none
      | some c =>
        let pend := c.pend.filter fun p => p.1 != id
        if c.valid ≠ 0 ∧ c.wts = s.cur prev then some { data := mergeLine c.data data mask, valid := c.valid ||| mask, wts := t, rts := t, pend := pend }
        else if pend = [] then none else some { c with valid := 0, pend := pend }
    (∀ loads, m.kind = .renew loads true true → (loads.map (·.lane)).Nodup → (∀ x ∈ loads, x.lane < 32) →
      ends (exec (.fill_ id) s) fun u g' =>
        (∀ x ∈ loads, ∀ j, j < laneRegs x.size →
          g'.vreg (x.reg + j) x.lane = BitVec.ofNat 32 (lineValue (s.seenBy id m filled).bytes x.off x.size / 2 ^ (32 * j))) ∧
        (copy = none → filled.data = d) ∧
        (∀ r l, l < 32 → (∀ x ∈ loads, x.lane ≠ l ∨ r < x.reg ∨ x.reg + laneRegs x.size ≤ r) → g'.vreg r l = g.vreg r l) ∧
        filled.wts.toNat ≤ g'.rclk.toNat ∧ g.rclk.toNat ≤ g'.rclk.toNat ∧
        (copy.isSome = true ∨ s.l1Full core = false → u.l1View core m.line = some filled)) ∧
    (∀ mask data blk, m.kind = .store mask data blk →
      ends (exec (.storeAck id) s) fun u g' => t.toNat ≤ g'.wclk.toNat ∧ g'.SameRegs g ∧ u.l1View core m.line = acked mask d) ∧
    (∀ lane off size op v cmp dst order, m.kind = .atomic lane off size op v cmp dst order → lane < 32 →
      ends (exec (.atomicComplete id) s) fun u g' =>
        t.toNat ≤ g'.wclk.toNat ∧ (order ≠ .rlx → t.toNat ≤ g'.rclk.toNat) ∧
        (order = .rlx → dst.isSome = true → (s.cur prev).toNat ≤ g'.rclk.toNat) ∧
        (∀ r, dst = some r → ∀ j, j < laneRegs size → g'.vreg (r + j) lane = BitVec.ofNat 32 (lineValue d 32 size / 2 ^ (32 * j))) ∧
        (dst = none → g'.SameRegs g) ∧
        u.l1View core m.line = acked (byteMask off size) (lineWith off size (lineValue d 0 size))) ∧
    (∀ off inc dst, m.kind = .arrive off inc dst →
      ends (exec (.atomicComplete id) s) fun u g' => t.toNat ≤ g'.wclk.toNat ∧ t.toNat ≤ g'.rclk.toNat ∧
        (dst ≠ 0 → (∃ o ∈ g.ops, o.id = m.op ∧ o.sreg = some dst) → g'.sreg dst = BitVec.ofNat 64 (lineValue d 32 4)) ∧
        u.l1View core m.line = acked (byteMask off 32) (lineWith off 32 (lineValue d 0 32)))

/-- R116, R121, R126, R127, R132, R133. Fences, waits, clock reads, renewals and prefetches complete: the strand goes on with its
registers as they were, but for the clock that `rdclk` reads, and a fence merges the clocks as its order says. A `fence` completes
once the accesses that it waits for have, a `wait` once its path's count is low enough, a `renew` on good addresses while its path
has room, `rdclk` and `prf` always; under a false guard each completes without effect. A line of reuse class 2 is not brought into the L1
(for `prf` at scope 0 the model's reading, LOG 148). -/
def Obligations.FencesAndWaits : Prop :=
  ∀ (f : FormM) (v : FormV) (s : State) (c : Ctx), c.g.hold = none →
    let rel := Order.relBefore f.order
    let acq := Order.acqAfter f.order
    let after (t : State) (g : Group) : Prop := t.groups.look c.key = some g ∧ c.GoesOn t ∧ c.OnlyIssues s t ∧
      (∀ r l, l < 32 → g.vreg r l = c.g.vreg r l) ∧ (∀ k l, l < 32 → g.predBit k l = c.g.predBit k l)
    let keepS (g : Group) : Prop := ∀ k, g.sreg k = c.g.sreg k
    (Runs (.fence f) s c → (c.wide f.g = true → c.s.fenceReady c.g rel acq f.scope = true) →
      ∃ t g, exec (.fence f) s = .next t ∧ after t g ∧ keepS g ∧
        (c.wide f.g = false → g.rclk = c.g.rclk ∧ g.wclk = c.g.wclk) ∧
        (c.wide f.g = true → (f.order = .rel → g.rclk = c.g.rclk ∧ c.g.rclk.toNat ≤ g.wclk.toNat) ∧ (acq = true → c.g.wclk.toNat ≤ g.rclk.toNat) ∧
          (rel = true → ∀ k ∈ c.g.marks, f.scope ≠ .blk → (k.wts.getD 0).toNat ≤ g.wclk.toNat))) ∧
    (Runs (.wait v) s c → (c.wide v.g = true → c.g.count (pathOf v.x.toNat) ≤ (c.selWide v.b).toNat) →
      ∃ t g, exec (.wait v) s = .next t ∧ after t g ∧ keepS g ∧ g.ops = c.g.ops) ∧
    (Runs (.rdclk v) s c → ∃ t g, exec (.rdclk v) s = .next t ∧ after t g ∧
      ∀ k, g.sreg k = if c.wide v.g then c.withScalar v.d.toNat ((if v.x = 0 then c.g.rclk else c.g.wclk).setWidth 64) k else c.g.sreg k) ∧
    (∀ good, Runs (.renew f) s c → c.g.full .gld = false → c.Reaches f (2 ^ f.size.toNat) wantLoad (c.active f.g) good →
      ∃ t g, exec (.renew f) s = .next t ∧ after t g ∧ keepS g ∧ ∀ x ∈ good, x.n = false → t.HasMsg fun m =>
        m.line = x.pa / 64 ∧ m.group = c.key ∧ m.clk = c.g.rclk ∧ m.lease = c.g.lease ∧
        m.kind = .renew ((good.filter fun y => y.pa / 64 == x.pa / 64).map fun y => { lane := y.lane, reg := 0, off := y.pa % 64, size := 0, va := y.va }) (f.hint != 2) true) ∧
    (Runs (.prf f) s c → ∃ t g, exec (.prf f) s = .next t ∧ after t g ∧ keepS g ∧ g.ops = c.g.ops ∧
      ∀ x ∈ (c.s.plan c.g.domain (2 ^ f.size.toNat) wantLoad ((c.active f.g).map fun l => (l, c.ea f l))).good, x.n = false → t.HasMsg fun m =>
        m.line = x.pa / 64 ∧ m.group = c.key ∧ m.kind = .renew [] (f.scope == .blk && f.hint != 2) false)

/-- R128. `bar` completes: under a false guard the strand goes on, otherwise it waits at the barrier, with registers and memory as
they were. While a group of the block has a lane that does not wait there, nothing more happens. Once every group of the block has
arrived and its accesses are complete, all groups go on together: each waiting strand at the next word, both clocks merged. A strand
waits for its group when all of its lanes executed the word (with some predicated off it waits without arriving: the model's
reading, LOG 26). -/
def Obligations.BlockBarrier : Prop :=
  ∀ (v : FormV) (s : State) (c : Ctx), Runs (.bar v) s c → c.g.hold = none →
    let k : BitVec 2 := v.x.setWidth 2
    let whole := maskOf (fun l => decide (l ∈ c.active v.g)) == c.lanesOf
    let here : Group := { c.g with strands := c.g.strands.put c.r.entry { c.st with spin := 0, wait := .bar k whole } }
    let arrived (h : Group) : Prop := h.live ≠ 0 ∧ ∀ l, l < 32 → h.live.getLsbD l = true → ∃ e ∈ h.strands, e.2.wait = .bar k true ∧ e.2.mask.getLsbD l = true
    let passed (h : Group) : Group := { h with
      rclk := tmax h.rclk h.wclk, wclk := tmax h.rclk h.wclk,
      strands := h.strands.map fun e => (e.1, if e.2.wait = .bar k true then e.2.goto (e.2.pc + 8) else e.2) }
    (∃ t g, exec (.bar v) s = .next t ∧ t.groups.look c.key = some g ∧ t.mem = s.mem ∧ (∀ r l, l < 32 → g.vreg r l = c.g.vreg r l) ∧
      (∀ k, g.sreg k = c.g.sreg k) ∧ (∀ k l, l < 32 → g.predBit k l = c.g.predBit k l) ∧
      (c.active v.g = [] → c.GoesOn t) ∧ (c.active v.g ≠ [] → g = here ∨ (g = passed here ∧ arrived here))) ∧
    (c.active v.g ≠ [] → (∃ e ∈ s.groupsOf c.g.block, e.1 ≠ c.key ∧ e.2.live ≠ 0 ∧ ¬arrived e.2) →
      ∃ t, exec (.bar v) s = .next t ∧ t.groups.look c.key = some here ∧ ∀ key, key ≠ c.key → t.groups.look key = s.groups.look key) ∧
    (c.active v.g ≠ [] → s.hasSpilled c.g.block = false →
      (∀ e ∈ (s.setGroup c.key here).groupsOf c.g.block, s.finished e.1 e.2 = true ∨ (arrived e.2 ∧ e.2.quietBlk = true)) →
      ∃ t, exec (.bar v) s = .next t ∧ t.groups.look c.key = some (passed here) ∧
        ∀ key h, key ≠ c.key → s.groups.look key = some h → (∀ e ∈ s.groups, e.1 = key → e.2 = h) →
          t.groups.look key = some (if h.block = c.g.block ∧ s.finished key h = false then passed h else h))

/-- R130, R131. `arrive` releases and sends its increment to the record's home; `bwait` asks the home for the generation and
waits; a strand that was told the same generation asks again. Under a false guard both complete without effect (R125). -/
def Obligations.BarrierRecords : Prop :=
  ∀ (v : FormV) (s : State) (c : Ctx) (pa : Nat) (n : Bool), c.g.hold = none →
    let va := c.selWide v.a
    (c.wide v.g = true → va.toNat % 32 = 0 →
      Accesses (.arrive v) s c .gst .rel (scopeOf v.x.toNat) → c.s.trans c.g.domain va wantAtomic = .ok pa n →
      ∃ t g, exec (.arrive v) s = .next t ∧ c.GoesOn t ∧ c.OnlyIssues s t ∧ t.groups.look c.key = some g ∧ g.SameRegs c.g ∧
        t.HasMsg fun m => m.line = pa / 64 ∧ m.group = c.key ∧ m.clk = (c.fenced .rel (scopeOf v.x.toNat)).wclk ∧ m.stage = .toHome ∧
          m.kind = .arrive (pa % 64) (c.selWide v.b) v.d.toNat ∧ ∃ o ∈ g.ops, o.id = m.op ∧ o.path = .gst ∧ o.sreg = some v.d.toNat) ∧
    (c.wide v.g = true → va.toNat % 32 = 0 → Runs (.bwait v) s c → c.s.trans c.g.domain va wantPoll = .ok pa n →
      ∃ t g st id m, exec (.bwait v) s = .next t ∧ c.OnlyIssues s t ∧ t.groups.look c.key = some g ∧ g.SameRegs c.g ∧
        g.strands.look c.r.entry = some st ∧ st.pc = c.st.pc ∧ t.mem.msgs.look id = some m ∧
        st.wait = .bwait id va ((c.selWide v.b).setWidth 32) (scopeOf v.x.toNat) v.d.toNat ∧
        m.line = pa / 64 ∧ m.clk = c.g.rclk ∧ m.kind = .poll (pa % 64) ((c.selWide v.b).setWidth 32) v.d.toNat) ∧
    (c.wide v.g = false → Runs (.arrive v) s c → ∃ t, exec (.arrive v) s = .next t ∧ c.GoesOn t ∧ c.OnlyIssues s t ∧ t.mem = s.mem) ∧
    (c.wide v.g = false → Runs (.bwait v) s c → ∃ t, exec (.bwait v) s = .next t ∧ c.GoesOn t ∧ c.OnlyIssues s t ∧ t.mem = s.mem) ∧
    (∀ r g st id a gen scope dst, s.strandAt r = some (g, st) → st.wait = .bwait id a gen scope dst → s.mem.msgs.look id = none → g.suspends = [] →
      s.trans g.domain a wantPoll = .ok pa n →
      ∃ t id' m, exec (.bwaitReread r) s = .next t ∧ t.mem.msgs.look id' = some m ∧ t.mem.bytes = s.mem.bytes ∧ t.mem.l2 = s.mem.l2 ∧
        m.line = pa / 64 ∧ m.clk = g.rclk ∧ m.kind = .poll (pa % 64) gen dst ∧
        t.groups = s.groups.put (gkey r.core r.slot) { g with strands := g.strands.put r.entry { st with wait := .bwait id' a gen scope dst } })

/-- R134, R136, R138, R219, R238. The sends: with good operands the strand goes on and a copy is in flight that names its source,
its bytes and where they go; a copy into scratchpads carries the group's larger clock. A send of no bytes has no effect, and one
whose sizes or addresses are not multiples of 16 raises COURIER. The model's choices here: only copies count against the 128 of a
core (LOG 44); a tensor's total need not be a multiple of 16 (LOG 117); a send of no bytes still has its offsets and ranks checked
(LOG 150). -/
def Obligations.CourierSends : Prop :=
  ∀ (f : FormV) (s : State) (c : Ctx) (b : Block), c.g.hold = none → c.wide f.g = true → s.blocks.look c.g.block = some b →
    let dst := c.selWide f.d
    let src := (c.selWide f.a).toNat
    let n := (c.selWide f.b).toNat
    let r := (c.selWide f.c).toNat % 16
    let rs := (List.range 16).filter fun r => (c.selWide f.c).getLsbD r
    let aligned := src % 16 = 0 ∧ dst.toNat % 16 = 0
    let still (t : State) := c.GoesOn t ∧ t.copies = s.copies ∧ t.mem = s.mem ∧ t.blocks = s.blocks
    let room := c.g.full .snd = false ∧ c.s.copiesOn c.r.core < 128
    let flies (t : State) (copy : Copy) (total : Nat) := c.GoesOn t ∧ t.mem.bytes = s.mem.bytes ∧ t.mem.l2 = s.mem.l2 ∧ t.blocks = s.blocks ∧
      t.copies.look s.nextId = some copy ∧ copy.group = c.key ∧ copy.block = c.g.block ∧ copy.src = src ∧ copy.bytes = total ∧ copy.landed = [] ∧
      ∃ g, t.groups.look c.key = some g ∧ g.SameRegs c.g
    let peers (t : State) (dests : List (Option (Nat × Block))) := ∃ copy, flies t copy n ∧ t.mem = s.mem ∧ copy.dst = dst.toNat ∧
      copy.dests = dests.map (fun d => d.map (·.1)) ∧ copy.carried = tmax c.g.rclk c.g.wclk ∧ copy.toGlobal = false ∧
      ∃ g, t.groups.look c.key = some g ∧ ∃ o ∈ g.ops, o.id = copy.op ∧ o.path = .snd
    let lines (t : State) (total : Nat) (ps : List Piece) := ∃ copy, flies t copy total ∧ copy.toGlobal = true ∧
      let pas := (c.s.pieces c.g.domain ps).2.1
      (∀ x ∈ pas, x.2.1 = false) → ∀ x ∈ pas, t.HasMsg fun m => m.line = x.1 / 64 ∧ m.group = c.key ∧ m.clk = c.g.wclk ∧ m.stage = .toHome ∧
        ∃ bytes, m.kind = .courier s.nextId bytes
    let pieces : List Piece := (List.range (n / 16)).map fun j => { va := dst + BitVec.ofNat 64 (16 * j), src := (List.range 16).map fun k => src + 16 * j + k }
    (Runs (.sendPeer f) s c → aligned → n % 16 = 0 → n ≠ 0 → room → b.courierOk src n = true →
      ∀ d, c.s.rankPlace b r = some d → b.placeOk d dst.toNat n = true → ∃ t, exec (.sendPeer f) s = .next t ∧ peers t [d]) ∧
    (Runs (.sendm f) s c → aligned → n % 16 = 0 → n ≠ 0 → room → b.courierOk src n = true →
      ∀ dests : List (Option (Nat × Block)), rs.map (c.s.rankPlace b) = dests.map some → dests ≠ [] → (∀ d ∈ dests, b.placeOk d dst.toNat n = true) →
      ∃ t, exec (.sendm f) s = .next t ∧ peers t dests) ∧
    (Runs (.sendGlb f) s c → aligned → n % 16 = 0 → n ≠ 0 → room → b.courierOk src n = true → (c.s.pieces c.g.domain pieces).2.2 = none →
      ∃ t, exec (.sendGlb f) s = .next t ∧ lines t n pieces) ∧
    (∀ l, c.g.layouts.look ((c.selWide f.c).toNat % 8) = some l → (c.g.ops.any fun o => o.slot == some ((c.selWide f.c).toNat % 8)) = false →
      Runs (.sendTens f) s c →
      let ext (j : Nat) : Nat := if j < l.rank then (c.selWide f.b).toNat / 2 ^ (16 * j) % 2 ^ 16 else 1
      let e := l.fmt.bits / 8
      let total := ext 0 * e * ext 1 * ext 2 * ext 3
      let at_ (k : Nat) : Dword := dst + BitVec.ofNat 64 (k % ext 0 * e) + BitVec.ofNat 64 (k / ext 0 % ext 1) * l.stride1 +
        BitVec.ofNat 64 (k / (ext 0 * ext 1) % ext 2) * l.stride2 + BitVec.ofNat 64 (k / (ext 0 * ext 1 * ext 2)) * l.stride3
      let ps : List Piece := (List.range (ext 0 * ext 1 * ext 2 * ext 3)).map fun k =>
        { va := at_ k, src := (List.range e).map fun j => src + l.source (ext 0 * e) (e * k + j) }
      (total ≠ 0 → src % 16 = 0 → b.courierOk src total = true → (l.swizzle = true → ext 0 * e % 128 = 0) → room →
        (∀ k, k < ext 0 * ext 1 * ext 2 * ext 3 → (at_ k).toNat % e = 0) → (c.s.pieces c.g.domain ps).2.2 = none →
        ∃ t, exec (.sendTens f) s = .next t ∧ lines t total ps) ∧
      (total = 0 → ∃ t, exec (.sendTens f) s = .next t ∧ still t)) ∧
    (n = 0 → aligned → (Runs (.sendGlb f) s c → ∃ t, exec (.sendGlb f) s = .next t ∧ still t) ∧
      (Runs (.sendPeer f) s c → c.s.rankPlace b r ≠ none → ∃ t, exec (.sendPeer f) s = .next t ∧ still t) ∧
      (Runs (.sendm f) s c → (∀ x ∈ rs, c.s.rankPlace b x ≠ none) → ∃ t, exec (.sendm f) s = .next t ∧ still t)) ∧
    (¬(aligned ∧ n % 16 = 0) →
      let raises (i : Instr) := Runs i s c → exec i s = .next (c.s.takeFault c.r c.st.pc { code := faultCourier })
      raises (.sendGlb f) ∧ raises (.sendPeer f) ∧ raises (.sendm f))

/-- R135, R136, R219, R238. A chunk of a copy lands once its group's earlier scratchpad stores have performed: its bytes stand in
the destination scratchpad, its arrival bit is set and keeps the copy's carried time, and every other byte stays. A chunk for a
block that has retired is discarded. -/
def Obligations.CourierLanding : Prop :=
  ∀ (id chunk : Nat) (s : State) (c : Copy) (b : Block),
    let per := (c.dst + c.bytes - 1) / 512 + 1 - c.dst / 512
    let k := c.dst / 512 + chunk % per
    s.copies.look id = some c → c.toGlobal = false → c.landed.contains chunk = false → s.spadsBefore c.group c.op = true →
    s.blocks.look c.block = some b →
    (∀ blk d, c.dests[chunk / per]? = some (some blk) → c.tainted = [] → s.blocks.look blk = some d → d.claim = none → c.block ≠ blk →
      ∃ t d', exec (.courierLand id chunk) s = .next t ∧ t.blocks.look blk = some d' ∧ t.mem.bytes = s.mem.bytes ∧
        (∀ a, max c.dst (512 * k) ≤ a → a < min (c.dst + c.bytes) (512 * k + 512) → d'.read a = b.read (c.src + (a - c.dst))) ∧
        (∀ a, a < max c.dst (512 * k) ∨ min (c.dst + c.bytes) (512 * k + 512) ≤ a → d'.read a = d.read a) ∧
        d'.arrival.look k = some true ∧ Map.get 0 d'.kept k = tmax (Map.get 0 d.kept k) c.carried ∧
        (∀ j, j ≠ k → d'.arrival.look j = d.arrival.look j)) ∧
    (c.dests[chunk / per]? = some none →
      ∃ t, exec (.courierLand id chunk) s = .next t ∧ t.mem.bytes = s.mem.bytes ∧
        ∀ x d, s.blocks.look x = some d → ∃ d', t.blocks.look x = some d' ∧ d'.spad = d.spad ∧ d'.arrival = d.arrival ∧ d'.kept = d.kept)

/-- R139. A commission whose command and destination are good becomes a job at its producer; each delivery puts the next
element's bytes at their place in the scratchpad, and the delivery of the last element ends the job, sets the arrival bit of its
chunk and raises the group's read clock to the largest write time read; a job that was set aside resumes once its next element
can be read. That elements lie densely (LOG 46), that the fit is checked with the header's row bytes (LOG 43) and that bits 15:12 of
a selector without bit 8 are ignored (LOG 45) are the model's reading. -/
def Obligations.Commissions : Prop :=
  ∀ (f : FormV) (s : State) (c : Ctx) (b : Block) (feed : Feed),
    let at_ := (c.selWide f.a).toNat
    let sel := c.selWide f.b
    let raw : BitVec 128 := BitVec.ofNat 128 (leValue (b.bytes at_ 16))
    let cmd := if sel.getLsbD 8 then raw else raw &&& ~~~(0xFF#128 <<< 112)
    let job : Job := { group := c.key, op := s.nextId + 1, block := c.g.block, domain := c.g.domain, command := cmd, dst := (c.selWide f.d).toNat, selector := sel, pc := c.st.pc, pos := 0, maxWts := 0, aside := none, index := [] }
    (∀ job' : Job, Runs (.commission f) s c → c.g.hold = none → c.wide f.g = true → c.g.spads = [] → s.blocks.look c.g.block = some b → c.g.full .cms = false →
      c.s.copiesOn c.r.core < 128 → at_ % 16 = 0 → b.courierOk at_ 16 = true → (c.selWide f.d).toNat % 512 = 0 → sel.toNat < 2 ^ 16 →
      sel.toNat / 2 ^ 9 % 8 = 0 → sel.toNat / 2 ^ 6 % 4 = 0 → feedOf cmd = some feed →
      ((∃ x w, c.s.feedRow job feed = .value x w job') ∨ (∃ x, c.s.feedRow job feed = .fault x ∧ job' = job)) →
      b.courierOk (c.selWide f.d).toNat (feed.bytes (match job'.header with | some h => h.2.2.1 | none => 0)) = true →
      ∃ t g, exec (.commission f) s = .next t ∧ c.GoesOn t ∧ t.mem = s.mem ∧ t.blocks = s.blocks ∧ t.groups.look c.key = some g ∧ g.SameRegs c.g ∧
        t.jobs.look s.nextId = some job' ∧ ∃ o ∈ g.ops, o.id = job.op ∧ o.path = .cms) ∧
    (Runs (.commission f) s c → c.g.hold = none → c.wide f.g = false → ∃ t, exec (.commission f) s = .next t ∧ c.GoesOn t ∧ t.mem = s.mem ∧ t.jobs = s.jobs) ∧
    (∀ id j j' bs total, s.jobs.look id = some j → j.aside = none → s.nextElement j = .bytes bs total j' → bs ≠ [] →
      s.blocks.look j.block = some b → b.claim = none → b.courierOk j.dst total = true → j.pos * bs.length + bs.length < total →
      ∃ t b', exec (.commissionDeliver id) s = .next t ∧ t.blocks.look j.block = some b' ∧ t.mem.bytes = s.mem.bytes ∧
        (∀ x, x < bs.length → b'.read (j.dst + j.pos * bs.length + x) = bs.getD x 0) ∧
        (∀ a, a < j.dst + j.pos * bs.length ∨ j.dst + j.pos * bs.length + bs.length ≤ a → b'.read a = b.read a) ∧
        t.jobs.look id = some { j' with pos := j.pos + 1 }) ∧
    (∀ id j j' bs total g, s.jobs.look id = some j → j.aside = none → s.nextElement j = .bytes bs total j' → bs ≠ [] →
      s.blocks.look j.block = some b → b.claim = none → b.courierOk j.dst total = true → j.pos * bs.length + bs.length = total →
      s.groups.look j.group = some g → g.aborting = [] → (∀ o ∈ g.ops, o.id = j.op → o.bad = []) →
      ∃ t b' g', exec (.commissionDeliver id) s = .next t ∧ t.jobs.look id = none ∧ t.mem.bytes = s.mem.bytes ∧
        t.blocks.look j.block = some b' ∧ (∀ x, x < bs.length → b'.read (j.dst + j.pos * bs.length + x) = bs.getD x 0) ∧
        (∀ a, a < j.dst + j.pos * bs.length ∨ j.dst + total ≤ a → b'.read a = b.read a) ∧
        b'.arrival.look ((j.dst + j.pos * bs.length) / 512) = some true ∧
        t.groups.look j.group = some g' ∧ g.rclk.toNat ≤ g'.rclk.toNat ∧ j'.maxWts.toNat ≤ g'.rclk.toNat) ∧
    (∀ id j rid, s.jobs.look id = some j → j.aside = some rid → (∀ x, s.nextElement j ≠ .fault x) →
      ∃ t, exec (.commissionResume id) s = .next t ∧ t.jobs.look id = some { j with aside := none } ∧ t.groups = s.groups ∧ t.mem = s.mem ∧
        ∀ a ∈ t.faults.awaiting, a.record.id ≠ rid)

/-- R135, R138, R140, R228, R238. The arrival map: tests and waits see the masked bits and raise the read clock to the chunks' kept
times, a clear removes them; `tlayout` sets its slot from a copy that serves it, and asks the descriptor's home otherwise. -/
def Obligations.ArrivalMap : Prop :=
  ∀ (f : FormV) (s : State) (c : Ctx) (b : Block), c.g.hold = none → s.blocks.look c.g.block = some b →
    let first := (c.selWide f.a).toNat
    let mask := c.selWide f.b
    let keeps (t : State) (g : Group) := c.GoesOn t ∧ t.groups.look c.key = some g ∧
      (∀ r l, l < 32 → g.vreg r l = c.g.vreg r l) ∧ (∀ k l, l < 32 → g.predBit k l = c.g.predBit k l) ∧ t.mem.bytes = s.mem.bytes
    let arrived (k : Nat) := b.chunkIn k = true ∧ Map.get false b.arrival k = true
    (Runs (.cbtest f) s c → c.wide f.g = true →
      ∃ t g, exec (.cbtest f) s = .next t ∧ keeps t g ∧ t.blocks = s.blocks ∧ ∃ bits : Dword,
        (∀ i, i < 64 → (bits.getLsbD i = true ↔ mask.getLsbD i = true ∧ arrived (first + i))) ∧ (∀ k, g.sreg k = c.withScalar f.d.toNat bits k) ∧
        ∀ i, bits.getLsbD i = true → (Map.get 0 b.kept (first + i)).toNat ≤ g.rclk.toNat) ∧
    (Runs (.cbwait f) s c → c.wide f.g = true → (∀ i, mask.getLsbD i = true → arrived (first + i)) →
      ∃ t g, exec (.cbwait f) s = .next t ∧ keeps t g ∧ t.blocks = s.blocks ∧ (∀ k, g.sreg k = c.g.sreg k) ∧
        ∀ i, i < 64 → mask.getLsbD i = true → (Map.get 0 b.kept (first + i)).toNat ≤ g.rclk.toNat) ∧
    (Runs (.cbclr f) s c → c.wide f.g = true →
      ∃ t g, exec (.cbclr f) s = .next t ∧ keeps t g ∧ (∀ k, g.sreg k = c.g.sreg k) ∧ ∃ b', t.blocks.look c.g.block = some b' ∧ b' = { b with arrival := b'.arrival } ∧
        ∀ k, b'.arrival.look k = if b.chunkIn k = true ∧ first ≤ k ∧ k < first + 64 ∧ mask.getLsbD (k - first) = true then none else b.arrival.look k) ∧
    (∀ pa n, Runs (.tlayout f) s c → c.wide f.g = true → c.g.full .gld = false → (c.selWide f.a).toNat % 32 = 0 →
      c.s.trans c.g.domain (c.selWide f.a) { wantLoad with n := .refuse } = .ok pa n →
      let hit := c.s.hits c.key c.g c.r.core (pa / 64) 0 .dev (byteMask (pa % 64) 32)
      (hit = none → ∃ t g, exec (.tlayout f) s = .next t ∧ keeps t g ∧ (∀ k, g.sreg k = c.g.sreg k) ∧ t.HasMsg fun m =>
        m.line = pa / 64 ∧ m.group = c.key ∧ m.clk = c.g.rclk ∧ m.kind = .layout f.x.toNat (pa % 64) ∧ ∃ o ∈ g.ops, o.id = m.op ∧ o.slot = some f.x.toNat) ∧
      (∀ v l, hit = some v → layoutOf (lineValue v.bytes (pa % 64) 32) = some l →
        ∃ t g, exec (.tlayout f) s = .next t ∧ keeps t g ∧ (∀ k, g.sreg k = c.g.sreg k) ∧ g.layouts.look f.x.toNat = some l ∧
          g.rclk = tmax c.g.rclk v.wts ∧ t.mem.msgs = s.mem.msgs)) ∧
    (c.wide f.g = false → (Runs (.cbtest f) s c → ∃ t, exec (.cbtest f) s = .next t ∧ c.GoesOn t ∧ t.blocks = s.blocks) ∧
      (Runs (.cbwait f) s c → ∃ t, exec (.cbwait f) s = .next t ∧ c.GoesOn t ∧ t.blocks = s.blocks) ∧
      (Runs (.cbclr f) s c → ∃ t, exec (.cbclr f) s = .next t ∧ c.GoesOn t ∧ t.blocks = s.blocks) ∧
      (Runs (.tlayout f) s c → ∃ t, exec (.tlayout f) s = .next t ∧ c.GoesOn t ∧ t.mem = s.mem))

/-- R45, R141-R144, R338, R340. Gathers, scatters and their statistics: a gather asks once for each distinct row of its lanes,
through the leaves that its pages have at issue; a row that lands, read through those leaves, stands in the place of each of its
lanes; a scatter of whole words sends a store that covers each element of each row, or with `.fadd` an addition for it. A lane
whose place is out of range stops both before any row is asked for. When the row counters are halved is the model's choice
(LOG 29). -/
def Obligations.GatherAndScatter : Prop :=
  ∀ (f : FormV) (s : State) (c : Ctx) (b : Block) (p : RowPlan), c.g.hold = none →
    let act := (c.active f.g).filter fun l => !(c.g.helper.getLsbD l && (b.placeFault (c.placeOf f (geoOf (c.selWide f.c)) l) (geoOf (c.selWide f.c)).moved l).isSome)
    let fadd : Bool := f.x.toNat / 2 % 4 == 1
    let geo : Geo := if fadd then { geoOf (c.selWide f.c) with elem := 4 } else geoOf (c.selWide f.c)
    let want : Want := if fadd then { wantScatter with r := true, a := true, n := .refuse } else wantScatter
    (Runs (.gath f) s c → s.blocks.look c.g.block = some b → c.g.full .gld = false →
      c.placesFault f (geoOf (c.selWide f.c)) b act = none → c.missingWords f act = [] → c.rows f (geoOf (c.selWide f.c)) wantGather act = p → p.bad = [] →
      ∃ t g, exec (.gath f) s = .next t ∧ c.GoesOn t ∧ t.groups.look c.key = some g ∧ g.SameRegs c.g ∧ t.mem.bytes = s.mem.bytes ∧
        (p.good ≠ [] → ∃ j, t.gaths.look p.s.nextId = some j ∧ j.group = c.key ∧ j.block = c.g.block ∧ j.dst = (c.selWide f.d).toNat ∧
          j.rowBytes = (geoOf (c.selWide f.c)).row ∧ j.elemBytes = (geoOf (c.selWide f.c)).elem ∧ j.rows = groupRows p.good ∧
          (let q := p.s.useUp (c.listLines f act)
           j.pages = (groupRows p.good).foldl (fun m r => q.leaves c.g.domain r.1 (geoOf (c.selWide f.c)).moved wantGather m) []) ∧
          ∃ o ∈ g.ops, o.id = j.op ∧ o.path = .gld ∧ o.left = j.rows.length)) ∧
    (∀ x, Runs (.gath f) s c → s.blocks.look c.g.block = some b → c.g.full .gld = false → c.placesFault f (geoOf (c.selWide f.c)) b act = some x →
      exec (.gath f) s = .next (c.s.takeFault c.r c.st.pc x)) ∧
    (∀ id j row ls, s.gaths.look id = some j → (row, ls) ∈ j.rows → (j.rows.map (·.1)).Nodup →
      s.blocks.look j.block = some b → 0 < j.elemBytes → j.rowBytes / j.elemBytes * j.elemBytes ≤ roundUp j.rowBytes 16 →
      (∀ i, i < j.rowBytes / j.elemBytes → ∃ pa n, pageAt j.pages (row + i * j.elemBytes) = some (pa, n) ∧ s.lineBad (pa / 64) = false ∧
        s.refused (pa / 64) n = false ∧ s.lineNow (pa / 64) n ≠ none) →
      ∃ t b', exec (.gathRowLand id row) s = .next t ∧ t.blocks.look j.block = some b' ∧ t.mem.bytes = s.mem.bytes ∧
        ∀ l ∈ ls, ∀ i, i < j.rowBytes / j.elemBytes → ∀ pa n, pageAt j.pages (row + i * j.elemBytes) = some (pa, n) →
          b'.bytes (j.dst + l * roundUp j.rowBytes 16 + i * j.elemBytes) j.elemBytes = leBytes j.elemBytes (s.engineValue pa j.elemBytes n)) ∧
    (Runs (.scat f) s c → s.blocks.look c.g.block = some b → c.g.full .gst = false → c.g.spads = [] →
      c.placesFault f geo b (c.part f.g) = none → c.missingWords f (c.part f.g) = [] → c.rows f geo want (c.part f.g) = p → p.bad = [] →
      ∃ t g, exec (.scat f) s = .next t ∧ c.GoesOn t ∧ t.groups.look c.key = some g ∧ g.SameRegs c.g ∧ t.mem.bytes = s.mem.bytes ∧ t.blocks = s.blocks ∧
        ∀ x ∈ p.good, ∀ i, i < geo.row / geo.elem → ∀ pa, p.s.trans c.g.domain (x.row + BitVec.ofNat 64 (i * geo.elem)) want = .ok pa false →
          t.HasMsg fun m => m.line = pa / 64 ∧ m.clk = c.g.wclk ∧
            (fadd = true → m.kind = .atomic x.lane (pa % 64) 4 .fadd (BitVec.ofNat 64 (leValue (b.bytes (x.place + 4 * i) 4))) 0 none .rlx) ∧
            (fadd = false → ∃ mask data, m.kind = .store mask data false ∧ mask &&& byteMask (pa % 64) geo.elem = byteMask (pa % 64) geo.elem)) ∧
    (∀ x, Runs (.scat f) s c → s.blocks.look c.g.block = some b → c.g.full .gst = false → c.g.spads = [] → c.placesFault f geo b (c.part f.g) = some x →
      exec (.scat f) s = .next (c.s.takeFault c.r c.st.pc x)) ∧
    (Runs (.gstat f) s c → c.wide f.g = true →
      ∃ t g, exec (.gstat f) s = .next t ∧ c.GoesOn t ∧ t.groups.look c.key = some g ∧ ∀ k, g.sreg k = c.withScalar f.d.toNat
        (match f.x.toNat with
         | 0 => (s.core c.r.core).rowsAsked
         | 1 => (s.core c.r.core).rowsFetched
         | 2 => (s.core c.r.core).hotHits
         | _ => BitVec.ofNat 64 (Map.get 0 s.mem.freq (freqKey c.g.domain (c.selWide f.a).toNat))) k) ∧
    (s.mem.freqAt + 4000000 ≤ s.now → ∃ t, exec .freqHalve s = .next t ∧ t.mem.freqAt = s.mem.freqAt + 4000000 ∧
      ∀ k, (s.mem.freq.map (·.1)).Nodup → Map.get 0 t.mem.freq k = Map.get 0 s.mem.freq k / 2)

/-- R127, R146-R154. The Catalogue. Each instruction counts on the scratchpad path until its registers are written. The instructions by key run their lanes in ascending order on the claim of the block, each lane's
status goes to c and its value to d; after an insert that took place a probe of the key finds the value. `cclaim` makes an
empty table of the largest bucket count that fits, `cfree` ends it, `cdrn` copies records out and `cstat` reads the counts. -/
def Obligations.Catalogue : Prop :=
  ∀ (f : FormV) (s : State) (c : Ctx) (b : Block), c.g.hold = none → c.g.spads = [] → c.g.full .spd = false → s.blocks.look c.g.block = some b →
    let goes (i : Instr) (p : State → Group → Block → Prop) := Runs i s c → ∃ t g b', exec i s = .next t ∧ c.GoesOn t ∧
      t.groups.look c.key = some g ∧ t.blocks.look c.g.block = some b' ∧ t.mem.bytes = s.mem.bytes ∧
      (∀ k l, l < 32 → g.predBit k l = c.g.predBit k l) ∧ (∃ o ∈ g.ops, o.path = .spd ∧ o.left = 1 ∧ g.spads.map (·.op) = [o.id]) ∧ p t g b'
    let byKey (i : Instr) (op : CatOp) (ls : List Nat) (cl : Claim) := goes i fun _ g b' =>
      let value (l : Nat) : Dword := if f.ty == .bf16 then low 16 (c.opB f immInt f.ty.wide l) else c.opB f immInt f.ty.wide l
      let r := ls.foldl (fun (a : CatRun × List (Nat × Option Dword × Nat)) l =>
        let x := a.1.lane op cl.k64 (c.lane cl.k64 f.a.toNat l) (value l)
        (x.1, a.2 ++ [(l, x.2.1, x.2.2)])) ({ c := cl }, [])
      b' = { b with claim := some r.1.c } ∧ (∀ k, g.sreg k = c.g.sreg k) ∧
      (∀ e ∈ r.2, g.vreg f.c.toNat e.1 = BitVec.ofNat 32 e.2.2) ∧
      (∀ e ∈ r.2, ∀ v, e.2.1 = some v → (f.d.toNat ≠ f.c.toNat → g.vreg f.d.toNat e.1 = v.setWidth 32) ∧
        (f.ty.wide = true → f.d.toNat + 1 ≠ f.c.toNat → g.vreg (f.d.toNat + 1) e.1 = (v >>> 32).setWidth 32)) ∧
      ∀ k l, l < 32 → l ∉ ls ∨ (k ≠ f.c.toNat ∧ k ≠ f.d.toNat ∧ (f.ty.wide = true → k ≠ f.d.toNat + 1)) → g.vreg k l = c.g.vreg k l
    let keepV (g : Group) := ∀ r l, l < 32 → g.vreg r l = c.g.vreg r l
    (∀ cl, b.claim = some cl → cl.k64 = f.x.getLsbD 0 → c.g.full .gst = false →
      byKey (.cins f) .ins (c.part f.g) cl ∧ byKey (.cprb f) .prb (c.active f.g) cl ∧ byKey (.cdel f) .del (c.part f.g) cl ∧
      byKey (.cacc f) (.acc (caccOp f.ty f.sat (f.x.toNat / 2 % 4))) (c.part f.g) cl) ∧
    (∀ (r : CatRun) (k64 : Bool) (k v w : Dword) (h : Dword → Dword → Dword), k ≠ (if k64 then BitVec.allOnes 64 else 0xFFFFFFFF) →
      let ins := r.lane .ins k64 k v
      let acc := r.lane (.acc h) k64 k v
      (ins.2.2 ≤ 1 → (ins.1.lane .prb k64 k w).2 = (some v, 0)) ∧
      (∀ p, r.c.find k = some p → ins.2 = (some (r.c.value p), 0) ∧ acc.2 = (some (h (r.c.value p) v), 0) ∧
        r.lane .prb k64 k w = (r, some (r.c.value p), 0) ∧ (r.lane .del k64 k w).2 = (some (r.c.value p), 0)) ∧
      (r.c.find k = none → r.lane .prb k64 k w = (r, some 0, 2) ∧ r.lane .del k64 k w = (r, some 0, 2) ∧
        (acc.2.2 = 1 → acc.2.1 = some v ∧ (acc.1.lane .prb k64 k w).2 = (some v, 0)))) ∧
    (c.wide f.g = true →
      let base := (c.selWide f.a).toNat
      let size := (c.selWide f.b).toNat
      let rd := c.selWide f.c
      let q := rd.toNat / 2 ^ 58
      let ring := rd.toNat % 2 ^ 57
      (b.claim = none → base % 256 = 0 → size % 256 = 0 → 1536 ≤ size → base + size ≤ b.spadBytes → size ≤ b.catalogueKiB * 1024 →
        rd.getLsbD 57 = false → q = 0 ∨ (4 ≤ q ∧ q ≤ 32 ∧ ring % 64 = 0 ∧ c.s.checkRow c.g.domain (BitVec.ofNat 64 ring) (16 * 2 ^ q) 1 255 wantStore = none) →
        (∀ e ∈ c.s.groupsOf c.g.block, e.2.spads = []) →
        goes (.cclaim f) fun _ g b' => keepV g ∧ ∃ cl, b' = { b with claim := some cl } ∧ cl.base = base ∧ cl.size = size ∧ cl.ring = rd ∧
          cl.spills = 0 ∧ cl.occ = 0 ∧ cl.ov = 0 ∧ cl.slots = [] ∧ cl.k64 = f.x.getLsbD 0 ∧ 1280 + 128 * 2 ^ cl.b ≤ size ∧
          (cl.b < 11 → size < 1280 + 128 * 2 ^ (cl.b + 1)) ∧ ∀ k, g.sreg k = c.withScalar f.d.toNat (BitVec.ofNat 64 cl.b) k) ∧
      ∀ cl, b.claim = some cl →
        ((∀ e ∈ c.s.groupsOf c.g.block, e.2.spads = []) → goes (.cfree f) fun _ g b' => g.SameRegs c.g ∧ b'.claim = none ∧ ∀ a, a < cl.base ∨ cl.base + cl.size ≤ a → b'.read a = b.read a) ∧
        goes (.cstat f) (fun _ g b' => keepV g ∧
          (∀ k, g.sreg k = c.withScalar f.d.toNat (match f.x.toNat with | 0 => BitVec.ofNat 64 cl.occ | 1 => BitVec.ofNat 64 cl.ov | _ => cl.spills) k) ∧
          b' = { b with claim := some (if f.x = 3 then { cl with spills := 0 } else cl) }) ∧
        let dst := c.selWide f.d
        let n := min (c.selWide f.b).toNat 1024
        let glb := f.x.getLsbD 0
        let d := (List.range (cl.top + 64)).foldl (fun (d : Drain) _ => d.step (f.x.getLsbD 1) n) { c := cl, p := (c.selWide f.a).toNat }
        (dst.toNat % 16 = 0 → (glb = true → c.g.full .gst = false ∧ c.s.checkRow c.g.domain dst (16 * n) 1 255 wantStore = none) →
          (glb = false → dst.toNat + 16 * n ≤ b.spadBytes ∧ b.inClaim dst.toNat (16 * n) = false) →
          goes (.cdrn f) fun _ g b' => keepV g ∧ b'.claim = some d.c ∧
            (∀ k, g.sreg k = if k = f.c.toNat ∧ k ≠ 0 then BitVec.ofNat 64 d.out.length
              else c.withScalar f.a.toNat (if d.c.top + d.c.ov ≤ d.p then BitVec.allOnes 64 else BitVec.ofNat 64 d.p) k) ∧
            (∀ a, glb = true ∨ a < dst.toNat ∨ dst.toNat + 16 * d.out.length ≤ a → b'.read a = b.read a) ∧
            (glb = false → ∀ i k v, d.out[i]? = some (k, v) → b'.bytes (dst.toNat + 16 * i) 16 = leBytes 8 k.toNat ++ leBytes 8 v.toNat)) ∧
        (f.x.getLsbD 1 = false → cl.ov ≤ 64 → d.c = cl ∧
          d.out = (((List.range (cl.top + cl.ov)).filter fun p => decide ((c.selWide f.a).toNat ≤ p)).filterMap cl.slots.look).take n))

/-- R33, R155-R164. Gate calls: the callee starts at its entry in its own domain with only the argument registers; while
something of the group is outstanding the strand waits with the entry that it read, holds the group's other strands, and calls
once all is done; a return restores the caller with the results and status 0, an abort with status 2 and no result, and the
callee's stores move to the gate counter; a group grows and shrinks by granules, and halts. A callee that has been quarantined or
released while the strand waited gives status 2, which is the model's choice (LOG 145). -/
def Obligations.GateCalls : Prop :=
  ∀ (l : FormL) (v : FormV) (s : State) (c : Ctx),
    let m := c.lanesOf
    let goes (i : Instr) (p : State → Group → Prop) := Runs i s c → ∃ t g, exec i s = .next t ∧ t.groups.look c.key = some g ∧
      t.mem = s.mem ∧ t.blocks = s.blocks ∧ p t g
    let enters (e : GateEntry) (n : Nat) (t : State) (g : Group) := g.domain = e.target.toNat % 64 ∧ g.live = m ∧
        (∃ st, t.strandAt c.r = some (g, st) ∧ st.pc = e.entry ∧ st.mask = m ∧ st.wait = .ready) ∧ g.calling = false ∧
        (∀ k, g.sreg k = if k = 63 then e.stack else if 1 ≤ k ∧ k ≤ e.sa.toNat then c.g.sreg k else 0) ∧
        (e.flags.getLsbD 0 = false → (∀ r n, n < 32 → g.vreg r n = if r < e.va.toNat ∧ m.getLsbD n = true then c.g.vreg r n else 0) ∧
          ∀ k n, n < 32 → k ≠ 0 → g.predBit k n = false) ∧
        ∃ fr, g.frames = fr :: c.g.frames ∧ fr.caller = c.g.domain ∧ fr.pc = c.st.pc + 8 ∧ fr.d = l.d.toNat ∧ fr.live = c.g.live ∧ fr.mask = m ∧ fr.entry = n
    (∀ e, c.wide l.g = true → (c.s.domain c.g.domain).gates.look l.imm.toNat = some e → GateEntry.callable e c.g.domain c.g.nregs = true →
      (c.s.domain (e.target.toNat % 64)).state ≠ .free → (c.s.domain (e.target.toNat % 64)).state ≠ .quarantined →
      c.g.frames.length = 0 ∨ (c.g.frames.length = 1 ∧ e.flags.getLsbD 1 = true) →
      (c.g.ops = [] → c.g.matrixQuiet = true → goes (.gate l) (enters e l.imm.toNat)) ∧
      (c.g.ops ≠ [] ∨ c.g.matrixQuiet = false → goes (.gate l) fun t g => g.SameRegs c.g ∧ g.domain = c.g.domain ∧ g.frames = c.g.frames ∧ g.calling = true ∧
        (∃ st, t.strandAt c.r = some (g, st) ∧ st.pc = c.st.pc ∧ st.wait = .gate e l.imm.toNat l.d.toNat) ∧
        ∀ x, gkey x.core x.slot = c.key → t.isReady x = false)) ∧
    (∀ e n, s.strandAt c.r = some (c.g, c.st) → c.st.wait = .gate e n l.d.toNat → c.s = s → c.key = gkey c.r.core c.r.slot →
      (c.g.ops ≠ [] ∨ c.g.matrixQuiet = false → s.openGate c.r = s) ∧
      (c.g.ops = [] → c.g.matrixQuiet = true → (s.domain (e.target.toNat % 64)).state ≠ .active → ∃ g st, (s.openGate c.r).strandAt c.r = some (g, st) ∧
        st.pc = c.st.pc + 8 ∧ g.domain = c.g.domain ∧ ∀ k, g.sreg k = c.withScalar l.d.toNat 2 k) ∧
      (c.g.ops = [] → c.g.matrixQuiet = true → (s.domain (e.target.toNat % 64)).state = .active →
        ∃ g, (s.openGate c.r).groups.look c.key = some g ∧ enters e n (s.openGate c.r) g)) ∧
    (c.wide l.g = true → (c.s.domain c.g.domain).gates.look l.imm.toNat = none →
      goes (.gate l) fun t g => c.GoesOn t ∧ g.domain = c.g.domain ∧ ∀ k, g.sreg k = c.withScalar l.d.toNat 1 k) ∧
    (∀ fr rest, c.wide v.g = true → c.g.frames = fr :: rest → c.othersInCallee = false → Map.rising none c.g.s = true → Map.rising none c.g.v = true → c.g.count .gld = 0 → c.g.count .nmp = 0 →
      let back (i : Instr) (vr sr : Nat) (status : Dword) := goes i fun _ g => g.domain = fr.caller ∧ g.frames = rest ∧ g.live = fr.live ∧
        g.trapvec = fr.trapvec ∧ g.layouts = fr.layouts ∧ (∀ o ∈ g.ops, o.path ≠ .gst) ∧
        (∀ k, k ≠ 0 → g.sreg k = if k = fr.d then status else if k ≤ sr then c.g.sreg k else if k ≤ max fr.sa fr.sr then 0 else Map.get 0 fr.s k) ∧
        (fr.uniform = false → g.p = fr.p ∧ ∀ r n, n < 32 → g.vreg r n =
          if fr.mask.getLsbD n = true ∧ r < vr then c.g.vreg r n
          else if fr.mask.getLsbD n = true ∧ r < max fr.va fr.vr then 0 else Map.get 0 fr.v (32 * r + n)) ∧
        g.strands = fr.strands.map fun e => (e.1, if e.1 = fr.strand then e.2.goto fr.pc else e.2)
      back (.gret v) fr.vr fr.sr 0 ∧ back (.gabort v) 0 0 2) ∧
    (∀ n, l.imm.toNat = n → n ≠ 0 → c.wide l.g = true →
      (c.g.nregs / 16 + n ≤ 16 → Map.rising none s.groups = true → n ≤ c.s.freeGranules c.r.core (slotQuad c.r.slot) → c.r.slot < 64 →
        (∀ e ∈ c.s.inQuad c.r.core (slotQuad c.r.slot), e.2.requests = []) →
        goes (.rgrow l) fun t g => c.GoesOn t ∧ g.nregs = c.g.nregs + 16 * n ∧ (∀ k, g.sreg k = c.g.sreg k) ∧
          (∀ k x, x < 32 → g.predBit k x = c.g.predBit k x) ∧ ∀ r k, k < 32 → g.vreg r k = if r < c.g.nregs then c.g.vreg r k else 0) ∧
      (16 * n + 16 ≤ c.g.nregs → (∀ o ∈ c.g.ops, ∀ r ∈ o.regs, r < c.g.nregs - 16 * n) → (∀ o ∈ c.g.owned, o.complete = true) →
        goes (.rshrink l) fun t g => c.GoesOn t ∧ g.nregs = c.g.nregs - 16 * n ∧ (∀ k, g.sreg k = c.g.sreg k) ∧
          (∀ o ∈ g.owned, ∀ r, g.nregs ≤ r → o.holds r = false ∧ r ∉ o.cWritten) ∧ ∀ r k, k < 32 → g.vreg r k = if r < c.g.nregs - 16 * n then c.g.vreg r k else 0)) ∧
    (∀ n, 16 < c.g.nregs / 16 + n → l.imm.toNat = n → n ≠ 0 → c.wide l.g = true → Runs (.rgrow l) s c →
      exec (.rgrow l) s = .next (c.s.takeFault c.r c.st.pc { code := faultRgrow })) ∧
    (c.wide v.g = true → c.g.ops = [] → Runs (.halt v) s c → ∃ t g, exec (.halt v) s = .next t ∧ t.groups.look c.key = some g ∧
      g.live = 0 ∧ g.strands = [] ∧ g.saveList = [] ∧ t.mem = s.mem) ∧
    (c.wide v.g = true → c.g.frames = [] → Runs (.haltAll v) s c → ∃ t, exec (.haltAll v) s = .next t ∧ t.mem = s.mem ∧
      (∃ r, t.faults.undelivered = s.faults.undelivered ++ [r] ∧ r.code = faultWatch ∧ r.detail = watchDetail 4 0 ∧ r.where_ = c.st.pc ∧
        r.domain = c.g.domain ∧ r.launch = some c.g.launch ∧ r.flags.getLsbD 0 = false ∧ r.flags.getLsbD 3 = true) ∧
      ∃ g, t.groups.look c.key = some g ∧ g.SameRegs c.g ∧ g.mayRun = false)

/-- R165-R173, R29. The matrix engine: `mzero` clears the C range; the four groups of a quartet meet in `mrdy`; the words of an
operation form it; it starts when it is the oldest, and 64 cc later every group's C range holds its results, which for integer
types are the exact sums; `mwait` and `mdrain` give the registers back. -/
def Obligations.Matrix : Prop :=
  ∀ (f : FormV) (s : State) (c : Ctx) (xs : List (Nat × Group)), c.wide f.g = true →
    (Runs (.mzero f) s c → c.Leaves (exec (.mzero f) s) c.onward (fun r n => if f.d.toNat ≤ r ∧ r < f.d.toNat + 64 then 0 else c.g.vreg r n)
      c.g.sreg c.g.predBit) ∧
    (Runs (.mrdy f) s c → (∀ n k, c.st.wait ≠ .mrdy n k) → c.s.quartetComplete c.g = true → c.s.mateGone c.g = false →
      Map.rising none s.groups = true → c.s.quartet c.g = some xs →
      (c.key, c.g) ∈ xs → (∀ e ∈ xs, e.1 ≠ c.key → e.2.readyToArm (c.g.mrdyCount + 1) = true) →
      (∀ o ∈ c.g.ops, o.regs = [] ∧ o.sreg = none) → (∀ x ∈ c.g.strands, ∀ n, x.2.owesScalar n = false) → c.g.calling = false →
      ∃ t, exec (.mrdy f) s = .next t ∧ c.GoesOn t ∧ t.mem = s.mem ∧ ∀ e ∈ xs, ∃ g, t.groups.look e.1 = some g ∧ g.armed = true ∧ g.SameRegs e.2 ∧
        ∀ x ∈ g.strands, Wait.isMrdy x.2.wait (c.g.mrdyCount + 1) = false) ∧
    (c.s.quartetComplete c.g = true → c.s.mateGone c.g = false → c.g.armed = true → c.s.tagBusy c.r.core c.key (f.x.toNat % 4) c.g = false → c.s.quartet c.g = some xs → c.g.words = [] →
      let forms (i : Instr) (fn : Nat) := Runs i s c →
        let w : MmaWord := { pc := c.st.pc, entry := c.r.entry, fn := fn, ty := f.ty, sat := f.sat, x := f.x, d := f.d.toNat, a := f.a.toNat, b := f.b.toNat, c := f.c.toNat }
        let taken (t : State) := ∃ g, t.groups.look c.key = some g ∧ g.SameRegs c.g ∧ g.armed = false ∧ g.mmaCount = c.g.mmaCount + 1 ∧ c.GoesOn t ∧ t.mem = s.mem
        ((∃ e ∈ xs, e.1 ≠ c.key ∧ e.2.words = []) → ∃ t g, exec i s = .next t ∧ taken t ∧ t.groups.look c.key = some g ∧ g.words = [w]) ∧
        ((∀ e ∈ xs, e.1 ≠ c.key → ∃ h r, e.2.words = h :: r ∧ h.agrees w = true) → (c.s.core c.r.core).engine.length < 8 →
          (∀ o ∈ (c.s.core c.r.core).engine, o.formed = s.now → o.stamp ≤ c.g.stamp) →
          ∃ t op, exec i s = .next t ∧ taken t ∧ (t.core c.r.core).engine = (c.s.core c.r.core).engine ++ [op] ∧ op.groups = xs.map (·.1) ∧ op.started = none)
      forms (.mma f) 2 ∧ forms (.mmaSp f) 3 ∧ forms (.mmx f) 4) ∧
    (∀ core o rest, (s.core core).engine = o :: rest →
      (o.started = none → ∃ t, exec (.matrixOpStart core) s = .next t ∧ (t.core core).engine = { o with started := some s.now } :: rest ∧ t.groups = s.groups) ∧
      (∀ (at_ : Nat) (q : List (Nat × Group)), o.started = some at_ → at_ + 64 ≤ s.now → o.groups = q.map (·.1) → (q.map (·.1)).Nodup → q.length = o.words.length →
        (∀ e ∈ q, s.groups.look e.1 = some e.2 ∧ ∀ x ∈ e.2.owned, x.op = some o.id → x.tainted = false ∧ x.cWritten = [] ∧ x.undef = []) →
        let quartet : Quartet := (q.zip o.words).map fun e => (e.1.2, e.2)
        ∃ t, exec (.matrixOpComplete core) s = .next t ∧ (t.core core).engine = rest ∧ t.mem = s.mem ∧
          ∀ rank e w, (q.zip o.words)[rank]? = some (e, w) → ∃ g, t.groups.look e.1 = some g ∧ (∀ k, g.sreg k = e.2.sreg k) ∧
            ∀ r n, n < 32 → g.vreg r n = if w.d ≤ r ∧ r < w.d + 64 then quartet.result w (16 * rank + (r - w.d) / 4) (32 * ((r - w.d) % 4) + n) else e.2.vreg r n)) ∧
    (∀ (q : Quartet) (w : MmaWord) (i n : Nat), w.ty = .i8 ∨ w.ty = .n8 → w.fn = 2 → w.sat = false →
      q.result w i n = BitVec.ofInt 32 (((List.range 128).map fun k => mmaInt w.ty (q.a w.ty i k) * mmaInt w.ty (q.b w.ty k n)).foldl (· + ·) (Int.ofNat (q.c i n)))) ∧
    (let returns (i : Instr) (sel : Owned → Prop) := Runs i s c → (∀ o ∈ c.g.owned, sel o → o.complete = true) →
      ∃ t g, exec i s = .next t ∧ c.GoesOn t ∧ t.mem = s.mem ∧ t.groups.look c.key = some g ∧ (∀ o ∈ g.owned, ¬ sel o) ∧
        (∀ o ∈ c.g.owned, ¬ sel o → o ∈ g.owned) ∧ (∀ k, g.sreg k = c.g.sreg k) ∧
        ∀ r n, n < 32 → (∀ o ∈ c.g.owned, sel o → r ∉ o.cWritten) → g.vreg r n = c.g.vreg r n
     returns (.mwait f) (fun o => o.tag = f.x.toNat % 4) ∧ returns (.mdrain f) fun _ => True)

/-- R174-R184. The Annex instructions of a core: an endpoint is opened with 64 credits, tokens go in with a credit each and come
out in order, a closed slot is free, a command goes to its port's queue, near-memory operations go to the owner nodes of
their words, and the fences complete when nothing is outstanding. A source that is opened again has 64 credits less the tokens
that are still outstanding (LOG 58), and `acmd` goes to the port that it names whatever the command's own port field says (LOG 63):
both are the model's reading. -/
def Obligations.AnnexFromCores : Prop :=
  ∀ (f : FormV) (m : FormM) (s : State) (c : Ctx), c.g.hold = none →
    let goes (i : Instr) (p : State → Group → Prop) := Runs i s c → ∃ t g, exec i s = .next t ∧ c.GoesOn t ∧ t.groups.look c.key = some g ∧
      t.mem.bytes = s.mem.bytes ∧ (∀ k l, l < 32 → g.predBit k l = c.g.predBit k l) ∧ p t g
    let keeps (g : Group) := g.SameRegs c.g
    let slot := f.x.toNat % 4
    (∀ r num rg ep, c.wide f.g = true → c.s.regionFrom c.g.domain (c.selWide f.a) = .found r → (c.selWide f.b).toNat = num → num < 16 →
      s.annex.regions.look r = some rg → rg.eps.look num = some ep → ep.kind = (if f.x.getLsbD 2 then 2 else 1) → ep.bound = none → ep.ending = false →
      c.g.eps.look slot = none →
      goes (.aopen f) fun t g => (∀ r l, l < 32 → g.vreg r l = c.g.vreg r l) ∧ (∀ k, g.sreg k = c.withScalar f.d.toNat 0 k) ∧
        g.eps.look slot = some ⟨r, num, f.x.getLsbD 2⟩ ∧ (t.endpoint r num).bound = some c.key ∧
        (t.endpoint r num).credits = if f.x.getLsbD 2 then 64 else 64 - c.s.outstanding r rg num ep) ∧
    (∀ b r e, c.g.eps.look slot = some b → s.annex.regions.look b.region = some r → r.state = .running → r.eps.look b.endpoint = some e →
      let sends (i : Instr) (ts : List Token) := b.sink = false → ts ≠ [] → ts.length ≤ e.credits → goes i fun t g => keeps g ∧
        (t.endpoint b.region b.endpoint).credits = e.credits - ts.length ∧
        (t.endpoint b.region b.endpoint).buf.toks.map (·.1) = e.buf.toks.map (·.1) ++ ts
      let part := c.part f.g
      let vals := part.map fun l => c.lane f.ty.wide f.a.toNat l
      sends (.asend f) (vals.map fun x => { data := x }) ∧
      (part ≠ [] → sends (.aacc f) [{ data := if f.x.toNat / 4 = 0 then reduceAdd f.ty .rne f.sat vals else reduceExt f.ty (f.x.toNat / 4 == 2) vals }]) ∧
      (∀ ts, b.sink = true → part ≠ [] → ts.length = part.length → e.buf.toks.take part.length = ts → (∀ x ∈ ts, x.1.eos = false ∧ x.2.2 ≤ s.fc) →
        goes (.arecv f) fun t g => (t.endpoint b.region b.endpoint).buf.toks = e.buf.toks.drop part.length ∧
          (∀ k, g.sreg k = c.withScalar f.c.toNat (BitVec.ofNat 64 part.length) k) ∧
          ∀ r l, l < 32 → g.vreg r l = c.withLanes f.ty.wide f.d.toNat part (fun l => match part.idxOf? l with | some k => ((ts.map fun x => x.1.data)[k]?).getD 0 | none => 0) r l) ∧
      (c.wide f.g = true → e.credits ≠ 0 → goes (.aclose f) fun t g => keeps g ∧ g.eps.look slot = none ∧ (t.endpoint b.region b.endpoint).bound = none ∧
        (b.sink = true → (t.endpoint b.region b.endpoint).buf.toks = []) ∧
        (b.sink = false → (t.endpoint b.region b.endpoint).buf.toks.map (·.1) = e.buf.toks.map (·.1) ++ [marker 0]))) ∧
    (∀ die port p, let w : BitVec 128 := BitVec.ofNat 128 ((c.g.sreg f.a.toNat).toNat + 2 ^ 64 * (c.g.sreg (f.a.toNat + 1)).toNat)
      c.wide f.g = true → portSelector (c.selWide f.b) = some (die, port) → acmdAccepts w = true → c.s.portOwner (64 * die + port) = some c.g.domain →
      c.g.fenceReady true false .dev = true → s.annex.ports.look (64 * die + port) = some p → p.queue.length < 16 → c.g.full .nmp = false →
      goes (.acmd f) fun t g => keeps g ∧ t.annex.ports.look (64 * die + port) = some { p with queue := p.queue ++ [w] } ∧
        c.g.rclk.toNat ≤ g.wclk.toNat) ∧
    (c.wide f.g = true → c.s.tokensAccepted c.g = true → c.g.fenceReady true false .dev = true → c.g.count .nmp = 0 →
      goes (.afence f) fun t g => keeps g ∧ t.mem = s.mem ∧ g.closed = [] ∧ c.g.rclk.toNat ≤ g.wclk.toNat) ∧
    (c.g.count .nmp = 0 → goes (.nfence f) fun t g => keeps g ∧ t.mem = s.mem ∧ g.ops = c.g.ops) ∧
    (∀ good, Accesses (.nmr m) s c .nmp m.order m.scope → c.Reaches m (2 ^ m.size.toNat) wantNear (c.part m.g) good →
      goes (.nmr m) fun t g => keeps g ∧ (good ≠ [] → ∃ o ∈ g.ops, o.path = .nmp ∧ o.left = good.length) ∧
        ∀ x ∈ good, ∃ id q, t.mem.owner.look id = some q ∧ q.die = paDie x.pa ∧ q.node = paNode x.pa ∧ q.queued = false ∧
          q.work = .word x.pa ((nmOp m.hint.toNat).getD .wr) (2 ^ m.size.toNat) (c.lane (2 ^ m.size.toNat == 8) m.d.toNat x.lane) (nmClass m.hint.toNat (2 ^ m.size.toNat))) ∧
    (let part := c.part f.g
     let bytes (l : Nat) : Nat := let b := (c.sel f.c l).toNat / 2 ^ 32 % 2 ^ 12; if b = 0 then 4096 else b
     let p := part.foldl (fun (p : LanePlan) l =>
       let r := p.s.checkIndex c.g.domain (c.indexCmd f l) (bytes l) l
       match r.2 with
       | none => { p with s := r.1, good := p.good ++ [⟨l, 0, 0, true⟩] }
       | some e => { p with s := r.1, bad := p.bad ++ [(l, e)] }) ⟨c.s, [], []⟩
     c.g.full .nmp = false → (∀ l ∈ part, bytes l % 4 = 0) → p.bad = [] → goes (.nidx f) fun t g => keeps g ∧
       ∀ l ∈ part, ∀ dst srcs, (c.indexCmd f l).rows = some (dst, srcs) → ∀ r ∈ srcs, ∀ w, 4 * w < bytes l →
         ∀ pa src n k, p.s.trans c.g.domain (dst + BitVec.ofNat 64 (4 * w)) wantNear = .ok pa n → p.s.trans c.g.domain (r + BitVec.ofNat 64 (4 * w)) wantNearRead = .ok src k →
           ∃ id q, t.mem.owner.look id = some q ∧ q.work = .index pa src (indexOp f).1 (indexOp f).2 ∧ q.die = paDie pa ∧ q.node = paNode pa)

/-- R185-R187, R239, R316. `launch` and `rlaunch`: with a queue of the caller's domain that has room the write index rises by 1.
`launch` also puts the packet into its slot and d takes status 0; `rlaunch` stands at its reserved slot with its start clock, and
its second step writes the packet and gives status 0. A full queue gives status 1, a queue the domain does not own status 2, and a
record of another domain too. -/
def Obligations.LaunchFromCores : Prop :=
  (∀ (f : FormV) (s : State) (c : Ctx) (q : Queue), c.g.hold = none → c.wide f.g = true → c.g.full .gst = false → c.g.fenceReady true false .dev = true →
    let va := c.selWide f.a
    let sel := (c.selWide f.b).toNat
    let regs (t : State) (g : Group) := t.groups.look c.key = some g ∧ (∀ r l, l < 32 → g.vreg r l = c.g.vreg r l) ∧ ∀ k l, l < 32 → g.predBit k l = c.g.predBit k l
    let ends (i : Instr) (status : Dword) (p : State → Prop) := Runs i s c → ∃ t g, exec i s = .next t ∧ c.GoesOn t ∧ regs t g ∧
      (∀ k, g.sreg k = c.withScalar f.d.toNat status k) ∧ p t
    va.toNat % 64 = 0 →
    (s.belfry.queues.look sel = none → ends (.launch f) 2 (fun t => t.mem = s.mem) ∧ ends (.rlaunch f) 2 fun t => t.mem = s.mem) ∧
    (s.belfry.queues.look sel = some q → sel < 2 ^ 20 → q.domain = c.g.domain → q.descriptor ≠ 0 → ∀ c1 record,
      ({ c with g := c.fenced .rel .dev } : Ctx).Reads va 8 c1 record →
      (recordDomain false record ≠ c.g.domain → ends (.launch f) 2 fun t => t.mem = c1.s.mem) ∧
      (recordDomain true record ≠ c.g.domain → ends (.rlaunch f) 2 fun t => t.mem = c1.s.mem) ∧
      ∀ pd nd pr nr ps ns, q.descriptor.toNat % 64 = 0 → c1.s.trans c.g.domain q.descriptor wantStore = .ok pd nd →
        c1.s.trans c.g.domain q.descriptor wantLoad = .ok pr nr →
        c1.s.lineBad (pd / 64) = false → c1.s.refused (pd / 64) nd = false → c1.s.lineNow (pd / 64) nd ≠ none →
        let s2 := (c1.s.learn c.g.domain q.descriptor wantStore).learn c.g.domain q.descriptor wantLoad
        let word (i : Nat) : Nat := s2.engineValue (pd + 8 * i) 8 nd
        let size := 2 ^ (word 1 % 256)
        let room := (word 2 + 2 ^ 64 - word 3) % 2 ^ 64 < size
        s2.trans c.g.domain (BitVec.ofNat 64 (word 0 + 128 * (word 2 % size))) wantStore = .ok ps ns →
        (ns = false → s2.lineNow (ps / 64) false ≠ none ∧ s2.lineNow ((ps + 127) / 64) false ≠ none ∧ s2.refused (ps / 64) false = false ∧
          s2.refused ((ps + 127) / 64) false = false) →
        let index := s2.storeNow c.key c1.g (pd + 16) nd (leBytes 8 (word 2 + 1))
        let packet := record.flatMap (fun w => leBytes 8 w.toNat) ++ leBytes 4 1 ++ leBytes 4 1 ++ leBytes 56 0
        (¬room → recordDomain false record = c.g.domain → ends (.launch f) 1 fun t => t.mem = s2.mem) ∧
        (¬room → recordDomain true record = c.g.domain → record[5]? = some 0 → ends (.rlaunch f) 1 fun t => t.mem = s2.mem) ∧
        (room → recordDomain false record = c.g.domain → ends (.launch f) 0 fun t => t.mem = (index.1.storeAll c.key index.2 ps ns packet).1.mem ∧
          t.belfry.starts.head? = some (sel, word 2, c1.g.wclk)) ∧
        (room → recordDomain true record = c.g.domain → record[5]? = some 0 → Runs (.rlaunch f) s c →
          ∃ t g st op, exec (.rlaunch f) s = .next t ∧ regs t g ∧ t.mem = index.1.mem ∧ (∀ k, g.sreg k = c.g.sreg k) ∧
            g.strands.look c.r.entry = some st ∧ st.pc = c.st.pc ∧ st.wait = .rlaunch op ps ns (word 2) sel va record [] ∧
            (∃ o ∈ g.ops, o.id = op ∧ o.path = .gst ∧ o.sreg = some f.d.toNat) ∧ t.belfry.starts.head? = some (sel, word 2, c1.g.wclk)))) ∧
  (∀ (s : State) (r : StrandRef) (g : Group) (st : Strand) (o : PathOp) (d op pa index queue : Nat) (near : Bool) (va : Dword) (record table : List Dword),
    s.strandAt r = some (g, st) → st.wait = .rlaunch op pa near index queue va record table → g.aborting = [] →
    (g.ops.find? fun o => o.id == op) = some o → o.sreg = some d → o.bad = [] →
    (∀ x ∈ slotLines pa near, s.refused x.1 x.2 = false) → s.missing (slotLines pa near) = [] →
    let t := s.landPacket r
    t.mem = ((s.cleanRanges g.domain table).storeAll (gkey r.core r.slot) g pa near
      (record.flatMap (fun w => leBytes 8 w.toNat) ++ leBytes 4 2 ++ leBytes 4 1 ++ leBytes 56 0)).1.mem ∧
    t.belfry.rlaunched.head? = some (g.domain, va, queue, index) ∧
    ∃ g' st', t.strandAt r = some (g', st') ∧ st'.pc = st.pc + 8 ∧ st'.wait = .ready ∧
      (∀ k, g'.sreg k = if k = d ∧ k ≠ 0 then 0 else g.sreg k) ∧ ∀ k l, l < 32 → g'.vreg k l = g.vreg k l)

/-- R65-R67, R188-R190. The compact words of a port sequencer: arithmetic with 64-bit registers, its local store, branches and
jumps to word addresses, and `stop`; a word that is none of them, or an address outside the program, stops it with a fault of
its region. That a program's first word is at address 0 and that a target which is no multiple of 4 stops the sequencer are the
model's choice (LOG 135). -/
def Obligations.SequencerWords : Prop :=
  ∀ (a : KRegs) (i : KImm) (s : State) (die n : Nat) (q : Seq), SeqRuns s die n q →
    let x := q.kreg a.a.toNat
    let y := q.kreg a.b.toNat
    let here : Dword := BitVec.ofNat 64 (4 * q.pc)
    let op (e : Instr) (v : Dword) := SeqGoes s die n q (exec e s) (q.pc + 1) (some (a.d.toNat, v))
    let opI (e : Instr) (v : Dword) := SeqGoes s die n q (exec e s) (q.pc + 1) (some (i.d.toNat, v))
    let fails (e : Instr) := ∃ inst t, s.annex.insts.look q.inst = some inst ∧ exec e s = .next t ∧
      ∀ r, s.annex.regions.look inst.region = some r → r.state = .running → ∃ r', t.annex.regions.look inst.region = some r' ∧ r'.state = .failed
    op (.seqAdd a) (x + y) ∧ op (.seqSub a) (x - y) ∧ op (.seqMul a) (x * y) ∧ op (.seqAnd a) (x &&& y) ∧ op (.seqOr a) (x ||| y) ∧
    op (.seqXor a) (x ^^^ y) ∧ op (.seqShl a) (x <<< (y.toNat % 64)) ∧ op (.seqShr a) (x >>> (y.toNat % 64)) ∧
    op (.seqShrA a) (x.sshiftRight (y.toNat % 64)) ∧
    opI (.seqAddi i) (q.kreg i.a.toNat + i.imm.signExtend 64) ∧ opI (.seqLih i) (q.kreg i.a.toNat + i.imm.signExtend 64 <<< 16) ∧
    SeqGoes s die n q (exec .seqNop s) (q.pc + 1) none ∧
    (let at_ := (q.kreg i.a.toNat + i.imm.signExtend 64).toNat
     (at_ % 8 = 0 → at_ < 4096 → opI (.seqLd i) (BitVec.ofNat 64 (leValue ((List.range 8).map fun j => q.byteAt (at_ + j)))) ∧
       ∃ t q', exec (.seqSt i) s = .next t ∧ t.annex.seqs.look (32 * die + n) = some q' ∧ q'.pc = q.pc + 1 ∧ q'.k = q.k ∧ t.mem = s.mem ∧
         ∀ b, q'.byteAt b = if at_ ≤ b ∧ b < at_ + 8 then BitVec.ofNat 8 ((q.kreg i.d.toNat).toNat / 2 ^ (8 * (b - at_))) else q.byteAt b) ∧
     (at_ % 8 ≠ 0 ∨ 4096 ≤ at_ → fails (.seqLd i) ∧ fails (.seqSt i))) ∧
    (let dest (base : Dword) := base + i.imm.signExtend 64 <<< 2
     let ok (base : Dword) := (dest base).toNat % 4 = 0 ∧ (dest base).toNat / 4 < q.prog.length
     let branch (e : Instr) (b : Bool) := (b = true → ok here → SeqGoes s die n q (exec e s) ((dest here).toNat / 4) none) ∧
       (b = true → ¬ ok here → fails e) ∧ (b = false → SeqGoes s die n q (exec e s) (q.pc + 1) none)
     let l := q.kreg i.d.toNat
     let r := q.kreg i.a.toNat
     branch (.seqBeq i) (l == r) ∧ branch (.seqBne i) (l != r) ∧ branch (.seqBlt i) (decide (l.toInt < r.toInt)) ∧
     branch (.seqBge i) (decide (r.toInt ≤ l.toInt)) ∧
     let base := if i.a = 0 then here else r
     (ok base → SeqGoes s die n q (exec (.seqJmp i) s) ((dest base).toNat / 4) none ∧
       SeqGoes s die n q (exec (.seqJal i) s) ((dest base).toNat / 4) (some (i.d.toNat, here + 4))) ∧
     (¬ ok base → fails (.seqJmp i) ∧ fails (.seqJal i))) ∧
    (∃ t q', exec .seqStop s = .next t ∧ t.annex.seqs.look (32 * die + n) = some q' ∧ q'.stopped = true ∧ t.annex.ports = s.annex.ports ∧ t.mem = s.mem) ∧
    (∀ w, q.prog[q.pc]? = some w → undecodable w = true → fails (.seqUndecodableWord w))

/-- R189, R190, R344. The compact words that reach outside the sequencer: `scmd` puts a command in the queue of one of its ports,
`swait` reads the room there, `ssig` puts a token on a signal channel, whose store of 3 tokens is the model's choice (LOG 68), and
`sfault` raises a WATCH record. Memory stays as it is. -/
def Obligations.SequencerEffects : Prop :=
  ∀ (i : KImm) (s : State) (die n : Nat) (q : Seq) (inst : Inst), SeqRuns s die n q → s.annex.insts.look q.inst = some inst →
    let goes (e : Instr) (p : State → Seq → Prop) := ∃ t q', exec e s = .next t ∧ t.annex.seqs.look (32 * die + n) = some q' ∧ q'.pc = q.pc + 1 ∧
      q'.stopped = false ∧ t.mem = s.mem ∧ p t q'
    let keepK (q' : Seq) := ∀ k, q'.kreg k = q.kreg k
    (∀ (w : BitVec 128) (p : Port), w = q.kreg (i.d.toNat + 1) ++ q.kreg i.d.toNat → (∃ x, decodeStream w = .ok x) → w.toNat / 2 ^ 112 % 256 / 2 = n →
      s.annex.ports.look (64 * die + w.toNat / 2 ^ 112 % 256) = some p → p.inst = some q.inst → p.queue.length < 16 →
      goes (.seqScmd i) fun t q' => keepK q' ∧ t.annex.ports.look (64 * die + w.toNat / 2 ^ 112 % 256) = some { p with queue := p.queue ++ [w] }) ∧
    (∀ p, s.annex.ports.look (64 * die + (2 * n + i.imm.toNat % 2)) = some p → min (q.kreg i.a.toNat).toNat 16 ≤ 16 - p.queue.length →
      goes (.seqSwait i) fun t q' => t.annex.ports = s.annex.ports ∧
        ∀ k, q'.kreg k = if k = i.d.toNat ∧ k ≠ 0 then BitVec.ofNat 64 (16 - p.queue.length) else q.kreg k) ∧
    (let ch := i.imm.toNat % 8
     (∃ r ∈ inst.routes, r.kind = 5 ∧ r.number = n ∧ r.vc = ch) → (Map.get {} q.sig ch).accepts 3 s.fc = true →
      goes (.seqSsig i) fun t q' => keepK q' ∧ Map.get {} q'.sig ch = (Map.get {} q.sig ch).push ⟨q.kreg i.a.toNat, 0, false⟩ s.fc (s.fc + 1) ∧
        ∀ k, k ≠ ch → Map.get {} q'.sig k = Map.get {} q.sig k) ∧
    ((∀ r ∈ s.faults.undelivered, ¬(r.code = faultWatch ∧ r.source = 2 ∧ r.region = some inst.region ∧ r.waiting = true)) → (∃ r, s.annex.regions.look inst.region = some r) →
      goes (.seqSfault i) fun t q' => keepK q' ∧ ∃ r, t.faults.undelivered = s.faults.undelivered ++ [r] ∧ r.code = faultWatch ∧
        r.va = q.kreg i.a.toNat ∧ r.detail = watchDetail 3 (i.imm.setWidth 32) ∧ r.region = some inst.region)

/-- R191-R194, R283, R352, R354, R379, R380, R407. The stream commands: a read command issues its elements in layout order, one
access each; `sidx` and `sgath` read their header and index words in their turn among the port's accesses, and fail the region where
the word cannot be read; a write takes the next token and sends it to the element's address, gathering the bytes of a row of a bound
landing range; the others act at once, and the next command follows when one is complete. That bytes of a row beyond a whole
element are left out is the model's choice (LOG 155). -/
def Obligations.StreamCommands : Prop :=
  ∀ (f : StreamCmd) (s : State) (die port : Nat) (p : Port) (n : Inst) (g : Region), PortRuns s die port p n g →
    let key := 64 * die + port
    let l := f.lay p.strides
    let va := (l.at p.elem).toNat
    let goes (e : Instr) (q : State → Port → Prop) := ∃ t p', exec e s = .next t ∧ t.annex.ports.look key = some p' ∧ t.groups = s.groups ∧ q t p'
    let ended (p' : Port) := p'.queue = p.queue.tail ∧ p'.cmd = p.cmd + 1 ∧ p'.elem = 0 ∧ p'.completions = if f.flagC then p.completions ++ [p.cmd] else p.completions
    let here (p' : Port) := p'.queue = p.queue ∧ p'.cmd = p.cmd ∧ p'.elem = p.elem + 1
    let after (count : Nat) (p' : Port) := if p.elem + 1 = count then ended p' else here p'
    let slot (v : Nat) (want : Want) (pa : Nat) (near : Bool) := v < 2 ^ 57 ∧ ∃ k x, p.slotOf v = some (k, x) ∧ x.stale = false ∧
      s.permFault g.record.domain v ⟨x.leaf, x.level⟩ want = none ∧ pa = Leaf.pa ⟨x.leaf, x.level⟩ v ∧ near = Leaf.near ⟨x.leaf, x.level⟩
    let read (v size : Nat) (packed : Bool) (pa : Nat) (p' : Port) := ∃ a, a ∈ p'.accesses ∧ a.cmd = p.cmd ∧ a.va = v ∧ a.size = size ∧ a.kind = .read pa ∧ a.packed = packed ∧ a.value = none
    (∀ pa near, slot va wantStreamRead pa near → goes (.slin f) fun t p' => t.mem = s.mem ∧ after l.count p' ∧ read va l.size (f.flags.getLsbD 1) pa p') ∧
    (∀ v pa near (k : Nat), slot v wantStreamRead pa near → s.mem.bad.contains (pa / 64) = true → p.turn { id := s.nextId, cmd := p.cmd, va := v, size := k, kind := .read pa } = true →
      (p.header = none ∧ v = f.header.toNat ∧ k = 16) ∨ (p.rowIndex = none ∧ k = 4 ∧ ∃ table stride row, p.header = some (table, stride, row) ∧
        p.elem < f.indexCount * (row / f.size) ∧ v = f.header.toNat + 16 + 4 * (p.elem / (row / f.size))) → g.state = .running →
      let fails (e : Instr) := ∃ t g', exec e s = .next t ∧ t.annex.regions.look n.region = some g' ∧ g'.state = .failed
      fails (.sidx f) ∧ fails (.sgath f)) ∧
    (∀ table stride row pa near, let v := f.header.toNat + 16 + 4 * (p.elem / (row / f.size))
      p.header = some (table, stride, row) → p.rowIndex = none → p.elem < f.indexCount * (row / f.size) → slot v wantStreamRead pa near → s.mem.bad.contains (pa / 64) = false →
      p.turn { id := s.nextId, cmd := p.cmd, va := v, size := 4, kind := .read pa } = true →
      let takes (e : Instr) := goes e fun t p' => t.mem = s.mem ∧ p' = { p with rowIndex := some (s.regionRead pa 4), extents := p'.extents }
      takes (.sidx f) ∧ takes (.sgath f)) ∧
    (∀ pa near, p.header = none → slot f.header.toNat wantStreamRead pa near → s.mem.bad.contains (pa / 64) = false →
      p.turn { id := s.nextId, cmd := p.cmd, va := f.header.toNat, size := 16, kind := .read pa } = true →
      let h := s.regionRead pa 16
      let takes (e : Instr) := goes e fun t p' => t.mem = s.mem ∧ p' = { p with header := some (BitVec.ofNat 64 h, h / 2 ^ 64 % 2 ^ 32, h / 2 ^ 96 % 2 ^ 32), extents := p'.extents }
      takes (.sidx f) ∧ takes (.sgath f)) ∧
    (∀ table stride row ix pa near, p.header = some (table, stride, row) → p.rowIndex = some ix → f.size ≤ row → p.elem < f.indexCount * (row / f.size) →
      let v := (table + BitVec.ofNat 64 (ix * stride + p.elem % (row / f.size) * f.size)).toNat
      slot v wantStreamRead pa near →
      let steps (e : Instr) := goes e fun t p' => t.mem = s.mem ∧ after (f.indexCount * (row / f.size)) p' ∧ read v f.size (f.flags.getLsbD 1) pa p'
      steps (.sidx f) ∧ (p.rowCache.look (p.cmd * 2 ^ 57 + v) = none → (∀ a ∈ p.accesses, ¬(a.keep = true ∧ a.cmd = p.cmd ∧ a.va = v)) → steps (.sgath f))) ∧
    (p.elem < f.constCount → goes (.sconst f) fun t p' => t.mem = s.mem ∧ after f.constCount p' ∧
      ∃ a ∈ p'.accesses, a.cmd = p.cmd ∧ a.kind = .token ⟨BitVec.ofNat 64 f.const, 0, false⟩) ∧
    goes (.seos f) (fun t p' => t.mem = s.mem ∧ ended p' ∧ ∃ a ∈ p'.accesses, a.cmd = p.cmd ∧ a.kind = .token (marker 0)) ∧
    goes (.scfg f) (fun t p' => t.mem = s.mem ∧ ended p' ∧ p'.accesses = p.accesses ∧
      ∀ k, Map.get 0 p'.strides k = if k = f.pattern.toNat % 4 then f.base.signExtend 64 else Map.get 0 p.strides k) ∧
    (∀ x since pa, p.row = none → p.unpack = [] → p.wr.head s.fc = some (x, since) → x.eos = false → p.elem < l.count → f.flags.getLsbD 1 = false →
      (slot va wantStreamWrite pa false → goes (.swrite f) fun t p' => t.mem = s.mem ∧ (if p.elem + 1 = l.count ∧ f.flagE = false then ended p' else here p') ∧
        (∃ a ∈ p'.accesses, a.cmd = p.cmd ∧ a.va = va ∧ a.kind = .write pa (leBytes l.size x.data.toNat)) ∧ p'.wr = p.wr.pop s.fc) ∧
      (slot va wantStreamWrite pa true → (s.landingAt (pa / 64)).isSome = true → goes (.swrite f) fun t p' => t.mem = s.mem ∧ here p' ∧
        p'.row = some (va, leBytes l.size x.data.toNat) ∧ p'.wr = p.wr.pop s.fc) ∧
      (slot va wantStreamWrite pa true → (s.landingAt (pa / 64)).isSome = false → goes (.swrite f) fun t p' =>
        (if p.elem + 1 = l.count ∧ f.flagE = false then ended p' else here p') ∧ p'.wr = p.wr.pop s.fc ∧
        ∃ id q, t.mem.owner.look id = some q ∧ q.die = paDie pa ∧ q.node = paNode pa ∧ q.work = .store pa (leBytes l.size x.data.toNat)) ∧
      (∀ op near, nmOp f.op = some op → slot va { wantStreamWrite with r := true, n := .require } pa near → goes (.sred f) fun t p' =>
        (if p.elem + 1 = l.count ∧ f.flagE = false then ended p' else here p') ∧ p'.wr = p.wr.pop s.fc ∧
        ∃ id q, t.mem.owner.look id = some q ∧ q.die = paDie pa ∧ q.node = paNode pa ∧
          q.work = .word pa op l.size (BitVec.ofNat 64 (leValue (leBytes l.size x.data.toNat))) (nmClass f.op l.size))) ∧
    (∀ v bs pa, p.row = some (v, bs) → ¬(p.elem < l.count ∧ rowGrows v bs.length va = true) → slot v wantStreamWrite pa true →
      goes (.swrite f) fun t p' => p'.queue = p.queue ∧ p'.cmd = p.cmd ∧ p'.elem = p.elem ∧ p'.row = none ∧ p'.wr = p.wr ∧
        ∃ id q, t.mem.owner.look id = some q ∧ q.die = paDie pa ∧ q.node = paNode pa ∧ q.work = .store pa bs) ∧
    (p.settled = true → goes (.sdrain f) fun t p' => t.mem = s.mem ∧ ended p' ∧ p'.drains = p.drains + 1) ∧
    (∀ pa near r w, p.settled = true → slot (512 * f.base.toNat + f.pattern.toNat % 512) wantAtomic pa near →
      let s1 : State := if p.arriving.isSome then s else { s with nextId := s.nextId + 1 }
      s1.arriveAt pa (BitVec.ofNat 64 (f.pattern.toNat / 2 ^ 9 % 2 ^ 32)) 0 (p.arriving.getD s.nextId) = .done r w →
      goes (.sbar f) fun t p' => t.mem = r.mem ∧ ended p') ∧
    (let rows := f.pattern.toNat / 2 ^ 9 % 2 ^ 20
     let at_ := 512 * f.base.toNat + f.pattern.toNat % 512
     p.landing = none →
     (∀ pa near, let v := at_ + 64 * p.lines.length
       p.lines.length < rows → slot v { wantStreamWrite with n := .require } pa near → paTarget pa = .hbm → paDie pa = key / 64 →
       goes (.sland f) fun t p' => t.mem = s.mem ∧ p'.queue = p.queue ∧ p'.landing = none ∧
         p'.lines = p.lines ++ (List.range (min (rows - p.lines.length) ((65536 - v % 65536) / 64))).map (pa / 64 + ·)) ∧
     (∀ c : PortCtx, c = { s := s, key := key, p := p, n := n, g := g } → rows ≤ p.lines.length →
       p.turn { id := s.nextId, cmd := p.cmd, va := at_, size := 64, kind := .owner } = true →
       let h := (s.mem.line (p.lines.headD 0)).toNat
       let e := h / 2 ^ 128 % 2 ^ 32
       1 ≤ e → e ≤ 1024 → h % 32 = 0 → h / 2 ^ 64 % 2 ^ 64 = 0 → h / 2 ^ 160 = 0 → c.doneOk (BitVec.ofNat 64 h) = true → s.mem.bad.contains (p.lines.headD 0) = false →
       (f.flags.getLsbD 0 = true → s.stagingUsed c.die + (rows - 1) * e ≤ 65536) →
       goes (.sland f) fun t p' => p'.queue = p.queue ∧ ∃ id b, p'.landing = some id ∧ t.mem.landings.look id = some b ∧ b.lines = p.lines ∧ b.port = port % 64 ∧
         b.region = n.region ∧ b.e = e ∧ b.ordered = f.flags.getLsbD 0 ∧ b.count = [] ∧ t.mem.bytes = s.mem.bytes)) ∧
    (∀ x, let level := 4 - f.pattern.toNat / 2 ^ 6 % 2 ^ 2
      s.leafOf g.record.domain (512 * f.base.toNat) wantStreamRead = .inl x → x.level ≤ level → p.extents.look (f.pattern.toNat % 64) = none →
      goes (.spage f) fun t p' => t.mem = s.mem ∧ ended p' ∧ ∃ y, p'.extents.look (f.pattern.toNat % 64) = some y ∧ y.size = 2 ^ levelShift level ∧
        y.va = 512 * f.base.toNat / 2 ^ levelShift level * 2 ^ levelShift level ∧ y.leaf = x.ent ∧ y.level = x.level ∧ y.stale = false)

/-- R195, R260, R268-R272. A firing of an operation that keeps no state: with a data token, or its constant, on every input, each
output takes the result with the tag of the first channel input; with a marker on every channel input, each output takes a
marker. -/
def Obligations.FuArithmetic : Prop :=
  ∀ (op : FuOp) (s : State) (site : FuSite) (n : Inst) (t : TaskState) (x : Nat → Token), Stands s op site n t → Stands.room s site n t op →
    let var := taskVar t.word
    let ins := fuInputs op var
    let chans := ins.filter fun i => decide (taskIn t.word i < 8)
    let tag : BitVec 7 := match chans with | i :: _ => (x i).tag | [] => 0
    let a := (x 0).data
    let b := (x 1).data
    let c := (x 2).data
    let lo (z : Dword) : Dword := (z.setWidth 32).setWidth 64
    let hi (z : Dword) : Dword := z >>> 32
    let lanes (h : Dword → Dword → Dword → Dword) : Dword :=
      if taskLanes t.word then (h (hi a) (hi b) (hi c)).setWidth 32 ++ (h (lo a) (lo b) (lo c)).setWidth 32 else h a b c
    let w := if taskLanes t.word then 32 else 64
    let fires (o : FuOp) (e : FuSite → Instr) (d : Dword) := op = o →
      ((∀ i ∈ ins, Stands.input s site n t i (x i)) → Stands.Fires s site n op (exec (e site) s) t (taskVcs t.word) ⟨d, tag, false⟩ fun _ => True) ∧
      (chans ≠ [] → (∀ i ∈ ins, (taskIn t.word i = 8 ∨ ∃ since, n.inHead site.x site.y (taskIn t.word i) s.fc = some (x i, since) ∧ (x i).eos = true ∧ taskIn t.word i < 8)) →
        Stands.Fires s site n op (exec (e site) s) t (taskVcs t.word) (marker tag) fun _ => True)
    let f (v : Nat) : Dword := BitVec.ofNat 64 v
    fires .fadd .fuFadd (f (fp32.add .rne (lo a).toNat (lo b).toNat)) ∧ fires .fmul .fuFmul (f (fp32.mul .rne (lo a).toNat (lo b).toNat)) ∧
    fires .ffma .fuFfma (f (fp32.fma .rne (lo a).toNat (lo b).toNat (lo c).toNat)) ∧
    fires .fmax .fuFmax (f (fp32.max (lo a).toNat (lo b).toNat)) ∧ fires .fmin .fuFmin (f (fp32.min (lo a).toNat (lo b).toNat)) ∧
    fires .bfma2 .fuBfma2 (f (bfmaLane a b 0 (lo c).toNat + 2 ^ 32 * bfmaLane a b 1 (hi c).toNat)) ∧
    fires .f8dot4 .fuF8dot4 (f (f8Lane (if var % 2 = 1 then e5m2Fmt else e4m3Fmt) a b 0 (lo c).toNat +
      2 ^ 32 * f8Lane (if var % 2 = 1 then e5m2Fmt else e4m3Fmt) a b 1 (hi c).toNat)) ∧
    fires .iadd .fuIadd (lanes fun x y _ => x + y) ∧ fires .isub .fuIsub (lanes fun x y _ => x - y) ∧
    fires .imul .fuImul (lanes fun x y _ => x * y) ∧ fires .imad .fuImad (lanes fun x y z => x * y + z) ∧
    fires .and .fuAnd (a &&& b) ∧ fires .or .fuOr (a ||| b) ∧ fires .xor .fuXor (a ^^^ b) ∧
    fires .shl .fuShl (lanes fun x y _ => shlN w x (y.toNat % 64)) ∧
    fires .shr .fuShr (lanes fun x y _ => if var % 2 = 1 then sarN w x (y.toNat % 64) else shrN w x (y.toNat % 64)) ∧
    fires .cmp .fuCmp (if var / 8 % 2 = 1 then (if condFp (var % 8) (lo a).toNat (lo b).toNat then 1 else 0)
      else lanes fun x y _ => if condInt (var % 8) (valN (var.testBit 4) w x) (valN (var.testBit 4) w y) then 1 else 0) ∧
    fires .sel .fuSel (if a = 0 then c else b) ∧ fires .hash .fuHash ((a * 0x9E3779B97F4A7C15#64) >>> (64 - var % 16)) ∧
    fires .mcast .fuMcast a ∧ fires .fifo .fuFifo a

/-- R195, R261, R262, R271, R272, R280-R282. A firing of an operation that chooses, counts, keeps a sum, addresses a tile or
controls others, in channel mode. That `count` starts at 0 (LOG 51), that `owner` works on 64 bits where its operator has a form of
8 bytes (LOG 50), and that `stt` and `owner` send a token of free data where they have a destination (LOG 49) are the model's
choices. -/
def Obligations.FuControl : Prop :=
  ∀ (op : FuOp) (s : State) (site : FuSite) (n : Inst) (t : TaskState) (x : Nat → Token), Stands s op site n t → Stands.room s site n t op →
    let var := taskVar t.word
    let e := n.elem site.x site.y
    let has (i : Nat) := Stands.input s site n t i (x i)
    let tagOf (is : List Nat) : BitVec 7 := match is.filter fun i => decide (taskIn t.word i < 8) with | i :: _ => (x i).tag | [] => 0
    let fires (i : FuSite → Instr) (u : TaskState) (vcs : List Nat) (y : Token) (more : Inst → Prop) := Stands.Fires s site n op (exec (i site) s) u vcs y more
    let all := taskVcs t.word
    let k := t.k.toNat
    let len := passLength e t op
    let mark := var % 2 = 1
    let pass (i : FuSite → Instr) (at_ : Nat) (u : TaskState) := at_ < len →
      fires i { u with pass := if at_ + 1 = len ∧ ¬ mark then none else some ⟨at_ + 1⟩ } all ⟨passWord e t op at_, 0, false⟩ fun _ => True
    let leaf (i : FuSite → Instr) := (∀ p, t.pass = some p → pass i p.pos t) ∧
      (t.pass = none → t.permits ≠ 0 → (op = .agen → var % 4 < 2) → pass i 0 { t with permits := t.permits - 1 })
    (op = .merge → ∀ i, i = (if (x 2).data ≠ 0 then 0 else 1) → has 2 → has i → fires .fuMerge t all ⟨(x i).data, tagOf [i, 2], false⟩ fun _ => True) ∧
    (op = .steer → has 0 → has 1 → fires .fuSteer t ([taskOut t.word (if (x 1).data ≠ 0 then 0 else 1)].filter fun v => decide (v < 8)) ⟨(x 0).data, tagOf [0, 1], false⟩ fun _ => True) ∧
    (op = .repeat → has 0 → has 1 → ∀ left, left = (t.repeatLeft).getD (x 1).data.toNat → left ≠ 0 →
      fires .fuRepeat { t with repeatLeft := if left = 1 then none else some (left - 1) } all ⟨(x 0).data, tagOf [0, 1], false⟩ fun _ => True) ∧
    (op = .tag → has 0 → (var % 2 = 0 → fires .fuTag t all ⟨(x 0).data, BitVec.ofNat 7 k, false⟩ fun _ => True) ∧
      (var % 2 = 1 → fires .fuTag { t with counter := if t.counter + 1 < k then t.counter + 1 else 0 } all ⟨(x 0).data, BitVec.ofNat 7 t.counter, false⟩ fun _ => True)) ∧
    (op = .untag → has 0 → fires .fuUntag t all ⟨(x 0).data, 0, false⟩ fun _ => True) ∧
    (op = .tagck → has 0 → (tagOf [0]).toNat = t.counter →
      fires .fuTagck { t with counter := if t.counter + 1 < k then t.counter + 1 else 0 } all ⟨(x 0).data, 0, false⟩ fun _ => True) ∧
    (op = .acc → t.owesMarker = false → taskIn t.word 0 < 8 → taskIn t.word 1 < 8 →
      (has 0 → n.inHead site.x site.y (taskIn t.word 1) s.fc = none →
        fires .fuAcc { t with sum := accAdd var (taskLanes t.word) t.sum (x 0).data } [] (x 0) fun _ => True) ∧
      (has 1 → n.inHead site.x site.y (taskIn t.word 0) s.fc = none → fires .fuAcc { t with sum := 0 } all ⟨t.sum, (x 1).tag, false⟩ fun _ => True)) ∧
    (op = .count → leaf .fuCount ∧ len = k % 2 ^ 32 ∧ ∀ j, passWord e t op j = BitVec.ofNat 64 j) ∧
    (op = .agen → leaf .fuAgen) ∧
    (op = .ldt → has 0 → (x 0).data.toNat < 24576 → fires .fuLdt t all ⟨Map.get 0 (n.tile site.x site.y).words (x 0).data.toNat, tagOf [0], false⟩ fun _ => True) ∧
    (op = .stt → has 0 → has 1 → (x 0).data.toNat < 24576 → ∃ v, fires .fuStt t all ⟨v, tagOf [0, 1], false⟩ fun n' =>
      ∀ a, Map.get 0 (n'.tile site.x site.y).words a = if a = (x 0).data.toNat then (x 1).data else Map.get 0 (n.tile site.x site.y).words a) ∧
    (op = .owner → has 0 → has 1 → (x 0).data.toNat < 24576 → ∀ o, nmOp (var % 16) = some o → ∃ v, fires .fuOwner t all ⟨v, tagOf [0, 1], false⟩ fun n' =>
      ∀ a, Map.get 0 (n'.tile site.x site.y).words a = if a = (x 0).data.toNat
        then AtomicOp.apply o (if nmWordOnly (var % 16) then 4 else 8) (Map.get 0 (n.tile site.x site.y).words a) (x 1).data 0
        else Map.get 0 (n.tile site.x site.y).words a) ∧
    (let act (i : FuSite → Instr) := ∀ a c, n.ctlPlan site.x site.y site.task t op = some a → n.ctls[a.node]? = some c → a.node ∉ a.permits → a.permits.Nodup →
       (∀ j ∈ a.permits, ∃ d, n.ctls[j]? = some d) → ∃ u n' c', exec (i site) s = .next u ∧ u.annex.insts.look site.inst = some n' ∧ n'.ctls[a.node]? = some c' ∧
         (a.done = true → c'.running = false ∧ c'.doneAt = (if c.parent.isSome then c.doneAt ++ [s.fc + 2] else c.doneAt) ∧ (c.parent = none → n'.rootDone = true)) ∧
         (a.done = false → (∀ j ∈ a.permits, Map.get 0 c'.issued j = Map.get 0 c.issued j + 1 ∧ ∃ d, n'.ctls[j]? = some d ∧ d.permitAt = some (s.fc + 2)) ∧
           ∀ j, j ∉ a.permits → Map.get 0 c'.issued j = Map.get 0 c.issued j)
     (op = .ctlSeq → act .fuCtlSeq) ∧ (op = .ctlPipe → act .fuCtlPipe) ∧ (op = .ctlStream → act .fuCtlStream))

/-- R207, R208, R216, R218, R219, R233, R420. The steps of a core between instructions: the read clocks creep, records come back
into free entries, a long-held strand is swapped out, `rgrow` is granted or a group spilled and brought back, a line of
instructions comes in, and a finished group retires, with its block when it was the last. Which of two strands that were placed in
one cc is swapped (LOG 162), and which of two requests of groups with one stamp is granted first (LOG 144), are the model's
choices. -/
def Obligations.CoreEvents : Prop :=
  ∀ (core quad slot : Nat) (s : State),
    let key := gkey core slot
    ((s.core core).service = true → (s.core core).creeps < (s.now - (s.core core).since) / 1024 → ∃ t, exec (.creep core) s = .next t ∧ t.mem = s.mem ∧
      ∀ k g, s.groups.look k = some g → t.groups.look k = some (if keyCore k = core then { g with rclk := g.rclk + 1 } else g)) ∧
    (∀ r g e, (s.core core).docent.find? (fun r => (s.groups.look (gkey core r.slot)).any Group.refills) = some r →
      s.groups.look (gkey core r.slot) = some g → g.freeEntry = some e →
      ∃ t g', exec (.refill core) s = .next t ∧ t.mem = s.mem ∧ t.strandAt { core := core, slot := r.slot, entry := e } = some (g', r.strand s.now) ∧ g'.SameRegs g) ∧
    (∀ g e st r rest, s.groups.look key = some g → g.stopping = .running → g.frames = [] → g.calling = false → g.stackMode = false → g.freeEntry = none →
      g.swapSince + 4096 ≤ s.now → s.swapVictim key g = some (e, st) → g.saveList = [] → (s.core core).docent.length < 4096 → (s.core core).recordsOf slot = r :: rest →
      ∃ t g', exec (.swap core slot) s = .next t ∧ t.mem = s.mem ∧ t.strandAt { core := core, slot := slot, entry := e } = some (g', r.strand s.now) ∧ g'.SameRegs g ∧
        (t.core core).recordsOf slot = rest ++ [st.record slot]) ∧
    (∀ k g entry n q st, s.oldestRequest core quad = some (k, g, entry, n, q) → g.nregs / 16 + n ≤ 16 → n ≤ s.freeGranules core quad → g.strands.look entry = some st →
      ∃ t g', exec (.rgrowGrant core quad) s = .next t ∧ t.groups.look k = some g' ∧ g'.nregs = g.nregs + 16 * n ∧ g'.strands.look entry = some (st.goto (st.pc + 8)) ∧
        (∀ k, g'.sreg k = g.sreg k) ∧ (∀ k l, l < 32 → g'.predBit k l = g.predBit k l) ∧ ∀ k l, l < 32 → g'.vreg k l = if k < g.nregs then g.vreg k l else 0) ∧
    (∀ x k g, s.oldestRequest core quad = some x → s.freeGranules core quad < x.2.2.2.1 → Map.get 0 (s.core core).growSince quad + 4096 ≤ s.now →
      (∀ e ∈ s.inQuad core quad, e.2.blocked = true ∧ (e ≠ (k, g) → e.2.stamp < g.stamp)) → (k, g) ∈ s.inQuad core quad → g.ops = [] → g.matrixQuiet = true →
      ∃ t, exec (.rgrowSpill core quad) s = .next t ∧ t.groups.look k = none ∧ t.mem = s.mem ∧
        (t.core core).spilled = (s.core core).spilled ++ [(quad, g.spill ((s.core core).recordsOf (keySlot k)))]) ∧
    (∀ g n, (s.core core).spilled.find? (fun x => x.1 == quad && !s.groupEvicting x.2) = some (quad, g) → s.freeSlot core quad = some n → g.nregs / 16 ≤ s.spareGranules core quad →
      ∃ t g', exec (.spilledReturn core quad) s = .next t ∧ t.groups.look (gkey core n) = some g' ∧ g'.stamp = s.now ∧ s.floor.toNat ≤ g'.rclk.toNat ∧
        g.rclk.toNat ≤ g'.rclk.toNat ∧ g'.SameRegs g ∧ g'.strands = g.strands.map fun e => (e.1, e.2.resumed)) ∧
    (∀ r g st pa, s.strandAt r = some (g, st) → s.fetch r.core g st.pc = .miss pa → lineRemote (pa / 64) = false → g.rclk.toNat + g.lease.toNat < 2 ^ 40 →
      ∃ t, exec (.instructionFetch r) s = .next t ∧ t.groups = s.groups ∧ t.mem.bytes = s.mem.bytes ∧
        t.fetch r.core g st.pc = .word (BitVec.ofNat 64 (lineValue (s.homeView (pa / 64)).data (pa % 64) 8)) (s.homeView (pa / 64)).wts ∧
        (g.rclk + g.lease).toNat ≤ (t.homeView (pa / 64)).rts.toNat) ∧
    (∀ g, s.groups.look key = some g → s.finished key g = true → g.frames = [] → g.matrixQuiet = true → g.ops = [] →
      ∃ t, exec (.groupRetire core slot) s = .next t ∧ t.groups.look key = none ∧
        (s.matrixWaiter key g = none → (∀ l, s.belfry.launches.look g.launch = some l → l.terminating = false ∧ 1 < l.blocksLeft) → t.mem.bytes = s.mem.bytes) ∧
        ((∀ e ∈ s.groups, e.2.block = g.block → e.1 = key) → s.hasSpilled g.block = false → t.blocks.look g.block = none))

/-- R224, R237, R286, R287, R368, R372, R373, R375, R378, R380, R381, R407, R408. The steps of memory that no instruction waits on alone: a
line leaves its slice, by eviction or by a snoop that the keys allow; the owners of host and peer lines answer, a host with an error
too; an owner node applies the head of its queue; a row takes a contribution while it waits for some, and a surplus one changes no
byte and counts as misuse. What a request is follows from the binding that held its line when it arrived (LOG 72); a line of a slice
that cannot be read is lost when it leaves (R407). -/
def Obligations.MemoryEvents : Prop :=
  ∀ (s : State),
    (∀ line h, s.mem.l2.look line = some h →
      let leaves (o : Res) := ∃ t, o = .next t ∧ t.mem.l2.look line = none ∧ (∀ k, k ≠ line → t.mem.l2.look k = s.mem.l2.look k) ∧
        t.mtsOf (s.mem.slice line) = tmax (s.mtsOf (s.mem.slice line)) (s.cur h.rts) ∧ t.groups = s.groups ∧
        (h.dirty = true → s.mem.badL2.contains line = true → t.mem.bad.contains line = true) ∧
        ∀ a, t.mem.byte a = if h.dirty = true ∧ s.mem.badL2.contains line = false ∧ 64 * line ≤ a ∧ a < 64 * line + 64 then lineByte h.data (a - 64 * line) else s.mem.byte a
      leaves (exec (.l2Evict line) s) ∧ (lineRemote line = true → (linePeer line = true ∨ s.hostOpen = true) → leaves (exec (.hostSnoop line) s)) ∧
      (lineRemote line = true → linePeer line = false → s.hostOpen = false → exec (.hostSnoop line) s = .next s)) ∧
    (∀ id m data loads toL1 raises seq, s.mem.msgs.look id = some m → m.stage = .atOwner seq → m.kind = .renew loads toL1 raises → m.scope ≠ .sys →
      s.mem.l2.look m.line = none → s.sliceFull m.line = false →
      let answers (o : Res) := ∃ t m' h x y, o = .next t ∧ t.mem.msgs.look id = some m' ∧ m' = { m with stage := .reply x y data false } ∧
        t.mem.l2.look m.line = some h ∧ h.data = data ∧ h.dirty = false ∧ (m.clk + m.lease).toNat ≤ (t.cur h.rts).toNat ∧ t.mem.bytes = s.mem.bytes ∧ t.groups = s.groups
      (lineRemote m.line = true → linePeer m.line = false → answers (exec (.cxlProxyFill id data false) s) ∧
        ∃ t x y, exec (.cxlProxyFill id data true) s = .next t ∧ t.mem.msgs.look id = some { m with stage := .reply x y 0 true } ∧ t.mem.bytes = s.mem.bytes ∧ t.mem.l2 = s.mem.l2) ∧
      (linePeer m.line = true → s.turnAtPeer m = true → (∀ e ∈ s.mem.owner, e.2.work.line ≠ some m.line) → s.ownerAtPeer id = none →
        answers (exec (.peerResponse id data) s))) ∧
    (∀ id m mask d blk seq, s.mem.msgs.look id = some m → m.stage = .atOwner seq → m.kind = .store mask d blk → m.scope = .sys → lineRemote m.line = true →
      linePeer m.line = false → s.mem.l2.look m.line = none → s.lineBad m.line = false →
      (∃ t x y, exec (.cxlGlobalObservation { msg := id, error := true }) s = .next t ∧ t.mem.msgs.look id = some { m with stage := .reply x y 0 true } ∧ t.mem.bytes = s.mem.bytes ∧ t.mem.l2 = s.mem.l2) ∧
      ∃ t m' x y, exec (.cxlGlobalObservation { msg := id, error := false }) s = .next t ∧ t.mem.msgs.look id = some m' ∧ m'.stage = .reply x y 0 false ∧ m.clk.toNat ≤ (t.cur x).toNat ∧
        t.mem.l2.look m.line = none ∧ ∀ i, i < 64 → t.mem.byte (64 * m.line + i) = if mask.getLsbD i = true then lineByte d i else s.mem.byte (64 * m.line + i)) ∧
    (∀ die node id q, s.nodeHead die node = some (id, q) →
      (∀ pa bs, q.work = .store pa bs → q.bound = none → ∃ t, exec (.ownerApply die node) s = .next t ∧ t.mem.owner.look id = none ∧
        ∀ a, t.mem.byte a = if pa ≤ a ∧ a < pa + bs.length then bs.getD (a - pa) 0 else s.mem.byte a) ∧
      (∀ pa op size v cls, q.work = .word pa op size v cls → q.bound = none → s.mem.bad.contains (pa / 64) = false →
        let new := AtomicOp.apply op size (BitVec.ofNat 64 (leValue ((List.range size).map fun i => s.mem.byte (pa + i)))) v 0
        ∃ t, exec (.ownerApply die node) s = .next t ∧ t.mem.owner.look id = none ∧
          ∀ a, t.mem.byte a = if pa ≤ a ∧ a < pa + size then BitVec.ofNat 8 (new.toNat / 2 ^ (8 * (a - pa))) else s.mem.byte a) ∧
      (∀ i b, q.bound = some i → s.mem.landings.look i = some b → (∃ pa bs, q.work = .store pa bs ∧ ¬(pa % 64 = 0 ∧ bs.length = 64 ∧ b.lines.head? ≠ some (pa / 64))) ∨
          (∃ pa op size v cls, q.work = .word pa op size v cls) →
        ∃ t, exec (.ownerApply die node) s = .next t ∧ t.mem.owner.look id = none ∧ t.mem.bytes = s.mem.bytes ∧
          (t.node q.die q.node).misuse = satAdd (s.node q.die q.node).misuse)) ∧
    (∀ die index k q pa bs id b, s.nodeHead die index = some (k, q) → q.work = .store pa bs → pa % 64 = 0 → bs.length = 64 →
      q.bound = some id → s.mem.landings.look id = some b → b.lines.head? ≠ some (pa / 64) →
      (Map.get 0 b.count (pa / 64) < b.e → s.mem.bad.contains (pa / 64) = false → b.ordered = false → (b.doneVa = 0 ∨ ∃ l ∈ b.lines.drop 1, l ≠ pa / 64 ∧ Map.get 0 b.count l ≠ b.e) →
        ∃ t, exec (.landingContribution die index) s = .next t ∧ t.mem.owner.look k = none ∧
          (∀ i, i < 64 → t.mem.byte (pa + i) = lineByte (rowAdd b.fmt (s.mem.line (pa / 64)) (BitVec.ofNat 512 (leValue bs))) i) ∧
          ∀ a, a / 64 ≠ pa / 64 → t.mem.byte a = s.mem.byte a) ∧
      (b.e ≤ Map.get 0 b.count (pa / 64) → ∃ t, exec (.landingContribution die index) s = .next t ∧ t.mem.owner.look k = none ∧ t.mem.bytes = s.mem.bytes ∧
        (t.node b.die (paNode pa)).misuse = satAdd (s.node b.die (paNode pa)).misuse)) ∧
    (∀ die node, ∃ t r, exec (.ownerCounterReport die node) s = .next t ∧ t.service.ring.getLast? = some r ∧ r.kind = 11 ∧
      r.detail = (s.node die node).mix ∧ r.address = (s.node die node).misuse.setWidth 64 ∧ t.mem = s.mem)

/-- R178, R262, R268, R269, R276, R277, R279-R281, R283, R284, R291, R329, R352-R354, R360, R361. The steps that move tokens, permits and credits, swap
stages, perform the accesses of a port and translate its pages. A source that was released while it had no credit sends its marker
with the credit that comes back. -/
def Obligations.TokenEvents : Prop :=
  ∀ (s : State),
    (∀ (h : RouteRef) (n : Inst) (r : Route), s.annex.insts.look h.inst = some n → n.state = .running → n.routes[h.route]? = some r →
      let goes (p : State → Inst → Prop) := ∃ t n', exec (.tokenMove h) s = .next t ∧ t.annex.insts.look h.inst = some n' ∧ t.mem = s.mem ∧ t.groups = s.groups ∧ p t n'
      let branchOf (n' : Inst) (j : Nat) (p : Branch → Prop) := ∃ r' b', n'.routes[h.route]? = some r' ∧ r'.branches[j]? = some b' ∧ p b'
      (∀ x since, h.hop = 0 → r.kind = 0 → (Map.get {} (n.elem r.x r.y).outs r.vc).head s.fc = some (x, since) → (∀ b ∈ r.branches, b.hops ≠ [] ∧ (b.hops.headD {}).accepts 2 s.fc = true) →
        goes fun _ n' => (Map.get {} (n'.elem r.x r.y).outs r.vc).toks = (Map.get {} (n.elem r.x r.y).outs r.vc).toks.tail ∧
          ∀ j b, r.branches[j]? = some b → branchOf n' j fun b' => b'.hops[0]? = some ((b.hops.headD {}).push x s.fc (s.fc + 1)) ∧ b'.hops.tail = b.hops.tail) ∧
      (∀ b p q x since, r.branches[h.branch]? = some b → h.hop ≠ 0 → b.hops[h.hop - 1]? = some p → b.hops[h.hop]? = some q → p.head s.fc = some (x, since) → q.accepts 2 s.fc = true →
        goes fun _ n' => branchOf n' h.branch fun b' => b'.hops[h.hop - 1]? = some (p.pop s.fc) ∧ b'.hops[h.hop]? = some (q.push x s.fc (s.fc + 1))) ∧
      (∀ b x since, r.branches[h.branch]? = some b → h.hop = b.hops.length → b.hops ≠ [] → b.last.head s.fc = some (x, since) →
        (∀ p, b.kind = 2 → s.annex.ports.look (64 * n.die + b.number) = some p → p.inst = some h.inst → p.wr.accepts 16 s.fc = true →
          goes fun t n' => t.annex.ports.look (64 * n.die + b.number) = some { p with wr := p.wr.push x s.fc (s.fc + 4) } ∧
            branchOf n' h.branch fun b' => b'.last = b.last.pop s.fc) ∧
        (b.kind = 1 → (n.tile b.x b.y).mode = 1 → (n.tile b.x b.y).fifo.accepts ((n.tile b.x b.y).n + 1) s.fc = true →
          goes fun _ n' => (n'.tile b.x b.y).fifo = (n.tile b.x b.y).fifo.push x s.fc (s.fc + 2) ∧ branchOf n' h.branch fun b' => b'.last = b.last.pop s.fc))) ∧
    (∀ inst n, s.annex.insts.look inst = some n →
      let goes (i : Instr) (p : State → Inst → Prop) := ∃ t n', exec i s = .next t ∧ t.annex.insts.look inst = some n' ∧ t.mem = s.mem ∧ t.groups = s.groups ∧ p t n'
      let pays (g : Region) (e : Endpoint) : Endpoint := if g.state = .running ∧ e.ending = true ∧ e.credits ≠ 0 then
        { e with ending := false, credits := e.credits - 1, buf := e.buf.push (marker 0) s.fc (s.fc + 1) } else e
      (∀ (x y task k : Nat) tl, n.tiles.look (ekey x y) = some tl → n.state = .running → tl.mode = 2 → tl.out.accepts 3 s.fc = true →
        (tl.pass = some ⟨k⟩ ∨ (tl.pass = none ∧ tl.permits ≠ 0 ∧ k = 0)) → k < (tl.n + 1) * (tl.rep + 1) →
        goes (.tileStreamOut ⟨inst, x, y, task⟩) fun _ n' => ∃ tl', n'.tiles.look (ekey x y) = some tl' ∧ tl'.words = tl.words ∧
          tl'.out = tl.out.push ⟨Map.get 0 tl.words (tl.base + k % (tl.n + 1)), 0, false⟩ s.fc (s.fc + 1) ∧
          tl'.pass = (if tl.e = false ∧ k + 1 = (tl.n + 1) * (tl.rep + 1) then none else some ⟨k + 1⟩)) ∧
      (∀ node c f, n.ctls[node]? = some c → c.permitAt = some f → f ≤ s.fc →
        (n.children node ≠ [] → goes (.permit inst node) fun _ n' => ∃ c', n'.ctls[node]? = some c' ∧ c'.running = true ∧ c'.issued = [] ∧ c'.done = [] ∧ c'.permitAt = none) ∧
        (∀ tk, n.children node = [] → c.tile = false → (n.elem c.x c.y).tasks[c.task]? = some tk →
          goes (.permit inst node) fun _ n' => (n'.elem c.x c.y).tasks[c.task]? = some { tk with permits := tk.permits + 1 })) ∧
      (∀ node c f rest, n.ctls[node]? = some c → c.doneAt = f :: rest → f ≤ s.fc →
        (c.parent = none → goes (.doneToken inst node) fun _ n' => n'.rootDone = true) ∧
        (∀ p d, c.parent = some p → p ≠ node → n.ctls[p]? = some d → goes (.doneToken inst node) fun _ n' => ∃ d', n'.ctls[p]? = some d' ∧
          Map.get 0 d'.done node = Map.get 0 d.done node + 1 ∧ ∀ k, k ≠ node → Map.get 0 d'.done k = Map.get 0 d.done k)) ∧
      (∀ ep g e, s.annex.regions.look n.region = some g → g.eps.look ep = some e →
        (e.returning = [] → e.credits + s.outstanding n.region g ep e < 64 → (e.kind ≠ 3 → e.bound.isSome = true ∨ e.ending = true) → goes (.creditReturn inst ep) fun t n' => n' = n ∧ ∃ g',
          t.annex.regions.look n.region = some g' ∧ g'.eps.look ep = some (pays g (if e.kind = 3 then { e with returning := [s.fc] } else { e with credits := e.credits + 1 }))) ∧
        (∀ f rest, e.returning = f :: rest → f + 24 ≤ s.fc → goes (.creditReturn inst ep) fun t n' => n' = n ∧ ∃ g',
          t.annex.regions.look n.region = some g' ∧ g'.eps.look ep = some (pays g { e with credits := e.credits + 1, returning := rest }))) ∧
      (let ns := s.instsOf n.region
       let all (o : Res) (f : Inst → Inst) := ∃ t, o = .next t ∧ t.mem = s.mem ∧ t.groups = s.groups ∧ ∀ e ∈ ns, t.annex.insts.look e.1 = some (f e.2)
       (inst, n) ∈ ns →
       (∀ k, (∃ e ∈ ns, e.2.state = .running) → (∀ e ∈ ns, (e.2.state = .running ∨ e.2.state = .completing) ∧ e.2.nextStage = none ∧ e.2.stage = n.stage ∧ e.2.stageSince = n.stageSince) →
         ((∀ e ∈ ns, ∀ f, e.2.lastFire = some f → f + 64 ≤ s.fc) ∧ ((∃ e ∈ ns, e.2.lastFire ≠ none) ∨ n.stageSince + 63 ≤ s.fc) ∨ n.stageSince + 65536 ≤ s.fc) →
         k < 8 → k ≠ n.stage → stageSum ns k s.fc ≠ 0 → (∀ j, j < 8 → j ≠ n.stage → j ≠ k → stageSum ns j s.fc < stageSum ns k s.fc ∨ (stageSum ns j s.fc = stageSum ns k s.fc ∧ k < j)) →
         all (exec (.stageSwap inst) s) fun m => { m with nextStage := some (k, none) }) ∧
       (∀ k, (∀ e ∈ ns, e.2.nextStage = some (k, none) ∧ s.storesDone e.1 = true) → all (exec (.stageEnable inst) s) fun m => { m with nextStage := some (k, some (s.fc + 64)) }) ∧
       (∀ k f, (∀ e ∈ ns, e.2.nextStage = some (k, some f)) → f ≤ s.fc →
         all (exec (.stageEnable inst) s) fun m => { m with stage := k, stageSince := s.fc, lastFire := none, nextStage := none }))) ∧
    (∀ die seq chan q n i j b x, s.annex.seqs.look (32 * die + seq) = some q → s.annex.insts.look q.inst = some n → n.moves = true → chan < 8 →
      n.branchTo 4 (fun b => b.number == seq && b.vc == chan) = some (i, j, b) → b.last.head s.fc = some x →
      ∃ t q', exec (.mailboxAdd die seq chan) s = .next t ∧ t.annex.seqs.look (32 * die + seq) = some q' ∧ q'.readStore (4032 + 8 * chan) = q.readStore (4032 + 8 * chan) + 1 ∧
        (∀ a, a < 4032 + 8 * chan ∨ 4040 + 8 * chan ≤ a → q'.byteAt a = q.byteAt a) ∧ q'.pc = q.pc ∧ t.mem = s.mem) ∧
    (∀ die port p, s.annex.ports.look (64 * die + port) = some p →
      let goes (i : Instr) (q : State → Port → Prop) := ∃ t p', exec i s = .next t ∧ t.annex.ports.look (64 * die + port) = some p' ∧ t.groups = s.groups ∧ q t p'
      (∀ c, p.completions.find? p.performed = some c → goes (.completionToken die port) fun t p' => t.mem = s.mem ∧
        p'.cpl = p.cpl.push ⟨BitVec.ofNat 64 c, 0, false⟩ s.fc (s.fc + 1) ∧ p'.completions = p.completions.filter (· != c)) ∧
      (∀ id a, p.accesses.find? (fun a => a.id == id) = some a →
        (∀ k x, a.again = true → p.slotOf a.va = some (k, x) → x.stale = false →
          s.permFault (s.instDomain (p.inst.getD 0)) a.va ⟨x.leaf, x.level⟩ (match a.kind with | .write _ _ => wantStreamWrite | _ => wantStreamRead) = none →
          goes (.streamAccessPerformed die port id) fun t p' => t.mem = s.mem ∧ p'.accesses.find? (fun a => a.id == id) = some (a.placed (Leaf.pa ⟨x.leaf, x.level⟩ a.va))) ∧
        (∀ pa, a.again = false → a.kind = .read pa → a.value = none → p.turn a = true → s.mem.bad.contains (pa / 64) = false → lineRemote (pa / 64) = false →
          goes (.streamAccessPerformed die port id) fun t p' => t.mem = s.mem ∧ p'.rd = p.rd ∧
            p'.accesses.find? (fun a => a.id == id) = some { a with value := some (leValue ((List.range a.size).map fun i => s.mem.byte (pa + i))) }) ∧
        (∀ pa bs, a.again = false → a.kind = .write pa bs → p.turn a = true → goes (.streamAccessPerformed die port id) fun t p' => p'.accesses = p.accesses.filter (fun b => b.id != id) ∧
          ∀ x, t.mem.byte x = if pa ≤ x ∧ x < pa + bs.length then bs.getD (x - pa) 0 else s.mem.byte x) ∧
        (∀ tok v, a.again = false → a.kind = .token tok → a.value = some v → p.oldest = some a → p.rd.accepts 16 s.fc = true →
          goes (.streamAccessPerformed die port id) fun t p' => t.mem = s.mem ∧ p'.rd = p.rd.push tok s.fc (s.fc + 4) ∧ p'.accesses = p.accesses.filter fun b => b.id != id)) ∧
      (∀ va i n, p.wants = some va → p.withheld = none → p.inst = some i → s.annex.insts.look i = some n → n.state = .running ∨ n.state = .draining →
        (∀ x, s.leafOf (s.instDomain i) va wantStreamRead = .inl x → goes (.portTranslate die port) fun _ p' => p'.wants = none ∧ p'.withheld = none ∧ ∃ y,
          p'.extents.look p.victim = some y ∧ y.leaf = x.ent ∧ y.level = x.level ∧ y.va ≤ va ∧ va < y.va + y.size ∧ y.stale = false) ∧
        (∀ detail, s.leafOf (s.instDomain i) va wantStreamRead = .inr (faultPage, detail) → (∃ g, s.annex.regions.look n.region = some g) →
          goes (.portTranslate die port) fun t p' => p'.withheld = some s.nextId ∧ p'.wants = some va ∧ ∃ r, t.faults.undelivered = s.faults.undelivered ++ [r] ∧
            r.id = s.nextId ∧ r.code = faultStream ∧ r.va = BitVec.ofNat 64 va ∧ r.detail = p.where_)) ∧
      (∀ slot x, p.extents.look slot = some x → x.stale = true → (∀ a ∈ p.accesses, a.va < x.va ∨ x.va + x.size ≤ a.va ∨ a.value.isSome = true ∨ a.kind = .replay) →
        goes (.extentRepatch die port slot) fun t p' => t.mem = s.mem ∧
          (∀ l, s.leafOf (s.instDomain (p.inst.getD 0)) x.va wantStreamRead = .inl l → ∃ y, p'.extents.look slot = some y ∧ y.leaf = l.ent ∧ y.level = l.level ∧ y.stale = false) ∧
          (∀ e, s.leafOf (s.instDomain (p.inst.getD 0)) x.va wantStreamRead = .inr e → p'.extents.look slot = none)))

/-- R240, R255, R266, R289-R291, R327, R328, R360-R362, R365. The life of a region: its instances load, from their image or with the
configuration that their squares still hold, and all start together; each completes
when its condition holds and the region with the last, and a draining region is checkpointed once nothing moves or 12 µs have
passed. That a load waits for a port which its image has come to bind and another instance holds is the model's choice (LOG
153). -/
def Obligations.RegionLife : Prop :=
  ∀ (s : State) (region : Nat) (g : Region), s.annex.regions.look region = some g →
    let insts (p : Nat → Inst → Prop) := ∀ i ∈ g.insts, ∃ n, s.annex.insts.look i = some n ∧ p i n
    let reaches (o : Res) (st : RegionState) (p : State → Region → Prop) := ∃ t g', o = .next t ∧ t.annex.regions.look region = some g' ∧ g'.state = st ∧ g'.record = g.record ∧ p t g'
    (∀ inst n, s.annex.insts.look inst = some n → n.region = region → n.state = .loading → n.loaded = false →
      (∀ img, s.readImage g.record.domain g.record.image = .done img →
        (∀ l, s.loadFailure g (some img) = none → g.loadOf (some img) inst n = some l → (∀ c ∈ s.annex.checkpoints, ¬(c.region = region ∧ c.inst.section_ = n.section_)) →
          (s.portsFree inst n l = false → exec (.regionLoad inst) s = .next s) ∧ (s.portsFree inst n l = true →
          let held := s.cachedFor g n (s.stampOf g.record.domain g.record.image img.length)
          ∃ t n', exec (.regionLoad inst) s = .next t ∧ t.annex.insts.look inst = some n' ∧ t.mem = s.mem ∧
            (held = none → n' = { l.inst with stamp := n'.stamp, loaded := true }) ∧
            ∀ c, held = some c → n' = { c.apply l.inst with stamp := n'.stamp, loaded := true })) ∧
        (∀ x, s.loadFailure g (some img) = some x → g.state = .loading → reaches (exec (.regionLoad inst) s) .failed fun _ _ => True)) ∧
      (s.readImage g.record.domain g.record.image = .bad → inst ∈ g.insts → g.state = .loading → reaches (exec (.regionLoad inst) s) .failed fun _ _ => True)) ∧
    (g.state = .loading → g.insts ≠ [] → g.insts.Nodup → insts (fun _ n => n.loaded = true) → reaches (exec (.regionRunning region) s) .running fun t g' => g'.insts = g.insts ∧ t.mem = s.mem ∧
      ∀ i ∈ g.insts, ∃ n, t.annex.insts.look i = some n ∧ n.state = .running ∧ n.stageSince = s.fc) ∧
    (∀ inst n, s.annex.insts.look inst = some n → n.region = region → n.state = .running → s.instDone inst n = true → g.state = .running → inst ∈ g.insts →
      ((∀ i ∈ g.insts, i ≠ inst → ∃ m, s.annex.insts.look i = some m ∧ m.state = .completing) → reaches (exec (.regionComplete inst) s) .completed fun _ g' => g'.insts = []) ∧
      ((∃ i ∈ g.insts, i ≠ inst ∧ ∃ m, s.annex.insts.look i = some m ∧ m.state ≠ .completing) → reaches (exec (.regionComplete inst) s) .running fun t _ =>
        t.annex.insts.look inst = some { n with state := .completing })) ∧
    (g.state = .running → g.insts.Nodup → insts (fun _ _ => True) →
      let drains (o : Res) := reaches o .draining fun t g' => g'.drainFrom = some s.fc ∧ t.mem = s.mem ∧ ∀ i ∈ g.insts, ∃ n, s.annex.insts.look i = some n ∧ t.annex.insts.look i = some { n with state := .draining }
      (s.poolTakes region = true → drains (exec (.regionDrain region) s)) ∧ (s.poolTakes region = false → exec (.regionDrain region) s = .next s) ∧
      (∀ from_, g.timeoutAt = some from_ → from_ + 4000 * (if g.record.timeout = 0 then 50 else g.record.timeout) ≤ s.now → drains (exec (.faultTimeout region) s))) ∧
    (g.state = .draining → (∀ i ∈ g.insts, ∀ n, s.annex.insts.look i = some n → s.instStill i n = true ∧ s.accessesDone i = true) ∨ (∃ f, g.drainFrom = some f ∧ f + 24000 ≤ s.fc) →
      reaches (exec (.regionCheckpoint region) s) .checkpointed fun t g' => g'.insts = [] ∧ t.mem = s.mem ∧ ∀ i ∈ g.insts, t.annex.insts.look i = none ∧
        ∀ n, s.annex.insts.look i = some n → ∃ c ∈ t.annex.checkpoints, c.region = region ∧ c.inst = { n with state := .checkpointed } ∧ c.ports = ((s.annex.ports.filter fun e => e.2.inst == some i).map fun e => (e.1 % 64, e.2)) ∧
          c.seqs = (s.annex.seqs.filter fun e => e.2.inst == i).map fun e => (e.1 % 32, e.2))

/-- R114, R148, R336-R338, R342, R344, R346-R351, R353, R356-R358, R362. The Lantern: records are delivered in order, one that ends its launch
ends it once it is written, a resolution moves on exactly the suspended strand it names, launches and domains are terminated,
invalidations run, and cohorts are evicted and saved. That an invalidation rounds its address down to 64 KiB and waits for what was
in flight when it began (LOG 87), and that a fault found after its callee has been left leaves the caller's strand where it is (LOG
141), are the model's reading. -/
def Obligations.Lantern : Prop :=
  ∀ (s : State),
    (∀ index r s1 pa, s.faults.undelivered[index]? = some r → (∀ x ∈ s.faults.undelivered.take index, x.sameSource r = false) → s.writeRecord r = .done s1 pa →
      let delivers (o : Res) := ∃ t, o = .next t ∧ t.domain r.domain = s1.domain r.domain ∧
        (∀ l, r.fatalTo = some l → ∀ k g, t.groups.look k = some g → g.launch = l → g.stopping = .terminate) ∧
        (∀ k g, t.groups.look k = some g → ∀ x ∈ g.suspends, x.record = r.id → x.seq = (s.domain r.domain).faultSeq) ∧
        (r.flags.getLsbD 0 = true → r.fatalTo = none → s1.sourceOver r = false → ∃ a ∈ t.faults.awaiting, a.record = r ∧ a.pa = pa) ∧
        (r.launch = none → r.region = none → t.faults.undelivered = s1.faults.undelivered.filter fun x => x.id != r.id)
      delivers (exec (.faultDeliver index) s) ∧ delivers (exec (.faultQueueRetry index) s)) ∧
    (∀ id r word va k g x st, s.awaited id = some (r, word, va) → s.groups.look k = some g → g.stopping ≠ .terminate →
      g.suspends.find? (fun y => y.record == id) = some x → g.strands.look x.entry = some st →
      let wakes (i : Instr) (st' : Strand) := ∃ t g', exec i s = .next t ∧ t.mem = s.mem ∧ t.groups.look k = some g' ∧ g'.strands.look x.entry = some st' ∧ g'.SameRegs g ∧
        g'.suspends = g.suspends.filter (fun y => y.record != id) ∧ ∀ e, e ≠ x.entry → g'.strands.look e = g.strands.look e
      (word = 1 → r.source = 0 → r.code = faultPage → wakes (.resolutionReplay id) { st with wait := .ready, replay := if x.lanes = 0 then none else some x.lanes }) ∧
      (word = 2 → r.source = 0 → r.flags.getLsbD 2 = true → r.code ≠ faultPage → va % 8 = 0 → wakes (.resolutionResume id) (if x.late = true then st else st.goto (BitVec.ofNat 64 va))) ∧
      (word = 5 → r.source = 0 → r.code = faultWatch → r.detail = watchDetail 1 0 → wakes (.resolutionContinue id) (st.goto (st.pc + 8)))) ∧
    (∀ id r va k g x fr rest, s.awaited id = some (r, 3, va) → r.source = 0 → r.flags.getLsbD 2 = true → g.stopping ≠ .terminate → x ∈ g.suspends → x.record = id → (∀ y ∈ g.suspends, y.record = id → y.late = false) →
      (∀ e ∈ s.groups, e.1 ≠ k → ∀ y ∈ e.2.suspends, y.record ≠ id) → Map.rising none s.groups = true → s.groups.look k = some g → g.mayLeave = true → g.frames = fr :: rest →
      ∃ t g', exec (.resolutionAbort id) s = .next t ∧ t.groups.look k = some g' ∧ g'.frames = rest ∧ g'.domain = fr.caller ∧ (fr.d ≠ 0 → g'.sreg fr.d = 2) ∧ g'.suspends = []) ∧
    (∀ id r va, s.awaited id = some (r, 4, va) → r.flags.getLsbD 2 = false →
      (∀ l, r.launch = some l → ∃ t, exec (.resolutionTerminate id) s = .next t ∧ ∀ k g, t.groups.look k = some g → g.launch = l → g.stopping = .terminate) ∧
      (∀ region g, r.launch = none → r.region = some region → s.annex.regions.look region = some g → g.state = .running →
        ∃ t g', exec (.resolutionTerminate id) s = .next t ∧ t.annex.regions.look region = some g' ∧ g'.state = .failed)) ∧
    (∀ queue slot q id l, s.belfry.queues.look queue = some q → s.belfry.launches.find? (fun e => e.2.queue == queue && e.2.slot == slot) = some (id, l) → l.terminating = false →
      ∀ who, Requester.may s who q.domain = true → ∃ t, exec (.terminationRequest who queue slot) s = .next t ∧ (∀ k g, t.groups.look k = some g → g.launch = id → g.stopping = .terminate) ∧
        ∃ r ∈ t.faults.undelivered, r.code = faultWatch ∧ r.detail = watchDetail 6 0 ∧ r.launch = some id ∧ r.domain = q.domain) ∧
    (∀ d, (s.domain d).state = .active → ∃ t, exec (.quarantine .host d) s = .next t ∧ (t.domain d).state = .quarantined ∧
      ∀ k g l, t.groups.look k = some g → s.belfry.launches.look g.launch = some l → l.record.domain = d → l.terminating = false → g.stopping = .terminate) ∧
    (∀ d cb bs t0, (s.domain d).invalidation = none → (s.domain d).revocations = [] → s.controlBlock d = some cb → 4 ≤ fieldAt cb 16 1 → fieldAt cb 16 1 ≤ 12 →
      fieldAt cb 8 8 % 32 = 0 → (s.domain d).invRead < fieldAt cb 24 8 →
      s.belfryRead (s.domain d).manager (BitVec.ofNat 64 (fieldAt cb 8 8 + 32 * ((s.domain d).invRead % 2 ^ fieldAt cb 16 1))) 32 = .ok bs t0 →
      fieldAt bs 12 1 / 2 = 0 → fieldAt bs 13 3 = 0 → fieldAt bs 24 8 = 0 →
      ∃ t r, exec (.invalidationRequest d) s = .next t ∧ (t.domain d).invalidation = some r ∧ r.va = fieldAt bs 0 8 / 65536 * 65536 ∧ r.units = fieldAt bs 8 4 ∧
        r.barrier = BitVec.ofNat 64 (fieldAt bs 16 8) ∧ (r.all = true ↔ fieldAt bs 12 1 = 1) ∧ (r.all = true → (t.domain d).root = fieldAt cb 0 8) ∧ t.groups = s.groups ∧
        ∀ k, t.mem.tlb.look k = if k % 2 ^ 52 / 2 ^ 45 = d ∧ r.coversVa (k % 2 ^ 45 * 65536) 65536 = true ∧ s.pinned d (k % 2 ^ 45) = false then none else s.mem.tlb.look k) ∧
    (∀ d r, (s.domain d).invalidation = some r → r.curator = none → (∀ c ∈ r.covered, ∀ g, s.groups.look c.1 = some g → ∀ o ∈ g.ops, o.id = c.2 → o.left = 0) → (∀ id ∈ r.messages, s.mem.msgs.look id = none) →
      (∀ e ∈ s.annex.ports, s.portOf d e.2 = true → (∀ x ∈ e.2.extents, x.2.stale = false) ∧ ∀ a ∈ e.2.accesses, r.coversVa a.va a.size = true → a.value.isSome = true ∨ a.kind = .replay) →
      s.ringPinned d r = false → ∃ t, exec (.invalidationComplete d) s = .next t ∧ (t.domain d).invalidation = none ∧ (t.domain d).invRead = (s.domain d).invRead + 1) ∧
    (∀ l c lr, s.belfry.launches.look l = some lr → lr.terminating = false → s.cohortBlocks l c ≠ [] → (∀ e ∈ s.faults.evictions, ¬(e.1 = l ∧ e.2.1 = c)) →
      ∃ t, exec (.evictCohort l c false) s = .next t ∧ t.mem = s.mem ∧ t.faults.evictions = s.faults.evictions ++ [(l, c, false)] ∧
        ∀ k g, s.groups.look k = some g → t.groups.look k = some (if (∃ b ∈ s.cohortBlocks l c, b.1 = g.block) ∧ g.stopping = .running then { s.markMatrix k g with stopping := .evict } else g)) ∧
    (∀ l c p, s.faults.evictions.find? (fun e => e.1 == l && e.2.1 == c) = some (l, c, p) → (∀ b ∈ s.cohortBlocks l c, ∀ e ∈ s.groupsOf b.1, s.atRest e.1 e.2 = true) →
      ∃ t, exec (.quiescence l c) s = .next t ∧ t.mem.bytes = s.mem.bytes ∧ ∀ b ∈ s.cohortBlocks l c, t.blocks.look b.1 = none ∧
        (∃ x ∈ t.faults.saves, x.launch = l ∧ x.cohort = c ∧ x.block = b.1 ∧ x.data = b.2) ∧ ∀ e ∈ s.groupsOf b.1, t.groups.look e.1 = none) ∧
    (∀ index x, s.faults.saves[index]? = some x → x.reserve.isSome = true → s.poolTaken + x.size ≤ Config.savePool →
      ∃ t, exec (.saveMove index) s = .next t ∧ t.faults.saves[index]? = some { x with reserve := none } ∧ t.mem = s.mem ∧ t.groups = s.groups)

/-- R200, R202, R203, R227, R313, R316-R320, R323-R327, R330, R392. The Belfry: a written slot becomes a packet however the
Belfry comes to read it, with the largest of the slot's write time and the wclk that its launch carried; Parse checks it; the
head becomes ready when its waits are reached; ready work ages and is placed; cores change their carve-out once all the cores
of the change are idle, and the cohort that the change was for is placed. That a change is applied to all its cores together
and its cohort placed in that step, and that the copies go only where the L1 shrinks, are the model's reading (LOG 84). -/
def Obligations.Belfry : Prop :=
  ∀ (s : State) (queue : Nat) (q : Queue), s.belfry.queues.look queue = some q →
    let ends (o : Res) (p : State → Queue → Prop) := ∃ t q', o = .next t ∧ t.belfry.queues.look queue = some q' ∧ t.groups = s.groups ∧ t.mem.bytes = s.mem.bytes ∧ p t q'
    let started (t : State) (r : LaunchRec) (k : Nat) (cores : List Nat) := ∀ (i number core : Nat), (r.members k)[i]? = some number → cores[i]? = some core →
      ∃ id b, t.blocks.look id = some b ∧ b.number = number ∧ b.core = core ∧ b.spad = [] ∧ b.groups = r.groups ∧ b.claim = none ∧ b.arrival = [] ∧ b.scratchKiB = r.scratch
    let refuses (o : Res) (p : Packet) (rest : List Packet) (cause : Nat) (va : Dword) := ∃ t q', o = .next t ∧ t.belfry.queues.look queue = some q' ∧ t.groups = s.groups ∧ q'.packets = rest ∧
      ∃ r ∈ t.faults.undelivered, r.code = faultLaunch ∧ r.detail = BitVec.ofNat 64 cause ∧ r.queue = queue ∧ r.slot = p.slot ∧ r.va = va
    (∀ bs t0 raw wts, q.descriptor ≠ 0 → q.cached = true → (q.stop = .running ∨ q.packets = []) → s.belfryRead q.domain q.descriptor 64 = .ok bs t0 → fieldAt bs 16 8 = q.fetch + 1 → q.fetch ≤ q.readIndex + 4 →
      (s.noteRead q.domain q.descriptor 64).belfryRead q.domain (q.ring + BitVec.ofNat 64 (128 * (q.fetch % 2 ^ q.size))) 128 = .ok raw wts → fieldAt raw 64 1 ≠ 0 →
      let fetches (o : Res) := ends o fun _ q' => ∃ p, q'.packets = q.packets ++ [p] ∧ p.slot = q.fetch ∧ p.raw = raw ∧ p.start = tmax wts ((s.carried queue q.fetch).getD 0) ∧ p.parsed = false ∧ q'.fetch = q.fetch + 1 ∧ q'.stop = .running
      (q.stop = .running → fetches (exec (.slotReread queue) s) ∧ (s.noticed queue = true → fetches (exec (.belfryNotice queue) s))) ∧
      (q.stop ≠ .running → fetches (exec (.queueFaultRetry queue) s) ∧ (s.noticed queue = true → fetches (exec (.queueRestart queue) s)))) ∧
    (∀ p, s.toParse q = some p → s.parseWait p = none →
      (∀ w, s.parsePacket q p = .inr w → ends (exec (.parse queue) s) fun _ q' => q'.packets = q.packets.map fun x => if x.slot = p.slot then { x with parsed := true, work := some w } else x) ∧
      (∀ cause va rest, s.parsePacket q p = .inl (cause, va) → q.packets = p :: rest → refuses (exec (.parse queue) s) p rest cause va) ∧
      (fieldAt p.raw 64 1 = 1 → fieldAt p.raw 0 8 % 8 ≠ 0 → s.parsePacket q p = .inl (1, 0))) ∧
    (∀ p rest w, q.packets = p :: rest → p.parsed = true → q.stop = .running → p.launch = none → p.ready = none → (s.domain q.domain).state ≠ .quarantined →
      (s.lateRetired p = true → refuses (exec (.packetHead queue) s) p rest 70 0) ∧
      (s.lateRetired p = false → (∀ x ∈ p.waits, x.va = 0) → p.prev = false → q.serial = false → p.work = some w → (∀ r, w = .launch r → r.blocks ≠ 0) →
      ends (exec (.packetHead queue) s) fun _ q' => ∃ p', q'.packets = p' :: rest ∧ p'.ready = some s.now ∧ p'.work = p.work)) ∧
    (∀ p rest entry w bs wts pa near, q.packets = p :: rest → q.stop = .running → p.waits[entry]? = some w → w.registered = true → w.satisfied = false → w.va ≠ 0 →
      s.belfryRead q.domain w.va 32 = .ok bs wts → s.trans q.domain w.va wantLoad = .ok pa near → (fieldAt bs 24 4 + 2 ^ 32 - w.gen.toNat) % 2 ^ 32 < 2 ^ 31 →
      (∀ r, p.work = some (.launch r) → r.blocks ≠ 0) →
      let wakes (o : Res) := ends o fun _ q' => ∃ p' rest', q'.packets = p' :: rest' ∧ p'.waits[entry]? = some { w with satisfied := true } ∧ wts.toNat ≤ p'.start.toNat
      wakes (exec (.waitReread queue entry) s) ∧ ((∃ x ∈ s.belfry.waiters, x.2.1 = queue ∧ x.2.2 = entry) → wakes (exec (.waitNotice queue entry) s))) ∧
    (ends (exec (.priorityAging queue) s) fun t q' => t.mem = s.mem ∧ q' = { q with packets := q.packets.map fun p => { p with aged := match p.ready with | some t => (s.now - t) / 200000 | none => 0 } }) ∧
    (ends (exec (.backfillExpiry queue) s) fun t q' => t.mem = s.mem ∧ q' = { q with packets := q.packets.map fun p => { p with expired := match p.blocked with | some t => decide (t + 200000 ≤ s.now) | none => false } }) ∧
    (∀ c (cores : List Nat) r k, pick s.ageAll.launchOrder s.ageAll.planLaunch (fun _ _ => true) [] = some (c, cores) → c.cand = .packet queue → s.ageAll.nextCohort queue = some (r, k) →
      ∃ t, exec .placeCohort s = .next t ∧ started t r k cores) ∧
    (∀ launch block b r start g slot, s.freeSlot b.core (g % 4) = some slot → ∃ x, (s.startGroup launch block b r start g).groups.look (gkey b.core slot) = some x ∧
      x.block = block ∧ x.groupid = g ∧ x.domain = r.domain ∧ x.nregs = r.regs ∧ x.rclk = start ∧ x.wclk = start ∧ x.lease = BitVec.ofNat 40 (if r.lease = 0 then 64 else r.lease) ∧ x.sreg 1 = r.arg ∧
      (∀ n l, x.vreg n l = 0) ∧ (∀ e st, x.strands.look e = some st → e = 0 ∧ st.pc = r.code ∧ st.mask = x.live) ∧ x.frames = []) ∧
    (∀ c (plan : List (Nat × Nat × Nat × Nat)) r, pick s.ageAll.regionOrder s.ageAll.planFor s.ageAll.shareDie [] = some (c, plan) → c.cand = .packet queue → s.ageAll.regionOf c = some (r, []) →
      ∃ t g, exec .placeRegion s = .next t ∧ t.annex.regions.look s.nextId = some g ∧ g.state = .loading ∧ g.record = r ∧ g.queue = queue ∧ g.insts.length = plan.length ∧
        ∀ (k die sec sx sy : Nat), plan[k]? = some (die, sec, sx, sy) → ∃ i n, g.insts[k]? = some i ∧ t.annex.insts.look i = some n ∧ n.region = s.nextId ∧ n.die = die ∧ n.section_ = sec ∧
          n.sx = sx ∧ n.sy = sy ∧ n.state = .loading ∧ n.loaded = false) ∧
    (∀ core, ((s.core core).carveNext = none ∨ ∃ c ∈ s.changing, s.coreIdle c = false) → exec (.carveChange core) s = .next s) ∧
    (∀ core n, (s.core core).carveNext = some n → s.changing = [core] → s.blocksOn core = [] → (∀ e ∈ s.mem.l1, e.1 / 2 ^ 46 = core → e.2.pend = []) →
      ((∀ q', (s.core core).keptFor = some q' → ∀ c ∈ s.launchOrder, c.queue ≠ q') →
        ∃ t, exec (.carveChange core) s = .next t ∧ (t.core core).carve = n ∧ (t.core core).carveNext = none ∧ t.mem.bytes = s.mem.bytes ∧ t.blocks = s.blocks ∧
          (n < (s.core core).carve → ∀ line, line < 2 ^ 46 → t.l1View core line = none)) ∧
      (∀ c cores r k, (s.core core).keptFor = some queue → pick (s.launchOrder.filter fun c => c.queue == queue) (s.applyCarve core).planLaunch (fun _ _ => false) [] = some (c, cores) →
        c.cand = .packet queue → s.nextCohort queue = some (r, k) → ∃ t, exec (.carveChange core) s = .next t ∧ started t r k cores)) ∧
    (∀ num descriptor domain, s.boot = .stage2 → num < 2 ^ 20 → (∃ t, exec (.queueInstall num descriptor domain true) s = .next t ∧ t.belfry.queues.look num = none) ∧
      (descriptor ≠ 0 → descriptor % 64 = 0 → descriptor < 2 ^ 64 → domain < 64 → (s.domain domain).state ≠ .free → ∃ t x, exec (.queueInstall num descriptor domain false) s = .next t ∧
        t.belfry.queues.look num = some x ∧ x.descriptor.toNat = descriptor ∧ x.domain = domain ∧ x.packets = [] ∧ x.stop = .running))

/-- R237, R286, R368, R370, R373, R374, R376-R378, R400, R414. What hosts and peers do to the device: a host access goes through a window and
performs at home; one under a key that is not the owner's reads all ones, and a write leaves a line that cannot be read, whose
times do not fall; a peer request goes through an export entry; grants are made and revoked; and links replay, retrain and lose
lanes. That the host's requests to the Curator are those of domain 0 (LOG 158), the class of a near-memory operator (LOG 75) and
the number of a lane in the service ring (LOG 35) are the model's choice. -/
def Obligations.HostAndPeers : Prop :=
  ∀ (s : State),
    let me := Config.deviceNumber
    let ends (o : Res) (p : State → Prop) := ∃ t, o = .next t ∧ t.groups = s.groups ∧ t.mem.bytes = s.mem.bytes ∧ t.keep = s.keep ∧ p t
    let answers (o : Res) (dev : Nat) (bs : List Byte) := ends o fun t => t.links.replies = s.links.replies ++ [(dev, bs)] ∧ t.mem.l2 = s.mem.l2
    let reads (o : Res) (dev pa n : Nat) := ends o fun t => t.mem = { s.mem with xclk := tmax s.mem.xclk (s.homeView (pa / 64)).wts } ∧
      t.links.replies = s.links.replies ++ [(dev, (List.range n).map fun i => lineByte (s.homeView (pa / 64)).data (pa % 64 + i))]
    let changes (o : Res) (line : Nat) (p : State → LineData → Prop) := ends o fun t => ∃ h, t.mem.l2.look line = some h ∧ h.dirty = true ∧
      t.cur h.wts = tmax s.mem.xclk ((s.homeView line).rts + 1) ∧ t.cur h.rts = t.cur h.wts ∧ t.mem.xclk = t.cur h.wts ∧ (∀ k, k ≠ line → t.mem.l2.look k = s.mem.l2.look k) ∧ p t h.data
    let writes (o : Res) (pa : Nat) (bs : List Byte) (p : State → Prop) := changes o (pa / 64) fun t d => p t ∧ ∀ i, i < 64 →
      lineByte d i = if pa % 64 ≤ i ∧ i < pa % 64 + bs.length then bs.getD (i - pa % 64) 0 else lineByte (s.homeView (pa / 64)).data i
    let steps (o : Res) (dev pa size : Nat) (op : AtomicOp) (v cmp : Dword) := changes o (pa / 64) fun t d =>
      let old := lineValue (s.homeView (pa / 64)).data (pa % 64) size
      t.links.replies = s.links.replies ++ [(dev, leBytes size old)] ∧
      d = mergeLine (s.homeView (pa / 64)).data (lineWith (pa % 64) size (AtomicOp.apply op size (BitVec.ofNat 64 old) v cmp).toNat) (byteMask (pa % 64) size)
    let queues (o : Res) (dev pa : Nat) (w : OwnerWork) := ends o fun t => t.mem.owner.look s.nextId = some { from_ := .outside dev, die := paDie pa, node := paNode pa, va := 0, work := w } ∧ t.links = s.links
    let open_ := s.boot = .stage2 ∧ s.links.ideKeys = true
    let told (dev : Nat) (t : State) := dev ≠ me → t.links.replies = s.links.replies ++ [(dev, [])]
    (∀ hpa n w pa, inLine hpa n = true → inLine pa n = true → pa < 2 ^ 40 → open_ → s.windowFor hpa n = some (w, pa) →
      let mine := s.keep.owners.look (pa / 65536) = some w.domain
      let room := s.sliceFull (pa / 64) = false
      (w.flags.getLsbD 0 = true → w.flags.getLsbD 2 = false → mine →
        (s.lineBad (pa / 64) = false → reads (exec (.hostRead hpa n) s) me pa n) ∧
        (s.lineBad (pa / 64) = true → answers (exec (.hostRead hpa n) s) me (List.replicate n 0xFF) ∧ ends (exec (.hostRead hpa n) s) fun t => 64 ∈ t.links.raised ∧ pa / 64 ∈ t.links.ras)) ∧
      (w.flags.getLsbD 0 = true → ¬mine → answers (exec (.hostRead hpa n) s) me (List.replicate n 0xFF)) ∧
      (w.flags.getLsbD 0 = true → w.flags.getLsbD 2 = true → mine → queues (exec (.hostRead hpa n) s) me pa (.load [⟨0, 0, pa % 64, n, 0⟩] (pa / 64))) ∧
      (w.flags.getLsbD 0 = false → answers (exec (.hostRead hpa n) s) me (List.replicate n 0) ∧ ends (exec (.hostRead hpa n) s) fun t => t.links.outside = s.links.outside + 1) ∧
      (∀ bs : List Byte, bs.length = n → (w.flags.getLsbD 1 = true → w.flags.getLsbD 2 = false → mine → room → s.lineBad (pa / 64) = false → writes (exec (.hostWrite hpa bs) s) pa bs fun t => t.links = s.links) ∧
        (w.flags.getLsbD 1 = true → w.flags.getLsbD 2 = true → mine → queues (exec (.hostWrite hpa bs) s) me pa (.store pa bs)) ∧
        (w.flags.getLsbD 1 = true → ¬mine → (s.homeView (pa / 64)).rts.toNat + 1 < 2 ^ 40 → ends (exec (.hostWrite hpa bs) s) fun t => t.mem.l2.look (pa / 64) = none ∧ pa / 64 ∈ t.mem.bad ∧ pa / 64 ∈ t.mem.forged ∧
          (s.homeView (pa / 64)).rts.toNat < (t.mtsOf (s.mem.slice (pa / 64))).toNat) ∧
        (w.flags.getLsbD 1 = false → ends (exec (.hostWrite hpa bs) s) fun t => t.links.outside = s.links.outside + 1 ∧ t.mem = s.mem)) ∧
      (∀ op v cmp, atomicFits hpa n = true → w.flags.getLsbD 0 = true → w.flags.getLsbD 1 = true → w.flags.getLsbD 2 = false → mine → room →
        s.lineBad (pa / 64) = false → steps (exec (.hostAtomic hpa op n v cmp) s) me pa n op v cmp)) ∧
    (∀ hpa n, inLine hpa n = true → open_ → s.windowFor hpa n = none → answers (exec (.hostRead hpa n) s) me (List.replicate n 0) ∧ ends (exec (.hostRead hpa n) s) fun t => t.links.outside = s.links.outside + 1) ∧
    (∀ hpa n, inLine hpa n = true → ¬open_ → answers (exec (.hostRead hpa n) s) me (List.replicate n 0) ∧ ∀ bs, exec (.hostWrite hpa bs) s = .next s) ∧
    (s.boot ≠ .off → ends (exec .ideKeyProgram s) fun t => t.links = { s.links with ideKeys := true }) ∧
    (∀ i w, s.boot = .stage2 → i < 16 → HostWindow.ok w = true → ends (exec (.hostWindowInstall i w) s) fun t => t.links.windows.look i = some w ∧ (∀ k, k ≠ i → t.links.windows.look k = s.links.windows.look k) ∧ t.mem = s.mem) ∧
    (∀ q : PeerRequest, s.boot = .stage2 → q.pa < 2 ^ 40 →
      let mine (x : Export) := s.keep.owners.look (q.pa / 65536) = some x.local_
      let room := s.sliceFull (q.pa / 64) = false
      (∀ n, q.access = .read n → inLine q.pa n = true →
        (s.exportFor q = none → answers (exec (.peerRequest q) s) q.device (List.replicate n 0) ∧ ends (exec (.peerRequest q) s) fun t => t.links.denials = s.links.denials + 1) ∧
        (∀ x, s.exportFor q = some x → q.near = false → mine x → s.lineBad (q.pa / 64) = false → reads (exec (.peerRequest q) s) q.device q.pa n) ∧
        (∀ x, s.exportFor q = some x → q.near = true → mine x → queues (exec (.peerRequest q) s) q.device q.pa (.load [⟨0, 0, q.pa % 64, n, 0⟩] (q.pa / 64)))) ∧
      (∀ bs, q.access = .write bs → inLine q.pa bs.length = true →
        (s.exportFor q = none → ends (exec (.peerRequest q) s) fun t => t.links.denials = s.links.denials + 1 ∧ told q.device t ∧ t.mem = s.mem) ∧
        (∀ x, s.exportFor q = some x → q.near = false → mine x → room → s.lineBad (q.pa / 64) = false → writes (exec (.peerRequest q) s) q.pa bs (told q.device)) ∧
        (∀ x, s.exportFor q = some x → q.near = true → mine x → queues (exec (.peerRequest q) s) q.device q.pa (.store q.pa bs))) ∧
      (∀ op n v cmp x, q.access = .atomic op n v cmp → atomicFits q.pa n = true → s.exportFor q = some x → mine x →
        (q.near = false → room → s.lineBad (q.pa / 64) = false → steps (exec (.peerRequest q) s) q.device q.pa n op v cmp) ∧
        (q.near = true → queues (exec (.peerRequest q) s) q.device q.pa (.word q.pa op n v (nmClass (AtomicOp.nmCode op) n))))) ∧
    (∀ q : GrantRequest, s.boot = .stage2 → (s.domain q.domain).state = .active → (s.domain q.domain).manager = Requester.domainOf q.requester → q.peer < 1024 → q.peer ≠ me → q.peerDomain < 64 →
      s.links.exports.length < 4096 → s.ownsRange q.domain q.base q.length = true →
      ends (exec (.grantRequest q) s) fun t => (∃ x, t.links.exports.look s.links.nextGrant = some x ∧ x.base = q.base ∧ x.length = q.length ∧ x.device = q.peer ∧ x.domain = q.peerDomain ∧
          x.local_ = q.domain ∧ x.r = q.r ∧ x.w = q.w ∧ x.a = q.a) ∧
        (q.peer, GrantMessage.install s.links.nextGrant me q.peerDomain q.base q.length q.r q.w q.a) ∈ t.links.sent) ∧
    (∀ g who x, s.links.exports.look g = some x → (s.domain x.local_).manager = Requester.domainOf who →
      ends (exec (.revoke who g) s) fun t => t.links.exports.look g = none ∧ g ∈ t.links.revoking ∧ (x.device, GrantMessage.clear g me) ∈ t.links.sent) ∧
    (∀ g peer d base len r w a, s.boot = .stage2 → (s.domain d).state = .active → (s.domain d).imports.length < 64 → base % 65536 = 0 → len % 65536 = 0 → len ≠ 0 →
      ends (exec (.grantMessage (.install g peer d base len r w a)) s) fun t => (t.domain d).imports.look (grantKey peer g) = some ⟨base, len, peer, r, w, a⟩ ∧ (peer, GrantMessage.reply g) ∈ t.links.sent) ∧
    (∀ g peer d, s.boot = .stage2 → s.importer peer g = some d → ends (exec (.grantMessage (.clear g peer)) s) fun t => (t.domain d).imports.look (grantKey peer g) = none ∧
      (t.domain d).revocations = (s.domain d).revocations ++ [(peer, g)]) ∧
    (∀ g peer, s.boot = .stage2 → s.importer peer g = none → ends (exec (.grantMessage (.clear g peer)) s) fun t => t.domains = s.domains ∧ t.links.exports = s.links.exports ∧ (peer, GrantMessage.cleared g) ∈ t.links.sent) ∧
    (∀ g x, s.boot = .stage2 → s.links.exports.look g = some x → ends (exec (.grantMessage (.released g x.device)) s) fun t => t.links.exports.look g = none ∧ g ∈ t.links.revoking ∧ t.domains = s.domains) ∧
    (∀ port p, s.links.ports.look port = some p →
      let leaves (i : Instr) (x : SpirePort) := ends (exec i s) fun t => t.links.ports.look port = some x
      (∀ seq, p.up = true → seq ∈ p.unacked → leaves (.flitReplay port seq) { p with unacked := p.unacked.dropWhile (· != seq) }) ∧
      (p.up = false → p.lanes ≠ 0 → p.key ≠ none → leaves (.portRetrain port) { p with up := true, retrains := p.retrains + 1 }) ∧
      (p.up = false → p.key = none → exec (.portRetrain port) s = .next s) ∧
      (∀ k q, p.up = true → k ≠ port → s.links.ports.look k = some q → q.up = true → (∀ j r, s.links.ports.look j = some r → r.up = true → j = port ∨ j = k) → Map.rising none s.links.ports = true →
        leaves (.portRetrain port) { p with up := false, unacked := [] } ∧ ends (exec (.portRetrain port) s) fun t => ∃ q', t.links.ports.look k = some q' ∧ q'.unacked.length = q.unacked.length + p.unacked.length) ∧
      (∀ lane, (9 ≤ lane ∨ p.failed.contains lane = true) → exec (.laneSpare port lane) s = .next s) ∧
      (∀ lane, lane < 9 → p.failed.contains lane = false →
        let spares (i : Instr) (kind : Byte) (x : SpirePort) := leaves i x ∧ ends (exec i s) fun t => ∃ r, t.service.ring.getLast? = some r ∧ r.kind = kind ∧ r.unitClass = 4 ∧ r.unit = (9 * port + lane) % 65536
        let i := Instr.laneSpare port lane
        (p.failed = [] → lane < 8 → spares i 4 { p with failed := [lane], spareUsed := true }) ∧
        (p.failed = [] → lane = 8 → spares i 5 { p with failed := [8] }) ∧
        (p.failed ≠ [] → p.failed.length ≤ 4 → spares i 5 { p with failed := lane :: p.failed, lanes := 4, retrains := p.retrains + 1 }) ∧
        (4 < p.failed.length → ends (exec i s) fun t => ∃ x, t.links.ports.look port = some x ∧ x.up = false ∧ x.lanes = 0)))

/-- R392-R401, R81, R385. Start-up brings the stages up one after another and stops for good where a check fails; images are accepted,
switched and committed; domains are created and released, gate tables written, and the device attests itself. The causes of
failure (LOG 90), what the kinds accepted before a failing one keep (LOG 131), which image a commit takes (LOG 140), the layout
of the report (LOG 37), that a domain's own report goes into its memory (LOG 99), the Curator's gate entries (LOG 159), that the
host's requests are those of domain 0 (LOG 158) and that a release waits for the domain's work (LOG 160) are the model's choice. -/
def Obligations.KeepAndDomains : Prop :=
  ∀ (s : State),
    let ends (o : Res) (p : State → Prop) := ∃ t, o = .next t ∧ t.keep.uds = s.keep.uds ∧ p t
    (∀ digest, s.boot = .off → (digest = Config.romDigest → ends (exec (.powerGood digest) s) fun t => t.boot = .stage0 ∧ t.now = 0 ∧ t.keep.failure = none ∧
          t.keep.idPub = some (Config.falconPublic (Config.shake (leBytes 64 s.keep.uds.toNat ++ label "identity") 384))) ∧
        (digest ≠ Config.romDigest → ends (exec (.powerGood digest) s) fun t => t.boot = .off ∧ t.keep.failure = some 0)) ∧
    (s.boot = .stage0 → s.keep.failure = none →
      (∀ k c m, s.keep.bootStage1 = (k, none) → ends (exec (.stage1Entry (some c) (some m)) s) fun t => t.boot = .stage1 ∧ (t.domain 0).state = .active ∧ (t.domain 0).service = true ∧ (t.domain 0).manager = 0 ∧
        (t.domain 0).key = some (Config.random s.fresh) ∧ ∀ i, i < 24 → (t.core (24 * (c % 16) + i)).service = true) ∧
      (∀ k n c m, s.keep.bootStage1 = (k, some n) → ends (exec (.stage1Entry c m) s) fun t => t.boot = .stage0 ∧ t.keep.failure = some n ∧ t.keep.firmware = k.firmware ∧ ∀ c' m', exec (.stage1Entry c' m') t = .next t)) ∧
    (∀ bad, s.boot = .stage1 → ends (exec (.stage2Entry bad) s) fun t => t.boot = .stage2 ∧ t.mem.xclk = t.floor ∧ (∀ k, k < 16 → k ∈ bad.stackList → s.keep.firstStack ≠ some k → k ∈ t.service.stacksRetired) ∧
      (∀ k, k < 16 → k ∈ bad.dies → k ∈ t.service.diesRetired) ∧ (∀ d, d < 1024 → t.links.routes.look d = some (Config.routeTo d % 36)) ∧
      (∀ p, p < 36 → p ∉ bad.ports → ∃ x, t.links.ports.look p = some x ∧ x.up = true ∧ x.lanes = 8 ∧ x.key = some (Config.linkKey p s.fresh)) ∧ (∀ p, p < 36 → p ∈ bad.ports → ∃ x, t.links.ports.look p = some x ∧ x.up = false ∧ x.lanes = 0 ∧ x.retired = true) ∧
      ∀ k, k < 16 → k ∉ bad.clusters → (∀ c ∈ clusterCores k, (s.core c).service = false) → ∀ c ∈ clusterCores k, (t.core c).service = true) ∧
    (ends (exec .powerLoss s) fun t => t.boot = .off ∧ t.groups = [] ∧ t.blocks = [] ∧ t.mem = State.reset.mem ∧ t.domains = [] ∧ t.keep.arb = s.keep.arb ∧ t.keep.idPub = none ∧ t.keep.operatorKey = none) ∧
    (∀ key, s.boot = .stage0 → s.keep.operatorKey = none → ends (exec (.operatorKeyEnroll key) s) fun t => t.keep.operatorKey = some key ∧ ∀ k', exec (.operatorKeyEnroll k') t = .next t) ∧
    (∀ kind, s.boot ≠ .off → kind ≠ 0 → kind ≤ 6 → let f := s.keep.kind kind
      (∀ i, ends (exec (.slotWrite kind (!f.activeB) i) s) fun t => (t.keep.kind kind).slot (!f.activeB) = { f.slot (!f.activeB) with image := some i } ∧ (t.keep.kind kind).slot f.activeB = f.slot f.activeB ∧ (t.keep.kind kind).activeB = f.activeB) ∧
      (∀ i, exec (.slotWrite kind f.activeB i) s = .next s) ∧
      (∀ i, f.unwritten = false → s.switchPoint kind = true → (f.slot (!f.activeB)).image = some i → s.keep.accepts i kind = true →
        (Map.get 0 s.keep.arb kind ≤ i.svn.toNat ∧ Config.shake i.body 512 = i.digest.toNat ∧ Config.falconVerify (s.keep.keyOf i) (imageHeader i) i.signature = true) ∧
        ends (exec (.slotSwitch kind) s) fun t => (t.keep.kind kind).activeB = !f.activeB ∧ (t.keep.kind kind).loaded = some i ∧ (t.keep.kind kind).slot (!f.activeB) = { image := some i, measurement := imageMeasurement i, svn := i.svn, key := i.key } ∧
          t.groups = s.groups ∧ (kind ≠ 2 → t.mem.bytes = s.mem.bytes) ∧ ∀ n, n ≠ kind → t.keep.kind n = s.keep.kind n) ∧
      (f.unwritten = false → (∀ i, (f.slot (!f.activeB)).image = some i → s.keep.accepts i kind = false) → exec (.slotSwitch kind) s = .next s) ∧
      (∀ i, f.loaded = some i → f.fallback = false → ends (exec (.commit_ kind) s) fun t => Map.get 0 t.keep.arb kind = max (Map.get 0 s.keep.arb kind) i.svn.toNat ∧
        ∀ n, n ≠ kind → Map.get 0 t.keep.arb n = Map.get 0 s.keep.arb n)) ∧
    (∀ q : DomainRequest, s.boot = .stage2 → q.domain ≠ 0 → q.domain < 64 → q.manager < 64 → (s.domain q.domain).state = .free → (∀ u, s.belfryRead q.manager q.controlBlock 8 ≠ .wait u) → (∀ g ∈ q.granules, s.granuleFree g = true) →
      (q.service = true → s.keep.bootKind 3 = none → exec (.domainCreate q) s = .next s) ∧
      ∀ k, (if q.service = true then s.keep.bootKind 3 else some s.keep) = some k → ends (exec (.domainCreate q) s) fun t =>
        let d := t.domain q.domain
        d.state = .active ∧ d.manager = q.manager ∧ d.controlBlock = q.controlBlock ∧ d.faultQueue = q.faultQueue ∧ d.service = q.service ∧ (q.manager ≠ q.domain → d.gates = []) ∧
        (t.domain q.manager).gates = Config.curatorGates.foldl (fun (m : Map GateEntry) e => m.put e.1 (gateOf e.2)) (if q.manager = q.domain then ([] : Map GateEntry) else (s.domain q.manager).gates) ∧ d.key = some (Config.random s.fresh) ∧
        (∀ i, q.service = true → (k.kind 3).loaded = some i → d.measurement = imageMeasurement i) ∧ t.groups = s.groups ∧ (∀ g ∈ q.granules, t.keep.owners.look g = some q.domain) ∧
        (∀ a, a / 65536 ∈ q.granules → t.mem.byte a = 0 ∧ t.mem.l2.look (a / 64) = none) ∧ ∀ a, a / 65536 ∉ q.granules → t.mem.byte a = s.mem.byte a) ∧
    (∀ d, s.boot = .stage2 → d ≠ 0 → (s.domain d).state ≠ .free →
      (ends (exec (.domainRelease d) s) fun t => t.mem.bytes = s.mem.bytes ∧ (∀ k x, t.links.exports.look k = some x → x.local_ ≠ d) ∧
        (∀ k x, (s.domain d).imports.look k = some x → (x.device, GrantMessage.released (k % 2 ^ 32) Config.deviceNumber) ∈ t.links.sent) ∧
        ∀ c i e, c ≠ d → (s.domain c).gates.look i = some e → (t.domain c).gates.look i = some (if bitsAt e.target.toNat 0 6 = d then { e with target := e.target &&& 0x7F } else e)) ∧
      (s.domainBusy d = true → ends (exec (.domainRelease d) s) fun t => (t.domain d).state = (s.domain d).state ∧ (t.domain d).key = (s.domain d).key ∧ t.keep.owners = s.keep.owners) ∧
      (s.domainBusy d = false → ends (exec (.domainRelease d) s) fun t => (t.domain d).state = .free ∧ (t.domain d).key = none ∧ (∀ g, t.keep.owners.look g ≠ some d) ∧
        ∀ k, k % 2 ^ 52 / 2 ^ 45 = d → t.mem.tlb.look k = none)) ∧
    (∀ e : GateEntry, (GateEntry.bytes e).length = 32 ∧ gateOf (BitVec.ofNat 256 (leValue (GateEntry.bytes e))) = e) ∧
    (∀ who c (es : List GateEntry), s.boot = .stage2 → es.length ≤ 256 →
      ((∀ e ∈ es, e.target.getLsbD 7 = true → gateFieldsOk e = true ∧ s.gateAllowed who c e = true) → ends (exec (.gateInstall who c es) s) fun t => t.keep.gateReport = none ∧
        ∀ i, (t.domain c).gates.look i = match es[i]? with | some e => if e.target.getLsbD 7 = true then some e else (s.domain c).gates.look i | none => (s.domain c).gates.look i) ∧
      (∀ i e, es[i]? = some e → e.target.getLsbD 7 = true → (gateFieldsOk e && s.gateAllowed who c e) = false → (∀ j f, j < i → es[j]? = some f → f.target.getLsbD 7 = true → (gateFieldsOk f && s.gateAllowed who c f) = true) →
        ends (exec (.gateInstall who c es) s) fun t => t.domains = s.domains ∧ t.keep.gateReport = some i)) ∧
    (∀ k, s.keep.idPub = some k → (ends (exec .getCertificate s) fun t => t.keep.certificate = some (Config.certificate k) ∧ t.mem = s.mem) ∧
      ∀ nonce user : List Byte, nonce.length = 32 → user.length = 64 →
        let signed (text : List Byte) (sig : Nat) := text.take 96 = nonce ++ user ∧ sig = Config.falconSign (Config.shake (leBytes 64 s.keep.uds.toNat ++ label "identity") 384) text
        (ends (exec (.getMeasurements nonce (.host user)) s) fun t => t.keep.reports = s.keep.reports + 1 ∧ t.mem = s.mem ∧ ∃ text sig, t.keep.report = some (text, sig) ∧ signed text sig) ∧
        ∀ d va, s.boot = .stage2 → (s.domain d).state = .active → ∃ text sig, signed text sig ∧
          let bs := text ++ leBytes signatureBytes sig
          exec (.getMeasurements nonce (.domain d va user)) s = .next (({ s with nextId := s.nextId + 1, keep := { s.keep with reports := s.keep.reports + 1 } } : State).owe
            ((linePieces va bs (bs.length + 1)).map fun x => ⟨2 ^ 20 + s.nextId, d, .store x.1 x.2⟩)))

/-- R392, R404-R406, R409-R417. The long run: a rebase lowers every time by B or to 0 and changes no value, scrub and repair change no
value, a core, a column or a slice that fails is replaced, and power requests wait for what they would cut off. The numbering of
islands and the lowest operating point, 0, (LOG 38), the units of the service ring (LOG 35) and the fault code that scrub records
(LOG 97) are the model's choice. -/
def Obligations.ServiceAndRepair : Prop :=
  ∀ (s : State),
    let ends (i : Instr) (p : State → Prop) := ∃ t, exec i s = .next t ∧ t.mem.bytes = s.mem.bytes ∧ p t
    let logged (t : State) (kind : Byte) := ∃ r, t.service.ring.getLast? = some r ∧ r.kind = kind
    (s.sweeping = false → s.rebaseDue = true → ends .rebaseStart fun t => t.phase = !s.phase ∧ t.sweeping = true ∧ (∀ k, t.mtsOf k = sat (s.mtsOf k)) ∧
      (∀ l h, s.mem.l2.look l = some h → h.wts.ph = s.phase → h.rts.ph = s.phase → t.homeView l = { s.homeView l with wts := sat h.wts.t, rts := sat h.rts.t }) ∧
      (∀ k m, s.mem.msgs.look k = some m → ∃ m', t.mem.msgs.look k = some m' ∧ m'.clk = sat m.clk) ∧
      ∀ k g, s.groups.look k = some g → ∃ g', t.groups.look k = some g' ∧ g'.SameRegs g ∧ g'.strands = g.strands ∧ g'.rclk = sat g.rclk ∧ g'.wclk = sat g.wclk) ∧
    (s.sweeping = true → ends .rebaseSweepDone fun t => t.phase = s.phase ∧ t.sweeping = false ∧ t.groups = s.groups ∧ (∀ l, t.homeView l = s.homeView l) ∧
      (Map.rising none s.mem.l1 = true → ∀ core l, t.l1View core l = s.l1View core l)) ∧
    (∀ u, s.boot = .stage2 → exec (.patrolScrub u .clean) s = .next s ∧
      (s.errorsOf (s.unitKey u) < 1000 → ends (.patrolScrub u .corrected) fun t => t.errorsOf (s.unitKey u) = s.errorsOf (s.unitKey u) + 1 ∧ t.mem = s.mem ∧ t.groups = s.groups ∧
        ∀ l, u = .hbm l → s.errorsOf (s.unitKey u) = 15 → logged t 1 ∧ Config.rowOf l ∈ t.service.scheduled) ∧
      (ends (.patrolScrub u .uncorrectable) fun t => logged t 2 ∧ t.mem.l2 = s.mem.l2 ∧ t.groups = s.groups ∧ (∀ l, u = .hbm l → l ∈ t.mem.bad) ∧ ∀ l, u = .l2 l → (s.mem.l2.look l).isSome = true → l ∈ t.mem.badL2) ∧
      ∀ l, u = .hbm l → ends (.patrolScrub u .badTag) fun t => l ∈ t.mem.bad ∧ l ∈ t.mem.forged ∧ logged t 2 ∧ t.mem.l2 = s.mem.l2 ∧
        ∀ o, s.keep.owners.look (l / 1024) = some o → o < 64 → (t.domain o).integrity = (s.domain o).integrity + 1) ∧
    (∀ row, (row ∉ s.service.scheduled → exec (.rowRepair row) s = .next s) ∧
      (row ∈ s.service.scheduled →
        let used := Map.get 0 s.service.rowsUsed (Config.bankOf row)
        ends (.rowRepair row) fun t => t.mem = s.mem ∧ t.groups = s.groups ∧ row ∉ t.service.scheduled ∧ (used < Config.spareRows → t.service.rowMap.look row = some used ∧ logged t 4) ∧
          (Config.spareRows ≤ used → t.service.rowMap = s.service.rowMap ∧ logged t 5))) ∧
    (∀ core spareOk, (s.core core).service = true →
      (s.blocksOn core = [] → ends (.coreSubstitute core spareOk false) fun t =>
        if spareOk = true ∧ core / 24 ∉ s.service.spareUsed then (t.core core).service = true ∧ (t.core core).incarnation = (s.core core).incarnation + 1 ∧
          t.service.substitute.look core = some (25 * (core / 24) + 24) ∧ core / 24 ∈ t.service.spareUsed ∧ logged t 4
        else (t.core core).service = false ∧ (t.core core).retired = true ∧ logged t 5) ∧
      (∀ b, b ∈ s.blocksOn core → ends (.coreSubstitute core spareOk false) fun t => (t.core core).held = true ∧ (t.core core).service = true ∧ t.blocks = s.blocks) ∧
      ends (.coreSubstitute core spareOk true) fun t => (∀ k, keyCore k = core → t.groups.look k = none) ∧ (spareOk = false → (t.core core).service = false ∧ (t.core core).left = some s.now)) ∧
    (∀ core left, (s.core core).left = some left → (s.core core).service = false → (s.core core).retired = false → left + 4000000 ≤ s.now → ends (.coreRejoin core) fun t =>
      (t.core core).service = true ∧ (t.core core).incarnation = (s.core core).incarnation + 1 ∧ (t.core core).since = s.now ∧ logged t 10 ∧ t.groups = s.groups ∧ ∀ l, l < 2 ^ 46 → t.mem.l1.look (copyKey core l) = none) ∧
    (∀ die column, s.boot = .stage2 → die < 16 → column < 128 →
      let hit (n : Inst) : Prop := n.die = die ∧ n.sx ≤ column / 16 ∧ column / 16 < n.sx + n.cols
      let used := Map.get [] s.service.columns die
      ((∀ e ∈ s.annex.insts, ¬hit e.2) → ends (.columnRemap die column) fun t => t.annex = s.annex ∧
        if used.length < 4 then Map.get [] t.service.columns die = used ++ [column] ∧ logged t 4
        else (∀ sy, sy < 8 → (die, 8 * sy + column / 16) ∈ t.service.squaresOut) ∧ logged t 5) ∧
      (∀ k n g, (k, n) ∈ s.annex.insts → hit n → s.annex.regions.look n.region = some g → g.state = .running → ends (.columnRemap die column) fun t => t.service.columns = s.service.columns ∧ t.service.squaresOut = s.service.squaresOut ∧ (die, column) ∈ t.service.remapping ∧
        ∃ g', t.annex.regions.look n.region = some g' ∧ g'.state = .draining)) ∧
    (∀ die column, s.boot = .stage2 → die < 16 → 128 ≤ column → column < 136 →
      let used := Map.get [] s.service.columns die
      let open_ := (∀ e ∈ s.mem.owner, ¬(e.2.queued = true ∧ e.2.die = die)) ∧ ∀ e ∈ s.mem.landings, e.2.die ≠ die
      (open_ → used.length < 4 → ends (.columnRemap die column) fun t => Map.get [] t.service.columns die = used ++ [column] ∧ logged t 4 ∧ (die, column) ∉ t.service.remapping) ∧
      (¬open_ → ends (.columnRemap die column) fun t => t.service.columns = s.service.columns ∧ (die, column) ∈ t.service.remapping ∧ t.mem = s.mem)) ∧
    (∀ slice, s.boot = .stage2 → slice < 64 → slice ∉ s.service.slicesRetired → s.service.slicesRetired.length < 63 → (∀ e ∈ s.mem.msgs, MsgStage.isAtOwner e.2.stage = true → s.mem.slice e.2.line ≠ slice) →
      (∀ l h, s.mem.l2.look l = some h → (h.dirty = false → h.data = s.mem.line l) ∧ (h.dirty = true → l ∉ s.mem.badL2)) →
      ∃ t, exec (.sliceRetire slice) s = .next t ∧ t.service.slicesRetired = s.service.slicesRetired ++ [slice] ∧ (∀ l, t.mem.slice l ≠ slice) ∧ (∀ l, (t.homeView l).data = (s.homeView l).data) ∧
        (∀ l h, s.mem.l2.look l = some h → s.mem.slice l = slice → (s.cur h.rts).toNat ≤ (t.mtsOf (t.mem.slice l)).toNat) ∧ t.groups = s.groups) ∧
    (∀ q : PowerRequest, s.boot = .stage2 → q ∉ s.service.poweredDown →
      (s.served q = [] → s.mem.landings = [] → ends (.powerRequest q) fun t => t.service.poweredDown = s.service.poweredDown ++ [q] ∧ q ∉ t.service.deferred ∧ t.mem = s.mem ∧
        ∃ r, t.service.ring.getLast? = some r ∧ r.kind = 9 ∧ r.unitClass = 5 ∧ r.unit = PowerRequest.island q % 65536) ∧
      (∀ k n g, (k, n) ∈ s.served q → s.annex.regions.look n.region = some g → g.state = .running → ends (.powerRequest q) fun t => q ∈ t.service.deferred ∧ t.service.poweredDown = s.service.poweredDown ∧
        ∃ g', t.annex.regions.look n.region = some g' ∧ g'.state = .draining)) ∧
    (∀ island point, island < 1024 → ((s.boot ≠ .off ∧ s.boot ≠ .stage0) ∨ island = 485) →
      ((island < 400 ∨ island - 400 ∉ s.service.slicesRetired) → ends (.operatingPointChange island point false) fun t => t.service.points.look island = some point ∧ island ∉ t.service.gated ∧ t = { s with service := t.service }) ∧
      ends (.operatingPointChange island point true) fun t => (s.mayGate island = true → island ∈ t.service.gated) ∧ (s.mayGate island = false → t = s) ∧ t = { s with service := t.service }) ∧
    ∀ island point gate, (s.boot = .off ∨ s.boot = .stage0) → island ≠ 485 → exec (.operatingPointChange island point gate) s = .next s

/-- R53-R63, R65-R70. Words and instructions are the same thing: every well-formed core, compact and stream instruction has a
word, that word decodes to it with every field, and a word that decodes is the word of what it decodes to. -/
def Obligations.DecodeAndEncodeAgree : Prop :=
  (∀ i : Instr, i.wf = true →
    (i.kind = .core → ∃ w, encodeCore i = some w ∧ decodeCore w = .ok i) ∧
    (i.kind = .compact → ∃ w, encodeCompact i = some w ∧ decodeCompact w = .ok i) ∧
    (i.kind = .stream → ∃ w, encodeStream i = some w ∧ decodeStream w = .ok i)) ∧
  (∀ w i, decodeCore w = .ok i → i.wf = true ∧ encodeCore i = some w) ∧
  (∀ w i, decodeCompact w = .ok i → i.wf = true ∧ encodeCompact i = some w) ∧
  ∀ w i, decodeStream w = .ok i → i.wf = true ∧ encodeStream i = some w

/-- R53-R70. Words written out from the encoding tables decode to the instructions that they stand for, and words with a
reserved opcode, type, order or field do not decode. -/
def Obligations.DecodeWords : Prop :=
  decodeCore 0x0200000000000000 = .ok (.nop { g := ⟨0, false⟩, u := false, d := 0, a := 0, tail := .regs 0 0 false false, ty := .b32, rm := .rne, sat := false, x := 0 }) ∧
  decodeCore 0x0400014140800400 = .ok (.add { g := ⟨0, false⟩, u := false, d := 5, a := 5, tail := .regs 2 0 false false, ty := .i32, rm := .rne, sat := false, x := 0 }) ∧
  decodeCore 0x0608014000003200 = .ok (.movi { g := ⟨0, false⟩, u := false, d := 5, imm := 200, x := 0 }) ∧
  decodeCore 0x02110080000000C0 = .ok (.brd { g := ⟨1, false⟩, u := false, k := 2, disp := 3, x := 0 }) ∧
  decodeCompact (1#6 ++ 3#5 ++ 1#5 ++ 2#5 ++ 0#11) = .ok (.seqAdd ⟨3, 1, 2⟩) ∧
  decodeStream 0x01050000000000000000000000000000#128 = .ok (.slin { port := 5, flags := 0, base := 0, pattern := 0 }) ∧
  decodeCore 0 = .error .noInstruction ∧ decodeCore 0x0400000000003400 = .error .reservedType ∧ decodeCompact 0 = .error .noInstruction ∧ decodeStream 0 = .error .noInstruction

/-- R63, R156, R205, R209, R339. A step runs the decoded instruction: with the head of the schedule taken, and with its time passed, an
agent that stands at a word runs `exec` of the instruction that the word decodes to. For a strand whose word does not stall and to
which the round has come, `exec` starts from the state in which the strand has issued: the round has gone on, the group has read
the line that holds the word, and the cc is the strand's last; a word that stalls runs from the state as it is, and any other
strand waits. While a strand of the group waits in `gate`, no other word of the group issues, and that strand's move looks again
whether the call can be made. A core word that decodes to nothing raises ILLEGAL. An event or a firing that happens runs `exec` of itself, and
whose move the agent's was stays so. Where
nothing waits for an answer and no region is loaded, the time that passes is the turn's. The schedule and the agent are the
model's own (LOG 2). -/
def Obligations.StepRunsDecoded : Prop :=
  ∀ (s : State) (dt : Nat) (rest : List Turn),
    let at_ (a : Act) : State := { s with schedule := ⟨dt, a⟩ :: rest }
    let quiet (s : State) := s.belfry.owed = [] ∧ (∀ e ∈ s.belfry.launches, e.2.blocksLeft ≠ 0) ∧ (∀ e ∈ s.annex.regions, e.2.owes = false) ∧ s.faults.awaiting = [] ∧ s.annex.insts = []
    let runs (x : State) (r : StrandRef) (o : Res) := ∀ g st w wts, x.strandAt r = some (g, st) → g.mayRun = true → g.calling = false → st.wait = .ready → x.fetch r.core g st.pc = .word w wts →
      (∀ i, decodeCore w = .ok i → (x.stalls r = false → x.mayIssue r = true → o = exec i (x.issues r g wts)) ∧ (x.stalls r = true → o = exec i x) ∧
        (x.stalls r = false → x.mayIssue r = false → o = .next x)) ∧
      (∀ e, decodeCore w = .error e → x.mayIssue r = true → o = .next ((x.issues r g wts).takeFault r st.pc { code := faultIllegal, detail := w }))
    let holds (x : State) (r : StrandRef) (o : Res) := ∀ g st, x.strandAt r = some (g, st) → g.mayRun = true → g.calling = true →
      (st.wait = .ready → o = .next x) ∧ ∀ e n d, st.wait = .gate e n d → o = .next (x.openGate r)
    let kept (o : Res) : Res := match o with | .next t => .next { t with agent := s.agent } | o => o
    let begun := ({ s with schedule := rest, agent := .nobody } : State).settle.latch.advance dt
    (quiet s → begun = ({ s with schedule := rest, agent := .nobody, now := s.now + dt }, true)) ∧
    (begun.2 = false → ∀ a, step (at_ a) = .next { begun.1 with agent := s.agent }) ∧
    (begun.2 = true →
      let now_ (a : Agent) : State := { begun.1 with agent := a }
      (∀ r, runs (now_ (.strand r)) r (step (at_ (.agent (.strand r)))) ∧ holds (now_ (.strand r)) r (step (at_ (.agent (.strand r))))) ∧
      (∀ die n q w i, begun.1.annex.seqs.look (32 * die + n) = some q → q.stopped = false → q.prog[q.pc]? = some w → decodeCompact w = .ok i →
        step (at_ (.agent (.seq die n))) = exec i (now_ (.seq die n))) ∧
      (∀ die port q w ws i, begun.1.annex.ports.look (64 * die + port) = some q → q.queue = w :: ws → decodeStream w = .ok i →
        step (at_ (.agent (.port die port))) = exec i (now_ (.port die port))) ∧
      (∀ i : Instr, (i.kind = .event ∨ i.kind = .firing) → (∀ w, i ≠ .seqUndecodableWord w) → step (at_ (.event i)) = kept (exec i begun.1))) ∧
    (∀ r, s.schedule = [] → s.agent = .strand r → quiet s → runs { s with now := s.now + 1 } r (step s))

/-- R1, R4, R393-R395. What every step keeps, whatever the instruction or the event: the fused identity is what it was, no
anti-rollback counter falls, the clock of a powered device does not run back, and memory keeps its canonical form. -/
def Obligations.StepKeeps : Prop :=
  ∀ s t : State, step s = .next t → Keeps s t

/-- R392. After reset the device is before power-good: nothing runs, memory lists nothing and is in canonical form, and power-good
starts it. The state before power-good is the model's (LOG 1). -/
def Obligations.ResetState : Prop :=
  let s := State.reset
  Memory.wf s.mem.bytes = true ∧ s.mem.bytes = [] ∧ s.boot = .off ∧ s.groups = [] ∧ s.belfry.queues = [] ∧ step s = .next s ∧
  ∃ t, exec (.powerGood Config.romDigest) s = .next t ∧ t.boot = .stage0 ∧ t.groups = []

/-- R399. Gate tables, queue tables, host windows, and import and export tables are written by the management Curator alone: no
instruction and no other event of the device changes them. -/
def Obligations.OnlyTheCuratorWritesTables : Prop :=
  ∀ (i : Instr) (s t : State), curates i = false → exec i s = .next t → SameTables s t
end

