-- ==== Sys2Proof/Laws/Table.lean ====
section
/-! SUPPORT. Tables: reading after setting, and the canonical form. -/
namespace Sys2Proof

variable {α : Type}

@[simp] theorem Map.look_nil (k : Nat) : Map.look ([] : Map α) k = none := rfl

theorem Map.look_cons (e : Nat × α) (m : Map α) (k : Nat) :
    Map.look (e :: m) k = if e.1 = k then some e.2 else Map.look m k := rfl

/-- The entry just set is read back. -/
@[simp] theorem Map.look_put_same (m : Map α) (k : Nat) (x : α) : (m.put k x).look k = some x := by
  induction m with
  | nil => simp [Map.put, Map.look]
  | cons e t ih => unfold Map.put; split_ifs <;> simp_all [Map.look]

/-- Setting one entry leaves every other alone. -/
theorem Map.look_put_other (m : Map α) {k j : Nat} (x : α) (h : j ≠ k) : (m.put k x).look j = m.look j := by
  induction m with
  | nil => simp [Map.put, Map.look, h.symm]
  | cons e t ih =>
    unfold Map.put
    split_ifs with h1 h2
    · simp [Map.look, h.symm]
    · subst h2; simp [Map.look, h.symm]
    · simp [Map.look, ih]

theorem Map.look_put (m : Map α) (k j : Nat) (x : α) :
    (m.put k x).look j = if j = k then some x else m.look j := by
  by_cases h : j = k
  · subst h; simp
  · simp [h, Map.look_put_other]

@[simp] theorem Map.look_del_same (m : Map α) (k : Nat) : (m.del k).look k = none := by
  induction m with
  | nil => rfl
  | cons e t ih => unfold Map.del; split_ifs <;> simp_all [Map.look]

theorem Map.look_del (m : Map α) (k j : Nat) : (m.del k).look j = if j = k then none else m.look j := by
  by_cases h : j = k
  · subst h; simp
  · induction m with
    | nil => simp [Map.del]
    | cons e t ih =>
      simp only [h, if_false] at ih ⊢
      unfold Map.del
      split_ifs with h1
      · subst h1; simp [Map.look, ih, Ne.symm h]
      · simp [Map.look, ih]

/-- A table with a default: the value just set is read back, and every other value stays. -/
theorem Map.get_set [DecidableEq α] (d : α) (m : Map α) (k j : Nat) (x : α) :
    Map.get d (Map.set d m k x) j = if j = k then x else Map.get d m j := by
  unfold Map.get Map.set
  by_cases hx : x = d
  · subst hx; simp [Map.look_del]; split_ifs <;> rfl
  · simp [hx, Map.look_put]; split_ifs <;> rfl

@[simp] theorem Map.get_set_same [DecidableEq α] (d : α) (m : Map α) (k : Nat) (x : α) :
    Map.get d (Map.set d m k x) k = x := by simp [Map.get_set]

theorem Map.look_adjust (m : Map α) (k j : Nat) (f : α → α) :
    (m.adjust k f).look j = if j = k then (m.look k).map f else m.look j := by
  unfold Map.adjust
  cases h : m.look k with
  | none => simp; intro e; subst e; exact h
  | some x => simp [Map.look_put]

/-! ### The canonical form -/

theorem Map.rising_of_lt {lo lo' : Option Nat} {m : Map α} (h : Map.rising lo m = true)
    (hl : ∀ a b, lo = some a → lo' = some b → b ≤ a) (hn : lo = none → lo' = none) : Map.rising lo' m = true := by
  cases m with
  | nil => rfl
  | cons e t =>
    cases lo' with
    | none => simp_all [Map.rising]
    | some b =>
      cases lo with
      | none => simp at hn
      | some a =>
        simp only [Map.rising, Bool.and_eq_true, decide_eq_true_eq] at h ⊢
        have := hl a b rfl rfl
        exact ⟨by omega, h.2⟩

theorem Map.rising_put {m : Map α} {lo : Option Nat} (k : Nat) (x : α) (h : Map.rising lo m = true)
    (hk : ∀ b, lo = some b → b < k) : Map.rising lo (m.put k x) = true := by
  induction m generalizing lo with
  | nil => cases lo <;> simp_all [Map.put, Map.rising]
  | cons e t ih =>
    simp only [Map.rising, Bool.and_eq_true] at h
    unfold Map.put
    split_ifs with h1 h2
    · simp only [Map.rising, Bool.and_eq_true, decide_eq_true_eq]
      refine ⟨?_, h1, h.2⟩
      cases lo <;> simp_all
    · subst h2; simp only [Map.rising, Bool.and_eq_true]; exact h
    · simp only [Map.rising, Bool.and_eq_true]
      refine ⟨h.1, ih h.2 ?_⟩
      intro b hb; injection hb with hb; omega

theorem Map.rising_del {m : Map α} {lo : Option Nat} (k : Nat) (h : Map.rising lo m = true) :
    Map.rising lo (m.del k) = true := by
  induction m generalizing lo with
  | nil => exact h
  | cons e t ih =>
    simp only [Map.rising, Bool.and_eq_true] at h
    unfold Map.del
    split_ifs with h1
    · refine ih (Map.rising_of_lt h.2 ?_ (by simp))
      intro a b ha hb; cases ha; subst hb; have := h.1; simp only [decide_eq_true_eq] at this; omega
    · simp only [Map.rising, Bool.and_eq_true]; exact ⟨h.1, ih h.2⟩

theorem Map.all_put {m : Map α} (p : Nat × α → Bool) (k : Nat) (x : α) (h : m.all p = true) (hx : p (k, x) = true) :
    (m.put k x).all p = true := by
  induction m with
  | nil => simp [Map.put, hx]
  | cons e t ih =>
    simp only [List.all_cons, Bool.and_eq_true] at h
    unfold Map.put
    split_ifs with h1 h2
    · simp [hx, h.1]; simpa using h.2
    · simp [hx]; simpa using h.2
    · simp only [List.all_cons, Bool.and_eq_true]; exact ⟨h.1, ih h.2⟩

theorem Map.all_del {m : Map α} (p : Nat × α → Bool) (k : Nat) (h : m.all p = true) : (m.del k).all p = true := by
  induction m with
  | nil => rfl
  | cons e t ih =>
    simp only [List.all_cons, Bool.and_eq_true] at h
    unfold Map.del
    split_ifs
    · exact ih h.2
    · simp only [List.all_cons, Bool.and_eq_true]; exact ⟨h.1, ih h.2⟩

/-- Setting a value keeps the canonical form: a value equal to the default is not listed. -/
theorem Map.wf_set [DecidableEq α] (d : α) {m : Map α} (k : Nat) (x : α) (h : Map.wf d m = true) :
    Map.wf d (Map.set d m k x) = true := by
  unfold Map.wf at h ⊢
  simp only [Bool.and_eq_true] at h ⊢
  unfold Map.set
  split_ifs with hx
  · exact ⟨Map.rising_del k h.1, Map.all_del _ k h.2⟩
  · exact ⟨Map.rising_put k x h.1 (by simp), Map.all_put _ k x h.2 (by simp [hx])⟩

/-- Keys below the lower bound are not listed. -/
theorem Map.look_rising {m : Map α} {b k : Nat} (h : Map.rising (some b) m = true) (hk : k ≤ b) : m.look k = none := by
  induction m generalizing b with
  | nil => rfl
  | cons e t ih =>
    simp only [Map.rising, Bool.and_eq_true, decide_eq_true_eq] at h
    simp only [Map.look]
    rw [if_neg (by omega)]
    exact ih h.2 (by omega)

/-- Canonical tables with equal readings are equal. -/
theorem Map.ext_rising {m n : Map α} {lo lo' : Option Nat} (hm : Map.rising lo m = true) (hn : Map.rising lo' n = true)
    (h : ∀ k, m.look k = n.look k) : m = n := by
  induction m generalizing n lo lo' with
  | nil =>
    cases n with
    | nil => rfl
    | cons e t => have := h e.1; simp [Map.look] at this
  | cons e t ih =>
    simp only [Map.rising, Bool.and_eq_true] at hm
    cases n with
    | nil => have := h e.1; simp [Map.look] at this
    | cons e' t' =>
      simp only [Map.rising, Bool.and_eq_true] at hn
      have h1 := h e.1
      have h2 := h e'.1
      have key : e.1 = e'.1 := by
        by_contra hne
        rcases Nat.lt_or_gt_of_ne hne with hlt | hgt
        · simp only [Map.look, if_true] at h1
          rw [if_neg (Ne.symm hne), Map.look_rising hn.2 (by omega)] at h1
          cases h1
        · simp only [Map.look, if_true] at h2
          rw [if_neg hne, Map.look_rising hm.2 (by omega)] at h2
          cases h2
      have val : e.2 = e'.2 := by simpa [Map.look, key] using h1
      have hh : e = e' := Prod.ext key val
      subst hh
      congr 1
      refine ih hm.2 hn.2 fun k => ?_
      have hk := h k
      simp only [Map.look] at hk
      by_cases hek : e.1 = k
      · subst hek; rw [Map.look_rising hm.2 (by omega), Map.look_rising hn.2 (by omega)]
      · simpa [hek] using hk

end Sys2Proof
end

