-- ==== Sys2Proof/Laws/Mem.lean ====
section
/-! SUPPORT. Memory at memory itself: what every operation on its bytes does, and that each keeps the canonical form. -/
namespace Sys2Proof.Machine

/-- A byte written is read back, and every other byte stays. -/
theorem MemSys.byte_setByte (m : MemSys) (pa q : Nat) (b : Byte) :
    (m.setByte pa b).byte q = if q = pa then b else m.byte q := by
  simp [MemSys.byte, MemSys.setByte, Map.get_set]

theorem MemSys.setByte_wf (m : MemSys) (pa : Nat) (b : Byte) (h : Memory.wf m.bytes = true) :
    Memory.wf (m.setByte pa b).bytes = true := Map.wf_set 0 pa b h

/-- Bytes written in a row: byte i of the list is at `pa + i`, and every other byte stays. -/
theorem MemSys.byte_setBytes (m : MemSys) (pa q : Nat) (bs : List Byte) :
    (m.setBytes pa bs).byte q = if pa ≤ q ∧ q < pa + bs.length then bs.getD (q - pa) 0 else m.byte q := by
  induction bs generalizing m pa with
  | nil => simp only [MemSys.setBytes, List.length_nil]; split_ifs with h; · omega
           · rfl
  | cons b t ih =>
    rw [MemSys.setBytes, ih, MemSys.byte_setByte]
    simp only [List.length_cons]
    by_cases h1 : q = pa
    · subst h1
      rw [if_neg (by omega), if_pos rfl, if_pos (by omega)]
      simp
    · by_cases h2 : pa ≤ q ∧ q < pa + (t.length + 1)
      · rw [if_pos (by omega), if_pos h2]
        have h3 : q - pa = (q - (pa + 1)) + 1 := by omega
        rw [h3]; simp
      · rw [if_neg (by omega), if_neg h1, if_neg h2]

theorem MemSys.setBytes_wf (m : MemSys) (pa : Nat) (bs : List Byte) (h : Memory.wf m.bytes = true) :
    Memory.wf (m.setBytes pa bs).bytes = true := by
  induction bs generalizing m pa with
  | nil => exact h
  | cons b t ih => exact ih _ _ (MemSys.setByte_wf m pa b h)

theorem MemSys.setLine_wf (m : MemSys) (line : Nat) (d : LineData) (mask : BitVec 64) (h : Memory.wf m.bytes = true) :
    Memory.wf (m.setLine line d mask).bytes = true := by
  unfold MemSys.setLine
  generalize List.range 64 = xs
  induction xs generalizing m with
  | nil => exact h
  | cons i t ih =>
    refine ih _ ?_
    dsimp only
    split_ifs
    · exact MemSys.setByte_wf _ _ _ h
    · exact h

/-- A line written under a mask: each masked byte takes the line's, and every other byte of memory stays. -/
theorem MemSys.byte_setLine (m : MemSys) (line q : Nat) (d : LineData) (mask : BitVec 64) :
    (m.setLine line d mask).byte q =
      if q / 64 = line ∧ mask.getLsbD (q % 64) = true then lineByte d (q % 64) else m.byte q := by
  have key : ∀ (xs : List Nat) (m : MemSys), (∀ i ∈ xs, i < 64) → xs.Nodup →
      (xs.foldl (fun m i => if mask.getLsbD i then m.setByte (64 * line + i) (lineByte d i) else m) m).byte q =
        if q / 64 = line ∧ q % 64 ∈ xs ∧ mask.getLsbD (q % 64) = true then lineByte d (q % 64) else m.byte q := by
    intro xs
    induction xs with
    | nil => intro m _ _; simp
    | cons i t ih =>
      intro m hx hn
      have hi := hx i (by simp)
      rw [List.foldl_cons, ih _ (fun j hj => hx j (by simp [hj])) (List.nodup_cons.mp hn).2]
      have hit := (List.nodup_cons.mp hn).1
      by_cases hm : mask.getLsbD i = true
      · simp only [hm, if_true, MemSys.byte_setByte, List.mem_cons]
        by_cases hq : q = 64 * line + i
        · have h1 : q / 64 = line := by omega
          have h2 : q % 64 = i := by omega
          rw [h1, h2, if_pos hq]; simp [hit, hm]
        · have h2 : ¬ (q / 64 = line ∧ q % 64 = i) := by omega
          rw [if_neg hq]
          by_cases h3 : q / 64 = line
          · have h4 : q % 64 ≠ i := fun e => h2 ⟨h3, e⟩
            simp [h3, h4]
          · simp [h3]
      · simp only [hm, Bool.false_eq_true, if_false, List.mem_cons]
        by_cases h4 : q % 64 = i
        · rw [h4]; simp [hm]
        · simp [h4]
  rw [MemSys.setLine, key (List.range 64) m (fun i hi => List.mem_range.mp hi) List.nodup_range]
  have : q % 64 ∈ List.range 64 := List.mem_range.mpr (by omega)
  simp [this]

end Sys2Proof.Machine
end

