-- ==== Sys2Proof/Laws/State.lean ====
section
/-! SUPPORT. The state's plain updates: what each leaves alone, and what it sets. -/
namespace Sys2Proof.Machine

@[simp] theorem State.setCore_boot (s : State) (c : Nat) (x : Core) : (s.setCore c x).boot = s.boot := rfl
@[simp] theorem State.setCore_now (s : State) (c : Nat) (x : Core) : (s.setCore c x).now = s.now := rfl
@[simp] theorem State.setCore_schedule (s : State) (c : Nat) (x : Core) : (s.setCore c x).schedule = s.schedule := rfl
@[simp] theorem State.setCore_agent (s : State) (c : Nat) (x : Core) : (s.setCore c x).agent = s.agent := rfl
@[simp] theorem State.setCore_fresh (s : State) (c : Nat) (x : Core) : (s.setCore c x).fresh = s.fresh := rfl
@[simp] theorem State.setCore_nextId (s : State) (c : Nat) (x : Core) : (s.setCore c x).nextId = s.nextId := rfl
@[simp] theorem State.setCore_phase (s : State) (c : Nat) (x : Core) : (s.setCore c x).phase = s.phase := rfl
@[simp] theorem State.setCore_sweeping (s : State) (c : Nat) (x : Core) : (s.setCore c x).sweeping = s.sweeping := rfl
@[simp] theorem State.setCore_mem (s : State) (c : Nat) (x : Core) : (s.setCore c x).mem = s.mem := rfl
@[simp] theorem State.setCore_groups (s : State) (c : Nat) (x : Core) : (s.setCore c x).groups = s.groups := rfl
@[simp] theorem State.setCore_blocks (s : State) (c : Nat) (x : Core) : (s.setCore c x).blocks = s.blocks := rfl
@[simp] theorem State.setCore_copies (s : State) (c : Nat) (x : Core) : (s.setCore c x).copies = s.copies := rfl
@[simp] theorem State.setCore_jobs (s : State) (c : Nat) (x : Core) : (s.setCore c x).jobs = s.jobs := rfl
@[simp] theorem State.setCore_gaths (s : State) (c : Nat) (x : Core) : (s.setCore c x).gaths = s.gaths := rfl
@[simp] theorem State.setCore_annex (s : State) (c : Nat) (x : Core) : (s.setCore c x).annex = s.annex := rfl
@[simp] theorem State.setCore_belfry (s : State) (c : Nat) (x : Core) : (s.setCore c x).belfry = s.belfry := rfl
@[simp] theorem State.setCore_domains (s : State) (c : Nat) (x : Core) : (s.setCore c x).domains = s.domains := rfl
@[simp] theorem State.setCore_faults (s : State) (c : Nat) (x : Core) : (s.setCore c x).faults = s.faults := rfl
@[simp] theorem State.setCore_links (s : State) (c : Nat) (x : Core) : (s.setCore c x).links = s.links := rfl
@[simp] theorem State.setCore_keep (s : State) (c : Nat) (x : Core) : (s.setCore c x).keep = s.keep := rfl
@[simp] theorem State.setCore_service (s : State) (c : Nat) (x : Core) : (s.setCore c x).service = s.service := rfl
@[simp] theorem State.setCore_cores (s : State) (c : Nat) (x : Core) : (s.setCore c x).cores = Map.set {} s.cores c x := rfl

@[simp] theorem State.onCore_boot (s : State) (c : Nat) (f : Core → Core) : (s.onCore c f).boot = s.boot := rfl
@[simp] theorem State.onCore_now (s : State) (c : Nat) (f : Core → Core) : (s.onCore c f).now = s.now := rfl
@[simp] theorem State.onCore_schedule (s : State) (c : Nat) (f : Core → Core) : (s.onCore c f).schedule = s.schedule := rfl
@[simp] theorem State.onCore_agent (s : State) (c : Nat) (f : Core → Core) : (s.onCore c f).agent = s.agent := rfl
@[simp] theorem State.onCore_fresh (s : State) (c : Nat) (f : Core → Core) : (s.onCore c f).fresh = s.fresh := rfl
@[simp] theorem State.onCore_nextId (s : State) (c : Nat) (f : Core → Core) : (s.onCore c f).nextId = s.nextId := rfl
@[simp] theorem State.onCore_phase (s : State) (c : Nat) (f : Core → Core) : (s.onCore c f).phase = s.phase := rfl
@[simp] theorem State.onCore_sweeping (s : State) (c : Nat) (f : Core → Core) : (s.onCore c f).sweeping = s.sweeping := rfl
@[simp] theorem State.onCore_mem (s : State) (c : Nat) (f : Core → Core) : (s.onCore c f).mem = s.mem := rfl
@[simp] theorem State.onCore_groups (s : State) (c : Nat) (f : Core → Core) : (s.onCore c f).groups = s.groups := rfl
@[simp] theorem State.onCore_blocks (s : State) (c : Nat) (f : Core → Core) : (s.onCore c f).blocks = s.blocks := rfl
@[simp] theorem State.onCore_copies (s : State) (c : Nat) (f : Core → Core) : (s.onCore c f).copies = s.copies := rfl
@[simp] theorem State.onCore_jobs (s : State) (c : Nat) (f : Core → Core) : (s.onCore c f).jobs = s.jobs := rfl
@[simp] theorem State.onCore_gaths (s : State) (c : Nat) (f : Core → Core) : (s.onCore c f).gaths = s.gaths := rfl
@[simp] theorem State.onCore_annex (s : State) (c : Nat) (f : Core → Core) : (s.onCore c f).annex = s.annex := rfl
@[simp] theorem State.onCore_belfry (s : State) (c : Nat) (f : Core → Core) : (s.onCore c f).belfry = s.belfry := rfl
@[simp] theorem State.onCore_domains (s : State) (c : Nat) (f : Core → Core) : (s.onCore c f).domains = s.domains := rfl
@[simp] theorem State.onCore_faults (s : State) (c : Nat) (f : Core → Core) : (s.onCore c f).faults = s.faults := rfl
@[simp] theorem State.onCore_links (s : State) (c : Nat) (f : Core → Core) : (s.onCore c f).links = s.links := rfl
@[simp] theorem State.onCore_keep (s : State) (c : Nat) (f : Core → Core) : (s.onCore c f).keep = s.keep := rfl
@[simp] theorem State.onCore_service (s : State) (c : Nat) (f : Core → Core) : (s.onCore c f).service = s.service := rfl

@[simp] theorem State.setGroup_boot (s : State) (k : Nat) (g : Group) : (s.setGroup k g).boot = s.boot := rfl
@[simp] theorem State.setGroup_now (s : State) (k : Nat) (g : Group) : (s.setGroup k g).now = s.now := rfl
@[simp] theorem State.setGroup_schedule (s : State) (k : Nat) (g : Group) : (s.setGroup k g).schedule = s.schedule := rfl
@[simp] theorem State.setGroup_agent (s : State) (k : Nat) (g : Group) : (s.setGroup k g).agent = s.agent := rfl
@[simp] theorem State.setGroup_fresh (s : State) (k : Nat) (g : Group) : (s.setGroup k g).fresh = s.fresh := rfl
@[simp] theorem State.setGroup_nextId (s : State) (k : Nat) (g : Group) : (s.setGroup k g).nextId = s.nextId := rfl
@[simp] theorem State.setGroup_phase (s : State) (k : Nat) (g : Group) : (s.setGroup k g).phase = s.phase := rfl
@[simp] theorem State.setGroup_sweeping (s : State) (k : Nat) (g : Group) : (s.setGroup k g).sweeping = s.sweeping := rfl
@[simp] theorem State.setGroup_mem (s : State) (k : Nat) (g : Group) : (s.setGroup k g).mem = s.mem := rfl
@[simp] theorem State.setGroup_cores (s : State) (k : Nat) (g : Group) : (s.setGroup k g).cores = s.cores := rfl
@[simp] theorem State.setGroup_blocks (s : State) (k : Nat) (g : Group) : (s.setGroup k g).blocks = s.blocks := rfl
@[simp] theorem State.setGroup_copies (s : State) (k : Nat) (g : Group) : (s.setGroup k g).copies = s.copies := rfl
@[simp] theorem State.setGroup_jobs (s : State) (k : Nat) (g : Group) : (s.setGroup k g).jobs = s.jobs := rfl
@[simp] theorem State.setGroup_gaths (s : State) (k : Nat) (g : Group) : (s.setGroup k g).gaths = s.gaths := rfl
@[simp] theorem State.setGroup_annex (s : State) (k : Nat) (g : Group) : (s.setGroup k g).annex = s.annex := rfl
@[simp] theorem State.setGroup_belfry (s : State) (k : Nat) (g : Group) : (s.setGroup k g).belfry = s.belfry := rfl
@[simp] theorem State.setGroup_domains (s : State) (k : Nat) (g : Group) : (s.setGroup k g).domains = s.domains := rfl
@[simp] theorem State.setGroup_faults (s : State) (k : Nat) (g : Group) : (s.setGroup k g).faults = s.faults := rfl
@[simp] theorem State.setGroup_links (s : State) (k : Nat) (g : Group) : (s.setGroup k g).links = s.links := rfl
@[simp] theorem State.setGroup_keep (s : State) (k : Nat) (g : Group) : (s.setGroup k g).keep = s.keep := rfl
@[simp] theorem State.setGroup_service (s : State) (k : Nat) (g : Group) : (s.setGroup k g).service = s.service := rfl
@[simp] theorem State.setGroup_groups (s : State) (k : Nat) (g : Group) : (s.setGroup k g).groups = s.groups.put k g := rfl

@[simp] theorem State.onGroup_boot (s : State) (k : Nat) (f : Group → Group) : (s.onGroup k f).boot = s.boot := rfl
@[simp] theorem State.onGroup_now (s : State) (k : Nat) (f : Group → Group) : (s.onGroup k f).now = s.now := rfl
@[simp] theorem State.onGroup_schedule (s : State) (k : Nat) (f : Group → Group) : (s.onGroup k f).schedule = s.schedule := rfl
@[simp] theorem State.onGroup_agent (s : State) (k : Nat) (f : Group → Group) : (s.onGroup k f).agent = s.agent := rfl
@[simp] theorem State.onGroup_fresh (s : State) (k : Nat) (f : Group → Group) : (s.onGroup k f).fresh = s.fresh := rfl
@[simp] theorem State.onGroup_nextId (s : State) (k : Nat) (f : Group → Group) : (s.onGroup k f).nextId = s.nextId := rfl
@[simp] theorem State.onGroup_phase (s : State) (k : Nat) (f : Group → Group) : (s.onGroup k f).phase = s.phase := rfl
@[simp] theorem State.onGroup_sweeping (s : State) (k : Nat) (f : Group → Group) : (s.onGroup k f).sweeping = s.sweeping := rfl
@[simp] theorem State.onGroup_mem (s : State) (k : Nat) (f : Group → Group) : (s.onGroup k f).mem = s.mem := rfl
@[simp] theorem State.onGroup_cores (s : State) (k : Nat) (f : Group → Group) : (s.onGroup k f).cores = s.cores := rfl
@[simp] theorem State.onGroup_blocks (s : State) (k : Nat) (f : Group → Group) : (s.onGroup k f).blocks = s.blocks := rfl
@[simp] theorem State.onGroup_copies (s : State) (k : Nat) (f : Group → Group) : (s.onGroup k f).copies = s.copies := rfl
@[simp] theorem State.onGroup_jobs (s : State) (k : Nat) (f : Group → Group) : (s.onGroup k f).jobs = s.jobs := rfl
@[simp] theorem State.onGroup_gaths (s : State) (k : Nat) (f : Group → Group) : (s.onGroup k f).gaths = s.gaths := rfl
@[simp] theorem State.onGroup_annex (s : State) (k : Nat) (f : Group → Group) : (s.onGroup k f).annex = s.annex := rfl
@[simp] theorem State.onGroup_belfry (s : State) (k : Nat) (f : Group → Group) : (s.onGroup k f).belfry = s.belfry := rfl
@[simp] theorem State.onGroup_domains (s : State) (k : Nat) (f : Group → Group) : (s.onGroup k f).domains = s.domains := rfl
@[simp] theorem State.onGroup_faults (s : State) (k : Nat) (f : Group → Group) : (s.onGroup k f).faults = s.faults := rfl
@[simp] theorem State.onGroup_links (s : State) (k : Nat) (f : Group → Group) : (s.onGroup k f).links = s.links := rfl
@[simp] theorem State.onGroup_keep (s : State) (k : Nat) (f : Group → Group) : (s.onGroup k f).keep = s.keep := rfl
@[simp] theorem State.onGroup_service (s : State) (k : Nat) (f : Group → Group) : (s.onGroup k f).service = s.service := rfl
@[simp] theorem State.onGroup_groups (s : State) (k : Nat) (f : Group → Group) : (s.onGroup k f).groups = s.groups.adjust k f := rfl

@[simp] theorem State.setBlock_boot (s : State) (k : Nat) (b : Block) : (s.setBlock k b).boot = s.boot := rfl
@[simp] theorem State.setBlock_now (s : State) (k : Nat) (b : Block) : (s.setBlock k b).now = s.now := rfl
@[simp] theorem State.setBlock_schedule (s : State) (k : Nat) (b : Block) : (s.setBlock k b).schedule = s.schedule := rfl
@[simp] theorem State.setBlock_agent (s : State) (k : Nat) (b : Block) : (s.setBlock k b).agent = s.agent := rfl
@[simp] theorem State.setBlock_fresh (s : State) (k : Nat) (b : Block) : (s.setBlock k b).fresh = s.fresh := rfl
@[simp] theorem State.setBlock_nextId (s : State) (k : Nat) (b : Block) : (s.setBlock k b).nextId = s.nextId := rfl
@[simp] theorem State.setBlock_phase (s : State) (k : Nat) (b : Block) : (s.setBlock k b).phase = s.phase := rfl
@[simp] theorem State.setBlock_sweeping (s : State) (k : Nat) (b : Block) : (s.setBlock k b).sweeping = s.sweeping := rfl
@[simp] theorem State.setBlock_mem (s : State) (k : Nat) (b : Block) : (s.setBlock k b).mem = s.mem := rfl
@[simp] theorem State.setBlock_cores (s : State) (k : Nat) (b : Block) : (s.setBlock k b).cores = s.cores := rfl
@[simp] theorem State.setBlock_groups (s : State) (k : Nat) (b : Block) : (s.setBlock k b).groups = s.groups := rfl
@[simp] theorem State.setBlock_copies (s : State) (k : Nat) (b : Block) : (s.setBlock k b).copies = s.copies := rfl
@[simp] theorem State.setBlock_jobs (s : State) (k : Nat) (b : Block) : (s.setBlock k b).jobs = s.jobs := rfl
@[simp] theorem State.setBlock_gaths (s : State) (k : Nat) (b : Block) : (s.setBlock k b).gaths = s.gaths := rfl
@[simp] theorem State.setBlock_annex (s : State) (k : Nat) (b : Block) : (s.setBlock k b).annex = s.annex := rfl
@[simp] theorem State.setBlock_belfry (s : State) (k : Nat) (b : Block) : (s.setBlock k b).belfry = s.belfry := rfl
@[simp] theorem State.setBlock_domains (s : State) (k : Nat) (b : Block) : (s.setBlock k b).domains = s.domains := rfl
@[simp] theorem State.setBlock_faults (s : State) (k : Nat) (b : Block) : (s.setBlock k b).faults = s.faults := rfl
@[simp] theorem State.setBlock_links (s : State) (k : Nat) (b : Block) : (s.setBlock k b).links = s.links := rfl
@[simp] theorem State.setBlock_keep (s : State) (k : Nat) (b : Block) : (s.setBlock k b).keep = s.keep := rfl
@[simp] theorem State.setBlock_service (s : State) (k : Nat) (b : Block) : (s.setBlock k b).service = s.service := rfl
@[simp] theorem State.setBlock_blocks (s : State) (k : Nat) (b : Block) : (s.setBlock k b).blocks = s.blocks.put k b := rfl

@[simp] theorem State.onBlock_boot (s : State) (k : Nat) (f : Block → Block) : (s.onBlock k f).boot = s.boot := rfl
@[simp] theorem State.onBlock_now (s : State) (k : Nat) (f : Block → Block) : (s.onBlock k f).now = s.now := rfl
@[simp] theorem State.onBlock_schedule (s : State) (k : Nat) (f : Block → Block) : (s.onBlock k f).schedule = s.schedule := rfl
@[simp] theorem State.onBlock_agent (s : State) (k : Nat) (f : Block → Block) : (s.onBlock k f).agent = s.agent := rfl
@[simp] theorem State.onBlock_fresh (s : State) (k : Nat) (f : Block → Block) : (s.onBlock k f).fresh = s.fresh := rfl
@[simp] theorem State.onBlock_nextId (s : State) (k : Nat) (f : Block → Block) : (s.onBlock k f).nextId = s.nextId := rfl
@[simp] theorem State.onBlock_phase (s : State) (k : Nat) (f : Block → Block) : (s.onBlock k f).phase = s.phase := rfl
@[simp] theorem State.onBlock_sweeping (s : State) (k : Nat) (f : Block → Block) : (s.onBlock k f).sweeping = s.sweeping := rfl
@[simp] theorem State.onBlock_mem (s : State) (k : Nat) (f : Block → Block) : (s.onBlock k f).mem = s.mem := rfl
@[simp] theorem State.onBlock_cores (s : State) (k : Nat) (f : Block → Block) : (s.onBlock k f).cores = s.cores := rfl
@[simp] theorem State.onBlock_groups (s : State) (k : Nat) (f : Block → Block) : (s.onBlock k f).groups = s.groups := rfl
@[simp] theorem State.onBlock_copies (s : State) (k : Nat) (f : Block → Block) : (s.onBlock k f).copies = s.copies := rfl
@[simp] theorem State.onBlock_jobs (s : State) (k : Nat) (f : Block → Block) : (s.onBlock k f).jobs = s.jobs := rfl
@[simp] theorem State.onBlock_gaths (s : State) (k : Nat) (f : Block → Block) : (s.onBlock k f).gaths = s.gaths := rfl
@[simp] theorem State.onBlock_annex (s : State) (k : Nat) (f : Block → Block) : (s.onBlock k f).annex = s.annex := rfl
@[simp] theorem State.onBlock_belfry (s : State) (k : Nat) (f : Block → Block) : (s.onBlock k f).belfry = s.belfry := rfl
@[simp] theorem State.onBlock_domains (s : State) (k : Nat) (f : Block → Block) : (s.onBlock k f).domains = s.domains := rfl
@[simp] theorem State.onBlock_faults (s : State) (k : Nat) (f : Block → Block) : (s.onBlock k f).faults = s.faults := rfl
@[simp] theorem State.onBlock_links (s : State) (k : Nat) (f : Block → Block) : (s.onBlock k f).links = s.links := rfl
@[simp] theorem State.onBlock_keep (s : State) (k : Nat) (f : Block → Block) : (s.onBlock k f).keep = s.keep := rfl
@[simp] theorem State.onBlock_service (s : State) (k : Nat) (f : Block → Block) : (s.onBlock k f).service = s.service := rfl
@[simp] theorem State.onBlock_blocks (s : State) (k : Nat) (f : Block → Block) : (s.onBlock k f).blocks = s.blocks.adjust k f := rfl

@[simp] theorem State.setDomain_boot (s : State) (d : Nat) (x : Domain) : (s.setDomain d x).boot = s.boot := rfl
@[simp] theorem State.setDomain_now (s : State) (d : Nat) (x : Domain) : (s.setDomain d x).now = s.now := rfl
@[simp] theorem State.setDomain_schedule (s : State) (d : Nat) (x : Domain) : (s.setDomain d x).schedule = s.schedule := rfl
@[simp] theorem State.setDomain_agent (s : State) (d : Nat) (x : Domain) : (s.setDomain d x).agent = s.agent := rfl
@[simp] theorem State.setDomain_fresh (s : State) (d : Nat) (x : Domain) : (s.setDomain d x).fresh = s.fresh := rfl
@[simp] theorem State.setDomain_nextId (s : State) (d : Nat) (x : Domain) : (s.setDomain d x).nextId = s.nextId := rfl
@[simp] theorem State.setDomain_phase (s : State) (d : Nat) (x : Domain) : (s.setDomain d x).phase = s.phase := rfl
@[simp] theorem State.setDomain_sweeping (s : State) (d : Nat) (x : Domain) : (s.setDomain d x).sweeping = s.sweeping := rfl
@[simp] theorem State.setDomain_mem (s : State) (d : Nat) (x : Domain) : (s.setDomain d x).mem = s.mem := rfl
@[simp] theorem State.setDomain_cores (s : State) (d : Nat) (x : Domain) : (s.setDomain d x).cores = s.cores := rfl
@[simp] theorem State.setDomain_groups (s : State) (d : Nat) (x : Domain) : (s.setDomain d x).groups = s.groups := rfl
@[simp] theorem State.setDomain_blocks (s : State) (d : Nat) (x : Domain) : (s.setDomain d x).blocks = s.blocks := rfl
@[simp] theorem State.setDomain_copies (s : State) (d : Nat) (x : Domain) : (s.setDomain d x).copies = s.copies := rfl
@[simp] theorem State.setDomain_jobs (s : State) (d : Nat) (x : Domain) : (s.setDomain d x).jobs = s.jobs := rfl
@[simp] theorem State.setDomain_gaths (s : State) (d : Nat) (x : Domain) : (s.setDomain d x).gaths = s.gaths := rfl
@[simp] theorem State.setDomain_annex (s : State) (d : Nat) (x : Domain) : (s.setDomain d x).annex = s.annex := rfl
@[simp] theorem State.setDomain_belfry (s : State) (d : Nat) (x : Domain) : (s.setDomain d x).belfry = s.belfry := rfl
@[simp] theorem State.setDomain_faults (s : State) (d : Nat) (x : Domain) : (s.setDomain d x).faults = s.faults := rfl
@[simp] theorem State.setDomain_links (s : State) (d : Nat) (x : Domain) : (s.setDomain d x).links = s.links := rfl
@[simp] theorem State.setDomain_keep (s : State) (d : Nat) (x : Domain) : (s.setDomain d x).keep = s.keep := rfl
@[simp] theorem State.setDomain_service (s : State) (d : Nat) (x : Domain) : (s.setDomain d x).service = s.service := rfl
@[simp] theorem State.setDomain_domains (s : State) (d : Nat) (x : Domain) : (s.setDomain d x).domains = Map.set {} s.domains d x := rfl

@[simp] theorem State.setMts_boot (s : State) (k : Nat) (t : Time) : (s.setMts k t).boot = s.boot := rfl
@[simp] theorem State.setMts_now (s : State) (k : Nat) (t : Time) : (s.setMts k t).now = s.now := rfl
@[simp] theorem State.setMts_schedule (s : State) (k : Nat) (t : Time) : (s.setMts k t).schedule = s.schedule := rfl
@[simp] theorem State.setMts_agent (s : State) (k : Nat) (t : Time) : (s.setMts k t).agent = s.agent := rfl
@[simp] theorem State.setMts_fresh (s : State) (k : Nat) (t : Time) : (s.setMts k t).fresh = s.fresh := rfl
@[simp] theorem State.setMts_nextId (s : State) (k : Nat) (t : Time) : (s.setMts k t).nextId = s.nextId := rfl
@[simp] theorem State.setMts_phase (s : State) (k : Nat) (t : Time) : (s.setMts k t).phase = s.phase := rfl
@[simp] theorem State.setMts_sweeping (s : State) (k : Nat) (t : Time) : (s.setMts k t).sweeping = s.sweeping := rfl
@[simp] theorem State.setMts_cores (s : State) (k : Nat) (t : Time) : (s.setMts k t).cores = s.cores := rfl
@[simp] theorem State.setMts_groups (s : State) (k : Nat) (t : Time) : (s.setMts k t).groups = s.groups := rfl
@[simp] theorem State.setMts_blocks (s : State) (k : Nat) (t : Time) : (s.setMts k t).blocks = s.blocks := rfl
@[simp] theorem State.setMts_copies (s : State) (k : Nat) (t : Time) : (s.setMts k t).copies = s.copies := rfl
@[simp] theorem State.setMts_jobs (s : State) (k : Nat) (t : Time) : (s.setMts k t).jobs = s.jobs := rfl
@[simp] theorem State.setMts_gaths (s : State) (k : Nat) (t : Time) : (s.setMts k t).gaths = s.gaths := rfl
@[simp] theorem State.setMts_annex (s : State) (k : Nat) (t : Time) : (s.setMts k t).annex = s.annex := rfl
@[simp] theorem State.setMts_belfry (s : State) (k : Nat) (t : Time) : (s.setMts k t).belfry = s.belfry := rfl
@[simp] theorem State.setMts_domains (s : State) (k : Nat) (t : Time) : (s.setMts k t).domains = s.domains := rfl
@[simp] theorem State.setMts_faults (s : State) (k : Nat) (t : Time) : (s.setMts k t).faults = s.faults := rfl
@[simp] theorem State.setMts_links (s : State) (k : Nat) (t : Time) : (s.setMts k t).links = s.links := rfl
@[simp] theorem State.setMts_keep (s : State) (k : Nat) (t : Time) : (s.setMts k t).keep = s.keep := rfl
@[simp] theorem State.setMts_service (s : State) (k : Nat) (t : Time) : (s.setMts k t).service = s.service := rfl

/-- A flit changes the Spire ports alone. -/
theorem State.sendFlit_eq (s : State) (d : Nat) : ∃ l, s.sendFlit d = { s with links := l } := by
  unfold State.sendFlit
  split
  · exact ⟨_, rfl⟩
  · exact ⟨s.links, rfl⟩

@[simp] theorem State.sendFlit_boot (s : State) (d : Nat) : (s.sendFlit d).boot = s.boot := by obtain ⟨l, h⟩ := s.sendFlit_eq d; rw [h]
@[simp] theorem State.sendFlit_now (s : State) (d : Nat) : (s.sendFlit d).now = s.now := by obtain ⟨l, h⟩ := s.sendFlit_eq d; rw [h]
@[simp] theorem State.sendFlit_schedule (s : State) (d : Nat) : (s.sendFlit d).schedule = s.schedule := by obtain ⟨l, h⟩ := s.sendFlit_eq d; rw [h]
@[simp] theorem State.sendFlit_agent (s : State) (d : Nat) : (s.sendFlit d).agent = s.agent := by obtain ⟨l, h⟩ := s.sendFlit_eq d; rw [h]
@[simp] theorem State.sendFlit_fresh (s : State) (d : Nat) : (s.sendFlit d).fresh = s.fresh := by obtain ⟨l, h⟩ := s.sendFlit_eq d; rw [h]
@[simp] theorem State.sendFlit_nextId (s : State) (d : Nat) : (s.sendFlit d).nextId = s.nextId := by obtain ⟨l, h⟩ := s.sendFlit_eq d; rw [h]
@[simp] theorem State.sendFlit_phase (s : State) (d : Nat) : (s.sendFlit d).phase = s.phase := by obtain ⟨l, h⟩ := s.sendFlit_eq d; rw [h]
@[simp] theorem State.sendFlit_sweeping (s : State) (d : Nat) : (s.sendFlit d).sweeping = s.sweeping := by obtain ⟨l, h⟩ := s.sendFlit_eq d; rw [h]
@[simp] theorem State.sendFlit_mem (s : State) (d : Nat) : (s.sendFlit d).mem = s.mem := by obtain ⟨l, h⟩ := s.sendFlit_eq d; rw [h]
@[simp] theorem State.sendFlit_cores (s : State) (d : Nat) : (s.sendFlit d).cores = s.cores := by obtain ⟨l, h⟩ := s.sendFlit_eq d; rw [h]
@[simp] theorem State.sendFlit_groups (s : State) (d : Nat) : (s.sendFlit d).groups = s.groups := by obtain ⟨l, h⟩ := s.sendFlit_eq d; rw [h]
@[simp] theorem State.sendFlit_blocks (s : State) (d : Nat) : (s.sendFlit d).blocks = s.blocks := by obtain ⟨l, h⟩ := s.sendFlit_eq d; rw [h]
@[simp] theorem State.sendFlit_copies (s : State) (d : Nat) : (s.sendFlit d).copies = s.copies := by obtain ⟨l, h⟩ := s.sendFlit_eq d; rw [h]
@[simp] theorem State.sendFlit_jobs (s : State) (d : Nat) : (s.sendFlit d).jobs = s.jobs := by obtain ⟨l, h⟩ := s.sendFlit_eq d; rw [h]
@[simp] theorem State.sendFlit_gaths (s : State) (d : Nat) : (s.sendFlit d).gaths = s.gaths := by obtain ⟨l, h⟩ := s.sendFlit_eq d; rw [h]
@[simp] theorem State.sendFlit_annex (s : State) (d : Nat) : (s.sendFlit d).annex = s.annex := by obtain ⟨l, h⟩ := s.sendFlit_eq d; rw [h]
@[simp] theorem State.sendFlit_belfry (s : State) (d : Nat) : (s.sendFlit d).belfry = s.belfry := by obtain ⟨l, h⟩ := s.sendFlit_eq d; rw [h]
@[simp] theorem State.sendFlit_domains (s : State) (d : Nat) : (s.sendFlit d).domains = s.domains := by obtain ⟨l, h⟩ := s.sendFlit_eq d; rw [h]
@[simp] theorem State.sendFlit_faults (s : State) (d : Nat) : (s.sendFlit d).faults = s.faults := by obtain ⟨l, h⟩ := s.sendFlit_eq d; rw [h]
@[simp] theorem State.sendFlit_keep (s : State) (d : Nat) : (s.sendFlit d).keep = s.keep := by obtain ⟨l, h⟩ := s.sendFlit_eq d; rw [h]
@[simp] theorem State.sendFlit_service (s : State) (d : Nat) : (s.sendFlit d).service = s.service := by obtain ⟨l, h⟩ := s.sendFlit_eq d; rw [h]

/-- An eviction changes memory, and the Spire ports where a peer's dirty line is written back. -/
theorem State.evictLine_eq (s : State) (l : Nat) (w : Bool) (n : Nat) : ∃ m k, s.evictLine l w n = { s with mem := m, links := k } := by
  unfold State.evictLine
  split
  · exact ⟨s.mem, s.links, rfl⟩
  · dsimp only
    split
    · obtain ⟨k, h⟩ := State.sendFlit_eq _ _
      rw [h]
      exact ⟨_, k, rfl⟩
    · exact ⟨_, s.links, rfl⟩

@[simp] theorem State.evictLine_boot (s : State) (l : Nat) (w : Bool) (n : Nat) : (s.evictLine l w n).boot = s.boot := by obtain ⟨m, l, h⟩ := s.evictLine_eq l w n; rw [h]
@[simp] theorem State.evictLine_now (s : State) (l : Nat) (w : Bool) (n : Nat) : (s.evictLine l w n).now = s.now := by obtain ⟨m, l, h⟩ := s.evictLine_eq l w n; rw [h]
@[simp] theorem State.evictLine_schedule (s : State) (l : Nat) (w : Bool) (n : Nat) : (s.evictLine l w n).schedule = s.schedule := by obtain ⟨m, l, h⟩ := s.evictLine_eq l w n; rw [h]
@[simp] theorem State.evictLine_agent (s : State) (l : Nat) (w : Bool) (n : Nat) : (s.evictLine l w n).agent = s.agent := by obtain ⟨m, l, h⟩ := s.evictLine_eq l w n; rw [h]
@[simp] theorem State.evictLine_fresh (s : State) (l : Nat) (w : Bool) (n : Nat) : (s.evictLine l w n).fresh = s.fresh := by obtain ⟨m, l, h⟩ := s.evictLine_eq l w n; rw [h]
@[simp] theorem State.evictLine_nextId (s : State) (l : Nat) (w : Bool) (n : Nat) : (s.evictLine l w n).nextId = s.nextId := by obtain ⟨m, l, h⟩ := s.evictLine_eq l w n; rw [h]
@[simp] theorem State.evictLine_phase (s : State) (l : Nat) (w : Bool) (n : Nat) : (s.evictLine l w n).phase = s.phase := by obtain ⟨m, l, h⟩ := s.evictLine_eq l w n; rw [h]
@[simp] theorem State.evictLine_sweeping (s : State) (l : Nat) (w : Bool) (n : Nat) : (s.evictLine l w n).sweeping = s.sweeping := by obtain ⟨m, l, h⟩ := s.evictLine_eq l w n; rw [h]
@[simp] theorem State.evictLine_cores (s : State) (l : Nat) (w : Bool) (n : Nat) : (s.evictLine l w n).cores = s.cores := by obtain ⟨m, l, h⟩ := s.evictLine_eq l w n; rw [h]
@[simp] theorem State.evictLine_groups (s : State) (l : Nat) (w : Bool) (n : Nat) : (s.evictLine l w n).groups = s.groups := by obtain ⟨m, l, h⟩ := s.evictLine_eq l w n; rw [h]
@[simp] theorem State.evictLine_blocks (s : State) (l : Nat) (w : Bool) (n : Nat) : (s.evictLine l w n).blocks = s.blocks := by obtain ⟨m, l, h⟩ := s.evictLine_eq l w n; rw [h]
@[simp] theorem State.evictLine_copies (s : State) (l : Nat) (w : Bool) (n : Nat) : (s.evictLine l w n).copies = s.copies := by obtain ⟨m, l, h⟩ := s.evictLine_eq l w n; rw [h]
@[simp] theorem State.evictLine_jobs (s : State) (l : Nat) (w : Bool) (n : Nat) : (s.evictLine l w n).jobs = s.jobs := by obtain ⟨m, l, h⟩ := s.evictLine_eq l w n; rw [h]
@[simp] theorem State.evictLine_gaths (s : State) (l : Nat) (w : Bool) (n : Nat) : (s.evictLine l w n).gaths = s.gaths := by obtain ⟨m, l, h⟩ := s.evictLine_eq l w n; rw [h]
@[simp] theorem State.evictLine_annex (s : State) (l : Nat) (w : Bool) (n : Nat) : (s.evictLine l w n).annex = s.annex := by obtain ⟨m, l, h⟩ := s.evictLine_eq l w n; rw [h]
@[simp] theorem State.evictLine_belfry (s : State) (l : Nat) (w : Bool) (n : Nat) : (s.evictLine l w n).belfry = s.belfry := by obtain ⟨m, l, h⟩ := s.evictLine_eq l w n; rw [h]
@[simp] theorem State.evictLine_domains (s : State) (l : Nat) (w : Bool) (n : Nat) : (s.evictLine l w n).domains = s.domains := by obtain ⟨m, l, h⟩ := s.evictLine_eq l w n; rw [h]
@[simp] theorem State.evictLine_faults (s : State) (l : Nat) (w : Bool) (n : Nat) : (s.evictLine l w n).faults = s.faults := by obtain ⟨m, l, h⟩ := s.evictLine_eq l w n; rw [h]
@[simp] theorem State.evictLine_keep (s : State) (l : Nat) (w : Bool) (n : Nat) : (s.evictLine l w n).keep = s.keep := by obtain ⟨m, l, h⟩ := s.evictLine_eq l w n; rw [h]
@[simp] theorem State.evictLine_service (s : State) (l : Nat) (w : Bool) (n : Nat) : (s.evictLine l w n).service = s.service := by obtain ⟨m, l, h⟩ := s.evictLine_eq l w n; rw [h]

/-- A line put into its slice changes memory, and the Spire ports where a full slice replaces it at once. -/
theorem State.setHome_eq (s : State) (k : Nat) (h : HomeView) : ∃ m l, s.setHome k h = { s with mem := m, links := l } := by
  unfold State.setHome
  dsimp only
  split
  · obtain ⟨m, l, h⟩ := State.evictLine_eq _ _ _ _
    rw [h]
    exact ⟨m, l, rfl⟩
  · exact ⟨_, s.links, rfl⟩

@[simp] theorem State.setHome_boot (s : State) (k : Nat) (h : HomeView) : (s.setHome k h).boot = s.boot := by obtain ⟨m, l, h⟩ := s.setHome_eq k h; rw [h]
@[simp] theorem State.setHome_now (s : State) (k : Nat) (h : HomeView) : (s.setHome k h).now = s.now := by obtain ⟨m, l, h⟩ := s.setHome_eq k h; rw [h]
@[simp] theorem State.setHome_schedule (s : State) (k : Nat) (h : HomeView) : (s.setHome k h).schedule = s.schedule := by obtain ⟨m, l, h⟩ := s.setHome_eq k h; rw [h]
@[simp] theorem State.setHome_agent (s : State) (k : Nat) (h : HomeView) : (s.setHome k h).agent = s.agent := by obtain ⟨m, l, h⟩ := s.setHome_eq k h; rw [h]
@[simp] theorem State.setHome_fresh (s : State) (k : Nat) (h : HomeView) : (s.setHome k h).fresh = s.fresh := by obtain ⟨m, l, h⟩ := s.setHome_eq k h; rw [h]
@[simp] theorem State.setHome_nextId (s : State) (k : Nat) (h : HomeView) : (s.setHome k h).nextId = s.nextId := by obtain ⟨m, l, h⟩ := s.setHome_eq k h; rw [h]
@[simp] theorem State.setHome_phase (s : State) (k : Nat) (h : HomeView) : (s.setHome k h).phase = s.phase := by obtain ⟨m, l, h⟩ := s.setHome_eq k h; rw [h]
@[simp] theorem State.setHome_sweeping (s : State) (k : Nat) (h : HomeView) : (s.setHome k h).sweeping = s.sweeping := by obtain ⟨m, l, h⟩ := s.setHome_eq k h; rw [h]
@[simp] theorem State.setHome_cores (s : State) (k : Nat) (h : HomeView) : (s.setHome k h).cores = s.cores := by obtain ⟨m, l, h⟩ := s.setHome_eq k h; rw [h]
@[simp] theorem State.setHome_groups (s : State) (k : Nat) (h : HomeView) : (s.setHome k h).groups = s.groups := by obtain ⟨m, l, h⟩ := s.setHome_eq k h; rw [h]
@[simp] theorem State.setHome_blocks (s : State) (k : Nat) (h : HomeView) : (s.setHome k h).blocks = s.blocks := by obtain ⟨m, l, h⟩ := s.setHome_eq k h; rw [h]
@[simp] theorem State.setHome_copies (s : State) (k : Nat) (h : HomeView) : (s.setHome k h).copies = s.copies := by obtain ⟨m, l, h⟩ := s.setHome_eq k h; rw [h]
@[simp] theorem State.setHome_jobs (s : State) (k : Nat) (h : HomeView) : (s.setHome k h).jobs = s.jobs := by obtain ⟨m, l, h⟩ := s.setHome_eq k h; rw [h]
@[simp] theorem State.setHome_gaths (s : State) (k : Nat) (h : HomeView) : (s.setHome k h).gaths = s.gaths := by obtain ⟨m, l, h⟩ := s.setHome_eq k h; rw [h]
@[simp] theorem State.setHome_annex (s : State) (k : Nat) (h : HomeView) : (s.setHome k h).annex = s.annex := by obtain ⟨m, l, h⟩ := s.setHome_eq k h; rw [h]
@[simp] theorem State.setHome_belfry (s : State) (k : Nat) (h : HomeView) : (s.setHome k h).belfry = s.belfry := by obtain ⟨m, l, h⟩ := s.setHome_eq k h; rw [h]
@[simp] theorem State.setHome_domains (s : State) (k : Nat) (h : HomeView) : (s.setHome k h).domains = s.domains := by obtain ⟨m, l, h⟩ := s.setHome_eq k h; rw [h]
@[simp] theorem State.setHome_faults (s : State) (k : Nat) (h : HomeView) : (s.setHome k h).faults = s.faults := by obtain ⟨m, l, h⟩ := s.setHome_eq k h; rw [h]
@[simp] theorem State.setHome_keep (s : State) (k : Nat) (h : HomeView) : (s.setHome k h).keep = s.keep := by obtain ⟨m, l, h⟩ := s.setHome_eq k h; rw [h]
@[simp] theorem State.setHome_service (s : State) (k : Nat) (h : HomeView) : (s.setHome k h).service = s.service := by obtain ⟨m, l, h⟩ := s.setHome_eq k h; rw [h]

/-- A copy put into an L1 changes memory alone. -/
theorem State.setL1_eq (s : State) (c k : Nat) (x : CopyView) : ∃ m, s.setL1 c k x = { s with mem := m } := by
  unfold State.setL1
  dsimp only
  split
  · exact ⟨s.mem, rfl⟩
  · exact ⟨_, rfl⟩

@[simp] theorem State.setL1_boot (s : State) (c k : Nat) (x : CopyView) : (s.setL1 c k x).boot = s.boot := by obtain ⟨m, h⟩ := s.setL1_eq c k x; rw [h]
@[simp] theorem State.setL1_now (s : State) (c k : Nat) (x : CopyView) : (s.setL1 c k x).now = s.now := by obtain ⟨m, h⟩ := s.setL1_eq c k x; rw [h]
@[simp] theorem State.setL1_schedule (s : State) (c k : Nat) (x : CopyView) : (s.setL1 c k x).schedule = s.schedule := by obtain ⟨m, h⟩ := s.setL1_eq c k x; rw [h]
@[simp] theorem State.setL1_agent (s : State) (c k : Nat) (x : CopyView) : (s.setL1 c k x).agent = s.agent := by obtain ⟨m, h⟩ := s.setL1_eq c k x; rw [h]
@[simp] theorem State.setL1_fresh (s : State) (c k : Nat) (x : CopyView) : (s.setL1 c k x).fresh = s.fresh := by obtain ⟨m, h⟩ := s.setL1_eq c k x; rw [h]
@[simp] theorem State.setL1_nextId (s : State) (c k : Nat) (x : CopyView) : (s.setL1 c k x).nextId = s.nextId := by obtain ⟨m, h⟩ := s.setL1_eq c k x; rw [h]
@[simp] theorem State.setL1_phase (s : State) (c k : Nat) (x : CopyView) : (s.setL1 c k x).phase = s.phase := by obtain ⟨m, h⟩ := s.setL1_eq c k x; rw [h]
@[simp] theorem State.setL1_sweeping (s : State) (c k : Nat) (x : CopyView) : (s.setL1 c k x).sweeping = s.sweeping := by obtain ⟨m, h⟩ := s.setL1_eq c k x; rw [h]
@[simp] theorem State.setL1_cores (s : State) (c k : Nat) (x : CopyView) : (s.setL1 c k x).cores = s.cores := by obtain ⟨m, h⟩ := s.setL1_eq c k x; rw [h]
@[simp] theorem State.setL1_groups (s : State) (c k : Nat) (x : CopyView) : (s.setL1 c k x).groups = s.groups := by obtain ⟨m, h⟩ := s.setL1_eq c k x; rw [h]
@[simp] theorem State.setL1_blocks (s : State) (c k : Nat) (x : CopyView) : (s.setL1 c k x).blocks = s.blocks := by obtain ⟨m, h⟩ := s.setL1_eq c k x; rw [h]
@[simp] theorem State.setL1_copies (s : State) (c k : Nat) (x : CopyView) : (s.setL1 c k x).copies = s.copies := by obtain ⟨m, h⟩ := s.setL1_eq c k x; rw [h]
@[simp] theorem State.setL1_jobs (s : State) (c k : Nat) (x : CopyView) : (s.setL1 c k x).jobs = s.jobs := by obtain ⟨m, h⟩ := s.setL1_eq c k x; rw [h]
@[simp] theorem State.setL1_gaths (s : State) (c k : Nat) (x : CopyView) : (s.setL1 c k x).gaths = s.gaths := by obtain ⟨m, h⟩ := s.setL1_eq c k x; rw [h]
@[simp] theorem State.setL1_annex (s : State) (c k : Nat) (x : CopyView) : (s.setL1 c k x).annex = s.annex := by obtain ⟨m, h⟩ := s.setL1_eq c k x; rw [h]
@[simp] theorem State.setL1_belfry (s : State) (c k : Nat) (x : CopyView) : (s.setL1 c k x).belfry = s.belfry := by obtain ⟨m, h⟩ := s.setL1_eq c k x; rw [h]
@[simp] theorem State.setL1_domains (s : State) (c k : Nat) (x : CopyView) : (s.setL1 c k x).domains = s.domains := by obtain ⟨m, h⟩ := s.setL1_eq c k x; rw [h]
@[simp] theorem State.setL1_faults (s : State) (c k : Nat) (x : CopyView) : (s.setL1 c k x).faults = s.faults := by obtain ⟨m, h⟩ := s.setL1_eq c k x; rw [h]
@[simp] theorem State.setL1_links (s : State) (c k : Nat) (x : CopyView) : (s.setL1 c k x).links = s.links := by obtain ⟨m, h⟩ := s.setL1_eq c k x; rw [h]
@[simp] theorem State.setL1_keep (s : State) (c k : Nat) (x : CopyView) : (s.setL1 c k x).keep = s.keep := by obtain ⟨m, h⟩ := s.setL1_eq c k x; rw [h]
@[simp] theorem State.setL1_service (s : State) (c k : Nat) (x : CopyView) : (s.setL1 c k x).service = s.service := by obtain ⟨m, h⟩ := s.setL1_eq c k x; rw [h]

@[simp] theorem State.dropFetch_boot (s : State) (c k : Nat) : (s.dropFetch c k).boot = s.boot := rfl
@[simp] theorem State.dropFetch_now (s : State) (c k : Nat) : (s.dropFetch c k).now = s.now := rfl
@[simp] theorem State.dropFetch_schedule (s : State) (c k : Nat) : (s.dropFetch c k).schedule = s.schedule := rfl
@[simp] theorem State.dropFetch_agent (s : State) (c k : Nat) : (s.dropFetch c k).agent = s.agent := rfl
@[simp] theorem State.dropFetch_fresh (s : State) (c k : Nat) : (s.dropFetch c k).fresh = s.fresh := rfl
@[simp] theorem State.dropFetch_nextId (s : State) (c k : Nat) : (s.dropFetch c k).nextId = s.nextId := rfl
@[simp] theorem State.dropFetch_phase (s : State) (c k : Nat) : (s.dropFetch c k).phase = s.phase := rfl
@[simp] theorem State.dropFetch_sweeping (s : State) (c k : Nat) : (s.dropFetch c k).sweeping = s.sweeping := rfl
@[simp] theorem State.dropFetch_cores (s : State) (c k : Nat) : (s.dropFetch c k).cores = s.cores := rfl
@[simp] theorem State.dropFetch_groups (s : State) (c k : Nat) : (s.dropFetch c k).groups = s.groups := rfl
@[simp] theorem State.dropFetch_blocks (s : State) (c k : Nat) : (s.dropFetch c k).blocks = s.blocks := rfl
@[simp] theorem State.dropFetch_copies (s : State) (c k : Nat) : (s.dropFetch c k).copies = s.copies := rfl
@[simp] theorem State.dropFetch_jobs (s : State) (c k : Nat) : (s.dropFetch c k).jobs = s.jobs := rfl
@[simp] theorem State.dropFetch_gaths (s : State) (c k : Nat) : (s.dropFetch c k).gaths = s.gaths := rfl
@[simp] theorem State.dropFetch_annex (s : State) (c k : Nat) : (s.dropFetch c k).annex = s.annex := rfl
@[simp] theorem State.dropFetch_belfry (s : State) (c k : Nat) : (s.dropFetch c k).belfry = s.belfry := rfl
@[simp] theorem State.dropFetch_domains (s : State) (c k : Nat) : (s.dropFetch c k).domains = s.domains := rfl
@[simp] theorem State.dropFetch_faults (s : State) (c k : Nat) : (s.dropFetch c k).faults = s.faults := rfl
@[simp] theorem State.dropFetch_links (s : State) (c k : Nat) : (s.dropFetch c k).links = s.links := rfl
@[simp] theorem State.dropFetch_keep (s : State) (c k : Nat) : (s.dropFetch c k).keep = s.keep := rfl
@[simp] theorem State.dropFetch_service (s : State) (c k : Nat) : (s.dropFetch c k).service = s.service := rfl

@[simp] theorem State.raise_boot (s : State) (r : FaultRec) : (s.raise r).boot = s.boot := rfl
@[simp] theorem State.raise_now (s : State) (r : FaultRec) : (s.raise r).now = s.now := rfl
@[simp] theorem State.raise_schedule (s : State) (r : FaultRec) : (s.raise r).schedule = s.schedule := rfl
@[simp] theorem State.raise_agent (s : State) (r : FaultRec) : (s.raise r).agent = s.agent := rfl
@[simp] theorem State.raise_fresh (s : State) (r : FaultRec) : (s.raise r).fresh = s.fresh := rfl
@[simp] theorem State.raise_nextId (s : State) (r : FaultRec) : (s.raise r).nextId = s.nextId := rfl
@[simp] theorem State.raise_phase (s : State) (r : FaultRec) : (s.raise r).phase = s.phase := rfl
@[simp] theorem State.raise_sweeping (s : State) (r : FaultRec) : (s.raise r).sweeping = s.sweeping := rfl
@[simp] theorem State.raise_mem (s : State) (r : FaultRec) : (s.raise r).mem = s.mem := rfl
@[simp] theorem State.raise_cores (s : State) (r : FaultRec) : (s.raise r).cores = s.cores := rfl
@[simp] theorem State.raise_groups (s : State) (r : FaultRec) : (s.raise r).groups = s.groups := rfl
@[simp] theorem State.raise_blocks (s : State) (r : FaultRec) : (s.raise r).blocks = s.blocks := rfl
@[simp] theorem State.raise_copies (s : State) (r : FaultRec) : (s.raise r).copies = s.copies := rfl
@[simp] theorem State.raise_jobs (s : State) (r : FaultRec) : (s.raise r).jobs = s.jobs := rfl
@[simp] theorem State.raise_gaths (s : State) (r : FaultRec) : (s.raise r).gaths = s.gaths := rfl
@[simp] theorem State.raise_annex (s : State) (r : FaultRec) : (s.raise r).annex = s.annex := rfl
@[simp] theorem State.raise_belfry (s : State) (r : FaultRec) : (s.raise r).belfry = s.belfry := rfl
@[simp] theorem State.raise_domains (s : State) (r : FaultRec) : (s.raise r).domains = s.domains := rfl
@[simp] theorem State.raise_links (s : State) (r : FaultRec) : (s.raise r).links = s.links := rfl
@[simp] theorem State.raise_keep (s : State) (r : FaultRec) : (s.raise r).keep = s.keep := rfl
@[simp] theorem State.raise_service (s : State) (r : FaultRec) : (s.raise r).service = s.service := rfl

@[simp] theorem State.serve_boot (s : State) (k u : Byte) (n : Nat) (d : Word) (a : Nat) : (s.serve k u n d a).boot = s.boot := rfl
@[simp] theorem State.serve_now (s : State) (k u : Byte) (n : Nat) (d : Word) (a : Nat) : (s.serve k u n d a).now = s.now := rfl
@[simp] theorem State.serve_schedule (s : State) (k u : Byte) (n : Nat) (d : Word) (a : Nat) : (s.serve k u n d a).schedule = s.schedule := rfl
@[simp] theorem State.serve_agent (s : State) (k u : Byte) (n : Nat) (d : Word) (a : Nat) : (s.serve k u n d a).agent = s.agent := rfl
@[simp] theorem State.serve_fresh (s : State) (k u : Byte) (n : Nat) (d : Word) (a : Nat) : (s.serve k u n d a).fresh = s.fresh := rfl
@[simp] theorem State.serve_nextId (s : State) (k u : Byte) (n : Nat) (d : Word) (a : Nat) : (s.serve k u n d a).nextId = s.nextId := rfl
@[simp] theorem State.serve_phase (s : State) (k u : Byte) (n : Nat) (d : Word) (a : Nat) : (s.serve k u n d a).phase = s.phase := rfl
@[simp] theorem State.serve_sweeping (s : State) (k u : Byte) (n : Nat) (d : Word) (a : Nat) : (s.serve k u n d a).sweeping = s.sweeping := rfl
@[simp] theorem State.serve_mem (s : State) (k u : Byte) (n : Nat) (d : Word) (a : Nat) : (s.serve k u n d a).mem = s.mem := rfl
@[simp] theorem State.serve_cores (s : State) (k u : Byte) (n : Nat) (d : Word) (a : Nat) : (s.serve k u n d a).cores = s.cores := rfl
@[simp] theorem State.serve_groups (s : State) (k u : Byte) (n : Nat) (d : Word) (a : Nat) : (s.serve k u n d a).groups = s.groups := rfl
@[simp] theorem State.serve_blocks (s : State) (k u : Byte) (n : Nat) (d : Word) (a : Nat) : (s.serve k u n d a).blocks = s.blocks := rfl
@[simp] theorem State.serve_copies (s : State) (k u : Byte) (n : Nat) (d : Word) (a : Nat) : (s.serve k u n d a).copies = s.copies := rfl
@[simp] theorem State.serve_jobs (s : State) (k u : Byte) (n : Nat) (d : Word) (a : Nat) : (s.serve k u n d a).jobs = s.jobs := rfl
@[simp] theorem State.serve_gaths (s : State) (k u : Byte) (n : Nat) (d : Word) (a : Nat) : (s.serve k u n d a).gaths = s.gaths := rfl
@[simp] theorem State.serve_annex (s : State) (k u : Byte) (n : Nat) (d : Word) (a : Nat) : (s.serve k u n d a).annex = s.annex := rfl
@[simp] theorem State.serve_belfry (s : State) (k u : Byte) (n : Nat) (d : Word) (a : Nat) : (s.serve k u n d a).belfry = s.belfry := rfl
@[simp] theorem State.serve_domains (s : State) (k u : Byte) (n : Nat) (d : Word) (a : Nat) : (s.serve k u n d a).domains = s.domains := rfl
@[simp] theorem State.serve_faults (s : State) (k u : Byte) (n : Nat) (d : Word) (a : Nat) : (s.serve k u n d a).faults = s.faults := rfl
@[simp] theorem State.serve_keep (s : State) (k u : Byte) (n : Nat) (d : Word) (a : Nat) : (s.serve k u n d a).keep = s.keep := rfl

@[simp] theorem State.setPort_boot (s : State) (k : Nat) (p : Port) : (s.setPort k p).boot = s.boot := rfl
@[simp] theorem State.setPort_now (s : State) (k : Nat) (p : Port) : (s.setPort k p).now = s.now := rfl
@[simp] theorem State.setPort_schedule (s : State) (k : Nat) (p : Port) : (s.setPort k p).schedule = s.schedule := rfl
@[simp] theorem State.setPort_agent (s : State) (k : Nat) (p : Port) : (s.setPort k p).agent = s.agent := rfl
@[simp] theorem State.setPort_fresh (s : State) (k : Nat) (p : Port) : (s.setPort k p).fresh = s.fresh := rfl
@[simp] theorem State.setPort_nextId (s : State) (k : Nat) (p : Port) : (s.setPort k p).nextId = s.nextId := rfl
@[simp] theorem State.setPort_phase (s : State) (k : Nat) (p : Port) : (s.setPort k p).phase = s.phase := rfl
@[simp] theorem State.setPort_sweeping (s : State) (k : Nat) (p : Port) : (s.setPort k p).sweeping = s.sweeping := rfl
@[simp] theorem State.setPort_mem (s : State) (k : Nat) (p : Port) : (s.setPort k p).mem = s.mem := rfl
@[simp] theorem State.setPort_cores (s : State) (k : Nat) (p : Port) : (s.setPort k p).cores = s.cores := rfl
@[simp] theorem State.setPort_groups (s : State) (k : Nat) (p : Port) : (s.setPort k p).groups = s.groups := rfl
@[simp] theorem State.setPort_blocks (s : State) (k : Nat) (p : Port) : (s.setPort k p).blocks = s.blocks := rfl
@[simp] theorem State.setPort_copies (s : State) (k : Nat) (p : Port) : (s.setPort k p).copies = s.copies := rfl
@[simp] theorem State.setPort_jobs (s : State) (k : Nat) (p : Port) : (s.setPort k p).jobs = s.jobs := rfl
@[simp] theorem State.setPort_gaths (s : State) (k : Nat) (p : Port) : (s.setPort k p).gaths = s.gaths := rfl
@[simp] theorem State.setPort_belfry (s : State) (k : Nat) (p : Port) : (s.setPort k p).belfry = s.belfry := rfl
@[simp] theorem State.setPort_domains (s : State) (k : Nat) (p : Port) : (s.setPort k p).domains = s.domains := rfl
@[simp] theorem State.setPort_faults (s : State) (k : Nat) (p : Port) : (s.setPort k p).faults = s.faults := rfl
@[simp] theorem State.setPort_links (s : State) (k : Nat) (p : Port) : (s.setPort k p).links = s.links := rfl
@[simp] theorem State.setPort_keep (s : State) (k : Nat) (p : Port) : (s.setPort k p).keep = s.keep := rfl
@[simp] theorem State.setPort_service (s : State) (k : Nat) (p : Port) : (s.setPort k p).service = s.service := rfl

@[simp] theorem State.setSeq_boot (s : State) (k : Nat) (q : Seq) : (s.setSeq k q).boot = s.boot := rfl
@[simp] theorem State.setSeq_now (s : State) (k : Nat) (q : Seq) : (s.setSeq k q).now = s.now := rfl
@[simp] theorem State.setSeq_schedule (s : State) (k : Nat) (q : Seq) : (s.setSeq k q).schedule = s.schedule := rfl
@[simp] theorem State.setSeq_agent (s : State) (k : Nat) (q : Seq) : (s.setSeq k q).agent = s.agent := rfl
@[simp] theorem State.setSeq_fresh (s : State) (k : Nat) (q : Seq) : (s.setSeq k q).fresh = s.fresh := rfl
@[simp] theorem State.setSeq_nextId (s : State) (k : Nat) (q : Seq) : (s.setSeq k q).nextId = s.nextId := rfl
@[simp] theorem State.setSeq_phase (s : State) (k : Nat) (q : Seq) : (s.setSeq k q).phase = s.phase := rfl
@[simp] theorem State.setSeq_sweeping (s : State) (k : Nat) (q : Seq) : (s.setSeq k q).sweeping = s.sweeping := rfl
@[simp] theorem State.setSeq_mem (s : State) (k : Nat) (q : Seq) : (s.setSeq k q).mem = s.mem := rfl
@[simp] theorem State.setSeq_cores (s : State) (k : Nat) (q : Seq) : (s.setSeq k q).cores = s.cores := rfl
@[simp] theorem State.setSeq_groups (s : State) (k : Nat) (q : Seq) : (s.setSeq k q).groups = s.groups := rfl
@[simp] theorem State.setSeq_blocks (s : State) (k : Nat) (q : Seq) : (s.setSeq k q).blocks = s.blocks := rfl
@[simp] theorem State.setSeq_copies (s : State) (k : Nat) (q : Seq) : (s.setSeq k q).copies = s.copies := rfl
@[simp] theorem State.setSeq_jobs (s : State) (k : Nat) (q : Seq) : (s.setSeq k q).jobs = s.jobs := rfl
@[simp] theorem State.setSeq_gaths (s : State) (k : Nat) (q : Seq) : (s.setSeq k q).gaths = s.gaths := rfl
@[simp] theorem State.setSeq_belfry (s : State) (k : Nat) (q : Seq) : (s.setSeq k q).belfry = s.belfry := rfl
@[simp] theorem State.setSeq_domains (s : State) (k : Nat) (q : Seq) : (s.setSeq k q).domains = s.domains := rfl
@[simp] theorem State.setSeq_faults (s : State) (k : Nat) (q : Seq) : (s.setSeq k q).faults = s.faults := rfl
@[simp] theorem State.setSeq_links (s : State) (k : Nat) (q : Seq) : (s.setSeq k q).links = s.links := rfl
@[simp] theorem State.setSeq_keep (s : State) (k : Nat) (q : Seq) : (s.setSeq k q).keep = s.keep := rfl
@[simp] theorem State.setSeq_service (s : State) (k : Nat) (q : Seq) : (s.setSeq k q).service = s.service := rfl

@[simp] theorem Group.setStrand_block (g : Group) (e : Nat) (st : Strand) : (g.setStrand e st).block = g.block := rfl
@[simp] theorem Group.onStrand_block (g : Group) (e : Nat) (f : Strand → Strand) : (g.onStrand e f).block = g.block := rfl
@[simp] theorem Group.setStrand_launch (g : Group) (e : Nat) (st : Strand) : (g.setStrand e st).launch = g.launch := rfl
@[simp] theorem Group.onStrand_launch (g : Group) (e : Nat) (f : Strand → Strand) : (g.onStrand e f).launch = g.launch := rfl
@[simp] theorem Group.setStrand_groupid (g : Group) (e : Nat) (st : Strand) : (g.setStrand e st).groupid = g.groupid := rfl
@[simp] theorem Group.onStrand_groupid (g : Group) (e : Nat) (f : Strand → Strand) : (g.onStrand e f).groupid = g.groupid := rfl
@[simp] theorem Group.setStrand_domain (g : Group) (e : Nat) (st : Strand) : (g.setStrand e st).domain = g.domain := rfl
@[simp] theorem Group.onStrand_domain (g : Group) (e : Nat) (f : Strand → Strand) : (g.onStrand e f).domain = g.domain := rfl
@[simp] theorem Group.setStrand_nregs (g : Group) (e : Nat) (st : Strand) : (g.setStrand e st).nregs = g.nregs := rfl
@[simp] theorem Group.onStrand_nregs (g : Group) (e : Nat) (f : Strand → Strand) : (g.onStrand e f).nregs = g.nregs := rfl
@[simp] theorem Group.setStrand_v (g : Group) (e : Nat) (st : Strand) : (g.setStrand e st).v = g.v := rfl
@[simp] theorem Group.onStrand_v (g : Group) (e : Nat) (f : Strand → Strand) : (g.onStrand e f).v = g.v := rfl
@[simp] theorem Group.setStrand_s (g : Group) (e : Nat) (st : Strand) : (g.setStrand e st).s = g.s := rfl
@[simp] theorem Group.onStrand_s (g : Group) (e : Nat) (f : Strand → Strand) : (g.onStrand e f).s = g.s := rfl
@[simp] theorem Group.setStrand_p (g : Group) (e : Nat) (st : Strand) : (g.setStrand e st).p = g.p := rfl
@[simp] theorem Group.onStrand_p (g : Group) (e : Nat) (f : Strand → Strand) : (g.onStrand e f).p = g.p := rfl
@[simp] theorem Group.setStrand_live (g : Group) (e : Nat) (st : Strand) : (g.setStrand e st).live = g.live := rfl
@[simp] theorem Group.onStrand_live (g : Group) (e : Nat) (f : Strand → Strand) : (g.onStrand e f).live = g.live := rfl
@[simp] theorem Group.setStrand_helper (g : Group) (e : Nat) (st : Strand) : (g.setStrand e st).helper = g.helper := rfl
@[simp] theorem Group.onStrand_helper (g : Group) (e : Nat) (f : Strand → Strand) : (g.onStrand e f).helper = g.helper := rfl
@[simp] theorem Group.setStrand_trapvec (g : Group) (e : Nat) (st : Strand) : (g.setStrand e st).trapvec = g.trapvec := rfl
@[simp] theorem Group.onStrand_trapvec (g : Group) (e : Nat) (f : Strand → Strand) : (g.onStrand e f).trapvec = g.trapvec := rfl
@[simp] theorem Group.setStrand_jc (g : Group) (e : Nat) (st : Strand) : (g.setStrand e st).jc = g.jc := rfl
@[simp] theorem Group.onStrand_jc (g : Group) (e : Nat) (f : Strand → Strand) : (g.onStrand e f).jc = g.jc := rfl
@[simp] theorem Group.setStrand_pending (g : Group) (e : Nat) (st : Strand) : (g.setStrand e st).pending = g.pending := rfl
@[simp] theorem Group.onStrand_pending (g : Group) (e : Nat) (f : Strand → Strand) : (g.onStrand e f).pending = g.pending := rfl
@[simp] theorem Group.setStrand_saveList (g : Group) (e : Nat) (st : Strand) : (g.setStrand e st).saveList = g.saveList := rfl
@[simp] theorem Group.onStrand_saveList (g : Group) (e : Nat) (f : Strand → Strand) : (g.onStrand e f).saveList = g.saveList := rfl
@[simp] theorem Group.setStrand_swapSince (g : Group) (e : Nat) (st : Strand) : (g.setStrand e st).swapSince = g.swapSince := rfl
@[simp] theorem Group.onStrand_swapSince (g : Group) (e : Nat) (f : Strand → Strand) : (g.onStrand e f).swapSince = g.swapSince := rfl
@[simp] theorem Group.setStrand_stackMode (g : Group) (e : Nat) (st : Strand) : (g.setStrand e st).stackMode = g.stackMode := rfl
@[simp] theorem Group.onStrand_stackMode (g : Group) (e : Nat) (f : Strand → Strand) : (g.onStrand e f).stackMode = g.stackMode := rfl
@[simp] theorem Group.setStrand_stack (g : Group) (e : Nat) (st : Strand) : (g.setStrand e st).stack = g.stack := rfl
@[simp] theorem Group.onStrand_stack (g : Group) (e : Nat) (f : Strand → Strand) : (g.onStrand e f).stack = g.stack := rfl
@[simp] theorem Group.setStrand_rclk (g : Group) (e : Nat) (st : Strand) : (g.setStrand e st).rclk = g.rclk := rfl
@[simp] theorem Group.onStrand_rclk (g : Group) (e : Nat) (f : Strand → Strand) : (g.onStrand e f).rclk = g.rclk := rfl
@[simp] theorem Group.setStrand_wclk (g : Group) (e : Nat) (st : Strand) : (g.setStrand e st).wclk = g.wclk := rfl
@[simp] theorem Group.onStrand_wclk (g : Group) (e : Nat) (f : Strand → Strand) : (g.onStrand e f).wclk = g.wclk := rfl
@[simp] theorem Group.setStrand_lease (g : Group) (e : Nat) (st : Strand) : (g.setStrand e st).lease = g.lease := rfl
@[simp] theorem Group.onStrand_lease (g : Group) (e : Nat) (f : Strand → Strand) : (g.onStrand e f).lease = g.lease := rfl
@[simp] theorem Group.setStrand_ops (g : Group) (e : Nat) (st : Strand) : (g.setStrand e st).ops = g.ops := rfl
@[simp] theorem Group.onStrand_ops (g : Group) (e : Nat) (f : Strand → Strand) : (g.onStrand e f).ops = g.ops := rfl
@[simp] theorem Group.setStrand_spads (g : Group) (e : Nat) (st : Strand) : (g.setStrand e st).spads = g.spads := rfl
@[simp] theorem Group.onStrand_spads (g : Group) (e : Nat) (f : Strand → Strand) : (g.onStrand e f).spads = g.spads := rfl
@[simp] theorem Group.setStrand_remote (g : Group) (e : Nat) (st : Strand) : (g.setStrand e st).remote = g.remote := rfl
@[simp] theorem Group.onStrand_remote (g : Group) (e : Nat) (f : Strand → Strand) : (g.onStrand e f).remote = g.remote := rfl
@[simp] theorem Group.setStrand_hold (g : Group) (e : Nat) (st : Strand) : (g.setStrand e st).hold = g.hold := rfl
@[simp] theorem Group.onStrand_hold (g : Group) (e : Nat) (f : Strand → Strand) : (g.onStrand e f).hold = g.hold := rfl
@[simp] theorem Group.setStrand_marks (g : Group) (e : Nat) (st : Strand) : (g.setStrand e st).marks = g.marks := rfl
@[simp] theorem Group.onStrand_marks (g : Group) (e : Nat) (f : Strand → Strand) : (g.onStrand e f).marks = g.marks := rfl
@[simp] theorem Group.setStrand_layouts (g : Group) (e : Nat) (st : Strand) : (g.setStrand e st).layouts = g.layouts := rfl
@[simp] theorem Group.onStrand_layouts (g : Group) (e : Nat) (f : Strand → Strand) : (g.onStrand e f).layouts = g.layouts := rfl
@[simp] theorem Group.setStrand_eps (g : Group) (e : Nat) (st : Strand) : (g.setStrand e st).eps = g.eps := rfl
@[simp] theorem Group.onStrand_eps (g : Group) (e : Nat) (f : Strand → Strand) : (g.onStrand e f).eps = g.eps := rfl
@[simp] theorem Group.setStrand_closed (g : Group) (e : Nat) (st : Strand) : (g.setStrand e st).closed = g.closed := rfl
@[simp] theorem Group.onStrand_closed (g : Group) (e : Nat) (f : Strand → Strand) : (g.onStrand e f).closed = g.closed := rfl
@[simp] theorem Group.setStrand_frames (g : Group) (e : Nat) (st : Strand) : (g.setStrand e st).frames = g.frames := rfl
@[simp] theorem Group.onStrand_frames (g : Group) (e : Nat) (f : Strand → Strand) : (g.onStrand e f).frames = g.frames := rfl
@[simp] theorem Group.setStrand_mrdyCount (g : Group) (e : Nat) (st : Strand) : (g.setStrand e st).mrdyCount = g.mrdyCount := rfl
@[simp] theorem Group.onStrand_mrdyCount (g : Group) (e : Nat) (f : Strand → Strand) : (g.onStrand e f).mrdyCount = g.mrdyCount := rfl
@[simp] theorem Group.setStrand_mrdyMark (g : Group) (e : Nat) (st : Strand) : (g.setStrand e st).mrdyMark = g.mrdyMark := rfl
@[simp] theorem Group.onStrand_mrdyMark (g : Group) (e : Nat) (f : Strand → Strand) : (g.onStrand e f).mrdyMark = g.mrdyMark := rfl
@[simp] theorem Group.setStrand_mmaCount (g : Group) (e : Nat) (st : Strand) : (g.setStrand e st).mmaCount = g.mmaCount := rfl
@[simp] theorem Group.onStrand_mmaCount (g : Group) (e : Nat) (f : Strand → Strand) : (g.onStrand e f).mmaCount = g.mmaCount := rfl
@[simp] theorem Group.setStrand_armed (g : Group) (e : Nat) (st : Strand) : (g.setStrand e st).armed = g.armed := rfl
@[simp] theorem Group.onStrand_armed (g : Group) (e : Nat) (f : Strand → Strand) : (g.onStrand e f).armed = g.armed := rfl
@[simp] theorem Group.setStrand_wrote (g : Group) (e : Nat) (st : Strand) : (g.setStrand e st).wrote = g.wrote := rfl
@[simp] theorem Group.onStrand_wrote (g : Group) (e : Nat) (f : Strand → Strand) : (g.onStrand e f).wrote = g.wrote := rfl
@[simp] theorem Group.setStrand_owned (g : Group) (e : Nat) (st : Strand) : (g.setStrand e st).owned = g.owned := rfl
@[simp] theorem Group.onStrand_owned (g : Group) (e : Nat) (f : Strand → Strand) : (g.onStrand e f).owned = g.owned := rfl
@[simp] theorem Group.setStrand_words (g : Group) (e : Nat) (st : Strand) : (g.setStrand e st).words = g.words := rfl
@[simp] theorem Group.onStrand_words (g : Group) (e : Nat) (f : Strand → Strand) : (g.onStrand e f).words = g.words := rfl
@[simp] theorem Group.setStrand_suspends (g : Group) (e : Nat) (st : Strand) : (g.setStrand e st).suspends = g.suspends := rfl
@[simp] theorem Group.onStrand_suspends (g : Group) (e : Nat) (f : Strand → Strand) : (g.onStrand e f).suspends = g.suspends := rfl
@[simp] theorem Group.setStrand_stopping (g : Group) (e : Nat) (st : Strand) : (g.setStrand e st).stopping = g.stopping := rfl
@[simp] theorem Group.onStrand_stopping (g : Group) (e : Nat) (f : Strand → Strand) : (g.onStrand e f).stopping = g.stopping := rfl
@[simp] theorem Group.setStrand_aborting (g : Group) (e : Nat) (st : Strand) : (g.setStrand e st).aborting = g.aborting := rfl
@[simp] theorem Group.onStrand_aborting (g : Group) (e : Nat) (f : Strand → Strand) : (g.onStrand e f).aborting = g.aborting := rfl
@[simp] theorem Group.setStrand_stamp (g : Group) (e : Nat) (st : Strand) : (g.setStrand e st).stamp = g.stamp := rfl
@[simp] theorem Group.onStrand_stamp (g : Group) (e : Nat) (f : Strand → Strand) : (g.onStrand e f).stamp = g.stamp := rfl
@[simp] theorem Group.setStrand_strands (g : Group) (e : Nat) (st : Strand) : (g.setStrand e st).strands = g.strands.put e st := rfl
@[simp] theorem Group.onStrand_strands (g : Group) (e : Nat) (f : Strand → Strand) : (g.onStrand e f).strands = g.strands.adjust e f := rfl

end Sys2Proof.Machine
end

