-- ==== Sys2Proof/Laws/Ops.lean ====
section
/-! SUPPORT. What the shared operations of core instructions do: issuing, register writes, and the shapes of results. -/
namespace Sys2Proof.Machine

/-- An instruction that runs is its meaning. -/
theorem issue_runs {i : Instr} {s : State} {c : Ctx} (h : Runs i s c) (k : Ctx → Res) : issue i s k = k c := by
  have hv : (i.vregs.any fun v => decide (c.g.nregs ≤ v)) = false := by
    rw [List.any_eq_false]
    intro v hv
    have := h.inRange v hv
    simp; omega
  unfold issue
  simp only [h.agent, h.strand, h.accepted, hv, h.allowed, h.ready, Bool.not_true, Bool.or_false, Bool.false_eq_true, if_false]
  have e := h.reads
  rw [h.agent] at *
  exact congrArg k e.symm

theorem Runs.look {i : Instr} {s : State} {c : Ctx} (h : Runs i s c) : c.g.strands.look c.r.entry = some c.st := by
  have := h.strand
  unfold State.strandAt at this
  cases h1 : s.groups.look (gkey c.r.core c.r.slot) with
  | none => simp [h1] at this
  | some g =>
    cases h2 : g.strands.look c.r.entry with
    | none => simp [h1, h2] at this
    | some st => simp [h1, h2] at this; rw [← this.1, ← this.2]; exact h2

/-! ### Register writes -/

@[simp] theorem Group.noteWrite_vreg (g : Group) (r q l : Nat) : (g.noteWrite r).vreg q l = g.vreg q l := by
  unfold Group.noteWrite Group.vreg; split_ifs <;> rfl
@[simp] theorem Group.noteWrite_sreg (g : Group) (r k : Nat) : (g.noteWrite r).sreg k = g.sreg k := by
  unfold Group.noteWrite Group.sreg; split_ifs <;> rfl
@[simp] theorem Group.noteWrite_predBit (g : Group) (r k l : Nat) : (g.noteWrite r).predBit k l = g.predBit k l := by
  unfold Group.noteWrite Group.predBit Group.pred; split_ifs <;> rfl

/-- Two groups differ at most in registers and in the matrix engine's notes. -/
def Group.Alike (g h : Group) : Prop :=
  h = { g with v := h.v, s := h.s, p := h.p, wrote := h.wrote, owned := h.owned }

theorem Group.Alike.refl (g : Group) : g.Alike g := rfl
theorem Group.Alike.trans {a b c : Group} (h1 : a.Alike b) (h2 : b.Alike c) : a.Alike c := by
  unfold Group.Alike at *; rw [h1] at h2; exact h2
theorem Group.noteWrite_alike (g : Group) (r : Nat) : g.Alike (g.noteWrite r) := by
  unfold Group.Alike Group.noteWrite; split_ifs <;> rfl

/-- Writing v[r] of a lane writes nothing else. -/
theorem Group.vreg_setV (g : Group) (r l : Nat) (x : Word) (q m : Nat) (hl : l < 32) (hm : m < 32) :
    (g.setV r l x).vreg q m = if q = r ∧ m = l then x else g.vreg q m := by
  have : (g.noteWrite r).vreg q m = g.vreg q m := by simp
  unfold Group.setV Group.vreg at *
  simp only [Map.get_set]
  by_cases h : 32 * q + m = 32 * r + l
  · rw [if_pos h, if_pos (by omega)]
  · rw [if_neg h, if_neg (by omega)]; exact this

@[simp] theorem Group.sreg_setV (g : Group) (r l : Nat) (x : Word) (k : Nat) : (g.setV r l x).sreg k = g.sreg k := by
  have := Group.noteWrite_sreg g r k
  unfold Group.setV; exact this
@[simp] theorem Group.predBit_setV (g : Group) (r l : Nat) (x : Word) (k m : Nat) :
    (g.setV r l x).predBit k m = g.predBit k m := by
  have := Group.noteWrite_predBit g r k m
  unfold Group.setV; exact this
theorem Group.setV_alike (g : Group) (r l : Nat) (x : Word) : g.Alike (g.setV r l x) :=
  (g.noteWrite_alike r).trans rfl

theorem Group.vreg_setLane (g : Group) (wide : Bool) (r l : Nat) (x : Dword) (q m : Nat) (hl : l < 32) (hm : m < 32) :
    (g.setLane wide r l x).vreg q m =
      if m = l then (if q = r then x.setWidth 32 else if wide = true ∧ q = r + 1 then (x >>> 32).setWidth 32 else g.vreg q m)
      else g.vreg q m := by
  unfold Group.setLane
  cases wide
  · simp only [Bool.false_eq_true, if_false, false_and, Group.vreg_setV _ _ _ _ _ _ hl hm]
    by_cases h1 : q = r <;> by_cases h2 : m = l <;> simp [h1, h2]
  · simp only [if_true, true_and, Group.vreg_setV _ _ _ _ _ _ hl hm]
    by_cases h1 : q = r
    · subst h1; by_cases h2 : m = l <;> simp [h2]
    · by_cases h2 : m = l <;> simp [h1, h2]

@[simp] theorem Group.sreg_setLane (g : Group) (wide : Bool) (r l : Nat) (x : Dword) (k : Nat) :
    (g.setLane wide r l x).sreg k = g.sreg k := by unfold Group.setLane; cases wide <;> simp
@[simp] theorem Group.predBit_setLane (g : Group) (wide : Bool) (r l : Nat) (x : Dword) (k m : Nat) :
    (g.setLane wide r l x).predBit k m = g.predBit k m := by unfold Group.setLane; cases wide <;> simp
theorem Group.setLane_alike (g : Group) (wide : Bool) (r l : Nat) (x : Dword) : g.Alike (g.setLane wide r l x) := by
  unfold Group.setLane
  cases wide
  · exact g.setV_alike _ _ _
  · exact (g.setV_alike _ _ _).trans (Group.setV_alike _ _ _ _)

@[simp] theorem Group.sreg_setLanes (g : Group) (wide : Bool) (r : Nat) (xs : List (Nat × Dword)) (k : Nat) :
    (g.setLanes wide r xs).sreg k = g.sreg k := by
  unfold Group.setLanes
  induction xs generalizing g with
  | nil => rfl
  | cons e t ih => simp [ih]
@[simp] theorem Group.predBit_setLanes (g : Group) (wide : Bool) (r : Nat) (xs : List (Nat × Dword)) (k m : Nat) :
    (g.setLanes wide r xs).predBit k m = g.predBit k m := by
  unfold Group.setLanes
  induction xs generalizing g with
  | nil => rfl
  | cons e t ih => simp [ih]
theorem Group.setLanes_alike (g : Group) (wide : Bool) (r : Nat) (xs : List (Nat × Dword)) :
    g.Alike (g.setLanes wide r xs) := by
  unfold Group.setLanes
  induction xs generalizing g with
  | nil => rfl
  | cons e t ih => exact (g.setLane_alike _ _ _ _).trans (ih _)

/-- Writing one value to each lane of a list writes just those lanes. -/
theorem Group.vreg_setLanes (g : Group) (wide : Bool) (d : Nat) (ls : List Nat) (x : Nat → Dword)
    (hls : ∀ l ∈ ls, l < 32) (q m : Nat) (hm : m < 32) :
    (g.setLanes wide d (ls.map fun l => (l, x l))).vreg q m =
      if m ∈ ls then (if q = d then (x m).setWidth 32 else if wide = true ∧ q = d + 1 then (x m >>> 32).setWidth 32 else g.vreg q m)
      else g.vreg q m := by
  unfold Group.setLanes
  induction ls generalizing g with
  | nil => simp
  | cons l t ih =>
    have hl := hls l (by simp)
    simp only [List.map_cons, List.foldl_cons]
    rw [ih _ fun j hj => hls j (by simp [hj])]
    simp only [Group.vreg_setLane _ _ _ _ _ _ _ hl hm, List.mem_cons]
    by_cases h1 : m ∈ t <;> by_cases h2 : m = l <;> by_cases h3 : q = d <;>
      by_cases h4 : wide = true ∧ q = d + 1 <;> simp [h1, h2, h3, h4]

/-- Active lanes are lanes. -/
theorem mem_lanes {m : LaneMask} {l : Nat} (h : l ∈ lanes m) : l < 32 := by
  unfold lanes at h
  simp at h
  exact h.1
theorem Ctx.active_lt {c : Ctx} {gd : Guard} {l : Nat} (h : l ∈ c.active gd) : l < 32 := by
  unfold Ctx.active at h
  exact mem_lanes (List.mem_of_mem_filter h)
theorem Ctx.part_lt {c : Ctx} {gd : Guard} {l : Nat} (h : l ∈ c.part gd) : l < 32 :=
  Ctx.active_lt (List.mem_of_mem_filter h)

/-- Writing a scalar. -/
theorem Group.sreg_setS (g : Group) (d : Nat) (x : Dword) (k : Nat) :
    (g.setS d x).sreg k = if k = d ∧ k ≠ 0 then x else g.sreg k := by
  unfold Group.setS Group.sreg
  by_cases hd : d = 0
  · subst hd; simp only [if_true]; split_ifs <;> simp_all
  · simp only [hd, if_false, Map.get_set]
    by_cases hk : k = 0
    · subst hk; simp
    · by_cases h : k = d <;> simp [h, hk, hd]
@[simp] theorem Group.vreg_setS (g : Group) (d : Nat) (x : Dword) (q m : Nat) : (g.setS d x).vreg q m = g.vreg q m := by
  unfold Group.setS; split_ifs <;> rfl
@[simp] theorem Group.predBit_setS (g : Group) (d : Nat) (x : Dword) (k l : Nat) : (g.setS d x).predBit k l = g.predBit k l := by
  unfold Group.setS; split_ifs <;> rfl
theorem Group.setS_alike (g : Group) (d : Nat) (x : Dword) : g.Alike (g.setS d x) := by
  unfold Group.setS; split_ifs <;> rfl

theorem oneBit (l m : Nat) (hm : m < 32) : BitVec.getLsbD (((1 <<< l : Nat) : LaneMask)) m = decide (m = l) := by
  have : (((1 <<< l : Nat) : LaneMask)) = BitVec.ofNat 32 (2 ^ l) := by rw [Nat.one_shiftLeft]; rfl
  rw [this, BitVec.getLsbD_ofNat]
  simp [hm, Nat.testBit_two_pow, eq_comm]

/-- Writing a predicate of a lane. -/
theorem Group.predBit_setP (g : Group) (d l : Nat) (b : Bool) (k m : Nat) (hl : l < 32) (hm : m < 32) :
    (g.setP d l b).predBit k m = if k = d ∧ k ≠ 0 ∧ m = l then b else g.predBit k m := by
  unfold Group.setP Group.predBit Group.pred
  by_cases hd : d = 0
  · subst hd; simp only [if_true]; by_cases hk : k = 0 <;> simp [hk]
  · simp only [hd, if_false, Map.get_set]
    by_cases hk : k = 0
    · subst hk; simp
    · by_cases h : k = d
      · subst h
        simp only [hk, if_false, if_true, ne_eq, not_false_eq_true, true_and]
        have one := oneBit l m hm
        cases b
        · simp only [Bool.false_eq_true, if_false, BitVec.getLsbD_and, BitVec.getLsbD_not, hm, decide_true, Bool.true_and]
          rw [one]
          by_cases e : m = l <;> simp only [e, decide_true, decide_false, Bool.not_true, Bool.not_false, Bool.and_false, Bool.and_true, if_true, if_false]
        · simp only [if_true, BitVec.getLsbD_or]
          rw [one]
          by_cases e : m = l <;> simp only [e, decide_true, decide_false, Bool.or_false, Bool.or_true, if_true, if_false]
      · simp [h, hk]
@[simp] theorem Group.vreg_setP (g : Group) (d l : Nat) (b : Bool) (q m : Nat) : (g.setP d l b).vreg q m = g.vreg q m := by
  unfold Group.setP; split_ifs <;> rfl
@[simp] theorem Group.sreg_setP (g : Group) (d l : Nat) (b : Bool) (k : Nat) : (g.setP d l b).sreg k = g.sreg k := by
  unfold Group.setP; split_ifs <;> rfl
theorem Group.setP_alike (g : Group) (d l : Nat) (b : Bool) : g.Alike (g.setP d l b) := by
  unfold Group.setP; split_ifs <;> rfl

@[simp] theorem Group.vreg_setPreds (g : Group) (d : Nat) (xs : List (Nat × Bool)) (q m : Nat) :
    (g.setPreds d xs).vreg q m = g.vreg q m := by
  unfold Group.setPreds
  induction xs generalizing g with
  | nil => rfl
  | cons e t ih => simp [ih]
@[simp] theorem Group.sreg_setPreds (g : Group) (d : Nat) (xs : List (Nat × Bool)) (k : Nat) :
    (g.setPreds d xs).sreg k = g.sreg k := by
  unfold Group.setPreds
  induction xs generalizing g with
  | nil => rfl
  | cons e t ih => simp [ih]
theorem Group.setPreds_alike (g : Group) (d : Nat) (xs : List (Nat × Bool)) : g.Alike (g.setPreds d xs) := by
  unfold Group.setPreds
  induction xs generalizing g with
  | nil => rfl
  | cons e t ih => exact (g.setP_alike _ _ _).trans (ih _)
theorem Group.predBit_setPreds (g : Group) (d : Nat) (ls : List Nat) (b : Nat → Bool) (hls : ∀ l ∈ ls, l < 32)
    (k m : Nat) (hm : m < 32) :
    (g.setPreds d (ls.map fun l => (l, b l))).predBit k m = if k = d ∧ k ≠ 0 ∧ m ∈ ls then b m else g.predBit k m := by
  unfold Group.setPreds
  induction ls generalizing g with
  | nil => simp
  | cons l t ih =>
    simp only [List.map_cons, List.foldl_cons]
    rw [ih _ fun j hj => hls j (by simp [hj])]
    rw [Group.predBit_setP _ _ _ _ _ _ (hls l (by simp)) hm]
    simp only [List.mem_cons]
    by_cases h1 : m ∈ t <;> by_cases h2 : m = l <;> by_cases h3 : k = d ∧ k ≠ 0 <;> simp_all

/-! ### Completion -/

/-- The group with its strand moved on. -/
theorem Group.onStrand_eq {g : Group} {e : Nat} {st : Strand} (h : g.strands.look e = some st) (f : Strand → Strand) :
    g.onStrand e f = { g with strands := g.strands.put e (f st) } := by
  simp [Group.onStrand, Map.adjust, h]

theorem Group.Alike.strands {g h : Group} (a : g.Alike h) : h.strands = g.strands := by rw [a]

/-- `finish` leaves what the group's new registers say. -/
theorem Ctx.finish_leaves {c : Ctx} (h : c.g.strands.look c.r.entry = some c.st) {g : Group} (a : c.g.Alike g) :
    c.Leaves (c.finish g) c.onward g.vreg g.sreg g.predBit := by
  have hs : g.strands.look c.r.entry = some c.st := by rw [a.strands]; exact h
  refine ⟨g.onStrand c.r.entry fun st => st.goto (st.pc + 8), rfl, ?_, fun _ _ _ => rfl, fun _ => rfl, fun _ _ _ => rfl⟩
  rw [Group.onStrand_eq hs]
  rw [a]; rfl

/-- `branch` likewise. -/
theorem Ctx.branch_leaves {c : Ctx} (h : c.g.strands.look c.r.entry = some c.st) {g : Group} (a : c.g.Alike g) (pc : Dword) :
    c.Leaves (c.branch g pc) (c.st.goto pc) g.vreg g.sreg g.predBit := by
  have hs : g.strands.look c.r.entry = some c.st := by rw [a.strands]; exact h
  refine ⟨g.onStrand c.r.entry fun st => st.goto pc, rfl, ?_, fun _ _ _ => rfl, fun _ => rfl, fun _ _ _ => rfl⟩
  rw [Group.onStrand_eq hs]
  rw [a]

/-- What is left may be said in other words. -/
theorem Ctx.Leaves.congr {c : Ctx} {o : Res} {st : Strand} {v v' : Nat → Nat → Word} {sc sc' : Nat → Dword}
    {p p' : Nat → Nat → Bool} (h : c.Leaves o st v sc p) (hv : ∀ r l, l < 32 → v r l = v' r l) (hs : ∀ k, sc k = sc' k)
    (hp : ∀ k l, l < 32 → p k l = p' k l) : c.Leaves o st v' sc' p' := by
  obtain ⟨g, h1, h2, h3, h4, h5⟩ := h
  exact ⟨g, h1, h2, fun r l hl => (h3 r l hl).trans (hv r l hl), fun k => (h4 k).trans (hs k),
    fun k l hl => (h5 k l hl).trans (hp k l hl)⟩

theorem Ctx.passes {c : Ctx} (h : c.g.strands.look c.r.entry = some c.st) : c.Passes (c.finish c.g) :=
  Ctx.finish_leaves h rfl

/-- Lanes written, and the strand goes on. -/
theorem Ctx.finish_lanes {c : Ctx} (h : c.g.strands.look c.r.entry = some c.st) (wide : Bool) (d : Nat) (ls : List Nat)
    (x : Nat → Dword) (hls : ∀ l ∈ ls, l < 32) :
    c.Leaves (c.finish (c.g.setLanes wide d (ls.map fun l => (l, x l)))) c.onward (c.withLanes wide d ls x) c.g.sreg
      c.g.predBit :=
  (Ctx.finish_leaves h (Group.setLanes_alike _ _ _ _)).congr
    (fun r l hl => Group.vreg_setLanes _ _ _ _ _ hls r l hl) (by simp) (by simp)

/-- A scalar written, and the strand goes on. -/
theorem Ctx.finish_scalar {c : Ctx} (h : c.g.strands.look c.r.entry = some c.st) (d : Nat) (x : Dword) :
    c.Leaves (c.finish (c.g.setS d x)) c.onward c.g.vreg (c.withScalar d x) c.g.predBit :=
  (Ctx.finish_leaves h (Group.setS_alike _ _ _)).congr (by simp) (fun k => Group.sreg_setS _ _ _ _) (by simp)

/-- Predicates written, and the strand goes on. -/
theorem Ctx.finish_preds {c : Ctx} (h : c.g.strands.look c.r.entry = some c.st) (d : Nat) (ls : List Nat)
    (b : Nat → Bool) (hls : ∀ l ∈ ls, l < 32) :
    c.Leaves (c.finish (c.g.setPreds d (ls.map fun l => (l, b l)))) c.onward c.g.vreg c.g.sreg (c.withPred d ls b) :=
  (Ctx.finish_leaves h (Group.setPreds_alike _ _ _)).congr (by simp) (by simp)
    (fun k l hl => Group.predBit_setPreds _ _ _ _ hls k l hl)

/-- `runV` gives the result of its function. -/
theorem runV_result {c : Ctx} (h : c.g.strands.look c.r.entry = some c.st) (f : FormV) (t : Ty) (wide : Bool)
    (x : Nat → Dword) : c.Result (runV f t wide c x) f (if wide && !t.wide then .n64 else t) wide x := by
  unfold Ctx.Result runV
  by_cases hu : f.u = true
  · simp only [hu, if_true]
    by_cases hw : c.wide f.g = true
    · simp only [hw, if_true]; exact Ctx.finish_scalar h _ _
    · simp only [hw, Bool.false_eq_true, if_false]; exact Ctx.passes h
  · simp only [hu, Bool.false_eq_true, if_false]
    exact Ctx.finish_lanes h wide _ _ x fun l hl => Ctx.active_lt hl

/-- `runP` gives the result of its comparison. -/
theorem runP_result {c : Ctx} (h : c.g.strands.look c.r.entry = some c.st) (f : FormV) (b : Nat → Bool) :
    c.PredResult (runP f c b) f b := by
  unfold Ctx.PredResult runP
  by_cases hu : f.u = true
  · simp only [hu, if_true]
    by_cases hw : c.wide f.g = true
    · simp only [hw, if_true]; exact Ctx.finish_scalar h _ _
    · simp only [hw, Bool.false_eq_true, if_false]; exact Ctx.passes h
  · simp only [hu, Bool.false_eq_true, if_false]
    exact Ctx.finish_preds h _ _ b fun l hl => Ctx.active_lt hl

end Sys2Proof.Machine
end

