-- ==== Sys2Proof/Laws/PerInstr.lean ====
section
/-! SUPPORT. What holds of every constructor of `Instr`, one lemma each: an instruction has a word of its own kind and of no other
kind, and a step or a firing has none (R53, R65, R68). -/
namespace Sys2Proof.Laws

/-- The kind of an instruction says which encoder answers. -/
def Encoded.Statement (i : Instr) : Prop :=
  (encodeCore i).isSome = (i.kind == .core) ∧ (encodeCompact i).isSome = (i.kind == .compact) ∧ (encodeStream i).isSome = (i.kind == .stream)

theorem Encoded.nop f : Encoded.Statement (.nop f) := ⟨rfl, rfl, rfl⟩
theorem Encoded.bra f : Encoded.Statement (.bra f) := ⟨rfl, rfl, rfl⟩
theorem Encoded.brd f : Encoded.Statement (.brd f) := ⟨rfl, rfl, rfl⟩
theorem Encoded.brx f : Encoded.Statement (.brx f) := ⟨rfl, rfl, rfl⟩
theorem Encoded.call f : Encoded.Statement (.call f) := ⟨rfl, rfl, rfl⟩
theorem Encoded.callx f : Encoded.Statement (.callx f) := ⟨rfl, rfl, rfl⟩
theorem Encoded.ret f : Encoded.Statement (.ret f) := ⟨rfl, rfl, rfl⟩
theorem Encoded.join f : Encoded.Statement (.join f) := ⟨rfl, rfl, rfl⟩
theorem Encoded.exit_ f : Encoded.Statement (.exit_ f) := ⟨rfl, rfl, rfl⟩
theorem Encoded.yield f : Encoded.Statement (.yield f) := ⟨rfl, rfl, rfl⟩
theorem Encoded.nap f : Encoded.Statement (.nap f) := ⟨rfl, rfl, rfl⟩
theorem Encoded.brk f : Encoded.Statement (.brk f) := ⟨rfl, rfl, rfl⟩
theorem Encoded.trap f : Encoded.Statement (.trap f) := ⟨rfl, rfl, rfl⟩
theorem Encoded.tret f : Encoded.Statement (.tret f) := ⟨rfl, rfl, rfl⟩
theorem Encoded.add f : Encoded.Statement (.add f) := ⟨rfl, rfl, rfl⟩
theorem Encoded.sub f : Encoded.Statement (.sub f) := ⟨rfl, rfl, rfl⟩
theorem Encoded.mul f : Encoded.Statement (.mul f) := ⟨rfl, rfl, rfl⟩
theorem Encoded.mulhi f : Encoded.Statement (.mulhi f) := ⟨rfl, rfl, rfl⟩
theorem Encoded.mad f : Encoded.Statement (.mad f) := ⟨rfl, rfl, rfl⟩
theorem Encoded.madw f : Encoded.Statement (.madw f) := ⟨rfl, rfl, rfl⟩
theorem Encoded.min_ f : Encoded.Statement (.min_ f) := ⟨rfl, rfl, rfl⟩
theorem Encoded.max_ f : Encoded.Statement (.max_ f) := ⟨rfl, rfl, rfl⟩
theorem Encoded.abs_ f : Encoded.Statement (.abs_ f) := ⟨rfl, rfl, rfl⟩
theorem Encoded.neg f : Encoded.Statement (.neg f) := ⟨rfl, rfl, rfl⟩
theorem Encoded.and_ f : Encoded.Statement (.and_ f) := ⟨rfl, rfl, rfl⟩
theorem Encoded.or_ f : Encoded.Statement (.or_ f) := ⟨rfl, rfl, rfl⟩
theorem Encoded.xor_ f : Encoded.Statement (.xor_ f) := ⟨rfl, rfl, rfl⟩
theorem Encoded.andn f : Encoded.Statement (.andn f) := ⟨rfl, rfl, rfl⟩
theorem Encoded.not_ f : Encoded.Statement (.not_ f) := ⟨rfl, rfl, rfl⟩
theorem Encoded.shl f : Encoded.Statement (.shl f) := ⟨rfl, rfl, rfl⟩
theorem Encoded.shr f : Encoded.Statement (.shr f) := ⟨rfl, rfl, rfl⟩
theorem Encoded.sar f : Encoded.Statement (.sar f) := ⟨rfl, rfl, rfl⟩
theorem Encoded.rotl f : Encoded.Statement (.rotl f) := ⟨rfl, rfl, rfl⟩
theorem Encoded.bfx f : Encoded.Statement (.bfx f) := ⟨rfl, rfl, rfl⟩
theorem Encoded.bfi f : Encoded.Statement (.bfi f) := ⟨rfl, rfl, rfl⟩
theorem Encoded.popc f : Encoded.Statement (.popc f) := ⟨rfl, rfl, rfl⟩
theorem Encoded.clz f : Encoded.Statement (.clz f) := ⟨rfl, rfl, rfl⟩
theorem Encoded.ctz f : Encoded.Statement (.ctz f) := ⟨rfl, rfl, rfl⟩
theorem Encoded.brev f : Encoded.Statement (.brev f) := ⟨rfl, rfl, rfl⟩
theorem Encoded.perm f : Encoded.Statement (.perm f) := ⟨rfl, rfl, rfl⟩
theorem Encoded.sel f : Encoded.Statement (.sel f) := ⟨rfl, rfl, rfl⟩
theorem Encoded.cmp f : Encoded.Statement (.cmp f) := ⟨rfl, rfl, rfl⟩
theorem Encoded.addc f : Encoded.Statement (.addc f) := ⟨rfl, rfl, rfl⟩
theorem Encoded.subc f : Encoded.Statement (.subc f) := ⟨rfl, rfl, rfl⟩
theorem Encoded.lea f : Encoded.Statement (.lea f) := ⟨rfl, rfl, rfl⟩
theorem Encoded.mov f : Encoded.Statement (.mov f) := ⟨rfl, rfl, rfl⟩
theorem Encoded.movi f : Encoded.Statement (.movi f) := ⟨rfl, rfl, rfl⟩
theorem Encoded.bcast f : Encoded.Statement (.bcast f) := ⟨rfl, rfl, rfl⟩
theorem Encoded.rdlane f : Encoded.Statement (.rdlane f) := ⟨rfl, rfl, rfl⟩
theorem Encoded.wrlane f : Encoded.Statement (.wrlane f) := ⟨rfl, rfl, rfl⟩
theorem Encoded.rdsr f : Encoded.Statement (.rdsr f) := ⟨rfl, rfl, rfl⟩
theorem Encoded.wrsr f : Encoded.Statement (.wrsr f) := ⟨rfl, rfl, rfl⟩
theorem Encoded.voteAny f : Encoded.Statement (.voteAny f) := ⟨rfl, rfl, rfl⟩
theorem Encoded.voteAll f : Encoded.Statement (.voteAll f) := ⟨rfl, rfl, rfl⟩
theorem Encoded.ballot f : Encoded.Statement (.ballot f) := ⟨rfl, rfl, rfl⟩
theorem Encoded.pand f : Encoded.Statement (.pand f) := ⟨rfl, rfl, rfl⟩
theorem Encoded.por f : Encoded.Statement (.por f) := ⟨rfl, rfl, rfl⟩
theorem Encoded.pxor f : Encoded.Statement (.pxor f) := ⟨rfl, rfl, rfl⟩
theorem Encoded.pnot f : Encoded.Statement (.pnot f) := ⟨rfl, rfl, rfl⟩
theorem Encoded.ppopc f : Encoded.Statement (.ppopc f) := ⟨rfl, rfl, rfl⟩
theorem Encoded.shflIdx f : Encoded.Statement (.shflIdx f) := ⟨rfl, rfl, rfl⟩
theorem Encoded.shflUp f : Encoded.Statement (.shflUp f) := ⟨rfl, rfl, rfl⟩
theorem Encoded.shflDown f : Encoded.Statement (.shflDown f) := ⟨rfl, rfl, rfl⟩
theorem Encoded.shflXor f : Encoded.Statement (.shflXor f) := ⟨rfl, rfl, rfl⟩
theorem Encoded.qswapH f : Encoded.Statement (.qswapH f) := ⟨rfl, rfl, rfl⟩
theorem Encoded.qswapV f : Encoded.Statement (.qswapV f) := ⟨rfl, rfl, rfl⟩
theorem Encoded.qswapD f : Encoded.Statement (.qswapD f) := ⟨rfl, rfl, rfl⟩
theorem Encoded.qbcast f : Encoded.Statement (.qbcast f) := ⟨rfl, rfl, rfl⟩
theorem Encoded.redxAdd f : Encoded.Statement (.redxAdd f) := ⟨rfl, rfl, rfl⟩
theorem Encoded.redxMin f : Encoded.Statement (.redxMin f) := ⟨rfl, rfl, rfl⟩
theorem Encoded.redxMax f : Encoded.Statement (.redxMax f) := ⟨rfl, rfl, rfl⟩
theorem Encoded.scanxAdd f : Encoded.Statement (.scanxAdd f) := ⟨rfl, rfl, rfl⟩
theorem Encoded.compact f : Encoded.Statement (.compact f) := ⟨rfl, rfl, rfl⟩
theorem Encoded.expand f : Encoded.Statement (.expand f) := ⟨rfl, rfl, rfl⟩
theorem Encoded.fadd f : Encoded.Statement (.fadd f) := ⟨rfl, rfl, rfl⟩
theorem Encoded.fsub f : Encoded.Statement (.fsub f) := ⟨rfl, rfl, rfl⟩
theorem Encoded.fmul f : Encoded.Statement (.fmul f) := ⟨rfl, rfl, rfl⟩
theorem Encoded.ffma f : Encoded.Statement (.ffma f) := ⟨rfl, rfl, rfl⟩
theorem Encoded.fmin f : Encoded.Statement (.fmin f) := ⟨rfl, rfl, rfl⟩
theorem Encoded.fmax f : Encoded.Statement (.fmax f) := ⟨rfl, rfl, rfl⟩
theorem Encoded.fminm f : Encoded.Statement (.fminm f) := ⟨rfl, rfl, rfl⟩
theorem Encoded.fabs f : Encoded.Statement (.fabs f) := ⟨rfl, rfl, rfl⟩
theorem Encoded.fneg f : Encoded.Statement (.fneg f) := ⟨rfl, rfl, rfl⟩
theorem Encoded.fcmp f : Encoded.Statement (.fcmp f) := ⟨rfl, rfl, rfl⟩
theorem Encoded.fclass f : Encoded.Statement (.fclass f) := ⟨rfl, rfl, rfl⟩
theorem Encoded.frcp f : Encoded.Statement (.frcp f) := ⟨rfl, rfl, rfl⟩
theorem Encoded.frsq f : Encoded.Statement (.frsq f) := ⟨rfl, rfl, rfl⟩
theorem Encoded.fsqrt f : Encoded.Statement (.fsqrt f) := ⟨rfl, rfl, rfl⟩
theorem Encoded.fexp2 f : Encoded.Statement (.fexp2 f) := ⟨rfl, rfl, rfl⟩
theorem Encoded.flog2 f : Encoded.Statement (.flog2 f) := ⟨rfl, rfl, rfl⟩
theorem Encoded.fsin f : Encoded.Statement (.fsin f) := ⟨rfl, rfl, rfl⟩
theorem Encoded.fcos f : Encoded.Statement (.fcos f) := ⟨rfl, rfl, rfl⟩
theorem Encoded.hadd2 f : Encoded.Statement (.hadd2 f) := ⟨rfl, rfl, rfl⟩
theorem Encoded.hmul2 f : Encoded.Statement (.hmul2 f) := ⟨rfl, rfl, rfl⟩
theorem Encoded.hfma2 f : Encoded.Statement (.hfma2 f) := ⟨rfl, rfl, rfl⟩
theorem Encoded.hmin2 f : Encoded.Statement (.hmin2 f) := ⟨rfl, rfl, rfl⟩
theorem Encoded.hmax2 f : Encoded.Statement (.hmax2 f) := ⟨rfl, rfl, rfl⟩
theorem Encoded.hdot2 f : Encoded.Statement (.hdot2 f) := ⟨rfl, rfl, rfl⟩
theorem Encoded.cvt f : Encoded.Statement (.cvt f) := ⟨rfl, rfl, rfl⟩
theorem Encoded.cvtpk f : Encoded.Statement (.cvtpk f) := ⟨rfl, rfl, rfl⟩
theorem Encoded.cvtsr f : Encoded.Statement (.cvtsr f) := ⟨rfl, rfl, rfl⟩
theorem Encoded.qscale f : Encoded.Statement (.qscale f) := ⟨rfl, rfl, rfl⟩
theorem Encoded.ld f : Encoded.Statement (.ld f) := ⟨rfl, rfl, rfl⟩
theorem Encoded.st f : Encoded.Statement (.st f) := ⟨rfl, rfl, rfl⟩
theorem Encoded.ldx4 f : Encoded.Statement (.ldx4 f) := ⟨rfl, rfl, rfl⟩
theorem Encoded.stx4 f : Encoded.Statement (.stx4 f) := ⟨rfl, rfl, rfl⟩
theorem Encoded.lds f : Encoded.Statement (.lds f) := ⟨rfl, rfl, rfl⟩
theorem Encoded.sts f : Encoded.Statement (.sts f) := ⟨rfl, rfl, rfl⟩
theorem Encoded.ldsx4 f : Encoded.Statement (.ldsx4 f) := ⟨rfl, rfl, rfl⟩
theorem Encoded.stsx4 f : Encoded.Statement (.stsx4 f) := ⟨rfl, rfl, rfl⟩
theorem Encoded.prf f : Encoded.Statement (.prf f) := ⟨rfl, rfl, rfl⟩
theorem Encoded.atomAdd f : Encoded.Statement (.atomAdd f) := ⟨rfl, rfl, rfl⟩
theorem Encoded.atomMin f : Encoded.Statement (.atomMin f) := ⟨rfl, rfl, rfl⟩
theorem Encoded.atomMax f : Encoded.Statement (.atomMax f) := ⟨rfl, rfl, rfl⟩
theorem Encoded.atomAnd f : Encoded.Statement (.atomAnd f) := ⟨rfl, rfl, rfl⟩
theorem Encoded.atomOr f : Encoded.Statement (.atomOr f) := ⟨rfl, rfl, rfl⟩
theorem Encoded.atomXor f : Encoded.Statement (.atomXor f) := ⟨rfl, rfl, rfl⟩
theorem Encoded.atomXchg f : Encoded.Statement (.atomXchg f) := ⟨rfl, rfl, rfl⟩
theorem Encoded.atomCas f : Encoded.Statement (.atomCas f) := ⟨rfl, rfl, rfl⟩
theorem Encoded.atomFadd f : Encoded.Statement (.atomFadd f) := ⟨rfl, rfl, rfl⟩
theorem Encoded.atomFmin f : Encoded.Statement (.atomFmin f) := ⟨rfl, rfl, rfl⟩
theorem Encoded.atomFmax f : Encoded.Statement (.atomFmax f) := ⟨rfl, rfl, rfl⟩
theorem Encoded.atomBfadd2 f : Encoded.Statement (.atomBfadd2 f) := ⟨rfl, rfl, rfl⟩
theorem Encoded.redAdd f : Encoded.Statement (.redAdd f) := ⟨rfl, rfl, rfl⟩
theorem Encoded.redMin f : Encoded.Statement (.redMin f) := ⟨rfl, rfl, rfl⟩
theorem Encoded.redMax f : Encoded.Statement (.redMax f) := ⟨rfl, rfl, rfl⟩
theorem Encoded.redAnd f : Encoded.Statement (.redAnd f) := ⟨rfl, rfl, rfl⟩
theorem Encoded.redOr f : Encoded.Statement (.redOr f) := ⟨rfl, rfl, rfl⟩
theorem Encoded.redXor f : Encoded.Statement (.redXor f) := ⟨rfl, rfl, rfl⟩
theorem Encoded.redFadd f : Encoded.Statement (.redFadd f) := ⟨rfl, rfl, rfl⟩
theorem Encoded.redFmin f : Encoded.Statement (.redFmin f) := ⟨rfl, rfl, rfl⟩
theorem Encoded.redFmax f : Encoded.Statement (.redFmax f) := ⟨rfl, rfl, rfl⟩
theorem Encoded.redBfadd2 f : Encoded.Statement (.redBfadd2 f) := ⟨rfl, rfl, rfl⟩
theorem Encoded.fence f : Encoded.Statement (.fence f) := ⟨rfl, rfl, rfl⟩
theorem Encoded.wait f : Encoded.Statement (.wait f) := ⟨rfl, rfl, rfl⟩
theorem Encoded.bar f : Encoded.Statement (.bar f) := ⟨rfl, rfl, rfl⟩
theorem Encoded.arrive f : Encoded.Statement (.arrive f) := ⟨rfl, rfl, rfl⟩
theorem Encoded.bwait f : Encoded.Statement (.bwait f) := ⟨rfl, rfl, rfl⟩
theorem Encoded.renew f : Encoded.Statement (.renew f) := ⟨rfl, rfl, rfl⟩
theorem Encoded.rdclk f : Encoded.Statement (.rdclk f) := ⟨rfl, rfl, rfl⟩
theorem Encoded.sendGlb f : Encoded.Statement (.sendGlb f) := ⟨rfl, rfl, rfl⟩
theorem Encoded.sendPeer f : Encoded.Statement (.sendPeer f) := ⟨rfl, rfl, rfl⟩
theorem Encoded.sendTens f : Encoded.Statement (.sendTens f) := ⟨rfl, rfl, rfl⟩
theorem Encoded.sendm f : Encoded.Statement (.sendm f) := ⟨rfl, rfl, rfl⟩
theorem Encoded.commission f : Encoded.Statement (.commission f) := ⟨rfl, rfl, rfl⟩
theorem Encoded.cbtest f : Encoded.Statement (.cbtest f) := ⟨rfl, rfl, rfl⟩
theorem Encoded.cbwait f : Encoded.Statement (.cbwait f) := ⟨rfl, rfl, rfl⟩
theorem Encoded.cbclr f : Encoded.Statement (.cbclr f) := ⟨rfl, rfl, rfl⟩
theorem Encoded.tlayout f : Encoded.Statement (.tlayout f) := ⟨rfl, rfl, rfl⟩
theorem Encoded.gath f : Encoded.Statement (.gath f) := ⟨rfl, rfl, rfl⟩
theorem Encoded.scat f : Encoded.Statement (.scat f) := ⟨rfl, rfl, rfl⟩
theorem Encoded.gstat f : Encoded.Statement (.gstat f) := ⟨rfl, rfl, rfl⟩
theorem Encoded.cclaim f : Encoded.Statement (.cclaim f) := ⟨rfl, rfl, rfl⟩
theorem Encoded.cfree f : Encoded.Statement (.cfree f) := ⟨rfl, rfl, rfl⟩
theorem Encoded.cins f : Encoded.Statement (.cins f) := ⟨rfl, rfl, rfl⟩
theorem Encoded.cprb f : Encoded.Statement (.cprb f) := ⟨rfl, rfl, rfl⟩
theorem Encoded.cdel f : Encoded.Statement (.cdel f) := ⟨rfl, rfl, rfl⟩
theorem Encoded.cacc f : Encoded.Statement (.cacc f) := ⟨rfl, rfl, rfl⟩
theorem Encoded.cdrn f : Encoded.Statement (.cdrn f) := ⟨rfl, rfl, rfl⟩
theorem Encoded.cstat f : Encoded.Statement (.cstat f) := ⟨rfl, rfl, rfl⟩
theorem Encoded.gate f : Encoded.Statement (.gate f) := ⟨rfl, rfl, rfl⟩
theorem Encoded.gret f : Encoded.Statement (.gret f) := ⟨rfl, rfl, rfl⟩
theorem Encoded.gabort f : Encoded.Statement (.gabort f) := ⟨rfl, rfl, rfl⟩
theorem Encoded.rgrow f : Encoded.Statement (.rgrow f) := ⟨rfl, rfl, rfl⟩
theorem Encoded.rshrink f : Encoded.Statement (.rshrink f) := ⟨rfl, rfl, rfl⟩
theorem Encoded.halt f : Encoded.Statement (.halt f) := ⟨rfl, rfl, rfl⟩
theorem Encoded.haltAll f : Encoded.Statement (.haltAll f) := ⟨rfl, rfl, rfl⟩
theorem Encoded.mzero f : Encoded.Statement (.mzero f) := ⟨rfl, rfl, rfl⟩
theorem Encoded.mrdy f : Encoded.Statement (.mrdy f) := ⟨rfl, rfl, rfl⟩
theorem Encoded.mma f : Encoded.Statement (.mma f) := ⟨rfl, rfl, rfl⟩
theorem Encoded.mmaSp f : Encoded.Statement (.mmaSp f) := ⟨rfl, rfl, rfl⟩
theorem Encoded.mmx f : Encoded.Statement (.mmx f) := ⟨rfl, rfl, rfl⟩
theorem Encoded.mwait f : Encoded.Statement (.mwait f) := ⟨rfl, rfl, rfl⟩
theorem Encoded.mdrain f : Encoded.Statement (.mdrain f) := ⟨rfl, rfl, rfl⟩
theorem Encoded.aopen f : Encoded.Statement (.aopen f) := ⟨rfl, rfl, rfl⟩
theorem Encoded.asend f : Encoded.Statement (.asend f) := ⟨rfl, rfl, rfl⟩
theorem Encoded.arecv f : Encoded.Statement (.arecv f) := ⟨rfl, rfl, rfl⟩
theorem Encoded.aacc f : Encoded.Statement (.aacc f) := ⟨rfl, rfl, rfl⟩
theorem Encoded.acmd f : Encoded.Statement (.acmd f) := ⟨rfl, rfl, rfl⟩
theorem Encoded.afence f : Encoded.Statement (.afence f) := ⟨rfl, rfl, rfl⟩
theorem Encoded.aclose f : Encoded.Statement (.aclose f) := ⟨rfl, rfl, rfl⟩
theorem Encoded.nmr f : Encoded.Statement (.nmr f) := ⟨rfl, rfl, rfl⟩
theorem Encoded.nidx f : Encoded.Statement (.nidx f) := ⟨rfl, rfl, rfl⟩
theorem Encoded.nfence f : Encoded.Statement (.nfence f) := ⟨rfl, rfl, rfl⟩
theorem Encoded.launch f : Encoded.Statement (.launch f) := ⟨rfl, rfl, rfl⟩
theorem Encoded.rlaunch f : Encoded.Statement (.rlaunch f) := ⟨rfl, rfl, rfl⟩
theorem Encoded.seqAdd f : Encoded.Statement (.seqAdd f) := ⟨rfl, rfl, rfl⟩
theorem Encoded.seqSub f : Encoded.Statement (.seqSub f) := ⟨rfl, rfl, rfl⟩
theorem Encoded.seqAddi f : Encoded.Statement (.seqAddi f) := ⟨rfl, rfl, rfl⟩
theorem Encoded.seqMul f : Encoded.Statement (.seqMul f) := ⟨rfl, rfl, rfl⟩
theorem Encoded.seqAnd f : Encoded.Statement (.seqAnd f) := ⟨rfl, rfl, rfl⟩
theorem Encoded.seqOr f : Encoded.Statement (.seqOr f) := ⟨rfl, rfl, rfl⟩
theorem Encoded.seqXor f : Encoded.Statement (.seqXor f) := ⟨rfl, rfl, rfl⟩
theorem Encoded.seqShl f : Encoded.Statement (.seqShl f) := ⟨rfl, rfl, rfl⟩
theorem Encoded.seqShr f : Encoded.Statement (.seqShr f) := ⟨rfl, rfl, rfl⟩
theorem Encoded.seqShrA f : Encoded.Statement (.seqShrA f) := ⟨rfl, rfl, rfl⟩
theorem Encoded.seqLih f : Encoded.Statement (.seqLih f) := ⟨rfl, rfl, rfl⟩
theorem Encoded.seqLd f : Encoded.Statement (.seqLd f) := ⟨rfl, rfl, rfl⟩
theorem Encoded.seqSt f : Encoded.Statement (.seqSt f) := ⟨rfl, rfl, rfl⟩
theorem Encoded.seqBeq f : Encoded.Statement (.seqBeq f) := ⟨rfl, rfl, rfl⟩
theorem Encoded.seqBne f : Encoded.Statement (.seqBne f) := ⟨rfl, rfl, rfl⟩
theorem Encoded.seqBlt f : Encoded.Statement (.seqBlt f) := ⟨rfl, rfl, rfl⟩
theorem Encoded.seqBge f : Encoded.Statement (.seqBge f) := ⟨rfl, rfl, rfl⟩
theorem Encoded.seqJmp f : Encoded.Statement (.seqJmp f) := ⟨rfl, rfl, rfl⟩
theorem Encoded.seqJal f : Encoded.Statement (.seqJal f) := ⟨rfl, rfl, rfl⟩
theorem Encoded.seqScmd f : Encoded.Statement (.seqScmd f) := ⟨rfl, rfl, rfl⟩
theorem Encoded.seqSwait f : Encoded.Statement (.seqSwait f) := ⟨rfl, rfl, rfl⟩
theorem Encoded.seqSsig f : Encoded.Statement (.seqSsig f) := ⟨rfl, rfl, rfl⟩
theorem Encoded.seqSfault f : Encoded.Statement (.seqSfault f) := ⟨rfl, rfl, rfl⟩
theorem Encoded.seqNop : Encoded.Statement (.seqNop) := ⟨rfl, rfl, rfl⟩
theorem Encoded.seqStop : Encoded.Statement (.seqStop) := ⟨rfl, rfl, rfl⟩
theorem Encoded.slin f : Encoded.Statement (.slin f) := ⟨rfl, rfl, rfl⟩
theorem Encoded.sidx f : Encoded.Statement (.sidx f) := ⟨rfl, rfl, rfl⟩
theorem Encoded.sconst f : Encoded.Statement (.sconst f) := ⟨rfl, rfl, rfl⟩
theorem Encoded.swrite f : Encoded.Statement (.swrite f) := ⟨rfl, rfl, rfl⟩
theorem Encoded.sred f : Encoded.Statement (.sred f) := ⟨rfl, rfl, rfl⟩
theorem Encoded.seos f : Encoded.Statement (.seos f) := ⟨rfl, rfl, rfl⟩
theorem Encoded.scfg f : Encoded.Statement (.scfg f) := ⟨rfl, rfl, rfl⟩
theorem Encoded.sdrain f : Encoded.Statement (.sdrain f) := ⟨rfl, rfl, rfl⟩
theorem Encoded.sbar f : Encoded.Statement (.sbar f) := ⟨rfl, rfl, rfl⟩
theorem Encoded.sland f : Encoded.Statement (.sland f) := ⟨rfl, rfl, rfl⟩
theorem Encoded.sgath f : Encoded.Statement (.sgath f) := ⟨rfl, rfl, rfl⟩
theorem Encoded.spage f : Encoded.Statement (.spage f) := ⟨rfl, rfl, rfl⟩
theorem Encoded.fuFadd site : Encoded.Statement (.fuFadd site) := ⟨rfl, rfl, rfl⟩
theorem Encoded.fuFmul site : Encoded.Statement (.fuFmul site) := ⟨rfl, rfl, rfl⟩
theorem Encoded.fuFfma site : Encoded.Statement (.fuFfma site) := ⟨rfl, rfl, rfl⟩
theorem Encoded.fuFmax site : Encoded.Statement (.fuFmax site) := ⟨rfl, rfl, rfl⟩
theorem Encoded.fuFmin site : Encoded.Statement (.fuFmin site) := ⟨rfl, rfl, rfl⟩
theorem Encoded.fuBfma2 site : Encoded.Statement (.fuBfma2 site) := ⟨rfl, rfl, rfl⟩
theorem Encoded.fuF8dot4 site : Encoded.Statement (.fuF8dot4 site) := ⟨rfl, rfl, rfl⟩
theorem Encoded.fuIadd site : Encoded.Statement (.fuIadd site) := ⟨rfl, rfl, rfl⟩
theorem Encoded.fuIsub site : Encoded.Statement (.fuIsub site) := ⟨rfl, rfl, rfl⟩
theorem Encoded.fuImul site : Encoded.Statement (.fuImul site) := ⟨rfl, rfl, rfl⟩
theorem Encoded.fuImad site : Encoded.Statement (.fuImad site) := ⟨rfl, rfl, rfl⟩
theorem Encoded.fuAnd site : Encoded.Statement (.fuAnd site) := ⟨rfl, rfl, rfl⟩
theorem Encoded.fuOr site : Encoded.Statement (.fuOr site) := ⟨rfl, rfl, rfl⟩
theorem Encoded.fuXor site : Encoded.Statement (.fuXor site) := ⟨rfl, rfl, rfl⟩
theorem Encoded.fuShl site : Encoded.Statement (.fuShl site) := ⟨rfl, rfl, rfl⟩
theorem Encoded.fuShr site : Encoded.Statement (.fuShr site) := ⟨rfl, rfl, rfl⟩
theorem Encoded.fuCmp site : Encoded.Statement (.fuCmp site) := ⟨rfl, rfl, rfl⟩
theorem Encoded.fuSel site : Encoded.Statement (.fuSel site) := ⟨rfl, rfl, rfl⟩
theorem Encoded.fuAcc site : Encoded.Statement (.fuAcc site) := ⟨rfl, rfl, rfl⟩
theorem Encoded.fuMerge site : Encoded.Statement (.fuMerge site) := ⟨rfl, rfl, rfl⟩
theorem Encoded.fuSteer site : Encoded.Statement (.fuSteer site) := ⟨rfl, rfl, rfl⟩
theorem Encoded.fuRepeat site : Encoded.Statement (.fuRepeat site) := ⟨rfl, rfl, rfl⟩
theorem Encoded.fuCount site : Encoded.Statement (.fuCount site) := ⟨rfl, rfl, rfl⟩
theorem Encoded.fuAgen site : Encoded.Statement (.fuAgen site) := ⟨rfl, rfl, rfl⟩
theorem Encoded.fuTag site : Encoded.Statement (.fuTag site) := ⟨rfl, rfl, rfl⟩
theorem Encoded.fuUntag site : Encoded.Statement (.fuUntag site) := ⟨rfl, rfl, rfl⟩
theorem Encoded.fuTagck site : Encoded.Statement (.fuTagck site) := ⟨rfl, rfl, rfl⟩
theorem Encoded.fuHash site : Encoded.Statement (.fuHash site) := ⟨rfl, rfl, rfl⟩
theorem Encoded.fuOwner site : Encoded.Statement (.fuOwner site) := ⟨rfl, rfl, rfl⟩
theorem Encoded.fuLdt site : Encoded.Statement (.fuLdt site) := ⟨rfl, rfl, rfl⟩
theorem Encoded.fuStt site : Encoded.Statement (.fuStt site) := ⟨rfl, rfl, rfl⟩
theorem Encoded.fuFifo site : Encoded.Statement (.fuFifo site) := ⟨rfl, rfl, rfl⟩
theorem Encoded.fuMcast site : Encoded.Statement (.fuMcast site) := ⟨rfl, rfl, rfl⟩
theorem Encoded.fuCtlSeq site : Encoded.Statement (.fuCtlSeq site) := ⟨rfl, rfl, rfl⟩
theorem Encoded.fuCtlPipe site : Encoded.Statement (.fuCtlPipe site) := ⟨rfl, rfl, rfl⟩
theorem Encoded.fuCtlStream site : Encoded.Statement (.fuCtlStream site) := ⟨rfl, rfl, rfl⟩
theorem Encoded.joinWake r : Encoded.Statement (.joinWake r) := ⟨rfl, rfl, rfl⟩
theorem Encoded.napExpiry r : Encoded.Statement (.napExpiry r) := ⟨rfl, rfl, rfl⟩
theorem Encoded.bwaitReread r : Encoded.Statement (.bwaitReread r) := ⟨rfl, rfl, rfl⟩
theorem Encoded.courierLand copy chunk : Encoded.Statement (.courierLand copy chunk) := ⟨rfl, rfl, rfl⟩
theorem Encoded.commissionDeliver job : Encoded.Statement (.commissionDeliver job) := ⟨rfl, rfl, rfl⟩
theorem Encoded.commissionResume job : Encoded.Statement (.commissionResume job) := ⟨rfl, rfl, rfl⟩
theorem Encoded.gathRowLand job row : Encoded.Statement (.gathRowLand job row) := ⟨rfl, rfl, rfl⟩
theorem Encoded.freqHalve : Encoded.Statement (.freqHalve) := ⟨rfl, rfl, rfl⟩
theorem Encoded.rgrowGrant core quad : Encoded.Statement (.rgrowGrant core quad) := ⟨rfl, rfl, rfl⟩
theorem Encoded.rgrowSpill core quad : Encoded.Statement (.rgrowSpill core quad) := ⟨rfl, rfl, rfl⟩
theorem Encoded.spilledReturn core quad : Encoded.Statement (.spilledReturn core quad) := ⟨rfl, rfl, rfl⟩
theorem Encoded.matrixOpStart core : Encoded.Statement (.matrixOpStart core) := ⟨rfl, rfl, rfl⟩
theorem Encoded.matrixOpComplete core : Encoded.Statement (.matrixOpComplete core) := ⟨rfl, rfl, rfl⟩
theorem Encoded.completionToken die port : Encoded.Statement (.completionToken die port) := ⟨rfl, rfl, rfl⟩
theorem Encoded.mailboxAdd die seq chan : Encoded.Statement (.mailboxAdd die seq chan) := ⟨rfl, rfl, rfl⟩
theorem Encoded.portTranslate die port : Encoded.Statement (.portTranslate die port) := ⟨rfl, rfl, rfl⟩
theorem Encoded.tokenMove hop : Encoded.Statement (.tokenMove hop) := ⟨rfl, rfl, rfl⟩
theorem Encoded.tileStreamOut site : Encoded.Statement (.tileStreamOut site) := ⟨rfl, rfl, rfl⟩
theorem Encoded.permit inst node : Encoded.Statement (.permit inst node) := ⟨rfl, rfl, rfl⟩
theorem Encoded.doneToken inst node : Encoded.Statement (.doneToken inst node) := ⟨rfl, rfl, rfl⟩
theorem Encoded.creditReturn inst ep : Encoded.Statement (.creditReturn inst ep) := ⟨rfl, rfl, rfl⟩
theorem Encoded.stageSwap inst : Encoded.Statement (.stageSwap inst) := ⟨rfl, rfl, rfl⟩
theorem Encoded.stageEnable inst : Encoded.Statement (.stageEnable inst) := ⟨rfl, rfl, rfl⟩
theorem Encoded.regionLoad inst : Encoded.Statement (.regionLoad inst) := ⟨rfl, rfl, rfl⟩
theorem Encoded.regionRunning region : Encoded.Statement (.regionRunning region) := ⟨rfl, rfl, rfl⟩
theorem Encoded.regionComplete region : Encoded.Statement (.regionComplete region) := ⟨rfl, rfl, rfl⟩
theorem Encoded.regionDrain region : Encoded.Statement (.regionDrain region) := ⟨rfl, rfl, rfl⟩
theorem Encoded.regionCheckpoint region : Encoded.Statement (.regionCheckpoint region) := ⟨rfl, rfl, rfl⟩
theorem Encoded.faultTimeout region : Encoded.Statement (.faultTimeout region) := ⟨rfl, rfl, rfl⟩
theorem Encoded.ownerApply die node : Encoded.Statement (.ownerApply die node) := ⟨rfl, rfl, rfl⟩
theorem Encoded.landingContribution die index : Encoded.Statement (.landingContribution die index) := ⟨rfl, rfl, rfl⟩
theorem Encoded.homeRenew msg : Encoded.Statement (.homeRenew msg) := ⟨rfl, rfl, rfl⟩
theorem Encoded.fill_ msg : Encoded.Statement (.fill_ msg) := ⟨rfl, rfl, rfl⟩
theorem Encoded.homeStore msg : Encoded.Statement (.homeStore msg) := ⟨rfl, rfl, rfl⟩
theorem Encoded.storeAck msg : Encoded.Statement (.storeAck msg) := ⟨rfl, rfl, rfl⟩
theorem Encoded.homeAtomic msg : Encoded.Statement (.homeAtomic msg) := ⟨rfl, rfl, rfl⟩
theorem Encoded.atomicComplete msg : Encoded.Statement (.atomicComplete msg) := ⟨rfl, rfl, rfl⟩
theorem Encoded.l2Evict line : Encoded.Statement (.l2Evict line) := ⟨rfl, rfl, rfl⟩
theorem Encoded.instructionFetch r : Encoded.Statement (.instructionFetch r) := ⟨rfl, rfl, rfl⟩
theorem Encoded.creep core : Encoded.Statement (.creep core) := ⟨rfl, rfl, rfl⟩
theorem Encoded.refill core : Encoded.Statement (.refill core) := ⟨rfl, rfl, rfl⟩
theorem Encoded.swap core slot : Encoded.Statement (.swap core slot) := ⟨rfl, rfl, rfl⟩
theorem Encoded.groupRetire core slot : Encoded.Statement (.groupRetire core slot) := ⟨rfl, rfl, rfl⟩
theorem Encoded.belfryNotice queue : Encoded.Statement (.belfryNotice queue) := ⟨rfl, rfl, rfl⟩
theorem Encoded.slotReread queue : Encoded.Statement (.slotReread queue) := ⟨rfl, rfl, rfl⟩
theorem Encoded.parse queue : Encoded.Statement (.parse queue) := ⟨rfl, rfl, rfl⟩
theorem Encoded.queueFaultRetry queue : Encoded.Statement (.queueFaultRetry queue) := ⟨rfl, rfl, rfl⟩
theorem Encoded.queueRestart queue : Encoded.Statement (.queueRestart queue) := ⟨rfl, rfl, rfl⟩
theorem Encoded.packetHead queue : Encoded.Statement (.packetHead queue) := ⟨rfl, rfl, rfl⟩
theorem Encoded.waitNotice queue entry : Encoded.Statement (.waitNotice queue entry) := ⟨rfl, rfl, rfl⟩
theorem Encoded.waitReread queue entry : Encoded.Statement (.waitReread queue entry) := ⟨rfl, rfl, rfl⟩
theorem Encoded.priorityAging queue : Encoded.Statement (.priorityAging queue) := ⟨rfl, rfl, rfl⟩
theorem Encoded.backfillExpiry queue : Encoded.Statement (.backfillExpiry queue) := ⟨rfl, rfl, rfl⟩
theorem Encoded.placeCohort : Encoded.Statement (.placeCohort) := ⟨rfl, rfl, rfl⟩
theorem Encoded.placeRegion : Encoded.Statement (.placeRegion) := ⟨rfl, rfl, rfl⟩
theorem Encoded.carveChange core : Encoded.Statement (.carveChange core) := ⟨rfl, rfl, rfl⟩
theorem Encoded.invalidationRequest domain : Encoded.Statement (.invalidationRequest domain) := ⟨rfl, rfl, rfl⟩
theorem Encoded.invalidationComplete domain : Encoded.Statement (.invalidationComplete domain) := ⟨rfl, rfl, rfl⟩
theorem Encoded.extentRepatch die port slot : Encoded.Statement (.extentRepatch die port slot) := ⟨rfl, rfl, rfl⟩
theorem Encoded.faultDeliver index : Encoded.Statement (.faultDeliver index) := ⟨rfl, rfl, rfl⟩
theorem Encoded.faultQueueRetry index : Encoded.Statement (.faultQueueRetry index) := ⟨rfl, rfl, rfl⟩
theorem Encoded.resolutionReplay record : Encoded.Statement (.resolutionReplay record) := ⟨rfl, rfl, rfl⟩
theorem Encoded.resolutionResume record : Encoded.Statement (.resolutionResume record) := ⟨rfl, rfl, rfl⟩
theorem Encoded.resolutionAbort record : Encoded.Statement (.resolutionAbort record) := ⟨rfl, rfl, rfl⟩
theorem Encoded.resolutionTerminate record : Encoded.Statement (.resolutionTerminate record) := ⟨rfl, rfl, rfl⟩
theorem Encoded.resolutionContinue record : Encoded.Statement (.resolutionContinue record) := ⟨rfl, rfl, rfl⟩
theorem Encoded.terminationRequest requester queue slot : Encoded.Statement (.terminationRequest requester queue slot) := ⟨rfl, rfl, rfl⟩
theorem Encoded.quarantine requester domain : Encoded.Statement (.quarantine requester domain) := ⟨rfl, rfl, rfl⟩
theorem Encoded.evictCohort launch cohort policy : Encoded.Statement (.evictCohort launch cohort policy) := ⟨rfl, rfl, rfl⟩
theorem Encoded.quiescence launch cohort : Encoded.Statement (.quiescence launch cohort) := ⟨rfl, rfl, rfl⟩
theorem Encoded.saveMove index : Encoded.Statement (.saveMove index) := ⟨rfl, rfl, rfl⟩
theorem Encoded.gateInstall requester caller entries : Encoded.Statement (.gateInstall requester caller entries) := ⟨rfl, rfl, rfl⟩
theorem Encoded.domainCreate req : Encoded.Statement (.domainCreate req) := ⟨rfl, rfl, rfl⟩
theorem Encoded.domainRelease domain : Encoded.Statement (.domainRelease domain) := ⟨rfl, rfl, rfl⟩
theorem Encoded.grantRequest req : Encoded.Statement (.grantRequest req) := ⟨rfl, rfl, rfl⟩
theorem Encoded.grantMessage msg : Encoded.Statement (.grantMessage msg) := ⟨rfl, rfl, rfl⟩
theorem Encoded.revoke requester grant : Encoded.Statement (.revoke requester grant) := ⟨rfl, rfl, rfl⟩
theorem Encoded.hostRead hpa size : Encoded.Statement (.hostRead hpa size) := ⟨rfl, rfl, rfl⟩
theorem Encoded.hostWrite hpa bytes : Encoded.Statement (.hostWrite hpa bytes) := ⟨rfl, rfl, rfl⟩
theorem Encoded.hostAtomic hpa op size value cmp : Encoded.Statement (.hostAtomic hpa op size value cmp) := ⟨rfl, rfl, rfl⟩
theorem Encoded.hostSnoop line : Encoded.Statement (.hostSnoop line) := ⟨rfl, rfl, rfl⟩
theorem Encoded.cxlProxyFill msg data error : Encoded.Statement (.cxlProxyFill msg data error) := ⟨rfl, rfl, rfl⟩
theorem Encoded.peerRequest req : Encoded.Statement (.peerRequest req) := ⟨rfl, rfl, rfl⟩
theorem Encoded.flitReplay port seq : Encoded.Statement (.flitReplay port seq) := ⟨rfl, rfl, rfl⟩
theorem Encoded.portRetrain port : Encoded.Statement (.portRetrain port) := ⟨rfl, rfl, rfl⟩
theorem Encoded.laneSpare port lane : Encoded.Statement (.laneSpare port lane) := ⟨rfl, rfl, rfl⟩
theorem Encoded.ideKeyProgram : Encoded.Statement (.ideKeyProgram) := ⟨rfl, rfl, rfl⟩
theorem Encoded.getCertificate : Encoded.Statement (.getCertificate) := ⟨rfl, rfl, rfl⟩
theorem Encoded.getMeasurements nonce user : Encoded.Statement (.getMeasurements nonce user) := ⟨rfl, rfl, rfl⟩
theorem Encoded.slotWrite kind slotB image : Encoded.Statement (.slotWrite kind slotB image) := ⟨rfl, rfl, rfl⟩
theorem Encoded.slotSwitch kind : Encoded.Statement (.slotSwitch kind) := ⟨rfl, rfl, rfl⟩
theorem Encoded.commit_ kind : Encoded.Statement (.commit_ kind) := ⟨rfl, rfl, rfl⟩
theorem Encoded.operatorKeyEnroll key : Encoded.Statement (.operatorKeyEnroll key) := ⟨rfl, rfl, rfl⟩
theorem Encoded.powerGood romDigest : Encoded.Statement (.powerGood romDigest) := ⟨rfl, rfl, rfl⟩
theorem Encoded.stage1Entry cluster stack : Encoded.Statement (.stage1Entry cluster stack) := ⟨rfl, rfl, rfl⟩
theorem Encoded.stage2Entry bad : Encoded.Statement (.stage2Entry bad) := ⟨rfl, rfl, rfl⟩
theorem Encoded.rebaseStart : Encoded.Statement (.rebaseStart) := ⟨rfl, rfl, rfl⟩
theorem Encoded.rebaseSweepDone : Encoded.Statement (.rebaseSweepDone) := ⟨rfl, rfl, rfl⟩
theorem Encoded.patrolScrub line found : Encoded.Statement (.patrolScrub line found) := ⟨rfl, rfl, rfl⟩
theorem Encoded.rowRepair row : Encoded.Statement (.rowRepair row) := ⟨rfl, rfl, rfl⟩
theorem Encoded.coreSubstitute core spareOk lost : Encoded.Statement (.coreSubstitute core spareOk lost) := ⟨rfl, rfl, rfl⟩
theorem Encoded.columnRemap die column : Encoded.Statement (.columnRemap die column) := ⟨rfl, rfl, rfl⟩
theorem Encoded.sliceRetire slice : Encoded.Statement (.sliceRetire slice) := ⟨rfl, rfl, rfl⟩
theorem Encoded.coreRejoin core : Encoded.Statement (.coreRejoin core) := ⟨rfl, rfl, rfl⟩
theorem Encoded.powerRequest request : Encoded.Statement (.powerRequest request) := ⟨rfl, rfl, rfl⟩
theorem Encoded.operatingPointChange island point gate : Encoded.Statement (.operatingPointChange island point gate) := ⟨rfl, rfl, rfl⟩
theorem Encoded.ownerCounterReport die node : Encoded.Statement (.ownerCounterReport die node) := ⟨rfl, rfl, rfl⟩
theorem Encoded.powerLoss : Encoded.Statement (.powerLoss) := ⟨rfl, rfl, rfl⟩
theorem Encoded.seqUndecodableWord word : Encoded.Statement (.seqUndecodableWord word) := ⟨rfl, rfl, rfl⟩
theorem Encoded.peerResponse msg data : Encoded.Statement (.peerResponse msg data) := ⟨rfl, rfl, rfl⟩
theorem Encoded.cxlGlobalObservation seen : Encoded.Statement (.cxlGlobalObservation seen) := ⟨rfl, rfl, rfl⟩
theorem Encoded.streamAccessPerformed die port access : Encoded.Statement (.streamAccessPerformed die port access) := ⟨rfl, rfl, rfl⟩
theorem Encoded.queueInstall queue descriptor domain remove : Encoded.Statement (.queueInstall queue descriptor domain remove) := ⟨rfl, rfl, rfl⟩
theorem Encoded.hostWindowInstall index window : Encoded.Statement (.hostWindowInstall index window) := ⟨rfl, rfl, rfl⟩

end Sys2Proof.Laws
end

