-- ==== Sys2Proof/Machine/SaveLayout.lean ====
section
/-! DEFINITION. The bytes of saves as they lie in the pool: group saves (R363), block saves (R364) and region checkpoints
(R365). No domain maps the pool (R362), so `State` keeps what these bytes say as data, and these functions write it out. -/
namespace Sys2Proof.Machine

/-- `n` bytes that hold the given sections at their offsets and zeros elsewhere. -/
def sections (n : Nat) (xs : List (Nat × List Byte)) : List Byte :=
  (List.range n).map fun i => match xs.find? fun e => e.1 ≤ i && i < e.1 + e.2.length with
    | some e => (e.2[i - e.1]?).getD 0
    | none => 0

/-- `n` things, each of them as bytes. -/
def eachOf (n : Nat) (f : Nat → List Byte) : List Byte := (List.range n).flatMap f

/-! ### The parts that other rules lay out -/

/-- A continuation record (R206). -/
def Record.bytes (r : Record) : List Byte :=
  leBytes 8 r.pc.toNat ++ leBytes 4 r.mask.toNat ++ leBytes 1 (match r.cont with | some k => k.toNat | none => 128) ++ leBytes 1 r.slot ++ leBytes 2 0 ++ leBytes 8 r.trapret.toNat ++ leBytes 4 r.trapcode.toNat ++ leBytes 4 0

/-- An entry of the reconvergence stack (R215). -/
def StackEntry.bytes (t : StackEntry) : List Byte :=
  leBytes 8 (t.otherPc.toNat % 2 ^ 63 / 8 * 8 + t.k.toNat + (if t.second then 2 ^ 63 else 0)) ++ leBytes 4 t.other.toNat ++ leBytes 4 t.all.toNat

/-- A tensor layout descriptor (R137). -/
def Layout.bytes (l : Layout) : List Byte :=
  leBytes 1 l.fmt.code ++ leBytes 1 l.rank ++ leBytes 1 (if l.swizzle then 1 else 0) ++ leBytes 1 l.chunk ++ leBytes 4 0 ++ leBytes 8 l.stride1.toNat ++ leBytes 8 l.stride2.toNat ++ leBytes 8 l.stride3.toNat

/-! ### Groups (R363) -/

/-- A strand entry: a record whose byte 14 is the resume kind and whose byte 15 says that the entry is live. -/
def Strand.saveBytes (st : Strand) (slot : Nat) : List Byte :=
  let r := (st.record slot).bytes
  r.take 14 ++ leBytes 1 (if st.wait.inMrdy then 1 else 0) ++ [1] ++ r.drop 16

/-- The remainder of a strand's `nap` at a cc (R358). -/
def Strand.napLeft (st : Strand) (at_ : Nat) : Nat :=
  match st.wait with | .nap t => t - at_ | _ => 0

/-- Byte 6 of the header: running, or what the group is suspended by. -/
def Group.runState (g : Group) : Nat :=
  match g.suspends with
  | [] => 0
  | x :: _ => if x.code == faultPage then 1 else if x.brk then 2 else 3

/-- The n of the oldest `rgrow` that a strand of the group waits in (R358). -/
def Group.pendingGrow (g : Group) : Nat :=
  (g.strands.findSome? fun e => match e.2.wait with | .rgrow n _ => some n | _ => none).getD 0

/-- The header of a group save. The save-area list and the frame save lie at addresses of the Lantern's own (LOG 129). -/
def Group.saveHeader (g : Group) (launchDomain : Nat) (phase : Bool) (list frame : Dword) : List Byte :=
  leBytes 2 g.nregs ++ leBytes 1 (if g.stackMode then 1 else 0) ++ leBytes 1 g.depth ++ leBytes 1 launchDomain ++ leBytes 1 g.domain ++ leBytes 1 g.runState ++ leBytes 1 g.strands.length ++
  leBytes 4 g.mrdyCount ++ leBytes 4 g.mmaCount ++ leBytes 1 (if g.armed then 1 else 0) ++ leBytes 1 g.pendingGrow ++ leBytes 2 0 ++
  leBytes 4 (match g.suspends with | x :: _ => x.seq.toNat | [] => 0) ++ leBytes 1 (if phase then 1 else 0) ++ leBytes 7 0 ++
  leBytes 8 list.toNat ++ leBytes 4 g.saveList.length ++ leBytes 4 g.stack.length ++ leBytes 8 (if g.frames.isEmpty then 0 else frame.toNat) ++ leBytes 8 0

/-- A saved commission: its command, destination and selector. -/
def Job.saveBytes (j : Job) : List Byte := leBytes 16 j.command.toNat ++ leBytes 8 j.dst ++ leBytes 8 j.selector.toNat

/-- A group save of 40 KiB and, with it, 128 bytes for each vector register. -/
def Group.saveBytes (g : Group) (launchDomain slot at_ : Nat) (phase : Bool) (list frame : Dword) (jobs : List Job) : List Byte :=
  sections 40960
    [ (0x0000, g.saveHeader launchDomain phase list frame),
      (0x0040, eachOf 64 fun i => leBytes 8 (g.sreg i).toNat),
      (0x0240, eachOf 8 fun i => leBytes 4 (g.pred i).toNat),
      (0x0260, eachOf 8 fun i => leBytes 1 (Map.get 0 g.jc i)),
      (0x0268, eachOf 8 fun i => leBytes 4 (Map.get 0 g.pending i).toNat),
      (0x0288, leBytes 8 g.rclk.toNat ++ leBytes 8 g.wclk.toNat),
      (0x0298, leBytes 8 g.trapvec.toNat),
      (0x02A0, eachOf 8 fun i => leBytes 8 (match g.strands.look i with | some st => st.napLeft at_ | none => 0)),
      (0x02E0, eachOf 4 fun i => match g.eps.look i with | some b => leBytes 4 b.region ++ leBytes 4 b.endpoint | none => leBytes 8 0),
      (0x0300, eachOf 8 fun i => match g.layouts.look i with | some l => l.bytes | none => leBytes 32 0),
      (0x0400, eachOf 8 fun i => match g.strands.look i with | some st => st.saveBytes slot | none => leBytes 32 0),
      (0x0500, eachOf 32 fun i => match g.stack[i]? with | some t => t.bytes | none => leBytes 16 0),
      (0x0800, jobs.flatMap Job.saveBytes),
      (0x2000, eachOf g.nregs fun r => eachOf 32 fun l => leBytes 4 (g.vreg r l).toNat) ]

/-! ### Blocks (R364) -/

/-- The header of a claim (R147). -/
def Claim.header (c : Claim) : List Byte :=
  leBytes 8 c.ring.toNat ++ leBytes 8 c.spills.toNat ++ leBytes 4 c.occ ++ leBytes 1 c.ov ++ leBytes 1 c.b ++ leBytes 1 (if c.k64 then 1 else 0)

/-- A slot of a claim: key and value; all ones as the key of an empty one (R146). -/
def Claim.slotBytes (c : Claim) (p : Nat) : List Byte :=
  match c.slots.look p with
  | some e => leBytes 8 e.1.toNat ++ leBytes 8 e.2.toNat
  | none => leBytes 8 (catEmpty c.k64).toNat ++ leBytes 8 0

/-- A byte of a claim below its unused tail: the header, the buckets and the overflow area (R146, R147). -/
def Claim.byte (c : Claim) (i : Nat) : Option Byte :=
  if i < 256 then some ((c.header[i]?).getD 0)
  else if i < 1280 + 128 * 2 ^ c.b then (c.slotBytes ((i - 256) / 16))[(i - 256) % 16]?
  else none

/-- A byte of a block's scratchpad as it is saved: that of the claim inside it (R147, R364). -/
def Block.savedByte (b : Block) (i : Nat) : Byte :=
  match b.claim.bind fun c => if c.base ≤ i && i < c.base + c.size then c.byte (i - c.base) else none with
  | some x => x
  | none => b.read i

/-- The bytes of a block save before its groups. -/
def Block.saveBytes (b : Block) (carve : Nat) : List Byte :=
  sections (roundUp (0x400 + 1024 * b.scratchKiB) 4096)
    [ (0x0000, leBytes 2 b.scratchKiB),
      (0x0002, leBytes 2 carve),
      (0x0004, leBytes 1 b.groups),
      (0x0005, leBytes 1 (if b.claim.isSome then 1 else 0)),
      (0x0008, eachOf 4 fun k => leBytes 4 (Map.get 0 b.bars k).toNat),
      (0x0040, eachOf 512 fun i => leBytes 1 ((List.range 8).foldl (fun n j => n + if Map.get false b.arrival (8 * i + j) then 2 ^ j else 0) 0)),
      (0x0400, eachOf (1024 * b.scratchKiB) fun i => [b.savedByte i]) ]

/-- A block save with its groups in the order of `%groupid`. -/
def Saved.bytes (x : Saved) (launchDomain carve : Nat) (phase : Bool) (list frame : Dword) : List Byte :=
  x.data.saveBytes carve ++ (x.groups.mergeSort fun a b => a.groupid ≤ b.groupid).flatMap fun g =>
    g.saveBytes launchDomain 0 x.at_ phase list frame (x.jobs.filter fun j => j.group == g.groupid)

/-! ### Regions (R365) -/

/-- A token: data, tag, and the end-of-stream bit in bit 0 of byte 9. -/
def Token.bytes (t : Token) : List Byte := leBytes 8 t.data.toNat ++ leBytes 1 t.tag.toNat ++ leBytes 1 (if t.eos then 1 else 0) ++ leBytes 6 0

/-- The tokens of a store, with room for `n`. -/
def Store.bytes (st : Store) (n : Nat) : List Byte := eachOf n fun i => match st.toks[i]? with | some t => t.1.bytes | none => leBytes 16 0

/-- The state of a task: its sum, its counter, expectation or repetitions left, its last firing, and what a run still owes (LOG
129). -/
def TaskState.bytes (t : TaskState) : List Byte :=
  leBytes 8 t.sum.toNat ++ leBytes 8 (t.repeatLeft.getD t.counter) ++ leBytes 8 (match t.lastFired with | some f => f + 1 | none => 0) ++ leBytes 4 (match t.pass with | some p => p.pos + 1 | none => 0) ++ leBytes 2 t.permits ++ leBytes 1 (if t.owesMarker then 1 else 0) ++ leBytes 1 (t.markers.foldl (fun m i => m + 2 ^ i) 0)

/-- Where a token is after a hop in a direction: 0 north, 1 east, 2 south, 3 west (R265). -/
def hopTo (x y d : Nat) : Nat × Nat :=
  match d with
  | 0 => (x, y + 1)
  | 1 => (x + 1, y)
  | 2 => (x, y - 1)
  | _ => (x - 1, y)

/-- The buffers of a branch's hops: the element whose switch holds each, and the direction of the hop. -/
def Branch.buffers (b : Branch) (x y : Nat) : List (Nat × Nat × Nat × Store) :=
  ((b.dirs.zip b.hops).foldl (fun (a : (Nat × Nat) × List (Nat × Nat × Nat × Store)) e =>
    let p := hopTo a.1.1 a.1.2 e.1
    (p, a.2 ++ [(p.1, p.2, e.1, e.2)])) ((x, y), [])).2

/-- The hop buffers of an element's switch: two tokens of each direction and vc by which hops end there (R265, R365); no two
branches share one (LOG 129). -/
def Inst.hopBytes (n : Inst) (x y : Nat) : List Byte :=
  let all : List (Nat × Nat × Nat × Nat × Store) := n.routes.flatMap fun r => r.branches.flatMap fun b => (b.buffers r.x r.y).map fun e => (b.vc, e)
  eachOf 4 fun d => eachOf 8 fun vc =>
    (match all.find? fun (e : Nat × Nat × Nat × Nat × Store) => e.1 == vc && e.2.1 == x && e.2.2.1 == y && e.2.2.2.1 == d with
    | some e => e.2.2.2.2
    | none => ({} : Store)).bytes 2

/-- The buffers of an element's local hops, one for each vc, among its record's remaining bytes (R265, LOG 129). -/
def Inst.localBytes (n : Inst) (x y : Nat) : List Byte :=
  let all : List Branch := (n.routes.filter fun r => r.x == x && r.y == y).flatMap fun r => r.branches.filter fun b => b.dirs.isEmpty
  eachOf 8 fun vc => (match all.find? fun (b : Branch) => b.vc == vc with | some b => b.hops.headD {} | none => ({} : Store)).bytes 2

/-- An element record. -/
def Inst.elemBytes (n : Inst) (x y : Nat) : List Byte :=
  let e := Map.get {} n.elems (128 * y + x)
  sections 8192
    [ (0, eachOf 256 fun i => leBytes 8 (Map.get 0 e.frame i).toNat),
      (2048, eachOf 32 fun i => leBytes 1 ((List.range 8).foldl (fun m j => m + if (e.present.look (8 * i + j)).isSome then 2 ^ j else 0) 0)),
      (2080, eachOf 8 fun i => match e.tasks[i]? with | some t => t.bytes | none => leBytes 32 0),
      (2336, eachOf 8 fun i => (Map.get {} e.outs i).bytes 6),
      (3104, n.hopBytes x y),
      (4128, match e.outs.find? fun o => 6 < o.2.toks.length with | some o => o.2.bytes 16 | none => leBytes 256 0),
      (4384, n.localBytes x y) ]

/-- A memory tile: its words, or the tokens that it holds in FIFO mode. -/
def Tile.bytes (t : Tile) : List Byte :=
  if t.mode == 1 then t.fifo.bytes 12288 else eachOf 24576 fun i => leBytes 8 (Map.get 0 t.words i).toNat

/-- A square: its elements row by row, then its four tiles in ascending key. -/
def Inst.squareBytes (n : Inst) (sx sy : Nat) : List Byte :=
  let inside (k : Nat) : Bool := k % 128 / 16 == sx && k / 128 / 16 == sy
  let tiles := n.tiles.filter fun t => inside t.1
  (eachOf 256 fun i => n.elemBytes (16 * sx + i % 16) (16 * sy + i / 16)) ++ eachOf 4 fun i => match tiles[i]? with | some t => t.2.bytes | none => leBytes 196608 0

/-- A bound port. -/
def Port.saveBytes (p : Port) : List Byte :=
  sections 512
    [ (0, eachOf 16 fun i => match p.queue[i]? with | some w => leBytes 16 w.toNat | none => leBytes 16 0),
      (256, leBytes 8 p.cmd ++ leBytes 8 p.elem),
      (272, eachOf 64 fun i => leBytes 1 (if (p.extents.look i).isSome then 1 else 0)) ]

/-- A sequencer. -/
def Seq.saveBytes (q : Seq) : List Byte :=
  sections 4608
    [ (0, eachOf 4096 fun i => [Map.get 0 q.store i]),
      (4096, eachOf 32 fun i => leBytes 8 (Map.get 0 q.k i).toNat),
      (4352, leBytes 8 q.pc ++ leBytes 1 (if q.stopped then 1 else 0) ++ leBytes 1 (if q.failed then 1 else 0)) ]

/-- A controller table entry: iterations issued and done, and outstanding permits. -/
def Ctl.saveBytes (c : Ctl) : List Byte :=
  let total (m : Map Nat) : Nat := m.foldl (fun n e => n + e.2) 0
  leBytes 8 (total c.issued) ++ leBytes 8 (total c.done) ++ leBytes 8 (if c.permitAt.isSome then 1 else 0) ++ leBytes 8 c.doneAt.length

/-- An endpoint: its window count and the tokens in it. -/
def Endpoint.saveBytes (e : Endpoint) : List Byte := sections 2048 [(0, leBytes 8 e.credits ++ leBytes 8 e.buf.toks.length), (16, e.buf.bytes 64)]

/-- A checkpoint of an instance, with the endpoints of its region. -/
def Checkpoint.bytes (c : Checkpoint) (image : Dword) (eps : Map Endpoint) : List Byte :=
  let n := c.inst
  sections 256 [(0, leBytes 8 image.toNat ++ leBytes 1 n.sx ++ leBytes 1 n.sy ++ leBytes 2 n.stage ++ leBytes 2 c.ports.length ++ leBytes 2 c.seqs.length)] ++
  (eachOf n.rows fun sy => eachOf n.cols fun sx => n.squareBytes sx sy) ++
  c.ports.flatMap (fun e => e.2.saveBytes) ++ c.seqs.flatMap (fun e => e.2.saveBytes) ++ n.ctls.flatMap Ctl.saveBytes ++ eps.flatMap fun e => e.2.saveBytes

end Sys2Proof.Machine
end

