-- ==== Sys2Proof/Tests/Slice0.lean ====
section
/-! SUPPORT. Tests: the decoding of one word of every constructor, written out from the encoding tables (R53-R70); ill-formed
terms, one for each check (R63, R67, R70); and for every statement states and operands that meet its hypotheses. -/
namespace Sys2Proof.Tests
set_option Elab.async false
open Sys2Proof Sys2Proof.Machine

/-! ### Decoding: each word is major 63:57, fn 56:51, then the form's fields at their places (R54-R58). -/

def V (d a b c : Nat) (ty : Ty) (x : Nat := 0) (sb : Bool := false) : FormV :=
  { g := ⟨0, false⟩, u := false, d := BitVec.ofNat 8 d, a := BitVec.ofNat 8 a, tail := .regs (BitVec.ofNat 8 b) (BitVec.ofNat 8 c) sb false, ty := ty, rm := .rne, sat := false, x := BitVec.ofNat 4 x }
def M (d size base off : Nat) (scope : Scope) (order : Order) (hint : Nat) : FormM :=
  { g := ⟨0, false⟩, ix := false, d := BitVec.ofNat 8 d, size := BitVec.ofNat 2 size, base := BitVec.ofNat 6 base, b := 0, off := BitVec.ofNat 12 off, scope := scope, order := order, hint := BitVec.ofNat 4 hint }
def B (k disp : Nat) : FormB := { g := ⟨0, false⟩, u := false, k := BitVec.ofNat 8 k, disp := BitVec.ofNat 32 disp, x := 0 }
def L (d imm : Nat) : FormL := { g := ⟨0, false⟩, u := false, d := BitVec.ofNat 8 d, imm := BitVec.ofNat 32 imm, x := 0 }

theorem test_decode_major1_0 : decodeCore 0x0200000000000000 = .ok (.nop (V 0 0 0 0 .b32 0 false)) ∧
  decodeCore 0x0218000100000000 = .ok (.brx (V 0 4 0 0 .b32 0 false)) ∧
  decodeCore 0x0228008100000000 = .ok (.callx (V 2 4 0 0 .b32 0 false)) ∧
  decodeCore 0x0230000100000000 = .ok (.ret (V 0 4 0 0 .b32 0 false)) ∧
  decodeCore 0x0240000000000000 = .ok (.exit_ (V 0 0 0 0 .b32 0 false)) ∧
  decodeCore 0x0248000000000000 = .ok (.yield (V 0 0 0 0 .b32 0 false)) ∧
  decodeCore 0x0258000000000000 = .ok (.brk (V 0 0 0 0 .b32 0 false)) ∧
  decodeCore 0x0268000000000000 = .ok (.tret (V 0 0 0 0 .b32 0 false)) ∧
  decodeCore 0x0208000000000140 = .ok (.bra (B 0 5)) ∧
  decodeCore 0x021000C000000140 = .ok (.brd (B 3 5)) ∧
  decodeCore 0x022001C000000140 = .ok (.call (B 7 5)) ∧
  decodeCore 0x023800C000000000 = .ok (.join (B 3 0)) := by decide +kernel

theorem test_decode_major1_1 : decodeCore 0x0250000000000240 = .ok (.nap (L 0 9)) ∧
  decodeCore 0x0260000000000240 = .ok (.trap (L 0 9)) := by decide +kernel

theorem test_decode_major2_0 : decodeCore 0x0400008101800800 = .ok (.add (V 2 4 6 0 .n32 0 false)) ∧
  decodeCore 0x0408008101800800 = .ok (.sub (V 2 4 6 0 .n32 0 false)) ∧
  decodeCore 0x0410008101800800 = .ok (.mul (V 2 4 6 0 .n32 0 false)) ∧
  decodeCore 0x0418008101800800 = .ok (.mulhi (V 2 4 6 0 .n32 0 false)) ∧
  decodeCore 0x0420008101820800 = .ok (.mad (V 2 4 6 8 .n32 0 false)) ∧
  decodeCore 0x0428008101820800 = .ok (.madw (V 2 4 6 8 .n32 0 false)) ∧
  decodeCore 0x0430008101800800 = .ok (.min_ (V 2 4 6 0 .n32 0 false)) ∧
  decodeCore 0x0438008101800800 = .ok (.max_ (V 2 4 6 0 .n32 0 false)) ∧
  decodeCore 0x0440008100000400 = .ok (.abs_ (V 2 4 0 0 .i32 0 false)) ∧
  decodeCore 0x0448008100000800 = .ok (.neg (V 2 4 0 0 .n32 0 false)) ∧
  decodeCore 0x0450008101800800 = .ok (.and_ (V 2 4 6 0 .n32 0 false)) ∧
  decodeCore 0x0458008101800800 = .ok (.or_ (V 2 4 6 0 .n32 0 false)) := by decide +kernel

theorem test_decode_major2_1 : decodeCore 0x0460008101800800 = .ok (.xor_ (V 2 4 6 0 .n32 0 false)) ∧
  decodeCore 0x0468008101800800 = .ok (.andn (V 2 4 6 0 .n32 0 false)) ∧
  decodeCore 0x0470008100000800 = .ok (.not_ (V 2 4 0 0 .n32 0 false)) ∧
  decodeCore 0x0478008101800800 = .ok (.shl (V 2 4 6 0 .n32 0 false)) ∧
  decodeCore 0x0480008101800800 = .ok (.shr (V 2 4 6 0 .n32 0 false)) ∧
  decodeCore 0x0488008101800800 = .ok (.sar (V 2 4 6 0 .n32 0 false)) ∧
  decodeCore 0x0490008101800800 = .ok (.rotl (V 2 4 6 0 .n32 0 false)) ∧
  decodeCore 0x0498008101800800 = .ok (.bfx (V 2 4 6 0 .n32 0 false)) ∧
  decodeCore 0x04A0008101820800 = .ok (.bfi (V 2 4 6 8 .n32 0 false)) ∧
  decodeCore 0x04A8008100000800 = .ok (.popc (V 2 4 0 0 .n32 0 false)) ∧
  decodeCore 0x04B0008100000800 = .ok (.clz (V 2 4 0 0 .n32 0 false)) ∧
  decodeCore 0x04B8008100000800 = .ok (.ctz (V 2 4 0 0 .n32 0 false)) := by decide +kernel

theorem test_decode_major2_2 : decodeCore 0x04C0008100000800 = .ok (.brev (V 2 4 0 0 .n32 0 false)) ∧
  decodeCore 0x04C8008101820000 = .ok (.perm (V 2 4 6 8 .b32 0 false)) ∧
  decodeCore 0x04D000810180C800 = .ok (.sel (V 2 4 6 3 .n32 0 false)) ∧
  decodeCore 0x04D8008101800800 = .ok (.cmp (V 2 4 6 0 .n32 0 false)) ∧
  decodeCore 0x04E000810180C800 = .ok (.addc (V 2 4 6 3 .n32 0 false)) ∧
  decodeCore 0x04E800810180C800 = .ok (.subc (V 2 4 6 3 .n32 0 false)) ∧
  decodeCore 0x04F0008101800800 = .ok (.lea (V 2 4 6 0 .n32 0 false)) := by decide +kernel

theorem test_decode_major3_0 : decodeCore 0x0600008001801000 = .ok (.mov (V 2 0 6 0 .n64 0 false)) ∧
  decodeCore 0x0610008100001000 = .ok (.bcast (V 2 4 0 0 .n64 0 false)) ∧
  decodeCore 0x0618008101C01040 = .ok (.rdlane (V 2 4 7 0 .n64 0 true)) ∧
  decodeCore 0x0620008101C01040 = .ok (.wrlane (V 2 4 7 0 .n64 0 true)) ∧
  decodeCore 0x0628008020801040 = .ok (.rdsr (V 2 0 130 0 .n64 0 true)) ∧
  decodeCore 0x0630008100000000 = .ok (.wrsr (V 2 4 0 0 .b32 0 false)) ∧
  decodeCore 0x0638008100000000 = .ok (.voteAny (V 2 4 0 0 .b32 0 false)) ∧
  decodeCore 0x0640008100000000 = .ok (.voteAll (V 2 4 0 0 .b32 0 false)) ∧
  decodeCore 0x0648008100000000 = .ok (.ballot (V 2 4 0 0 .b32 0 false)) ∧
  decodeCore 0x0650008101800000 = .ok (.pand (V 2 4 6 0 .b32 0 false)) ∧
  decodeCore 0x0658008101800000 = .ok (.por (V 2 4 6 0 .b32 0 false)) ∧
  decodeCore 0x0660008101800000 = .ok (.pxor (V 2 4 6 0 .b32 0 false)) := by decide +kernel

theorem test_decode_major3_1 : decodeCore 0x0668008100000000 = .ok (.pnot (V 2 4 0 0 .b32 0 false)) ∧
  decodeCore 0x0670008100000000 = .ok (.ppopc (V 2 4 0 0 .b32 0 false)) ∧
  decodeCore 0x0608014000003200 = .ok (.movi (L 5 200)) := by decide +kernel

theorem test_decode_major4_0 : decodeCore 0x0800008101800800 = .ok (.shflIdx (V 2 4 6 0 .n32 0 false)) ∧
  decodeCore 0x0808008101800800 = .ok (.shflUp (V 2 4 6 0 .n32 0 false)) ∧
  decodeCore 0x0810008101800800 = .ok (.shflDown (V 2 4 6 0 .n32 0 false)) ∧
  decodeCore 0x0818008101800800 = .ok (.shflXor (V 2 4 6 0 .n32 0 false)) ∧
  decodeCore 0x0820008100000800 = .ok (.qswapH (V 2 4 0 0 .n32 0 false)) ∧
  decodeCore 0x0828008100000800 = .ok (.qswapV (V 2 4 0 0 .n32 0 false)) ∧
  decodeCore 0x0830008100000800 = .ok (.qswapD (V 2 4 0 0 .n32 0 false)) ∧
  decodeCore 0x0838008101800800 = .ok (.qbcast (V 2 4 6 0 .n32 0 false)) ∧
  decodeCore 0x0840008100000800 = .ok (.redxAdd (V 2 4 0 0 .n32 0 false)) ∧
  decodeCore 0x0848008100000800 = .ok (.redxMin (V 2 4 0 0 .n32 0 false)) ∧
  decodeCore 0x0850008100000800 = .ok (.redxMax (V 2 4 0 0 .n32 0 false)) ∧
  decodeCore 0x0858008100000800 = .ok (.scanxAdd (V 2 4 0 0 .n32 0 false)) := by decide +kernel

theorem test_decode_major4_1 : decodeCore 0x0860008101820800 = .ok (.compact (V 2 4 6 8 .n32 0 false)) ∧
  decodeCore 0x0868008101800800 = .ok (.expand (V 2 4 6 0 .n32 0 false)) := by decide +kernel

theorem test_decode_major5_0 : decodeCore 0x0A00008101801400 = .ok (.fadd (V 2 4 6 0 .f32 0 false)) ∧
  decodeCore 0x0A08008101801400 = .ok (.fsub (V 2 4 6 0 .f32 0 false)) ∧
  decodeCore 0x0A10008101801400 = .ok (.fmul (V 2 4 6 0 .f32 0 false)) ∧
  decodeCore 0x0A18008101821400 = .ok (.ffma (V 2 4 6 8 .f32 0 false)) ∧
  decodeCore 0x0A20008101801400 = .ok (.fmin (V 2 4 6 0 .f32 0 false)) ∧
  decodeCore 0x0A28008101801400 = .ok (.fmax (V 2 4 6 0 .f32 0 false)) ∧
  decodeCore 0x0A30008101801400 = .ok (.fminm (V 2 4 6 0 .f32 0 false)) ∧
  decodeCore 0x0A38008100001400 = .ok (.fabs (V 2 4 0 0 .f32 0 false)) ∧
  decodeCore 0x0A40008100001400 = .ok (.fneg (V 2 4 0 0 .f32 0 false)) ∧
  decodeCore 0x0A48008101801400 = .ok (.fcmp (V 2 4 6 0 .f32 0 false)) ∧
  decodeCore 0x0A50008100001400 = .ok (.fclass (V 2 4 0 0 .f32 0 false)) ∧
  decodeCore 0x0A58008100001400 = .ok (.frcp (V 2 4 0 0 .f32 0 false)) := by decide +kernel

theorem test_decode_major5_1 : decodeCore 0x0A60008100001400 = .ok (.frsq (V 2 4 0 0 .f32 0 false)) ∧
  decodeCore 0x0A68008100001400 = .ok (.fsqrt (V 2 4 0 0 .f32 0 false)) ∧
  decodeCore 0x0A70008100001400 = .ok (.fexp2 (V 2 4 0 0 .f32 0 false)) ∧
  decodeCore 0x0A78008100001400 = .ok (.flog2 (V 2 4 0 0 .f32 0 false)) ∧
  decodeCore 0x0A80008100001400 = .ok (.fsin (V 2 4 0 0 .f32 0 false)) ∧
  decodeCore 0x0A88008100001400 = .ok (.fcos (V 2 4 0 0 .f32 0 false)) := by decide +kernel

theorem test_decode_major6_0 : decodeCore 0x0C00008101801800 = .ok (.hadd2 (V 2 4 6 0 .f16 0 false)) ∧
  decodeCore 0x0C08008101801800 = .ok (.hmul2 (V 2 4 6 0 .f16 0 false)) ∧
  decodeCore 0x0C10008101821800 = .ok (.hfma2 (V 2 4 6 8 .f16 0 false)) ∧
  decodeCore 0x0C18008101801800 = .ok (.hmin2 (V 2 4 6 0 .f16 0 false)) ∧
  decodeCore 0x0C20008101801800 = .ok (.hmax2 (V 2 4 6 0 .f16 0 false)) ∧
  decodeCore 0x0C28008101821800 = .ok (.hdot2 (V 2 4 6 8 .f16 0 false)) := by decide +kernel

theorem test_decode_major7_0 : decodeCore 0x0E00008100000801 = .ok (.cvt (V 2 4 0 0 .n32 1 false)) ∧
  decodeCore 0x0E08008101801800 = .ok (.cvtpk (V 2 4 6 0 .f16 0 false)) ∧
  decodeCore 0x0E10008101C05845 = .ok (.cvtsr (V 2 4 7 1 .f16 5 true)) ∧
  decodeCore 0x0E18008100002000 = .ok (.qscale (V 2 4 0 0 .e4m3 0 false)) := by decide +kernel

theorem test_decode_major8_0 : decodeCore 0x100001A0C0005080 = .ok (.ld (M 6 2 3 20 .clu .rlx 0)) ∧
  decodeCore 0x100801A0C0005080 = .ok (.st (M 6 2 3 20 .clu .rlx 0)) ∧
  decodeCore 0x101001A0C0005080 = .ok (.ldx4 (M 6 2 3 20 .clu .rlx 0)) ∧
  decodeCore 0x101801A0C0005080 = .ok (.stx4 (M 6 2 3 20 .clu .rlx 0)) ∧
  decodeCore 0x102001A0C0005000 = .ok (.lds (M 6 2 3 20 .blk .rlx 0)) ∧
  decodeCore 0x102801A0C0005000 = .ok (.sts (M 6 2 3 20 .blk .rlx 0)) ∧
  decodeCore 0x103001A0C0005000 = .ok (.ldsx4 (M 6 2 3 20 .blk .rlx 0)) ∧
  decodeCore 0x103801A0C0005000 = .ok (.stsx4 (M 6 2 3 20 .blk .rlx 0)) ∧
  decodeCore 0x10400020C0005000 = .ok (.prf (M 0 2 3 20 .blk .rlx 0)) := by decide +kernel

theorem test_decode_major9_0 : decodeCore 0x120001A0C0005080 = .ok (.atomAdd (M 6 2 3 20 .clu .rlx 0)) ∧
  decodeCore 0x120001A0C0005081 = .ok (.redAdd (M 6 2 3 20 .clu .rlx 1)) ∧
  decodeCore 0x120801A0C0005080 = .ok (.atomMin (M 6 2 3 20 .clu .rlx 0)) ∧
  decodeCore 0x120801A0C0005081 = .ok (.redMin (M 6 2 3 20 .clu .rlx 1)) ∧
  decodeCore 0x121001A0C0005080 = .ok (.atomMax (M 6 2 3 20 .clu .rlx 0)) ∧
  decodeCore 0x121001A0C0005081 = .ok (.redMax (M 6 2 3 20 .clu .rlx 1)) ∧
  decodeCore 0x121801A0C0005080 = .ok (.atomAnd (M 6 2 3 20 .clu .rlx 0)) ∧
  decodeCore 0x121801A0C0005081 = .ok (.redAnd (M 6 2 3 20 .clu .rlx 1)) ∧
  decodeCore 0x122001A0C0005080 = .ok (.atomOr (M 6 2 3 20 .clu .rlx 0)) ∧
  decodeCore 0x122001A0C0005081 = .ok (.redOr (M 6 2 3 20 .clu .rlx 1)) ∧
  decodeCore 0x122801A0C0005080 = .ok (.atomXor (M 6 2 3 20 .clu .rlx 0)) ∧
  decodeCore 0x122801A0C0005081 = .ok (.redXor (M 6 2 3 20 .clu .rlx 1)) := by decide +kernel

theorem test_decode_major9_1 : decodeCore 0x123001A0C0005080 = .ok (.atomXchg (M 6 2 3 20 .clu .rlx 0)) ∧
  decodeCore 0x123801A0C0005080 = .ok (.atomCas (M 6 2 3 20 .clu .rlx 0)) ∧
  decodeCore 0x124001A0C0005080 = .ok (.atomFadd (M 6 2 3 20 .clu .rlx 0)) ∧
  decodeCore 0x124001A0C0005081 = .ok (.redFadd (M 6 2 3 20 .clu .rlx 1)) ∧
  decodeCore 0x124801A0C0005080 = .ok (.atomFmin (M 6 2 3 20 .clu .rlx 0)) ∧
  decodeCore 0x124801A0C0005081 = .ok (.redFmin (M 6 2 3 20 .clu .rlx 1)) ∧
  decodeCore 0x125001A0C0005080 = .ok (.atomFmax (M 6 2 3 20 .clu .rlx 0)) ∧
  decodeCore 0x125001A0C0005081 = .ok (.redFmax (M 6 2 3 20 .clu .rlx 1)) ∧
  decodeCore 0x125801A0C0005080 = .ok (.atomBfadd2 (M 6 2 3 20 .clu .rlx 0)) ∧
  decodeCore 0x125801A0C0005081 = .ok (.redBfadd2 (M 6 2 3 20 .clu .rlx 1)) := by decide +kernel

theorem test_decode_major10_0 : decodeCore 0x1408000001800000 = .ok (.wait (V 0 0 6 0 .b32 0 false)) ∧
  decodeCore 0x1410000000000000 = .ok (.bar (V 0 0 0 0 .b32 0 false)) ∧
  decodeCore 0x1418008101800001 = .ok (.arrive (V 2 4 6 0 .b32 1 false)) ∧
  decodeCore 0x1420008101800001 = .ok (.bwait (V 2 4 6 0 .b32 1 false)) ∧
  decodeCore 0x14280020C0005080 = .ok (.renew (M 0 2 3 20 .clu .rlx 0)) ∧
  decodeCore 0x1430008000000000 = .ok (.rdclk (V 2 0 0 0 .b32 0 false)) ∧
  decodeCore 0x1400000000000120 = .ok (.fence (M 0 0 0 0 .dev .rel 0)) := by decide +kernel

theorem test_decode_major11_0 : decodeCore 0x1600008101820000 = .ok (.sendGlb (V 2 4 6 8 .b32 0 false)) ∧
  decodeCore 0x1600008101820001 = .ok (.sendPeer (V 2 4 6 8 .b32 1 false)) ∧
  decodeCore 0x1600008101820002 = .ok (.sendTens (V 2 4 6 8 .b32 2 false)) ∧
  decodeCore 0x1608008101820000 = .ok (.sendm (V 2 4 6 8 .b32 0 false)) ∧
  decodeCore 0x1610008101800000 = .ok (.commission (V 2 4 6 0 .b32 0 false)) ∧
  decodeCore 0x1618008101800000 = .ok (.cbtest (V 2 4 6 0 .b32 0 false)) ∧
  decodeCore 0x1620000101800000 = .ok (.cbwait (V 0 4 6 0 .b32 0 false)) ∧
  decodeCore 0x1628000101800000 = .ok (.cbclr (V 0 4 6 0 .b32 0 false)) ∧
  decodeCore 0x1630000100000000 = .ok (.tlayout (V 0 4 0 0 .b32 0 false)) := by decide +kernel

theorem test_decode_major12_0 : decodeCore 0x1800008101820000 = .ok (.gath (V 2 4 6 8 .b32 0 false)) ∧
  decodeCore 0x1808008101820000 = .ok (.scat (V 2 4 6 8 .b32 0 false)) ∧
  decodeCore 0x1810008100000000 = .ok (.gstat (V 2 4 0 0 .b32 0 false)) := by decide +kernel

theorem test_decode_major13_0 : decodeCore 0x1A00008101820000 = .ok (.cclaim (V 2 4 6 8 .b32 0 false)) ∧
  decodeCore 0x1A08000000000000 = .ok (.cfree (V 0 0 0 0 .b32 0 false)) ∧
  decodeCore 0x1A10008101821000 = .ok (.cins (V 2 4 6 8 .n64 0 false)) ∧
  decodeCore 0x1A18008100021000 = .ok (.cprb (V 2 4 0 8 .n64 0 false)) ∧
  decodeCore 0x1A20008100021000 = .ok (.cdel (V 2 4 0 8 .n64 0 false)) ∧
  decodeCore 0x1A28008101820800 = .ok (.cacc (V 2 4 6 8 .n32 0 false)) ∧
  decodeCore 0x1A30008101820000 = .ok (.cdrn (V 2 4 6 8 .b32 0 false)) ∧
  decodeCore 0x1A38008000000000 = .ok (.cstat (V 2 0 0 0 .b32 0 false)) := by decide +kernel

theorem test_decode_major14_0 : decodeCore 0x1C08000000000000 = .ok (.gret (V 0 0 0 0 .b32 0 false)) ∧
  decodeCore 0x1C10000000000000 = .ok (.gabort (V 0 0 0 0 .b32 0 false)) ∧
  decodeCore 0x1C28000000000000 = .ok (.halt (V 0 0 0 0 .b32 0 false)) ∧
  decodeCore 0x1C28000000000001 = .ok (.haltAll (V 0 0 0 0 .b32 1 false)) ∧
  decodeCore 0x1C000240000000C0 = .ok (.gate (L 9 3)) ∧
  decodeCore 0x1C18000000000080 = .ok (.rgrow (L 0 2)) ∧
  decodeCore 0x1C20000000000080 = .ok (.rshrink (L 0 2)) := by decide +kernel

theorem test_decode_major15_0 : decodeCore 0x1E00100000000000 = .ok (.mzero (V 64 0 0 0 .b32 0 false)) ∧
  decodeCore 0x1E08000000000000 = .ok (.mrdy (V 0 0 0 0 .b32 0 false)) ∧
  decodeCore 0x1E10100420001800 = .ok (.mma (V 64 16 128 0 .f16 0 false)) ∧
  decodeCore 0x1E18100420021800 = .ok (.mmaSp (V 64 16 128 8 .f16 0 false)) ∧
  decodeCore 0x1E20100420022000 = .ok (.mmx (V 64 16 128 8 .e4m3 0 false)) ∧
  decodeCore 0x1E28000000000000 = .ok (.mwait (V 0 0 0 0 .b32 0 false)) ∧
  decodeCore 0x1E30000000000000 = .ok (.mdrain (V 0 0 0 0 .b32 0 false)) := by decide +kernel

theorem test_decode_major16_0 : decodeCore 0x2000008101800000 = .ok (.aopen (V 2 4 6 0 .b32 0 false)) ∧
  decodeCore 0x2008000100001000 = .ok (.asend (V 0 4 0 0 .n64 0 false)) ∧
  decodeCore 0x2010008000021000 = .ok (.arecv (V 2 0 0 8 .n64 0 false)) ∧
  decodeCore 0x2018000100000800 = .ok (.aacc (V 0 4 0 0 .n32 0 false)) ∧
  decodeCore 0x2020000101800000 = .ok (.acmd (V 0 4 6 0 .b32 0 false)) ∧
  decodeCore 0x2028000000000000 = .ok (.afence (V 0 0 0 0 .b32 0 false)) ∧
  decodeCore 0x2030000000000000 = .ok (.aclose (V 0 0 0 0 .b32 0 false)) ∧
  decodeCore 0x203801A0C0005100 = .ok (.nmr (M 6 2 3 20 .dev .rlx 0)) ∧
  decodeCore 0x2040008101820400 = .ok (.nidx (V 2 4 6 8 .i32 0 false)) ∧
  decodeCore 0x2048000000000000 = .ok (.nfence (V 0 0 0 0 .b32 0 false)) := by decide +kernel

theorem test_decode_major17_0 : decodeCore 0x2200008101800000 = .ok (.launch (V 2 4 6 0 .b32 0 false)) ∧
  decodeCore 0x2208008101800000 = .ok (.rlaunch (V 2 4 6 0 .b32 0 false)) := by decide +kernel

theorem test_decode_compact_registers : decodeCompact 0x04611000 = .ok (.seqAdd ⟨3, 1, 2⟩) ∧
  decodeCompact 0x08611000 = .ok (.seqSub ⟨3, 1, 2⟩) ∧
  decodeCompact 0x10611000 = .ok (.seqMul ⟨3, 1, 2⟩) ∧
  decodeCompact 0x14611000 = .ok (.seqAnd ⟨3, 1, 2⟩) ∧
  decodeCompact 0x18611000 = .ok (.seqOr ⟨3, 1, 2⟩) ∧
  decodeCompact 0x1C611000 = .ok (.seqXor ⟨3, 1, 2⟩) ∧
  decodeCompact 0x20611000 = .ok (.seqShl ⟨3, 1, 2⟩) ∧
  decodeCompact 0x24611000 = .ok (.seqShr ⟨3, 1, 2⟩) ∧
  decodeCompact 0x24611001 = .ok (.seqShrA ⟨3, 1, 2⟩) := by decide +kernel

theorem test_decode_compact_immediates : decodeCompact 0x0C61004D = .ok (.seqAddi ⟨3, 1, 77⟩) ∧
  decodeCompact 0x2861004D = .ok (.seqLih ⟨3, 1, 77⟩) ∧
  decodeCompact 0x2C61004D = .ok (.seqLd ⟨3, 1, 77⟩) ∧
  decodeCompact 0x3061004D = .ok (.seqSt ⟨3, 1, 77⟩) ∧
  decodeCompact 0x3461004D = .ok (.seqBeq ⟨3, 1, 77⟩) ∧
  decodeCompact 0x3861004D = .ok (.seqBne ⟨3, 1, 77⟩) ∧
  decodeCompact 0x3C61004D = .ok (.seqBlt ⟨3, 1, 77⟩) ∧
  decodeCompact 0x4061004D = .ok (.seqBge ⟨3, 1, 77⟩) ∧
  decodeCompact 0x4401004D = .ok (.seqJmp ⟨0, 1, 77⟩) ∧
  decodeCompact 0x4861004D = .ok (.seqJal ⟨3, 1, 77⟩) ∧
  decodeCompact 0x4C800000 = .ok (.seqScmd ⟨4, 0, 0⟩) ∧
  decodeCompact 0x50610001 = .ok (.seqSwait ⟨3, 1, 1⟩) ∧
  decodeCompact 0x54010006 = .ok (.seqSsig ⟨0, 1, 6⟩) ∧
  decodeCompact 0x5801004D = .ok (.seqSfault ⟨0, 1, 77⟩) ∧
  decodeCompact 0x5C000000 = .ok (.seqNop) ∧
  decodeCompact 0x60000000 = .ok (.seqStop) := by decide +kernel

theorem test_decode_stream : decodeStream 0x01050003000000000009000000000123 = .ok (.slin ⟨5, 3, 9, 291⟩) ∧
  decodeStream 0x02050002000000000009000000000120 = .ok (.sidx ⟨5, 2, 9, 288⟩) ∧
  decodeStream 0x03050001000000000009000000000200 = .ok (.sconst ⟨5, 1, 9, 512⟩) ∧
  decodeStream 0x04050002000000000009000000000123 = .ok (.swrite ⟨5, 2, 9, 291⟩) ∧
  decodeStream 0x05050000000000000009000000000400 = .ok (.sred ⟨5, 0, 9, 1024⟩) ∧
  decodeStream 0x06050000000000000009000000000000 = .ok (.seos ⟨5, 0, 9, 0⟩) ∧
  decodeStream 0x07050000000000000009000000000002 = .ok (.scfg ⟨5, 0, 9, 2⟩) ∧
  decodeStream 0x08050000000000000009000000000033 = .ok (.sdrain ⟨5, 0, 9, 51⟩) ∧
  decodeStream 0x09050000000000000009000000000040 = .ok (.sbar ⟨5, 0, 9, 64⟩) ∧
  decodeStream 0x0A050001000000000009000000001800 = .ok (.sland ⟨5, 1, 9, 6144⟩) ∧
  decodeStream 0x0B050002000000000009000000000120 = .ok (.sgath ⟨5, 2, 9, 288⟩) ∧
  decodeStream 0x0C050000000000000009000000000041 = .ok (.spage ⟨5, 0, 9, 65⟩) := by decide +kernel

/-- Words that the spec itself works out, among them its divided branch and a load with an index register. -/
theorem test_spec_words : decodeCore 0x0628008020000040 = .ok (.rdsr (V 2 0 128 0 .b32 0 true)) ∧
  decodeCore 0x04D8004080028812 = .ok (.cmp { V 1 4 0 0 .n32 2 with a := 2, tail := .imm 10 }) ∧
  decodeCore 0x02110080000000C0 = .ok (.brd { B 2 3 with g := ⟨1, false⟩ }) ∧
  decodeCore 0x0608014000003200 = .ok (.movi (L 5 200)) ∧ decodeCore 0x0208000000000080 = .ok (.bra (B 0 2)) ∧
  decodeCore 0x0238008000000000 = .ok (.join (B 2 0)) ∧ decodeCore 0x0400014140800400 = .ok (.add (V 5 5 2 0 .i32)) ∧
  decodeCore 0x0240000000000000 = .ok (.exit_ (V 0 0 0 0 .b32)) ∧
  decodeCore 0x1000432042000100 = .ok (.ld { M 12 2 1 0 .dev .rlx 0 with ix := true, b := 8 }) ∧
  decodeCore 0x1C000240000000C0 = .ok (.gate (L 9 3)) ∧ decodeCore 0x1400000000000120 = .ok (.fence (M 0 0 0 0 .dev .rel 0)) := by decide +kernel

/-! ### Ill-formed terms: one for each check of R63, R67 and R70. -/

/-- Types, rounding, saturation, x, uniform issue, immediates. -/
theorem test_wf_modifiers : ∀ i ∈ [Instr.add (V 2 4 6 0 .f32), .add { V 2 4 6 0 .n32 with rm := .rz }, .and_ { V 2 4 6 0 .n32 with sat := true },
    .add (V 2 4 6 0 .n32 1), .bcast { V 2 4 0 0 .b32 with u := true }, .mad { V 2 4 0 0 .n32 with tail := .imm 5 },
    .addc { V 2 4 6 130 .n32 with u := true }, .qbcast { V 2 4 0 0 .b32 with tail := .imm 4 }, .acmd (V 0 5 6 0 .b32)], i.wf = false := by decide +kernel

/-- Operand fields: unused, pairs, selections, flags, links, predicates, trap registers, elements, special registers. -/
theorem test_wf_operands : ∀ i ∈ [Instr.nop (V 1 0 0 0 .b32), .add (V 3 4 6 0 .n64), .add (V 2 4 64 0 .n32 0 true), .brx (V 0 64 0 0 .b32), .ret (V 0 148 0 0 .b32),
    .compact (V 2 4 6 64 .n32), .rdlane (V 2 4 7 0 .b32), .rdlane (V 64 4 7 0 .b32 0 true), .callx (V 0 4 0 0 .b32), .callx (V 64 4 0 0 .b32), .cmp (V 8 4 6 0 .n32),
    .wrsr (V 3 4 0 0 .b32), .cvt (V 2 4 2 0 .n32 6), .rdsr (V 2 0 148 0 .b32 0 true), .rdsr { V 2 0 128 0 .b32 with u := true }, .add { V 64 4 6 0 .n32 with u := true },
    .mov { V 2 0 128 0 .b32 with u := true }, .mma (V 64 64 128 0 .f16)], i.wf = false := by decide +kernel

/-- Forms M, L and B. -/
theorem test_wf_forms : ∀ i ∈ [Instr.ld (M 6 2 3 0 .dev .rel 0), .st (M 6 2 3 0 .dev .acq 0), .ldx4 (M 6 3 3 0 .dev .rlx 0), .stx4 (M 6 2 3 0 .dev .acq 0), .lds (M 6 2 3 0 .dev .rlx 0),
    .sts (M 6 2 3 0 .blk .rlx 1), .ldsx4 (M 6 1 3 0 .blk .rlx 0), .stsx4 (M 6 2 3 0 .blk .acq 0), .prf (M 6 2 3 0 .blk .rlx 0), .fence (M 0 0 0 0 .dev .rlx 0), .renew (M 0 2 3 0 .blk .rlx 0),
    .nmr (M 6 1 3 0 .dev .rlx 0), .nmr (M 6 3 3 0 .dev .rlx 1), .atomAdd (M 6 2 3 0 .dev .rlx 1), .atomFadd (M 6 3 3 0 .dev .rlx 0), .redAdd (M 6 2 3 0 .dev .rlx 0), .redFmin (M 6 3 3 0 .dev .rlx 1),
    .ld (M 7 3 3 0 .dev .rlx 0), .ld { M 6 2 3 0 .dev .rlx 0 with b := 1 }, .bra (B 1 2), .brd (B 8 2), .call (B 0 2), .call (B 64 2), .join (B 2 1), .join { B 2 0 with g := ⟨1, false⟩ },
    .nap (L 1 9), .trap { L 0 9 with u := true }, .rgrow (L 1 2), .rshrink (L 1 2), .gate (L 0 3), .gate (L 9 256), .movi { L 5 1 with x := 1 }], i.wf = false := by decide +kernel

/-- Compact words and stream commands. -/
theorem test_wf_devices : ∀ i ∈ [Instr.seqJmp ⟨1, 0, 0⟩, .seqScmd ⟨3, 0, 0⟩, .seqScmd ⟨4, 1, 0⟩, .seqSwait ⟨3, 1, 2⟩, .seqSsig ⟨0, 1, 8⟩, .seqSfault ⟨1, 1, 0⟩,
    .slin ⟨64, 0, 0, 0⟩, .slin ⟨5, 4, 0, 0⟩, .sidx ⟨5, 0, 0, 8⟩, .sconst ⟨5, 0, 0, 1⟩, .swrite ⟨5, 0x2000, 0, 0⟩, .sred ⟨5, 0, 0, 0⟩, .sred ⟨5, 0xB0, 0, 0x400⟩, .seos ⟨5, 0, 0, 1⟩, .scfg ⟨5, 0, 0, 3⟩,
    .sdrain ⟨5, 1, 0, 0⟩, .sbar ⟨5, 0, 0, 16⟩, .sland ⟨5, 0, 0, 0x200⟩, .sgath ⟨5, 1, 0, 0⟩, .spage ⟨5, 0, 0, 0xC0⟩], i.wf = false := by decide +kernel

/-- Words that are no instruction: a reserved major, fn, type, scope and order, a flag beside an immediate, an op6 and a cmd. -/
theorem test_decode_refuses : (decodeCore 0x0000000000000000).isOk = false ∧ (decodeCore 0x2400000000000000).isOk = false ∧ (decodeCore 0x0270000000000000).isOk = false ∧
    (decodeCore 0x0400008101803400).isOk = false ∧ (decodeCore 0x1000018CC0005200).isOk = false ∧ (decodeCore 0x1000018CC0005150).isOk = false ∧ (decodeCore 0x0400008100000850).isOk = false ∧
    (decodeCompact 0x64000000).isOk = false ∧ (decodeStream (13#8 ++ 0#120)).isOk = false := by decide +kernel

/-! ### Witnesses: states and operands that meet the hypotheses of the statements. -/

def all32 : LaneMask := BitVec.allOnes 32
def sd : Strand := { pc := 0x1000, mask := all32 }
def gr : Group := { block := 7, launch := 9, groupid := 0, domain := 0, nregs := 256, live := all32, strands := [(0, sd)] }
def bk : Block := { launch := 9, number := 0, cohort := 0, core := 0, x := 0, y := 0, z := 0, groups := 1, scratchKiB := 4, catalogueKiB := 2 }
/-- A started device with one core; domain 0 has a page at 0x10000 and a page with N at 0x20000, each at its own address. -/
def dev : State := { State.reset with boot := .stage2, cores := [(0, { service := true })], blocks := [(7, bk)], domains := [(0, { state := .active })], mem := { tlb := [(1, ⟨0x1001F, 4⟩), (2, ⟨0x2002F, 4⟩)] }, keep := { owners := [(1, 0), (2, 0)] } }
/-- The device with one group, whose strand 0 issues. -/
def on (g : Group) : State := { dev with agent := .strand ⟨0, 0, 0⟩, groups := [(0, g)] }
/-- What that strand reads. -/
def cx (s : State) (g : Group) (st : Strand := sd) : Ctx := { s := s, r := ⟨0, 0, 0⟩, key := 0, g := g, st := st, free := s.fresh }
/-- The instruction is accepted and may issue in the group. -/
def may (g : Group) (i : Instr) : Bool := i.accepted && i.vregs.all (fun v => decide (v < g.nregs)) && !g.refuses i && !g.pendingOn i

theorem runs_all (s : State) (g : Group) (st : Strand) (is : List Instr) (ha : s.agent = .strand ⟨0, 0, 0⟩) (hs : s.strandAt ⟨0, 0, 0⟩ = some (g, st))
    (ho : g.owned.isEmpty = true) (h : is.all (may g) = true) : ∀ i ∈ is, Runs i s (cx s g st) := by
  intro i hi
  have := List.all_eq_true.1 h i hi
  simp only [may, Bool.and_eq_true, Bool.not_eq_true', List.all_eq_true, decide_eq_true_eq] at this
  exact ⟨ha, hs, this.1.1.1, this.1.1.2, this.1.2, this.2, by simp [cx, ho, gkey]⟩

theorem runs_one (s : State) (g : Group) (st : Strand) (i : Instr) (ha : s.agent = .strand ⟨0, 0, 0⟩) (hs : s.strandAt ⟨0, 0, 0⟩ = some (g, st))
    (ho : g.owned.isEmpty = true) (h : may g i = true) : Runs i s (cx s g st) :=
  runs_all s g st [i] ha hs ho (by simp [h]) i (by simp)

theorem witness_IntegerArithmetic : ∀ i ∈ [Instr.add (V 5 5 2 0 .i32), .sub (V 2 4 6 0 .n32), .mul (V 2 4 6 0 .n32), .mulhi (V 2 4 6 0 .n32), .mad (V 2 4 6 8 .n32), .min_ (V 2 4 6 0 .n32), .max_ (V 2 4 6 0 .n32), .abs_ (V 2 4 0 0 .i32), .neg (V 2 4 0 0 .n32), .madw (V 2 4 6 8 .n32), .lea (V 2 4 6 0 .n32), .add { V 2 4 6 0 .n64 with u := true }, .lea (V 2 4 6 0 .n32 15)], Runs i (on gr) (cx (on gr) gr) := runs_all _ _ _ _ rfl rfl rfl (by decide +kernel)
theorem witness_BitResults : ∀ i ∈ [Instr.and_ (V 2 4 6 0 .n32), .or_ (V 2 4 6 0 .n32), .xor_ (V 2 4 6 0 .n32), .andn (V 2 4 6 0 .n32), .not_ (V 2 4 0 0 .n32), .brev (V 2 4 0 0 .n32), .popc (V 2 4 0 0 .n32), .clz (V 2 4 0 0 .n32), .ctz (V 2 4 0 0 .n32), .sel (V 2 4 6 3 .n32), .perm (V 2 4 6 8 .b32), .sel (V 2 4 6 0 .n64)], Runs i (on gr) (cx (on gr) gr) := runs_all _ _ _ _ rfl rfl rfl (by decide +kernel)
theorem witness_ShiftResults : ∀ i ∈ [Instr.shl (V 2 4 6 0 .n32), .shr (V 2 4 6 0 .n32), .sar (V 2 4 6 0 .n32), .rotl (V 2 4 6 0 .n32), .bfx (V 2 4 6 0 .n32), .bfi (V 2 4 6 8 .n32), .shl { V 2 4 0 0 .n32 with tail := .imm 32 }], Runs i (on gr) (cx (on gr) gr) := runs_all _ _ _ _ rfl rfl rfl (by decide +kernel)
theorem witness_ComparesAndCarries : ∀ i ∈ [Instr.cmp { V 1 4 0 0 .n32 2 with a := 2, tail := .imm 10 }, .fcmp (V 2 4 6 0 .f32), .addc (V 2 4 6 3 .n32), .subc (V 2 4 6 3 .n32), .cmp (V 0 4 6 0 .n32 5), .addc { V 2 4 6 0 .n32 with u := true }], Runs i (on gr) (cx (on gr) gr) := runs_all _ _ _ _ rfl rfl rfl (by decide +kernel)
theorem witness_Moves : ∀ i ∈ [Instr.mov (V 2 0 6 0 .n64), .movi (L 5 200), .bcast (V 2 4 0 0 .n64), .rdlane (V 2 4 7 0 .n64 0 true), .wrlane (V 2 4 7 0 .n64 0 true), .movi { L 2 9 with u := true, x := 2 }, .movi { L 0 9 with u := true, x := 0 }], Runs i (on gr) (cx (on gr) gr) := runs_all _ _ _ _ rfl rfl rfl (by decide +kernel)
theorem witness_SpecialAndTrapRegisters : ∀ i ∈ [Instr.rdsr (V 2 0 128 0 .b32 0 true), .wrsr (V 2 4 0 0 .b32), .wrsr (V 0 4 0 0 .b32), .wrsr (V 1 4 0 0 .b32), .wrsr (V 2 4 0 0 .b32), .rdsr { V 2 0 2 0 .b32 1 with u := true }, .wrsr { V 2 4 0 0 .b32 with u := true }], Runs i (on gr) (cx (on gr) gr) := runs_all _ _ _ _ rfl rfl rfl (by decide +kernel)
theorem witness_VotesAndPredicates : ∀ i ∈ [Instr.voteAny (V 2 4 0 0 .b32), .voteAll (V 2 4 0 0 .b32), .pand (V 2 4 6 0 .b32), .por (V 2 4 6 0 .b32), .pxor (V 2 4 6 0 .b32), .pnot (V 2 4 0 0 .b32), .ppopc (V 2 4 0 0 .b32), .ballot (V 2 4 0 0 .b32), .pand (V 0 1 1 0 .b32 3)], Runs i (on gr) (cx (on gr) gr) := runs_all _ _ _ _ rfl rfl rfl (by decide +kernel)
theorem witness_Shuffles : ∀ i ∈ [Instr.shflIdx (V 2 4 6 0 .n32), .shflUp (V 2 4 6 0 .n32), .shflDown (V 2 4 6 0 .n32), .shflXor (V 2 4 6 0 .n32), .qswapH (V 2 4 0 0 .n32), .qswapV (V 2 4 0 0 .n32), .qswapD (V 2 4 0 0 .n32), .qbcast (V 2 4 6 0 .n32)], Runs i (on gr) (cx (on gr) gr) := runs_all _ _ _ _ rfl rfl rfl (by decide +kernel)
theorem witness_Reductions : ∀ i ∈ [Instr.redxAdd (V 2 4 0 0 .n32), .redxMin (V 2 4 0 0 .n32), .redxMax (V 2 4 0 0 .n32), .scanxAdd (V 2 4 0 0 .n32), .redxAdd (V 2 4 0 0 .f32), .scanxAdd (V 2 4 0 0 .n64 1)], Runs i (on gr) (cx (on gr) gr) := runs_all _ _ _ _ rfl rfl rfl (by decide +kernel)
theorem witness_CompactAndExpand : ∀ i ∈ [Instr.compact (V 2 4 6 8 .n32), .expand (V 2 4 6 0 .n32), .compact (V 2 4 6 8 .f32 1)], Runs i (on gr) (cx (on gr) gr) := runs_all _ _ _ _ rfl rfl rfl (by decide +kernel)
theorem witness_FloatResults : ∀ i ∈ [Instr.fadd (V 2 4 6 0 .f32), .fsub (V 2 4 6 0 .f32), .fmul (V 2 4 6 0 .f32), .ffma (V 2 4 6 8 .f32), .fmin (V 2 4 6 0 .f32), .fmax (V 2 4 6 0 .f32), .fminm (V 2 4 6 0 .f32), .fabs (V 2 4 0 0 .f32), .fneg (V 2 4 0 0 .f32), .fclass (V 2 4 0 0 .f32), .frcp (V 2 4 0 0 .f32), .fsqrt (V 2 4 0 0 .f32), .frsq (V 2 4 0 0 .f32), .fexp2 (V 2 4 0 0 .f32), .flog2 (V 2 4 0 0 .f32), .fsin (V 2 4 0 0 .f32), .fcos (V 2 4 0 0 .f32)], Runs i (on gr) (cx (on gr) gr) := runs_all _ _ _ _ rfl rfl rfl (by decide +kernel)
theorem witness_PackedResults : ∀ i ∈ [Instr.hadd2 (V 2 4 6 0 .f16), .hmul2 (V 2 4 6 0 .f16), .hfma2 (V 2 4 6 8 .f16), .hmin2 (V 2 4 6 0 .f16), .hmax2 (V 2 4 6 0 .f16), .hdot2 (V 2 4 6 8 .f16), .hadd2 (V 2 4 6 0 .bf16)], Runs i (on gr) (cx (on gr) gr) := runs_all _ _ _ _ rfl rfl rfl (by decide +kernel)
theorem witness_Conversions : ∀ i ∈ [Instr.cvt (V 2 4 0 0 .n32 1 false), .cvtpk (V 2 4 6 0 .f16), .cvtsr (V 2 4 7 1 .f16 5 true), .qscale (V 2 4 0 0 .e4m3), .cvt (V 2 4 0 3 .e4m3 8), .cvt (V 2 4 0 0 .f32 8)], Runs i (on gr) (cx (on gr) gr) := runs_all _ _ _ _ rfl rfl rfl (by decide +kernel)
theorem witness_StrandWideControl : ∀ i ∈ [Instr.nop (V 0 0 0 0 .b32), .yield (V 0 0 0 0 .b32), .bra (B 0 2), .call (B 7 5), .brx (V 0 4 0 0 .b32), .callx (V 2 4 0 0 .b32), .ret (V 0 4 0 0 .b32), .nap (L 0 9), .nap (L 0 0), .bra { B 0 2 with g := ⟨0, true⟩ }], Runs i (on gr) (cx (on gr) gr) := runs_all _ _ _ _ rfl rfl rfl (by decide +kernel)

/-- An access instruction may run. -/
def macc (s : State) (g : Group) (i : Instr) (p : Path) (o : Order) (sc : Scope) : Bool :=
  may g i && g.hold.isNone && !g.full p && s.fenceReady g (Order.relBefore o) (Order.acqBefore o) sc
theorem accesses_one (s : State) (g : Group) (i : Instr) (p : Path) (o : Order) (sc : Scope) (ha : s.agent = .strand ⟨0, 0, 0⟩)
    (hs : s.strandAt ⟨0, 0, 0⟩ = some (g, sd)) (ho : g.owned.isEmpty = true) (h : macc s g i p o sc = true) : Accesses i s (cx s g) p o sc := by
  simp only [macc, Bool.and_eq_true, Bool.not_eq_true', Option.isNone_iff_eq_none] at h
  exact ⟨runs_one s g sd i ha hs ho h.1.1.1, h.1.1.2, h.1.2, h.2⟩

/-- Control: a trap handler, targets that are aligned and not, and a trapret that is not. -/
def gt : Group := { gr with trapvec := 0x2000, s := [(4, 4)] }
def st4 : Strand := { sd with trapret := 4 }
def gt4 : Group := { gr with trapvec := 4, strands := [(0, st4)] }
theorem witness_StrandWideControl_traps : Runs (.trap (L 0 9)) (on gt) (cx (on gt) gt) ∧ gt.trapvec ≠ 0 ∧ gt.trapvec &&& 7 = 0 ∧ Runs (.tret (V 0 0 0 0 .b32)) (on gr) (cx (on gr) gr) ∧
    sd.trapret &&& 7 = 0 ∧ (cx (on gr) gr).selWide 4 &&& 7 = 0 ∧ (cx (on gr) gr).wide ⟨0, false⟩ = true ∧ (cx (on gr) gr).wide ⟨0, true⟩ = false :=
  ⟨runs_one _ _ _ _ rfl rfl rfl (by decide +kernel), by decide, by decide, runs_one _ _ _ _ rfl rfl rfl (by decide +kernel), by decide +kernel⟩
theorem witness_ControlFaults : (∀ i ∈ [Instr.brx (V 0 4 0 0 .b32), .callx (V 2 4 0 0 .b32), .ret (V 0 4 0 0 .b32), .brk (V 0 0 0 0 .b32)], Runs i (on gt) (cx (on gt) gt)) ∧ (cx (on gt) gt).selWide 4 &&& 7 ≠ 0 ∧
    (∀ i ∈ [Instr.tret (V 0 0 0 0 .b32), .trap (L 0 9)], Runs i (on gt4) (cx (on gt4) gt4 st4)) ∧ st4.trapret &&& 7 ≠ 0 ∧ gt4.trapvec ≠ 0 ∧ gt4.trapvec &&& 7 ≠ 0 ∧
    Runs (.trap (L 0 9)) (on gr) (cx (on gr) gr) ∧ gr.trapvec = 0 :=
  ⟨runs_all _ _ _ _ rfl rfl rfl (by decide +kernel), by decide +kernel, runs_all _ _ _ _ rfl rfl rfl (by decide +kernel), by decide, by decide, by decide,
   runs_one _ _ _ _ rfl rfl rfl (by decide +kernel), rfl⟩

/-- A branch whose lanes agree, and one that splits them evenly: in continuation mode with a free entry and with none, and in stack mode. -/
def gd : Group := { gr with p := [(1, 0xFFFF)] }
def gd8 : Group := { gd with strands := (List.range 8).map fun e => (e, sd) }
def gds : Group := { gd with stackMode := true }
def split (g : Group) (b : FormB) : LaneMask := let c := cx (on g) g; maskOf fun l => c.lanesOf.getLsbD l && c.g.guardLane b.g l
theorem witness_DivergentBranch : let is := [Instr.brd (B 2 3), .brd { B 2 3 with g := ⟨0, true⟩ }, .brd { B 2 3 with g := ⟨1, false⟩ }]
    (∀ i ∈ is, Runs i (on gd) (cx (on gd) gd)) ∧ (∀ i ∈ is, Runs i (on gd8) (cx (on gd8) gd8)) ∧ (∀ i ∈ is, Runs i (on gds) (cx (on gds) gds)) ∧
    all32 &&& ~~~ split gd (B 2 3) = 0 ∧ split gd { B 2 3 with g := ⟨0, true⟩ } = 0 ∧ split gd { B 2 3 with g := ⟨1, false⟩ } = 0xFFFF ∧ gd.freeEntry = some 1 ∧ gd8.freeEntry = none ∧
    (dev.core 0).docent.length < 4096 ∧ gds.stack.length < 4096 ∧ gd.saveList = [] :=
  ⟨runs_all _ _ _ _ rfl rfl rfl (by decide +kernel), runs_all _ _ _ _ rfl rfl rfl (by decide +kernel), runs_all _ _ _ _ rfl rfl rfl (by decide +kernel), by decide +kernel⟩

def top (second : Bool) : StackEntry := { k := 2, second := second, other := 1, otherPc := 0x2000, all := 3 }
/-- With no free entry and a full queue, with records in the save area, and with a full stack. -/
def gdv : Group := { gd with saveList := [{ pc := 0x2000, mask := 1, cont := none, slot := 0, trapret := 0, trapcode := 0 }] }
theorem witness_DivergentBranch_full : let i := Instr.brd { B 2 3 with g := ⟨1, false⟩ }
    (∃ q : List Record, let s : State := { on gd8 with cores := [(0, { service := true, docent := q })] }; Runs i s (cx s gd8) ∧ gd8.freeEntry = none ∧ (s.core 0).docent = q ∧ 4096 ≤ q.length) ∧
    Runs i (on gdv) (cx (on gdv) gdv) ∧ gdv.saveList ≠ [] ∧ (∃ t : List StackEntry, Runs i (on { gds with stack := t }) (cx (on { gds with stack := t }) { gds with stack := t }) ∧ 4096 ≤ t.length) :=
  ⟨⟨List.replicate 4096 { pc := 0x2000, mask := 1, cont := none, slot := 0, trapret := 0, trapcode := 0 }, runs_one _ _ _ _ rfl rfl rfl (by decide +kernel), by decide +kernel, rfl, by rw [List.length_replicate]⟩,
   runs_one _ _ _ _ rfl rfl rfl (by decide +kernel), by decide, ⟨List.replicate 4096 (top false), runs_one _ _ _ _ rfl rfl rfl rfl, by rw [List.length_replicate]⟩⟩

/-- `join` as a continuation, as a waiter that goes on or waits, and in stack mode with each kind of top entry. -/
def stc : Strand := { sd with cont := some 2 }
def gjc : Group := { gr with strands := [(0, stc)], jc := [(2, 1)] }
def gjw : Group := { gr with jc := [(2, 1)] }
def gjs (t : List StackEntry) : Group := { gr with stackMode := true, stack := t }
theorem witness_Join : Runs (.join (B 2 0)) (on gjc) (cx (on gjc) gjc stc) ∧ stc.cont = some 2 ∧ Runs (.join (B 2 0)) (on gr) (cx (on gr) gr) ∧ Map.get 0 gr.jc 2 = 0 ∧
    Runs (.join (B 2 0)) (on gjw) (cx (on gjw) gjw) ∧ Map.get 0 gjw.jc 2 ≠ 0 ∧
    (∀ t ∈ [[], [top true], [top false]], Runs (.join (B 2 0)) (on (gjs t)) (cx (on (gjs t)) (gjs t))) ∧ Runs (.join (B 3 0)) (on (gjs [top true])) (cx (on (gjs [top true])) (gjs [top true])) :=
  ⟨runs_one _ _ _ _ rfl rfl rfl (by decide +kernel), rfl, runs_one _ _ _ _ rfl rfl rfl (by decide +kernel), by decide, runs_one _ _ _ _ rfl rfl rfl (by decide +kernel), by decide,
   by intro t _; exact runs_one _ _ _ _ rfl rfl rfl rfl, runs_one _ _ _ _ rfl rfl rfl (by decide +kernel)⟩
theorem witness_Join_wakes : let g (w : Wait) : Group := { gr with strands := [(0, { sd with wait := w })] }
    (on (g (.join 2))).strandAt ⟨0, 0, 0⟩ = some (g (.join 2), { sd with wait := .join 2 }) ∧ Map.get 0 (g (.join 2)).jc 2 = 0 ∧
    (on (g (.nap 0))).strandAt ⟨0, 0, 0⟩ = some (g (.nap 0), { sd with wait := .nap 0 }) ∧ 0 ≤ (on (g (.nap 0))).now := by decide +kernel

/-- `exit` of some lanes, of all in each mode. -/
theorem witness_ExitLanes : let f : FormV := { V 0 0 0 0 .b32 with g := ⟨1, false⟩ }
    Runs (.exit_ f) (on gd) (cx (on gd) gd) ∧ (cx (on gd) gd).active f.g ≠ [] ∧ sd.mask &&& (gd.live &&& ~~~(maskOf fun l => decide (l ∈ (cx (on gd) gd).active f.g))) ≠ 0 ∧
    Runs (.exit_ (V 0 0 0 0 .b32)) (on gr) (cx (on gr) gr) ∧ sd.mask &&& (gr.live &&& ~~~(maskOf fun l => decide (l ∈ (cx (on gr) gr).active ⟨0, false⟩))) = 0 ∧
    Runs (.exit_ (V 0 0 0 0 .b32)) (on (gjs [])) (cx (on (gjs [])) (gjs [])) :=
  ⟨runs_one _ _ _ _ rfl rfl rfl (by decide +kernel), by decide +kernel, by decide +kernel, runs_one _ _ _ _ rfl rfl rfl (by decide +kernel), by decide +kernel, runs_one _ _ _ _ rfl rfl rfl (by decide +kernel)⟩
/-- In stack mode: the strand's lanes leave with the other side, or with lanes of the join, still live. -/
def gxs (second : Bool) : Group := { gjs [top second] with strands := [(0, { sd with mask := 0xFF00 })] }
theorem witness_ExitLanes_stack : ∀ b ∈ [false, true], let g := gxs b
    let c := cx (on g) g { sd with mask := 0xFF00 }
    Runs (.exit_ (V 0 0 0 0 .b32)) (on g) c ∧ (let live := g.live &&& ~~~(maskOf fun l => decide (l ∈ c.active ⟨0, false⟩)); c.st.mask &&& live = 0 ∧ (top b).second = b ∧ (top b).other &&& live ≠ 0 ∧ (top b).all &&& live ≠ 0) := by
  intro b hb
  refine ⟨runs_one _ _ _ _ rfl rfl rfl (by cases b <;> decide +kernel), by cases b <;> decide +kernel⟩

/-- A word that is not accepted, one that names v16 of a group with 16 registers, one that its gate frame refuses, and one whose register has a load outstanding. -/
def fr1 : Frame := { v := [], s := [(9, 5)], p := [], jc := [], pending := [], strands := [(0, sd)], records := [], saveList := [], stack := [], trapvec := 0, layouts := [], live := all32, rclk := 0, wclk := 0, caller := 0, callee := 1, entry := 3, strand := 0, mask := all32, pc := 0x1008, d := 9, va := 2, sa := 2, vr := 1, sr := 1, uniform := false }
def gdeep : Group := { gr with domain := 1, frames := [fr1] }
def op1 : PathOp := { id := 1, path := .gld, left := 1, pc := 0, regs := [4], sreg := none, slot := none, blk := false, store := false }
theorem witness_CoreIssue : (Instr.add (V 2 4 6 0 .f32)).accepted = false ∧ (Instr.add (V 2 4 16 0 .n32)).accepted = true ∧ (Instr.add (V 2 4 16 0 .n32)).vregs = [2, 4, 16] ∧
    gdeep.refuses (.bar (V 0 0 0 0 .b32)) = true ∧ ({ gr with ops := [op1] } : Group).pendingOn (.add (V 2 4 6 0 .n32)) = true ∧
    ({ gr with nregs := 16 } : Group).nregs ≤ 16 ∧ (on gdeep).strandAt ⟨0, 0, 0⟩ = some (gdeep, sd) := by decide +kernel
theorem witness_FaultEntry : (on gdeep).groups.look (gkey 0 0) = some gdeep ∧ gdeep.depth ≠ 0 ∧ (on gr).groups.look (gkey 0 0) = some gr ∧ gr.depth = 0 := by decide +kernel

/-- An address in s3 of a page that the domain may use. -/
def gm : Group := { gr with s := [(3, 0x10000)] }
theorem witness_GlobalLoads : let c := cx (on gm) gm
    (∀ i ∈ [Instr.ld (M 6 2 3 0 .dev .rlx 0), .ldx4 (M 6 2 3 0 .dev .rlx 0)], Accesses i (on gm) c .gld .rlx .dev) ∧ Accesses (.ld (M 6 2 3 0 .sys .sc 1)) (on gm) c .gld .sc .sys ∧
    c.Reaches (M 6 2 3 0 .dev .rlx 0) 4 wantLoad (c.active ⟨0, false⟩) ((List.range 32).map fun l => ⟨l, 0x10000, 0x10000, false⟩) ∧
    c.Reaches (M 6 2 3 0 .dev .rlx 0) 16 wantLoad (c.active ⟨0, false⟩) ((List.range 32).map fun l => ⟨l, 0x10000, 0x10000, false⟩) ∧
    c.s.hits c.key (c.fenced .rlx .dev) 0 1024 0 .dev 15 = none := by
  refine ⟨fun i hi => ?_, accesses_one _ _ _ _ _ _ rfl rfl rfl (by decide +kernel), ⟨by decide +kernel, by decide +kernel⟩, ⟨by decide +kernel, by decide +kernel⟩, by decide +kernel⟩
  exact accesses_one _ _ _ _ _ _ rfl rfl rfl (List.all_eq_true.1 (by decide +kernel : [Instr.ld (M 6 2 3 0 .dev .rlx 0), .ldx4 (M 6 2 3 0 .dev .rlx 0)].all (fun i => macc (on gm) gm i .gld .rlx .dev) = true) i hi)
/-- Lanes on two lines and on an N page: base s3, offsets by lane in v8. -/
def gml : Group := { gm with v := [(32 * 8, 0), (32 * 8 + 1, 16), (32 * 8 + 2, 0x4000)] }
def stl : Strand := { sd with mask := 7 }
def gml' : Group := { gml with strands := [(0, stl)] }
theorem witness_GlobalLoads_lines : let m : FormM := { M 6 2 3 0 .dev .rlx 0 with ix := true, b := 8 }
    let good : List LaneRef := [⟨0, 0x10000, 0x10000, false⟩, ⟨1, 0x10040, 0x10040, false⟩, ⟨2, 0x20000, 0x20000, true⟩]
    let c := cx (on gml') gml' stl
    (∀ i ∈ [Instr.ld m, .st m], Runs i (on gml') c) ∧ gml'.hold = none ∧ gml'.full .gld = false ∧ gml'.full .gst = false ∧ (on gml').fenceReady gml' false false .dev = true ∧ c.Reaches m 4 wantLoad (c.active ⟨0, false⟩) good ∧ c.Reaches m 4 wantStore (c.part ⟨0, false⟩) good ∧
    linesOf (good.filter fun x => !x.n) = [1024, 1025] ∧ linesOf (good.filter fun x => x.n) = [2048] :=
  ⟨runs_all _ _ _ _ rfl rfl rfl (by decide +kernel), rfl, by decide +kernel, by decide +kernel, by decide +kernel, ⟨by decide +kernel, by decide +kernel⟩, ⟨by decide +kernel, by decide +kernel⟩, by decide +kernel, by decide +kernel⟩
/-- A copy of the line in the core's L1 serves the load. -/
theorem witness_GlobalLoads_hit : let s : State := { on gm with mem := { dev.mem with l1 := [(1024, { data := 0, valid := BitVec.allOnes 64, wts := ⟨3, false⟩, rts := ⟨9, false⟩ })] } }
    (s.hits 0 ((cx s gm).fenced .rlx .dev) 0 1024 0 .dev 15).isSome = true ∧ sd.spin < 15 := by decide +kernel
theorem witness_GlobalStores : let c := cx (on gm) gm
    (∀ i ∈ [Instr.st (M 6 2 3 0 .blk .rlx 0), .stx4 (M 6 2 3 0 .blk .rlx 0)], Accesses i (on gm) c .gst .rlx .blk) ∧ Accesses (.st (M 6 2 3 0 .dev .rel 0)) (on gm) c .gst .rel .dev ∧
    c.Reaches (M 6 2 3 0 .blk .rlx 0) 4 wantStore (c.part ⟨0, false⟩) ((List.range 32).map fun l => ⟨l, 0x10000, 0x10000, false⟩) ∧
    c.Reaches (M 6 2 3 0 .blk .rlx 0) 16 wantStore (c.part ⟨0, false⟩) ((List.range 32).map fun l => ⟨l, 0x10000, 0x10000, false⟩) ∧ 0x10030 % 64 + 16 ≤ 64 := by
  refine ⟨fun i hi => ?_, accesses_one _ _ _ _ _ _ rfl rfl rfl (by decide +kernel), ⟨by decide +kernel, by decide +kernel⟩, ⟨by decide +kernel, by decide +kernel⟩, by decide⟩
  exact accesses_one _ _ _ _ _ _ rfl rfl rfl (List.all_eq_true.1 (by decide +kernel : [Instr.st (M 6 2 3 0 .blk .rlx 0), .stx4 (M 6 2 3 0 .blk .rlx 0)].all (fun i => macc (on gm) gm i .gst .rlx .blk) = true) i hi)
/-- The last bytes of a scratchpad of 4 KiB. -/
def gp : Group := { gr with s := [(3, 0xFF0)] }
theorem witness_ScratchpadAccesses : let c := cx (on gp) gp
    (∀ i ∈ [Instr.lds (M 6 2 3 3 .blk .rlx 0), .sts (M 6 2 3 3 .blk .rlx 0), .ldsx4 (M 6 2 3 0 .blk .rlx 0), .stsx4 (M 6 2 3 0 .blk .rlx 0)], Runs i (on gp) c) ∧ gp.hold = none ∧ gp.full .spd = false ∧
    (on gp).fenceReady gp false false .blk = true ∧ (on gp).blocks.look 7 = some bk ∧ (∀ l ∈ c.active ⟨0, false⟩, bk.check (c.ea (M 6 2 3 3 .blk .rlx 0) l) 4 4 l = none ∧ bk.check (c.ea (M 6 2 3 0 .blk .rlx 0) l) 16 16 l = none) :=
  ⟨runs_all _ _ _ _ rfl rfl rfl (by decide +kernel), rfl, by decide +kernel, by decide +kernel, by decide +kernel, by decide +kernel⟩
/-- A load of two lanes and a store of two overlapping lanes, each oldest of its group. -/
def sal : SpadAccess := { op := 1, loads := [(0, 0), (31, 4092)], stores := [], reg := 6, size := 4 }
def sas : SpadAccess := { op := 2, loads := [], stores := [(0, [1, 2, 3, 4]), (2, [5, 6, 7, 8])], reg := 0, size := 4 }
theorem witness_ScratchpadAccesses_performs : ∀ a ∈ [sal, sas], let g : Group := { gr with spads := [a, sal] }
    (on g).groups.look (gkey 0 0) = some g ∧ g.spads = a :: [sal] ∧ g.aborting = [] ∧ (on g).blocks.look 7 = some bk ∧ (a.loads.map (·.1)).Nodup ∧ (∀ x ∈ a.loads, x.1 < 32) := by decide +kernel
theorem witness_AtomicRequests : let c := cx (on gm) gm
    let m := M 6 2 3 0 .clu .rlx 0
    let r := M 6 2 3 0 .clu .ar 1
    (∀ i ∈ [Instr.atomAdd m, .atomMin m, .atomMax m, .atomAnd m, .atomOr m, .atomXor m, .atomXchg m, .atomCas m, .atomFadd m, .atomFmin m, .atomFmax m, .atomBfadd2 m], Accesses i (on gm) c .gld .rlx .clu) ∧
    (∀ i ∈ [Instr.redAdd r, .redMin r, .redMax r, .redAnd r, .redOr r, .redXor r, .redFadd r, .redFmin r, .redFmax r, .redBfadd2 r], Accesses i (on gm) c .gst .ar .clu) ∧
    c.Reaches m 4 wantAtomic (c.part ⟨0, false⟩) ((List.range 32).map fun l => ⟨l, 0x10000, 0x10000, false⟩) := by
  intro c m r
  refine ⟨fun i hi => ?_, fun i hi => ?_, by decide +kernel, by decide +kernel⟩
  · exact accesses_one _ _ _ _ _ _ rfl rfl rfl (List.all_eq_true.1 (by decide +kernel : [Instr.atomAdd m, .atomMin m, .atomMax m, .atomAnd m, .atomOr m, .atomXor m, .atomXchg m, .atomCas m, .atomFadd m, .atomFmin m, .atomFmax m, .atomBfadd2 m].all (fun i => macc (on gm) gm i .gld .rlx .clu) = true) i hi)
  · exact accesses_one _ _ _ _ _ _ rfl rfl rfl (List.all_eq_true.1 (by decide +kernel : [Instr.redAdd r, .redMin r, .redMax r, .redAnd r, .redOr r, .redXor r, .redFadd r, .redFmin r, .redFmax r, .redBfadd2 r].all (fun i => macc (on gm) gm i .gst .ar .clu) = true) i hi)

/-- A request for the line at 0x10000. -/
def rq (k : MsgKind) (st : MsgStage := .toHome) : Msg := { group := 0, core := 0, op := 1, pc := 0x1000, entry := 0, line := 1024, va := 0x10000, scope := .dev, clk := 7, lease := 64, kind := k, stage := st }
/-- The device with one group and that request out. -/
def asks (k : MsgKind) (st : MsgStage := .toHome) : State := { on gm with mem := { dev.mem with msgs := [(5, rq k st)] } }
theorem witness_HomeRules : ∀ k ∈ [MsgKind.renew [⟨0, 6, 0, 4, 0x10000⟩] true true, .store 15 0x1234 false, .atomic 3 60 4 .add 1 0 (some 6) .rlx, .arrive 32 1 9],
    (asks k).mem.msgs.look 5 = some (rq k) ∧ (asks k).turnAtHome 5 (rq k) = true ∧ (asks k).needsOwner (rq k) = false ∧ (asks k).lineBad 1024 = false := by decide +kernel
/-- The largest count that does not reach the target, and the one that does. -/
theorem witness_AtomicOperators : (2 ^ 64 - 1 : Nat) < 2 ^ 64 ∧ arriveRecord (6 + 2 ^ 64 * 8) 1 = (7 + 2 ^ 64 * 8, 0) ∧ arriveRecord (7 + 2 ^ 64 * 8 + 2 ^ 192 * (2 ^ 32 - 1)) 1 = (2 ^ 64 * 8, 2 ^ 32 - 1) := by decide +kernel
def back_ : MsgStage := .reply ⟨9, false⟩ ⟨2, false⟩ 0x1234 false
theorem witness_Replies : (∀ k ∈ [MsgKind.renew [⟨0, 6, 0, 4, 0x10000⟩, ⟨31, 6, 60, 4, 0x1003C⟩] true true, .store 15 0x1234 false, .atomic 31 60 4 .add 1 0 (some 6) .rlx, .atomic 31 60 4 .add 1 0 none .ar, .arrive 32 1 9],
    (asks k back_).mem.msgs.look 5 = some (rq k back_) ∧ (rq k back_).stage = .reply ⟨9, false⟩ ⟨2, false⟩ 0x1234 false ∧ (asks k back_).groups.look 0 = some gm ∧ (asks k back_).l1View (keyCore 0) 1024 = none ∧ gm.aborting = [] ∧ (0 : Nat) ≠ deviceKey ∧
    (asks k back_).replyTurn 5 (rq k back_) ((asks k back_).cur ⟨9, false⟩) = true) ∧
    ([⟨0, 6, 0, 4, 0x10000⟩, ⟨31, 6, 60, 4, 0x1003C⟩].map LaneLoad.lane).Nodup := by decide +kernel
/-- The core holds a copy of the line: one that the answer renews, one that is ahead of it, and one that the acknowledged store has
been written into. -/
def asc (w : Nat) : State := { asks (.store 15 0x1234 false) back_ with mem := { (asks (.store 15 0x1234 false) back_).mem with l1 := [(1024, { data := 7, valid := BitVec.allOnes 64, wts := ⟨BitVec.ofNat 40 w, false⟩, rts := ⟨20, false⟩, pend := [(5, 15, 0x1234)] })] } }
theorem witness_Replies_copy : (∀ w ∈ [2, 12], ((asc w).l1View (keyCore 0) 1024).map (fun v => v.wts.toNat) = some w ∧ ((asc w).l1View (keyCore 0) 1024).map (fun v => v.pend.map (·.1)) = some [5] ∧ (asc w).replyTurn 5 (rq (.store 15 0x1234 false) back_) 9 = true) ∧
    ((asc 2).cur ⟨9, false⟩).toNat = 9 ∧ ((asc 2).cur ⟨2, false⟩).toNat = 2 := by decide +kernel
theorem witness_FencesAndWaits : let c := cx (on gm) gm
    (∀ i ∈ [Instr.fence (M 0 0 0 0 .dev .rel 0), .fence (M 0 0 0 0 .blk .acq 0), .fence (M 0 0 0 0 .sys .ar 0), .wait (V 0 0 6 0 .b32), .rdclk (V 2 0 0 0 .b32), .rdclk (V 2 0 0 0 .b32 1), .renew (M 0 2 3 0 .clu .rlx 0), .prf (M 0 2 3 0 .blk .rlx 0)], Runs i (on gm) c) ∧
    gm.hold = none ∧ c.wide ⟨0, false⟩ = true ∧ c.s.fenceReady gm true true .sys = true ∧ gm.count (pathOf 0) ≤ (c.selWide 6).toNat ∧ gm.full .gld = false ∧
    c.Reaches (M 0 2 3 0 .clu .rlx 0) 4 wantLoad (c.active ⟨0, false⟩) ((List.range 32).map fun l => ⟨l, 0x10000, 0x10000, false⟩) :=
  ⟨runs_all _ _ _ _ rfl rfl rfl (by decide +kernel), rfl, by decide +kernel, by decide +kernel, by decide +kernel, by decide +kernel, by decide +kernel, by decide +kernel⟩
theorem witness_BlockBarrier : let c := cx (on gr) gr
    Runs (.bar (V 0 0 0 0 .b32)) (on gr) c ∧ Runs (.bar (V 0 0 0 0 .b32 3)) (on gr) c ∧ gr.hold = none ∧ c.active ⟨0, false⟩ ≠ [] ∧ (on gr).groups = [(c.key, c.g)] ∧ gr.strands = [(0, sd)] ∧
    (maskOf (fun l => decide (l ∈ c.active ⟨0, false⟩)) == c.lanesOf) = true ∧ gr.live &&& ~~~sd.mask = 0 ∧ (on gr).hasSpilled 7 = false ∧ gr.quietBlk = true ∧ gr.live ≠ 0 :=
  ⟨runs_one _ _ _ _ rfl rfl rfl (by decide +kernel), runs_one _ _ _ _ rfl rfl rfl (by decide +kernel), rfl, by decide +kernel, rfl, rfl, by decide +kernel⟩
/-- Two groups of the block: the other still runs, waits at the barrier, or waits with a store outstanding. -/
def gat : Group := { gr with strands := [(0, { sd with wait := .bar 0 true })] }
def two_ (h : Group) : State := { on gr with groups := [(0, gr), (1, h)] }
theorem witness_BlockBarrier_groups : (∀ h ∈ [gr, gat], Runs (.bar (V 0 0 0 0 .b32)) (two_ h) (cx (two_ h) gr)) ∧ (∃ e ∈ (two_ gr).groupsOf 7, e.1 ≠ 0 ∧ e.2.live ≠ 0 ∧ ¬ ∃ x ∈ e.2.strands, x.2.wait = .bar 0 true) ∧
    (two_ gat).hasSpilled 7 = false ∧ (∀ e ∈ ((two_ gat).setGroup 0 { gr with strands := gr.strands.put 0 { sd with spin := 0, wait := .bar 0 true } }).groupsOf 7, e.2.live ≠ 0 ∧ e.2.quietBlk = true ∧ ∀ l, l < 32 → ∃ x ∈ e.2.strands, x.2.wait = .bar 0 true ∧ x.2.mask.getLsbD l = true) := by
  refine ⟨fun h hh => runs_one _ _ _ _ rfl rfl rfl (by decide +kernel), by decide +kernel, by decide +kernel, by decide +kernel⟩
def gb : Group := { gr with s := [(4, 0x10020), (6, 1)] }
theorem witness_BarrierRecords : let c := cx (on gb) gb
    Accesses (.arrive (V 2 4 6 0 .b32 1)) (on gb) c .gst .rel .clu ∧ Runs (.bwait (V 2 4 6 0 .b32 1)) (on gb) c ∧ gb.hold = none ∧ c.wide ⟨0, false⟩ = true ∧ (c.selWide 4).toNat % 32 = 0 ∧
    scopeOf 1 = .clu ∧ c.s.trans 0 (c.selWide 4) wantAtomic = .ok 0x10020 false ∧ c.s.trans 0 (c.selWide 4) wantPoll = .ok 0x10020 false :=
  ⟨accesses_one _ _ _ _ _ _ rfl rfl rfl (by decide +kernel), runs_one _ _ _ _ rfl rfl rfl (by decide +kernel), rfl, by decide +kernel, by decide +kernel, by decide +kernel, by decide +kernel, by decide +kernel⟩
def bw5 : Wait := .bwait 5 0x10020 0 .clu 2
theorem witness_BarrierRecords_rereads : let g : Group := { gr with strands := [(0, { sd with wait := bw5 })] }
    (on g).strandAt ⟨0, 0, 0⟩ = some (g, { sd with wait := bw5 }) ∧ (on g).mem.msgs.look 5 = none ∧ g.suspends = [] ∧ (on g).trans 0 0x10020 wantPoll = .ok 0x10020 false := by decide +kernel
theorem witness_BarrierRecords_guard : let f : FormV := { V 2 4 6 0 .b32 1 with g := ⟨0, true⟩ }
    Runs (.arrive f) (on gb) (cx (on gb) gb) ∧ Runs (.bwait f) (on gb) (cx (on gb) gb) ∧ (cx (on gb) gb).wide f.g = false :=
  ⟨runs_one _ _ _ _ rfl rfl rfl (by decide +kernel), runs_one _ _ _ _ rfl rfl rfl (by decide +kernel), by decide +kernel⟩

/-- Courier: destination s2, source s4, length s6, rank, mask or layout slot s8; the destination of a copy to memory is a page. -/
def gcs (dst : Dword) (x : Dword) : Group := { gr with s := [(2, dst), (4, 0), (6, if x == 0x10001 then 0x0000000100010010 else 512), (8, x % 16)], layouts := [(1, { fmt := .n32, rank := 2, swizzle := false, chunk := 512, stride1 := 256, stride2 := 0, stride3 := 0 })] }
theorem witness_CourierSends : (∀ i ∈ [Instr.sendPeer (V 2 4 6 8 .b32 1), .sendm (V 2 4 6 8 .b32)], Runs i (on (gcs 512 (if i = .sendm (V 2 4 6 8 .b32) then 1 else 0))) (cx (on (gcs 512 (if i = .sendm (V 2 4 6 8 .b32) then 1 else 0))) (gcs 512 (if i = .sendm (V 2 4 6 8 .b32) then 1 else 0)))) ∧
    (let s := on (gcs 512 0)
     (gcs 512 0).hold = none ∧ (cx s (gcs 512 0)).wide ⟨0, false⟩ = true ∧ s.blocks.look 7 = some bk ∧ (gcs 512 0).full .snd = false ∧ s.copiesOn 0 < 128 ∧
     s.rankPlace bk 0 = some (some (7, bk)) ∧ [0].map (s.rankPlace bk) = [some (7, bk)].map some ∧ bk.placeOk (some (7, bk)) 512 512 = true ∧ (512 : Dword).toNat % 16 = 0 ∧ bk.courierOk 0 512 = true ∧ bk.courierOk 512 512 = true) ∧
    (let s := on (gcs 0x10000 0)
     Runs (.sendGlb (V 2 4 6 8 .b32)) s (cx s (gcs 0x10000 0)) ∧ (s.pieces 0 ((List.range 32).map fun j => { va := 0x10000 + BitVec.ofNat 64 (16 * j), src := (List.range 16).map fun k => 16 * j + k })).2.2 = none) := by
  refine ⟨fun i hi => ?_, by decide +kernel, runs_one _ _ _ _ rfl rfl rfl (by decide +kernel), by decide +kernel⟩
  rcases List.mem_cons.1 hi with rfl | hi
  · exact runs_one _ _ _ _ rfl rfl rfl (by decide +kernel)
  · rcases List.mem_singleton.1 hi with rfl
    exact runs_one _ _ _ _ rfl rfl rfl (by decide +kernel)
/-- Sends of no bytes, and one whose length is no multiple of 16. -/
def gc0 (n : Dword) : Group := { gr with s := [(2, 512), (4, 0), (6, n), (8, 0)], layouts := [(0, { fmt := .n32, rank := 2, swizzle := false, chunk := 512, stride1 := 256, stride2 := 0, stride3 := 0 })] }
theorem witness_CourierSends_none : (∀ n ∈ [(0 : Dword), 8], ∀ i ∈ [Instr.sendGlb (V 2 4 6 8 .b32), .sendPeer (V 2 4 6 8 .b32 1), .sendm (V 2 4 6 8 .b32), .sendTens (V 2 4 6 8 .b32 2)], Runs i (on (gc0 n)) (cx (on (gc0 n)) (gc0 n))) ∧
    (on (gc0 0)).rankPlace bk 0 ≠ none ∧ ((gc0 0).ops.any fun o => o.slot == some 0) = false ∧ (gc0 0).layouts.look 0 ≠ none ∧ ((cx (on (gc0 0)) (gc0 0)).selWide 6).toNat = 0 ∧ ((cx (on (gc0 8)) (gc0 8)).selWide 6).toNat % 16 ≠ 0 :=
  ⟨fun n hn => by
    rcases List.mem_cons.1 hn with rfl | hn
    · exact runs_all _ _ _ _ rfl rfl rfl (by decide +kernel)
    · rcases List.mem_singleton.1 hn with rfl
      exact runs_all _ _ _ _ rfl rfl rfl (by decide +kernel), by decide +kernel⟩
theorem witness_CourierSends_tensor : let g := gcs 0x10000 0x10001
    let s := on g
    Runs (.sendTens (V 2 4 6 8 .b32 2)) s (cx s g) ∧ g.layouts.look 1 = some { fmt := .n32, rank := 2, swizzle := false, chunk := 512, stride1 := 256, stride2 := 0, stride3 := 0 } ∧ ((cx s g).selWide 8).toNat % 8 = 1 ∧
    ((cx s g).selWide 6).toNat % 2 ^ 16 = 16 ∧ bk.courierOk 0 64 = true ∧ (∀ k, k < 16 → (0x10000#64 + BitVec.ofNat 64 (4 * k)).toNat % 4 = 0) ∧
    (s.pieces 0 ((List.range 16).map fun k => { va := 0x10000 + BitVec.ofNat 64 (4 * k), src := (List.range 4).map fun j => 4 * k + j })).2.2 = none :=
  ⟨runs_one _ _ _ _ rfl rfl rfl (by decide +kernel), by decide +kernel⟩

/-- A copy of 1,024 bytes to a second block of the cohort, whose first chunk lands. -/
def cpy : Copy := { group := 0, op := 3, block := 7, src := 0, bytes := 1024, dests := [some 8, none], dst := 256, carried := 9, landed := [], tainted := [], toGlobal := false }
def two : State := { on gr with blocks := [(7, bk), (8, { bk with number := 1 })], copies := [(2, cpy)] }
theorem witness_CourierLanding : two.copies.look 2 = some cpy ∧ cpy.landed.contains 0 = false ∧ (cpy.dst + cpy.bytes - 1) / 512 + 1 - cpy.dst / 512 = 3 ∧ cpy.dests[0 / 3]? = some (some 8) ∧ cpy.dests[2 / 3]? = some (some 8) ∧ cpy.dests[5 / 3]? = some none ∧ two.spadsBefore 0 3 = true ∧ cpy.tainted = [] ∧ cpy.toGlobal = false ∧
    two.blocks.look 7 = some bk ∧ two.blocks.look 8 = some { bk with number := 1 } ∧ bk.claim = none ∧ (7 : Nat) ≠ 8 := by decide +kernel

/-- A commission of 2 constants of 4 bytes to offset 512, its command at offset 0. -/
def cmdw : BitVec 128 := ((encodeStream (.sconst { port := 0, flags := 0, base := 9, pattern := 0x1400 })).getD 0)
def bkc : Block := { bk with spad := (leBytes 16 cmdw.toNat).zipIdx.map fun e => (e.2, e.1) }
def gcm : Group := { gr with s := [(2, 512), (4, 0), (6, 0)] }
def scm : State := { on gcm with blocks := [(7, bkc)] }
def jb : Job := { group := 0, op := 3, block := 7, domain := 0, command := cmdw, dst := 512, selector := 0, pc := 0, pos := 0, maxWts := 0, aside := none, index := [] }
theorem witness_Commissions : let c := cx scm gcm
    Runs (.commission (V 2 4 6 0 .b32)) scm c ∧ gcm.hold = none ∧ c.wide ⟨0, false⟩ = true ∧ scm.blocks.look 7 = some bkc ∧ gcm.full .cms = false ∧ scm.copiesOn 0 < 128 ∧ bkc.courierOk 0 16 = true ∧
    BitVec.ofNat 128 (leValue (bkc.bytes 0 16)) = cmdw ∧ gcm.spads = [] ∧ (0 : Dword).toNat / 2 ^ 9 % 8 = 0 ∧ bkc.courierOk 512 ((Feed.const 9 4 2).bytes 0) = true :=
  ⟨runs_one _ _ _ _ rfl rfl rfl (by decide +kernel), by decide +kernel⟩
theorem witness_Commissions_feed : feedOf cmdw = some (.const 9 4 2) ∧ (∃ x w, (cx scm gcm).s.feedRow { jb with op := scm.nextId + 1, dst := 512 } (.const 9 4 2) = .value x w { jb with op := scm.nextId + 1, dst := 512 }) := ⟨rfl, 0, 0, rfl⟩
theorem witness_Commissions_delivery : let s : State := { scm with jobs := [(5, jb)] }
    s.jobs.look 5 = some jb ∧ jb.aside = none ∧ s.nextElement jb = .bytes (leBytes 4 9) 8 jb ∧ leBytes 4 9 ≠ [] ∧ s.blocks.look 7 = some bkc ∧ bkc.claim = none ∧ bkc.courierOk 512 8 = true ∧ 0 * 4 + 4 < 8 :=
  ⟨by decide +kernel, rfl, rfl, by decide +kernel⟩
/-- The second and last element. -/
theorem witness_Commissions_last : let s : State := { scm with jobs := [(5, { jb with pos := 1 })] }
    s.jobs.look 5 = some { jb with pos := 1 } ∧ s.nextElement { jb with pos := 1 } = .bytes (leBytes 4 9) 8 { jb with pos := 1 } ∧ 1 * 4 + 4 = 8 ∧ s.groups.look 0 = some gcm ∧ gcm.aborting = [] ∧ gcm.ops = [] :=
  ⟨by decide +kernel, rfl, rfl, by decide +kernel⟩
theorem witness_Commissions_resume : let j : Job := { jb with aside := some 4 }
    let s : State := { scm with jobs := [(5, j)] }
    s.jobs.look 5 = some j ∧ ∀ x, s.nextElement j ≠ .fault x := ⟨by decide +kernel, fun _ h => Next.noConfusion (show Next.bytes _ _ _ = Next.fault _ from h)⟩
/-- A commission of rows whose header has been read, and one under a false guard. -/
def cmdr : BitVec 128 := ((encodeStream (.sidx { port := 0, flags := 0, base := 0x10000, pattern := 0x1400 })).getD 0)
theorem witness_Commissions_guard : let f : FormV := { V 2 4 6 0 .b32 with g := ⟨0, true⟩ }
    Runs (.commission f) scm (cx scm gcm) ∧ (cx scm gcm).wide f.g = false :=
  ⟨runs_one _ _ _ _ rfl rfl rfl (by decide +kernel), by decide +kernel⟩
/-- A scratchpad whose first and last chunks have arrived. -/
def bka : Block := { bk with arrival := [(0, true), (7, true)], kept := [(7, 5)] }
def gar (m : Dword) : Group := { gr with s := [(6, m)] }
def sar (m : Dword) : State := { on (gar m) with blocks := [(7, bka)] }
theorem witness_ArrivalMap : (∀ i ∈ [Instr.cbtest (V 2 4 6 0 .b32), .cbwait (V 0 4 6 0 .b32), .cbclr (V 0 4 6 0 .b32)], Runs i (sar 0x81) (cx (sar 0x81) (gar 0x81))) ∧ (gar 0x81).hold = none ∧ (cx (sar 0x81) (gar 0x81)).wide ⟨0, false⟩ = true ∧
    (sar 0x81).blocks.look 7 = some bka ∧ (∀ i, i < 64 → (0x81#64).getLsbD i = true → bka.chunkIn i = true ∧ Map.get false bka.arrival i = true) ∧
    (let s := on { gm with s := [(4, 0x10020)] }
     Runs (.tlayout (V 0 4 0 0 .b32)) s (cx s { gm with s := [(4, 0x10020)] }) ∧ s.trans 0 0x10020 { wantLoad with n := .refuse } = .ok 0x10020 false) :=
  ⟨runs_all _ _ _ _ rfl rfl rfl (by decide +kernel), rfl, by decide +kernel, by decide +kernel, by decide +kernel, runs_one _ _ _ _ rfl rfl rfl (by decide +kernel), by decide +kernel⟩

/-- The descriptor's line in the L1, with a descriptor in it; and the same words under a false guard. -/
def gtl : Group := { gm with s := [(4, 0x10020)] }
def stl_ : State := { on gtl with mem := { dev.mem with l1 := [(1024, { data := 0x09000202#512 <<< 256, valid := BitVec.allOnes 64, wts := ⟨3, false⟩, rts := ⟨9, false⟩ })] } }
theorem witness_ArrivalMap_layouts : let f : FormV := { V 2 4 6 0 .b32 with g := ⟨0, true⟩ }
    (∀ i ∈ [Instr.cbtest f, .cbclr { V 0 4 6 0 .b32 with g := ⟨0, true⟩ }, .cbwait { V 0 4 6 0 .b32 with g := ⟨0, true⟩ }, .tlayout { V 0 4 0 0 .b32 with g := ⟨0, true⟩ }], Runs i (on gtl) (cx (on gtl) gtl)) ∧ (cx (on gtl) gtl).wide f.g = false :=
  ⟨runs_all _ _ _ _ rfl rfl rfl (by decide +kernel), by decide +kernel⟩
theorem witness_ArrivalMap_copy : let c := cx stl_ gtl
    Runs (.tlayout (V 0 4 0 0 .b32)) stl_ c ∧ ((c.s.hits c.key c.g 0 1024 0 .dev (byteMask 32 32)).bind fun v => layoutOf (lineValue v.bytes 32 32)).isSome = true ∧ c.s.hits c.key c.g 0 1024 0 .dev (byteMask 32 32) ≠ none :=
  ⟨runs_one _ _ _ _ rfl rfl rfl (by decide +kernel), by decide +kernel⟩

/-- Rows of 16 bytes of a table at a page, two of them distinct. -/
def gga : Group := { gr with s := [(2, 0), (6, 0x10000), (8, 0x0000801000000010)], v := [(32 * 4 + 1, 1)] }
def gj : GathJob := { group := 0, op := 3, block := 7, domain := 0, dst := 0, rowBytes := 16, elemBytes := 4, rows := [(0x10000, [0, 2]), (0x10010, [1])], pc := 0, entry := 0, maxWts := 0, rclk := 0, lease := 64, pages := [(1, ⟨0x1001F, 4⟩)] }
theorem witness_GatherAndScatter : let c := cx (on gga) gga
    let f := V 2 4 6 8 .b32
    (∀ i ∈ [Instr.gath f, .scat f, .scat (V 2 4 6 8 .b32 2), .gstat (V 2 4 0 0 .b32)], Runs i (on gga) c) ∧ gga.hold = none ∧ gga.spads = [] ∧ (on gga).blocks.look 7 = some bk ∧ gga.full .gld = false ∧ gga.full .gst = false ∧
    c.wide f.g = true ∧ c.placesFault f (geoOf (c.selWide 8)) bk (c.active f.g) = none ∧ c.missingWords f (c.active f.g) = [] ∧ (c.rows f (geoOf (c.selWide 8)) wantGather (c.active f.g)).bad = [] ∧
    (c.rows f (geoOf (c.selWide 8)) wantGather (c.active f.g)).good ≠ [] ∧ (c.rows f (geoOf (c.selWide 8)) wantScatter (c.part f.g)).bad = [] ∧
    (c.rows (V 2 4 6 8 .b32 2) { geoOf (c.selWide 8) with elem := 4 } { wantScatter with r := true, a := true, n := .refuse } (c.part f.g)).bad = [] :=
  ⟨runs_all _ _ _ _ rfl rfl rfl (by decide +kernel), by decide +kernel⟩
/-- Places beyond the scratchpad, of a gather and of a scatter with and without `.fadd`. -/
def ggo : Group := { gga with s := [(2, 0x1000), (6, 0x10000), (8, 0x0000801000000010)] }
theorem witness_GatherAndScatter_places : let c := cx (on ggo) ggo
    (∀ i ∈ [Instr.gath (V 2 4 6 8 .b32), .scat (V 2 4 6 8 .b32), .scat (V 2 4 6 8 .b32 2)], Runs i (on ggo) c) ∧ ggo.spads = [] ∧ ggo.full .gld = false ∧
    (∀ g ∈ [geoOf (c.selWide 8), { geoOf (c.selWide 8) with elem := 4 }], (c.placesFault (V 2 4 6 8 .b32) g bk (c.active ⟨0, false⟩)).isSome = true) :=
  ⟨runs_all _ _ _ _ rfl rfl rfl (by decide +kernel), rfl, by decide +kernel⟩
theorem witness_GatherAndScatter_events : let s : State := { on gga with gaths := [(5, gj)], now := 4000000 }
    s.gaths.look 5 = some gj ∧ (0x10000, [0, 2]) ∈ gj.rows ∧ (gj.rows.map (·.1)).Nodup ∧ s.blocks.look 7 = some bk ∧ 16 / 4 * 4 ≤ roundUp 16 16 ∧
    (∀ i, i < 16 / 4 → pageAt gj.pages (0x10000 + i * 4) = some (0x10000 + 4 * i, false) ∧ s.lineBad 1024 = false ∧ s.refused 1024 false = false ∧ s.lineNow 1024 false ≠ none) ∧ s.mem.freqAt + 4000000 ≤ s.now := by decide +kernel

/-- The Catalogue: an empty claim, and one that holds key 5. -/
def clm : Claim := { base := 512, size := 1536, ring := 0, spills := 0, occ := 0, ov := 0, b := 1, k64 := false, slots := [] }
def bkl (x : Option Claim) : State := { on { gr with s := [(6, 1536), (8, 0)] } with blocks := [(7, { bk with claim := x })] }
def gcl : Group := { gr with s := [(6, 1536), (8, 0)] }
theorem witness_Catalogue : let c := cx (bkl (some clm)) gcl
    (∀ i ∈ [Instr.cins (V 2 4 6 8 .b32), .cprb (V 2 4 0 8 .b32), .cdel (V 2 4 0 8 .b32), .cacc (V 2 4 6 8 .n32), .cacc (V 2 4 6 8 .bf16 4), .cfree (V 0 0 0 0 .b32), .cstat (V 2 0 0 0 .b32 3), .cdrn (V 2 4 6 8 .b32)], Runs i (bkl (some clm)) c) ∧
    gcl.hold = none ∧ gcl.full .spd = false ∧ (∀ e ∈ (bkl (some clm)).groupsOf 7, e.2.spads = []) ∧ (bkl (some clm)).blocks.look 7 = some { bk with claim := some clm } ∧ gcl.spads = [] ∧ clm.k64 = (0#4).getLsbD 0 ∧ gcl.full .gst = false ∧ c.wide ⟨0, false⟩ = true ∧
    (c.selWide 2).toNat % 16 = 0 ∧ (let b : Block := { bk with claim := some { clm with base := 2048 } }; (c.selWide 2).toNat + 16 * min (c.selWide 8).toNat 1024 ≤ b.spadBytes ∧ b.inClaim 0 0 = false) :=
  ⟨runs_all _ _ _ _ rfl rfl rfl (by decide +kernel), by decide +kernel⟩
theorem witness_Catalogue_claims : let c := cx (bkl none) gcl
    Runs (.cclaim (V 2 4 6 8 .b32)) (bkl none) c ∧ (bkl none).blocks.look 7 = some bk ∧ bk.claim = none ∧ (c.selWide 4).toNat % 256 = 0 ∧ (c.selWide 6).toNat = 1536 ∧ 0 + 1536 ≤ bk.spadBytes ∧ 1536 ≤ bk.catalogueKiB * 1024 ∧
    (c.selWide 8).getLsbD 57 = false ∧ (c.selWide 8).toNat / 2 ^ 58 = 0 ∧ gcl.spads = [] ∧ (∀ e ∈ c.s.groupsOf 7, e.2.spads = []) := ⟨runs_one _ _ _ _ rfl rfl rfl (by decide +kernel), by decide +kernel⟩
theorem witness_Catalogue_keys : let r : CatRun := { c := clm }
    (5 : Dword) ≠ 0xFFFFFFFF ∧ (r.lane .ins false 5 6).2.2 = 1 ∧ r.c.find 5 = none ∧ (r.lane (.acc (· + ·)) false 5 6).2.2 = 1 ∧ ((r.lane .ins false 5 6).1.c.find 5).isSome = true ∧ ((r.lane .ins false 5 6).1.lane .ins false 5 7).2.2 ≤ 1 := by decide +kernel

/-- Gate calls: domain 0 has a gate to domain 1. -/
def gte : GateEntry := { entry := 0x8000, callers := 1, stack := 0x7000, target := 0x81, va := 64, sa := 16, vr := 64, sr := 16, flags := 2, reserved := 0 }
def sgt (g : Group) : State := { on g with domains := [(0, { state := .active, gates := [(3, gte)] }), (1, { state := .active, gates := [(4, { gte with target := 0x80 })] })] }
theorem witness_GateCalls : Runs (.gate (L 9 3)) (sgt gr) (cx (sgt gr) gr) ∧ (cx (sgt gr) gr).wide ⟨0, false⟩ = true ∧ ((sgt gr).domain 0).gates.look 3 = some gte ∧ Sys2Proof.Machine.GateEntry.callable gte 0 256 = true ∧ ((sgt gr).domain (gte.target.toNat % 64)).state = .active ∧
    gr.frames.length = 0 ∧ gr.ops = [] ∧ gr.matrixQuiet = true ∧ Runs (.gate (L 9 2)) (sgt gr) (cx (sgt gr) gr) ∧ ((sgt gr).domain 0).gates.look 2 = none :=
  ⟨runs_one _ _ _ _ rfl rfl rfl (by decide +kernel), by decide +kernel, by decide +kernel, by decide +kernel, by decide +kernel, rfl, rfl, by decide +kernel, runs_one _ _ _ _ rfl rfl rfl (by decide +kernel), by decide +kernel⟩
/-- While a load is out the strand waits in `gate`; then its callee is active, or quarantined. -/
def gbusy : Group := { gr with ops := [op1] }
def gww (ops : List PathOp) : Group := { gr with ops := ops, strands := [(0, { sd with wait := .gate gte 3 9 })] }
theorem witness_GateCalls_waits : Runs (.gate (L 9 3)) (sgt gbusy) (cx (sgt gbusy) gbusy) ∧ gbusy.ops ≠ [] ∧ ((sgt gr).domain (gte.target.toNat % 64)).state = .active ∧
    (∀ o ∈ [[], [op1]], (sgt (gww o)).strandAt ⟨0, 0, 0⟩ = some (gww o, { sd with wait := .gate gte 3 9 })) ∧ (gww []).matrixQuiet = true ∧ (gww []).calling = true ∧
    (({ sgt (gww []) with domains := [(0, { state := .active }), (1, { state := .quarantined })] } : State).domain (gte.target.toNat % 64)).state ≠ .active :=
  ⟨runs_one _ _ _ _ rfl rfl rfl (by decide +kernel), by decide +kernel⟩
theorem witness_GateCalls_returns : let c := cx (sgt gdeep) gdeep
    (∀ i ∈ [Instr.gret (V 0 0 0 0 .b32), .gabort (V 0 0 0 0 .b32)], Runs i (sgt gdeep) c) ∧ c.wide ⟨0, false⟩ = true ∧ gdeep.frames = fr1 :: [] ∧ c.othersInCallee = false ∧ Map.rising none gdeep.s = true ∧ Map.rising none gdeep.v = true ∧
    gdeep.count .gld = 0 ∧ gdeep.count .nmp = 0 ∧ fr1.uniform = false := ⟨runs_all _ _ _ _ rfl rfl rfl (by decide +kernel), by decide +kernel⟩
def gsm : Group := { gr with nregs := 32 }
theorem witness_GateCalls_granules : let c := cx (on gsm) gsm
    Runs (.rgrow (L 0 14)) (on gsm) c ∧ c.wide ⟨0, false⟩ = true ∧ gsm.nregs / 16 + 14 ≤ 16 ∧ Map.rising none (on gsm).groups = true ∧ 14 ≤ c.s.freeGranules 0 0 ∧ (∀ e ∈ c.s.inQuad 0 0, e.2.requests = []) ∧
    Runs (.rshrink (L 0 1)) (on gsm) c ∧ 16 * 1 + 16 ≤ gsm.nregs ∧ gsm.ops = [] ∧ gsm.owned = [] ∧ Runs (.rgrow (L 0 15)) (on gsm) c ∧ 16 < gsm.nregs / 16 + 15 :=
  ⟨runs_one _ _ _ _ rfl rfl rfl (by decide +kernel), by decide +kernel, by decide, rfl, by decide +kernel, by decide +kernel, runs_one _ _ _ _ rfl rfl rfl (by decide +kernel), by decide, rfl, rfl, runs_one _ _ _ _ rfl rfl rfl (by decide +kernel), by decide⟩
theorem witness_GateCalls_halts : (∀ i ∈ [Instr.halt (V 0 0 0 0 .b32), .haltAll (V 0 0 0 0 .b32 1)], Runs i (on gr) (cx (on gr) gr)) ∧ (cx (on gr) gr).wide ⟨0, false⟩ = true ∧ gr.ops = [] ∧ gr.frames = [] :=
  ⟨runs_all _ _ _ _ rfl rfl rfl (by decide +kernel), by decide +kernel, rfl, rfl⟩

/-- The matrix engine: four groups of a block, the others in `mrdy` or armed with a word. -/
def mw : MmaWord := { pc := 0, entry := 0, fn := 2, ty := .f16, sat := false, x := 0, d := 64, a := 16, b := 128, c := 0 }
def qg (n : Nat) (g : Group) : Group := { g with groupid := n }
def quad (g h : Group) : State := { dev with agent := .strand ⟨0, 0, 0⟩, groups := [(0, qg 0 g), (1, qg 1 h), (2, qg 2 h), (3, qg 3 h)], blocks := [(7, { bk with groups := 4 })] }
def gwait : Group := { gr with mrdyCount := 1, strands := [(0, { sd with wait := .mrdy 1 0 })] }
def garm : Group := { gr with mrdyCount := 1, armed := true }
theorem witness_Matrix_mrdy : let s := quad gr gwait
    Runs (.mzero (V 64 0 0 0 .b32)) s (cx s (qg 0 gr)) ∧ Runs (.mrdy (V 0 0 0 0 .b32)) s (cx s (qg 0 gr)) ∧ (cx s (qg 0 gr)).wide ⟨0, false⟩ = true ∧ (∀ n k, sd.wait ≠ .mrdy n k) ∧ s.quartetComplete (qg 0 gr) = true ∧ s.mateGone (qg 0 gr) = false ∧ Map.rising none s.groups = true ∧
    s.quartet (qg 0 gr) = some s.groups ∧ (0, qg 0 gr) ∈ s.groups ∧ (∀ e ∈ s.groups, e.1 ≠ 0 → e.2.readyToArm ((qg 0 gr).mrdyCount + 1) = true) ∧ (qg 0 gr).ops = [] ∧ (∀ x ∈ (qg 0 gr).strands, x.2.wait = .ready) ∧ (qg 0 gr).calling = false :=
  ⟨runs_one _ _ _ _ rfl rfl rfl (by decide +kernel), runs_one _ _ _ _ rfl rfl rfl (by decide +kernel), by decide +kernel, (fun _ _ h => Wait.noConfusion h), by decide +kernel⟩
theorem witness_Matrix_words : (∀ h ∈ [garm, { garm with armed := false, words := [mw] }], let s := quad garm h
      s.quartetComplete (qg 0 garm) = true ∧ s.mateGone (qg 0 garm) = false ∧ s.tagBusy 0 0 0 (qg 0 garm) = false ∧ s.quartet (qg 0 garm) = some s.groups ∧ (s.core 0).engine.length < 8 ∧ ∀ o ∈ (s.core 0).engine, o.formed = s.now → o.stamp ≤ garm.stamp) ∧ garm.armed = true ∧ garm.words = [] ∧
    (∃ e ∈ (quad garm garm).groups, e.1 ≠ 0 ∧ e.2.words = []) ∧ mw.agrees { mw with d := 0 } = true ∧
    (∀ i ∈ [Instr.mma (V 64 16 128 0 .f16), .mmaSp (V 64 16 128 8 .f16), .mmx (V 64 16 128 8 .e4m3)], Runs i (quad garm garm) (cx (quad garm garm) (qg 0 garm))) :=
  ⟨by decide +kernel, rfl, rfl, by decide +kernel, by decide +kernel, runs_all _ _ _ _ rfl rfl rfl (by decide +kernel)⟩
def mop (at_ : Option Nat) : MatOp := { id := 4, groups := [0, 1, 2, 3], words := [mw, mw, mw, mw], formed := 3, stamp := 0, started := at_ }
def oc : Owned := { op := some 4, tag := 0, d := 64, a := 16, b := 128, nb := 16, c := 0, nc := 0, tainted := false, cWritten := [], complete := false }
def gown : Group := { gr with owned := [oc] }
theorem witness_Matrix_engine : let s : State := { quad gown gown with now := 70, cores := [(0, { service := true, engine := [mop (some 6)] })] }
    (s.core 0).engine = mop (some 6) :: [] ∧ 6 + 64 ≤ s.now ∧ (mop (some 6)).groups = s.groups.map (·.1) ∧ (s.groups.map (·.1)).Nodup ∧ s.groups.length = (mop none).words.length ∧
    (∀ e ∈ s.groups, s.groups.look e.1 = some e.2 ∧ ∀ x ∈ e.2.owned, x.op = some 4 → x.tainted = false ∧ x.cWritten = [] ∧ x.undef = []) ∧ (mop none).started = none ∧ ({ mw with ty := .i8 } : MmaWord).fn = 2 := by decide +kernel
def gdone : Group := { gr with owned := [{ oc with complete := true }] }
theorem witness_Matrix_returns : (∀ i ∈ [Instr.mwait (V 0 0 0 0 .b32), .mdrain (V 0 0 0 0 .b32)], Runs i (on gdone) { cx (on gdone) gdone with s := { on gdone with fresh := 1 } }) ∧ (∀ o ∈ gdone.owned, o.complete = true) := by
  refine ⟨fun i hi => ?_, by decide⟩
  rcases List.mem_cons.1 hi with rfl | hi
  · exact ⟨rfl, rfl, rfl, by decide +kernel, rfl, rfl, rfl⟩
  · rcases List.mem_singleton.1 hi with rfl
    exact ⟨rfl, rfl, rfl, by decide +kernel, rfl, rfl, rfl⟩

/-- A running region of domain 0 on die 0: endpoints 1 in and 2 out, port 5 and sequencer 2 with a signal channel. -/
def rr : RegionRec := { image := 0, cols := 1, rows := 1, dies := 1, timeout := 0, arg := 0, done := 0, wait := 0, ranges := 0, domain := 0, priority := 0, sys := false, outputs := [] }
def tok (x : Dword) : Token × Nat × Nat := (⟨x, 0, false⟩, 0, 0)
def rgn (b : Option Nat) : Region := { queue := 3, slot := 0, record := rr, start := 0, state := .running, insts := [20], eps := [(1, { kind := 1, die := 0, die2 := 0, credits := 64, bound := b }), (2, { kind := 2, die := 0, die2 := 0, credits := 64, bound := b, buf := { toks := [tok 7, tok 8] } })] }
def ist : Inst := { region := 10, die := 0, section_ := 0, sx := 0, sy := 0, cols := 1, rows := 1, state := .running, routes := [{ kind := 5, number := 2, x := 0, y := 0, vc := 1, branches := [] }] }
def pr : Port := { inst := some 20, extents := [(0, { va := 0x10000, size := 65536, leaf := 0x1001F, level := 4, used := 0 }), (1, { va := 0x20000, size := 65536, leaf := 0x2002F, level := 4, used := 0 })] }
def pro : List Word := [0, 0, 0]
def sq : Seq := { inst := 20, prog := pro, k := [(4, 0x10000)] }
def anx (b : Option Nat) (p : Port) (q : Seq) : Annex := { regions := [(10, rgn b)], insts := [(20, ist)], ports := [(5, p)], seqs := [(2, q)] }
/-- A group of domain 0 beside it; p1 holds in lane 0. -/
def gax (eps : Map EpBinding) (s : Map Dword) : Group := { gr with eps := eps, s := s, p := [(1, 1)], v := [(32 * 7, 0x10000000)] }
def sax (b : Option Nat) (g : Group) : State := { on g with now := 10, annex := anx b pr sq, belfry := { rlaunched := [(0, 0x10000, 3, 0)] } }
def P1 (f : FormV) : FormV := { f with g := ⟨1, false⟩ }

theorem witness_AnnexFromCores_opens : let g := gax [] [(4, 0x10000), (6, 1)]
    let s := sax none g
    Runs (.aopen (V 2 4 6 0 .b32)) s (cx s g) ∧ g.hold = none ∧ (cx s g).wide ⟨0, false⟩ = true ∧ s.regionFrom 0 ((cx s g).selWide 4) = .found 10 ∧ ((cx s g).selWide 6).toNat = 1 ∧ s.annex.regions.look 10 = some (rgn none) ∧
    (rgn none).eps.look 1 = some { kind := 1, die := 0, die2 := 0, credits := 64, bound := none } ∧ ({ kind := 1, die := 0, die2 := 0, credits := 64, bound := none } : Endpoint).ending = false ∧ g.eps.look 0 = none := ⟨runs_one _ _ _ _ rfl rfl rfl (by decide +kernel), by decide +kernel⟩
/-- The sink end, for which d[2] of the selection is set. -/
theorem witness_AnnexFromCores_opensSink : let g := gax [] [(4, 0x10000), (6, 2)]
    let s := sax none g
    Runs (.aopen (V 2 4 6 0 .b32 4)) s (cx s g) ∧ ((cx s g).selWide 6).toNat = 2 ∧ (match (rgn none).eps.look 2 with | some e => e.kind == 2 && e.bound.isNone | none => false) = true :=
  ⟨runs_one _ _ _ _ rfl rfl rfl (by decide +kernel), by decide +kernel⟩
theorem witness_AnnexFromCores_slots : let g := gax [(0, ⟨10, 1, false⟩), (1, ⟨10, 2, true⟩)] []
    let s := sax (some 0) g
    let c := cx s g
    (∀ i ∈ [Instr.asend (P1 (V 0 4 0 0 .n64)), .aacc (P1 (V 0 4 0 0 .n32)), .aclose (V 0 0 0 0 .b32), .arecv (P1 (V 2 0 0 8 .n64 1)), .aclose (V 0 0 0 0 .b32 1)], Runs i s c) ∧ g.eps.look 0 = some ⟨10, 1, false⟩ ∧ g.eps.look 1 = some ⟨10, 2, true⟩ ∧
    s.annex.regions.look 10 = some (rgn (some 0)) ∧ (rgn none).state = .running ∧ c.part ⟨1, false⟩ = [0] ∧ 1 ≤ 64 ∧ (∀ x ∈ [tok 7], x.1.eos = false ∧ x.2.2 ≤ s.fc) ∧ [tok 7, tok 8].take 1 = [tok 7] :=
  ⟨runs_all _ _ _ _ rfl rfl rfl (by decide +kernel), by decide +kernel⟩
def seosw : BitVec 128 := (encodeStream (.seos ⟨5, 0, 0, 0⟩)).getD 0
theorem witness_AnnexFromCores_commands : let g := gax [] [(4, seosw.setWidth 64), (5, (seosw >>> 64).setWidth 64), (6, 0x105)]
    let s := sax none g
    let c := cx s g
    (∀ i ∈ [Instr.acmd (V 0 4 6 0 .b32), .afence (V 0 0 0 0 .b32), .nfence (V 0 0 0 0 .b32)], Runs i s c) ∧ portSelector (c.selWide 6) = some (0, 5) ∧
    acmdAccepts (BitVec.ofNat 128 ((g.sreg 4).toNat + 2 ^ 64 * (g.sreg 5).toNat)) = true ∧ s.portOwner 5 = some 0 ∧ g.fenceReady true false .dev = true ∧ s.annex.ports.look 5 = some pr ∧ pr.queue.length < 16 ∧ g.full .nmp = false ∧
    s.tokensAccepted g = true ∧ g.count .nmp = 0 := ⟨runs_all _ _ _ _ rfl rfl rfl (by decide +kernel), by decide +kernel⟩
theorem witness_AnnexFromCores_near : let g := gax [] [(2, 0x20000), (3, 0x20000), (6, 0x20000), (8, 0x400000004)]
    let s := sax none g
    let c := cx s g
    let f := P1 (V 2 4 6 8 .i32)
    let bytes (l : Nat) : Nat := let b := (c.sel f.c l).toNat / 2 ^ 32 % 2 ^ 12; if b = 0 then 4096 else b
    Accesses (.nmr (M 6 2 3 0 .dev .rlx 0)) s c .nmp .rlx .dev ∧ (s.plan 0 4 wantNear ((c.part ⟨0, false⟩).map fun l => (l, c.ea (M 6 2 3 0 .dev .rlx 0) l))).bad = [] ∧
    Runs (.nidx f) s c ∧ (∀ l ∈ c.part f.g, bytes l = 4 ∧ (s.checkIndex 0 (c.indexCmd f l) (bytes l) l).2 = none ∧ (c.indexCmd f l).rows = some (0x20000, [0x20000])) ∧
    s.trans 0 0x20000 wantNear = .ok 0x20000 true ∧ s.trans 0 0x20000 wantNearRead = .ok 0x20000 true :=
  ⟨accesses_one _ _ _ _ _ _ rfl rfl rfl (by decide +kernel), by decide +kernel, runs_one _ _ _ _ rfl rfl rfl (by decide +kernel), by decide +kernel⟩

/-- A queue of domain 0 with its ring at 0x10200, and records at 0x10000; `d` is the domain that the records name. -/
def que : Queue := { descriptor := 0x10100, domain := 0 }
def glq : Group := { gr with s := [(4, 0x10000), (6, 3)] }
def slq (d : Byte) : State := { on glq with mem := { dev.mem with bytes := (if d = 0 then [] else [(0x10030, d), (0x10038, d)]) ++ [(0x10101, 2), (0x10102, 1)] }, belfry := { queues := [(3, que)] } }
/-- The words of a structure, where `Reads` holds of them. -/
def readsOf (c : Ctx) (va : Dword) (n : Nat) : Option (State × Group × List Dword) :=
  match c.s.loadWords c.key c.g va n with
  | .inl x =>
    if (((c.s.rangeLines c.g.domain va (8 * n) wantLoad).getD []).filter fun x => x.2 || (c.s.hits c.key c.g c.r.core x.1 0 .dev (BitVec.allOnes 64)).isNone).all
        fun x => !c.s.lineBad x.1 && !c.s.refused x.1 x.2 && (c.s.lineNow x.1 x.2).isSome then some x else none
  | .inr _ => none
theorem readsOf_reads (c : Ctx) (va : Dword) (n : Nat) (x : State × Group × List Dword) (h : readsOf c va n = some x) :
    c.Reads va n { c with s := x.1, g := x.2.1 } x.2.2 := by
  unfold readsOf at h
  split at h
  · next y hy =>
    split at h
    · next ha =>
      cases h
      refine ⟨hy, rfl, fun e he => ?_⟩
      have := List.all_eq_true.1 ha e he
      simp only [Bool.and_eq_true, Bool.not_eq_true', Option.isSome_iff_ne_none] at this
      exact ⟨this.1.1, this.1.2, this.2⟩
    · cases h
  · cases h
/-- The record, the write index, the ring and the slot can be read and written, and the ring has room or is full. -/
def launches (s : State) (g : Group) (d : Nat) (room : Bool) : Bool :=
  match readsOf { cx s g with g := (cx s g).fenced .rel .dev } 0x10000 8 with
  | some (s1, _, record) => recordDomain false record == d && recordDomain true record == d && record[5]? == some 0 && !s1.lineBad 1028 && !s1.refused 1028 false && (s1.lineNow 1028 false).isSome &&
    (match s1.trans 0 0x10100 wantStore, s1.trans 0 0x10100 wantLoad with
     | .ok 0x10100 false, .ok _ _ =>
       let s2 := (s1.learn 0 0x10100 wantStore).learn 0 0x10100 wantLoad
       let word (i : Nat) : Nat := s2.engineValue (0x10100 + 8 * i) 8 false
       word 0 == 0x10200 && decide ((word 2 + 2 ^ 64 - word 3) % 2 ^ 64 < 2 ^ (word 1 % 256)) == room &&
         (match s2.trans 0 (BitVec.ofNat 64 (word 0 + 128 * (word 2 % 2 ^ (word 1 % 256)))) wantStore with
          | .ok ps ns => !ns && (s2.lineNow (ps / 64) false).isSome && (s2.lineNow ((ps + 127) / 64) false).isSome && !s2.refused (ps / 64) false && !s2.refused ((ps + 127) / 64) false
          | .bad _ _ => false)
     | _, _ => false)
  | none => false
/-- The queue's ring of one slot is taken. -/
def slf : State := { slq 0 with mem := { dev.mem with bytes := [(0x10101, 2), (0x10102, 1), (0x10110, 1)] } }
theorem witness_LaunchFromCores : (∀ i ∈ [Instr.launch (V 2 4 6 0 .b32), .rlaunch (V 2 4 6 0 .b32)], Runs i (slq 0) (cx (slq 0) glq)) ∧ glq.hold = none ∧ (cx (slq 0) glq).wide ⟨0, false⟩ = true ∧ glq.full .gst = false ∧ glq.fenceReady true false .dev = true ∧
    ((cx (slq 0) glq).selWide 4).toNat % 64 = 0 ∧ ((cx (slq 0) glq).selWide 6).toNat = 3 ∧ (slq 0).belfry.queues.look 3 = some que ∧ que.domain = 0 ∧ que.descriptor ≠ 0 ∧ que.descriptor.toNat % 64 = 0 ∧
    launches (slq 0) glq 0 true = true ∧ launches (slq 1) glq 1 true = true ∧ launches slf glq 0 false = true := ⟨runs_all _ _ _ _ rfl rfl rfl (by decide +kernel), by decide +kernel⟩
/-- A strand in `rlaunch` whose slot is reserved. -/
def orl : PathOp := { id := 1, path := .gst, left := 1, pc := 0x1000, regs := [], sreg := some 2, slot := none, blk := false, store := false }
def wrl : Wait := .rlaunch 1 0x10200 false 0 3 0x10000 [0, 0, 0, 0, 0, 0, 0, 0] []
def grl : Group := { glq with ops := [orl], strands := [(0, { sd with wait := wrl })] }
theorem witness_LaunchFromCores_lands : (on grl).strandAt ⟨0, 0, 0⟩ = some (grl, { sd with wait := wrl }) ∧ grl.aborting = [] ∧ (grl.ops.find? fun o => o.id == 1) = some orl ∧ orl.bad = [] ∧ (∀ x ∈ slotLines 0x10200 false, (on grl).refused x.1 x.2 = false) ∧ (on grl).missing (slotLines 0x10200 false) = [] := by decide +kernel
theorem witness_LaunchFromCores_noQueue : (∀ i ∈ [Instr.launch (V 2 4 6 0 .b32), .rlaunch (V 2 4 6 0 .b32)], Runs i (on glq) (cx (on glq) glq)) ∧ (on glq).belfry.queues.look 3 = none :=
  ⟨runs_all _ _ _ _ rfl rfl rfl (by decide +kernel), by decide +kernel⟩

/-- The sequencer issues. -/
def ssq (q : Seq) : State := { dev with agent := .seq 0 2, now := 10, annex := anx none pr q }
theorem witness_SequencerWords : SeqRuns (ssq sq) 0 2 sq ∧ (4088 : Nat) % 8 = 0 ∧ ((sq.kreg 0) + (4088 : BitVec 16).signExtend 64).toNat = 4088 ∧ ((sq.kreg 0) + (4096 : BitVec 16).signExtend 64).toNat = 4096 ∧
    (0 + (2 : BitVec 16).signExtend 64 <<< 2 : Dword).toNat / 4 < sq.prog.length ∧ ¬ (0 + (3 : BitVec 16).signExtend 64 <<< 2 : Dword).toNat / 4 < sq.prog.length ∧ sq.prog[sq.pc]? = some 0 ∧ undecodable 0 = true :=
  ⟨⟨rfl, by decide +kernel, rfl, ist, by decide +kernel, rfl⟩, by decide +kernel⟩
def sqk : Seq := { sq with k := [(4, seosw.setWidth 64), (5, (seosw >>> 64).setWidth 64)] }
theorem witness_SequencerEffects : SeqRuns (ssq sqk) 0 2 sqk ∧ (ssq sqk).annex.insts.look 20 = some ist ∧ sqk.kreg 5 ++ sqk.kreg 4 = seosw ∧ (∃ x, decodeStream seosw = .ok x) ∧ seosw.toNat / 2 ^ 112 % 256 = 5 ∧ 5 / 2 = 2 ∧ (ssq sqk).annex.ports.look 5 = some pr ∧
    pr.inst = some 20 ∧ pr.queue.length < 16 ∧ 2 * 2 + (1 : BitVec 16).toNat % 2 = 5 ∧ min (sqk.kreg 0).toNat 16 ≤ 16 - pr.queue.length ∧ (∃ r ∈ ist.routes, r.kind = 5 ∧ r.number = 2 ∧ r.vc = 1) ∧
    (Map.get {} sqk.sig 1).accepts 3 (ssq sqk).fc = true ∧ (ssq sqk).faults.undelivered = [] ∧ ((ssq sqk).annex.regions.look 10).isSome = true :=
  ⟨⟨rfl, by decide +kernel, rfl, ist, by decide +kernel, rfl⟩, by decide +kernel, by decide +kernel, ⟨.seos ⟨5, 0, 0, 0⟩, by decide +kernel⟩, by decide +kernel⟩

/-- The stream port issues; the header line of a binding of 2 rows with one contributor is at 0x20000. -/
def spt (p : Port) : State := { dev with agent := .port 0 5, now := 10, annex := anx none p sq, mem := { dev.mem with bytes := [(0x20010, 1)] } }
def pw : Port := { pr with wr := { toks := [tok 7] } }
def ph : Port := { pr with header := some (0x10000, 16, 16), rowIndex := some 0 }
theorem witness_StreamCommands : (∀ p ∈ [pr, pw, ph], PortRuns (spt p) 0 5 p ist (rgn none)) ∧
    ((({ port := 5, flags := 0, base := 0x80, pattern := 0x400 } : StreamCmd).lay []).at 0).toNat = 0x10000 ∧ pr.slotOf 0x10000 = some (0, { va := 0x10000, size := 65536, leaf := 0x1001F, level := 4, used := 0 }) ∧
    (∀ w ∈ [wantStreamRead, wantStreamWrite], (spt pr).permFault 0 0x10000 ⟨0x1001F, 4⟩ w = none) ∧ (spt pr).permFault 0 0x20000 ⟨0x2002F, 4⟩ { wantStreamWrite with r := true, n := .require } = none ∧
    pr.slotOf 0x20000 = some (1, { va := 0x20000, size := 65536, leaf := 0x2002F, level := 4, used := 0 }) ∧ pr.header = none ∧ ({ port := 5, flags := 0, base := 0x80, pattern := 0xC00 } : StreamCmd).size = 4 ∧
    0 < ({ port := 5, flags := 0, base := 0x80, pattern := 0xC00 } : StreamCmd).indexCount * (16 / 4) ∧ 0 < ({ port := 5, flags := 0, base := 0x80, pattern := 0xC00 } : StreamCmd).constCount ∧
    pw.row = none ∧ pw.unpack = [] ∧ pw.wr.head (spt pw).fc = some (⟨7, 0, false⟩, 0) ∧ pw.elem < (({ port := 5, flags := 0, base := 0x80, pattern := 0x400 } : StreamCmd).lay []).count ∧ nmOp 0 = some .add ∧ pr.settled = true :=
  ⟨by intro p hp; rcases List.mem_cons.1 hp with rfl | hp; · exact ⟨rfl, rfl, rfl, rfl, rfl, rfl, rfl⟩
      rcases List.mem_cons.1 hp with rfl | hp; · exact ⟨rfl, rfl, rfl, rfl, rfl, rfl, rfl⟩
      rcases List.mem_singleton.1 hp with rfl; exact ⟨rfl, rfl, rfl, rfl, rfl, rfl, rfl⟩, by decide +kernel⟩
theorem witness_StreamCommands_edges : let c : PortCtx := { s := spt pr, key := 5, p := pr, n := ist, g := rgn none }
    let h := ((spt pr).mem.line 2048).toNat
    let a1 : Access := { id := 0, cmd := 0, va := 0x20000, size := 64, kind := .owner }
    ([] : List Nat).length < 2 ∧ 2 ≤ [2048, 2049].length ∧ ({ pr with lines := [2048, 2049] } : Port).turn a1 = true ∧ paTarget 0x20000 = .hbm ∧ paDie 0x20000 = 5 / 64 ∧ (spt pr).permFault 0 0x20000 ⟨0x2002F, 4⟩ { wantStreamWrite with n := .require } = none ∧
    (spt pr).permFault 0 0x10000 ⟨0x1001F, 4⟩ wantAtomic = none ∧ pr.arriving = none ∧ (match ({ spt pr with nextId := 1 } : State).arriveAt 0x10000 1 0 0 with | .done _ _ => true | _ => false) = true ∧ h / 2 ^ 128 % 2 ^ 32 = 1 ∧ h % 32 = 0 ∧ h / 2 ^ 64 % 2 ^ 64 = 0 ∧ h / 2 ^ 160 = 0 ∧ (spt pr).stagingUsed 0 + (2 - 1) * 1 ≤ 65536 ∧ pr.landing = none ∧ c.doneOk (BitVec.ofNat 64 h) = true ∧ (spt pr).mem.bad.contains 2048 = false ∧ pr.row = none ∧ pr.settled = true ∧ ((spt pr).leafOf 0 0x10000 wantStreamRead).isLeft = true ∧ pr.extents.look 2 = none := by decide +kernel
/-- The header and index words of a port's rows, in their turn, and unreadable. -/
theorem witness_StreamCommands_rows : let f : StreamCmd := { port := 5, flags := 0, base := 0x80, pattern := 0xC00 }
    let s : State := { spt pr with mem := { (spt pr).mem with bad := [1024] } }
    f.header.toNat = 0x10000 ∧ pr.turn { id := 0, cmd := 0, va := 0x10000, size := 16, kind := .read 0x10000 } = true ∧ ph.turn { id := 0, cmd := 0, va := 0x10010, size := 4, kind := .read 0x10010 } = true ∧ (spt pr).mem.bad.contains 1024 = false ∧ s.mem.bad.contains 1024 = true ∧
    (rgn none).state = .running ∧ ph.elem < f.indexCount * (16 / f.size) ∧ f.size ≤ 16 ∧ ({ ph with rowIndex := none } : Port).rowIndex = none ∧ ph.rowCache.look (0 * 2 ^ 57 + 0x10000) = none ∧ ph.accesses = [] := by decide +kernel
/-- Bytes of a row that have been gathered, on the bound page. -/
theorem witness_StreamCommands_gathers : let p : Port := { pw with row := some (0x20000, [1, 2]), elem := 5 }
    let s : State := { spt p with mem := { (spt p).mem with landings := [(6, { die := 0, port := 5, region := 10, lines := [2048, 2049], fmt := 1, ordered := false, e := 1, doneVa := 0, domain := 0 })] } }
    p.row = some (0x20000, [1, 2]) ∧ ¬(p.elem < (({ port := 5, flags := 0, base := 0x80, pattern := 0x400 } : StreamCmd).lay []).count ∧ rowGrows 0x20000 2 0x10000 = true) ∧ (spt p).permFault 0 0x20000 ⟨0x2002F, 4⟩ wantStreamWrite = none ∧ (s.landingAt 2048).isSome = true ∧ (spt p).landingAt 2048 = none := by decide +kernel

/-- An element at (0,0) whose one task reads vcs 0, 1 and 2 and writes vc 0, with the tokens that each vc brings. -/
def fuWord (op : FuOp) (in0 in1 in2 var : Nat) : Dword := BitVec.ofNat 64 (op.code.toNat * 2 ^ 56 + in0 * 2 ^ 52 + in1 * 2 ^ 48 + in2 * 2 ^ 44 + 8 * 2 ^ 36 + var * 2 ^ 24)
def into (vc : Nat) (ts : List Token) : Route := { kind := 2, number := 5, x := 0, y := 0, vc := vc, branches := [{ kind := 0, number := 0, x := 0, y := 0, vc := vc, hops := [{ toks := ts.map fun t => (t, 0, 0) }] }] }
def tsk (w : Dword) : TaskState := { word := w, k := 3, permits := 1 }
def fui (t : TaskState) (a b c : List Token) : Inst := { ist with elems := [(0, { tasks := [t] })], tiles := [(0, { mode := 0 })], routes := [into 0 a, into 1 b, into 2 c] }
def fus (n : Inst) : State := { dev with now := 10, annex := { regions := [(10, rgn none)], insts := [(20, n)] } }
def ft : FuSite := ⟨20, 0, 0, 0⟩
/-- What `Stands` and its room ask, as one test. -/
def stands (op : FuOp) (n : Inst) (t : TaskState) : Bool :=
  (n.elem 0 0).tasks[0]? == some t && taskFu t.word == some op && n.live && !(n.elem 0 0).blocked && (n.elem 0 0).lastFc != some 5 && taskStage t.word == n.stage && !(n.elem 0 0).frameMode && n.first 0 0 0 5 0
theorem stands_of (op : FuOp) (n : Inst) (t : TaskState) (h : stands op n t = true) : Stands (fus n) op ft n t := by
  simp only [stands, Bool.and_eq_true, Bool.not_eq_true', beq_iff_eq, bne_iff_ne, ne_eq] at h
  have e : (fus n).fc = 5 := by simp [State.fc, fus]
  exact ⟨rfl, h.1.1.1.1.1.1.1, h.1.1.1.1.1.1.2, h.1.1.1.1.1.2, h.1.1.1.1.2, e ▸ h.1.1.1.2, h.1.1.2, h.1.2, e ▸ h.2⟩
def roomy (op : FuOp) (n : Inst) (t : TaskState) : Bool := decide (taskVcs t.word).Nodup && (taskVcs t.word).all fun v => (Map.get {} (n.elem 0 0).outs v).accepts (outCap op (taskVar t.word)) 5
def has (n : Inst) (t : TaskState) (i : Nat) (x : Token) : Bool := !x.eos && decide (taskIn t.word i < 8) && n.inHead 0 0 (taskIn t.word i) 5 == some (x, 0)
def D (x : Dword) : Token := ⟨x, 0, false⟩

/-- Data on every input, and markers on every input, of each operation that keeps no state. -/
theorem witness_FuArithmetic : ∀ op ∈ [FuOp.fadd, .fmul, .ffma, .fmax, .fmin, .bfma2, .f8dot4, .iadd, .isub, .imul, .imad, .and, .or, .xor, .shl, .shr, .cmp, .sel, .hash, .mcast, .fifo],
    let t := tsk (fuWord op 0 1 2 0)
    let n := fui t [D 5] [D 6] [D 7]
    let m := fui t [marker 0] [marker 0] [marker 0]
    stands op n t = true ∧ roomy op n t = true ∧ (∀ i ∈ [0, 1, 2], has n t i (D (BitVec.ofNat 64 (5 + i))) = true) ∧ stands op m t = true ∧
    (∀ i ∈ fuInputs op 0, m.inHead 0 0 i 5 = some (marker 0, 0)) ∧ (fuInputs op 0).filter (fun i => decide (taskIn t.word i < 8)) ≠ [] := by decide +kernel
theorem witness_FuControl : (∀ op ∈ [FuOp.merge, .steer, .repeat, .tag, .untag, .ldt, .stt, .owner],
    let t := tsk (fuWord op 0 1 2 0)
    let n := fui t [D 5] [D 6] [D 0]
    stands op n t = true ∧ roomy op n t = true ∧ has n t 0 (D 5) = true ∧ has n t 1 (D 6) = true ∧ has n t 2 (D 0) = true) ∧
    (let t := tsk (fuWord .tagck 0 9 9 0); let n := fui t [D 5] [] []; stands .tagck n t = true ∧ has n t 0 (D 5) = true ∧ t.counter = 0) ∧
    (let t := tsk (fuWord .acc 0 1 9 0); let n := fui t [D 5] [] []; let m := fui t [] [D 6] []; stands .acc n t = true ∧ has n t 0 (D 5) = true ∧ n.inHead 0 0 1 5 = none ∧ stands .acc m t = true ∧ has m t 1 (D 6) = true ∧ m.inHead 0 0 0 5 = none ∧ t.owesMarker = false) ∧
    (let t := tsk (fuWord .count 9 9 9 0); let n := fui t [] [] []; let t' : TaskState := { t with pass := some ⟨2⟩, permits := 0 }
     stands .count n t = true ∧ t.pass = none ∧ t.permits ≠ 0 ∧ passLength (n.elem 0 0) t .count = 3 ∧ stands .count (fui t' [] [] []) t' = true) ∧
    (let t := tsk (fuWord .agen 9 9 9 0); let e : Elem := { tasks := [t], frame := [(1, 2), (2, 1), (3, 1), (4, 1)] }; let n : Inst := { fui t [] [] [] with elems := [(0, e)] }
     stands .agen n t = true ∧ roomy .agen n t = true ∧ passLength e t .agen = 2) ∧ nmOp 0 = some .add := by decide +kernel
/-- A controller with one child: its first permit, and its done after the last. -/
def cti (op : FuOp) (issued done : Map Nat) : Inst := { fui (tsk (fuWord op 9 9 9 1)) [] [] [] with ctls := [{ x := 0, y := 0, tile := false, task := 0, parent := none, running := true, issued := issued, done := done }, { x := 1, y := 0, tile := false, task := 0, parent := some 0 }] }
theorem witness_FuControl_controllers : ∀ op ∈ [FuOp.ctlSeq, .ctlPipe, .ctlStream], let t := tsk (fuWord op 9 9 9 1)
    stands op (cti op [] []) t = true ∧ ((cti op [] []).ctlPlan 0 0 0 t op).map (fun a => (a.node, a.permits, a.done)) = some (0, [1], false) ∧
    stands op (cti op [(1, 3)] [(1, 3)]) t = true ∧ ((cti op [(1, 3)] [(1, 3)]).ctlPlan 0 0 0 t op).map (fun a => (a.node, a.permits, a.done)) = some (0, [], true) := by decide +kernel

/-- A device with core 0 as given, groups, and cc. -/
def cor (c : Core) (gs : Map Group) (now : Nat) : State := { dev with now := now, cores := [(0, { c with service := true })], groups := gs }
def rec0 : Record := { pc := 0x2000, mask := 1, cont := none, slot := 0, trapret := 0, trapcode := 0 }
def gfull : Group := { gr with strands := (List.range 8).map fun e => (e, { sd with placed := e }) }
def gask (stamp : Nat) : Group := { gr with stamp := stamp, strands := [(0, { sd with wait := .rgrow 1 0 })] }
def gfin : Group := { gr with live := 0, strands := [] }
theorem witness_CoreEvents_creep : let s := cor {} [(0, gr)] 1024; (s.core 0).service = true ∧ (s.core 0).creeps < (s.now - (s.core 0).since) / 1024 := by decide +kernel
theorem witness_CoreEvents_refill : let s := cor { docent := [rec0] } [(0, gr)] 0; (s.core 0).docent.find? (fun r => (s.groups.look (gkey 0 r.slot)).any Group.refills) = some rec0 ∧ gr.freeEntry = some 1 := by decide +kernel
theorem witness_CoreEvents_swap : let s := cor { docent := [rec0] } [(0, gfull)] 4096; s.groups.look (gkey 0 0) = some gfull ∧ gfull.freeEntry = none ∧ gfull.swapSince + 4096 ≤ s.now ∧ s.swapVictim (gkey 0 0) gfull = some (0, sd) ∧ gfull.calling = false ∧ gfull.saveList = [] ∧ (s.core 0).recordsOf 0 = rec0 :: [] := by decide +kernel
theorem witness_CoreEvents_grant : let g : Group := { gask 0 with nregs := 240 }; let s := cor {} [(0, g)] 0; s.oldestRequest 0 0 = some (0, g, 0, 1, 0) ∧ g.nregs / 16 + 1 ≤ 16 ∧ 1 ≤ s.freeGranules 0 0 ∧ (g.strands.look 0).isSome = true := by decide +kernel
theorem witness_CoreEvents_spill : let s := cor {} [(0, gask 0), (1, gask 1), (2, gask 2), (3, gask 3)] 4096
     s.oldestRequest 0 0 = some (0, gask 0, 0, 1, 0) ∧ s.freeGranules 0 0 < 1 ∧ Map.get 0 (s.core 0).growSince 0 + 4096 ≤ s.now ∧ (∀ e ∈ s.inQuad 0 0, e.2.blocked = true ∧ (e ≠ (3, gask 3) → e.2.stamp < 3)) ∧ (3, gask 3) ∈ s.inQuad 0 0 ∧
     (gask 3).ops = [] ∧ (gask 3).matrixQuiet = true := by decide +kernel
theorem witness_CoreEvents_returns : let s := cor { spilled := [(0, gr)] } [] 0; (s.core 0).spilled.find? (fun x => x.1 == 0 && !s.groupEvicting x.2) = some (0, gr) ∧ s.freeSlot 0 0 = some 0 ∧ gr.nregs / 16 ≤ s.spareGranules 0 0 := by decide +kernel
theorem witness_CoreEvents_fetch : let g : Group := { gr with strands := [(0, { sd with pc := 0x10008 })] }; let s := on g; s.strandAt ⟨0, 0, 0⟩ = some (g, { sd with pc := 0x10008 }) ∧ s.fetch 0 g 0x10008 = .miss 0x10008 ∧ lineRemote 1024 = false ∧ g.rclk.toNat + g.lease.toNat < 2 ^ 40 := by decide +kernel
theorem witness_CoreEvents_retire : let s := cor {} [(0, gfin)] 0; s.groups.look (gkey 0 0) = some gfin ∧ s.finished 0 gfin = true ∧ gfin.frames = [] ∧ gfin.matrixQuiet = true ∧ gfin.ops = [] ∧ (∀ e ∈ s.groups, e.2.block = gfin.block → e.1 = 0) ∧ s.hasSpilled 7 = false := by decide +kernel

/-- Lines of host and of peer memory. -/
def hostLine : Nat := 2 ^ 44
def peerLine : Nat := 2 * 2 ^ 44
def asks2 (line : Nat) (sc : Scope) (k : MsgKind) : State := { on gm with mem := { dev.mem with msgs := [(5, { rq k (.atOwner 8) with line := line, scope := sc })] } }
def oreq (w : OwnerWork) : OwnerReq := { from_ := .group 0 1, die := 0, node := 0, va := 0, work := w, queued := true }
def lnd : Landing := { die := 0, port := 5, region := 10, lines := [2048, 2049], fmt := 1, ordered := false, e := 1, doneVa := 0, domain := 0 }
theorem witness_MemoryEvents : (∀ l ∈ [1024, hostLine], ({ dev with mem := { l2 := [(l, { data := 7, dirty := true, wts := ⟨1, false⟩, rts := ⟨9, false⟩ })] } } : State).mem.l2.look l = some { data := 7, dirty := true, wts := ⟨1, false⟩, rts := ⟨9, false⟩ }) ∧
    lineRemote hostLine = true ∧ linePeer hostLine = false ∧ linePeer peerLine = true ∧
    (∀ l ∈ [hostLine, peerLine], let s := asks2 l .dev (.renew [⟨0, 6, 0, 4, 0x10000⟩] true true)
      (s.mem.msgs.look 5).map (fun m => (m.stage, m.line, m.scope)) = some (.atOwner 8, l, .dev) ∧ s.mem.l2.look l = none ∧ s.sliceFull l = false ∧ (∀ e ∈ s.mem.owner, e.2.work.line ≠ some l) ∧ s.ownerAtPeer 5 = none ∧
        (s.mem.msgs.look 5).all (fun m => s.turnAtPeer m) = true) ∧
    (let s := asks2 hostLine .sys (.store 15 0x1234 false); (s.mem.msgs.look 5).map (fun m => (m.stage, m.line, m.scope)) = some (.atOwner 8, hostLine, .sys) ∧ s.mem.l2.look hostLine = none ∧ s.lineBad hostLine = false) ∧
    dev.mem.badL2.contains hostLine = false ∧ ({ dev.mem with badL2 := [hostLine] } : MemSys).badL2.contains hostLine = true ∧
    (∀ w ∈ [OwnerWork.store 0x20000 [1, 2], .word 0x20000 .add 4 7 0], let s : State := { dev with mem := { owner := [(5, oreq w)] } }
      s.nodeHead 0 0 = some (5, oreq w) ∧ (oreq w).bound = none ∧ s.mem.bad.contains 2048 = false) ∧
    (let q : OwnerReq := { oreq (.store 0x20040 (List.replicate 64 1)) with bound := some 6 }
     ∀ k ∈ [[], [(2049, 1)]], let b : Landing := { lnd with count := k }; let s : State := { dev with mem := { owner := [(5, q)], landings := [(6, b)] } }
     s.nodeHead 0 0 = some (5, q) ∧ q.work = .store 0x20040 (List.replicate 64 1) ∧ 0x20040 % 64 = 0 ∧ (List.replicate 64 (1 : Byte)).length = 64 ∧ s.mem.landings.look 6 = some b ∧ b.lines.head? ≠ some 2049 ∧
       (Map.get 0 b.count 2049 < b.e ↔ k = []) ∧ b.ordered = false ∧ b.doneVa = 0 ∧ s.mem.bad.contains 2049 = false) ∧
    (∀ w ∈ [OwnerWork.store 0x20044 [1, 2], .word 0x20000 .add 4 7 0], let s : State := { dev with mem := { owner := [(5, { oreq w with bound := some 6 })], landings := [(6, lnd)] } }
      s.nodeHead 0 0 = some (5, { oreq w with bound := some 6 }) ∧ s.mem.landings.look 6 = some lnd) ∧
    ({ dev with links := { ideKeys := true } } : State).hostOpen = true ∧ dev.hostOpen = false := by decide +kernel

/-- Routes from an element: to another, to a port and to a fifo tile, with one hop and with two. -/
def rt (kind number : Nat) (hops : List Store) : Route := { kind := 0, number := 0, x := 0, y := 0, vc := 0, branches := [{ kind := kind, number := number, x := 0, y := 0, vc := 3, hops := hops }] }
def one : Store := { toks := [tok 7] }
def nrt (kind number : Nat) (hops : List Store) : Inst := { ist with elems := [(0, { outs := [(0, one)] })], tiles := [(0, { mode := 1, n := 3 })], routes := [rt kind number hops] }
def withPort (n : Inst) : State := { fus n with annex := { regions := [(10, rgn none)], insts := [(20, n)], ports := [(5, pr)], seqs := [(2, sq)] } }
theorem witness_TokenEvents_moves : (let s := withPort (nrt 0 0 [{}]); s.annex.insts.look 20 = some (nrt 0 0 [{}]) ∧ (Map.get {} ((nrt 0 0 [{}]).elem 0 0).outs 0).head s.fc = some (⟨7, 0, false⟩, 0) ∧ ({} : Store).accepts 2 s.fc = true) ∧
    (let s := withPort (nrt 0 0 [one, {}]); s.annex.insts.look 20 = some (nrt 0 0 [one, {}]) ∧ one.head s.fc = some (⟨7, 0, false⟩, 0) ∧ ({} : Store).accepts 2 s.fc = true) ∧
    (let s := withPort (nrt 2 5 [one]); s.annex.insts.look 20 = some (nrt 2 5 [one]) ∧ s.annex.ports.look (64 * 0 + 5) = some pr ∧ pr.inst = some 20 ∧ pr.wr.accepts 16 s.fc = true) ∧
    (let s := withPort (nrt 1 0 [one]); s.annex.insts.look 20 = some (nrt 1 0 [one]) ∧ ((nrt 1 0 [one]).tile 0 0).mode = 1 ∧ ((nrt 1 0 [one]).tile 0 0).fifo.accepts (3 + 1) s.fc = true) ∧
    (let s := withPort (nrt 4 2 [one]); s.annex.seqs.look (32 * 0 + 2) = some sq ∧ ((nrt 4 2 [one]).branchTo 4 (fun b => b.number == 2 && b.vc == 3)).isSome = true ∧ one.head s.fc = some (⟨7, 0, false⟩, 0)) := by decide +kernel
/-- A stream-out tile, a controller with a child, endpoints that owe credits, and a tile that feeds stage 1. -/
def nct (p : Option Nat) (d : List Nat) : Inst := { ist with elems := [(1, { tasks := [tsk (fuWord .count 9 9 9 0)] })], ctls := [{ x := 0, y := 0, tile := false, task := 0, parent := none, permitAt := p, doneAt := d }, { x := 1, y := 0, tile := false, task := 0, parent := some 0, permitAt := p, doneAt := d }] }
def nst (x : Option (Nat × Option Nat)) : Inst :=
  { ist with nextStage := x, tiles := [(0, { mode := 1, n := 3, fifo := { toks := [tok 7] } })], elems := [(1, { tasks := [tsk (fuWord .mcast 3 9 9 0 + 0x200000000)] })], routes := [{ kind := 1, number := 0, x := 0, y := 0, vc := 0, branches := [{ kind := 0, number := 0, x := 1, y := 0, vc := 3, hops := [{}] }] }] }
theorem witness_TokenEvents_instance : (let t : Tile := { mode := 2, n := 1, rep := 0, permits := 1 }; t.out.accepts 3 5 = true ∧ t.pass = none ∧ t.permits ≠ 0 ∧ 0 < (t.n + 1) * (t.rep + 1) ∧ 1 < (t.n + 1) * (t.rep + 1)) ∧
    (let n := nct (some 5) [5]; (fus n).fc = 5 ∧ n.ctls[0]?.bind (·.permitAt) = some 5 ∧ n.children 0 = [1] ∧ n.children 1 = [] ∧ (n.elem 1 0).tasks[0]? = some (tsk (fuWord .count 9 9 9 0)) ∧ n.ctls[0]?.map (·.parent) = some none ∧ n.ctls[1]?.map (·.parent) = some (some 0) ∧ n.ctls[1]?.map (·.doneAt) = some [5]) ∧
    (let e : Endpoint := { kind := 1, die := 0, die2 := 0, credits := 63, bound := some 0, ending := true }; let s := fus ist
     e.credits + s.outstanding 10 (rgn none) 1 e < 64 ∧ e.bound.isSome = true ∧ e.returning = [] ∧ ({ e with kind := 3, returning := [0] } : Endpoint).returning = 0 :: [] ∧ (0 : Nat) + 24 ≤ ({ s with now := 48 } : State).fc) ∧
    (let n := nst (some (1, none)); (fus n).instsOf 10 = [(20, n)] ∧ (fus n).storesDone 20 = true) ∧ (let n := nst (some (1, some 5)); (fus n).instsOf 10 = [(20, n)] ∧ n.nextStage = some (1, some 5) ∧ 5 ≤ (fus n).fc) := by decide +kernel
/-- A stage that has not fired, and one that fired last 64 fc ago. -/
def sst (f : Option Nat) : State := { fus { nst none with lastFire := f } with now := 200 }
theorem witness_TokenEvents_swaps : ∀ f ∈ [none, some 36],
    (sst f).instsOf 10 = [(20, { nst none with lastFire := f })] ∧ (nst none).region = 10 ∧ (nst none).nextStage = none ∧ (nst none).state = .running ∧
    (f.all fun x => decide (x + 64 ≤ (sst f).fc)) = true ∧ (f ≠ none ∨ (nst none).stageSince + 63 ≤ (sst f).fc) ∧ (1 : Nat) ≠ (nst none).stage ∧ stageSum ((sst f).instsOf 10) 1 (sst f).fc ≠ 0 ∧
    ∀ j, j < 8 → j ≠ (nst none).stage → j ≠ 1 → stageSum ((sst f).instsOf 10) j (sst f).fc < stageSum ((sst f).instsOf 10) 1 (sst f).fc := by decide +kernel
/-- A port with a command to report, with accesses, without a page, and with a stale one. -/
def acc1 (k : AccessKind) (v : Option Nat) : Access := { id := 4, cmd := 0, va := 0x10000, size := 4, kind := k, value := v }
def pac (k : AccessKind) (v : Option Nat) : Port := { pr with accesses := [acc1 k v] }
def pst : Port := { pr with extents := [(0, { va := 0x10000, size := 65536, leaf := 0x1001F, level := 4, used := 0, stale := true })] }
theorem witness_TokenEvents_port : ({ pr with completions := [0] } : Port).completions.find? ({ pr with completions := [0] } : Port).performed = some 0 ∧
    (let x : Extent := { va := 0x10000, size := 65536, leaf := 0x1001F, level := 4, used := 0 }; let a := { acc1 (.read 0x10000) none with again := true }
     let p : Port := { pac (.read 0) none with accesses := [a], extents := [(0, x)] }
     p.accesses.find? (fun b => b.id == 4) = some a ∧ p.slotOf 0x10000 = some (0, x) ∧ (withPort ist).permFault 0 0x10000 ⟨0x1001F, 4⟩ wantStreamRead = none) ∧
    (∀ a ∈ [acc1 (.read 0x10000) none, acc1 (.write 0x10000 [1, 2, 3, 4]) none, acc1 (.token (D 9)) (some 0)], (pac a.kind a.value).accesses.find? (fun b => b.id == 4) = some a ∧ a.again = false ∧ (pac a.kind a.value).turn a = true) ∧
    (pac (.token (D 9)) (some 0)).oldest = some (acc1 (.token (D 9)) (some 0)) ∧ pr.rd.accepts 16 5 = true ∧
    (let s := withPort ist; s.annex.insts.look 20 = some ist ∧ (s.leafOf (s.instDomain 20) 0x10000 wantStreamRead).isLeft = true ∧ s.leafOf (s.instDomain 20) 0x30000 wantStreamRead = .inr (faultPage, walkDetail 8 0 0) ∧ ({ pr with wants := some 0x30000 } : Port).withheld = none) ∧
    pst.extents.look 0 = some { va := 0x10000, size := 65536, leaf := 0x1001F, level := 4, used := 0, stale := true } ∧ pst.accesses = [] := by decide +kernel

/-- A region with one square whose image is empty, and one whose image cannot be read. -/
def rgl (st : RegionState) (img : Dword) : Region := { rgn none with state := st, record := { rr with image := img } }
def nld (st : RegionState) (l : Bool) : Inst := { ist with state := st, loaded := l, routes := [] }
def srg (st nst_ : RegionState) (l : Bool) (img : Dword) : State :=
  { dev with now := 24010, annex := { regions := [(10, { rgl st img with timeoutAt := if st = .running then some 10 else none, drainFrom := if st = .draining then some 0 else none })], insts := [(20, nld nst_ l)] }, mem := { dev.mem with bytes := [(0x10000, 0x41), (0x10001, 0x4E), (0x10002, 0x58), (0x10003, 0x47), (0x10004, 1), (0x10006, 1), (0x10007, 1), (0x10008, 1), (0x1000C, 64), (0x10010, 32), (0x10014, 32)] } }
/-- The image that stands at 0x10000. -/
def imgOf (s : State) : Option (List Byte) := match s.readImage 0 0x10000 with | .done b => some b | _ => none
theorem witness_RegionLife : (let s := srg .loading .loading false 0x10000; let g := rgl .loading 0x10000; let n := nld .loading false
      s.annex.regions.look 10 = some g ∧ s.annex.insts.look 20 = some n ∧ n.region = 10 ∧ (imgOf s).isSome = true ∧ s.loadFailure g (imgOf s) = none ∧ (g.loadOf (imgOf s) 20 n).isSome = true ∧ s.annex.checkpoints = [] ∧
      ((g.loadOf (imgOf s) 20 n).all fun l => s.portsFree 20 n l) = true ∧
      s.cachedFor g n (s.stampOf 0 0x10000 ((imgOf s).getD []).length) = none) ∧
    (let s := srg .loading .loading false 0x30000; s.readImage 0 0x30000 = .bad ∧ 20 ∈ (rgl .loading 0x30000).insts) ∧
    (let s := srg .loading .loading true 0x10000; (s.annex.insts.look 20).map (·.loaded) = some true ∧ (rgl .loading 0x10000).insts = [20] ∧ [20].Nodup) ∧
    (let s := srg .running .running true 0x10000; s.instDone 20 (nld .running true) = true ∧ (s.annex.regions.look 10).map (fun g => (g.state, g.insts, g.timeoutAt, g.record.timeout)) = some (.running, [20], some 10, 0)) ∧
    (let s : State := { srg .running .running true 0x10000 with now := 200010 }; 10 + 4000 * 50 ≤ s.now) ∧
    (let s := srg .draining .draining true 0x10000; ((s.annex.regions.look 10).bind (·.drainFrom)) = some 0 ∧ s.instStill 20 (nld .draining true) = true ∧ s.accessesDone 20 = true) ∧ (0 : Nat) + 24000 ≤ ({ srg .draining .draining true 0x10000 with now := 48000 } : State).fc := by decide +kernel
/-- The image binds port 5, which instance `i` holds. -/
def srp (i : Nat) : State :=
  let s := srg .loading .loading false 0x10000
  { s with annex := { s.annex with ports := [(5, { pr with inst := some i })] }, mem := { s.mem with bytes := [(0x10000, 0x41), (0x10001, 0x4E), (0x10002, 0x58), (0x10003, 0x47), (0x10004, 1), (0x10006, 1), (0x10007, 1), (0x10008, 1), (0x1000C, 80), (0x10010, 32), (0x10014, 32), (0x10030, 64), (0x10034, 1), (0x10040, 5)] } }
theorem witness_RegionLife_ports : ∀ i ∈ [20, 21], let g := rgl .loading 0x10000; let n := nld .loading false; let s := srp i
    s.annex.regions.look 10 = some g ∧ s.annex.insts.look 20 = some n ∧ s.loadFailure g (imgOf s) = none ∧ (g.loadOf (imgOf s) 20 n).map (fun l => s.portsFree 20 n l) = some (decide (i = 20)) := by decide +kernel
/-- An image with a wrong magic number, one whose squares still hold the configuration, and a pool that can take a checkpoint or not
(`Config.savePool` is open, LOG 11). -/
theorem witness_RegionLife_others : (let s : State := { srg .loading .loading false 0x10000 with mem := dev.mem }
      (imgOf s).isSome = true ∧ (s.loadFailure (rgl .loading 0x10000) (imgOf s)).isSome = true) ∧
    (let c : Cached := { image := 0x10000, domain := 0, section_ := 0, die := 0, sx := 0, sy := 0, cols := 1, rows := 1, stamp := BitVec.allOnes 40, elems := [], tiles := [], routes := [] }
     let s0 := srg .loading .loading false 0x10000; let s : State := { s0 with annex := { s0.annex with cache := [c] } }
     s.cachedFor (rgl .loading 0x10000) (nld .loading false) (s.stampOf 0 0x10000 ((imgOf s).getD []).length) = some c) := by decide +kernel
theorem witness_RegionLife_pool : let s := srg .running .running true 0x10000; s.poolTakes 10 = true ∨ s.poolTakes 10 = false := by cases (srg .running .running true 0x10000).poolTakes 10 <;> simp

/-- A record of group 0, delivered with its word of resolution in memory. -/
def frc (code flags : Byte) (detail : Dword) (la rg_ : Option Nat) : FaultRec := { id := 4, code := code, source := 0, flags := flags, lane := 0xFF, queue := 3, slot := 0, where_ := 0x1000, va := 0, detail := detail, core := 0, slotNo := 0, incarnation := 0, block := 0, domain := 0, launch := la, region := rg_, group := some 0, job := none, port := none }
def lrec : LaunchRec := { code := 0x10000, gridx := 1, gridy := 1, gridz := 1, groups := 1, cohort := 1, regs := 16, scratch := 1, catalogue := 0, carve := 384, lease := 0, arg := 7, done := 0, wait := 0, domain := 0, priority := 0, stack := false, sys := false, extent := 0 }
def lau : Launch := { queue := 3, slot := 0, record := lrec, start := 0, cohorts := 1, placed := 1, blocksLeft := 1, priority := 0, ready := 0, rmax := 0, wmax := 0, terminating := false }
/-- Domain 0 has a fault queue of 16 records at 0x10400 with its ring at 0x10800, and a control block at 0x10C00 whose ring of 16 requests, at 0x10E00, holds one. -/
def sln (g : Group) (r : FaultRec) (word : Byte) : State :=
  { on g with domains := [(0, { state := .active, faultQueue := 0x10400, controlBlock := 0x10C00 })], belfry := { queues := [(3, que)], launches := [(9, lau)] }, faults := { undelivered := [r], awaiting := [⟨r, 0x10000, none⟩] }, annex := { regions := [(10, rgn none)] }, mem := { dev.mem with bytes := [(0x1003C, word), (0x10401, 8), (0x10402, 1), (0x10408, 4), (0x10C09, 0x0E), (0x10C0A, 1), (0x10C10, 4), (0x10C18, 1), (0x10E02, 1), (0x10E08, 1)] } }
def sus : Suspend := { code := 4, entry := 0, lanes := 0, record := 4 }
def gsu (fs : List Frame) : Group := { gr with frames := fs, suspends := [sus] }
theorem witness_Lantern_delivers : let r := frc 4 3 0 (some 9) none
    let s := sln gr r 0
    s.faults.undelivered[0]? = some r ∧ (match s.writeRecord r with | .done s1 pa => pa == 0x10800 && !s1.sourceOver r | _ => false) = true ∧ r.flags.getLsbD 0 = true ∧ r.fatalTo = none ∧ (frc 4 8 0 (some 9) none).fatalTo = some 9 ∧ (gsu []).suspends = [sus] ∧ sus.record = r.id := by decide +kernel
theorem witness_Lantern_resolves : (∀ e ∈ [((1 : Byte), frc 4 3 0 (some 9) none), (2, frc 3 7 0 (some 9) none), (5, frc 0x0F 3 (watchDetail 1 0) (some 9) none)],
      let s := sln (gsu []) e.2 e.1
      s.awaited 4 = some (e.2, e.1.toNat, 0) ∧ s.groups.look 0 = some (gsu []) ∧ (gsu []).suspends.find? (fun y => y.record == 4) = some sus ∧ sus.late = false ∧ (gsu []).strands.look 0 = some sd) ∧ (gsu []).stopping = .running ∧ (gsu [fr1]).mayLeave = true ∧
    (let r := frc 3 7 0 (some 9) none; let s := sln (gsu [fr1]) r 3
     s.awaited 4 = some (r, 3, 0) ∧ r.source = 0 ∧ sus ∈ (gsu [fr1]).suspends ∧ (∀ y ∈ (gsu [fr1]).suspends, y.record = 4 → y.late = false) ∧ r.flags.getLsbD 2 = true ∧ (∀ e ∈ s.groups, e.1 ≠ 0 → ∀ y ∈ e.2.suspends, y.record ≠ 4) ∧ Map.rising none s.groups = true ∧ (gsu [fr1]).frames = fr1 :: []) ∧
    (let r := frc 4 3 0 (some 9) none; let s := sln gr r 4; s.awaited 4 = some (r, 4, 0) ∧ r.flags.getLsbD 2 = false ∧ r.launch = some 9) ∧
    (let r := frc 0x0B 3 0 none (some 10); let s := sln gr r 4; s.awaited 4 = some (r, 4, 0) ∧ r.launch = none ∧ s.annex.regions.look 10 = some (rgn none) ∧ (rgn none).state = .running) := by decide +kernel
theorem witness_Lantern_terminates : let s := sln gr (frc 4 3 0 (some 9) none) 0
    s.belfry.queues.look 3 = some que ∧ s.belfry.launches.find? (fun e => e.2.queue == 3 && e.2.slot == 0) = some (9, lau) ∧ lau.terminating = false ∧ Requester.may s (.domain 0) que.domain = true ∧ (s.domain 0).state = .active := by decide +kernel
theorem witness_Lantern_invalidates : let s := sln gr (frc 4 3 0 (some 9) none) 0
    let r : InvRequest := { index := 0, va := 0x10000, units := 1, all := false, barrier := 0, covered := [(0, 5)], messages := [6] }
    (s.domain 0).invalidation = none ∧ (s.domain 0).revocations = [] ∧ (match s.controlBlock 0 with | some cb => fieldAt cb 16 1 == 4 && fieldAt cb 8 8 == 0x10E00 && fieldAt cb 24 8 == 1 | none => false) = true ∧ (s.domain 0).invRead = 0 ∧
    (match s.belfryRead 0 0x10E00 32 with | .ok bs _ => fieldAt bs 0 8 == 0x10000 && fieldAt bs 8 4 == 1 && fieldAt bs 12 1 == 0 && fieldAt bs 13 3 == 0 && fieldAt bs 24 8 == 0 | _ => false) = true ∧
    (let u : State := { s with domains := [(0, { state := .active, invalidation := some r })] }; (u.domain 0).invalidation = some r ∧ r.curator = none ∧ (∀ c ∈ r.covered, ∀ g ∈ u.groups, g.1 = c.1 → ∀ o ∈ g.2.ops, o.id = c.2 → o.left = 0) ∧ (∀ id ∈ r.messages, u.mem.msgs.look id = none) ∧ u.annex.ports = [] ∧ u.ringPinned 0 r = false) := by decide +kernel
def gev : Group := { gr with stopping := .evict }
def sav : Saved := { launch := 9, cohort := 0, block := 7, data := bk, groups := [gr], jobs := [], reserve := some 0, at_ := 0 }
/-- The last clause also asks that firmware's pool holds 49,152 bytes more (`Config.savePool` is open, LOG 11). -/
theorem witness_Lantern_evicts : let s := sln gev (frc 4 3 0 (some 9) none) 0
    s.belfry.launches.look 9 = some lau ∧ lau.terminating = false ∧ s.cohortBlocks 9 0 = [(7, bk)] ∧ s.faults.evictions = [] ∧ (∀ b ∈ s.cohortBlocks 9 0, ∀ e ∈ s.groupsOf b.1, s.atRest e.1 e.2 = true) ∧
    ({ s with faults := { evictions := [(9, 0, false)] } } : State).faults.evictions.find? (fun e => e.1 == 9 && e.2.1 == 0) = some (9, 0, false) ∧
    ({ s with faults := { saves := [sav] } } : State).faults.saves[0]? = some sav ∧ sav.reserve.isSome = true ∧ s.poolTaken + sav.size = 49152 := by decide +kernel

/-- Queue 3 with its ring of 16 slots at 0x10200 and one packet written there: its descriptor at 0x10100. -/
def pkt (r : Work) : Packet := { slot := 0, raw := [], parsed := true, work := some r, prev := false, waits := [], start := 0, ready := none, blocked := none, launch := none }
def qc (ps : List Packet) (st : QueueStop) : Queue := { que with cached := true, ring := 0x10200, size := 4, packets := ps, stop := st }
def sbf (q : Queue) : State := { on gr with now := 5, belfry := { queues := [(3, q)] }, mem := { dev.mem with bytes := [(0x10110, 1), (0x10200, 4), (0x10240, 1)] } }
theorem witness_Belfry_fetches : ∀ st ∈ [QueueStop.running, .fault], let s := sbf (qc [] st)
    s.belfry.queues.look 3 = some (qc [] st) ∧ (match s.belfryRead 0 0x10100 64 with | .ok bs _ => fieldAt bs 16 8 == 1 | _ => false) = true ∧ (qc [] st).fetch ≤ (qc [] st).readIndex + 4 ∧
    (match (s.noteRead 0 0x10100 64).belfryRead 0 0x10200 128 with | .ok raw _ => fieldAt raw 64 1 == 1 | _ => false) = true ∧ s.noticed 3 = true := by decide +kernel
/-- A packet whose code address is not a multiple of 8, and one that Parse accepts. -/
def raw (code : Nat) : List Byte := (List.range 128).map fun i => match i with | 0 => BitVec.ofNat 8 code | 24 => 1 | 26 => 1 | 28 => 1 | 64 => 1 | _ => 0
theorem witness_Belfry_parses : let p : Packet := { pkt (.launch lrec) with parsed := false, work := none, raw := raw 4 }
    let s := sbf (qc [p] .running)
    s.toParse (qc [p] .running) = some p ∧ s.parseWait p = none ∧ s.parsePacket (qc [p] .running) p = .inl (1, 0) ∧ fieldAt p.raw 64 1 = 1 ∧ fieldAt p.raw 0 8 % 8 ≠ 0 := by decide +kernel
/-- A region whose mask names a die that has been retired since. -/
theorem witness_Belfry_lateRetired : let p := pkt (.region rr)
    let s : State := { sbf (qc [p] .running) with service := { diesRetired := [0] } }
    s.belfry.queues.look 3 = some (qc [p] .running) ∧ p.parsed = true ∧ p.ready = none ∧ p.launch = none ∧ (s.domain 0).state ≠ .quarantined ∧ s.lateRetired p = true := by decide +kernel
def wte (p : Packet) : Packet := { p with waits := [{ va := 0x10300, gen := 0, satisfied := false, registered := true }] }
theorem witness_Belfry_heads : let p := pkt (.launch lrec)
    let q := qc [wte p] .running
    let s : State := { sbf q with belfry := { queues := [(3, q)], waiters := [(4, 3, 0)] } }
    (qc [p] .running).packets = p :: [] ∧ p.parsed = true ∧ p.ready = none ∧ (sbf (qc [p] .running)).lateRetired p = false ∧ ((sbf (qc [p] .running)).domain 0).state = .active ∧ lrec.blocks ≠ 0 ∧ q.packets = wte p :: [] ∧
    (match s.belfryRead 0 0x10300 32 with | .ok bs _ => decide ((fieldAt bs 24 4 + 2 ^ 32 - 0) % 2 ^ 32 < 2 ^ 31) | _ => false) = true ∧ s.trans 0 0x10300 wantLoad = .ok 0x10300 false ∧ (∃ x ∈ s.belfry.waiters, x.2.1 = 3 ∧ x.2.2 = 0) := by decide +kernel
theorem witness_Belfry_starts : let s := sbf (qc [] .running)
    s.freeSlot 0 1 = some 16 ∧ s.boot = .stage2 ∧ (0x10140 : Nat) % 64 = 0 ∧ (s.domain 0).state ≠ .free := by decide +kernel

def spl (w : Work) : State := { sbf (qc [{ pkt w with ready := some 0 }] .running) with groups := [], blocks := [], cores := [(0, { service := true })] }
theorem witness_Belfry_places : (let s := spl (.launch lrec); (pick s.ageAll.launchOrder s.ageAll.planLaunch (fun _ _ => true) []).map (fun x => (x.1.cand, x.2)) = some (.packet 3, [0]) ∧ s.ageAll.nextCohort 3 = some (lrec, 0) ∧ lrec.members 0 = [0]) ∧
    (let s := spl (.region rr); (pick s.ageAll.regionOrder s.ageAll.planFor s.ageAll.shareDie []).map (fun x => (x.1.cand, x.2)) = some (.packet 3, [(0, 0, 0, 0)])) := by decide +kernel
/-- Core 0 is to take another carve-out, for nobody any more and for the launch of queue 3; and it is not idle yet. -/
def scv (q : Option Nat) : State := { spl (.launch { lrec with carve := 256 }) with cores := [(0, { service := true, carveNext := some 256, keptFor := q })] }
theorem witness_Belfry_carves : (∀ q ∈ [none, some 3], ((scv q).core 0).carveNext = some 256 ∧ ((scv q).core 0).keptFor = q ∧ (scv q).changing = [0] ∧ (scv q).blocksOn 0 = [] ∧ ∀ e ∈ (scv q).mem.l1, e.1 / 2 ^ 46 = 0 → e.2.pend = []) ∧
    ((scv none).core 1).carveNext = none ∧ (let s : State := { scv none with blocks := [(7, bk)] }; s.changing = [0] ∧ s.coreIdle 0 = false) ∧
    (pick ((scv (some 3)).launchOrder.filter fun c => c.queue == 3) ((scv (some 3)).applyCarve 0).planLaunch (fun _ _ => false) []).map (fun x => (x.1.cand, x.2)) = some (.packet 3, [0]) ∧
    (scv (some 3)).nextCohort 3 = some ({ lrec with carve := 256 }, 0) := by decide +kernel
theorem witness_Belfry_carried : let s : State := { sbf (qc [] .running) with belfry := { (sbf (qc [] .running)).belfry with starts := [(3, 0, 77)] } }
    s.carried 3 0 = some 77 ∧ (sbf (qc [] .running)).carried 3 0 = none := by decide +kernel

/-! Hosts and peers: windows with R and W, with R, W and N, and with nothing; exports and imports; links. Where the device's own
number or firmware's choices are asked (`Config`, LOG 11), the witness takes a value that differs or fits. -/
def win (flags : Byte) : HostWindow := { hpa := 0x200000, length := 0x200000, pa := 0, domain := 0, flags := 0x80 ||| flags, reserved := 0 }
def exq : Export := { base := 0, length := 0x40000, device := 3, domain := 0, local_ := 0, r := true, w := true, a := true }
def sho (f : Byte) : State := { dev with links := { ideKeys := true, windows := [(2, win f)], exports := [(5, exq)], ports := [(1, { up := true, unacked := [4, 5] }), (2, { up := true })] } }
def peq (a : PeerAccess) (near : Bool) (dev_ : Nat) : PeerRequest := { device := dev_, domain := 0, pa := 0x10000, near := near, access := a }
theorem witness_HostAndPeers_host : (∀ f ∈ [(3 : Byte), 7, 0], inLine 0x210000 8 = true ∧ inLine 0x10000 8 = true ∧ (sho f).boot = .stage2 ∧ (sho f).links.ideKeys = true ∧ (sho f).windowFor 0x210000 8 = some (win f, 0x10000) ∧ HostWindow.ok (win f) = true) ∧
    (win 3).flags.getLsbD 0 = true ∧ (win 3).flags.getLsbD 1 = true ∧ (win 3).flags.getLsbD 2 = false ∧ (win 7).flags.getLsbD 2 = true ∧ (win 0).flags.getLsbD 0 = false ∧ (win 0).flags.getLsbD 1 = false ∧ (sho 3).keep.owners.look 1 = some 0 ∧ (sho 3).lineBad 1024 = false ∧ (sho 3).sliceFull 1024 = false ∧ ((sho 3).homeView 1024).rts.toNat + 1 < 2 ^ 40 ∧
    ({ sho 3 with keep := { dev.keep with owners := [(1, 4)] } } : State).keep.owners.look 1 = some 4 ∧
    ({ sho 3 with mem := { dev.mem with bad := [1024] } } : State).lineBad 1024 = true ∧ atomicFits 0x210000 8 = true ∧ (sho 3).windowFor 0x1FFFFC 8 = none ∧ dev.links.ideKeys = false := by decide +kernel
theorem witness_HostAndPeers_peers : (∀ a ∈ [PeerAccess.read 8, .write [1, 2], .atomic .add 8 1 0], ∀ near ∈ [false, true], (sho 3).exportFor (peq a near 3) = some exq ∧ (sho 3).exportFor (peq a near 4) = none ∧ (peq a near 3).pa < 2 ^ 40 ∧ inLine (peq a near 3).pa (Sys2Proof.Machine.PeerAccess.size a) = true) ∧
    exq.local_ = 0 ∧ atomicFits 0x10000 8 = true ∧ (sho 3).ownsRange 0 0x10000 0x20000 = true ∧ (sho 3).links.exports.length < 4096 ∧ ((sho 3).domain exq.local_).manager = 0 ∧ ((sho 3).domain 0).imports.length < 64 ∧
    ({ sho 3 with domains := [(0, { state := .active, imports := [(grantKey 3 7, ⟨0, 65536, 3, true, true, true⟩)] })] } : State).importer 3 7 = some 0 := by decide +kernel
theorem witness_HostAndPeers_peerNumber : ∃ peer, peer < 1024 ∧ peer ≠ Config.deviceNumber := if h : Config.deviceNumber = 0 then ⟨1, by decide, by omega⟩ else ⟨0, by decide, fun e => h e.symm⟩
theorem witness_HostAndPeers_links : (sho 3).links.ports.look 1 = some { up := true, unacked := [4, 5] } ∧ 5 ∈ [4, 5] ∧ ({ key := some 6 } : SpirePort).up = false ∧ ({ key := some 6 } : SpirePort).lanes ≠ 0 ∧ ({} : SpirePort).key = none ∧ (sho 3).links.ports.look 2 = some { up := true } ∧
    (∀ r ∈ (sho 3).links.ports, r.1 = 1 ∨ r.1 = 2) ∧ Map.rising none (sho 3).links.ports = true ∧ (∀ f ∈ [[], [8], [2, 1], [4, 3, 2, 1], [5, 4, 3, 2, 1]], ∃ lane, lane < 9 ∧ ({ up := true, failed := f } : SpirePort).failed.contains lane = false) := by decide +kernel

/-- The Keep: reset is off, and without images stage 1 fails at kind 1. -/
theorem witness_KeepAndDomains_boots : State.reset.boot = .off ∧ (({} : Keep).bootStage1.2 == some 1) = true ∧ ({ State.reset with boot := .stage0 } : State).keep.failure = none := by decide +kernel
/-- An image that the Keep accepts, where the open verification and hash agree with it (`Config.falconVerify`, `Config.shake`, LOG 10). -/
def img (kind : Byte) (digest : BitVec 512) (sig : Nat) : Image := { magic := 0x4E474953, version := 1, kind := kind, svn := 64, loadOffset := 0, digest := digest, key := 4, reserved := 0, signature := sig, body := [1, 2] }
theorem witness_KeepAndDomains_accepts (digest : BitVec 512) (sig : Nat) (hd : Config.shake [1, 2] 512 = digest.toNat) (hv : Config.falconVerify 9 (imageHeader (img 3 digest sig)) sig = true) :
    let i := img 3 digest sig
    let k : Keep := { operatorKey := some 9, firmware := [(3, { a := { image := some i } })] }
    k.accepts i 3 = true ∧ (k.bootKind 3).isSome = true ∧ (((k.bootKind 3).map Keep.loadKind).isSome = true) := by
  have h : ({ operatorKey := some 9, firmware := [(3, { a := { image := some (img 3 digest sig) } })] } : Keep).accepts (img 3 digest sig) 3 = true := by
    simp [Keep.accepts, Keep.keyOf, img, Map.get, Map.look] at *
    simp [hd, hv]
  have t : ({ operatorKey := some 9, firmware := [(3, { a := { image := some (img 3 digest sig) } })] } : Keep).trySlot 3 false = some _ := if_pos h
  refine ⟨h, ?_, ?_⟩ <;> (rw [Keep.bootKind, show (({ operatorKey := some 9, firmware := [(3, { a := { image := some (img 3 digest sig) } })] } : Keep).kind 3).activeB = false from rfl, t]; rfl)
/-- Images of a revoked key, or of another kind, are refused whatever the open functions give. -/
def skd (f : Firmware) : State := { dev with keep := { dev.keep with firmware := [(3, f)], idPub := some 6 }, domains := [(0, { state := .active }), (1, { state := .active, gates := [(0, gte)] })] }
theorem witness_KeepAndDomains_slots : (img 5 0 0).kind.toNat ≠ 3 ∧ ((skd { b := { image := some (img 5 0 0) } }).keep.kind 3).unwritten = false ∧ (skd {}).switchPoint 3 = true ∧
    ((skd { loaded := some (img 3 0 0) }).keep.kind 3).loaded = some (img 3 0 0) ∧ ((skd { loaded := some (img 3 0 0) }).keep.kind 3).fallback = false ∧ (skd {}).keep.idPub = some 6 := by decide +kernel
theorem witness_KeepAndDomains_domains : (skd {}).boot = .stage2 ∧ (skd {}).keep.bootKind 3 = none ∧ (match (skd {}).belfryRead 0 0x10C00 8 with | .wait _ => false | _ => true) = true ∧ ((skd {}).domain 63).state = .free ∧ (∀ g ∈ [3, 2 ^ 24 - 1], (skd {}).granuleFree g = true) ∧ ((skd {}).domain 1).state = .active ∧
    gateFieldsOk gte = true ∧ (skd {}).gateAllowed .host 0 gte = true ∧ (gateFieldsOk { gte with entry := 4 } && (skd {}).gateAllowed .host 0 { gte with entry := 4 }) = false ∧ gte.target.getLsbD 7 = true ∧ (List.replicate 32 (0 : Byte)).length = 32 ∧ (List.replicate 64 (0 : Byte)).length = 64 ∧ (skd {}).domainBusy 1 = false ∧
    ({ skd {} with groups := [(0, { gr with domain := 1 })] } : State).domainBusy 1 = true := by decide +kernel

/-- Service: a time that is due for a rebase, rows with errors, cores, columns, slices and channels. -/
def ssv (g : Group) : State := { on g with cores := [(0, { service := true }), (1, { left := some 0 })], now := 4000000 }
theorem witness_ServiceAndRepair_rebase : (ssv { gr with rclk := 0x8000000000 }).rebaseDue = true ∧ (ssv gr).sweeping = false ∧ ({ ssv gr with sweeping := true } : State).sweeping = true := by decide +kernel
theorem witness_ServiceAndRepair_rows : (∀ u ∈ [ArrayUnit.hbm 1024, .l2 1024, .core 0, .annex 0 3, .node 0 5], ({ dev with service := { corrected := [(dev.unitKey u, 15)] } } : State).errorsOf (dev.unitKey u) = 15) ∧
    (dev.boot = .stage2) ∧ (({ dev with mem := { l2 := [(1024, { data := 7, dirty := true, wts := ⟨1, false⟩, rts := ⟨9, false⟩ })] } } : State).mem.l2.look 1024).isSome = true ∧ (sho 3).keep.owners.look (1024 / 1024) = some 0 ∧
    (4 ∉ dev.service.scheduled) ∧ 4 ∈ ({ dev with service := { scheduled := [4] } } : State).service.scheduled ∧
    ∃ n, (Map.get 0 [(Config.bankOf 4, n)] (Config.bankOf 4) < Config.spareRows ∨ Config.spareRows ≤ Map.get 0 [(Config.bankOf 4, n)] (Config.bankOf 4)) := by
  refine ⟨?_, rfl, by decide +kernel, by decide +kernel, by decide +kernel, by decide +kernel, 0, Nat.lt_or_ge _ _⟩
  intro u _
  simp [State.errorsOf, Map.get, Map.look, dev, State.reset]
theorem witness_ServiceAndRepair_units : ((ssv gr).core 0).service = true ∧ (ssv gr).blocksOn 0 = [(7, bk)] ∧ (dev.blocksOn 1 = []) ∧ ((ssv gr).core 1).left = some 0 ∧ ((ssv gr).core 1).service = false ∧ ((ssv gr).core 1).retired = false ∧ 0 + 4000000 ≤ (ssv gr).now ∧
    (ssv gr).boot = .stage2 ∧ State.reset.boot = .off ∧ (63 - 400 ∉ (ssv gr).service.slicesRetired) ∧ (∀ e ∈ (ssv gr).annex.insts, ¬ e.2.die = 0) ∧ (let s := fus ist; (20, ist) ∈ s.annex.insts ∧ ist.sx ≤ 15 / 16 ∧ 15 / 16 < ist.sx + ist.cols ∧ s.annex.regions.look 10 = some (rgn none)) ∧
    (let b : State := { ssv gr with mem := { dev.mem with owner := [(5, oreq (.store 0x20000 [1, 2]))] } }; (∀ e ∈ (ssv gr).mem.owner, ¬(e.2.queued = true ∧ e.2.die = 0)) ∧ (oreq (.store 0x20000 [1, 2])).die = 0 ∧ b.mem.owner = [(5, oreq (.store 0x20000 [1, 2]))] ∧ (oreq (.store 0x20000 [1, 2])).queued = true ∧ (Map.get [] (ssv gr).service.columns 0).length < 4) ∧
    (63 ∉ (ssv gr).service.slicesRetired) ∧ (ssv gr).mem.msgs = [] ∧ (ssv gr).mem.l2 = [] ∧
    (let q : PowerRequest := ⟨0, 2, 1⟩; (ssv gr).served q = [] ∧ (ssv gr).mem.landings = [] ∧ (fus { ist with ports := [(5, 0, 0, 0)] }).served q = [(20, { ist with ports := [(5, 0, 0, 0)] })]) ∧ (ssv gr).mayGate 0 = false ∧ dev.mayGate 0 = true := by decide +kernel

/-- A strand that stands at an `add` whose line the instruction cache holds; a sequencer and a port with a word; an event. -/
def gpc : Group := { gr with strands := [(0, { sd with pc := 0x10000 })] }
def sfe (w : Dword) : State := { on gpc with mem := { dev.mem with icache := [(1024, { data := w.setWidth 512, valid := BitVec.allOnes 64, wts := ⟨3, false⟩, rts := ⟨9, false⟩ })] } }
/-- An `add` that waits for a load, and one whose group's other strand has issued less recently. -/
def gst5 : Group := { gpc with ops := [{ op1 with regs := [5] }] }
def gtwo : Group := { gpc with strands := [(0, { sd with pc := 0x10000, last := some 9 }), (1, { sd with pc := 0x10000 })] }
def sof (g : Group) : State := { sfe 0x0400014140800400 with groups := [(0, g)], now := 20 }
theorem witness_StepRunsDecoded : (sfe 0x0400014140800400).strandAt ⟨0, 0, 0⟩ = some (gpc, { sd with pc := 0x10000 }) ∧ gpc.mayRun = true ∧ gpc.calling = false ∧ sd.wait = .ready ∧ (sfe 0x0400014140800400).fetch 0 gpc 0x10000 = .word 0x0400014140800400 3 ∧ (sfe 0).fetch 0 gpc 0x10000 = .word 0 3 ∧
    (sfe 0x0400014140800400).stalls ⟨0, 0, 0⟩ = false ∧ (sfe 0x0400014140800400).mayIssue ⟨0, 0, 0⟩ = true ∧ (sfe 0).mayIssue ⟨0, 0, 0⟩ = true ∧ (sof gst5).stalls ⟨0, 0, 0⟩ = true ∧ (sof gtwo).stalls ⟨0, 0, 0⟩ = false ∧ (sof gtwo).mayIssue ⟨0, 0, 0⟩ = false ∧
    (decodeCore 0x0400014140800400).isOk = true ∧ decodeCore 0 = .error .noInstruction ∧ (let q : Seq := { sq with prog := [0x04611000] }; q.stopped = false ∧ q.prog[q.pc]? = some 0x04611000 ∧ (decodeCompact 0x04611000).isOk = true) ∧
    (let g : Group := { gpc with strands := [(0, { sd with wait := .gate gte 0 5 }), (1, { sd with pc := 0x10000 })] }; let s : State := { sfe 0 with groups := [(0, g)] }; g.calling = true ∧ g.mayRun = true ∧ s.strandAt ⟨0, 0, 0⟩ = some (g, { sd with wait := .gate gte 0 5 }) ∧ s.strandAt ⟨0, 0, 1⟩ = some (g, { sd with pc := 0x10000 })) ∧
    (decodeStream seosw).isOk = true ∧ Instr.freqHalve.kind = .event ∧ (Instr.fuFadd ft).kind = .firing ∧ (sfe 0).schedule = [] ∧
    (let s := sfe 0; s.belfry.owed = [] ∧ s.belfry.launches = [] ∧ s.annex.regions = [] ∧ s.faults.awaiting = [] ∧ s.annex.insts = [] ∧ (s.settle.latch.advance 1).2 = true) := by decide +kernel
/-- A step that leads to a next state, and an instruction that is not the Curator's. -/
def goesOn : Host.Outcome State Fault Refusal → Bool
  | .next _ => true
  | _ => false
theorem witness_StepKeeps : goesOn (step (sfe 0x0400014140800400)) = true := by decide +kernel
theorem witness_OnlyTheCuratorWritesTables : curates .freqHalve = false ∧ goesOn (exec .freqHalve dev) = true := by decide +kernel
/-- A well-formed instruction of each kind, and words that decode. -/
theorem witness_DecodeAndEncodeAgree : (Instr.add (V 255 255 255 0 .n32)).wf = true ∧ (Instr.add (V 2 4 6 0 .n32)).kind = .core ∧ (Instr.seqAddi ⟨31, 31, 0xFFFF⟩).wf = true ∧ (Instr.seqAddi ⟨31, 31, 0xFFFF⟩).kind = .compact ∧
    (Instr.slin ⟨63, 0, 0xFFFFFFFFFFFF, 0x400⟩).wf = true ∧ (Instr.slin ⟨63, 0, 0, 0⟩).kind = .stream ∧ (decodeCore 0x0200000000000000).isOk = true ∧ (decodeStream seosw).isOk = true := by decide +kernel

end Sys2Proof.Tests
end

namespace Sys2Proof

theorem Map.rising_filter {α : Type} {m : Map α} {p : Nat × α → Bool} {lo : Option Nat} (h : Map.rising lo m = true) :
    Map.rising lo (m.filter p) = true := by
  induction m generalizing lo with
  | nil => rfl
  | cons e m ih =>
    simp only [Map.rising, Bool.and_eq_true] at h
    obtain ⟨above, rest⟩ := h
    rw [List.filter_cons]
    split
    · simp only [Map.rising, Bool.and_eq_true]
      exact ⟨above, ih rest⟩
    · refine ih (Map.rising_of_lt rest ?_ (by simp))
      rintro a b ⟨⟩ rfl
      exact (by simpa using above : b < e.1).le

/-- Leaving entries out keeps the canonical form. -/
theorem Map.wf_filter {α : Type} [DecidableEq α] {d : α} {m : Map α} {p : Nat × α → Bool} (h : Map.wf d m = true) : Map.wf d (m.filter p) = true := by
  simp only [Map.wf, Bool.and_eq_true, List.all_eq_true] at h ⊢
  obtain ⟨rising, listed⟩ := h
  exact ⟨Map.rising_filter rising, fun e he => listed e (List.mem_of_mem_filter he)⟩

end Sys2Proof

namespace Sys2Proof.Machine

/-! ### What every step keeps (R1, R393, R395)

`Steady s₀ s`: the device came from `s₀` to `s` without losing power, and kept what `Keeps` asks for. It composes, which `Keeps`
does not: between two states with power the power could have been lost. Every operation of the model carries it from the state
that it starts in to the one that it leaves, so each has one lemma, named after it, to be cited as `h.operation`. Only memory is
not left as it is: its bytes change through `MemSys.setByte` and by dropping the bytes of a granule, and both keep the canonical
form. -/

/-- With the power on throughout, the fuses, the anti-rollback counters, the time and the form of memory are kept. -/
structure Steady (s₀ s : State) : Prop where
  uds : s.keep.uds = s₀.keep.uds
  serial : s.keep.serial = s₀.keep.serial
  factory : s.keep.factory = s₀.keep.factory
  rollback : ∀ k, Map.get 0 s₀.keep.arb k ≤ Map.get 0 s.keep.arb k
  power : s₀.boot ≠ .off → s.boot ≠ .off ∧ s₀.now ≤ s.now
  memory : Memory.wf s₀.mem.bytes = true → Memory.wf s.mem.bytes = true

/-- An instruction or event that leads to a next state leads to a steady one. -/
def Steps (s₀ : State) (r : Res) : Prop := ∀ t, r = .next t → Steady s₀ t

/-- A state that may be there is a steady one. -/
def Gives (s₀ : State) (o : Option State) : Prop := ∀ t, o = some t → Steady s₀ t

section
variable {s₀ s t : State}

theorem Steady.refl (s : State) : Steady s s := ⟨rfl, rfl, rfl, fun _ => le_rfl, fun h => ⟨h, le_rfl⟩, id⟩

theorem Steady.keeps (h : Steady s t) : Keeps s t := ⟨h.uds, h.serial, h.factory, h.rollback, fun on _ => (h.power on).2, h.memory⟩

theorem Steady.trans_keeps (h : Steady s₀ s) (k : Keeps s t) : Keeps s₀ t where
  uds := k.uds.trans h.uds
  serial := k.serial.trans h.serial
  factory := k.factory.trans h.factory
  rollback n := (h.rollback n).trans (k.rollback n)
  time on on' := (h.power on).2.trans (k.time (h.power on).1 on')
  memory w := k.memory (h.memory w)

theorem Steady.ite {c : Prop} {_ : Decidable c} {a b : State} (ha : Steady s₀ a) (hb : Steady s₀ b) : Steady s₀ (if c then a else b) := by
  split
  · exact ha
  · exact hb

theorem Steady.fst {α : Type} {p : State × α} {x : α} (h : Steady s₀ p.1) (e : p = (t, x)) : Steady s₀ t := by subst e; exact h

theorem Steady.foldl {α : Type} {f : State → α → State} {xs : List α} (h : Steady s₀ s) (hf : ∀ s x, Steady s₀ s → Steady s₀ (f s x)) :
    Steady s₀ (xs.foldl f s) :=
  List.foldlRecOn xs f h fun s hs x _ => hf s x hs

/-- A fold over something that holds a state. -/
theorem Steady.foldl_on {α β : Type} (get : β → State) {f : β → α → β} {xs : List α} {b : β} (h : Steady s₀ (get b))
    (hf : ∀ b x, Steady s₀ (get b) → Steady s₀ (get (f b x))) : Steady s₀ (get (xs.foldl f b)) :=
  List.foldlRecOn xs f (motive := fun b => Steady s₀ (get b)) h fun b hb x _ => hf b x hb

/-- A fold that carries something else along. -/
theorem Steady.foldl_fst {α β : Type} {f : State × β → α → State × β} {xs : List α} {p : State × β} (h : Steady s₀ p.1)
    (hf : ∀ p x, Steady s₀ p.1 → Steady s₀ (f p x).1) : Steady s₀ (xs.foldl f p).1 := h.foldl_on Prod.fst hf

theorem Steps.next (h : Steady s₀ t) : Steps s₀ (.next t) := by
  intro u e
  injection e with e
  exact e ▸ h

theorem Steps.fault {x : Fault} : Steps s₀ (.fault x) := by
  intro u e
  cases e

theorem Steps.ite {c : Prop} {_ : Decidable c} {a b : Res} (ha : Steps s₀ a) (hb : Steps s₀ b) : Steps s₀ (if c then a else b) := by
  split
  · exact ha
  · exact hb

theorem Gives.some (h : Steady s₀ t) : Gives s₀ (some t) := by
  intro u e
  injection e with e
  exact e ▸ h

theorem Gives.none : Gives s₀ none := by
  intro u e
  cases e

theorem Gives.ite {c : Prop} {_ : Decidable c} {a b : Option State} (ha : Gives s₀ a) (hb : Gives s₀ b) : Gives s₀ (if c then a else b) := by
  split
  · exact ha
  · exact hb

theorem Gives.getD {o : Option State} (ho : Gives s₀ o) (h : Steady s₀ s) : Steady s₀ (o.getD s) := by
  cases o with
  | none => exact h
  | some t => exact ho t rfl

/-- What a plain update may change: anything but the power, the time, the bytes of memory, the fuses and the counters. -/
theorem Steady.same (h : Steady s₀ s) {schedule agent fresh nextId phase sweeping cores groups blocks copies jobs gaths annex belfry domains faults
    links service bad forged l2 badL2 mts spread l1 icache tlb msgs owner nodes xclk landings freq freqAt counters revoke romOk idPub devKey
    operatorKey firmware firstStack owners reports report certificate failure private_ kernels telemetry ringRead gateReport} :
    Steady s₀ { s with
      schedule := schedule, agent := agent, fresh := fresh, nextId := nextId, phase := phase, sweeping := sweeping, cores := cores, groups := groups
      blocks := blocks, copies := copies, jobs := jobs, gaths := gaths, annex := annex, belfry := belfry, domains := domains, faults := faults
      links := links, service := service
      mem := { s.mem with
        bad := bad, forged := forged, l2 := l2, badL2 := badL2, mts := mts, spread := spread, l1 := l1, icache := icache, tlb := tlb, msgs := msgs
        owner := owner, nodes := nodes, xclk := xclk, landings := landings, freq := freq, freqAt := freqAt, telemetry := counters }
      keep := { s.keep with
        revoke := revoke, romOk := romOk, idPub := idPub, devKey := devKey, operatorKey := operatorKey, firmware := firmware, firstStack := firstStack
        owners := owners, reports := reports, report := report, certificate := certificate, failure := failure, private_ := private_
        kernels := kernels, telemetry := telemetry, ringRead := ringRead, gateReport := gateReport } } :=
  ⟨h.uds, h.serial, h.factory, h.rollback, h.power, h.memory⟩

/-- Another memory in canonical form. -/
theorem Steady.withMem {m : MemSys} (h : Steady s₀ s) (hm : Memory.wf s.mem.bytes = true → Memory.wf m.bytes = true) :
    Steady s₀ { s with mem := m } :=
  ⟨h.uds, h.serial, h.factory, h.rollback, h.power, fun w => hm (h.memory w)⟩

/-! ### Registers, groups, faults and the service ring (Ops) -/

theorem Steady.setCore (h : Steady s₀ s) {c x} : Steady s₀ (s.setCore c x) := h.same
theorem Steady.onCore (h : Steady s₀ s) {c f} : Steady s₀ (s.onCore c f) := h.same
theorem Steady.setGroup (h : Steady s₀ s) {k g} : Steady s₀ (s.setGroup k g) := h.same
theorem Steady.onGroup (h : Steady s₀ s) {k f} : Steady s₀ (s.onGroup k f) := h.same
theorem Steady.setBlock (h : Steady s₀ s) {k b} : Steady s₀ (s.setBlock k b) := h.same
theorem Steady.onBlock (h : Steady s₀ s) {k f} : Steady s₀ (s.onBlock k f) := h.same
theorem Steady.setDomain (h : Steady s₀ s) {d x} : Steady s₀ (s.setDomain d x) := h.same
theorem Steady.serve (h : Steady s₀ s) {k c u d a} : Steady s₀ (s.serve k c u d a) := h.same
theorem Steady.serveUnit (h : Steady s₀ s) {u d} : Steady s₀ (s.serveUnit u d) := h.serve
theorem Steady.serveBad (h : Steady s₀ s) {l d} : Steady s₀ (s.serveBad l d) := h.serveUnit
theorem Steady.reportChanged (h : Steady s₀ s) : Steady s₀ s.reportChanged := h.same
theorem Steady.tagFails (h : Steady s₀ s) {pa d} : Steady s₀ (s.tagFails pa d) := h.ite h.setDomain.reportChanged
theorem Steady.logBad (h : Steady s₀ s) {l d} : Steady s₀ (s.logBad l d) := Steady.serveBad (.ite h.tagFails h)

theorem Steady.sendFlit (h : Steady s₀ s) {p} : Steady s₀ (s.sendFlit p) := by
  obtain ⟨l, e⟩ := s.sendFlit_eq p
  rw [e]
  exact h.same

theorem Steady.raise (h : Steady s₀ s) {r} : Steady s₀ (s.raise r) := h.same
theorem Steady.cancelJobs (h : Steady s₀ s) {k} : Steady s₀ (s.cancelJobs k) := h.same.onGroup
theorem Steady.terminate (h : Steady s₀ s) {l} : Steady s₀ (s.terminate l) := (h.foldl fun _ _ h => h.cancelJobs.onGroup).same.same

theorem Steady.takeFault (h : Steady s₀ s) {r pc f callee} : Steady s₀ (s.takeFault r pc f callee) := by
  unfold State.takeFault
  dsimp only
  split
  · exact h
  · exact h.same.raise.setGroup

section
variable {c : Ctx} (h : Steady s₀ c.s)
include h
theorem Steady.finish {g} : Steps s₀ (c.finish g) := .next h.setGroup
theorem Steady.branch {g pc} : Steps s₀ (c.branch g pc) := .next h.setGroup
theorem Steady.await {w} : Steps s₀ (c.await w) := .next h.setGroup
theorem Steady.stall : Steps s₀ c.stall := .next h
theorem Steady.fault {f} : Steps s₀ (c.fault f) := .next h.takeFault
end
theorem Steady.finishIn (h : Steady s₀ s) {c : Ctx} {g} : Steps s₀ (c.finishIn s g) := .next h.setGroup

/-- An instruction of a strand: what issues does so in a steady state. -/
theorem Steady.issue (h : Steady s₀ s) {i k} (hk : ∀ c : Ctx, Steady s₀ c.s → Steps s₀ (k c)) : Steps s₀ (issue i s k) := by
  unfold Machine.issue
  split
  · split
    · exact .fault
    · exact .ite (.next h.takeFault) (.ite (.next h.takeFault) (.ite (.next h) (hk _ (.ite h h.same))))
  · exact .fault

/-! ### Memory, the L2 and the copies (Mem) -/

theorem Steady.setMts (h : Steady s₀ s) {n x} : Steady s₀ (s.setMts n x) := h.same

theorem MemSys.dropL2_wf {m : MemSys} {l x w} (hm : Memory.wf m.bytes = true) : Memory.wf (m.dropL2 l x w).bytes = true := by
  unfold MemSys.dropL2
  dsimp only
  split
  · exact hm
  · split
    · exact hm
    · exact MemSys.setLine_wf _ _ _ _ hm

theorem MemSys.addLeaf_bytes {m : MemSys} {b k x} : (m.addLeaf b k x).bytes = m.bytes := by
  unfold MemSys.addLeaf
  dsimp only
  split_ifs <;> rfl

theorem Steady.dropL2 (h : Steady s₀ s) {l x w} : Steady s₀ { s with mem := s.mem.dropL2 l x w } := h.withMem MemSys.dropL2_wf

theorem Steady.evictLine (h : Steady s₀ s) {l w n} : Steady s₀ (s.evictLine l w n) := by
  unfold State.evictLine
  split
  · exact h
  · exact .setMts (.ite h.dropL2.sendFlit h.dropL2)

theorem Steady.setHome (h : Steady s₀ s) {l x} : Steady s₀ (s.setHome l x) := Steady.ite h.same.evictLine h.same
theorem Steady.setL1 (h : Steady s₀ s) {c l x} : Steady s₀ (s.setL1 c l x) := h.ite h.same

theorem Steady.dropCopy (h : Steady s₀ s) {c l} : Steady s₀ (s.dropCopy c l) := by
  unfold State.dropCopy
  split
  · exact h
  · exact .ite h.same h.same

theorem Steady.dropFetch (h : Steady s₀ s) {c l} : Steady s₀ (s.dropFetch c l) := h.same
theorem Steady.dropCore (h : Steady s₀ s) {c} : Steady s₀ (s.dropCore c) := h.same

theorem Steady.ackCopy (h : Steady s₀ s) {c l id p t d m} : Steady s₀ (s.ackCopy c l id p t d m) := by
  unfold State.ackCopy
  split
  · exact h
  · exact .ite h.setL1 (.ite h.same h.setL1)

theorem Steady.logBadAt (h : Steady s₀ s) {d va} : Steady s₀ (s.logBadAt d va) := by
  unfold State.logBadAt
  split <;> exact h.logBad

theorem Steady.logWalk (h : Steady s₀ s) {d f} : Steady s₀ (s.logWalk d f) := by
  unfold State.logWalk
  split
  · exact h.logBad
  · exact h

theorem Steady.walkFault {c : Ctx} (h : Steady s₀ c.s) {f} : Steps s₀ (c.walkFault f) := .next h.logWalk.takeFault
theorem Steady.dropLeaf (h : Steady s₀ s) {k} : Steady s₀ (s.dropLeaf k) := h.same

theorem Steady.learn (h : Steady s₀ s) {d va w} : Steady s₀ (s.learn d va w) := by
  unfold State.learn
  split
  · exact h
  · split
    · refine h.withMem fun w => ?_
      repeat' split
      all_goals simpa only [MemSys.addLeaf_bytes] using w
    · exact h

theorem Steady.setLine (h : Steady s₀ s) {l d m} : Steady s₀ { s with mem := s.mem.setLine l d m } := h.withMem (MemSys.setLine_wf _ _ _ _)
theorem Steady.setBytes (h : Steady s₀ s) {pa bs} : Steady s₀ { s with mem := s.mem.setBytes pa bs } := h.withMem (MemSys.setBytes_wf _ _ _)

/-! ### Results in registers, strands and barriers (Operands, Strands) -/

theorem Steady.runV {c : Ctx} (h : Steady s₀ c.s) {f t w fn} : Steps s₀ (runV f t w c fn) := .ite h.finish h.finish
theorem Steady.runP {c : Ctx} (h : Steady s₀ c.s) {f fn} : Steps s₀ (runP f c fn) := .ite h.finish h.finish
theorem Steady.pair (h : Steady s₀ s) {α : Type} {x : α} : Steady s₀ (s, x).1 := h

theorem Steady.tail (h : Steady s₀ s) {c g r} : Steady s₀ (s.tail c g r).1 := by
  unfold State.tail
  split
  · exact .pair h.onCore
  · exact h

theorem Steady.eject (h : Steady s₀ s) {c g r} : Steady s₀ (s.eject c g r).1 := by
  unfold State.eject
  split
  · exact h
  · exact h.tail

theorem Steady.noteArrivals (h : Steady s₀ s) {b k gs} : Steady s₀ (s.noteArrivals b k gs) := h.ite h.onBlock
theorem Steady.barComplete (h : Steady s₀ s) {b k} : Steady s₀ (s.barComplete b k) :=
  Steady.ite (h.noteArrivals.foldl fun _ _ h => h.ite h.onGroup).onBlock h.noteArrivals
theorem Steady.barriers (h : Steady s₀ s) {b} : Steady s₀ (s.barriers b) := h.foldl fun _ _ h => h.barComplete

/-! ### Accesses and frames (Access, Frames) -/

theorem Steady.access (h : Steady s₀ s) {i k} (hk : ∀ c : Ctx, Steady s₀ c.s → Steps s₀ (k c)) : Steps s₀ (access i s k) :=
  h.issue fun _ h => .ite h.stall (hk _ h)

theorem Steady.plan (h : Steady s₀ s) {d n w ls} : Steady s₀ (s.plan d n w ls).s :=
  List.foldlRecOn ls _ (motive := fun p : LanePlan => Steady s₀ p.s) h fun p hp e _ => by
    split
    · exact hp.learn
    · exact hp

/-- The lanes of an access perform in a steady state, and what they leave is steady. -/
theorem Steady.lanewise {p : LanePlan} (h : Steady s₀ p.s) {c : Ctx} {bad perform} (hp : ∀ s g good, Steady s₀ s → Steady s₀ (perform s g good).1) :
    Steps s₀ (c.lanewise p bad perform) := by
  have logged := h.foldl (xs := p.bad) (f := fun s e => s.logWalk c.g.domain e.2) fun _ _ h => h.logWalk
  unfold Ctx.lanewise
  dsimp only
  split
  · exact (hp _ _ _ logged).finishIn
  · split
    · exact .next (hp _ _ _ (.ite logged.same logged)).setGroup
    · exact .next (hp _ _ _ (.ite logged.same logged)).setGroup.takeFault

theorem Steady.send (h : Steady s₀ s) {m} : Steady s₀ (s.send m).2 := h.same
theorem Steady.toPeer (h : Steady s₀ s) {l} : Steady s₀ (s.toPeer l) := h.sendFlit.ite h
theorem Steady.sendOwner (h : Steady s₀ s) {f pa w va l} : Steady s₀ (s.sendOwner f pa w va l) := h.same.toPeer
theorem Steady.taint (h : Steady s₀ s) {b o n y} : Steady s₀ (s.taint b o n y) := h.ite h.same
theorem Steady.spadWrite (h : Steady s₀ s) {b o xs y} : Steady s₀ (s.spadWrite b o xs y) := h.taint.onBlock
theorem Steady.bring (h : Steady s₀ s) {l x n} : Steady s₀ (s.bring l x n) := h.ite h.send.toPeer
theorem Steady.useUp (h : Steady s₀ s) {ls} : Steady s₀ (s.useUp ls) := h.same
theorem Steady.bringAll (h : Steady s₀ s) {ls} : Steady s₀ (s.bringAll ls) := h.foldl fun _ _ h => h.bring
theorem Steady.ordered {c : Ctx} (h : Steady s₀ c.s) {o x k} (hk : ∀ c : Ctx, Steady s₀ c.s → Steps s₀ (k c)) : Steps s₀ (c.ordered o x k) :=
  .ite (hk _ h) h.stall
theorem Steady.growTouch (h : Steady s₀ s) {c q} : Steady s₀ (s.growTouch c q) := h.onCore

theorem Steady.leaveFrame (h : Steady s₀ s) {k a} : Steady s₀ (s.leaveFrame k a) := by
  unfold State.leaveFrame
  split
  · exact h
  · split
    · exact h
    · exact .setGroup (h.onCore.onCore.growTouch.ite h.onCore.onCore)

theorem Steady.abortFrames (h : Steady s₀ s) {k n} : Steady s₀ (s.abortFrames k n) := by
  induction n generalizing s with
  | zero => exact h
  | succ n ih =>
    unfold State.abortFrames
    split
    · next e _ =>
      cases e
      exact h.ite (.ite (ih h.leaveFrame) h.onGroup)
    · exact h

theorem Steady.abortFramesOf (h : Steady s₀ s) {k d} : Steady s₀ (s.abortFramesOf k d) := by
  unfold State.abortFramesOf
  split
  · exact h
  · exact .ite h.setGroup.abortFrames h

/-! ### Lines at their home (Home) -/

theorem Steady.setMsg (h : Steady s₀ s) {i m} : Steady s₀ (s.setMsg i m) := h.same
theorem Steady.delMsg (h : Steady s₀ s) {i} : Steady s₀ (s.delMsg i) := h.same
theorem Steady.setNode (h : Steady s₀ s) {d n x} : Steady s₀ (s.setNode d n x) := h.same
theorem Steady.noteClass (h : Steady s₀ s) {d n pa k c} : Steady s₀ (s.noteClass d n pa k c) := h.setNode
theorem Steady.noteMisuse (h : Steady s₀ s) {d n} : Steady s₀ (s.noteMisuse d n) := h.setNode
theorem Steady.nodeStore (h : Steady s₀ s) {pa bs} : Steady s₀ (s.nodeStore pa bs) := h.noteMisuse.ite h.setBytes.noteClass
theorem Steady.countClass (h : Steady s₀ s) {l c} : Steady s₀ (s.countClass l c) := h.ite h.same
theorem Steady.forward (h : Steady s₀ s) {l a} : Gives s₀ (s.forward l a) := .ite (.some h) (.ite .none (.some h.evictLine))
theorem Steady.putHome (h : Steady s₀ s) {l x k} : Steady s₀ (s.putHome l x k) := h.setHome.ite (.ite h.setMts.setLine h.setMts)
theorem Steady.own (h : Steady s₀ s) {l x} : Steady s₀ (s.own l x) := Steady.ite h.same h

theorem Steady.writeAtHome (h : Steady s₀ s) {l x c d m k} : Steady s₀ (s.writeAtHome l x c d m k).1 := by
  unfold State.writeAtHome
  dsimp only
  split
  · exact h.setLine.setMts
  · exact .putHome (.ite h.same h)

theorem Steady.perform (h : Steady s₀ s) {i m x k} : Steady s₀ (s.perform i m x k) := by
  unfold State.perform
  dsimp only
  split
  · exact h.countClass.writeAtHome.setMsg
  · exact h.countClass.writeAtHome.setMsg
  · split
    · exact h.countClass.logBad.setMsg
    · split
      · exact h.countClass.writeAtHome.setMsg
      · exact h.countClass.writeAtHome.setMsg
      · exact h.countClass.putHome.setMsg

theorem Steady.reachHome (h : Steady s₀ s) {i w} : Steady s₀ (s.reachHome i w) := by
  unfold State.reachHome
  split
  · exact h
  · refine h.ite (.ite ?_ ?_)
    · split
      · exact h
      · exact (h.forward _ ‹_›).setMsg.same.toPeer
    · dsimp only
      split
      · exact h.perform.same
      · exact h.perform

theorem Steady.execHomeRenew (h : Steady s₀ s) {i} : Steps s₀ (execHomeRenew i s) := .next h.reachHome
theorem Steady.execHomeStore (h : Steady s₀ s) {i} : Steps s₀ (execHomeStore i s) := .next h.reachHome
theorem Steady.execHomeAtomic (h : Steady s₀ s) {i} : Steps s₀ (execHomeAtomic i s) := .next h.reachHome

theorem Steady.ownerAnswers (h : Steady s₀ s) {i m d} : Steady s₀ (s.ownerAnswers i m d) := by
  unfold State.ownerAnswers
  split
  · exact .ite h.setMsg h.setHome.own.delMsg
  · exact .ite h.perform.evictLine h.perform.own

theorem Steady.ownerRefuses (h : Steady s₀ s) {i m} : Steady s₀ (s.ownerRefuses i m) := h.setMsg

theorem Steady.execCxlProxyFill (h : Steady s₀ s) {i d e} : Steps s₀ (execCxlProxyFill i d e s) := by
  unfold Machine.execCxlProxyFill
  split
  · exact .next h
  · exact .ite (.next h) (.ite (.next h.ownerRefuses) (.next h.ownerAnswers))

theorem Steady.execCxlGlobalObservation (h : Steady s₀ s) {x} : Steps s₀ (execCxlGlobalObservation x s) := by
  unfold Machine.execCxlGlobalObservation
  split
  · exact .next h
  · exact .ite (.next h) (.ite (.next h.ownerRefuses) (.next h.perform))

/-! Operations that a reply counts down, and the answers delivered. -/

theorem Steady.dataFault (h : Steady s₀ s) {m} : Steady s₀ (s.dataFault m) := h.takeFault

theorem Steady.reportOp (h : Steady s₀ s) {k o} : Steady s₀ (s.reportOp k o) := by
  unfold State.reportOp
  split
  · exact h
  · exact h.onGroup.takeFault

theorem Steady.partDone (h : Steady s₀ s) {k o n} : Steady s₀ (s.partDone k o n) := by
  unfold State.partDone
  split
  · exact h
  · refine Steady.abortFrames ?_
    split
    · exact .ite h.setGroup.barriers.reportOp h.setGroup.barriers
    · exact h.setGroup.barriers

theorem Steady.partBad (h : Steady s₀ s) {k o xs} : Steady s₀ (s.partBad k o xs) := h.onGroup.partDone
theorem Steady.fillFetch (h : Steady s₀ s) {c l w r d} : Steady s₀ (s.fillFetch c l w r d) := h.same

theorem Steady.fill (h : Steady s₀ s) {i m w d b} : Steady s₀ (s.fill i m w d b) := by
  replace h := h.delMsg (i := i)
  unfold State.fill
  dsimp only
  split
  case h_1 =>
    split
    · split
      · exact .ite h.dataFault h
      · exact h
    · split
      · exact .ite h h.fillFetch
      · exact h.fillFetch
  case h_2 =>
    split
    · split
      · exact h
      · exact h.setGroup.partBad
    · split
      · exact .ite h.setL1 h
      · exact (Steady.ite h.setL1 h).setGroup.partDone
  case h_3 =>
    split
    · exact h
    · exact h.ite (.ite h.dataFault (h.ite h.setGroup))
  case h_4 =>
    refine .ite h.partBad ?_
    split
    · exact h.setL1
    · exact h.setL1.setGroup.partDone
  case h_5 => exact h

theorem Steady.execFill (h : Steady s₀ s) {i} : Steps s₀ (execFill i s) := by
  unfold Machine.execFill
  split
  · exact .next h
  · split
    · exact .ite (.next h.fill) (.next h)
    · exact .next h

theorem Steady.markAcked (h : Steady s₀ s) {i t} : Steady s₀ (s.markAcked i t) := h.same

theorem Steady.copyAcked (h : Steady s₀ s) {c o t} : Steady s₀ (s.copyAcked c o t) := by
  unfold State.copyAcked
  dsimp only
  split
  · exact h.same
  · exact .ite (Steady.partDone (.onGroup h.same)) (.partDone h.same)

theorem Steady.storeAck (h : Steady s₀ s) {i m t p d b} : Steady s₀ (s.storeAck i m t p d b) := by
  replace h := h.delMsg (i := i)
  unfold State.storeAck
  dsimp only
  refine .ite ?_ ?_
  · split
    · exact h.onGroup.copyAcked
    · exact h.onGroup.partDone
  · split
    · exact h.ackCopy.onGroup.copyAcked
    · exact h.ackCopy.onGroup.markAcked.partDone

theorem Steady.execStoreAck (h : Steady s₀ s) {i} : Steps s₀ (execStoreAck i s) := by
  unfold Machine.execStoreAck
  split
  · exact .next h
  · split
    · exact .ite (.next h.storeAck) (.next h)
    · exact .next h

theorem Steady.atomicDone (h : Steady s₀ s) {i m t p d b} : Steady s₀ (s.atomicDone i m t p d b) := by
  replace h := h.delMsg (i := i)
  unfold State.atomicDone
  dsimp only
  split
  · exact .ite h.partBad h.onGroup.ackCopy.partDone
  · exact .ite h.partBad h.onGroup.ackCopy.partDone
  · exact h

theorem Steady.execAtomicComplete (h : Steady s₀ s) {i} : Steps s₀ (execAtomicComplete i s) := by
  unfold Machine.execAtomicComplete
  split
  · exact .next h
  · split
    · exact .ite (.next h.atomicDone) (.next h)
    · exact .next h

theorem Steady.execL2Evict (h : Steady s₀ s) {l} : Steps s₀ (execL2Evict l s) := .next h.evictLine
theorem Steady.execHostSnoop (h : Steady s₀ s) {l} : Steps s₀ (execHostSnoop l s) := .ite (.next h.evictLine) (.next h)

/-- A later time. -/
theorem Steady.later (h : Steady s₀ s) {n} (hn : s.now ≤ n) : Steady s₀ { s with now := n } :=
  ⟨h.uds, h.serial, h.factory, h.rollback, fun on => ⟨(h.power on).1, (h.power on).2.trans hn⟩, h.memory⟩

theorem Gives.map {α : Type} {o : Option α} {f : α → State} (hf : ∀ x, Steady s₀ (f x)) : Gives s₀ (o.map f) := by
  cases o with
  | none => exact .none
  | some x => exact .some (hf x)

/-! ### The device's own accesses (Graph)

What such an access leaves is steady, whether it is done, waits or fails. -/

def DeviceAccess.After (s₀ : State) : DeviceAccess → Prop
  | .done s _ => Steady s₀ s
  | .wait s => Steady s₀ s
  | .bad s => Steady s₀ s

def DeviceRead.After (s₀ : State) : DeviceRead → Prop
  | .wait s => Steady s₀ s
  | _ => True

theorem DeviceAccess.After.ite {c : Prop} {_ : Decidable c} {a b : DeviceAccess} (ha : a.After s₀) (hb : b.After s₀) :
    (if c then a else b).After s₀ := by
  split
  · exact ha
  · exact hb

theorem DeviceAccess.After.of_done {a : DeviceAccess} {n : Time} (h : a.After s₀) (e : a = .done t n) : Steady s₀ t := by
  subst e
  exact h
theorem DeviceAccess.After.of_wait {a : DeviceAccess} (h : a.After s₀) (e : a = .wait t) : Steady s₀ t := by
  subst e
  exact h
theorem DeviceAccess.After.of_bad {a : DeviceAccess} (h : a.After s₀) (e : a = .bad t) : Steady s₀ t := by
  subst e
  exact h
theorem DeviceRead.After.of_wait {r : DeviceRead} (h : r.After s₀) (e : r = .wait t) : Steady s₀ t := by
  subst e
  exact h

theorem Steady.withLine (h : Steady s₀ s) {l x r k} (hk : ∀ s, Steady s₀ s → DeviceAccess.After s₀ (k s)) : (s.withLine l x r k).After s₀ :=
  .ite (show Steady _ _ from h) (.ite (show Steady _ _ from h.useUp) (.ite (show Steady _ _ from h.bring) (hk s h)))

theorem Steady.arriveAtPeer (h : Steady s₀ s) {l o i c g} : (s.arriveAtPeer l o i c g).After s₀ := by
  unfold State.arriveAtPeer
  split
  · split
    · exact h
    · exact (h.forward _ ‹_›).send.toPeer
  · split
    · split
      · exact h.delMsg
      · exact h.delMsg
    · exact h

theorem Steady.arriveAt (h : Steady s₀ s) {pa i c g} : (s.arriveAt pa i c g).After s₀ :=
  .ite h.arriveAtPeer (h.withLine fun _ h => h.writeAtHome)

theorem Steady.deviceArrive (h : Steady s₀ s) {d va i c g} : (s.deviceArrive d va i c g).After s₀ := by
  unfold State.deviceArrive
  split
  · exact h
  · split
    · exact h
    · exact h.learn.arriveAt

theorem Steady.deviceStore (h : Steady s₀ s) {pa n bs c} : (s.deviceStore pa n bs c).After s₀ :=
  .ite (.ite (show Steady _ _ from h.sendOwner) (show Steady _ _ from h.nodeStore)) (h.withLine fun _ h => h.writeAtHome)

theorem Steady.deviceRead (h : Steady s₀ s) {d va n w} : (s.deviceRead d va n w).After s₀ := by
  unfold State.deviceRead
  split
  · trivial
  · split
    · trivial
    · split
      · exact h.bringAll
      · trivial

theorem Steady.leaseLine (h : Steady s₀ s) {l n r e} : Steady s₀ (s.leaseLine l n r e) := h.ite h.setHome

/-! ### Queues, completions and the end of regions (Complete) -/

theorem Steady.onQueue (h : Steady s₀ s) {k f} : Steady s₀ (s.onQueue k f) := h.same
theorem Steady.onLaunch (h : Steady s₀ s) {k f} : Steady s₀ (s.onLaunch k f) := h.same
theorem Steady.onRegion (h : Steady s₀ s) {k f} : Steady s₀ (s.onRegion k f) := h.same
theorem Steady.onInst (h : Steady s₀ s) {k f} : Steady s₀ (s.onInst k f) := h.same
theorem Steady.setPort (h : Steady s₀ s) {k x} : Steady s₀ (s.setPort k x) := h.same
theorem Steady.onPort (h : Steady s₀ s) {k f} : Steady s₀ (s.onPort k f) := h.same
theorem Steady.setSeq (h : Steady s₀ s) {k x} : Steady s₀ (s.setSeq k x) := h.same

theorem Steady.storeAt (h : Steady s₀ s) {d va bs c} : (s.storeAt d va bs c).After s₀ := by
  unfold State.storeAt
  split
  · exact h
  · exact h.learn.deviceStore

theorem Steady.raiseLaunch (h : Steady s₀ s) {q n d c va l r f} : Steady s₀ (s.raiseLaunch q n d c va l r f) := h.same.raise

theorem Steady.completedNow (h : Steady s₀ s) {q} : (s.completedNow q).After s₀ := by
  unfold State.completedNow
  split
  · trivial
  · exact h.deviceRead

theorem Steady.countCompleted (h : Steady s₀ s) {q n} : Steady s₀ (s.countCompleted q n).1 := by
  unfold State.countCompleted
  split
  · exact h
  · dsimp only
    split
    · exact h.completedNow.of_wait ‹_›
    · exact h.onQueue
    · split
      · exact h.storeAt.of_wait ‹_›
      · exact (h.storeAt.of_done ‹_›).onQueue
      · exact (h.storeAt.of_bad ‹_›).onQueue

theorem Steady.pay (h : Steady s₀ s) {o} : Steady s₀ (s.pay o).1 := by
  unfold State.pay
  split
  · exact h
  · split
    · exact h.storeAt.of_wait ‹_›
    · exact h.storeAt.of_done ‹_›
    · exact h.storeAt.of_bad ‹_›
  · split
    · exact h.deviceArrive.of_wait ‹_›
    · exact h.deviceArrive.of_done ‹_›
    · exact (h.deviceArrive.of_bad ‹_›).raiseLaunch
  · exact h.countCompleted
  · split
    · exact h.deviceArrive.of_wait ‹_›
    · exact h.deviceArrive.of_done ‹_›
    · split
      · exact (h.deviceArrive.of_bad ‹_›).serve
      · exact h.deviceArrive.of_bad ‹_›

theorem Steady.payAll (h : Steady s₀ s) : Steady s₀ s.payAll := by
  refine Steady.foldl h.same fun s o h => .ite h.same ?_
  split
  · exact h.pay.fst ‹_›
  · exact (h.pay.fst ‹_›).same

theorem Steady.owe (h : Steady s₀ s) {xs} : Steady s₀ (s.owe xs) := h.same.payAll
theorem Steady.signal (h : Steady s₀ s) {d va c r} : Steady s₀ (s.signal d va c r) := h.same.owe
theorem Steady.completePacket (h : Steady s₀ s) {q n d x c r} : Steady s₀ (s.completePacket q n d x c r) := h.same.owe
theorem Steady.forgetStarts (h : Steady s₀ s) {p} : Steady s₀ (s.forgetStarts p) := h.same

theorem Steady.dispatchHead (h : Steady s₀ s) {q} : Steady s₀ (s.dispatchHead q) := by
  unfold State.dispatchHead
  split
  · exact h
  · split
    · exact h
    · exact h.forgetStarts.onQueue.owe

theorem Steady.tryLaunch (h : Steady s₀ s) {l} : Steady s₀ (s.tryLaunch l) := by
  unfold State.tryLaunch
  split
  · exact h
  · refine h.ite (Steady.completePacket (.same ?_))
    split
    · split
      · exact .ite h.dispatchHead h
      · exact h
    · exact h

theorem Steady.raiseRegion (h : Steady s₀ s) {r n x y c o f va d p} : Steady s₀ (s.raiseRegion r n x y c o f va d p) := by
  unfold State.raiseRegion
  split
  · exact h
  · exact h.same.raise

theorem Steady.retireOutputs (h : Steady s₀ s) {d rs} : Steady s₀ (s.retireOutputs d rs).1 := Steady.foldl h fun _ _ h => h.evictLine

theorem Steady.releaseInst (h : Steady s₀ s) {i} : Steady s₀ (s.releaseInst i) := by
  unfold State.releaseInst
  split
  · exact h
  · exact h.same

theorem Steady.tryRegion (h : Steady s₀ s) {r} : Steady s₀ (s.tryRegion r) := by
  unfold State.tryRegion
  split
  · exact h
  · exact .ite h h.onRegion.completePacket

theorem Steady.endRegion (h : Steady s₀ s) {r x} : Steady s₀ (s.endRegion r x) := by
  unfold State.endRegion
  split
  · exact h
  · exact h.ite (Steady.tryRegion (.same (.onRegion (h.retireOutputs.foldl fun _ _ h => h.releaseInst))))

theorem Steady.failRegion (h : Steady s₀ s) {r n x y c o va d p} : Steady s₀ (s.failRegion r n x y c o va d p) := h.raiseRegion.endRegion
theorem Steady.settle (h : Steady s₀ s) : Steady s₀ s.settle :=
  (Steady.foldl (h.ite h.payAll) fun _ _ h => .ite h.tryLaunch h).foldl fun _ _ h => .ite h.tryRegion h

theorem Steady.blockElem (h : Steady s₀ s) {i x y c e o} : Steady s₀ (s.blockElem i x y c e o) := by
  unfold State.blockElem
  split
  · exact h
  · exact h.failRegion

/-! ### Tokens, permits and stages of the annex (Token) -/

theorem Steady.popSource (h : Steady s₀ s) {i n r} : Steady s₀ (s.popSource i n r) := by
  unfold State.popSource
  split
  · exact h.onInst
  · exact h.onInst
  · exact h.onPort
  · exact h.onRegion
  · exact h.onPort
  · split
    · exact h.setSeq
    · exact h

theorem Steady.moveSource (h : Steady s₀ s) {i n r} : Gives s₀ (s.moveSource i n r) := by
  unfold State.moveSource
  split
  · exact .none
  · split
    · exact .none
    · exact .ite (.some h.popSource.onInst) .none

theorem Steady.frameWrite (h : Steady s₀ s) {i r k n b x} : Gives s₀ (s.frameWrite i r k n b x) := by
  unfold State.frameWrite
  dsimp only
  split
  · exact .none
  · split
    · exact .none
    · exact .ite (.some h.onInst) (.ite (.some h.blockElem) (.some h.onInst))

theorem Steady.deliverHead (h : Steady s₀ s) {i r k n b} : Gives s₀ (s.deliverHead i r k n b) := by
  unfold State.deliverHead
  dsimp only
  split
  · exact .none
  · split
    · exact .ite h.frameWrite .none
    · exact .ite (.some h.onInst.onInst) .none
    · split
      · exact .none
      · exact .ite (.some h.onInst.onPort) .none
    · split
      · exact .none
      · exact .ite (.some h.onInst.onRegion) (.ite .none (.some h.onInst.onRegion))
    · exact .none

theorem Steady.tokenMove (h : Steady s₀ s) {r} : Gives s₀ (s.tokenMove r) := by
  unfold State.tokenMove
  split
  · exact .none
  · refine .ite .none (.ite h.moveSource ?_)
    split
    · exact .none
    · exact .ite (.map fun _ => h.onInst) (.ite h.deliverHead .none)

theorem Steady.execTokenMove (h : Steady s₀ s) {r} : Steps s₀ (execTokenMove r s) := .next (h.tokenMove.getD h)

theorem Steady.streamOut (h : Steady s₀ s) {x} : Gives s₀ (s.streamOut x) := by
  unfold State.streamOut
  split
  · exact .none
  · split
    · exact .none
    · refine .ite .none ?_
      dsimp only
      split
      · exact .none
      · exact .some h.onInst

theorem Steady.execTileStreamOut (h : Steady s₀ s) {x} : Steps s₀ (execTileStreamOut x s) := .next (h.streamOut.getD h)

theorem Steady.execPermit (h : Steady s₀ s) {i n} : Steps s₀ (execPermit i n s) := by
  unfold Machine.execPermit
  split
  · exact .next h
  · split
    · exact .next h
    · split
      · exact .ite (.next h.onInst) (.next h)
      · exact .next h

theorem Steady.execDoneToken (h : Steady s₀ s) {i n} : Steps s₀ (execDoneToken i n s) := by
  unfold Machine.execDoneToken
  split
  · exact .next h
  · split
    · exact .next h
    · split
      · exact .next h
      · refine .ite (.next h) ?_
        dsimp only
        split
        · exact .next h.onInst
        · split
          · exact .next h.onInst
          · exact .next h.onInst

theorem Steady.execCreditReturn (h : Steady s₀ s) {i e} : Steps s₀ (execCreditReturn i e s) := by
  unfold Machine.execCreditReturn
  split
  · exact .next h
  · split
    · exact .next h
    · split
      · exact .next h
      · dsimp only
        split
        · exact .ite (.next h.onRegion) (.ite (.next h.onRegion) (.next h))
        · exact .ite (.ite (.next h.onRegion) (.next h.onRegion)) (.next h)

theorem Steady.onInsts (h : Steady s₀ s) {ns f} : Steady s₀ (s.onInsts ns f) := h.foldl fun _ _ h => h.onInst

theorem Steady.execStageSwap (h : Steady s₀ s) {i} : Steps s₀ (execStageSwap i s) := by
  unfold Machine.execStageSwap
  split
  · exact .next h
  · split
    · exact .next h
    · exact .next h.onInsts

theorem Steady.stageStep (h : Steady s₀ s) {r} : Gives s₀ (s.stageStep r) := by
  unfold State.stageStep
  dsimp only
  split
  · exact .none
  · exact .ite (.some h.onInsts) .none
  · exact .ite .none (.some h.onInsts)

theorem Steady.execStageEnable (h : Steady s₀ s) {i} : Steps s₀ (execStageEnable i s) := by
  unfold Machine.execStageEnable
  split
  · exact .next h
  · exact .next (h.stageStep.getD h)

theorem Steady.execCompletionToken (h : Steady s₀ s) {d p} : Steps s₀ (execCompletionToken d p s) := by
  unfold Machine.execCompletionToken
  dsimp only
  split
  · exact .next h
  · split
    · exact .next h
    · exact .next h.onPort

theorem Steady.mailbox (h : Steady s₀ s) {d q c} : Gives s₀ (s.mailbox d q c) := by
  unfold State.mailbox
  split
  · exact .none
  · split
    · exact .none
    · split
      · exact .none
      · exact .ite .none (.some h.setSeq.onInst)

theorem Steady.execMailboxAdd (h : Steady s₀ s) {d q c} : Steps s₀ (execMailboxAdd d q c s) := .next (h.mailbox.getD h)

/-- Time is only ever advanced while the device is on. -/
theorem Steady.advance (h : Steady s₀ s) {dt} : Steady s₀ (s.advance dt).1 := by
  unfold State.advance
  dsimp only
  split
  · exact h.later (Nat.le_max_left _ _)
  · exact h.later (Nat.le_add_right _ _)

/-! ### Regions (Regions) -/

theorem Steady.loadFresh (h : Steady s₀ s) {g i n l x} : Steady s₀ (s.loadFresh g i n l x) :=
  ((h.onInst.foldl fun _ _ h => h.setPort).foldl fun _ _ h => h.setSeq).onRegion
theorem Steady.loadBack (h : Steady s₀ s) {g i n c x} : Steady s₀ (s.loadBack g i n c x) :=
  ((h.onInst.foldl fun _ _ h => h.setPort).foldl fun _ _ h => h.setSeq).same
theorem Steady.overwrite (h : Steady s₀ s) {n} : Steady s₀ (s.overwrite n) := h.same

theorem Steady.readImage (h : Steady s₀ s) {d va} : (s.readImage d va).After s₀ := by
  unfold State.readImage
  split
  · exact h.deviceRead
  · exact h.deviceRead

theorem Steady.execRegionLoad (h : Steady s₀ s) {i} : Steps s₀ (execRegionLoad i s) := by
  unfold Machine.execRegionLoad
  split
  · exact .next h
  · split
    · exact .next h
    · refine .ite (.next h) ?_
      extract_lets load
      have loads : ∀ img, Steps s₀ (load img) := fun img => by
        dsimp only [load]
        split
        · exact .next h.failRegion
        · exact .next h
        · split
          · exact .next h.loadBack.overwrite
          · exact .ite (.next h.loadFresh.overwrite) (.next h)
      split
      · exact .next (h.readImage.of_wait ‹_›)
      · exact loads _
      · exact loads _

theorem Steady.execRegionRunning (h : Steady s₀ s) {r} : Steps s₀ (execRegionRunning r s) := by
  unfold Machine.execRegionRunning
  split
  · exact .next h
  · exact .ite (.next h) (.next (h.foldl fun _ _ h => h.onInst).onRegion)

theorem Steady.execRegionComplete (h : Steady s₀ s) {i} : Steps s₀ (execRegionComplete i s) := by
  unfold Machine.execRegionComplete
  split
  · exact .next h
  · refine .ite (.next h) ?_
    dsimp only
    split
    · exact .next h.onInst
    · exact .ite (.next h.onInst.endRegion) (.next h.onInst)

theorem Steady.drainRegion (h : Steady s₀ s) {r x y} : Steady s₀ (s.drainRegion r x y) := by
  unfold State.drainRegion
  split
  · exact h
  · exact h.ite (h.foldl fun _ _ h => h.onInst).onRegion

theorem Steady.execRegionDrain (h : Steady s₀ s) {r} : Steps s₀ (execRegionDrain r s) := .ite (.next h.drainRegion) (.next h)

theorem Steady.execFaultTimeout (h : Steady s₀ s) {r} : Steps s₀ (execFaultTimeout r s) := by
  unfold Machine.execFaultTimeout
  split
  · exact .next h
  · split
    · exact .ite (.next h.drainRegion) (.next h)
    · exact .next h

theorem Steady.execRegionCheckpoint (h : Steady s₀ s) {r} : Steps s₀ (execRegionCheckpoint r s) := by
  unfold Machine.execRegionCheckpoint
  split
  · exact .next h
  · exact .ite (.next h) (.next (Steady.onRegion (.same (h.foldl fun _ _ h => h.releaseInst))))

/-! ### Stream commands and accesses of ports (Port)

`Steady.ctx` passes to a command's context of which only the port was changed. -/

theorem Steady.ctx (h : Steady s₀ s) {k p n g} : Steady s₀ (PortCtx.mk s k p n g).s := h

section
variable {c : PortCtx} (h : Steady s₀ c.s)
include h
theorem Steady.portPut {q} : Steps s₀ (c.put q) := .next h.setPort
theorem Steady.portStay : Steps s₀ (c.stay) := .next h
theorem Steady.streamFail {va} : Steps s₀ (c.streamFail va) := .next h.failRegion
theorem Steady.configFail : Steps s₀ (c.configFail) := .next h.failRegion

theorem Steady.portAt {va w x} (hx : ∀ c pa n, Steady s₀ c.s → Steps s₀ (x c pa n)) : Steps s₀ (c.at_ va w x) := by
  unfold PortCtx.at_
  refine .ite h.streamFail ?_
  split
  · exact h.portPut
  · refine .ite h.portStay ?_
    dsimp only
    split
    · exact h.streamFail
    · exact hx _ _ _ h.ctx

theorem Steady.dataFail {l va} : Steps s₀ (c.dataFail l va) := .next h.logBad.failRegion
theorem Steady.portAdd {a} : Steady s₀ (c.add a).s := h.same

theorem Steady.endRead {f} : Steps s₀ (c.endRead f) := by
  unfold PortCtx.endRead
  dsimp only
  split
  · exact h.portAdd.portPut
  · exact h.portPut

theorem Steady.stepRead {f m} : Steps s₀ (c.stepRead f m) := by
  unfold PortCtx.stepRead
  exact .ite h.ctx.endRead h.ctx.portPut
theorem Steady.portWord {va m x} (hx : ∀ c w, Steady s₀ c.s → Steps s₀ (x c w)) : Steps s₀ (c.word va m x) :=
  h.portAt fun _ _ _ h => .ite h.portStay (.ite h.dataFail (hx _ _ (Steady.ctx h.same)))

theorem Steady.portRows {f x} : Steps s₀ (c.rows f x) := by
  unfold PortCtx.rows
  split
  · exact h.portWord fun _ _ h => h.portPut
  · refine Steps.ite h.endRead ?_
    dsimp only
    split
    · exact h.portWord fun _ _ h => h.portPut
    · split
      · exact h.ctx.portAdd.stepRead
      · exact h.ctx.portAt fun _ _ _ h => h.portAdd.stepRead

theorem Steady.portSendOwner {va m pa w} : Steady s₀ (c.sendOwner va m pa w).s := h.portAdd.sendOwner

theorem Steady.flushRow {va bs} : Steps s₀ (c.flushRow va bs) := by
  refine h.portAt fun c pa near h => ?_
  dsimp only
  split
  · exact h.ctx.portSendOwner.portPut
  · exact h.ctx.portAdd.portPut

theorem Steady.landingLines {va m} : Steps s₀ (c.landingLines va m) := by
  unfold PortCtx.landingLines
  exact h.portAt fun _ _ _ h => .ite h.portPut h.streamFail
end

theorem Steady.portWrites {c : PortCtx} (h : Steady s₀ c.s) {f r} : Steps s₀ (c.writes f r) := by
  unfold PortCtx.writes
  extract_lets l fc finish taken _ want va element _ _ next
  have finishes : ∀ c : PortCtx, Steady s₀ c.s → Steps s₀ (finish c) := fun _ h => h.portPut
  have elements : ∀ bs, Steps s₀ (element c bs) := fun bs => by
    refine h.portAt fun c pa near h => ?_
    have h₁ : Steady s₀ (if c.p.unpack.isEmpty then taken c else c).s := by
      split
      · exact h
      · exact h
    dsimp only
    generalize (if c.p.unpack.isEmpty then taken c else c) = c₁ at h₁ ⊢
    split
    · exact .ite (finishes _ h₁.portSendOwner.ctx) h₁.portSendOwner.portPut
    · split
      · exact .ite (finishes _ h₁.ctx) h₁.ctx.portPut
      · exact .ite (finishes _ h₁.portSendOwner.ctx) h₁.portSendOwner.portPut
    · have h₂ := h₁.portAdd (a := { id := 0, cmd := 0, va := va, size := l.size, kind := .write pa bs })
      exact .ite (finishes _ h₂.ctx) h₂.ctx.portPut
  have nexts : Steps s₀ next := by
    refine .ite (finishes _ h) (.ite (elements _) ?_)
    split
    · exact h.portStay
    · exact .ite (.ite (finishes _ h) h.portPut)
        (.ite h.portStay (.ite h.portPut (elements _)))
  split
  · exact .ite nexts h.flushRow
  · exact nexts

theorem Steady.portCommand (h : Steady s₀ s) {r k} (hk : ∀ c, Steady s₀ c.s → Steps s₀ (k c)) : Steps s₀ (portCommand s r k) := by
  unfold Machine.portCommand
  split
  · split
    · exact .fault
    · split
      · exact .next h
      · split
        · exact .next h
        · exact .ite (.next h) (hk _ h)
  · exact .fault

theorem Steady.execSlin (h : Steady s₀ s) {f} : Steps s₀ (execSlin f s) := h.portCommand fun _ h => h.portAt fun _ _ _ h => h.portAdd.stepRead
theorem Steady.execSconst (h : Steady s₀ s) {f} : Steps s₀ (execSconst f s) :=
  h.portCommand fun _ h => .ite h.endRead h.portAdd.stepRead
theorem Steady.execSeos (h : Steady s₀ s) {f} : Steps s₀ (execSeos f s) := h.portCommand fun _ h => h.portAdd.portPut
theorem Steady.execSdrain (h : Steady s₀ s) {f} : Steps s₀ (execSdrain f s) := h.portCommand fun _ h => .ite h.portPut h.portStay

theorem Steady.execSbar (h : Steady s₀ s) {f} : Steps s₀ (execSbar f s) := by
  refine h.portCommand fun c h => .ite h.portStay (h.portAt fun c pa _ h => ?_)
  have hs : Steady s₀ (if c.p.arriving.isSome then c.s else { c.s with nextId := c.s.nextId + 1 }) := .ite h h.same
  dsimp only
  split
  · exact (hs.arriveAt.of_done ‹_›).portPut
  · exact (hs.arriveAt.of_wait ‹_›).portPut
  · exact .next (hs.arriveAt.of_bad ‹_›).failRegion

theorem Steady.execSland (h : Steady s₀ s) {f} : Steps s₀ (execSland f s) := by
  refine h.portCommand fun c h => ?_
  split
  · exact .ite h.portStay h.portPut
  · refine Steps.ite h.landingLines (.ite h.portStay (.ite h.dataFail (.ite h.configFail (.ite h.portStay ?_))))
    exact Steady.portPut (.ite h.same (Steady.signal h.same))

theorem Steady.execSpage (h : Steady s₀ s) {f} : Steps s₀ (execSpage f s) := h.portCommand fun _ h => h.portPut

theorem Steady.placeAccess (h : Steady s₀ s) {k p a} : Steady s₀ (s.placeAccess k p a) := by
  unfold State.placeAccess
  split
  · exact .ite h h.setPort
  · refine Steady.ite h ?_
    split
    · exact h.failRegion
    · exact h
    · exact h.setPort

theorem Steady.execStreamAccessPerformed (h : Steady s₀ s) {d p a} : Steps s₀ (execStreamAccessPerformed d p a s) := by
  unfold Machine.execStreamAccessPerformed
  dsimp only
  split
  · exact .next h
  · split
    · exact .next h
    · refine .ite (.next h.placeAccess) ?_
      split
      · exact .next h
      · exact .ite (.next h.setBytes.setPort) (.next h)
      · refine .ite (.ite (.next h.setPort) (.next h)) (.ite (.next h) (.ite ?_ (.next (Steady.setPort h.same))))
        split
        · exact .next h.logBad.failRegion
        · exact .next h
      · exact .ite (.next h.setPort) (.next h)

theorem Steady.clearTimeout (h : Steady s₀ s) {r} : Steady s₀ (s.clearTimeout r) := by
  unfold State.clearTimeout
  split
  · exact h
  · exact .ite h h.onRegion

theorem Steady.addLeaf (h : Steady s₀ s) {c : Prop} {_ : Decidable c} {b k x} :
    Steady s₀ { s with mem := if c then s.mem else s.mem.addLeaf b k x } := by
  refine h.withMem fun w => ?_
  split
  · exact w
  · rwa [MemSys.addLeaf_bytes]

theorem Steady.portTranslate (h : Steady s₀ s) {k p n va} : Steady s₀ (s.portTranslate k p n va) := by
  unfold State.portTranslate
  dsimp only
  split
  · exact h.addLeaf.setPort.clearTimeout
  · exact .ite h.raiseRegion.setPort.onRegion h.logWalk.failRegion

theorem Steady.execPortTranslate (h : Steady s₀ s) {d p} : Steps s₀ (execPortTranslate d p s) := by
  unfold Machine.execPortTranslate
  dsimp only
  split
  · exact .next h
  · split
    · exact .ite (.next h) (.next h.portTranslate)
    · exact .next h

/-! ### Owner nodes and landings (Owner) -/

theorem Steady.arriveOwner (h : Steady s₀ s) {i} : Steady s₀ (s.arriveOwner i) := by
  unfold State.arriveOwner
  split
  · exact h
  · exact .ite h h.same

theorem Steady.portDone (h : Steady s₀ s) {a} : Steady s₀ (s.portDone a) := h.same
theorem Steady.answer (h : Steady s₀ s) {d bs} : Steady s₀ (s.answer d bs) := Steady.ite h.same (Steady.sendFlit h.same)
theorem Steady.confirm (h : Steady s₀ s) {d} : Steady s₀ (s.confirm d) := h.ite h.answer
theorem Steady.logRas (h : Steady s₀ s) {d l} : Steady s₀ (s.logRas d l) := Steady.ite h.same h

theorem Steady.ownerDone (h : Steady s₀ s) {f} : Steady s₀ (s.ownerDone f) := by
  unfold State.ownerDone
  split
  · exact h.confirm
  · exact h
  · exact h.partDone
  · split
    · exact h.copyAcked
    · exact h
  · exact h.portDone

theorem Steady.ownerFault (h : Steady s₀ s) {f va l} : Steady s₀ (s.ownerFault f va l) := by
  unfold State.ownerFault
  dsimp only
  split
  · exact h.confirm
  · exact h
  · exact h.partBad
  · split
    · exact h.onGroup.copyAcked
    · exact h
  · split
    · exact h.portDone.failRegion
    · exact h

theorem Steady.tryBinding (h : Steady s₀ s) {i} : Steady s₀ (s.tryBinding i) := by
  unfold State.tryBinding
  split
  · exact h
  · exact Steady.ite (Steady.ite h.same (Steady.signal h.same)) h

theorem Steady.land (h : Steady s₀ s) {i b c} : Steady s₀ (s.land i b c) :=
  Steady.ite h.noteMisuse.ownerDone (Steady.ite (Steady.ownerFault (.same h.logBad))
    (Steady.ite (Steady.same (.ite h.setLine h)).ownerDone.tryBinding (Steady.same h.setLine).ownerDone.tryBinding))

theorem Steady.ownerStore (h : Steady s₀ s) {q pa bs} : Steady s₀ (s.ownerStore q pa bs) := by
  unfold State.ownerStore
  dsimp only
  split
  · split
    · exact .ite h.land h.noteMisuse.ownerDone
    · exact h.noteMisuse.ownerDone
  · exact Steady.ownerDone (.noteClass (.ite (.same h.setBytes) h.setBytes))

theorem Steady.ownerWord (h : Steady s₀ s) {q pa o n v c} : Steady s₀ (s.ownerWord q pa o n v c) :=
  Steady.ite h.noteMisuse.ownerDone (.ite h.logBad.ownerFault h.setBytes.noteClass.ownerDone)
theorem Steady.answerNear (h : Steady s₀ s) {d xs l} : Steady s₀ (s.answerNear d xs l) := Steady.ite h.logBad.logRas.answer h.answer

theorem Steady.ownerApply (h : Steady s₀ s) {q} : Steady s₀ (s.ownerApply q) := by
  unfold State.ownerApply
  dsimp only
  split
  · split
    · exact .ite h.onGroup.logBad.partBad h.onGroup.partDone
    · exact h.answerNear
    · exact h.ownerDone
  · exact h.ownerDone
  · exact h.ownerStore
  · split
    · exact h
    · exact Steady.ownerStore h.same
  · exact h.ownerWord
  · split
    · exact .ite h.useUp.ownerFault h.useUp.ownerWord
    · exact .ite h.logBad.ownerFault h.ownerWord
  · exact h.noteMisuse.ownerDone

theorem Steady.applyHead (h : Steady s₀ s) {d n w} : Steady s₀ (s.applyHead d n w) := by
  unfold State.applyHead
  split
  · exact h
  · refine h.ite ?_
    split
    · exact h.bring
    · exact Steady.ownerApply h.same

theorem Steady.peerApplied (h : Steady s₀ s) {q d} : Steady s₀ (s.peerApplied q d) := by
  unfold State.peerApplied
  split
  · exact h.onGroup.partDone
  · exact h.ownerDone

theorem Steady.execPeerResponse (h : Steady s₀ s) {i d} : Steps s₀ (execPeerResponse i d s) := by
  unfold Machine.execPeerResponse
  split
  · exact .next (Steady.peerApplied h.same)
  · split
    · exact .next h
    · exact .ite (.next h) (.ite (.next h.perform) (.next h.ownerAnswers))

/-! ### Lanes (Lane) -/

theorem Steady.runShfl (h : Steady s₀ s) {i f x} : Steps s₀ (runShfl i f s x) := h.issue fun _ h => h.finish
theorem Steady.runRedx (h : Steady s₀ s) {i f x} : Steps s₀ (runRedx i f s x) := h.issue fun _ h => h.finish

/-! ### The annex and near memory as strands use them (AnnexCore) -/

theorem Steady.setEndpoint (h : Steady s₀ s) {r n e} : Steady s₀ (s.setEndpoint r n e) := h.onRegion
theorem Steady.pushTokens (h : Steady s₀ s) {r n ts} : Steady s₀ (s.pushTokens r n ts) := h.setEndpoint

theorem Steady.execAopen (h : Steady s₀ s) {f} : Steps s₀ (execAopen f s) := by
  refine h.access fun c h => .ite h.finish ?_
  dsimp only
  split
  · exact h.stall
  · exact h.finish
  · exact .ite h.finish (.ite h.finish (.ite h.stall h.setEndpoint.finishIn))

theorem Steady.sendTokens {c : Ctx} (h : Steady s₀ c.s) {x ts} : Steps s₀ (c.sendTokens x ts) := by
  unfold Ctx.sendTokens
  split
  · exact h.fault
  · refine .ite h.fault (.ite h.finish ?_)
    split
    · exact h.finish
    · exact h.stall
    · exact .ite h.stall h.pushTokens.finishIn

theorem Steady.execArecv (h : Steady s₀ s) {f} : Steps s₀ (execArecv f s) := by
  refine h.access fun c h => ?_
  dsimp only
  split
  · exact h.fault
  · exact .ite h.fault (.ite h.finish (.ite h.stall h.setEndpoint.finishIn))

theorem Steady.closeSource (h : Steady s₀ s) {b} : Steady s₀ (s.closeSource b) := by
  unfold State.closeSource
  dsimp only
  split
  · exact h.setEndpoint
  · exact .ite h.setEndpoint h.pushTokens.setEndpoint
  · exact h.setEndpoint

theorem Steady.closeSink (h : Steady s₀ s) {b x} : Steady s₀ (s.closeSink b x) := h.setEndpoint

theorem Steady.execAclose (h : Steady s₀ s) {f} : Steps s₀ (execAclose f s) := by
  refine h.access fun c h => .ite h.finish ?_
  dsimp only
  split
  · exact h.finish
  · exact .ite h.closeSink.finishIn (.ite h.stall h.closeSource.finishIn)

theorem Steady.execAcmd (h : Steady s₀ s) {f} : Steps s₀ (execAcmd f s) := by
  refine h.access fun c h => .ite h.finish ?_
  dsimp only
  split
  · exact h.fault
  · refine .ite h.fault (.ite h.fault (h.ordered fun c h => ?_))
    split
    · exact h.stall
    · exact .ite h.stall h.setPort.finishIn

theorem Steady.execAfence (h : Steady s₀ s) {f} : Steps s₀ (execAfence f s) :=
  h.access fun _ h => .ite h.finish (.ite h.stall (h.ordered fun _ h => .ite h.finish h.stall))
theorem Steady.execNmr (h : Steady s₀ s) {f} : Steps s₀ (execNmr f s) :=
  h.access fun _ h => .ite h.stall (h.ordered fun _ h => h.plan.lanewise fun _ _ _ h => Steady.foldl h.same fun _ _ h => h.sendOwner)

theorem Steady.checkNearRow (h : Steady s₀ s) {d va n w l} : Steady s₀ (s.checkNearRow d va n w l).1 := by
  unfold State.checkNearRow
  split
  · exact h
  · dsimp only
    split
    · exact h.learn
    · exact h.learn.learn

theorem Steady.checkIndex (h : Steady s₀ s) {d x n l} : Steady s₀ (s.checkIndex d x n l).1 := by
  unfold State.checkIndex
  split
  · exact h.checkNearRow
  · refine h.checkNearRow.foldl_fst fun a r h => ?_
    split
    · exact h
    · exact h.checkNearRow

theorem Steady.sendIndex (h : Steady s₀ s) {d k o n f x} : Steady s₀ (s.sendIndex d k o n f x).1 := by
  unfold State.sendIndex
  dsimp only
  split
  · exact h.sendOwner
  · exact h.foldl fun _ _ h => h.foldl fun _ _ h => h.sendOwner

theorem Steady.execNidx (h : Steady s₀ s) {f} : Steps s₀ (execNidx f s) := by
  refine h.access fun c h => .ite h.stall (Steady.lanewise ?_ fun s g good h => Steady.foldl_fst (Steady.same h) fun _ _ h => h.sendIndex)
  split
  · exact h
  · refine Steady.foldl_on LanePlan.s h fun p l h => ?_
    dsimp only
    split
    · exact h.checkIndex
    · exact h.checkIndex

theorem Steady.execNfence (h : Steady s₀ s) {f} : Steps s₀ (execNfence f s) := h.access fun _ h => .ite h.finish h.stall

/-! ### Loads and stores (LoadStore) -/

theorem Steady.performLoad (h : Steady s₀ s) {c : Ctx} {f n z g xs} : Steady s₀ (c.performLoad f n z s g xs).1 := by
  refine Steady.foldl_on LoadAcc.s (.foldl_on LoadAcc.s (Steady.same h) fun a l h => ?_) fun _ _ h => h.sendOwner
  dsimp only
  split
  · exact h
  · exact h.send

theorem Steady.globalLoad {c : Ctx} (h : Steady s₀ c.s) {f n} : Steps s₀ (c.globalLoad f n) :=
  .ite h.stall (h.ordered fun _ h => h.plan.lanewise fun _ _ _ h => h.performLoad)
theorem Steady.pendStore (h : Steady s₀ s) {c l i m d} : Steady s₀ (s.pendStore c l i m d) := h.setL1
theorem Steady.performStore (h : Steady s₀ s) {c : Ctx} {f n g xs} : Steady s₀ (c.performStore f n s g xs).1 :=
  Steady.foldl (Steady.foldl h.same fun _ _ h => .ite h.send.pendStore h.send) fun _ _ h => h.sendOwner
theorem Steady.globalStore {c : Ctx} (h : Steady s₀ c.s) {f n} : Steps s₀ (c.globalStore f n) :=
  .ite h.stall (h.ordered fun _ h => h.plan.lanewise fun _ _ _ h => h.performStore)

/-! ### The scratchpad and prefetches (LoadStore) -/

theorem Steady.spadPlan {c : Ctx} (h : Steady s₀ c.s) {b n ls} : Steady s₀ (c.spadPlan b n ls).s :=
  Steady.foldl_on LanePlan.s h fun p e hp => by
    split
    · exact hp
    · exact hp

theorem Steady.issueSpad (h : Steady s₀ s) {c : Ctx} {f g a rs} : Steady s₀ (c.issueSpad f s g a rs).1 := h.same

theorem Steady.spadLoad {c : Ctx} (h : Steady s₀ c.s) {f n} : Steps s₀ (c.spadLoad f n) := by
  refine .ite h.stall (h.ordered fun c h => ?_)
  split
  · exact h.finish
  · exact h.spadPlan.lanewise fun _ _ _ h => h.issueSpad

theorem Steady.spadStore {c : Ctx} (h : Steady s₀ c.s) {f n} : Steps s₀ (c.spadStore f n) := by
  refine .ite h.stall (h.ordered fun c h => ?_)
  split
  · exact h.finish
  · exact h.spadPlan.lanewise fun _ _ _ h => h.issueSpad

theorem Steady.performSpad (h : Steady s₀ s) {c n b} : Steady s₀ (s.performSpad c n b) := by
  unfold State.performSpad
  dsimp only
  split
  · exact h
  · split
    · exact (h.setGroup.foldl fun _ _ h => h.spadWrite).partDone
    · exact h

theorem Steady.execPrf (h : Steady s₀ s) {f} : Steps s₀ (execPrf f s) :=
  h.access fun _ h => (Steady.foldl h.plan.same fun _ _ h => h.send).finishIn

/-! ### Atomics, and the gather engine (Atomic, Gather) -/

theorem Steady.performAtomic (h : Steady s₀ s) {c : Ctx} {f o r g xs} : Steady s₀ (c.performAtomic f o r s g xs).1 :=
  Steady.foldl h.same fun _ _ h => h.send
theorem Steady.atomic {c : Ctx} (h : Steady s₀ c.s) {f o r} : Steps s₀ (c.atomic f o r) :=
  .ite h.stall (h.ordered fun _ h => h.plan.lanewise fun _ _ _ h => h.performAtomic)

theorem Steady.learnRow (h : Steady s₀ s) {d va n w} : Steady s₀ (s.learnRow d va n w) := h.foldl fun _ _ h => h.learn
theorem Steady.countRows (h : Steady s₀ s) {c d k rs} : Steady s₀ (s.countRows c d k rs) := h.onCore.same

theorem Steady.rows {c : Ctx} (h : Steady s₀ c.s) {f x w ls} : Steady s₀ (c.rows f x w ls).s := by
  refine Steady.foldl_on RowPlan.s h fun p l hp => ?_
  dsimp only
  split
  · exact .ite hp.logBadAt hp
  · next i e =>
    have hi : Steady s₀ i.2.2 := by
      split at e
      · split at e
        · cases e
        · split at e
          · cases e
          · cases e
            exact hp.learn.leaseLine
      · cases e
        exact hp
    split
    · exact hp
    · exact hi.learnRow

theorem Steady.execGath (h : Steady s₀ s) {f} : Steps s₀ (execGath f s) := by
  refine h.access fun c h => ?_
  split
  · exact h.finish
  · refine .ite h.stall ?_
    split
    · exact h.fault
    · refine .ite (.next h.bringAll) (Steady.lanewise (p := ⟨_, _, _⟩) h.rows.useUp fun s g good h => ?_)
      extract_lets kept rows id op job counted s'
      have h₁ : Steady s₀ counted := Steady.countRows (h.foldl fun _ _ h => h.spadWrite)
      clear_value counted
      dsimp only [s']
      split
      · exact h₁.same
      · exact h₁.same

theorem Steady.execGathRowLand (h : Steady s₀ s) {i r} : Steps s₀ (execGathRowLand i r s) := by
  unfold Machine.execGathRowLand
  split
  · exact .next h
  · split
    · exact .next h
    · refine .ite (.next h.bringAll) ?_
      extract_lets rest helper data wts land ls landed s₁ s₂ s₃ s₄
      have h₁ : Steady s₀ s₁ := Steady.same (s := landed) (h.foldl fun _ _ h => h.spadWrite)
      have h₃ : Steady s₀ s₃ := Steady.useUp (.ite h₁ (h₁.foldl fun _ _ h => h.leaseLine))
      clear_value s₃
      have h₄ : Steady s₀ s₄ := .ite (Steady.onGroup h₃.same) h₃.same
      split
      · exact .next h₄.logBad.partBad
      · exact .next h₄.partDone

theorem Steady.execScat (h : Steady s₀ s) {f} : Steps s₀ (execScat f s) := by
  refine h.access fun c h => ?_
  dsimp only
  split
  · exact h.finish
  · refine .ite h.stall ?_
    split
    · exact h.fault
    · refine .ite (.next h.bringAll) (Steady.lanewise (p := ⟨_, _, _⟩) h.rows.useUp fun s g good h => ?_)
      exact Steady.foldl h.same fun _ _ h =>
        .ite (h.foldl fun _ _ h => h.send) ((h.foldl fun _ _ h => h.sendOwner).foldl fun _ _ h => h.send)

theorem Steady.execGstat (h : Steady s₀ s) {f} : Steps s₀ (execGstat f s) := h.access fun _ h => h.finish
theorem Steady.execFreqHalve (h : Steady s₀ s) : Steps s₀ (execFreqHalve s) := .ite (.next h.same) (.next h)

/-! ### The catalogue (Catalogue) -/

theorem Steady.catFault {c : Ctx} (h : Steady s₀ c.s) : Steps s₀ c.catFault := h.fault
theorem Steady.catAccess (h : Steady s₀ s) {i k} (hk : ∀ c : Ctx, Steady s₀ c.s → Steps s₀ (k c)) : Steps s₀ (catAccess i s k) :=
  h.access fun _ h => .ite (hk _ h) h.stall
theorem Steady.catDone (h : Steady s₀ s) {c : Ctx} {g rs r} : Steps s₀ (c.catDone s g rs r) := Steady.finishIn h.same

theorem Steady.recordStores (h : Steady s₀ s) {c : Ctx} {g b k rs} : Steady s₀ (c.recordStores s g b k rs).1 := by
  unfold Ctx.recordStores
  split
  · exact h
  · refine Steady.foldl_fst (Steady.same h) fun a e h => ?_
    dsimp only
    split
    · exact h
    · split
      · exact h.sendOwner
      · exact h.send

theorem Steady.catalogue {c : Ctx} (h : Steady s₀ c.s) {f o ls} : Steps s₀ (c.catalogue f o ls) := by
  unfold Ctx.catalogue
  split
  · exact h.finish
  · split
    · exact h.catFault
    · exact .ite h.catFault (.ite h.stall h.onBlock.recordStores.catDone)

theorem Steady.execCclaim (h : Steady s₀ s) {f} : Steps s₀ (execCclaim f s) := by
  refine h.catAccess fun c h => .ite h.finish ?_
  split
  · exact h.finish
  · refine .ite h.catFault (.ite h.stall ?_)
    dsimp only
    split
    · exact h.walkFault
    · exact (Steady.ite h h.learnRow).taint.onBlock.catDone

theorem Steady.endClaim (h : Steady s₀ s) {b} : Steady s₀ (s.endClaim b) := by
  unfold State.endClaim
  split
  · exact h
  · split
    · exact h
    · exact h.onBlock.spadWrite.same

theorem Steady.execCfree (h : Steady s₀ s) {f} : Steps s₀ (execCfree f s) := by
  refine h.catAccess fun c h => .ite h.finish ?_
  split
  · exact h.finish
  · exact .ite h.catFault (.ite h.stall h.endClaim.catDone)

theorem Steady.execCdrn (h : Steady s₀ s) {f} : Steps s₀ (execCdrn f s) := by
  refine h.catAccess fun c h => .ite h.finish ?_
  split
  · exact h.finish
  · refine .ite h.fault ?_
    split
    · exact h.catFault
    · dsimp only
      split
      · exact h.walkFault
      · exact .ite h.stall (.ite h.onBlock.learnRow.recordStores.catDone h.onBlock.spadWrite.catDone)

theorem Steady.execCstat (h : Steady s₀ s) {f} : Steps s₀ (execCstat f s) := by
  refine h.catAccess fun c h => .ite h.finish ?_
  split
  · exact h.catFault
  · exact (Steady.ite h.onBlock h).catDone

/-! ### Copies and commissions (Courier) -/

/-- What an engine that reads a line leaves when it has to wait. -/
def Produce.After (s₀ : State) : Produce → Prop
  | .wait s => Steady s₀ s
  | _ => True

def Next.After (s₀ : State) : Next → Prop
  | .wait s => Steady s₀ s
  | _ => True

theorem Produce.After.of_wait {r : Produce} (h : r.After s₀) (e : r = .wait t) : Steady s₀ t := by
  subst e
  exact h
theorem Next.After.of_wait {r : Next} (h : r.After s₀) (e : r = .wait t) : Steady s₀ t := by
  subst e
  exact h

theorem Next.After.ite {c : Prop} {_ : Decidable c} {a b : Next} (ha : a.After s₀) (hb : b.After s₀) : (if c then a else b).After s₀ := by
  split
  · exact ha
  · exact hb

theorem Steady.courierFault {c : Ctx} (h : Steady s₀ c.s) : Steps s₀ c.courierFault := h.fault

theorem Steady.pieces (h : Steady s₀ s) {d ps} : Steady s₀ (s.pieces d ps).1 := by
  refine Steady.foldl_fst h fun a p h => ?_
  split
  · exact h
  · split
    · exact h.learn
    · exact h

theorem Steady.startGlobal {c : Ctx} (h : Steady s₀ c.s) {x n ps} : Steps s₀ (c.startGlobal x n ps) := by
  unfold Ctx.startGlobal
  dsimp only
  split
  · exact h.walkFault
  · exact Steady.finishIn (Steady.foldl h.pieces.same fun _ _ h => .ite (h.foldl fun _ _ h => h.sendOwner) h.send)

theorem Steady.execSendGlb (h : Steady s₀ s) {f} : Steps s₀ (execSendGlb f s) := by
  refine h.access fun c h => .ite h.finish ?_
  split
  · exact h.finish
  · exact .ite h.finish (.ite h.courierFault (.ite h.stall h.startGlobal))

theorem Steady.startPeer {c : Ctx} (h : Steady s₀ c.s) {x n d ds} : Steps s₀ (c.startPeer x n d ds) := Steady.finishIn h.same

theorem Steady.sendRanks {c : Ctx} (h : Steady s₀ c.s) {f rs} : Steps s₀ (c.sendRanks f rs) := by
  unfold Ctx.sendRanks
  split
  · exact h.finish
  · exact .ite h.courierFault (.ite h.finish (.ite h.courierFault (.ite h.stall h.startPeer)))

theorem Steady.execSendTens (h : Steady s₀ s) {f} : Steps s₀ (execSendTens f s) := by
  refine h.access fun c h => .ite h.finish ?_
  split
  · exact h.finish
  · refine .ite h.stall ?_
    split
    · exact h.courierFault
    · exact .ite h.finish (.ite h.courierFault (.ite h.stall h.startGlobal))

theorem Steady.spoilClaim (h : Steady s₀ s) {b o n} : Steady s₀ (s.spoilClaim b o n) := h.onBlock

theorem Steady.landChunk (h : Steady s₀ s) {c k b} : Steady s₀ (s.landChunk c k b) := by
  unfold State.landChunk
  split
  · exact h
  · dsimp only
    split
    · exact h
    · refine .ite h (.ite (Steady.partBad (.same ?_)) (Steady.partDone (.same ?_)))
      all_goals
        split
        · exact h
        · exact h.spadWrite.spoilClaim.onBlock

theorem Steady.produceLine (h : Steady s₀ s) {j va n x} : (s.produceLine j va n x).After s₀ := by
  unfold State.produceLine
  split
  · trivial
  · dsimp only
    split
    · trivial
    · split
      · trivial
      · split
        · exact h.bring
        · trivial

theorem Steady.produce (h : Steady s₀ s) {j va n x} : (s.produce j va n x).After s₀ := by
  unfold State.produce
  dsimp only
  split
  · exact h.produceLine
  · split
    · split
      · trivial
      · exact h.produceLine
    · exact h.produceLine

theorem Steady.readHeader (h : Steady s₀ s) {j va} : (s.readHeader j va).After s₀ := by
  unfold State.readHeader
  split
  · trivial
  · split
    · split
      · split
        · trivial
        · exact h.produce
      · exact h.produce
    · exact h.produce

theorem Steady.readIndex (h : Steady s₀ s) {j va i} : (s.readIndex j va i).After s₀ := by
  unfold State.readIndex
  split
  · trivial
  · split
    · trivial
    · exact h.produce

theorem Steady.readElement (h : Steady s₀ s) {j va n x} : (s.readElement j va n x).After s₀ := by
  unfold State.readElement
  split
  · trivial
  · split
    · trivial
    · exact h.produce

theorem Steady.nextElement (h : Steady s₀ s) {j} : (s.nextElement j).After s₀ := by
  unfold State.nextElement
  split
  · trivial
  · split
    · trivial
    · trivial
    · exact h.produce.of_wait ‹_›
  · trivial
  · split
    · trivial
    · exact h.readHeader.of_wait ‹_›
    · split
      · trivial
      · refine Next.After.ite trivial ?_
        split
        · trivial
        · exact h.readIndex.of_wait ‹_›
        · split
          · trivial
          · trivial
          · exact h.readElement.of_wait ‹_›

theorem Steady.feedRow (h : Steady s₀ s) {j x} : (s.feedRow j x).After s₀ := by
  unfold State.feedRow
  split
  · exact h.readHeader
  · trivial

theorem Steady.execCommission (h : Steady s₀ s) {f} : Steps s₀ (execCommission f s) := by
  refine h.access fun c h => .ite h.finish (.ite h.stall ?_)
  split
  · exact h.finish
  · refine .ite h.courierFault ?_
    split
    · exact h.courierFault
    · dsimp only
      split
      · exact .ite h.courierFault (.ite h.stall (Steady.finishIn h.same))
      · exact .ite h.courierFault (.ite h.stall (Steady.finishIn h.same))
      · exact .next (h.feedRow.of_wait ‹_›)

theorem Steady.endJob (h : Steady s₀ s) {i j t} : Steady s₀ (s.endJob i j t) := (Steady.onGroup h.same).partDone

theorem Steady.setAside (h : Steady s₀ s) {i j f} : Steady s₀ (s.setAside i j f) := by
  unfold State.setAside
  split
  · exact h
  · exact h.raise.same

theorem Steady.failJob (h : Steady s₀ s) {i j f} : Steady s₀ (s.failJob i j f) := (Steady.takeFault h.same).partDone
theorem Steady.deliver (h : Steady s₀ s) {j bs n} : Steady s₀ (s.deliver j bs n) :=
  Steady.ite (Steady.onBlock h.spadWrite.spoilClaim.same) h.spadWrite.spoilClaim.same

theorem Steady.execCommissionDeliver (h : Steady s₀ s) {i} : Steps s₀ (execCommissionDeliver i s) := by
  unfold Machine.execCommissionDeliver
  split
  · exact .next h
  · refine .ite (.next h) ?_
    dsimp only
    split
    · exact .next (h.nextElement.of_wait ‹_›)
    · exact .ite (.next h.setAside) (.next (Steady.failJob (.useUp (.ite h.logBadAt h))))
    · exact .ite (.next h.useUp.endJob) (.ite (.next h.useUp.failJob) (.ite (.next h.useUp.deliver.endJob) (.next h.useUp.deliver.same)))

theorem Steady.execCommissionResume (h : Steady s₀ s) {i} : Steps s₀ (execCommissionResume i s) := by
  unfold Machine.execCommissionResume
  split
  · exact .next h
  · split
    · exact .next h
    · exact .next h.same
    · exact .next h

theorem Steady.execCbtest (h : Steady s₀ s) {f} : Steps s₀ (execCbtest f s) := by
  refine h.access fun c h => ?_
  dsimp only
  split
  · exact h.finish
  · exact h.finish

theorem Steady.execCbwait (h : Steady s₀ s) {f} : Steps s₀ (execCbwait f s) := by
  refine h.access fun c h => ?_
  dsimp only
  split
  · exact .ite h.courierFault (.ite h.finish h.stall)
  · exact h.finish

theorem Steady.execCbclr (h : Steady s₀ s) {f} : Steps s₀ (execCbclr f s) := h.access fun _ h => .ite h.onBlock.finishIn h.finish

theorem Steady.execTlayout (h : Steady s₀ s) {f} : Steps s₀ (execTlayout f s) := by
  refine h.access fun c h => .ite h.finish (.ite h.stall (.ite h.fault ?_))
  split
  · exact h.walkFault
  · dsimp only
    split
    · split
      · exact h.learn.finishIn
      · exact .next h.learn.setGroup.takeFault
    · exact (Steady.send h.learn.same).finishIn

/-! ### Fetches of instructions (Fetch) -/

theorem Steady.execInstructionFetch (h : Steady s₀ s) {r} : Steps s₀ (execInstructionFetch r s) := by
  unfold Machine.execInstructionFetch
  split
  · exact .next h
  · split
    · exact .ite (.ite (.next h.learn) (.next h.learn.send)) (.next h.learn.setHome.same)
    · exact .next h

theorem Steady.fetchFault (h : Steady s₀ s) {r pc f} : Steady s₀ (s.fetchFault r pc f) := (h.logBadAt.ite h).takeFault

/-! ### Gates, growth and the end of strands (Gate) -/

theorem Steady.enterGate (h : Steady s₀ s) {r g x e n d} : Steady s₀ (s.enterGate r g x e n d) :=
  (Steady.ite h.onCore.growTouch h.onCore).setGroup

theorem Steady.openGate (h : Steady s₀ s) {r} : Steady s₀ (s.openGate r) := by
  unfold State.openGate
  split
  · exact h
  · split
    · exact h.ite (.ite h.setGroup h.enterGate)
    · exact h

theorem Steady.execGate (h : Steady s₀ s) {f} : Steps s₀ (execGate f s) := by
  refine h.issue fun c h => .ite h.finish ?_
  split
  · exact h.finish
  · exact .ite h.finish (.ite h.finish (.ite h.finish (.ite h.await (.next h.enterGate))))

theorem Steady.gateReturn {c : Ctx} (h : Steady s₀ c.s) {g a} : Steps s₀ (c.gateReturn g a) :=
  .ite h.finish (.ite h.fault (.ite h.stall (.next h.leaveFrame)))

theorem Steady.grant (h : Steady s₀ s) {c q} : Steady s₀ (s.grant c q) := by
  unfold State.grant
  split
  · exact h
  · exact .ite h.onGroup.growTouch.takeFault (.ite h.setGroup.growTouch h)

theorem Steady.grants (h : Steady s₀ s) {c q n} : Steady s₀ (s.grants c q n) := by
  induction n generalizing s with
  | zero => exact h
  | succ n ih => exact ih h.grant

theorem Steady.execRgrow (h : Steady s₀ s) {f} : Steps s₀ (execRgrow f s) := by
  refine h.issue fun c h => .ite h.finish (.ite h.fault (.next (Steady.grant ?_)))
  exact .ite (Steady.setGroup h.same) (Steady.setGroup h.same).growTouch

theorem Steady.execRgrowSpill (h : Steady s₀ s) {c q} : Steps s₀ (execRgrowSpill c q s) := by
  unfold Machine.execRgrowSpill
  dsimp only
  split
  · exact .next h
  · refine .ite (.next h) ?_
    split
    · exact .next h
    · exact .ite (.next h) (.next (Steady.growTouch h.onCore.same))

theorem Steady.execSpilledReturn (h : Steady s₀ s) {c q} : Steps s₀ (execSpilledReturn c q s) := by
  unfold Machine.execSpilledReturn
  dsimp only
  split
  · exact .next h
  · split
    · exact .next h
    · exact .ite (.next h) (.next h.onCore.setGroup.growTouch)

theorem Steady.execRshrink (h : Steady s₀ s) {f} : Steps s₀ (execRshrink f s) :=
  h.issue fun _ h => .ite h.finish (.ite h.fault (.ite h.stall h.finish))
theorem Steady.execHalt (h : Steady s₀ s) {f} : Steps s₀ (execHalt f s) :=
  h.issue fun _ h => .ite h.finish (.ite h.stall (.next h.onCore.setGroup.barriers))
theorem Steady.execHaltAll (h : Steady s₀ s) {f} : Steps s₀ (execHaltAll f s) := h.issue fun _ h => .ite h.fault h.finish

/-! ### Launches from cores (Launch) -/

theorem Steady.loadNow (h : Steady s₀ s) {k g pa n x} : Steady s₀ (s.loadNow k g pa n x).1 := by
  unfold State.loadNow
  dsimp only
  split
  · exact h
  · split
    · exact h
    · exact h.setHome.setL1

theorem Steady.storeNow (h : Steady s₀ s) {k g pa n bs} : Steady s₀ (s.storeNow k g pa n bs).1 := by
  unfold State.storeNow
  dsimp only
  split
  · split
    · exact h.deviceStore.of_done ‹_›
    · exact (h.deviceStore.of_done ‹_›).ackCopy
  · exact h.deviceStore.of_wait ‹_›
  · exact h.deviceStore.of_bad ‹_›

theorem Steady.storeAll (h : Steady s₀ s) {k g pa n bs} : Steady s₀ (s.storeAll k g pa n bs).1 := Steady.foldl_fst h fun _ _ h => h.storeNow

theorem Steady.loadWords (h : Steady s₀ s) {k g va n x} (e : s.loadWords k g va n = .inl x) : Steady s₀ x.1 := by
  refine List.foldlRecOn (List.range n) _ (motive := fun a => ∀ x, a = Sum.inl x → Steady s₀ x.1) ?_ ?_ x e
  · intro x e
    cases e
    exact h
  · intro a ha i _ x e
    split at e
    · cases e
    · dsimp only at e
      split at e
      · cases e
      · cases e
        exact (ha _ rfl).learn.loadNow

theorem Steady.withLines {c : Ctx} (h : Steady s₀ c.s) {va ls k} (hk : Steps s₀ k) : Steps s₀ (c.withLines va ls k) :=
  .ite (.next h.useUp.logBadAt.takeFault) (.ite (.next h.bringAll) hk)

theorem Steady.readWords {c : Ctx} (h : Steady s₀ c.s) {va n k} (hk : ∀ c ws, Steady s₀ c.s → Steps s₀ (k c ws)) : Steps s₀ (c.readWords va n k) := by
  unfold Ctx.readWords
  split
  · exact h.walkFault
  · exact h.withLines (hk _ _ (h.loadWords ‹_›))

theorem Steady.cleanLines (h : Steady s₀ s) {ls} : Steady s₀ (s.cleanLines ls) := by
  refine h.foldl fun s l h => ?_
  split
  · exact h.ite (.ite h.evictLine (.same h.setLine))
  · exact h

theorem Steady.cleanRanges (h : Steady s₀ s) {d x} : Steady s₀ (s.cleanRanges d x) := h.foldl fun _ _ h => .ite h h.cleanLines

theorem Steady.writePacket (h : Steady s₀ s) {k g r pa n i q va x} : Steady s₀ (s.writePacket k g r pa n i q va x).1 := by
  unfold State.writePacket
  dsimp only
  split
  · exact .same h.storeAll
  · exact h.storeAll

theorem Steady.noteStart (h : Steady s₀ s) {q i n} : Steady s₀ (s.noteStart q i n) := h.same
theorem Steady.reserved {c : Ctx} (h : Steady s₀ c.s) {d pa n i q va x y m} : Steps s₀ (c.reserved d pa n i q va x y m) :=
  .next (Steady.noteStart h.same).setGroup

theorem Steady.landPacket (h : Steady s₀ s) {r} : Steady s₀ (s.landPacket r) := by
  unfold State.landPacket
  split
  · exact h
  · split
    · exact Steady.ite h.useUp.onGroup.partBad (.ite h.bringAll h.cleanRanges.writePacket.setGroup.partDone)
    · exact h

theorem Steady.enqueue {c : Ctx} (h : Steady s₀ c.s) {r d q x va y z} : Steps s₀ (c.enqueue r d q x va y z) := by
  refine .ite h.fault ?_
  split
  · exact h.walkFault
  · exact h.walkFault
  · have learnt {a b w v} : Steady s₀ ((c.s.learn a b w).learn a b v) := h.learn.learn
    refine Steady.withLines (c := { c with s := _ }) learnt ?_
    dsimp only
    split
    · exact h.walkFault
    · refine .ite learnt.finishIn (.ite (.next learnt.useUp.takeFault) (.ite (.next learnt.bringAll) (.ite ?_ ?_)))
      · exact Steady.reserved (c := { c with s := _, g := _ }) learnt.storeNow
      · exact learnt.storeNow.noteStart.writePacket.finishIn

theorem Steady.launch {c : Ctx} (h : Steady s₀ c.s) {f r} : Steps s₀ (c.launch f r) := by
  refine .ite h.fault (.ite h.stall (h.ordered fun c h => ?_))
  dsimp only
  split
  · exact h.finish
  · exact .ite h.finish (h.readWords fun _ _ h => .ite h.finish
      (.ite h.enqueue (.ite h.finish (h.readWords fun _ _ h => .ite h.finish h.enqueue))))

theorem Steady.execLaunch (h : Steady s₀ s) {f} : Steps s₀ (execLaunch f s) := h.issue fun _ h => .ite h.finish (.ite h.stall h.launch)
theorem Steady.execRlaunch (h : Steady s₀ s) {f} : Steps s₀ (execRlaunch f s) := h.issue fun _ h => .ite h.finish (.ite h.stall h.launch)

/-! ### The matrix engine (Matrix) -/

theorem Steady.matrixFault {c : Ctx} (h : Steady s₀ c.s) : Steps s₀ c.matrixFault := h.fault
theorem Steady.execMzero (h : Steady s₀ s) {f} : Steps s₀ (execMzero f s) := h.issue fun _ h => .ite h.finish h.finish

theorem Steady.rendezvous (h : Steady s₀ s) {k n} : Steady s₀ (s.rendezvous k n) := by
  unfold State.rendezvous
  split
  · exact h
  · refine .ite ?_ ?_
    · split
      · exact h.onGroup.takeFault
      · exact h
    · split
      · exact h
      · exact .ite (h.foldl fun _ _ h => h.onGroup) h

theorem Steady.execMrdy (h : Steady s₀ s) {f} : Steps s₀ (execMrdy f s) := by
  refine h.issue fun c h => ?_
  split
  · exact .next h.rendezvous
  · exact .ite h.finish (.ite h.matrixFault (.next (Steady.setGroup h.same).rendezvous))

theorem Steady.formOp (h : Steady s₀ s) {c n xs} : Steady s₀ (s.formOp c n xs) := by
  unfold State.formOp
  exact Steady.onCore (.same (h.foldl fun _ _ h => h.onGroup))

theorem Steady.mmaWord {c : Ctx} (h : Steady s₀ c.s) {f n b d} : Steps s₀ (c.mmaWord f n b d) := by
  refine .ite h.finish (.ite h.matrixFault (.ite h.stall ?_))
  dsimp only
  split
  · exact h.finish
  · refine .ite (.ite (.next (h.foldl fun s e h => ?_)) (.ite h.stall ?_)) h.finish
    · split
      · exact h.takeFault
      · exact h
    · split
      · exact .next (h.finish _ ‹_›).formOp
      · exact h.finish

theorem Steady.execMwait (h : Steady s₀ s) {f} : Steps s₀ (execMwait f s) := h.issue fun _ h => .ite h.finish (.ite h.stall h.finish)
theorem Steady.execMdrain (h : Steady s₀ s) {f} : Steps s₀ (execMdrain f s) := h.issue fun _ h => .ite h.finish (.ite h.stall h.finish)

theorem Steady.execMatrixOpStart (h : Steady s₀ s) {c} : Steps s₀ (execMatrixOpStart c s) := by
  unfold Machine.execMatrixOpStart
  split
  · exact .next h
  · exact .ite (.next h) (.next h.onCore)

theorem Steady.execMatrixOpComplete (h : Steady s₀ s) {c} : Steps s₀ (execMatrixOpComplete c s) := by
  unfold Machine.execMatrixOpComplete
  split
  · exact .next h
  · split
    · exact .next h
    · exact .ite (.next h) (.next (Steady.onCore (.same (Steady.foldl_fst h fun _ _ h => h.setGroup))))

theorem Gives.mapState {o : Option State} {f : State → State} (h : Gives s₀ o) (hf : ∀ s, Steady s₀ s → Steady s₀ (f s)) : Gives s₀ (o.map f) := by
  cases o with
  | none => exact .none
  | some t => exact .some (hf t (h t rfl))

/-! ### Fences, barriers, waits and renewals (Sync, Ready) -/

theorem Steady.execFence (h : Steady s₀ s) {f} : Steps s₀ (execFence f s) := h.access fun _ h => .ite h.finish (.ite h.finish h.stall)
theorem Steady.execWait (h : Steady s₀ s) {f} : Steps s₀ (execWait f s) := h.access fun _ h => .ite h.finish h.stall
theorem Steady.execBar (h : Steady s₀ s) {f} : Steps s₀ (execBar f s) := h.access fun _ h => .ite h.finish (.next h.setGroup.barComplete)

theorem Steady.record {c : Ctx} (h : Steady s₀ c.s) {va w k} (hk : ∀ s pa, Steady s₀ s → Steps s₀ (k s pa)) : Steps s₀ (c.record va w k) := by
  unfold Ctx.record
  refine .ite h.fault ?_
  split
  · exact h.walkFault
  · exact hk _ _ h.learn

theorem Steady.execArrive (h : Steady s₀ s) {f} : Steps s₀ (execArrive f s) :=
  h.access fun _ h => .ite h.finish (.ite h.stall (h.ordered fun _ h => h.record fun _ _ h => (Steady.send h.same).finishIn))
theorem Steady.sendPoll (h : Steady s₀ s) {r g pc pa va n x d} : Steady s₀ (s.sendPoll r g pc pa va n x d) := h.send.setGroup
theorem Steady.execBwait (h : Steady s₀ s) {f} : Steps s₀ (execBwait f s) :=
  h.access fun _ h => .ite h.finish (h.record fun _ _ h => .next h.sendPoll)

theorem Steady.execBwaitReread (h : Steady s₀ s) {r} : Steps s₀ (execBwaitReread r s) := by
  unfold Machine.execBwaitReread
  split
  · exact .next h
  · split
    · refine .ite (.next h) ?_
      split
      · exact .next h.logWalk.onGroup.takeFault
      · exact .next h.learn.sendPoll
    · exact .next h

theorem Steady.execRenew (h : Steady s₀ s) {f} : Steps s₀ (execRenew f s) :=
  h.access fun _ h => .ite h.stall (h.plan.lanewise fun _ _ _ h => (Steady.foldl (Steady.same h) fun _ _ h => h.send).foldl fun _ _ h => h.sendOwner)
theorem Steady.execRdclk (h : Steady s₀ s) {f} : Steps s₀ (execRdclk f s) := h.access fun _ h => h.finish
theorem Steady.issues (h : Steady s₀ s) {r g n} : Steady s₀ (s.issues r g n) := h.onCore.setGroup

/-! ### The Docent: records, blocks and the end of groups (Docent) -/

theorem Steady.execCreep (h : Steady s₀ s) {c} : Steps s₀ (execCreep c s) := .ite (.next h) (.next (Steady.onCore h.same))
theorem Steady.fillQueue (h : Steady s₀ s) {c} : Steady s₀ (s.fillQueue c) := h.foldl fun _ _ h => .ite h h.onCore.onGroup

theorem Steady.execRefill (h : Steady s₀ s) {c} : Steps s₀ (execRefill c s) := by
  unfold Machine.execRefill
  dsimp only
  split
  · exact .next h.fillQueue
  · exact .next h.onCore.onGroup.fillQueue

theorem Steady.takeRecord (h : Steady s₀ s) {c n} : Steady s₀ (s.takeRecord c n).1 := by
  unfold State.takeRecord
  split
  · exact .pair h.onCore
  · split
    · exact .pair h.onGroup
    · exact h

theorem Steady.execSwap (h : Steady s₀ s) {c n} : Steps s₀ (execSwap c n s) := by
  unfold Machine.execSwap
  dsimp only
  split
  · exact .next h
  · refine .ite (.next h) ?_
    split
    · exact .next h
    · refine .next ?_
      split
      · exact h.tail.setGroup.takeRecord.onGroup
      · exact h.tail.setGroup.takeRecord

theorem Steady.retireBlock (h : Steady s₀ s) {b} : Steady s₀ (s.retireBlock b) := by
  unfold State.retireBlock
  split
  · exact h
  · exact .ite h (Steady.onLaunch h.same)

theorem Steady.noteClocks (h : Steady s₀ s) {g} : Steady s₀ (s.noteClocks g) := h.onLaunch
theorem Steady.closeEndpoints (h : Steady s₀ s) {g} : Steady s₀ (s.closeEndpoints g) := h.foldl fun _ _ h => .ite h.closeSink h.closeSource

theorem Steady.reap (h : Steady s₀ s) {l} : Steady s₀ (s.reap l) := by
  unfold State.reap
  split
  · exact h
  · refine .ite h (Steady.tryLaunch (Steady.foldl (.same (Steady.foldl h.same ?_)) ?_))
    · exact fun _ _ h => h.closeEndpoints.noteClocks.retireBlock
    · exact fun _ _ h => (h.foldl fun _ _ h => h.closeEndpoints.noteClocks).onLaunch

theorem Steady.releaseGroup (h : Steady s₀ s) {k g} : Steady s₀ (s.releaseGroup k g) := by
  unfold State.releaseGroup
  exact (Steady.barriers h.closeEndpoints.onCore.noteClocks.growTouch.same).retireBlock

theorem Steady.execGroupRetire (h : Steady s₀ s) {c n} : Steps s₀ (execGroupRetire c n s) := by
  unfold Machine.execGroupRetire
  dsimp only
  split
  · exact .next h
  · refine .ite (.next h) (.next (Steady.releaseGroup ?_).reap.tryLaunch)
    split
    · exact h.takeFault
    · exact h

/-! ### Placement (Place) -/

theorem Steady.startGroup (h : Steady s₀ s) {l k b r n g} : Steady s₀ (s.startGroup l k b r n g) := by
  unfold State.startGroup
  split
  · exact h
  · exact h.setGroup

theorem Steady.startBlock (h : Steady s₀ s) {l r n c x} : Steady s₀ (s.startBlock l r n c x) :=
  (Steady.setBlock h.same).foldl fun _ _ h => h.startGroup

theorem Steady.fillSlot (h : Steady s₀ s) {c n} : Steady s₀ (s.fillSlot c n) := by
  unfold State.fillSlot
  split
  · exact h
  · exact h.onCore.onGroup

theorem Steady.restoreGroup (h : Steady s₀ s) {c js g} : Steady s₀ (s.restoreGroup c js g) := by
  unfold State.restoreGroup
  split
  · exact h
  · exact (h.setGroup.foldl fun _ _ h => h.same).fillSlot

theorem Steady.restoreSpilled (h : Steady s₀ s) {c g} : Steady s₀ (s.restoreSpilled c g) := h.onCore
theorem Steady.restoreBlock (h : Steady s₀ s) {x c} : Steady s₀ (s.restoreBlock x c) :=
  h.dropCore.setBlock.foldl fun _ _ h => .ite h.restoreSpilled h.restoreGroup
theorem Steady.setQuota (h : Steady s₀ s) {d x n} : Steady s₀ (s.setQuota d x n) := h.ite h.setDomain.reportChanged
theorem Steady.ageAll (h : Steady s₀ s) : Steady s₀ s.ageAll := h.same

theorem Steady.setBlocked (h : Steady s₀ s) {c n} : Steady s₀ (s.setBlocked c n) := by
  cases c with
  | packet => exact h.onQueue
  | cohort => exact h.onLaunch
  | region => exact h.onRegion

theorem Steady.markBlocked (h : Steady s₀ s) : Steady s₀ s.markBlocked := (h.foldl fun _ _ h => h.setBlocked).foldl fun _ _ h => h.setBlocked

theorem Steady.placeHead (h : Steady s₀ s) {q cs} : Steady s₀ (s.placeHead q cs) := by
  unfold State.placeHead
  split
  · extract_lets prio id start fresh _ s₁ s₂ ms s₃ s₄
    have h₁ : Steady s₀ s₁ := .ite h h.same
    have h₄ : Steady s₀ s₄ := h₁.onQueue.onLaunch.foldl fun _ _ h => h.startBlock
    exact .ite h₄.dispatchHead h₄
  · exact h

theorem Steady.placeBack (h : Steady s₀ s) {l c cs} : Steady s₀ (s.placeBack l c cs) := Steady.foldl h.same fun _ _ h => h.restoreBlock

theorem Steady.askCarve (h : Steady s₀ s) : Steady s₀ s.askCarve := by
  unfold State.askCarve
  refine .ite h ?_
  split
  · exact h
  · split
    · exact h
    · exact h.foldl fun _ _ h => h.onCore

theorem Steady.endRound (h : Steady s₀ s) : Steady s₀ s.endRound := h.markBlocked.askCarve

theorem Steady.placeOn (h : Steady s₀ s) {c cs} : Steady s₀ (s.placeOn c cs) := by
  unfold State.placeOn
  dsimp only
  split
  · exact h.setBlocked.placeHead
  · exact h.setBlocked.placeBack
  · exact h.setBlocked

theorem Steady.execPlaceCohort (h : Steady s₀ s) : Steps s₀ (execPlaceCohort s) := by
  unfold Machine.execPlaceCohort
  dsimp only
  split
  · exact .next h.ageAll.placeOn.endRound
  · exact .next h.ageAll.endRound

theorem Steady.startInsts (h : Steady s₀ s) {k r b p} : Steady s₀ (s.startInsts k r b p) :=
  h.foldl fun _ _ h => (Steady.onRegion h.same).foldl fun _ _ h => h.setPort

theorem Steady.askImages (h : Steady s₀ s) : Steady s₀ s.askImages := by
  refine h.foldl fun s c h => ?_
  split
  · split
    · exact h.readImage.of_wait ‹_›
    · exact h
  · exact h

theorem Steady.execPlaceRegion (h : Steady s₀ s) : Steps s₀ (execPlaceRegion s) := by
  unfold Machine.execPlaceRegion
  dsimp only
  split
  · exact .next h.ageAll.askImages.markBlocked
  · split
    · split
      · exact .next (Steady.startInsts h.ageAll.setBlocked.same).dispatchHead.askImages.markBlocked
      · exact .next h.ageAll.setBlocked
    · exact .next h.ageAll.setBlocked.onRegion.startInsts.askImages.markBlocked
    · exact .next h.ageAll.setBlocked

theorem Steady.applyCarve (h : Steady s₀ s) {c} : Steady s₀ (s.applyCarve c) := by
  unfold State.applyCarve
  split
  · exact h
  · exact Steady.onCore h.same

theorem Steady.placeKept (h : Steady s₀ s) {q} : Steady s₀ (s.placeKept q) := by
  unfold State.placeKept
  split
  · exact h.placeOn
  · exact h

theorem Steady.execCarveChange (h : Steady s₀ s) {c} : Steps s₀ (execCarveChange c s) := by
  have carved := h.foldl (xs := s.changing) (f := State.applyCarve) fun _ _ h => h.applyCarve
  refine Steps.ite (.next h) (.next ?_)
  split
  · exact carved.placeKept
  · exact carved

/-! ### Queues and their packets (Belfry) -/

/-- What a read of the Belfry leaves when it has to wait. -/
def DevRead.After (s₀ : State) : DevRead → Prop
  | .wait s => Steady s₀ s
  | _ => True

theorem DevRead.After.of_wait {r : DevRead} (h : r.After s₀) (e : r = .wait t) : Steady s₀ t := by
  subst e
  exact h

theorem Steady.readPiece (h : Steady s₀ s) {d va n} : (s.readPiece d va n).After s₀ := by
  unfold State.readPiece
  split
  · trivial
  · dsimp only
    split
    · trivial
    · split
      · exact h.bring
      · trivial

theorem Steady.readPieces (h : Steady s₀ s) {d va n k} : (s.readPieces d va n k).After s₀ := by
  induction k generalizing va n with
  | zero => trivial
  | succ k ih =>
    unfold State.readPieces
    split
    · trivial
    · dsimp only
      split
      · trivial
      · exact h.readPiece.of_wait ‹_›
      · split
        · trivial
        · exact ih.of_wait ‹_›
        · trivial

theorem Steady.belfryRead (h : Steady s₀ s) {d va n} : (s.belfryRead d va n).After s₀ := h.readPieces
theorem Steady.forget (h : Steady s₀ s) {d va n} : Steady s₀ (s.forget d va n) := h.useUp
theorem Steady.noteRead (h : Steady s₀ s) {d va n} : Steady s₀ (s.noteRead d va n) := h.forget.learn
theorem Steady.raiseBelfry (h : Steady s₀ s) {q n d c va x} : Steady s₀ (s.raiseBelfry q n d c va x) := h.same.raise

theorem Steady.queueFault (h : Steady s₀ s) {q n c va x y} : Steady s₀ (s.queueFault q n c va x y) := by
  unfold State.queueFault
  split
  · exact h
  · exact Steady.ite h.forget.onQueue (Steady.raiseBelfry (.ite h.forget.onQueue.logBadAt h.forget.onQueue))

theorem Steady.uncache (h : Steady s₀ s) {q} : Steady s₀ (s.uncache q) := by
  unfold State.uncache
  split
  · exact h
  · exact h.onQueue.owe

theorem Steady.makeRoom (h : Steady s₀ s) : Gives s₀ s.makeRoom := Gives.ite (.some h) (.map fun _ => h.uncache)

theorem Steady.fetchSlots (h : Steady s₀ s) {q w x n} : Steady s₀ (s.fetchSlots q w x n).1 := by
  induction n generalizing s with
  | zero => exact h
  | succ n ih =>
    unfold State.fetchSlots
    split
    · exact h
    · split
      · exact h
      · dsimp only
        split
        · exact .pair h.queueFault
        · exact .pair (h.belfryRead.of_wait ‹_›)
        · split
          · exact h
          · exact ih h.noteRead.onQueue

theorem Steady.onHead (h : Steady s₀ s) {q f} : Steady s₀ (s.onHead q f) := h.onQueue

theorem Steady.registerWaiter (h : Steady s₀ s) {q k pa bs} : Steady s₀ (s.registerWaiter q k pa bs) := by
  unfold State.registerWaiter
  dsimp only
  split
  · exact h.same
  · exact Steady.setHome h.same

theorem Steady.checkWait (h : Steady s₀ s) {q k x} : Steady s₀ (s.checkWait q k x).1 := by
  unfold State.checkWait
  split
  · exact h
  · next q _ =>
    split
    · next w _ _ =>
      split
      · exact h
      · have read := h.belfryRead (d := q.domain) (va := w.va) (n := 32)
        generalize s.belfryRead q.domain w.va 32 = b at read ⊢
        generalize s.trans q.domain w.va wantLoad = r
        cases b with
        | ok bs n =>
          cases r with
          | ok pa near =>
            dsimp only
            split
            · exact .pair h.noteRead.onHead.same
            · split
              · exact .pair h.noteRead
              · split
                · exact .pair h.noteRead.bring
                · exact .pair h.noteRead.registerWaiter.onHead
          | bad => exact h
        | wait => exact .pair read
        | bad => exact .pair h.queueFault.onQueue
    · exact h

theorem Steady.checkWaits (h : Steady s₀ s) {q x} : Steady s₀ (s.checkWaits q x).1 := by
  refine Steady.foldl_fst h fun a k h => ?_
  split
  · exact h.checkWait
  · exact h

theorem Steady.refuse (h : Steady s₀ s) {q c va} : Steady s₀ (s.refuse q c va) := by
  unfold State.refuse
  split
  · exact h
  · split
    · exact h
    · exact Steady.raiseLaunch h.dispatchHead.same

theorem Steady.parseWait (h : Steady s₀ s) {p} : Gives s₀ (s.parseWait p) := by
  unfold State.parseWait
  refine .ite .none ?_
  dsimp only
  split
  · next e =>
    split at e
    · cases e
    · exact .some (h.belfryRead.of_wait e)
  · exact .some (h.belfryRead.of_wait ‹_›)
  · exact .none

theorem Steady.parseDone (h : Steady s₀ s) {p} : Steady s₀ (s.parseDone p) := h.ite h.forget.forget

theorem Steady.completeEmpty (h : Steady s₀ s) {q p d} : Steady s₀ (s.completeEmpty q p d) := by
  unfold State.completeEmpty
  split
  · exact h
  · exact h.dispatchHead.completePacket

theorem Steady.tryReady (h : Steady s₀ s) {q} : Steady s₀ (s.tryReady q) := by
  unfold State.tryReady
  split
  · exact h
  · split
    · exact h
    · refine Steady.ite h ?_
      split
      · exact h
      · exact .ite h.completeEmpty h.onHead.markBlocked
      · exact h.onHead.markBlocked

theorem Steady.retryWaits (h : Steady s₀ s) {q} : Steady s₀ (s.retryWaits q) := by
  unfold State.retryWaits
  dsimp only
  split
  · split
    · exact .ite h.onQueue h
    · exact .ite h.checkWaits.onQueue h.checkWaits
  · exact .ite h.onQueue h

theorem Steady.queuePass (h : Steady s₀ s) {q} : Steady s₀ (s.queuePass q) := by
  unfold State.queuePass
  split
  · exact h
  · refine Steady.ite h (.ite h.retryWaits ?_)
    split
    · exact h.queueFault
    · exact h.belfryRead.of_wait ‹_›
    · refine Steady.ite (Steady.ite h.noteRead.onQueue h.noteRead.onQueue.raiseLaunch) ?_
      split
      · exact h.noteRead
      · next e =>
        have h := Gives.ite (.some h.noteRead) (h.noteRead.makeRoom.mapState fun _ h => h.onQueue) _ e
        exact Steady.ite h.onQueue.fetchSlots.onQueue h.onQueue.fetchSlots

theorem Steady.execBelfryNotice (h : Steady s₀ s) {q} : Steps s₀ (execBelfryNotice q s) := .ite (.next h.queuePass) (.next h)
theorem Steady.execSlotReread (h : Steady s₀ s) {q} : Steps s₀ (execSlotReread q s) := .ite (.next h.queuePass) (.next h)
theorem Steady.execQueueFaultRetry (h : Steady s₀ s) {q} : Steps s₀ (execQueueFaultRetry q s) := .ite (.next h) (.next h.queuePass)
theorem Steady.execQueueRestart (h : Steady s₀ s) {q} : Steps s₀ (execQueueRestart q s) := .ite (.next h) (.next h.queuePass)

theorem Steady.execParse (h : Steady s₀ s) {q} : Steps s₀ (execParse q s) := by
  unfold Machine.execParse
  split
  · exact .next h
  · split
    · exact .next h
    · split
      · exact .next (h.parseWait _ ‹_›)
      · split
        · exact .next h.parseDone.onQueue
        · exact .next h.parseDone.refuse

theorem Steady.dropEnded (h : Steady s₀ s) {q p} : Steady s₀ (s.dropEnded q p) := by
  unfold State.dropEnded
  dsimp only
  split
  · exact h.dispatchHead.tryLaunch
  · exact h.dispatchHead

theorem Steady.execPacketHead (h : Steady s₀ s) {q} : Steps s₀ (execPacketHead q s) := by
  unfold Machine.execPacketHead
  split
  · exact .next h
  · split
    · exact .next h
    · exact .ite (.next h) (.ite (.next (.ite h h.dropEnded)) (.ite (.next h.refuse) (.ite (.next h)
        (.ite (.next h.refuse) (.next (.ite h.checkWaits.tryReady h.checkWaits))))))

theorem Steady.waitAgain (h : Steady s₀ s) {q e} : Steady s₀ (s.waitAgain q e) := by
  unfold State.waitAgain
  split
  · exact .ite h (.ite h.checkWait.tryReady h.checkWait)
  · exact h

theorem Steady.execWaitNotice (h : Steady s₀ s) {q e} : Steps s₀ (execWaitNotice q e s) := .ite (.next h.waitAgain) (.next h)
theorem Steady.execQueueInstall (h : Steady s₀ s) {q a d x} : Steps s₀ (execQueueInstall q a d x s) :=
  .ite (.next h) (.ite (.next (Steady.forgetStarts h.same).reportChanged) (.ite (.next h) (.next (Steady.reportChanged h.same))))

/-! ### Fault records, resolutions, invalidations and evictions (Lantern) -/

/-- What writing a record to its fault queue leaves. -/
def Delivery.After (s₀ : State) : Delivery → Prop
  | .done s _ => Steady s₀ s
  | .wait s => Steady s₀ s
  | _ => True

theorem Delivery.After.of_done {x : Delivery} {n : Nat} (h : x.After s₀) (e : x = .done t n) : Steady s₀ t := by
  subst e
  exact h
theorem Delivery.After.of_wait {x : Delivery} (h : x.After s₀) (e : x = .wait t) : Steady s₀ t := by
  subst e
  exact h

theorem Delivery.After.ite {c : Prop} {_ : Decidable c} {a b : Delivery} (ha : a.After s₀) (hb : b.After s₀) : (if c then a else b).After s₀ := by
  split
  · exact ha
  · exact hb

theorem Steady.writeRecord (h : Steady s₀ s) {r} : (s.writeRecord r).After s₀ := by
  unfold State.writeRecord
  refine Delivery.After.ite trivial ?_
  have read := h.belfryRead (d := r.domain) (va := (s.domain r.domain).faultQueue) (n := 64)
  dsimp only
  generalize s.belfryRead r.domain (s.domain r.domain).faultQueue 64 = b at read ⊢
  cases b with
  | wait => exact read
  | bad => trivial
  | ok bs n =>
    split
    · trivial
    · refine Delivery.After.ite trivial (.ite trivial ?_)
      split
      · have first := h.storeAt.of_done ‹_›
        split
        · trivial
        · exact first.storeAt.of_wait ‹_›
        · have second := first.storeAt.of_done ‹_›
          exact Steady.ite second.forget.setDomain second.forget.setDomain.signal
      · exact h.storeAt.of_wait ‹_›
      · trivial
    · trivial

theorem Steady.discardRecords (h : Steady s₀ s) {r} : Steady s₀ (s.discardRecords r) := Steady.serve h.same

theorem Steady.afterRecord (h : Steady s₀ s) {r} : Steady s₀ (s.afterRecord r) := by
  unfold State.afterRecord
  dsimp only
  split
  · refine Steady.tryRegion ?_
    split
    · exact h.tryLaunch
    · exact h
  · split
    · exact h.tryLaunch
    · exact h

theorem Steady.onRecord (h : Steady s₀ s) {i f} : Steady s₀ (s.onRecord i f) := h.same
theorem Steady.onResident (h : Steady s₀ s) {f} : Steady s₀ (s.onResident f) := h.same
theorem Steady.onAway (h : Steady s₀ s) {f} : Steady s₀ (s.onAway f) := h.same

theorem Steady.tryDeliver (h : Steady s₀ s) {i} : Steady s₀ (s.tryDeliver i) := by
  unfold State.tryDeliver
  split
  · exact h
  · refine h.ite ?_
    dsimp only
    split
    · have sequenced f g := ((h.writeRecord.of_done ‹_›).onResident (f := f)).onAway (f := g)
      refine Steady.afterRecord ?_
      split
      · exact (Steady.ite (sequenced _ _).same (sequenced _ _).same).terminate.reap
      · exact .ite (sequenced _ _).same (sequenced _ _).same
    · exact h.writeRecord.of_wait ‹_›
    · exact h.onRecord
    · exact .ite (Steady.ite h.onRecord h.onRecord.serve).discardRecords.afterRecord (Steady.ite h.onRecord h.onRecord.serve)

theorem Steady.latch (h : Steady s₀ s) : Steady s₀ s.latch := h.ite h.same
theorem Steady.accepted (h : Steady s₀ s) {i} : Steady s₀ (s.accepted i) := h.same
theorem Steady.onSuspended (h : Steady s₀ s) {i f} : Steady s₀ (s.onSuspended i f) := by
  unfold State.onSuspended
  exact h.onResident.onAway
theorem Steady.replayJob (h : Steady s₀ s) {i} : Steady s₀ (s.replayJob i) := h.same

theorem Steady.replayStream (h : Steady s₀ s) {i r} : Steady s₀ (s.replayStream i r) := by
  unfold State.replayStream
  split
  · dsimp only
    split
    · exact h.onRegion
    · refine .ite (.ite h.onRegion.onRegion h.onRegion) ?_
      split
      · exact h.onRegion
      · split
        · exact .ite h.onRegion.portTranslate h.onRegion
        · exact h.onRegion
  · exact h

theorem Steady.execResolutionReplay (h : Steady s₀ s) {i} : Steps s₀ (execResolutionReplay i s) := by
  unfold Machine.execResolutionReplay
  split
  · exact .ite (.next h.accepted.replayStream) (.ite (.next h.accepted.replayJob) (.ite (.next h.accepted.onSuspended) (.next h)))
  · exact .next h

theorem Steady.execResolutionResume (h : Steady s₀ s) {i} : Steps s₀ (execResolutionResume i s) := by
  unfold Machine.execResolutionResume
  split
  · exact .ite (.next h.accepted.onSuspended) (.next h)
  · exact .next h

theorem Steady.abortFor (h : Steady s₀ s) {i} : Gives s₀ (s.abortFor i) := by
  unfold State.abortFor
  refine .ite (.some h.onSuspended) ?_
  split
  · exact .ite (.some h.leaveFrame) .none
  · exact .some h.onAway

theorem Steady.execResolutionAbort (h : Steady s₀ s) {i} : Steps s₀ (execResolutionAbort i s) := by
  unfold Machine.execResolutionAbort
  split
  · refine .ite ?_ (.next h)
    split
    · exact .next (h.accepted.abortFor _ ‹_›)
    · exact .next h
  · exact .next h

theorem Steady.execResolutionTerminate (h : Steady s₀ s) {i} : Steps s₀ (execResolutionTerminate i s) := by
  unfold Machine.execResolutionTerminate
  split
  · refine .ite (.next h) ?_
    split
    · exact .next h.accepted.terminate.reap
    · exact .next h.accepted.endRegion
    · exact .next h
  · exact .next h

theorem Steady.execResolutionContinue (h : Steady s₀ s) {i} : Steps s₀ (execResolutionContinue i s) := by
  unfold Machine.execResolutionContinue
  split
  · exact .ite (.next h.accepted.onSuspended) (.next h)
  · exact .next h

theorem Steady.raiseRequested (h : Steady s₀ s) {q n d l r} : Steady s₀ (s.raiseRequested q n d l r) := h.same.raise

theorem Steady.withdraw (h : Steady s₀ s) {q x p} : Steady s₀ (s.withdraw q x p) := by
  unfold State.withdraw
  refine Steady.raiseRequested (.ite (.same (.onQueue (.same ?_))) (.onQueue (.same ?_)))
  all_goals
    split
    · exact h.retireOutputs
    · exact h

theorem Steady.execTerminationRequest (h : Steady s₀ s) {w q n} : Steps s₀ (execTerminationRequest w q n s) := by
  unfold Machine.execTerminationRequest
  split
  · exact .next h
  · refine .ite (.next h) ?_
    split
    · exact .ite (.next h) (.next h.raiseRequested.terminate.reap)
    · split
      · exact .ite (.next h) (.next h.raiseRequested.endRegion)
      · refine .ite (.next h) ?_
        split
        · exact .next (h.ite h.withdraw)
        · exact .next h.onQueue

theorem Steady.refuseAll (h : Steady s₀ s) {q n} : Steady s₀ (s.refuseAll q n) := by
  induction n generalizing s with
  | zero => exact h
  | succ n ih =>
    unfold State.refuseAll
    split
    · exact h
    · exact .ite (ih h.dropEnded) (.ite h (ih h.refuse))

theorem Steady.abortInto (h : Steady s₀ s) {d} : Steady s₀ (s.abortInto d) := by
  unfold State.abortInto
  exact (h.foldl fun _ _ h => h.abortFramesOf).onAway

theorem Steady.execQuarantine (h : Steady s₀ s) {w d} : Steps s₀ (execQuarantine w d s) := by
  unfold Machine.execQuarantine
  refine .ite (.next h) (.next (Steady.reportChanged (Steady.foldl (Steady.foldl (Steady.abortInto (h.setDomain.foldl ?_)) ?_) ?_)))
  · exact fun _ _ h => h.terminate.reap
  · exact fun _ _ h => h.endRegion
  · exact fun _ _ h => h.refuseAll

theorem Steady.controlWait (h : Steady s₀ s) {d} : Gives s₀ (s.controlWait d) := by
  unfold State.controlWait
  refine .ite .none ?_
  split
  · exact .some (h.belfryRead.of_wait ‹_›)
  · exact .none

theorem Steady.raiseRead (h : Steady s₀ s) {d b} : Steady s₀ (s.raiseRead d b) := (Steady.setDomain h.same).owe
theorem Steady.dropLeaves (h : Steady s₀ s) {d r k} : Steady s₀ (s.dropLeaves d r k) := h.same
theorem Steady.startInvalidation (h : Steady s₀ s) {d r x} : Steady s₀ (s.startInvalidation d r x) := by
  unfold State.startInvalidation
  exact Steady.setDomain h.dropLeaves.same

theorem Steady.execInvalidationRequest (h : Steady s₀ s) {d} : Steps s₀ (execInvalidationRequest d s) := by
  unfold Machine.execInvalidationRequest
  dsimp only
  split
  · next e =>
    split at e
    · exact .next (h.controlWait _ e)
    · cases e
  · split
    · exact .next h.setDomain.startInvalidation
    · refine .ite (.next h) ?_
      split
      · exact .next (h.belfryRead.of_wait ‹_›)
      · exact .next h
      · exact .ite (.next (Steady.raise h.same).raiseRead) (.next h.startInvalidation)
    · exact .next h

theorem Steady.execInvalidationComplete (h : Steady s₀ s) {d} : Steps s₀ (execInvalidationComplete d s) := by
  unfold Machine.execInvalidationComplete
  split
  · exact .next h
  · refine .ite (.next h) ?_
    dsimp only
    split
    · exact .next (Steady.sendFlit h.dropLeaves.setDomain.same)
    · exact .next h.dropLeaves.raiseRead

theorem Steady.execExtentRepatch (h : Steady s₀ s) {d p n} : Steps s₀ (execExtentRepatch d p n s) := by
  unfold Machine.execExtentRepatch
  dsimp only
  split
  · exact .next h
  · split
    · exact .next h
    · refine .ite (.next h) ?_
      split
      · exact .next h.setPort
      · exact .next h.setPort

theorem Steady.matrixWord (h : Steady s₀ s) {r x} (e : s.matrixWord r = some x) : Steps s₀ x := by
  unfold State.matrixWord at e
  split at e
  · cases e
  · split at e
    · split at e
      · cases e
        exact Steady.execMwait h.same
      · cases e
        exact Steady.execMdrain h.same
      · cases e
    · cases e

theorem Steady.endMatrixWait (h : Steady s₀ s) {r} : Steady s₀ (s.endMatrixWait r) := by
  unfold State.endMatrixWait
  split
  · exact .ite (.same (h.matrixWord ‹_› _ rfl)) h
  · exact h

theorem Steady.endMatrixWaits (h : Steady s₀ s) {k g} : Steady s₀ (s.endMatrixWaits k g) := h.foldl fun _ _ h => h.endMatrixWait
theorem Steady.startEviction (h : Steady s₀ s) {l c p} : Steady s₀ (s.startEviction l c p) := h.ite h.same
theorem Steady.execEvictCohort (h : Steady s₀ s) {l c p} : Steps s₀ (execEvictCohort l c p s) := .next h.startEviction
theorem Steady.saveBlock (h : Steady s₀ s) {k b p} : Steady s₀ (s.saveBlock k b p) := Steady.same (h.foldl fun _ _ h => h.growTouch)

theorem Steady.execQuiescence (h : Steady s₀ s) {l c} : Steps s₀ (execQuiescence l c s) := by
  unfold Machine.execQuiescence
  split
  · exact .next h
  · refine .ite (.next h) (.next (.same (Steady.foldl (h.foldl ?_) ?_)))
    · exact fun _ _ h => h.foldl fun _ _ h => h.endMatrixWaits
    · exact fun _ _ h => h.saveBlock

theorem Steady.execSaveMove (h : Steady s₀ s) {i} : Steps s₀ (execSaveMove i s) := by
  unfold Machine.execSaveMove
  split
  · exact .ite (.next h) (.next h.same)
  · dsimp only
    split
    · exact .ite (.next h) (.next h.same)
    · exact .next h

/-! ### The host, the peers and the ports between devices (Host) -/

theorem Steady.logOutside (h : Steady s₀ s) {pa d} : Steady s₀ (s.logOutside pa d) := h.logBad.ite h.tagFails.serveBad
theorem Steady.outsideRead (h : Steady s₀ s) {v pa n d} : Steady s₀ (s.outsideRead v pa n d) :=
  Steady.ite h.logOutside.logRas.answer (Steady.answer h.same)
theorem Steady.raiseMts (h : Steady s₀ s) {l n} : Steady s₀ (s.raiseMts l n) := h.setMts
theorem Steady.outsideWrite (h : Steady s₀ s) {pa d x m} : Steady s₀ (s.outsideWrite pa d x m) :=
  Steady.same (.ite (Steady.raiseMts h.same) (.ite (Steady.setHome h.same) h.setLine.raiseMts))
theorem Steady.outsideAtomic (h : Steady s₀ s) {v pa n d o x y} : Steady s₀ (s.outsideAtomic v pa n d o x y) :=
  Steady.ite h.logOutside.logRas.answer h.outsideWrite.answer
theorem Steady.nearRead (h : Steady s₀ s) {v pa n d} : Steady s₀ (s.nearRead v pa n d) := h.sendOwner.ite h.outsideRead
theorem Steady.nearWrite (h : Steady s₀ s) {v pa d bs} : Steady s₀ (s.nearWrite v pa d bs) := h.sendOwner.ite h.outsideWrite.confirm
theorem Steady.hostDenied (h : Steady s₀ s) : Steady s₀ s.hostDenied := h.same

theorem Steady.execHostRead (h : Steady s₀ s) {a n} : Steps s₀ (execHostRead a n s) := by
  unfold Machine.execHostRead
  refine .ite (.next h) (.ite (.next h.answer) ?_)
  split
  · exact .next h.hostDenied.answer
  · exact .ite (.next h.hostDenied.answer) (.ite (.next h.nearRead) (.next h.outsideRead))

theorem Steady.execHostWrite (h : Steady s₀ s) {a bs} : Steps s₀ (execHostWrite a bs s) := by
  unfold Machine.execHostWrite
  refine .ite (.next h) ?_
  split
  · exact .next h.hostDenied
  · exact .ite (.next h.hostDenied) (.ite (.next h.nearWrite) (.next h.outsideWrite))

theorem Steady.execHostAtomic (h : Steady s₀ s) {a o n x y} : Steps s₀ (execHostAtomic a o n x y s) := by
  unfold Machine.execHostAtomic
  refine .ite (.next h) (.ite (.next h.answer) ?_)
  split
  · exact .next h.hostDenied.answer
  · exact .ite (.next h.hostDenied.answer) (.next h.outsideAtomic)

theorem Steady.execHostWindowInstall (h : Steady s₀ s) {i w} : Steps s₀ (execHostWindowInstall i w s) :=
  .ite (.next h) (.next (Steady.reportChanged h.same))
theorem Steady.execIdeKeyProgram (h : Steady s₀ s) : Steps s₀ (execIdeKeyProgram s) := .ite (.next h) (.next h.same)

theorem Steady.execPeerRequest (h : Steady s₀ s) {q} : Steps s₀ (execPeerRequest q s) := by
  unfold Machine.execPeerRequest
  refine .ite (.next h) ?_
  split
  · refine .next ?_
    split
    · exact Steady.confirm h.same
    · exact Steady.answer h.same
  · split
    · exact .next h.nearRead
    · exact .next h.nearWrite
    · exact .ite (.next h.sendOwner) (.next h.outsideAtomic)
    · exact .next h.outsideRead
    · exact .next h.outsideWrite.confirm
    · exact .next h.outsideAtomic

theorem Steady.onSpire (h : Steady s₀ s) {p f} : Steady s₀ (s.onSpire p f) := h.same
theorem Steady.execFlitReplay (h : Steady s₀ s) {p n} : Steps s₀ (execFlitReplay p n s) := .next h.onSpire

theorem Steady.portDown (h : Steady s₀ s) {p n} : Steady s₀ (s.portDown p n) := by
  unfold State.portDown
  split
  · exact h
  · dsimp only
    split
    · exact h.onSpire
    · exact h.onSpire.onSpire.onSpire.same

theorem Steady.execPortRetrain (h : Steady s₀ s) {p} : Steps s₀ (execPortRetrain p s) := by
  unfold Machine.execPortRetrain
  split
  · exact .next h
  · exact .ite (.next h.portDown) (.ite (.next h) (.next h.onSpire))

theorem Steady.execLaneSpare (h : Steady s₀ s) {p l} : Steps s₀ (execLaneSpare p l s) := by
  unfold Machine.execLaneSpare
  dsimp only
  split
  · exact .next h
  · exact .ite (.next h) (.ite (.ite (.next h.onSpire.serve) (.next h.onSpire.serve.onSpire.serve.reportChanged))
      (.ite (.next h.onSpire.onSpire.serve) (.next h.onSpire.portDown.serve)))

theorem Steady.tell (h : Steady s₀ s) {p m} : Steady s₀ (s.tell p m) := Steady.sendFlit h.same
theorem Steady.execGrantRequest (h : Steady s₀ s) {q} : Steps s₀ (execGrantRequest q s) := .ite (.next h) (.next (Steady.tell h.same).reportChanged)
theorem Steady.clearImport (h : Steady s₀ s) {d p g} : Steady s₀ (s.clearImport d p g) := h.setDomain.reportChanged
theorem Steady.revokeExport (h : Steady s₀ s) {g x} : Steady s₀ (s.revokeExport g x) := (Steady.tell h.same).reportChanged

theorem Steady.execGrantMessage (h : Steady s₀ s) {m} : Steps s₀ (execGrantMessage m s) := by
  unfold Machine.execGrantMessage
  refine .ite (.next h) ?_
  split
  · exact .ite (.next h) (.next h.setDomain.tell.reportChanged)
  · exact .next h.same
  · split
    · exact .next h.clearImport
    · exact .next h.tell
  · exact .next h.same
  · split
    · exact .ite (.next h.revokeExport) (.next h)
    · exact .next h

theorem Steady.execRevoke (h : Steady s₀ s) {r g} : Steps s₀ (execRevoke r g s) := by
  unfold Machine.execRevoke
  split
  · exact .next h
  · exact .ite (.next h) (.next h.revokeExport)

/-! ### Images, start-up and domains (Keep)

An image that is tried, chosen or loaded changes neither the fuses nor the anti-rollback counters. -/

structure SameFuses (k₀ k : Keep) : Prop where
  uds : k.uds = k₀.uds
  serial : k.serial = k₀.serial
  factory : k.factory = k₀.factory
  arb : k.arb = k₀.arb

section
variable {k₀ k k' : Keep} {n : Nat}

theorem SameFuses.refl (k : Keep) : SameFuses k k := ⟨rfl, rfl, rfl, rfl⟩
theorem SameFuses.setKind (h : SameFuses k₀ k) {f} : SameFuses k₀ (k.setKind n f) := ⟨h.uds, h.serial, h.factory, h.arb⟩

theorem SameFuses.trySlot (h : SameFuses k₀ k) {b} (e : k.trySlot n b = some k') : SameFuses k₀ k' := by
  unfold Keep.trySlot at e
  dsimp only at e
  split at e
  · cases e
  · split at e
    · cases e
      exact h.setKind
    · cases e

theorem SameFuses.bootKind (h : SameFuses k₀ k) (e : k.bootKind n = some k') : SameFuses k₀ k' := by
  unfold Keep.bootKind at e
  dsimp only at e
  split at e
  · cases e
    exact (h.trySlot ‹_›).setKind
  · split at e
    · cases e
      exact (h.trySlot ‹_›).setKind
    · cases e

theorem SameFuses.load (h : SameFuses k₀ k) {i} : SameFuses k₀ (k.load i n) := ⟨h.uds, h.serial, h.factory, h.arb⟩

theorem SameFuses.loadKind (h : SameFuses k₀ k) {i} : SameFuses k₀ (k.loadKind i n) := by
  unfold Keep.loadKind
  split
  · exact h.load
  · exact h

theorem SameFuses.bootStage1 (h : SameFuses k₀ k) : SameFuses k₀ k.bootStage1.1 := by
  refine List.foldlRecOn [1, 2, 3] _ (motive := fun a : Keep × Option Nat => SameFuses k₀ a.1) h fun a ha n _ => ?_
  split
  · exact ha
  · split
    · exact ha.bootKind ‹_›
    · exact ha

theorem SameFuses.bootMore (h : SameFuses k₀ k) {i ns} : SameFuses k₀ (k.bootMore i ns) := by
  refine List.foldlRecOn ns _ (motive := SameFuses k₀) h fun k hk n _ => ?_
  split
  · exact (hk.bootKind ‹_›).loadKind
  · exact hk
end

/-- Another Keep with the same fuses and counters. -/
theorem Steady.withKeep (h : Steady s₀ s) {k} (hk : SameFuses s.keep k) : Steady s₀ { s with keep := k } :=
  ⟨hk.uds.trans h.uds, hk.serial.trans h.serial, hk.factory.trans h.factory, fun n => (hk.arb ▸ h.rollback n :), h.power, h.memory⟩
theorem Steady.onKeep (h : Steady s₀ s) {f} (hf : SameFuses s.keep (f s.keep)) : Steady s₀ (s.onKeep f) := h.withKeep hf

/-- A later stage of the start. -/
theorem Steady.enter (h : Steady s₀ s) {b x} (hb : b ≠ .off) : Steady s₀ { s with boot := b, mem := { s.mem with xclk := x } } :=
  ⟨h.uds, h.serial, h.factory, h.rollback, fun on => ⟨hb, (h.power on).2⟩, h.memory⟩

/-- Power comes to a device that has none: it was not on when the step began. -/
theorem Steady.powerUp (h : Steady s₀ s) (off : s.boot = .off) {b n} : Steady s₀ { s with boot := b, now := n } :=
  ⟨h.uds, h.serial, h.factory, h.rollback, fun on => absurd off (h.power on).1, h.memory⟩

theorem Steady.execPowerGood (h : Steady s₀ s) {d} : Steps s₀ (execPowerGood d s) := by
  unfold Machine.execPowerGood
  split
  · exact .next h
  · next off =>
    have off : s.boot = .off := by simpa using off
    refine .ite (.next (Steady.reportChanged h.same)) (.next (Steady.reportChanged ?_))
    exact (Steady.onKeep h ⟨rfl, rfl, rfl, rfl⟩).powerUp off

theorem Steady.startCores (h : Steady s₀ s) {k} : Steady s₀ (s.startCores k) := h.foldl fun _ _ h => h.onCore

theorem Steady.giveGranules (h : Steady s₀ s) {d gs} : Steady s₀ (s.giveGranules d gs) := by
  unfold State.giveGranules
  extract_lets mine lines s₁ m mem
  have h₁ : Steady s₀ s₁ := h.foldl fun _ _ h => h.evictLine
  exact (h₁.withMem (m := mem) Map.wf_filter).withKeep ⟨rfl, rfl, rfl, rfl⟩

theorem Steady.drawKey (h : Steady s₀ s) : Steady s₀ s.drawKey.2 := h.same
theorem Steady.installCurator (h : Steady s₀ s) {d} : Steady s₀ (s.installCurator d) := h.setDomain

theorem Steady.execStage1Entry (h : Steady s₀ s) {c m} : Steps s₀ (execStage1Entry c m s) := by
  unfold Machine.execStage1Entry
  refine .ite (.next h) ?_
  extract_lets b fail k _ _
  have boots : SameFuses s.keep b.1 := (SameFuses.refl _).bootStage1
  have fails n : Steps s₀ (fail b.1 n) := .next (Steady.reportChanged (h.onKeep ⟨boots.uds, boots.serial, boots.factory, boots.arb⟩))
  split
  · exact fails _
  · exact fails _
  · exact fails _
  · extract_lets s₁ _ _ s₃ _ _
    have loaded : SameFuses s.keep k := (List.foldlRecOn [1, 2, 3] _ (motive := SameFuses s.keep) boots fun k hk n _ => hk.loadKind).bootMore
    clear_value k
    have h₁ : Steady s₀ s₁ := Steady.onKeep h.same ⟨loaded.uds, loaded.serial, loaded.factory, loaded.arb⟩
    have h₃ : Steady s₀ s₃ := Steady.giveGranules (Steady.drawKey h₁.startCores)
    clear_value s₃
    exact .next (h₃.setDomain.enter (by decide)).installCurator.reportChanged

theorem Steady.execStage2Entry (h : Steady s₀ s) {b} : Steps s₀ (execStage2Entry b s) := by
  unfold Machine.execStage2Entry
  refine .ite (.next h) (.next (Steady.reportChanged (Steady.enter (.same (Steady.foldl ?_ ?_)) (by decide))))
  · exact Steady.onKeep h.same (SameFuses.refl _).bootMore
  · exact fun _ _ h => .ite (h.foldl fun _ _ h => h.onCore) h.startCores

/-- Power is lost: the fuses and the counters stay, memory is gone, and what has no power has no clock. -/
theorem keeps_powerLoss (e : execPowerLoss s = .next t) : Keeps s t := by
  cases e
  exact ⟨rfl, rfl, rfl, fun _ => le_rfl, fun _ on => absurd rfl on, fun _ => rfl⟩

theorem Steady.execSlotWrite (h : Steady s₀ s) {n b i} : Steps s₀ (execSlotWrite n b i s) :=
  .ite (.next h) (.next (h.onKeep (SameFuses.refl _).setKind).reportChanged)

theorem Steady.afterSwitch (h : Steady s₀ s) {n} : Steady s₀ (s.afterSwitch n) := by
  unfold State.afterSwitch
  split
  · exact .same (h.foldl fun _ _ h => h.uncache)
  · exact h.same
  · exact h

theorem Steady.execSlotSwitch (h : Steady s₀ s) {n} : Steps s₀ (execSlotSwitch n s) := by
  unfold Machine.execSlotSwitch
  refine .ite (.next h) (.ite (.next (h.onKeep (SameFuses.refl _).setKind)) (.ite (.next h) ?_))
  split
  · exact .next h
  · exact .next (Steady.onKeep h.same ((SameFuses.refl _).trySlot ‹_›).setKind.loadKind).afterSwitch.reportChanged

/-- A commit raises the counter of its kind to the version of the loaded image, unless it stands higher (R395). -/
theorem Steady.execCommit (h : Steady s₀ s) {n} : Steps s₀ (execCommit n s) := by
  unfold Machine.execCommit
  dsimp only
  split
  · exact .next h
  · next i _ =>
    refine .ite (.next h) (.next (Steady.reportChanged ⟨h.uds, h.serial, h.factory, fun k => (h.rollback k).trans ?_, h.power, h.memory⟩))
    simp only [State.onKeep, Map.get_set]
    split
    · next e => exact e ▸ le_max_left _ _
    · exact le_rfl

theorem Steady.execOperatorKeyEnroll (h : Steady s₀ s) {k} : Steps s₀ (execOperatorKeyEnroll k s) :=
  .ite (.next h) (.next (Steady.reportChanged h.same))

theorem Steady.execDomainCreate (h : Steady s₀ s) {q} : Steps s₀ (execDomainCreate q s) := by
  unfold Machine.execDomainCreate
  refine .ite (.next h) ?_
  split
  · exact .next h
  · exact .next (h.belfryRead.of_wait ‹_›)
  · next k e _ =>
    have kept : SameFuses s.keep k := by
      split at e
      · exact (SameFuses.refl _).bootKind e
      · cases e
        exact .refl _
    refine .next (Steady.reportChanged (.installCurator (.setDomain (.giveGranules (.drawKey (Steady.onKeep h.same ?_))))))
    split
    · exact kept.loadKind
    · exact kept

theorem Steady.execDomainRelease (h : Steady s₀ s) {d} : Steps s₀ (execDomainRelease d s) := by
  unfold Machine.execDomainRelease
  refine .ite (.next h) (.ite (.next ?_) (.next (Steady.reportChanged (.setDomain (.same ?_)))))
  all_goals exact Steady.foldl (Steady.foldl h.same fun _ _ h => h.revokeExport) fun _ _ h => h.tell

theorem Steady.execGateInstall (h : Steady s₀ s) {r c es} : Steps s₀ (execGateInstall r c es s) := by
  unfold Machine.execGateInstall
  refine .ite (.next h) ?_
  dsimp only
  split
  · exact .next h.same
  · exact .next (Steady.same (h.ite h.setDomain))

theorem Steady.execGetCertificate (h : Steady s₀ s) : Steps s₀ (execGetCertificate s) := by
  unfold Machine.execGetCertificate
  split
  · exact .next h.same
  · exact .next h

theorem Steady.signReport (h : Steady s₀ s) {n u d} : Steady s₀ (s.signReport n u d).1 := h.same

theorem Steady.execGetMeasurements (h : Steady s₀ s) {n u} : Steps s₀ (execGetMeasurements n u s) := by
  unfold Machine.execGetMeasurements
  split
  · exact .next h
  · exact .ite (.next h) (.next h.signReport.same)
  · exact .ite (.next h) (.next (Steady.owe h.signReport.same))

theorem Steady.readTelemetry (h : Steady s₀ s) {w} : Steady s₀ (s.readTelemetry w) := by
  unfold State.readTelemetry
  split
  · exact h.ite h.same
  · exact Steady.ite h.same h

/-! ### Rebase, repair, spares and power (Service, Arrays) -/

theorem Steady.rebase (h : Steady s₀ s) : Steady s₀ s.rebase := h.same
theorem Steady.execRebaseStart (h : Steady s₀ s) : Steps s₀ (execRebaseStart s) := .ite (.next h) (.next h.rebase.serve)
theorem Steady.execRebaseSweepDone (h : Steady s₀ s) : Steps s₀ (execRebaseSweepDone s) := .ite (.next h) (.next (Steady.serve h.same))

theorem Steady.countCorrected (h : Steady s₀ s) {u} : Steady s₀ (s.countCorrected u) := by
  cases u with
  | hbm => exact Steady.ite (Steady.serve h.same) h.same
  | _ => exact h.same

theorem Steady.spoil (h : Steady s₀ s) {u} : Steady s₀ (s.spoil u) := by
  cases u with
  | hbm => exact h.same
  | l2 => exact Steady.ite h.same h
  | _ => exact h

theorem Steady.spoilTag (h : Steady s₀ s) {l} : Steady s₀ (s.spoilTag l) := Steady.spoil h.same

theorem Steady.execPatrolScrub (h : Steady s₀ s) {l f} : Steps s₀ (execPatrolScrub l f s) := by
  unfold Machine.execPatrolScrub
  refine .ite (.next h) ?_
  split
  · exact .next h
  · exact .next h.countCorrected
  · exact .next h.spoil.serveUnit
  · exact .next h.spoilTag.logBad
  · exact .next h.spoil.serveUnit

theorem Steady.execRowRepair (h : Steady s₀ s) {r} : Steps s₀ (execRowRepair r s) :=
  .ite (.next h) (.ite (.next (Steady.serve (.same (Steady.serve h.same))).reportChanged) (.next (Steady.serve h.same)))
theorem Steady.clearL1 (h : Steady s₀ s) {c} : Steady s₀ (s.clearL1 c) := h.same
theorem Steady.newIncarnation (h : Steady s₀ s) {c} : Steady s₀ (s.newIncarnation c) := by
  unfold State.newIncarnation
  exact Steady.onCore h.same

theorem Steady.loseCore (h : Steady s₀ s) {c} : Steady s₀ (s.loseCore c) := by
  unfold State.loseCore
  refine Steady.foldl (Steady.foldl (Steady.onCore (.same (h.foldl ?_))) ?_) ?_
  · exact fun _ _ h => (h.foldl fun _ _ h => .ite h.closeSink h.closeSource).noteClocks
  · exact fun _ _ h => Steady.onLaunch h.same
  · exact fun _ _ h => (Steady.raise h.same).terminate.reap

theorem Steady.replaceCore (h : Steady s₀ s) {c x y} : Steady s₀ (s.replaceCore c x y) :=
  Steady.ite (Steady.onCore (.newIncarnation (.same h.clearL1.serve))).serve h.clearL1.serve.onCore.serve
theorem Steady.execCoreSubstitute (h : Steady s₀ s) {c x y} : Steps s₀ (execCoreSubstitute c x y s) :=
  .ite (.next h) (.ite (.next h.loseCore.replaceCore.reportChanged)
    (.ite (.next h.onCore.replaceCore.reportChanged) (.next (h.onCore.foldl fun _ _ h => h.startEviction))))

theorem Steady.execCoreRejoin (h : Steady s₀ s) {c} : Steps s₀ (execCoreRejoin c s) := by
  unfold Machine.execCoreRejoin
  dsimp only
  split
  · exact .next h
  · exact .ite (.next h) (.next h.clearL1.newIncarnation.onCore.serve.reportChanged)

theorem Steady.execColumnRemap (h : Steady s₀ s) {d c} : Steps s₀ (execColumnRemap d c s) := by
  unfold Machine.execColumnRemap
  extract_lets used unit wait move
  have waits {s} (h : Steady s₀ s) : Steady s₀ (wait s) := h.same
  have moves : Steps s₀ (move s) :=
    .ite (.next (Steady.serve (.same (Steady.serve h.same))).reportChanged) (.next (Steady.serve (.same (Steady.serve h.same))).reportChanged)
  exact .ite (.next h) (.ite (.ite (.next (waits h)) moves) (.ite moves (.next (waits (h.foldl fun _ _ h => h.drainRegion)))))

theorem Steady.moveIndex (h : Steady s₀ s) {k i} : Steady s₀ (s.moveIndex k i) := Steady.same (Steady.setMts (h.foldl fun _ _ h => h.evictLine))

theorem Steady.execSliceRetire (h : Steady s₀ s) {k} : Steps s₀ (execSliceRetire k s) := by
  unfold Machine.execSliceRetire
  refine .ite (.next h) ?_
  extract_lets moved s'
  have h₁ : Steady s₀ moved := h.foldl fun _ _ h => h.moveIndex
  clear_value moved
  exact .next (Steady.serve h₁.same).reportChanged

theorem Steady.execPowerRequest (h : Steady s₀ s) {q} : Steps s₀ (execPowerRequest q s) :=
  .ite (.next h) (.ite (.next (Steady.serve h.same)) (.next (Steady.foldl (.ite h (Steady.serve h.same)) fun _ _ h => h.drainRegion)))
theorem Steady.execOperatingPointChange (h : Steady s₀ s) {i p g} : Steps s₀ (execOperatingPointChange i p g s) :=
  .ite (.next h) (.ite (.ite (.next h.same) (.next h)) (.next h.same))

theorem Steady.serveCore (h : Steady s₀ s) {c d} : Steady s₀ (s.serveCore c d) := h.serve
theorem Steady.serveGroup (h : Steady s₀ s) {k} : Steady s₀ (s.serveGroup k) := h.serveCore

theorem Steady.upsetWord (h : Steady s₀ s) {r x} : Steady s₀ (s.upsetWord r x) := by
  unfold State.upsetWord
  refine .ite ?_ h
  split
  · exact h.serveGroup.takeFault
  · exact h

theorem Steady.upset (h : Steady s₀ s) {x} : Steady s₀ (s.upset x) := by
  cases x with
  | register | table | cached | fetched => exact h.upsetWord
  | codeword => exact h.spoil
  | tag => exact h.spoilTag
  | spad =>
    dsimp only [State.upset]
    split
    · exact h.ite h.serveGroup.performSpad
    · exact h
  | chunk =>
    dsimp only [State.upset]
    split
    · exact h.ite h.serveGroup.landChunk
    · exact h
  | line =>
    dsimp only [State.upset]
    split
    · split
      · exact h.serveGroup.ownerRefuses
      · exact h
    · exact h
  | request =>
    dsimp only [State.upset]
    split
    · split
      · exact (Steady.serveGroup h.same).ownerFault
      · exact h
    · exact h

/-! ### Control transfers and moves (Control, Move) -/

section
variable {c : Ctx} (h : Steady s₀ c.s)
include h
theorem Steady.branchTo {g x} : Steps s₀ (c.branchTo g x) := .ite h.branch h.fault
theorem Steady.divide {k x y d} : Steps s₀ (c.divide k x y d) := .next h.eject.setGroup
theorem Steady.pushStack {k x y d} : Steps s₀ (c.pushStack k x y d) := .ite h.fault (.next h.setGroup)

theorem Steady.joinStack {k} : Steps s₀ (c.joinStack k) := by
  unfold Ctx.joinStack
  split
  · exact h.finish
  · exact .ite h.finish (.ite (.next h.setGroup) (.next h.setGroup))
end

theorem Steady.execBrd (h : Steady s₀ s) {f} : Steps s₀ (execBrd f s) :=
  h.issue fun _ h => .ite h.branch (.ite h.finish (.ite h.pushStack h.divide))
theorem Steady.execJoin (h : Steady s₀ s) {f} : Steps s₀ (execJoin f s) :=
  h.issue fun _ h => .ite h.joinStack (.ite (.next h.setGroup) (.ite (.next h.setGroup) h.await))

theorem Steady.execJoinWake (h : Steady s₀ s) {r} : Steps s₀ (execJoinWake r s) := by
  unfold Machine.execJoinWake
  split
  · exact .next h
  · split
    · exact .ite (.next h.setGroup) (.next h)
    · exact .next h

theorem Steady.execExit (h : Steady s₀ s) {f} : Steps s₀ (execExit f s) :=
  h.issue fun _ h => .next (Steady.ite h.setGroup (.ite h.setGroup h.setGroup)).barriers
theorem Steady.execNap (h : Steady s₀ s) {f} : Steps s₀ (execNap f s) := h.issue fun _ h => .ite (.next h.setGroup) h.finish

theorem Steady.execNapExpiry (h : Steady s₀ s) {r} : Steps s₀ (execNapExpiry r s) := by
  unfold Machine.execNapExpiry
  split
  · exact .next h
  · split
    · exact .ite (.next h.setGroup) (.next h)
    · exact .next h

theorem Steady.execTrap (h : Steady s₀ s) {f} : Steps s₀ (execTrap f s) :=
  h.issue fun _ h => .ite h.finish (.ite h.fault (.ite h.fault (.next h.setGroup)))

theorem Steady.execRdlane (h : Steady s₀ s) {f} : Steps s₀ (execRdlane f s) := by
  refine h.issue fun c h => ?_
  split
  · exact h.finish
  · exact h.finish

theorem Steady.execWrlane (h : Steady s₀ s) {f} : Steps s₀ (execWrlane f s) := by
  refine h.issue fun c h => ?_
  split
  · exact h.finish
  · exact h.finish

theorem Steady.execWrsr (h : Steady s₀ s) {f} : Steps s₀ (execWrsr f s) := by
  refine h.issue fun c h => ?_
  dsimp only
  split
  · exact h.finish
  · split
    · exact h.finish
    · exact h.finish
    · exact h.finish

/-! ### Firings of the annex and words of its sequencers (Fu, Sequencer) -/

theorem Steady.firing (h : Steady s₀ s) {o x} : Steady s₀ (s.firing o x) := by
  unfold State.firing
  split
  · exact h
  · split
    · exact h
    · refine h.ite ?_
      split
      · exact h
      · exact h.blockElem
      · refine h.ite ?_
        dsimp only
        split
        · exact Steady.onInst (Steady.ite h.same h)
        · exact Steady.onInst (Steady.ite h.same h)

section
variable {c : SeqCtx} (h : Steady s₀ c.s)
include h
theorem Steady.seqPut {q} : Steps s₀ (c.put q) := .next h.setSeq
theorem Steady.seqGo {q} : Steps s₀ (c.go q) := h.seqPut
theorem Steady.seqStay : Steps s₀ c.stay := .next h

theorem Steady.seqFail : Steps s₀ c.fail := by
  unfold SeqCtx.fail
  dsimp only
  split
  · exact .next h.setSeq
  · exact .next h.setSeq.failRegion

theorem Steady.seqJump {q x} : Steps s₀ (c.jump q x) := .ite h.seqFail h.seqPut
end

theorem Steady.seqWord (h : Steady s₀ s) {k} (hk : ∀ c : SeqCtx, Steady s₀ c.s → Steps s₀ (k c)) : Steps s₀ (seqWord s k) := by
  unfold Machine.seqWord
  split
  · split
    · exact .fault
    · exact .ite (.next h) (hk _ h)
  · exact .fault

theorem Steady.execSeqUndecodableWord (h : Steady s₀ s) {w} : Steps s₀ (execSeqUndecodableWord w s) := by
  refine h.seqWord fun c h => ?_
  split
  · exact .ite h.seqFail h.seqStay
  · exact h.seqFail

theorem Steady.execSeqLd (h : Steady s₀ s) {f} : Steps s₀ (execSeqLd f s) := by
  refine h.seqWord fun c h => ?_
  split
  · exact h.seqGo
  · exact h.seqFail

theorem Steady.execSeqSt (h : Steady s₀ s) {f} : Steps s₀ (execSeqSt f s) := by
  refine h.seqWord fun c h => ?_
  split
  · exact h.seqGo
  · exact h.seqFail

theorem Steady.execSeqScmd (h : Steady s₀ s) {f} : Steps s₀ (execSeqScmd f s) := by
  refine h.seqWord fun c h => ?_
  dsimp only
  split
  · exact h.seqFail
  · exact .ite h.seqFail (.ite h.seqStay (Steady.seqGo (c := { c with s := _ }) h.onPort))

theorem Steady.execSeqSwait (h : Steady s₀ s) {f} : Steps s₀ (execSeqSwait f s) := h.seqWord fun _ h => .ite h.seqStay h.seqGo
theorem Steady.execSeqSsig (h : Steady s₀ s) {f} : Steps s₀ (execSeqSsig f s) := h.seqWord fun _ h => .ite h.seqFail (.ite h.seqStay h.seqGo)

theorem Steady.execSeqSfault (h : Steady s₀ s) {f} : Steps s₀ (execSeqSfault f s) := by
  refine h.seqWord fun c h => ?_
  split
  · exact h.seqStay
  · exact .ite h.seqStay (Steady.seqGo (c := { c with s := _ }) h.raiseRegion)

/-! ### Operations of the registers and the sequencers that share their form (Float, Integer, Move, Packed, Sequencer) -/

theorem Steady.runF2 (h : Steady s₀ s) {i f x} : Steps s₀ (runF2 i f s x) := by
  unfold Machine.runF2
  exact h.issue fun _ h => h.runV
theorem Steady.runF1 (h : Steady s₀ s) {i f x} : Steps s₀ (runF1 i f s x) := by
  unfold Machine.runF1
  exact h.issue fun _ h => h.runV
theorem Steady.runInt (h : Steady s₀ s) {i f x} : Steps s₀ (runInt i f s x) := by
  unfold Machine.runInt
  exact h.issue fun _ h => h.runV
theorem Steady.runBits (h : Steady s₀ s) {i f x} : Steps s₀ (runBits i f s x) := by
  unfold Machine.runBits
  exact h.issue fun _ h => h.runV
theorem Steady.runShift (h : Steady s₀ s) {i f x} : Steps s₀ (runShift i f s x) := by
  unfold Machine.runShift
  exact h.issue fun _ h => h.runV
theorem Steady.runInt1 (h : Steady s₀ s) {i f x} : Steps s₀ (runInt1 i f s x) := by
  unfold Machine.runInt1
  exact h.issue fun _ h => h.runV
theorem Steady.runH2 (h : Steady s₀ s) {i f x} : Steps s₀ (runH2 i f s x) := by
  unfold Machine.runH2
  exact h.issue fun _ h => h.runV
theorem Steady.runPreds (h : Steady s₀ s) {i f x} : Steps s₀ (runPreds i f s x) := h.issue fun _ h => h.finish
theorem Steady.runCarry {c : Ctx} (h : Steady s₀ c.s) {f x} : Steps s₀ (runCarry f c x) := .ite h.finish h.finish
theorem Steady.runK (h : Steady s₀ s) {f x} : Steps s₀ (runK f s x) := h.seqWord fun _ h => h.seqGo
theorem Steady.runBranch (h : Steady s₀ s) {f x} : Steps s₀ (runBranch f s x) := h.seqWord fun _ h => .ite h.seqJump h.seqGo

/-! ### Every instruction and event (Dispatch) -/

/-- Every instruction and event but the loss of power leaves a steady state. -/
theorem Steady.exec (h : Steady s₀ s) {i} (on : i ≠ .powerLoss) : Steps s₀ (exec i s) := by
  cases i <;> dsimp only [Machine.exec]
  -- A strand's registers and predicates
  case add | sub | mul | mulhi | min_ | max_ => exact h.runInt
  case and_ | or_ | xor_ | andn => exact h.runBits
  case shl | shr | sar | rotl | bfx => exact h.runShift
  case abs_ | neg | not_ | popc | clz | ctz | brev => exact h.runInt1
  case fadd | fsub | fmul | fmin | fmax | fminm => exact h.runF2
  case fabs | fneg | fclass | frcp | frsq | fsqrt | fexp2 | flog2 | fsin | fcos => exact h.runF1
  case hadd2 | hmul2 | hmin2 | hmax2 => exact h.runH2
  case mad | madw | bfi | perm | sel | lea | mov | ffma | hfma2 | hdot2 =>
    dsimp only [execMad, execMadw, execBfi, execPerm, execSel, execLea, execMov, execFfma, execHfma2, execHdot2]
    exact h.issue fun _ h => h.runV
  case cmp | fcmp =>
    dsimp only [execCmp, execFcmp]
    exact h.issue fun _ h => h.runP
  case addc | subc =>
    dsimp only [execAddc, execSubc]
    exact h.issue fun _ h => h.runCarry
  case pand | por | pxor => exact h.runPreds
  case nop | yield | bcast | voteAny | voteAll | ballot | ppopc | pnot | cvtpk | cvtsr | qscale | scanxAdd | compact | expand =>
    dsimp only [execNop, execYield, execBcast, execVoteAny, execVoteAll, execBallot, execPpopc, execPnot, execCvtpk, execCvtsr,
      execQscale, execScanxAdd, execCompact, execExpand]
    exact h.issue fun _ h => h.finish
  case movi | rdsr | cvt =>
    dsimp only [execMovi, execRdsr, execCvt]
    exact h.issue fun _ h => .ite h.finish h.finish
  case rdlane => exact h.execRdlane
  case wrlane => exact h.execWrlane
  case wrsr => exact h.execWrsr
  case shflIdx | shflUp | shflDown | shflXor | qswapH | qswapV | qswapD | qbcast => exact h.runShfl
  case redxAdd | redxMin | redxMax => exact h.runRedx
  -- Its control transfers
  case bra | call =>
    dsimp only [execBra, execCall]
    exact h.issue fun _ h => .ite h.branch h.finish
  case brx | callx | ret | tret =>
    dsimp only [execBrx, execCallx, execRet, execTret]
    exact h.issue fun _ h => .ite h.branchTo h.finish
  case brd => exact h.execBrd
  case join => exact h.execJoin
  case exit_ => exact h.execExit
  case nap => exact h.execNap
  case brk =>
    dsimp only [execBrk]
    exact h.issue fun _ h => .ite h.fault h.finish
  case trap => exact h.execTrap
  case gate => exact h.execGate
  case gret | gabort =>
    dsimp only [execGret, execGabort]
    exact h.issue fun _ h => h.gateReturn
  case rgrow => exact h.execRgrow
  case rshrink => exact h.execRshrink
  case halt => exact h.execHalt
  case haltAll => exact h.execHaltAll
  -- Memory and its order
  case ld | ldx4 =>
    dsimp only [execLd, execLdx4]
    exact h.access fun _ h => h.globalLoad
  case st | stx4 =>
    dsimp only [execSt, execStx4]
    exact h.access fun _ h => h.globalStore
  case lds | ldsx4 =>
    dsimp only [execLds, execLdsx4]
    exact h.access fun _ h => h.spadLoad
  case sts | stsx4 =>
    dsimp only [execSts, execStsx4]
    exact h.access fun _ h => h.spadStore
  case prf => exact h.execPrf
  case atomAdd | atomMin | atomMax | atomAnd | atomOr | atomXor | atomXchg | atomCas | atomFadd | atomFmin | atomFmax | atomBfadd2
    | redAdd | redMin | redMax | redAnd | redOr | redXor | redFadd | redFmin | redFmax | redBfadd2 =>
    dsimp only [execAtomAdd, execAtomMin, execAtomMax, execAtomAnd, execAtomOr, execAtomXor,
      execAtomXchg, execAtomCas, execAtomFadd, execAtomFmin, execAtomFmax, execAtomBfadd2,
      execRedAdd, execRedMin, execRedMax, execRedAnd, execRedOr, execRedXor, execRedFadd, execRedFmin, execRedFmax, execRedBfadd2]
    exact h.access fun _ h => h.atomic
  case fence => exact h.execFence
  case wait => exact h.execWait
  case bar => exact h.execBar
  case arrive => exact h.execArrive
  case bwait => exact h.execBwait
  case renew => exact h.execRenew
  case rdclk => exact h.execRdclk
  -- The courier, the gather engine, the catalogue and the matrix engine
  case sendGlb => exact h.execSendGlb
  case sendPeer | sendm =>
    dsimp only [execSendPeer, execSendm]
    exact h.access fun _ h => .ite h.sendRanks h.finish
  case sendTens => exact h.execSendTens
  case commission => exact h.execCommission
  case cbtest => exact h.execCbtest
  case cbwait => exact h.execCbwait
  case cbclr => exact h.execCbclr
  case tlayout => exact h.execTlayout
  case gath => exact h.execGath
  case scat => exact h.execScat
  case gstat => exact h.execGstat
  case cins | cprb | cdel | cacc =>
    dsimp only [execCins, execCprb, execCdel, execCacc]
    exact h.catAccess fun _ h => h.catalogue
  case cclaim => exact h.execCclaim
  case cfree => exact h.execCfree
  case cdrn => exact h.execCdrn
  case cstat => exact h.execCstat
  case mma | mmaSp | mmx =>
    dsimp only [execMma, execMmaSp, execMmx]
    exact h.issue fun _ h => h.mmaWord
  case mzero => exact h.execMzero
  case mrdy => exact h.execMrdy
  case mwait => exact h.execMwait
  case mdrain => exact h.execMdrain
  -- The annex, near memory and launches
  case asend | aacc =>
    dsimp only [execAsend, execAacc]
    exact h.access fun _ h => h.sendTokens
  case aopen => exact h.execAopen
  case arecv => exact h.execArecv
  case acmd => exact h.execAcmd
  case afence => exact h.execAfence
  case aclose => exact h.execAclose
  case nmr => exact h.execNmr
  case nidx => exact h.execNidx
  case nfence => exact h.execNfence
  case launch => exact h.execLaunch
  case rlaunch => exact h.execRlaunch
  -- Words of the sequencers and of the ports
  case seqAdd | seqSub | seqMul | seqAnd | seqOr | seqXor | seqShl | seqShr | seqShrA => exact h.runK
  case seqAddi | seqLih | seqNop =>
    dsimp only [execSeqAddi, execSeqLih, execSeqNop]
    exact h.seqWord fun _ h => h.seqGo
  case seqBeq | seqBne | seqBlt | seqBge => exact h.runBranch
  case seqJmp | seqJal =>
    dsimp only [execSeqJmp, execSeqJal]
    exact h.seqWord fun _ h => h.seqJump
  case seqStop =>
    dsimp only [execSeqStop]
    exact h.seqWord fun _ h => h.seqPut
  case seqLd => exact h.execSeqLd
  case seqSt => exact h.execSeqSt
  case seqScmd => exact h.execSeqScmd
  case seqSwait => exact h.execSeqSwait
  case seqSsig => exact h.execSeqSsig
  case seqSfault => exact h.execSeqSfault
  case seqUndecodableWord => exact h.execSeqUndecodableWord
  case slin => exact h.execSlin
  case sidx | sgath =>
    dsimp only [execSidx, execSgath]
    exact h.portCommand fun _ h => h.portRows
  case swrite | sred =>
    dsimp only [execSwrite, execSred]
    exact h.portCommand fun _ h => h.portWrites
  case sconst => exact h.execSconst
  case seos => exact h.execSeos
  case scfg =>
    dsimp only [execScfg]
    exact h.portCommand fun _ h => h.portPut
  case sdrain => exact h.execSdrain
  case sbar => exact h.execSbar
  case sland => exact h.execSland
  case spage => exact h.execSpage
  -- Firings of functional units
  case fuFadd | fuFmul | fuFfma | fuFmax | fuFmin | fuBfma2 | fuF8dot4 | fuIadd | fuIsub | fuImul | fuImad | fuAnd | fuOr | fuXor | fuShl | fuShr
    | fuCmp | fuSel | fuAcc | fuMerge | fuSteer | fuRepeat | fuCount | fuAgen | fuTag | fuUntag | fuTagck | fuHash | fuOwner | fuLdt | fuStt
    | fuFifo | fuMcast | fuCtlSeq | fuCtlPipe | fuCtlStream => exact .next h.firing
  -- Events of cores
  case joinWake => exact h.execJoinWake
  case napExpiry => exact h.execNapExpiry
  case bwaitReread => exact h.execBwaitReread
  case courierLand => exact .next h.landChunk
  case commissionDeliver => exact h.execCommissionDeliver
  case commissionResume => exact h.execCommissionResume
  case gathRowLand => exact h.execGathRowLand
  case freqHalve => exact h.execFreqHalve
  case rgrowGrant => exact .next h.grant
  case rgrowSpill => exact h.execRgrowSpill
  case spilledReturn => exact h.execSpilledReturn
  case matrixOpStart => exact h.execMatrixOpStart
  case matrixOpComplete => exact h.execMatrixOpComplete
  case instructionFetch => exact h.execInstructionFetch
  case creep => exact h.execCreep
  case refill => exact h.execRefill
  case swap => exact h.execSwap
  case groupRetire => exact h.execGroupRetire
  -- Events of the annex
  case completionToken => exact h.execCompletionToken
  case mailboxAdd => exact h.execMailboxAdd
  case portTranslate => exact h.execPortTranslate
  case tokenMove => exact h.execTokenMove
  case tileStreamOut => exact h.execTileStreamOut
  case permit => exact h.execPermit
  case doneToken => exact h.execDoneToken
  case creditReturn => exact h.execCreditReturn
  case stageSwap => exact h.execStageSwap
  case stageEnable => exact h.execStageEnable
  case regionLoad => exact h.execRegionLoad
  case regionRunning => exact h.execRegionRunning
  case regionComplete => exact h.execRegionComplete
  case regionDrain => exact h.execRegionDrain
  case regionCheckpoint => exact h.execRegionCheckpoint
  case faultTimeout => exact h.execFaultTimeout
  case streamAccessPerformed => exact h.execStreamAccessPerformed
  case extentRepatch => exact h.execExtentRepatch
  -- Events of memory
  case ownerApply | landingContribution => exact .next h.applyHead
  case ownerCounterReport => exact .next h.serve
  case homeRenew | homeStore | homeAtomic => exact .next h.reachHome
  case fill_ => exact h.execFill
  case storeAck => exact h.execStoreAck
  case atomicComplete => exact h.execAtomicComplete
  case l2Evict => exact h.execL2Evict
  case hostSnoop => exact h.execHostSnoop
  case cxlProxyFill => exact h.execCxlProxyFill
  case cxlGlobalObservation => exact h.execCxlGlobalObservation
  case peerResponse => exact h.execPeerResponse
  -- Events of the Belfry and of the Lantern
  case belfryNotice => exact h.execBelfryNotice
  case slotReread => exact h.execSlotReread
  case parse => exact h.execParse
  case queueFaultRetry => exact h.execQueueFaultRetry
  case queueRestart => exact h.execQueueRestart
  case queueInstall => exact h.execQueueInstall
  case packetHead => exact h.execPacketHead
  case waitNotice => exact h.execWaitNotice
  case waitReread => exact .next h.waitAgain
  case priorityAging | backfillExpiry => exact .next h.onQueue
  case placeCohort => exact h.execPlaceCohort
  case placeRegion => exact h.execPlaceRegion
  case carveChange => exact h.execCarveChange
  case invalidationRequest => exact h.execInvalidationRequest
  case invalidationComplete => exact h.execInvalidationComplete
  case faultDeliver | faultQueueRetry => exact .next h.tryDeliver
  case resolutionReplay => exact h.execResolutionReplay
  case resolutionResume => exact h.execResolutionResume
  case resolutionAbort => exact h.execResolutionAbort
  case resolutionTerminate => exact h.execResolutionTerminate
  case resolutionContinue => exact h.execResolutionContinue
  case terminationRequest => exact h.execTerminationRequest
  case quarantine => exact h.execQuarantine
  case evictCohort => exact h.execEvictCohort
  case quiescence => exact h.execQuiescence
  case saveMove => exact h.execSaveMove
  -- Events of the host, of the peers and of the Keep
  case hostRead => exact h.execHostRead
  case hostWrite => exact h.execHostWrite
  case hostAtomic => exact h.execHostAtomic
  case hostWindowInstall => exact h.execHostWindowInstall
  case peerRequest => exact h.execPeerRequest
  case flitReplay => exact h.execFlitReplay
  case portRetrain => exact h.execPortRetrain
  case laneSpare => exact h.execLaneSpare
  case ideKeyProgram => exact h.execIdeKeyProgram
  case grantRequest => exact h.execGrantRequest
  case grantMessage => exact h.execGrantMessage
  case revoke => exact h.execRevoke
  case gateInstall => exact h.execGateInstall
  case domainCreate => exact h.execDomainCreate
  case domainRelease => exact h.execDomainRelease
  case getCertificate => exact h.execGetCertificate
  case getMeasurements => exact h.execGetMeasurements
  case slotWrite => exact h.execSlotWrite
  case slotSwitch => exact h.execSlotSwitch
  case commit_ => exact h.execCommit
  case operatorKeyEnroll => exact h.execOperatorKeyEnroll
  case powerGood => exact h.execPowerGood
  case stage1Entry => exact h.execStage1Entry
  case stage2Entry => exact h.execStage2Entry
  case powerLoss => exact absurd rfl on
  -- Events of the service processor
  case rebaseStart => exact h.execRebaseStart
  case rebaseSweepDone => exact h.execRebaseSweepDone
  case patrolScrub => exact h.execPatrolScrub
  case rowRepair => exact h.execRowRepair
  case coreSubstitute => exact h.execCoreSubstitute
  case coreRejoin => exact h.execCoreRejoin
  case columnRemap => exact h.execColumnRemap
  case sliceRetire => exact h.execSliceRetire
  case powerRequest => exact h.execPowerRequest
  case operatingPointChange => exact h.execOperatingPointChange

/-! ### A turn, and the step (Step)

From here on the power may go: what is kept is what `Keeps` says, with the state at the start of the step. -/

/-- A turn that leads to a next state keeps what a step keeps. -/
def Preserves (s₀ : State) (r : Res) : Prop := ∀ t, r = .next t → Keeps s₀ t

theorem Steps.preserves {r : Res} (h : Steps s₀ r) : Preserves s₀ r := fun t e => (h t e).keeps

theorem Preserves.ite {c : Prop} {_ : Decidable c} {a b : Res} (ha : Preserves s₀ a) (hb : Preserves s₀ b) : Preserves s₀ (if c then a else b) := by
  split
  · exact ha
  · exact hb

theorem Steady.next (h : Steady s₀ s) : Preserves s₀ (.next s) := (Steps.next h).preserves

theorem Steady.exec_preserves (h : Steady s₀ s) {i} : Preserves s₀ (Machine.exec i s) := by
  by_cases on : i = .powerLoss
  · intro t e
    subst on
    exact h.trans_keeps (keeps_powerLoss e)
  · exact (h.exec on).preserves

theorem Steady.moveReady (h : Steady s₀ s) {r g x} : Preserves s₀ (s.moveReady r g x) := by
  unfold State.moveReady
  split
  · exact h.execInstructionFetch.preserves
  · exact .ite h.issues.fetchFault.next h.next
  · split
    · exact .ite h.issues.takeFault.next h.next
    · exact .ite h.exec_preserves (.ite h.issues.exec_preserves h.next)

theorem Steady.moveStrand (h : Steady s₀ s) {r} : Preserves s₀ (s.moveStrand r) := by
  unfold State.moveStrand
  split
  · exact h.next
  · refine .ite h.landPacket.next (.ite h.next ?_)
    split
    · exact .ite h.next h.moveReady
    · exact h.openGate.next
    · exact h.rendezvous.next
    · exact h.next

theorem Steady.moveSeq (h : Steady s₀ s) {d n} : Preserves s₀ (s.moveSeq d n) := by
  unfold State.moveSeq
  split
  · exact h.next
  · refine .ite h.next ?_
    split
    · exact h.execSeqUndecodableWord.preserves
    · split
      · exact h.exec_preserves
      · exact h.execSeqUndecodableWord.preserves

theorem Steady.movePort (h : Steady s₀ s) {d p} : Preserves s₀ (s.movePort d p) := by
  unfold State.movePort
  split
  · exact h.next
  · split
    · exact h.next
    · split
      · exact h.exec_preserves
      · exact h.next

theorem Steady.move (h : Steady s₀ s) : Preserves s₀ s.move := by
  unfold State.move
  split
  · exact h.next
  · exact h.moveStrand
  · exact h.moveSeq
  · exact h.movePort

theorem Steady.turn (h : Steady s₀ s) {a} : Preserves s₀ (s.turn a) := by
  cases a with
  | agent => exact Steady.move h.same
  | event =>
    dsimp only [State.turn]
    split
    · exact h.next
    · split
      · exact h.exec_preserves
      · exact h.exec_preserves
      · exact h.next
  | dropCopy => exact h.dropCopy.next
  | dropFetch => exact h.dropFetch.next
  | arriveOwner => exact h.arriveOwner.next
  | spad => exact h.performSpad.next
  | dropLeaf => exact h.dropLeaf.next
  | setQuota => exact h.setQuota.next
  | upset => exact h.upset.next
  | corrected => exact (h.countCorrected.ite h).next
  | telemetry => exact h.readTelemetry.next

theorem Keeps.setAgent (k : Keeps s t) {a} : Keeps s { t with agent := a } := ⟨k.uds, k.serial, k.factory, k.rollback, k.time, k.memory⟩

theorem Preserves.keepAgent {r : Res} (h : Preserves s₀ r) {a x} : Preserves s₀ (keepAgent a x r) := by
  unfold Machine.keepAgent
  split
  · exact h
  · intro t e
    cases e
    exact (h _ rfl).setAgent
  · exact h

theorem Steady.take (h : Steady s₀ s) {n a} : Preserves s₀ (s.take n a) := by
  have settled := (Steady.settle (s := { s with agent := .nobody }) h.same).latch.advance (dt := n)
  exact .ite settled.turn.keepAgent (Steady.next settled.same)

theorem preserves_step (s : State) : Preserves s (step s) := by
  unfold step
  split
  · exact (Steady.refl s).take
  · exact Steady.take (Steady.refl s).same

end

/-- Settles O58: every operation of the model carries `Steady` from the state that it starts in to the one that it leaves; the
loss of power alone does not, and keeps what is asked of a device that has none. -/
theorem stepKeeps : Obligations.StepKeeps := preserves_step

end Sys2Proof.Machine

namespace Sys2Proof.Machine

/-! ### Elements of a register (R15, R48) -/

/-- A replaced element takes the low bits of its value, and every other bit stays. -/
theorem getLsbD_setElem {bits i x k : Nat} {w : Word} (hk : k < 32) :
    (setElem bits i w x).getLsbD k = if bits * i ≤ k ∧ k - bits * i < bits then x.testBit (k - bits * i) else w.getLsbD k := by
  simp only [setElem, BitVec.getLsbD_or, BitVec.getLsbD_and, BitVec.getLsbD_not, BitVec.getLsbD_ofNat, hk, Nat.testBit_mul_two_pow,
    Nat.testBit_two_pow_sub_one, Nat.testBit_mod_two_pow]
  by_cases above : bits * i ≤ k <;> by_cases inside : k - bits * i < bits <;> simp [above, inside]

/-- The bits of an element read from a register. -/
theorem testBit_elemOf {bits i k : Nat} {w : Word} : (elemOf bits i w).testBit k = (decide (k < bits) && w.getLsbD (k + bits * i)) := by
  simp only [elemOf, Nat.testBit_mod_two_pow, Nat.testBit_div_two_pow, BitVec.testBit_toNat]

/-- An element that was replaced is read back, and the register's other elements stay. -/
theorem elemOf_setElem {bits i j x : Nat} {w : Word} (hj : bits * (j + 1) ≤ 32) :
    elemOf bits j (setElem bits i w x) = if j = i then x % 2 ^ bits else elemOf bits j w := by
  refine Nat.eq_of_testBit_eq fun k => ?_
  rw [Nat.mul_succ] at hj
  by_cases hk : k < bits
  · rw [testBit_elemOf, getLsbD_setElem (by omega)]
    by_cases e : j = i
    · simp [e, hk, Nat.testBit_mod_two_pow]
    · have apart : ¬ (bits * i ≤ k + bits * j ∧ k + bits * j - bits * i < bits) := by
        rcases Nat.lt_or_gt_of_ne e with below | above
        · have := Nat.mul_le_mul_left bits (Nat.succ_le_of_lt below)
          rw [Nat.mul_succ] at this
          omega
        · have := Nat.mul_le_mul_left bits (Nat.succ_le_of_lt above)
          rw [Nat.mul_succ] at this
          omega
      rw [if_neg apart, if_neg e, testBit_elemOf]
  · split <;> simp [testBit_elemOf, Nat.testBit_mod_two_pow, hk]

/-! ### Words written to lanes (R48) -/

theorem Group.setV_eq_setLane (g : Group) (r l : Nat) (x : Word) : g.setV r l x = g.setLane false r l (x.setWidth 64) := by
  simp [Group.setLane]

/-- A word written to each lane of a list, and the strand goes on. -/
theorem Ctx.finish_words {c : Ctx} (h : c.g.strands.look c.r.entry = some c.st) (d : Nat) (ls : List Nat) (x : Nat → Word) (hls : ∀ l ∈ ls, l < 32) :
    c.Leaves (c.finish ((ls.map fun l => (l, x l)).foldl (fun g e => g.setV d e.1 e.2) c.g)) c.onward
      (fun r l => if r = d ∧ l ∈ ls then x l else c.g.vreg r l) c.g.sreg c.g.predBit := by
  have words := Ctx.finish_lanes h false d ls (fun l => (x l).setWidth 64) hls
  simp only [Group.setLanes, List.foldl_map, ← Group.setV_eq_setLane] at words ⊢
  refine words.congr (fun r l _ => ?_) (fun _ => rfl) fun _ _ _ => rfl
  by_cases hr : r = d <;> by_cases hl : l ∈ ls <;> simp [Ctx.withLanes, hr, hl]

/-- A result of 32 or 64 bits takes the whole destination. -/
theorem Group.setElemV_of_whole {t : Ty} (ht : 32 ≤ t.bits) (g : Group) (r l e : Nat) (old : Word) (x : Nat) :
    g.setElemV t r l e old x = g.setLane t.wide r l (BitVec.ofNat 64 x) := by
  cases t with
  | i64 | n64 => rfl
  | b32 | i32 | n32 | f32 => simp [Group.setElemV, Group.setLane, Ty.wide, Ty.bits, BitVec.setWidth_ofNat_of_le]
  | _ => simp [Ty.bits] at ht

/-- A narrow result replaces its element. -/
theorem Group.setElemV_of_narrow {t : Ty} (ht : ¬ 32 ≤ t.bits) (g : Group) (r l e : Nat) (old : Word) (x : Nat) :
    g.setElemV t r l e old x = g.setV r l (setElem t.bits e old x) := by
  cases t with
  | f16 | bf16 | e4m3 | e5m2 | e2m1 | i8 | n8 => rfl
  | _ => simp [Ty.bits] at ht

/-- A conversion's result in each lane of a list, and the strand goes on: one of 32 or 64 bits takes the whole destination, a narrow
one its element. -/
theorem Ctx.finish_elems {c : Ctx} (h : c.g.strands.look c.r.entry = some c.st) (t : Ty) (d e : Nat) (ls : List Nat) (old : Nat → Word) (x : Nat → Nat)
    (hls : ∀ l ∈ ls, l < 32) :
    let o := c.finish ((ls.map fun l => (l, x l)).foldl (fun g p => g.setElemV t d p.1 e (old p.1) p.2) c.g)
    if 32 ≤ t.bits then c.Leaves o c.onward (c.withLanes t.wide d ls fun l => BitVec.ofNat 64 (x l)) c.g.sreg c.g.predBit
    else c.Leaves o c.onward (fun r l => if r = d ∧ l ∈ ls then setElem t.bits e (old l) (x l) else c.g.vreg r l) c.g.sreg c.g.predBit := by
  dsimp only
  split
  · next whole =>
    have lanes := Ctx.finish_lanes h t.wide d ls (fun l => BitVec.ofNat 64 (x l)) hls
    simpa only [Group.setLanes, List.foldl_map, Group.setElemV_of_whole whole] using lanes
  · next narrow =>
    have words := Ctx.finish_words h d ls (fun l => setElem t.bits e (old l) (x l)) hls
    simpa only [List.foldl_map, Group.setElemV_of_narrow narrow] using words

/-! ### The conversions (R109-R112) -/

/-- A 32-bit operand has no bits above. -/
theorem Ctx.low_opA (c : Ctx) (f : FormV) (l : Nat) : low 32 (c.opA f false l) = c.opA f false l := by
  unfold Ctx.opA
  split <;> simp [low, Ctx.lane]

theorem Ctx.low_opB (c : Ctx) (f : FormV) (imm : BitVec 16 → Dword) (l : Nat) : low 32 (c.opB f imm false l) = c.opB f imm false l := by
  unfold Ctx.opB
  split
  · simp [low]
  · split <;> simp [low, Ctx.lane]

/-- Settles O13: each conversion's results are written by `finish_elems` or `finish_words`, and a scalar's by `finish_scalar`; elements
are compared bit by bit. -/
theorem conversions : Obligations.Conversions := by
  refine ⟨fun f s c => ⟨fun h => ?_, fun h => ?_, fun h => ?_, fun h => ?_⟩, fun bits i j x w _ _ hj => elemOf_setElem hj⟩
  · change if f.u then c.Result (execCvt f s) _ _ _ _ else if _ then c.Leaves (execCvt f s) _ _ _ _ else c.Leaves (execCvt f s) _ _ _ _
    rw [execCvt, issue_runs h]
    by_cases hu : f.u = true
    · simp only [Ctx.Result, hu, if_true]
      by_cases hw : c.wide f.g = true
      · simp only [hw, if_true]
        exact Ctx.finish_scalar h.look _ _
      · simp only [hw, Bool.false_eq_true, if_false]
        exact Ctx.passes h.look
    · simpa only [hu, Bool.false_eq_true, if_false] using Ctx.finish_elems h.look _ _ _ _ _ _ fun _ => Ctx.active_lt
  · change c.Leaves (execCvtpk f s) _ _ _ _
    rw [execCvtpk, issue_runs h]
    simpa only [Ctx.low_opA, Ctx.low_opB] using Ctx.finish_words h.look _ _ _ fun _ => Ctx.active_lt
  · change c.Leaves (execCvtsr f s) _ _ _ _
    rw [execCvtsr, issue_runs h]
    exact Ctx.finish_words h.look _ _ _ fun _ => Ctx.active_lt
  · change c.Leaves (execQscale f s) _ _ _ _
    rw [execQscale, issue_runs h]
    simp only [beq_iff_eq]
    exact Ctx.finish_words h.look _ _ _ fun _ => Ctx.active_lt

end Sys2Proof.Machine

namespace Sys2Proof

/-! ### Patterns of a format (R12, R14) -/

/-- What the formats of R12 have in common: their values are whole numbers of the unit 2^-149, their magnitude codes have room for the
largest finite one, and in a format with infinities the code after it has the all-ones exponent and no fraction. -/
structure Fmt.Regular (F : Fmt) : Prop where
  units : F.bias + F.mbits ≤ 150
  room : F.maxCode < 2 ^ (F.ebits + F.mbits)
  ieee : F.specials = .ieee → F.maxCode + 1 = (2 ^ F.ebits - 1) * 2 ^ F.mbits

theorem fp32_regular : fp32.Regular := ⟨by decide, by decide, fun _ => by decide⟩
theorem fp16_regular : fp16.Regular := ⟨by decide, by decide, fun _ => by decide⟩
theorem bfloat16_regular : bfloat16.Regular := ⟨by decide, by decide, fun _ => by decide⟩
theorem e4m3Fmt_regular : e4m3Fmt.Regular := ⟨by decide, by decide, fun e => nomatch e⟩
theorem e5m2Fmt_regular : e5m2Fmt.Regular := ⟨by decide, by decide, fun _ => by decide⟩
theorem e2m1Fmt_regular : e2m1Fmt.Regular := ⟨by decide, by decide, fun e => nomatch e⟩

section
variable {F : Fmt} {neg : Bool} {c w : Nat}

/-- Every pattern is a sign and a magnitude code. -/
theorem Fmt.eq_code (hw : w < 2 ^ F.bits) : ∃ neg c, c < 2 ^ (F.ebits + F.mbits) ∧ w = F.code neg c := by
  rw [Fmt.bits, Nat.pow_succ] at hw
  by_cases h : w < 2 ^ (F.ebits + F.mbits)
  · exact ⟨false, w, h, by simp [Fmt.code]⟩
  · exact ⟨true, w - 2 ^ (F.ebits + F.mbits), by omega, by simp only [Fmt.code, if_true]; omega⟩

/-- The value that a sign and a magnitude code stand for. -/
theorem Fmt.read_code (hc : c < 2 ^ (F.ebits + F.mbits)) : F.read (F.code neg c) =
    if F.maxCode < c then (if F.specials = .ieee ∧ c % 2 ^ F.mbits = 0 then .inf neg else .nan)
    else if c / 2 ^ F.mbits = 0 then .num neg (c % 2 ^ F.mbits * 2 ^ (150 - F.bias - F.mbits))
    else .num neg ((2 ^ F.mbits + c % 2 ^ F.mbits) * 2 ^ (149 + c / 2 ^ F.mbits - F.bias - F.mbits)) := by
  have split : 2 ^ (F.ebits + F.mbits) = 2 ^ F.mbits * 2 ^ F.ebits := by rw [Nat.add_comm, Nat.pow_add]
  have exponent : c / 2 ^ F.mbits < 2 ^ F.ebits := Nat.div_lt_of_lt_mul (split ▸ hc)
  have fraction : F.code neg c % 2 ^ F.mbits = c % 2 ^ F.mbits := by
    cases neg <;> simp [Fmt.code, split]
  have exponent : F.code neg c / 2 ^ F.mbits % 2 ^ F.ebits = c / 2 ^ F.mbits := by
    cases neg <;> simp [Fmt.code, split, Nat.mul_add_div, Nat.mod_eq_of_lt exponent]
  have magnitude : F.code neg c % 2 ^ (F.ebits + F.mbits) = c := by
    cases neg <;> simp [Fmt.code, Nat.mod_eq_of_lt hc]
  have sign : (F.code neg c / 2 ^ (F.ebits + F.mbits) % 2 == 1) = neg := by
    cases neg <;> simp [Fmt.code, Nat.div_eq_of_lt hc, Nat.add_div_left]
  simp only [Fmt.read, fraction, exponent, magnitude, sign]
  cases F.specials <;> simp

/-- No code up to that of the largest finite magnitude is a NaN's. -/
theorem Fmt.isNan_code (R : F.Regular) (hc : c ≤ F.maxCode) : F.isNan (F.code neg c) = false := by
  rw [Fmt.isNan, Fmt.read_code (hc.trans_lt R.room), if_neg (by omega)]
  split <;> rfl

/-- The magnitude code of the infinities. -/
theorem Fmt.infinity_iff (R : F.Regular) (ieee : F.specials = .ieee) (hc : c < 2 ^ (F.ebits + F.mbits)) (past : F.maxCode < c) :
    c % 2 ^ F.mbits = 0 ↔ c = F.maxCode + 1 := by
  have next := R.ieee ieee
  rw [next]
  refine ⟨fun whole => ?_, fun e => by rw [e, Nat.mul_mod_left]⟩
  obtain ⟨k, rfl⟩ := Nat.dvd_of_mod_eq_zero whole
  rw [Nat.add_comm, Nat.pow_add] at hc
  have below : k < 2 ^ F.ebits := Nat.lt_of_mul_lt_mul_left hc
  have above : 2 ^ F.ebits - 1 ≤ k := by
    refine Nat.le_of_mul_le_mul_right ?_ (Nat.two_pow_pos F.mbits)
    rw [Nat.mul_comm k]
    omega
  rw [show k = 2 ^ F.ebits - 1 by omega, Nat.mul_comm]

theorem Fmt.infinity_lt (R : F.Regular) (ieee : F.specials = .ieee) : F.maxCode + 1 < 2 ^ (F.ebits + F.mbits) := by
  rw [R.ieee ieee, Nat.pow_add]
  exact Nat.mul_lt_mul_of_pos_right (Nat.sub_lt (Nat.two_pow_pos _) Nat.one_pos) (Nat.two_pow_pos _)

theorem Fmt.isNan_infCode (R : F.Regular) (ieee : F.specials = .ieee) : F.isNan (F.infCode neg) = false := by
  have inside := Fmt.infinity_lt R ieee
  rw [Fmt.isNan, Fmt.infCode, Fmt.read_code inside, if_pos (by omega), if_pos ⟨ieee, (Fmt.infinity_iff R ieee inside (by omega)).2 rfl⟩]
  rfl

/-! ### Results of arithmetic are no NaNs but the canonical one (R22) -/

theorem Fmt.isNan_overflow (R : F.Regular) (ieee : F.specials = .ieee) {rm : Rm} : F.isNan (F.overflow rm neg) = false := by
  have largest (neg : Bool) : F.isNan (F.code neg F.maxCode) = false := Fmt.isNan_code R le_rfl
  have infinity (neg : Bool) : F.isNan (F.infCode neg) = false := Fmt.isNan_infCode R ieee
  simp only [Fmt.overflow, ieee]
  cases rm <;> cases neg <;> simp [largest, infinity]

theorem Fmt.isNan_settle (R : F.Regular) (ieee : F.specials = .ieee) {rm : Rm} {sat : Bool} : F.isNan (F.settle rm sat neg c) = false := by
  unfold Fmt.settle
  split
  · next fits => exact Fmt.isNan_code R fits
  · split
    · exact Fmt.isNan_code R le_rfl
    · exact Fmt.isNan_overflow R ieee

theorem Fmt.isNan_round (R : F.Regular) (ieee : F.specials = .ieee) {rm : Rm} {num den : Nat} : F.isNan (F.round rm neg num den) = false :=
  Fmt.isNan_settle R ieee

theorem Fmt.isNan_roundSum (R : F.Regular) (ieee : F.specials = .ieee) {rm : Rm} {x : Int} {den : Nat} : F.isNan (F.roundSum rm neg x den) = false := by
  unfold Fmt.roundSum
  split
  · exact Fmt.isNan_code R (Nat.zero_le _)
  · exact Fmt.isNan_round R ieee

/-- A NaN that a rounded sum gives is the canonical one. -/
theorem Fmt.sum_eq_nanCode (R : F.Regular) (ieee : F.specials = .ieee) {rm : Rm} {den : Nat} {vs : List FpVal} (h : F.isNan (F.sum rm den vs) = true) :
    F.sum rm den vs = F.nanCode := by
  unfold Fmt.sum at h ⊢
  split at h
  · rfl
  · simp [Fmt.isNan_infCode R ieee] at h
  · simp [Fmt.isNan_roundSum R ieee] at h

/-- A NaN that a rounded product gives is the canonical one. -/
theorem Fmt.mul_eq_nanCode (R : F.Regular) (ieee : F.specials = .ieee) {rm : Rm} {a b : Nat} (h : F.isNan (F.mul rm a b) = true) :
    F.mul rm a b = F.nanCode := by
  unfold Fmt.mul at h ⊢
  split at h
  · rfl
  · simp [Fmt.isNan_infCode R ieee] at h
  · simp [Fmt.isNan_round R ieee] at h

/-! ### A value that the format has rounds to its own pattern (R19) -/

theorem log2_mul_two_pow {n t : Nat} (hn : n ≠ 0) : (n * 2 ^ t).log2 = n.log2 + t := by
  rw [Nat.log2_eq_iff (by positivity)]
  have above : n < 2 ^ (n.log2 + 1) := Nat.lt_log2_self
  rw [Nat.pow_add, show n.log2 + t + 1 = n.log2 + 1 + t by omega, Nat.pow_add 2 (n.log2 + 1)]
  exact ⟨Nat.mul_le_mul_right _ (Nat.log2_self_le hn), Nat.mul_lt_mul_of_pos_right above (Nat.two_pow_pos t)⟩

/-- A quotient by 1 has the exponent of its numerator. -/
theorem ilog2_fpOne {m : Nat} (hm : m ≠ 0) : ilog2 m fpOne = m.log2 - 149 := by
  have lower : 2 ^ m.log2 ≤ m := Nat.log2_self_le hm
  simp only [ilog2, fpOne, Nat.log2_two_pow]
  split
  · next whole =>
    rw [← Nat.pow_add, show 149 + ((m.log2 : Int) - (149 : Nat)).toNat = m.log2 by omega, if_pos lower]
    rfl
  · next fraction =>
    have scaled := Nat.mul_le_mul_right (2 ^ (-((m.log2 : Int) - (149 : Nat))).toNat) lower
    rw [← Nat.pow_add, show m.log2 + (-((m.log2 : Int) - (149 : Nat))).toNat = 149 by omega] at scaled
    rw [if_pos scaled]
    rfl

/-- A whole number is not rounded. -/
theorem roundQuot_mul (rm : Rm) (neg : Bool) (n : Nat) {den : Nat} (hd : 0 < den) : roundQuot rm neg (n * den) den = n := by
  have half : (0 = den) = False := by simpa using hd.ne
  cases rm <;> simp [roundQuot, Nat.mul_div_cancel n hd, half]

/-- Units of 2^(t - 149) in a multiple of 2^t. -/
theorem roundQuot_scaleQuot (rm : Rm) (neg : Bool) (n t : Nat) :
    roundQuot rm neg (scaleQuot (n * 2 ^ t) fpOne (t - 149)).1 (scaleQuot (n * 2 ^ t) fpOne (t - 149)).2 = n := by
  unfold scaleQuot fpOne
  split
  · rw [← Nat.pow_add, show 149 + ((t : Int) - 149).toNat = t by omega]
    exact roundQuot_mul rm neg n (Nat.two_pow_pos t)
  · rw [Nat.mul_assoc, ← Nat.pow_add, show t + (-((t : Int) - 149)).toNat = 149 by omega]
    exact roundQuot_mul rm neg n (Nat.two_pow_pos 149)

/-- The spacing at a number of at most `mbits + 1` bits, whose leading bit is set above the subnormal range. -/
theorem Fmt.spacing_mul (R : F.Regular) {n t : Nat} (hn : n ≠ 0) (fits : n < 2 ^ (F.mbits + 1)) (ht : 150 - F.bias - F.mbits ≤ t)
    (normal : t = 150 - F.bias - F.mbits ∨ 2 ^ F.mbits ≤ n) : F.spacing (n * 2 ^ t) fpOne = t - 149 := by
  have units := R.units
  have small : n.log2 < F.mbits + 1 := (Nat.log2_lt hn).2 fits
  have large : 2 ^ F.mbits ≤ n → F.mbits ≤ n.log2 := (Nat.le_log2 hn).2
  have hm : n * 2 ^ t ≠ 0 := by positivity
  simp only [Fmt.spacing, ilog2_fpOne hm, log2_mul_two_pow hn]
  split <;> omega

/-- The magnitude code of a value on the format's grid. -/
theorem Fmt.roundCode_mul (R : F.Regular) {rm : Rm} {n t : Nat} (fits : n < 2 ^ (F.mbits + 1)) (ht : 150 - F.bias - F.mbits ≤ t)
    (normal : t = 150 - F.bias - F.mbits ∨ 2 ^ F.mbits ≤ n) :
    F.roundCode rm neg (n * 2 ^ t) fpOne = n + (t - (150 - F.bias - F.mbits)) * 2 ^ F.mbits := by
  have units := R.units
  unfold Fmt.roundCode
  by_cases hn : n = 0
  · have : 0 < 2 ^ F.mbits := Nat.two_pow_pos _
    rw [if_pos (by simp [hn]), show t - (150 - F.bias - F.mbits) = 0 by omega, hn, Nat.zero_mul]
  · rw [if_neg (by positivity), Fmt.spacing_mul R hn fits ht normal]
    dsimp only
    rw [roundQuot_scaleQuot, Fmt.gridCode, show ((t : Int) - 149 - (1 - (F.bias : Int) - (F.mbits : Int))).toNat = t - (150 - F.bias - F.mbits) by omega]

/-- The magnitude of a finite code rounds to that code. -/
theorem Fmt.exact_code (R : F.Regular) {rm : Rm} (hc : c < 2 ^ (F.ebits + F.mbits)) (number : F.read (F.code neg c) ≠ .nan) :
    F.exact rm (F.read (F.code neg c)) = F.code neg c := by
  have units := R.units
  have parts := Nat.div_add_mod c (2 ^ F.mbits)
  have fraction : c % 2 ^ F.mbits < 2 ^ F.mbits := Nat.mod_lt _ (Nat.two_pow_pos _)
  have double : 2 ^ (F.mbits + 1) = 2 * 2 ^ F.mbits := by rw [Nat.pow_succ, Nat.mul_comm]
  rw [Fmt.read_code hc] at number ⊢
  split at number
  · next past =>
    split at number
    · next infinite =>
      obtain ⟨ieee, whole⟩ := infinite
      rw [if_pos past, if_pos ⟨ieee, whole⟩, (Fmt.infinity_iff R ieee hc past).1 whole]
      rfl
    · exact absurd rfl number
  · next finite =>
    rw [if_neg finite]
    have own : ∀ m, F.roundCode rm neg m fpOne = c → F.exact rm (.num neg m) = F.code neg c := fun m e => by
      rw [Fmt.exact, Fmt.round, e, Fmt.settle, if_pos (by omega)]
    clear number
    generalize c / 2 ^ F.mbits = e, c % 2 ^ F.mbits = m at *
    split
    · next subnormal =>
      refine own _ ?_
      rw [Fmt.roundCode_mul R (by omega) le_rfl (.inl rfl), Nat.sub_self, ← parts, subnormal]
      omega
    · next exponent =>
      obtain ⟨k, rfl⟩ := Nat.exists_eq_succ_of_ne_zero exponent
      refine own _ ?_
      rw [Fmt.roundCode_mul R (by omega) (by omega) (.inr (by omega)), ← parts,
        show 149 + k.succ - F.bias - F.mbits - (150 - F.bias - F.mbits) = k by omega, Nat.mul_succ, Nat.mul_comm k]
      omega

end
end Sys2Proof

namespace Sys2Proof.Machine

/-! ### FP32 instructions (R104-R106) -/

section
variable {i : Instr} {f : FormV} {s : State} {c : Ctx}

theorem result_of_runF1 (h : Runs i s c) (fn : Nat → Nat) (e : exec i s = runF1 i f s fn) :
    c.Result (exec i s) f f.ty false fun l => BitVec.ofNat 64 (fn (c.opA f false l).toNat) := by
  rw [e, runF1, issue_runs h]
  exact runV_result h.look f f.ty false _

theorem result_of_runF2 (h : Runs i s c) (fn : Nat → Nat → Nat) (e : exec i s = runF2 i f s fn) :
    c.Result (exec i s) f f.ty false fun l => BitVec.ofNat 64 (fn (c.opA f false l).toNat (c.opB f immFp false l).toNat) := by
  rw [e, runF2, issue_runs h]
  exact runV_result h.look f f.ty false _

theorem ffma_result (h : Runs (.ffma f) s c) : c.Result (exec (.ffma f) s) f f.ty false fun l =>
    BitVec.ofNat 64 (fp32.fma f.rm (c.opA f false l).toNat (c.opB f immFp false l).toNat (c.opC f false l).toNat) := by
  change c.Result (execFfma f s) _ _ _ _
  rw [execFfma, issue_runs h]
  exact runV_result h.look f f.ty false _

theorem fminm_result (h : Runs (.fminm f) s c) : c.Result (exec (.fminm f) s) f f.ty false fun l =>
    BitVec.ofNat 64 (if fp32.isNan (c.opA f false l).toNat ∨ fp32.isNan (c.opB f immFp false l).toNat then 0x7FC00000
      else fp32.min (c.opA f false l).toNat (c.opB f immFp false l).toNat) := by
  have minm := result_of_runF2 h fp32.minm rfl
  simp only [Fmt.minm, Bool.or_eq_true] at minm
  exact minm

end

/-- The rounding of a faithful function is to one of the two neighbours. -/
theorem faithfulRm_cases (fn a : Nat) : faithfulRm fn a = .ru ∨ faithfulRm fn a = .rd := by
  unfold faithfulRm
  split
  · exact .inl rfl
  · exact .inr rfl

/-- Settles O11: what an instruction does is `result_of_runF1` or `result_of_runF2`, a result is no NaN but the canonical one as no code up to
that of the infinities is a NaN's, and a value on a format's grid is not rounded. -/
theorem floatResults : Obligations.FloatResults := by
  refine ⟨fun f s c => ?_, fun F rm a b d hF => ?_, fun F rm w hF hw number => ?_⟩
  · extract_lets a b d gives faithful
    have pick (fn : Nat) : ∀ w, faithfulRm fn w = .ru ∨ faithfulRm fn w = .rd := faithfulRm_cases fn
    refine ⟨?fadd, ?fsub, ?fmul, ffma_result, ?fmin, ?fmax, fminm_result, ?fabs, ?fneg, ?fclass, ?frcp, ?fsqrt,
      ⟨_, pick 12, ?frsq⟩, ⟨_, pick 14, ?fexp2⟩, ⟨_, pick 15, ?flog2⟩, ⟨_, pick 16, ?fsin⟩, ⟨_, pick 17, ?fcos⟩⟩
    case fadd => exact fun h => result_of_runF2 h (fp32.add f.rm) rfl
    case fsub => exact fun h => result_of_runF2 h (fp32.sub f.rm) rfl
    case fmul => exact fun h => result_of_runF2 h (fp32.mul f.rm) rfl
    case fmin => exact fun h => result_of_runF2 h fp32.min rfl
    case fmax => exact fun h => result_of_runF2 h fp32.max rfl
    case fabs => exact fun h => result_of_runF1 h (fun a => a % 2 ^ 31) rfl
    case fneg => exact fun h => result_of_runF1 h (fun a => (a + 2 ^ 31) % 2 ^ 32) rfl
    case fclass => exact fun h => result_of_runF1 h (fun a => 2 ^ fclassBit a) rfl
    case frcp => exact fun h => result_of_runF1 h (frcpCode f.rm) rfl
    case fsqrt => exact fun h => result_of_runF1 h (fsqrtCode f.rm) rfl
    case frsq => exact fun h => result_of_runF1 h (fun a => frsqCode (faithfulRm 12 a) a) rfl
    case fexp2 => exact fun h => result_of_runF1 h (fun a => fexp2Code (faithfulRm 14 a) a) rfl
    case flog2 => exact fun h => result_of_runF1 h (fun a => flog2Code (faithfulRm 15 a) a) rfl
    case fsin => exact fun h => result_of_runF1 h (fun a => fsincosCode false 16 (faithfulRm 16 a) a) rfl
    case fcos => exact fun h => result_of_runF1 h (fun a => fsincosCode true 17 (faithfulRm 17 a) a) rfl
  · have regular : F.Regular ∧ F.specials = .ieee := by
      rcases hF with rfl | rfl | rfl
      · exact ⟨fp32_regular, rfl⟩
      · exact ⟨fp16_regular, rfl⟩
      · exact ⟨bfloat16_regular, rfl⟩
    obtain ⟨R, ieee⟩ := regular
    exact ⟨Fmt.sum_eq_nanCode R ieee, Fmt.sum_eq_nanCode R ieee, Fmt.mul_eq_nanCode R ieee, Fmt.sum_eq_nanCode R ieee⟩
  · have R : F.Regular := by
      rcases hF with rfl | rfl | rfl | rfl | rfl | rfl
      exacts [fp32_regular, fp16_regular, bfloat16_regular, e4m3Fmt_regular, e5m2Fmt_regular, e2m1Fmt_regular]
    obtain ⟨neg, k, hk, rfl⟩ := Fmt.eq_code hw
    exact Fmt.exact_code R hk number

end Sys2Proof.Machine

namespace Sys2Proof

/-! ### Entries of a table -/

section
variable {α : Type} {m : Map α} {k : Nat} {x : α}

theorem Map.mem_of_look (h : m.look k = some x) : (k, x) ∈ m := by
  induction m with
  | nil => cases h
  | cons e t ih =>
    rw [Map.look_cons] at h
    split at h
    · next here =>
      cases h
      exact here ▸ List.mem_cons_self
    · exact List.mem_cons_of_mem _ (ih h)

theorem Map.mem_put {e : Nat × α} (h : e ∈ m.put k x) : e = (k, x) ∨ e ∈ m := by
  induction m with
  | nil => exact .inl (List.mem_singleton.1 h)
  | cons a t ih =>
    unfold Map.put at h
    split at h
    · exact List.mem_cons.1 h
    · split at h
      · exact (List.mem_cons.1 h).imp_right (List.mem_cons_of_mem _)
      · rcases List.mem_cons.1 h with rfl | there
        · exact .inr List.mem_cons_self
        · exact (ih there).imp_right (List.mem_cons_of_mem _)

/-- A key of a canonical table is listed once. -/
theorem Map.look_of_mem {lo : Option Nat} (rising : Map.rising lo m = true) (h : (k, x) ∈ m) : m.look k = some x := by
  induction m generalizing lo with
  | nil => cases h
  | cons e t ih =>
    simp only [Map.rising, Bool.and_eq_true] at rising
    obtain ⟨_, rest⟩ := rising
    rw [Map.look_cons]
    rcases List.mem_cons.1 h with rfl | there
    · exact if_pos rfl
    · rw [if_neg, ih rest there]
      intro same
      have none := Map.look_rising rest same.ge
      rw [ih rest there] at none
      cases none

/-- What is at a key is changed, and every key stays. -/
def onKey (k : Nat) (F : α → α) (e : Nat × α) : Nat × α := (e.1, if e.1 = k then F e.2 else e.2)

theorem map_onKey_of_not_mem {F : α → α} (h : ∀ e ∈ m, e.1 ≠ k) : m.map (onKey k F) = m := by
  refine (List.map_congr_left fun e he => ?_).trans (List.map_id m)
  rw [onKey, if_neg (h e he)]
  rfl

/-- Setting an entry of a canonical table changes what is at its key. -/
theorem Map.put_eq_map {lo : Option Nat} {F : α → α} (rising : Map.rising lo m = true) (h : m.look k = some x) : m.put k (F x) = m.map (onKey k F) := by
  induction m generalizing lo with
  | nil => cases h
  | cons e t ih =>
    simp only [Map.rising, Bool.and_eq_true] at rising
    obtain ⟨_, rest⟩ := rising
    have above : ∀ a ∈ t, e.1 < a.1 := fun a ha => by
      by_contra le
      have none := Map.look_rising rest (Nat.le_of_not_lt le)
      rw [Map.look_of_mem rest ha] at none
      cases none
    rw [Map.look_cons] at h
    unfold Map.put
    rw [List.map_cons]
    split at h
    · next here =>
      cases h
      have others : ∀ a ∈ t, a.1 ≠ k := fun a ha => here ▸ (above a ha).ne'
      rw [if_neg (by omega), if_pos here, map_onKey_of_not_mem others, onKey, if_pos here, here]
    · next elsewhere =>
      have := above _ (Map.mem_of_look h)
      rw [if_neg (by omega), if_neg elsewhere, ih rest h, onKey, if_neg elsewhere]

/-- Values changed in place are read back changed. -/
theorem Map.look_map_snd {β : Type} {f : α → β} : Map.look (m.map fun e => (e.1, f e.2)) k = (m.look k).map f := by
  induction m with
  | nil => rfl
  | cons e t ih =>
    rw [List.map_cons, Map.look_cons, Map.look_cons, ih]
    split <;> rfl

end
end Sys2Proof

namespace Sys2Proof.Machine

/-! ### Rows of registers written at once (R168, R171) -/

section
variable {v : Map Word} {x : Nat → Word} {r n : Nat}

/-- The lanes of one register. -/
theorem get_writeRow (hn : n < 32) (q : Nat) :
    Map.get 0 ((List.range 32).foldl (fun v l => Map.set 0 v (32 * q + l) (x l)) v) (32 * r + n) = if r = q then x n else Map.get 0 v (32 * r + n) := by
  have some_lanes : ∀ k, k ≤ 32 → Map.get 0 ((List.range k).foldl (fun v l => Map.set 0 v (32 * q + l) (x l)) v) (32 * r + n) =
      if r = q ∧ n < k then x n else Map.get 0 v (32 * r + n) := fun k => by
    induction k with
    | zero => simp
    | succ k ih =>
      intro hk
      rw [List.range_succ, List.foldl_append, List.foldl_cons, List.foldl_nil, Map.get_set, ih (by omega)]
      by_cases last : 32 * r + n = 32 * q + k
      · rw [if_pos last, if_pos (by omega), show n = k by omega]
      · rw [if_neg last]
        exact if_congr (by omega) rfl rfl
  rw [some_lanes 32 le_rfl]
  exact if_congr (by omega) rfl rfl

/-- Registers that are not in the list stay. -/
theorem get_writeRows_of_not_mem {x : Nat → Nat → Word} (hn : n < 32) {rs : List Nat} (hr : r ∉ rs) :
    Map.get 0 (rs.foldl (fun v q => (List.range 32).foldl (fun v l => Map.set 0 v (32 * q + l) (x q l)) v) v) (32 * r + n) = Map.get 0 v (32 * r + n) := by
  refine List.foldlRecOn rs _ (motive := fun u => Map.get 0 u (32 * r + n) = Map.get 0 v (32 * r + n)) rfl fun u hu q hq => ?_
  rw [get_writeRow hn q, if_neg fun e : r = q => hr (e ▸ hq), hu]

/-- A range of registers. -/
theorem get_writeRows_range {x : Nat → Nat → Word} (hn : n < 32) (d k : Nat) :
    Map.get 0 ((List.range k).foldl (fun v i => (List.range 32).foldl (fun v l => Map.set 0 v (32 * (d + i) + l) (x i l)) v) v) (32 * r + n) =
      if d ≤ r ∧ r < d + k then x (r - d) n else Map.get 0 v (32 * r + n) := by
  induction k with
  | zero => rw [if_neg (by omega)]; rfl
  | succ k ih =>
    rw [List.range_succ (n := k), List.foldl_append, List.foldl_cons, List.foldl_nil, get_writeRow hn, ih]
    by_cases last : r = d + k
    · rw [if_pos last, if_pos (by omega), show r - d = k by omega]
    · rw [if_neg last]
      exact if_congr (by omega) rfl rfl

end

/-! ### `mzero` (R172) -/

/-- All lanes of some registers take 0. -/
def Group.zeroed (g : Group) (rs : List Nat) : Group :=
  rs.foldl (fun g r => g.setLanes false r ((List.range 32).map fun l => (l, 0))) g

section
variable {g : Group} {r : Nat} {rs : List Nat}

theorem Group.zeroed_alike : g.Alike (g.zeroed rs) :=
  List.foldlRecOn rs _ (motive := g.Alike) (Group.Alike.refl g) fun _ h _ _ => h.trans (Group.setLanes_alike _ _ _ _)

@[simp] theorem Group.sreg_zeroed (k : Nat) : (g.zeroed rs).sreg k = g.sreg k :=
  List.foldlRecOn rs _ (motive := fun h : Group => h.sreg k = g.sreg k) rfl fun _ h _ _ => by rw [Group.sreg_setLanes, h]

@[simp] theorem Group.predBit_zeroed (k l : Nat) : (g.zeroed rs).predBit k l = g.predBit k l :=
  List.foldlRecOn rs _ (motive := fun h : Group => h.predBit k l = g.predBit k l) rfl fun _ h _ _ => by rw [Group.predBit_setLanes, h]

theorem Group.vreg_zeroed (q : Nat) {l : Nat} (hl : l < 32) : (g.zeroed rs).vreg q l = if q ∈ rs then 0 else g.vreg q l := by
  induction rs generalizing g with
  | nil => rfl
  | cons r rs ih =>
    have row := Group.vreg_setLanes g false r (List.range 32) (fun _ => 0) (fun l => List.mem_range.1) q l hl
    simp only [List.mem_range, hl, if_true, Bool.false_eq_true, false_and, if_false] at row
    rw [Group.zeroed, List.foldl_cons, ← Group.zeroed, ih, row]
    by_cases here : q = r <;> by_cases there : q ∈ rs <;> simp [here, there]

/-- The C range of `mzero`, as the model writes it. -/
theorem Group.setV_range_eq_zeroed (g : Group) (d : Nat) :
    (List.range 64).foldl (fun g i => (List.range 32).foldl (fun g l => g.setV (d + i) l 0) g) g = g.zeroed ((List.range 64).map (d + ·)) := by
  have zero : (0 : Word).setWidth 64 = 0 := rfl
  simp only [Group.zeroed, List.foldl_map, Group.setLanes, Group.setV_eq_setLane, zero]

theorem mem_registers {d n : Nat} : r ∈ (List.range n).map (d + ·) ↔ d ≤ r ∧ r < d + n := by
  simp only [List.mem_map, List.mem_range]
  exact ⟨by omega, fun h => ⟨r - d, by omega, by omega⟩⟩

end

theorem mzero_leaves {f : FormV} {s : State} {c : Ctx} (wide : c.wide f.g = true) (h : Runs (.mzero f) s c) :
    c.Leaves (exec (.mzero f) s) c.onward (fun r n => if f.d.toNat ≤ r ∧ r < f.d.toNat + 64 then 0 else c.g.vreg r n) c.g.sreg c.g.predBit := by
  change c.Leaves (execMzero f s) _ _ _ _
  rw [execMzero, issue_runs h, if_pos wide, Group.setV_range_eq_zeroed]
  exact (Ctx.finish_leaves h.look Group.zeroed_alike).congr (fun r l hl => by simp only [Group.vreg_zeroed r hl, mem_registers])
    Group.sreg_zeroed fun k l _ => Group.predBit_zeroed k l

/-! ### A group that goes on -/

theorem Runs.groups {i : Instr} {s : State} {c : Ctx} (h : Runs i s c) : c.s.groups = s.groups ∧ c.s.mem = s.mem ∧ c.s.cores = s.cores ∧ c.s.now = s.now := by
  rw [h.reads]
  dsimp only
  split <;> exact ⟨rfl, rfl, rfl, rfl⟩

theorem Runs.key_eq {i : Instr} {s : State} {c : Ctx} (h : Runs i s c) : c.key = gkey c.r.core c.r.slot := by
  rw [h.reads]

theorem Runs.group_look {i : Instr} {s : State} {c : Ctx} (h : Runs i s c) : s.groups.look c.key = some c.g := by
  have at_ := h.strand
  unfold State.strandAt at at_
  rw [← h.key_eq] at at_
  cases e : s.groups.look c.key with
  | none => rw [e] at at_; cases at_
  | some g =>
    rw [e] at at_
    dsimp only at at_
    split at at_
    · cases at_
    · cases at_; rfl

/-- The strand of `c` is that of a group of the next state. -/
theorem Ctx.goesOn_of_look {c : Ctx} {t : State} {g : Group} {st : Strand} (key : c.key = gkey c.r.core c.r.slot) (hg : t.groups.look c.key = some g)
    (hs : g.strands.look c.r.entry = some st) (pc : st.pc = c.st.pc + 8) (mask : st.mask = c.st.mask) (ready : st.wait = .ready) : c.GoesOn t := by
  refine ⟨g, st, ?_, pc, mask, ready⟩
  rw [State.strandAt, ← key, hg]
  dsimp only
  rw [hs]

/-- The group's new value when the instruction completes. -/
def Ctx.finished (c : Ctx) (g : Group) : Group := { g with strands := g.strands.put c.r.entry c.onward }

theorem Ctx.finish_eq {c : Ctx} {g : Group} (hs : g.strands.look c.r.entry = some c.st) : c.finish g = .next (c.s.setGroup c.key (c.finished g)) := by
  rw [Ctx.finish, Group.onStrand_eq hs]
  rfl

theorem Ctx.goesOn_finished {c : Ctx} {t : State} {g h : Group} (key : c.key = gkey c.r.core c.r.slot) (ht : t.groups.look c.key = some h)
    (strands : h.strands = (c.finished g).strands) : c.GoesOn t :=
  Ctx.goesOn_of_look key ht (st := c.onward) (by rw [strands]; exact Map.look_put_same _ _ _) rfl rfl rfl

/-! ### `mwait` and `mdrain` (R172) -/

/-- What the statement says of a word that gives registers back. -/
def Ctx.Returns (c : Ctx) (o : Res) (s : State) (sel : Owned → Prop) : Prop :=
  ∃ t g, o = .next t ∧ c.GoesOn t ∧ t.mem = s.mem ∧ t.groups.look c.key = some g ∧ (∀ o ∈ g.owned, ¬ sel o) ∧
    (∀ o ∈ c.g.owned, ¬ sel o → o ∈ g.owned) ∧ (∀ k, g.sreg k = c.g.sreg k) ∧
    ∀ r n, n < 32 → (∀ o ∈ c.g.owned, sel o → r ∉ o.cWritten) → g.vreg r n = c.g.vreg r n

section
variable {g : Group} {sel : Owned → Bool} {free : Nat}

theorem Group.mem_giveBack_owned (complete : ∀ o ∈ g.owned, sel o = true → o.complete = true) {o : Owned} :
    o ∈ (g.giveBack sel free).owned ↔ o ∈ g.owned ∧ sel o = false := by
  simp only [Group.giveBack, List.mem_filter]
  refine and_congr_right fun mem => ?_
  by_cases chosen : sel o = true
  · simp [chosen, complete o mem chosen]
  · simp [chosen]

/-- Only registers that were written meanwhile lose their value. -/
theorem Group.vreg_giveBack {r n : Nat} (hn : n < 32) (kept : ∀ o ∈ g.owned, sel o = true → r ∉ o.cWritten) :
    (g.giveBack sel free).vreg r n = g.vreg r n := by
  refine get_writeRows_of_not_mem (x := fun r l => (Config.freeWord (free * 8192 + 32 * r + l)).setWidth 32) hn fun mem => ?_
  obtain ⟨o, chosen, written⟩ := List.mem_flatMap.1 (List.mem_of_mem_filter mem)
  simp only [List.mem_filter, Bool.and_eq_true] at chosen
  exact kept o chosen.1 chosen.2.2 written

end

/-- A word that completes with registers given back. -/
theorem Ctx.returns_giveBack {i : Instr} {s : State} {c : Ctx} (h : Runs i s c) (sel : Owned → Bool) (complete : ∀ o ∈ c.g.owned, sel o = true → o.complete = true)
    (armed : Bool) : c.Returns (c.finish { c.g.giveBack sel c.free with armed := armed }) s fun o => sel o = true := by
  obtain ⟨_, mem, _, _⟩ := h.groups
  have hs : ({ c.g.giveBack sel c.free with armed := armed } : Group).strands.look c.r.entry = some c.st := h.look
  have given (o : Owned) : o ∈ (c.g.giveBack sel c.free).owned ↔ o ∈ c.g.owned ∧ sel o = false := Group.mem_giveBack_owned complete
  have look := Map.look_put_same c.s.groups c.key (c.finished { c.g.giveBack sel c.free with armed := armed })
  refine ⟨_, _, Ctx.finish_eq hs, Ctx.goesOn_finished h.key_eq look rfl, mem, look, fun o ho => ?_, fun o ho other => ?_, fun _ => rfl, fun r n hn => ?_⟩
  · simpa using ((given o).1 ho).2
  · exact (given o).2 ⟨ho, by simpa using other⟩
  · exact Group.vreg_giveBack hn

section
variable {f : FormV} {s : State} {c : Ctx}

/-- Nothing that is waited for is still to complete. -/
theorem not_any_incomplete {os : List Owned} {sel : Owned → Bool} (complete : ∀ o ∈ os, sel o = true → o.complete = true) :
    (os.any fun o => sel o && !o.complete) = false := by
  rw [List.any_eq_false]
  intro o ho
  by_cases chosen : sel o = true
  · simp [chosen, complete o ho chosen]
  · simp [chosen]

theorem mwait_returns (wide : c.wide f.g = true) (h : Runs (.mwait f) s c) (complete : ∀ o ∈ c.g.owned, o.tag = f.x.toNat % 4 → o.complete = true) :
    c.Returns (exec (.mwait f) s) s fun o => o.tag = f.x.toNat % 4 := by
  have complete : ∀ o ∈ c.g.owned, (o.tag == f.x.toNat % 4) = true → o.complete = true := fun o ho e => complete o ho (beq_iff_eq.1 e)
  change c.Returns (execMwait f s) _ _
  rw [execMwait, issue_runs h]
  simp only [wide, Bool.not_true, Bool.false_eq_true, if_false, not_any_incomplete complete]
  have back := Ctx.returns_giveBack h (fun o => o.tag == f.x.toNat % 4) complete c.g.armed
  simp only [beq_iff_eq] at back
  exact back

theorem mdrain_returns (wide : c.wide f.g = true) (h : Runs (.mdrain f) s c) (complete : ∀ o ∈ c.g.owned, True → o.complete = true) :
    c.Returns (exec (.mdrain f) s) s fun _ => True := by
  have complete : ∀ o ∈ c.g.owned, true = true → o.complete = true := fun o ho _ => complete o ho trivial
  have none : (c.g.owned.any fun o => !o.complete) = false := by simpa using not_any_incomplete complete
  change c.Returns (execMdrain f s) _ _
  rw [execMdrain, issue_runs h]
  simp only [wide, Bool.not_true, Bool.false_eq_true, if_false, none]
  simpa only using Ctx.returns_giveBack h (fun _ => true) complete false

end

/-! ### Exact integer sums (R29) -/

/-- An integer result is the exact sum: the groups of 16 positions are taken one after another. -/
theorem Quartet.result_int (q : Quartet) (w : MmaWord) (i n : Nat) (ty : w.ty = .i8 ∨ w.ty = .n8) (fn : w.fn = 2) (sat : w.sat = false) :
    q.result w i n = BitVec.ofInt 32 (((List.range 128).map fun k => mmaInt w.ty (q.a w.ty i k) * mmaInt w.ty (q.b w.ty k n)).foldl (· + ·) (Int.ofNat (q.c i n))) := by
  have int : w.ty.isInt = true := by rcases ty with e | e <;> rw [e] <;> rfl
  have groups : mmaK 2 w.ty / 16 = 8 := by rcases ty with e | e <;> rw [e] <;> rfl
  have positions : List.range 128 = (List.range 8).flatMap fun grp => (List.range 16).map fun x => 16 * grp + x := by decide
  have shift : ∀ (xs : List Nat) (g : Nat → Int) (a : Int), xs.foldl (fun acc k => acc + g k) a = a + xs.foldl (fun acc k => acc + g k) 0 := fun xs g => by
    induction xs with
    | nil => simp
    | cons k xs ih =>
      intro a
      rw [List.foldl_cons, List.foldl_cons, ih, ih (0 + g k)]
      omega
  unfold Quartet.result
  simp only [int, if_true, sat, Bool.false_eq_true, if_false, fn, groups, Quartet.pairs]
  rw [List.foldl_map, shift, positions, List.foldl_flatMap]
  simp only [List.foldl_map, BitVec.ofInt_add, BitVec.ofInt_toInt]
  rfl

end Sys2Proof.Machine

namespace Sys2Proof.Machine

/-! ### A change of several groups -/

section
variable {F : Group → Group} {s : State} {xs : List (Nat × Group)} {k : Nat}

/-- The same change of the groups at some keys: each takes it as often as its key occurs. -/
theorem State.look_foldl_onGroup :
    (xs.foldl (fun s e => s.onGroup e.1 F) s).groups.look k = (s.groups.look k).map F^[(xs.map (·.1)).count k] := by
  induction xs generalizing s with
  | nil => simp
  | cons e xs ih =>
    rw [List.foldl_cons, ih, State.onGroup_groups, Map.look_adjust, List.map_cons, List.count_cons]
    by_cases here : e.1 = k
    · simp [here, Option.map_map, Function.iterate_succ]
    · simp [here, Ne.symm here]

/-- Nothing but groups changes. -/
theorem State.foldl_onGroup_eq : ∃ gs, xs.foldl (fun s e => s.onGroup e.1 F) s = { s with groups := gs } :=
  List.foldlRecOn xs _ (motive := fun t => ∃ gs, t = { s with groups := gs }) ⟨_, rfl⟩ fun t ⟨_, e⟩ _ _ => ⟨_, by rw [e]; rfl⟩

end

/-- Groups set by rank. -/
def setRanked {α : Type} (key : α → Nat) (W : α → Nat → Group) (zs : List α) (a : State × Nat) : State × Nat :=
  zs.foldl (fun a z => (a.1.setGroup (key z) (W z a.2), a.2 + 1)) a

section
variable {α : Type} {key : α → Nat} {W : α → Nat → Group} {zs : List α} {a : State × Nat}

theorem setRanked_cons (z : α) : setRanked key W (z :: zs) a = setRanked key W zs (a.1.setGroup (key z) (W z a.2), a.2 + 1) := rfl

theorem look_setRanked_of_not_mem {k : Nat} (h : k ∉ zs.map key) : (setRanked key W zs a).1.groups.look k = a.1.groups.look k := by
  induction zs generalizing a with
  | nil => rfl
  | cons z zs ih =>
    rw [List.map_cons, List.mem_cons, not_or] at h
    rw [setRanked_cons, ih h.2]
    exact Map.look_put_other _ _ h.1

/-- The group of each rank takes the value of its rank. -/
theorem look_setRanked (nodup : (zs.map key).Nodup) {rank : Nat} {z : α} (h : zs[rank]? = some z) :
    (setRanked key W zs a).1.groups.look (key z) = some (W z (a.2 + rank)) := by
  induction zs generalizing a rank with
  | nil => cases h
  | cons y zs ih =>
    rw [List.map_cons, List.nodup_cons] at nodup
    rw [setRanked_cons]
    cases rank with
    | zero =>
      cases h
      rw [look_setRanked_of_not_mem nodup.1]
      exact Map.look_put_same _ _ _
    | succ rank =>
      rw [ih nodup.2 h]
      simp only [Nat.add_assoc, Nat.add_comm 1]

theorem setRanked_eq : ∃ gs, (setRanked key W zs a).1 = { a.1 with groups := gs } := by
  induction zs generalizing a with
  | nil => exact ⟨_, rfl⟩
  | cons z zs ih =>
    obtain ⟨gs, e⟩ := ih (a := (a.1.setGroup (key z) (W z a.2), a.2 + 1))
    exact ⟨gs, e⟩

end

/-! ### An operation starts and completes (R170, R172) -/

section
variable {s : State} {core : Nat} {o : MatOp} {rest : List MatOp}

theorem matrixOpStart_starts (engine : (s.core core).engine = o :: rest) (idle : o.started = none) :
    ∃ t, exec (.matrixOpStart core) s = .next t ∧ (t.core core).engine = { o with started := some s.now } :: rest ∧ t.groups = s.groups := by
  refine ⟨s.onCore core fun c => { c with engine := { o with started := some s.now } :: rest }, ?_, ?_, rfl⟩
  · change execMatrixOpStart core s = _
    simp only [execMatrixOpStart, engine, idle, Option.isSome_none, Bool.false_eq_true, if_false]
  · simp only [State.core, State.onCore, State.setCore_cores, Map.get_set_same]

/-- Registers that the engine holds for no other operation are read as they are. -/
theorem Group.blurred_eq {g : Group} {id rank free : Nat} (h : ∀ x ∈ g.owned, x.op = some id → x.undef = []) : g.blurred id rank free = g := by
  have none : (g.owned.filter fun o => o.op == some id).flatMap (·.undef) = [] := by
    rw [List.flatMap_eq_nil_iff]
    intro x hx
    simp only [List.mem_filter, beq_iff_eq] at hx
    exact h x hx.1 hx.2
  rw [Group.blurred, none]
  rfl

/-- The C range takes the results, and every other register stays. -/
theorem Group.vreg_writeC {g : Group} {q : Quartet} {w : MmaWord} {rank id free : Nat} (h : ∀ x ∈ g.owned, x.op = some id → x.cWritten = [])
    {r n : Nat} (hn : n < 32) : (g.writeC q w rank id false free).vreg r n =
      if w.d ≤ r ∧ r < w.d + 64 then q.result w (16 * rank + (r - w.d) / 4) (32 * ((r - w.d) % 4) + n) else g.vreg r n := by
  have none : (g.owned.filter fun o => o.op == some id).flatMap (·.cWritten) = [] := by
    rw [List.flatMap_eq_nil_iff]
    intro x hx
    simp only [List.mem_filter, beq_iff_eq] at hx
    exact h x hx.1 hx.2
  simp only [Group.writeC, none, List.contains_nil, Bool.or_self, Bool.false_eq_true, if_false]
  exact get_writeRows_range hn w.d 64 (x := fun k l => q.result w (16 * rank + k / 4) (32 * (k % 4) + l))

/-- The groups of an operation are found where it names them. -/
theorem filterMap_look {gs : Map Group} {q : List (Nat × Group)} (h : ∀ e ∈ q, gs.look e.1 = some e.2) :
    (q.map (·.1)).filterMap (fun k => (gs.look k).map fun g => (k, g)) = q := by
  rw [List.filterMap_map]
  refine (List.filterMap_congr fun e he => ?_).trans List.filterMap_some
  simp only [Function.comp_apply, h e he, Option.map_some]

theorem matrixOpComplete_completes (engine : (s.core core).engine = o :: rest) {from_ : Nat} {q : List (Nat × Group)} (started : o.started = some from_)
    (due : from_ + 64 ≤ s.now) (groups : o.groups = q.map (·.1)) (nodup : (q.map (·.1)).Nodup) (length : q.length = o.words.length)
    (clean : ∀ e ∈ q, s.groups.look e.1 = some e.2 ∧ ∀ x ∈ e.2.owned, x.op = some o.id → x.tainted = false ∧ x.cWritten = [] ∧ x.undef = []) :
    let quartet : Quartet := (q.zip o.words).map fun e => (e.1.2, e.2)
    ∃ t, exec (.matrixOpComplete core) s = .next t ∧ (t.core core).engine = rest ∧ t.mem = s.mem ∧
      ∀ rank e w, (q.zip o.words)[rank]? = some (e, w) → ∃ g, t.groups.look e.1 = some g ∧ (∀ k, g.sreg k = e.2.sreg k) ∧
        ∀ r n, n < 32 → g.vreg r n = if w.d ≤ r ∧ r < w.d + 64 then quartet.result w (16 * rank + (r - w.d) / 4) (32 * ((r - w.d) % 4) + n) else e.2.vreg r n := by
  intro quartet
  have found := filterMap_look fun e he => (clean e he).1
  have read : (q.zip o.words).mapIdx (fun i e => (e.1.2.blurred o.id i (s.fresh + 1), e.2)) = quartet := by
    refine List.ext_getElem? fun i => ?_
    rw [List.getElem?_mapIdx, List.getElem?_map]
    refine Option.map_congr fun e he => ?_
    have mem := (List.of_mem_zip (List.mem_of_getElem? he)).1
    rw [Group.blurred_eq fun x hx id => ((clean _ mem).2 x hx id).2.2]
  have sound : (q.any fun e => e.2.owned.any fun x => x.op == some o.id && x.tainted) = false := by
    simp only [List.any_eq_false, Bool.and_eq_true, beq_iff_eq, not_and, List.any_eq_true, not_exists]
    intro e he x hx id
    simp [((clean e he).2 x hx id).1]
  have keys : ((q.zip o.words).map fun z => z.1.1).Nodup := by
    have fst := congrArg (List.map (·.1)) (List.map_fst_zip length.le)
    rw [List.map_map] at fst
    rw [← fst] at nodup
    exact nodup
  let writes (z : (Nat × Group) × MmaWord) (rank : Nat) : Group := z.1.2.writeC quartet z.2 rank o.id false s.fresh
  obtain ⟨gs, rest_same⟩ := setRanked_eq (key := fun z : (Nat × Group) × MmaWord => z.1.1) (W := writes) (zs := q.zip o.words) (a := (s, 0))
  refine ⟨({ (setRanked (fun z => z.1.1) writes (q.zip o.words) (s, 0)).1 with fresh := s.fresh + 2 } : State).onCore core fun c => { c with engine := rest },
    ?_, ?_, ?_, fun rank e w hz => ?_⟩
  · change execMatrixOpComplete core s = _
    simp only [execMatrixOpComplete, engine, started, Nat.not_lt.2 due, if_false, groups, found, read, sound]
    rfl
  · simp only [State.core, State.onCore, State.setCore_cores, Map.get_set_same]
  · rw [State.onCore_mem, rest_same]
  · have mem := (List.of_mem_zip (List.mem_of_getElem? hz)).1
    refine ⟨_, look_setRanked keys hz, fun k => rfl, fun r n hn => ?_⟩
    rw [Group.vreg_writeC (fun x hx id => ((clean e mem).2 x hx id).2.1) hn, Nat.zero_add]

end

/-! ### The words of an operation (R169, R170) -/

theorem Group.SameRegs.of_eq {g h : Group} (v : g.v = h.v) (s : g.s = h.s) (p : g.p = h.p) : g.SameRegs h := by
  unfold Group.SameRegs Group.vreg Group.sreg Group.predBit Group.pred
  rw [v, s, p]
  exact ⟨fun _ _ _ => rfl, fun _ => rfl, fun _ _ _ => rfl⟩

/-- The word that an instruction of the strand puts, and what it owns. -/
def Ctx.mmaOf (c : Ctx) (f : FormV) (fn : Nat) : MmaWord :=
  { pc := c.st.pc, entry := c.r.entry, fn := fn, ty := f.ty, sat := f.sat, x := f.x, d := f.d.toNat, a := f.a.toNat, b := f.b.toNat, c := f.c.toNat }

def Ctx.ownedOf (f : FormV) (nb nc : Nat) : Owned :=
  { op := none, tag := f.x.toNat % 4, d := f.d.toNat, a := f.a.toNat, b := f.b.toNat, nb := nb, c := f.c.toNat, nc := nc, tainted := false, cWritten := [], complete := false }

/-- The group with its word put. -/
def Ctx.withWord (c : Ctx) (f : FormV) (fn nb nc : Nat) : Group := { c.g.own (Ctx.ownedOf f nb nc) with words := c.g.words ++ [c.mmaOf f fn] }

/-- The word is taken: the registers read as before, the group needs another `mrdy`, and the strand goes on. -/
def Ctx.Takes (c : Ctx) (s t : State) : Prop :=
  ∃ g, t.groups.look c.key = some g ∧ g.SameRegs c.g ∧ g.armed = false ∧ g.mmaCount = c.g.mmaCount + 1 ∧ c.GoesOn t ∧ t.mem = s.mem

/-- What is asked before a word is taken. -/
structure Ctx.MayTake (c : Ctx) (f : FormV) (xs : List (Nat × Group)) : Prop where
  wide : c.wide f.g = true
  whole : c.s.quartetComplete c.g = true
  present : c.s.mateGone c.g = false
  armed : c.g.armed = true
  free : c.s.tagBusy c.r.core c.key (f.x.toNat % 4) c.g = false
  quartet : c.s.quartet c.g = some xs
  first : c.g.words = []

/-- The quartet with the new value of the issuing group. -/
def Ctx.withOwn (c : Ctx) (g : Group) (xs : List (Nat × Group)) : List (Nat × Group) := xs.map fun e => if e.1 == c.key then (e.1, g) else e

theorem Ctx.withOwn_keys (c : Ctx) (g : Group) (xs : List (Nat × Group)) : (c.withOwn g xs).map (·.1) = xs.map (·.1) := by
  simp only [Ctx.withOwn, List.map_map]
  refine List.map_congr_left fun e _ => ?_
  simp only [Function.comp_apply]
  split <;> rfl

theorem Ctx.mem_withOwn {c : Ctx} {g : Group} {xs : List (Nat × Group)} {e : Nat × Group} (h : e ∈ c.withOwn g xs) :
    e.2 = g ∨ e ∈ xs ∧ e.1 ≠ c.key := by
  obtain ⟨a, ha, rfl⟩ := List.mem_map.1 h
  split
  · exact .inl rfl
  · next other => exact .inr ⟨ha, by simpa using other⟩

theorem MmaWord.agrees_iff (a b : MmaWord) : a.agrees b = true ↔ a.fn = b.fn ∧ a.ty = b.ty ∧ a.sat = b.sat ∧ a.x = b.x := by
  simp only [MmaWord.agrees, Bool.and_eq_true, beq_iff_eq, and_assoc]

section
variable {c : Ctx} {f : FormV} {xs : List (Nat × Group)} {fn nb nc : Nat} {i : Instr} {s : State}

theorem Ctx.mmaWord_eq (h : c.MayTake f xs) : c.mmaWord f fn nb nc =
    if (c.withOwn (c.withWord f fn nb nc) xs).all (fun e => !e.2.words.isEmpty) then
      let heads := (c.withOwn (c.withWord f fn nb nc) xs).filterMap fun e => e.2.words.head?
      if heads.any fun x => heads.any fun y => !x.agrees y then
        .next ((c.withOwn (c.withWord f fn nb nc) xs).foldl (fun s e =>
          match e.2.words.head? with
          | some h => s.takeFault { core := c.r.core, slot := keySlot e.1, entry := h.entry } h.pc { code := faultMatrix }
          | none => s) c.s)
      else if 8 ≤ (c.s.core c.r.core).engine.length then c.stall
      else
        match c.finish (c.withWord f fn nb nc) with
        | .next s => .next (s.formOp c.r.core c.g.stamp ((c.withOwn (c.withWord f fn nb nc) xs).map fun e => (e.1, (s.groups.look e.1).getD e.2)))
        | r => r
    else c.finish (c.withWord f fn nb nc) := by
  simp only [Ctx.mmaWord, h.wide, h.whole, h.present, h.armed, h.free, h.quartet, Bool.not_true, Bool.or_self, Bool.false_eq_true, if_false]
  rfl

/-- A state in which the issuing group has the value that the word leaves, but for its words and what it owns. -/
theorem Ctx.takes_of_look (f : FormV) (fn nb nc : Nat) (h : Runs i s c) {t : State} {g : Group} (mem : t.mem = c.s.mem) (look : t.groups.look c.key = some g) {ws os}
    (e : g = { c.finished (c.withWord f fn nb nc) with words := ws, owned := os }) : c.Takes s t := by
  obtain ⟨_, mem', _, _⟩ := h.groups
  refine ⟨g, look, .of_eq ?_ ?_ ?_, ?_, ?_, Ctx.goesOn_finished h.key_eq look (g := c.withWord f fn nb nc) ?_, mem.trans mem'⟩
  all_goals subst e; rfl

/-- The word waits for those of the other groups. -/
theorem Ctx.mmaWord_waits (h : Runs i s c) (may : c.MayTake f xs) (missing : ∃ e ∈ xs, e.1 ≠ c.key ∧ e.2.words = []) :
    ∃ t g, c.mmaWord f fn nb nc = .next t ∧ c.Takes s t ∧ t.groups.look c.key = some g ∧ g.words = [c.mmaOf f fn] := by
  have incomplete : (c.withOwn (c.withWord f fn nb nc) xs).all (fun e => !e.2.words.isEmpty) = false := by
    obtain ⟨e, he, other, none⟩ := missing
    rw [List.all_eq_false]
    refine ⟨e, List.mem_map.2 ⟨e, he, by simp [other]⟩, by simp [none]⟩
  have look := Map.look_put_same c.s.groups c.key (c.finished (c.withWord f fn nb nc))
  rw [Ctx.mmaWord_eq may, incomplete]
  refine ⟨_, _, Ctx.finish_eq h.look, Ctx.takes_of_look f fn nb nc h rfl look rfl, look, ?_⟩
  simp only [Ctx.finished, Ctx.withWord, may.first, List.nil_append]

/-- An operation that is not older than another of its cc stands last (R217, LOG 147). -/
theorem enterQueue_eq {q : List MatOp} {op : MatOp} (h : ∀ o ∈ q, o.formed = op.formed → o.stamp ≤ op.stamp) : enterQueue q op = q ++ [op] := by
  induction q with
  | nil => rfl
  | cons o q ih =>
    have last : ¬ (o.formed = op.formed ∧ op.stamp < o.stamp) := fun ⟨e, lt⟩ => absurd (h o List.mem_cons_self e) (by omega)
    simp only [enterQueue, Bool.and_eq_true, beq_iff_eq, decide_eq_true_eq, last, if_false, List.cons_append]
    rw [ih fun o ho => h o (List.mem_cons_of_mem _ ho)]

/-- What forming an operation does to a group: only its words and what it owns change. -/
theorem Group.iterate_join_eq (g : Group) (id : Nat) (chained : Bool) (n : Nat) : ∃ ws os, (fun g => Group.join g id chained)^[n] g = { g with words := ws, owned := os } :=
  Function.Iterate.rec (motive := fun h => ∃ ws os, h = { g with words := ws, owned := os }) ⟨_, _, rfl⟩ (fun _ ⟨_, _, e⟩ => ⟨_, _, by rw [e]; rfl⟩) n

theorem State.formOp_forms {core stamp : Nat} {ys : List (Nat × Group)} (older : ∀ o ∈ (s.core core).engine, o.formed = s.now → o.stamp ≤ stamp) :
    ∃ op, ((s.formOp core stamp ys).core core).engine = (s.core core).engine ++ [op] ∧ op.groups = ys.map (·.1) ∧ op.started = none ∧
      (s.formOp core stamp ys).mem = s.mem ∧
      ∀ k g, s.groups.look k = some g → ∃ ws os, (s.formOp core stamp ys).groups.look k = some { g with words := ws, owned := os } := by
  unfold State.formOp
  extract_lets id op chained s₁
  obtain ⟨gs, e⟩ : ∃ gs, s₁ = { s with groups := gs } := State.foldl_onGroup_eq
  refine ⟨op, ?_, rfl, rfl, ?_, fun k g hg => ?_⟩
  · have same : s₁.core core = s.core core := by rw [e]; rfl
    have entered : enterQueue (s.core core).engine op = (s.core core).engine ++ [op] := enterQueue_eq older
    rw [← entered, ← same]
    simp only [State.core, State.onCore, State.setCore_cores, Map.get_set_same]
  · rw [State.onCore_mem, e]
  · obtain ⟨ws, os, joined⟩ := g.iterate_join_eq id chained ((ys.map (·.1)).count k)
    refine ⟨ws, os, ?_⟩
    have look := State.look_foldl_onGroup (F := fun g => g.join id chained) (s := s) (xs := ys) (k := k)
    rw [hg, Option.map_some, joined] at look
    exact look

/-- The fourth word forms the operation. -/
theorem Ctx.mmaWord_forms (h : Runs i s c) (may : c.MayTake f xs)
    (agree : ∀ e ∈ xs, e.1 ≠ c.key → ∃ h r, e.2.words = h :: r ∧ h.agrees (c.mmaOf f fn) = true) (room : (c.s.core c.r.core).engine.length < 8)
    (older : ∀ o ∈ (c.s.core c.r.core).engine, o.formed = s.now → o.stamp ≤ c.g.stamp) :
    ∃ t op, c.mmaWord f fn nb nc = .next t ∧ c.Takes s t ∧ (t.core c.r.core).engine = (c.s.core c.r.core).engine ++ [op] ∧ op.groups = xs.map (·.1) ∧
      op.started = none := by
  have own : (c.withWord f fn nb nc).words = [c.mmaOf f fn] := by simp only [Ctx.withWord, may.first, List.nil_append]
  have words : ∀ e ∈ c.withOwn (c.withWord f fn nb nc) xs, ∃ h r, e.2.words = h :: r ∧ h.agrees (c.mmaOf f fn) = true := fun e he => by
    rcases Ctx.mem_withOwn he with mine | ⟨there, other⟩
    · exact ⟨_, _, by rw [mine, own], (MmaWord.agrees_iff _ _).2 ⟨rfl, rfl, rfl, rfl⟩⟩
    · exact agree e there other
  have complete : (c.withOwn (c.withWord f fn nb nc) xs).all (fun e => !e.2.words.isEmpty) = true := by
    rw [List.all_eq_true]
    intro e he
    obtain ⟨h, r, eq, _⟩ := words e he
    simp [eq]
  have agreed : (((c.withOwn (c.withWord f fn nb nc) xs).filterMap fun e => e.2.words.head?).any fun x =>
      ((c.withOwn (c.withWord f fn nb nc) xs).filterMap fun e => e.2.words.head?).any fun y => !x.agrees y) = false := by
    have head : ∀ x ∈ (c.withOwn (c.withWord f fn nb nc) xs).filterMap (fun e => e.2.words.head?), x.agrees (c.mmaOf f fn) = true := fun x hx => by
      obtain ⟨e, he, eq⟩ := List.mem_filterMap.1 hx
      obtain ⟨h, r, ws, same⟩ := words e he
      rw [ws] at eq
      cases eq
      exact same
    simp only [List.any_eq_false, List.any_eq_true, not_exists, not_and, Bool.not_eq_true', Bool.not_eq_false]
    intro x hx y hy
    obtain ⟨fn₁, ty₁, sat₁, x₁⟩ := (MmaWord.agrees_iff _ _).1 (head x hx)
    obtain ⟨fn₂, ty₂, sat₂, x₂⟩ := (MmaWord.agrees_iff _ _).1 (head y hy)
    exact (MmaWord.agrees_iff _ _).2 ⟨fn₁.trans fn₂.symm, ty₁.trans ty₂.symm, sat₁.trans sat₂.symm, x₁.trans x₂.symm⟩
  obtain ⟨_, _, _, now⟩ := h.groups
  rw [Ctx.mmaWord_eq may, complete]
  simp only [if_true, agreed, Bool.false_eq_true, if_false, Nat.not_le.2 room, Ctx.finish_eq (c := c) (g := c.withWord f fn nb nc) h.look]
  obtain ⟨op, engine, groups, started, mem, looks⟩ := State.formOp_forms (s := c.s.setGroup c.key (c.finished (c.withWord f fn nb nc))) (core := c.r.core)
    (stamp := c.g.stamp) (ys := (c.withOwn (c.withWord f fn nb nc) xs).map fun e =>
      (e.1, ((c.s.setGroup c.key (c.finished (c.withWord f fn nb nc))).groups.look e.1).getD e.2)) fun o ho e => older o ho (e.trans now)
  obtain ⟨ws, os, look⟩ := looks c.key _ (Map.look_put_same _ _ _)
  refine ⟨_, op, rfl, Ctx.takes_of_look f fn nb nc h mem look rfl, engine, ?_, started⟩
  rw [groups, List.map_map, ← c.withOwn_keys (c.withWord f fn nb nc) xs]
  rfl

end

end Sys2Proof.Machine

namespace Sys2Proof.Machine

/-! ### Quartets (R165) -/

section
variable {s t : State} {k : Nat} {F : Group → Group}

/-- The groups of a quartet are on the core. -/
theorem State.mem_of_quartet {g : Group} {xs : List (Nat × Group)} (h : s.quartet g = some xs) {e : Nat × Group} (he : e ∈ xs) : e ∈ s.groups := by
  unfold State.quartet at h
  dsimp only at h
  split at h
  · cases h
    obtain ⟨_, _, found⟩ := List.mem_filterMap.1 he
    exact List.mem_of_find?_eq_some found
  · cases h

theorem onKey_snd_field {α : Type} (field : Group → α) (keeps : ∀ g, field (F g) = field g) (e : Nat × Group) : field (onKey k F e).2 = field e.2 := by
  unfold onKey
  dsimp only
  split
  · exact keeps _
  · rfl

/-- A change that keeps every group's block and number keeps the quartets. -/
theorem State.quartet_onKey (ht : t.groups = s.groups.map (onKey k F)) (block : ∀ g, (F g).block = g.block) (number : ∀ g, (F g).groupid = g.groupid)
    {g : Group} : t.quartet (F g) = (s.quartet g).map (List.map (onKey k F)) := by
  have found (n : Nat) : (t.groups.find? fun e => e.2.block == g.block && e.2.groupid == n) =
      (s.groups.find? fun e => e.2.block == g.block && e.2.groupid == n).map (onKey k F) := by
    rw [ht, List.find?_map]
    simp only [Function.comp_def, onKey_snd_field Group.block block, onKey_snd_field Group.groupid number]
  unfold State.quartet
  simp only [block, number, found, ← List.map_filterMap, List.length_map]
  split <;> rfl

theorem State.mateGone_onKey (ht : t.groups = s.groups.map (onKey k F)) (cores : t.cores = s.cores) (block : ∀ g, (F g).block = g.block)
    (number : ∀ g, (F g).groupid = g.groupid) {g : Group} : t.mateGone (F g) = s.mateGone g := by
  simp only [State.mateGone, ht, cores, block, number, List.any_map, Function.comp_def, onKey_snd_field Group.block block,
    onKey_snd_field Group.groupid number]

end

/-! ### The rendezvous (R170) -/

/-- A group one of whose strands has come to the group's n-th `mrdy`. -/
def Group.comes (g : Group) (entry n mark : Nat) : Group :=
  ({ g with mrdyCount := n, mrdyMark := mark, wrote := [] } : Group).onStrand entry fun st => { st with wait := .mrdy n mark }

section
variable {g : Group} {entry n mark : Nat} {st : Strand}

theorem Group.comes_strands (h : g.strands.look entry = some st) : (g.comes entry n mark).strands = g.strands.put entry { st with wait := .mrdy n mark } :=
  congrArg Group.strands (Group.onStrand_eq (g := { g with mrdyCount := n, mrdyMark := mark, wrote := [] }) h _)

theorem Group.mem_comes_strands (h : g.strands.look entry = some st) {x : Nat × Strand} (hx : x ∈ (g.comes entry n mark).strands) :
    x = (entry, { st with wait := .mrdy n mark }) ∨ x ∈ g.strands :=
  Map.mem_put (by rwa [Group.comes_strands h] at hx)

/-- With nothing outstanding the group is ready as soon as its strand has come. -/
theorem Group.comes_ready (h : g.strands.look entry = some st) (ops : ∀ o ∈ g.ops, o.regs = [] ∧ o.sreg = none)
    (owes : ∀ x ∈ g.strands, ∀ n, x.2.owesScalar n = false) (calling : g.calling = false) : (g.comes entry n mark).readyToArm n = true := by
  have quiet : (g.comes entry n mark).calling = false := by
    simp only [Group.calling, List.any_eq_false] at calling ⊢
    intro x hx
    rcases Group.mem_comes_strands h hx with rfl | there
    · exact Bool.false_ne_true
    · exact calling x there
  have written : (g.comes entry n mark).ops.all (fun o => (o.regs.isEmpty && o.sreg.isNone) || decide (mark ≤ o.id)) = true := by
    rw [List.all_eq_true]
    intro o ho
    obtain ⟨regs, sreg⟩ := ops o ho
    simp [regs, sreg]
  have paid (last : Option Nat) : (g.comes entry n mark).strands.all (fun x => !x.2.owesScalar last) = true := by
    rw [List.all_eq_true]
    intro x hx
    rcases Group.mem_comes_strands h hx with rfl | there
    · rfl
    · rw [owes x there, Bool.not_false]
  have here : (entry, { st with wait := .mrdy n mark }) ∈ (g.comes entry n mark).strands := by
    rw [Group.comes_strands h]
    exact Map.mem_of_look (Map.look_put_same _ _ _)
  simp only [Group.readyToArm, quiet, Bool.not_false, Bool.true_and, List.any_eq_true]
  exact ⟨_, here, by simp only [beq_self_eq_true, written, paid, Bool.and_self]⟩

/-- A strand whose rendezvous has completed does not wait in it. -/
theorem Group.not_isMrdy_arm {x : Nat × Strand} (hx : x ∈ (g.arm n).strands) : Wait.isMrdy x.2.wait n = false := by
  obtain ⟨e, _, rfl⟩ := List.mem_map.1 hx
  dsimp only
  split
  · rfl
  · next other => simpa using other

theorem Group.arm_arm : (g.arm n).arm n = g.arm n := by
  have same : (g.arm n).strands.map (fun e => (e.1, if Wait.isMrdy e.2.wait n then e.2.goto (e.2.pc + 8) else e.2)) = (g.arm n).strands := by
    refine (List.map_congr_left fun e he => ?_).trans (List.map_id _)
    rw [Group.not_isMrdy_arm he]
    rfl
  rw [Group.arm, same]
  rfl

theorem Group.arm_strands_look (h : g.strands.look entry = some st) (waits : Wait.isMrdy st.wait n = true) :
    (g.arm n).strands.look entry = some (st.goto (st.pc + 8)) := by
  change Map.look (g.strands.map fun e => (e.1, if Wait.isMrdy e.2.wait n then e.2.goto (e.2.pc + 8) else e.2)) entry = _
  rw [Map.look_map_snd (f := fun st : Strand => if Wait.isMrdy st.wait n then st.goto (st.pc + 8) else st), h, Option.map_some, waits, if_pos rfl]

end

section
variable {s : State} {key n : Nat} {g : Group} {xs : List (Nat × Group)}

/-- The rendezvous completes in every group of the quartet. -/
theorem State.rendezvous_completes (look : s.groups.look key = some g) (present : s.mateGone g = false) (quartet : s.quartet g = some xs)
    (ready : ∀ e ∈ xs, e.2.readyToArm n = true) : s.rendezvous key n = xs.foldl (fun s e => s.onGroup e.1 fun x => x.arm n) s := by
  have all : (xs.all fun e => e.2.readyToArm n) = true := List.all_eq_true.2 ready
  simp only [State.rendezvous, look, present, Bool.false_eq_true, if_false, quartet, all, if_true]

/-- Each group of the list takes the rendezvous once, however often its key occurs. -/
theorem State.look_foldl_arm {e : Nat × Group} (he : e ∈ xs) (look : s.groups.look e.1 = some g) :
    (xs.foldl (fun s e => s.onGroup e.1 fun x => x.arm n) s).groups.look e.1 = some (g.arm n) := by
  have occurs : 0 < (xs.map (·.1)).count e.1 := List.count_pos_iff.2 (List.mem_map_of_mem he)
  obtain ⟨m, hm⟩ := Nat.exists_eq_succ_of_ne_zero occurs.ne'
  rw [State.look_foldl_onGroup, look, hm, Option.map_some, Function.iterate_succ_apply, Function.iterate_fixed Group.arm_arm]

end

/-- `mrdy` of the quartet's last group: the rendezvous completes in all four. -/
theorem mrdy_completes {f : FormV} {s : State} {c : Ctx} {xs : List (Nat × Group)} (wide : c.wide f.g = true) (h : Runs (.mrdy f) s c)
    (fresh : ∀ n k, c.st.wait ≠ .mrdy n k) (whole : c.s.quartetComplete c.g = true) (present : c.s.mateGone c.g = false) (rising : Map.rising none s.groups = true)
    (quartet : c.s.quartet c.g = some xs) (own : (c.key, c.g) ∈ xs) (others : ∀ e ∈ xs, e.1 ≠ c.key → e.2.readyToArm (c.g.mrdyCount + 1) = true)
    (ops : ∀ o ∈ c.g.ops, o.regs = [] ∧ o.sreg = none) (owes : ∀ x ∈ c.g.strands, ∀ n, x.2.owesScalar n = false) (calling : c.g.calling = false) :
    ∃ t, exec (.mrdy f) s = .next t ∧ c.GoesOn t ∧ t.mem = s.mem ∧ ∀ e ∈ xs, ∃ g, t.groups.look e.1 = some g ∧ g.armed = true ∧ g.SameRegs e.2 ∧
      ∀ x ∈ g.strands, Wait.isMrdy x.2.wait (c.g.mrdyCount + 1) = false := by
  obtain ⟨groups, mem, _, _⟩ := h.groups
  let n := c.g.mrdyCount + 1
  let F (g : Group) : Group := g.comes c.r.entry n c.s.nextId
  let s₁ : State := { c.s with nextId := c.s.nextId + 1 }.setGroup c.key (F c.g)
  have rising : Map.rising none c.s.groups = true := groups ▸ rising
  have look : c.s.groups.look c.key = some c.g := groups ▸ h.group_look
  have changed : s₁.groups = c.s.groups.map (onKey c.key F) := Map.put_eq_map rising look
  have listed : ∀ e ∈ xs, c.s.groups.look e.1 = some e.2 := fun e he => Map.look_of_mem rising (State.mem_of_quartet quartet he)
  have mine : ∀ e ∈ xs, e.1 = c.key → e.2 = c.g := fun e he same => by
    have := listed e he
    rw [same, look] at this
    exact (Option.some.inj this).symm
  have looks : ∀ e ∈ xs, s₁.groups.look e.1 = some (onKey c.key F e).2 := fun e he => by
    change (c.s.groups.put c.key (F c.g)).look e.1 = _
    rw [Map.look_put, onKey]
    by_cases same : e.1 = c.key
    · simp only [same, if_true, mine e he same]
    · simp only [same, if_false, listed e he]
  have came : (onKey c.key F (c.key, c.g)).2 = F c.g := if_pos rfl
  have ready : ∀ e ∈ xs.map (onKey c.key F), e.2.readyToArm n = true := fun e he => by
    obtain ⟨a, ha, rfl⟩ := List.mem_map.1 he
    by_cases same : a.1 = c.key
    · rw [onKey, if_pos same, mine a ha same]
      exact Group.comes_ready h.look ops owes calling
    · rw [onKey, if_neg same]
      exact others a ha same
  have present₁ : s₁.mateGone (F c.g) = false := (State.mateGone_onKey changed rfl (fun _ => rfl) fun _ => rfl).trans present
  have quartet₁ : s₁.quartet (F c.g) = some (xs.map (onKey c.key F)) := by
    rw [State.quartet_onKey changed (fun _ => rfl) fun _ => rfl, quartet, Option.map_some]
  have completes := State.rendezvous_completes (came ▸ looks _ own) present₁ quartet₁ ready
  have armed : ∀ e ∈ xs, (s₁.rendezvous c.key n).groups.look e.1 = some ((onKey c.key F e).2.arm n) := fun e he => by
    rw [completes]
    exact State.look_foldl_arm (e := onKey c.key F e) (List.mem_map_of_mem he) (looks e he)
  refine ⟨s₁.rendezvous c.key n, ?_, ?_, ?_, fun e he => ⟨_, armed e he, rfl, .of_eq ?_ ?_ ?_, fun x => Group.not_isMrdy_arm⟩⟩
  · change execMrdy f s = _
    rw [execMrdy, issue_runs h]
    dsimp only
    split
    · next waiting => exact absurd waiting (fresh _ _)
    · simp only [wide, whole, present, Bool.not_true, Bool.or_self, Bool.false_eq_true, if_false]
      rfl
  · refine Ctx.goesOn_of_look h.key_eq (armed _ own) (Group.arm_strands_look (st := { c.st with wait := .mrdy n c.s.nextId }) ?_ ?_) rfl rfl rfl
    · rw [came, Group.comes_strands h.look, Map.look_put_same]
    · exact beq_self_eq_true n
  · obtain ⟨gs, same⟩ := State.foldl_onGroup_eq (F := fun x => x.arm n) (s := s₁) (xs := xs.map (onKey c.key F))
    rw [completes, same, ← mem]
    rfl
  · exact onKey_snd_field (k := c.key) (F := F) Group.v (fun _ => rfl) e
  · exact onKey_snd_field (k := c.key) (F := F) Group.s (fun _ => rfl) e
  · exact onKey_snd_field (k := c.key) (F := F) Group.p (fun _ => rfl) e

/-- Settles O38: one lemma for each instruction and event of the engine. -/
theorem matrix : Obligations.Matrix := by
  intro f s c xs wide
  refine ⟨mzero_leaves wide, mrdy_completes wide, ?_, fun core o rest engine => ⟨matrixOpStart_starts engine, ?_⟩,
    fun q w i n => q.result_int w i n, mwait_returns wide, mdrain_returns wide⟩
  · intro whole present armed free quartet first forms
    have may : c.MayTake f xs := ⟨wide, whole, present, armed, free, quartet, first⟩
    have forms_of {i : Instr} {fn nb nc : Nat} (e : exec i s = issue i s fun c => c.mmaWord f fn nb nc) : forms i fn := by
      intro h w taken
      rw [e, issue_runs h]
      exact ⟨Ctx.mmaWord_waits h may, Ctx.mmaWord_forms h may⟩
    exact ⟨forms_of (nb := 32) (nc := 0) rfl, forms_of (nb := 64) (nc := 4) rfl, forms_of (nb := 32) (nc := 3) rfl⟩
  · intro from_ q started due groups nodup length clean
    exact matrixOpComplete_completes engine started due groups nodup length clean

end Sys2Proof.Machine

namespace Sys2Proof.Machine

/-! ### Shuffles (R101) -/

/-- A cross-lane read in the words of R49. -/
theorem Ctx.cross_eq (c : Ctx) (wide : Bool) (r : Nat) (l : Int) :
    c.cross wide r l = if 0 ≤ l ∧ l < 32 ∧ c.g.live.getLsbD l.toNat = true then c.lane wide r l.toNat else 0 := by
  simp only [Ctx.cross, Bool.and_eq_true, decide_eq_true_eq, and_assoc]

/-- A shuffle writes what its source lanes hold to the active lanes. -/
theorem runShfl_leaves {i : Instr} {f : FormV} {s : State} {c : Ctx} (src : Nat → Nat → Int) (e : exec i s = runShfl i f s src) (h : Runs i s c) :
    c.Leaves (exec i s) c.onward (c.withLanes f.ty.wide f.d.toNat (c.active f.g) fun l =>
      c.cross f.ty.wide f.a.toNat (src l ((c.opB f immInt f.ty.wide l).toNat % 2 ^ 32))) c.g.sreg c.g.predBit := by
  have count (x : Dword) : (low 32 x).toNat = x.toNat % 2 ^ 32 := by
    simp only [low, BitVec.toNat_setWidth]
    omega
  rw [e, runShfl, issue_runs h]
  simp only [count]
  exact Ctx.finish_lanes h.look _ _ _ _ fun _ => Ctx.active_lt

/-- Settles O8: every shuffle is `runShfl`, with its own source lane. -/
theorem shuffles : Obligations.Shuffles := by
  intro f s c n from_
  have reads {i : Instr} (src : Nat → Nat → Int) (e : exec i s = runShfl i f s src) : from_ i fun l => src l (n l) := fun h => by
    simpa only [Ctx.cross_eq] using runShfl_leaves src e h
  refine ⟨?idx, ?up, ?down, ?xor, ?h, ?v, ?d, ?bcast⟩
  case idx => exact reads (fun _ n => n) rfl
  case up => exact reads (fun l n => l - n) rfl
  case down => exact reads (fun l n => l + n) rfl
  case xor => exact reads (fun l n => (l ^^^ n : Nat)) rfl
  case h => exact reads (fun l _ => (l ^^^ 1 : Nat)) rfl
  case v => exact reads (fun l _ => (l ^^^ 2 : Nat)) rfl
  case d => exact reads (fun l _ => (l ^^^ 3 : Nat)) rfl
  case bcast => exact reads (fun l n => (4 * (l / 4) + n % 4 : Nat)) rfl

/-! ### Issue (R50, R63, R157) -/

/-- Every core instruction is issued for a strand: what it does comes after what `issue` looks at. -/
theorem exec_eq_issue {i : Instr} (core : i.kind = .core) (s : State) : ∃ k, exec i s = issue i s k := by
  cases i <;> dsimp only [exec]
  case nop | bra | brd | brx | call | callx | ret | join | exit_ | yield | nap | brk | trap | tret =>
    dsimp only [execNop, execBra, execBrd, execBrx, execCall, execCallx, execRet, execJoin, execExit, execYield, execNap, execBrk, execTrap,
      execTret]
    exact ⟨_, rfl⟩
  case add | sub | mul | mulhi | mad | madw | min_ | max_ | abs_ | neg | and_ | or_ | xor_ | andn | not_ | shl | shr | sar | rotl | bfx | bfi | popc
      | clz | ctz | brev | perm | sel | cmp | addc | subc | lea =>
    dsimp only [execAdd, execSub, execMul, execMulhi, execMad, execMadw, execMin, execMax, execAbs, execNeg, execAnd, execOr, execXor, execAndn,
      execNot, execShl, execShr, execSar, execRotl, execBfx, execBfi, execPopc, execClz, execCtz, execBrev, execPerm, execSel, execCmp, execAddc,
      execSubc, execLea, runInt, runInt1, runBits, runShift]
    exact ⟨_, rfl⟩
  case mov | movi | bcast | rdlane | wrlane | rdsr | wrsr | voteAny | voteAll | ballot | pand | por | pxor | pnot | ppopc =>
    dsimp only [execMov, execMovi, execBcast, execRdlane, execWrlane, execRdsr, execWrsr, execVoteAny, execVoteAll, execBallot, execPand, execPor,
      execPxor, execPnot, execPpopc, runPreds]
    exact ⟨_, rfl⟩
  case shflIdx | shflUp | shflDown | shflXor | qswapH | qswapV | qswapD | qbcast | redxAdd | redxMin | redxMax | scanxAdd | compact | expand =>
    dsimp only [execShflIdx, execShflUp, execShflDown, execShflXor, execQswapH, execQswapV, execQswapD, execQbcast, execRedxAdd, execRedxMin,
      execRedxMax, execScanxAdd, execCompact, execExpand, runShfl, runRedx]
    exact ⟨_, rfl⟩
  case fadd | fsub | fmul | ffma | fmin | fmax | fminm | fabs | fneg | fcmp | fclass | frcp | frsq | fsqrt | fexp2 | flog2 | fsin | fcos =>
    dsimp only [execFadd, execFsub, execFmul, execFfma, execFmin, execFmax, execFminm, execFabs, execFneg, execFcmp, execFclass, execFrcp, execFrsq,
      execFsqrt, execFexp2, execFlog2, execFsin, execFcos, runF2, runF1]
    exact ⟨_, rfl⟩
  case hadd2 | hmul2 | hfma2 | hmin2 | hmax2 | hdot2 =>
    dsimp only [execHadd2, execHmul2, execHfma2, execHmin2, execHmax2, execHdot2, runH2]
    exact ⟨_, rfl⟩
  case cvt | cvtpk | cvtsr | qscale =>
    dsimp only [execCvt, execCvtpk, execCvtsr, execQscale]
    exact ⟨_, rfl⟩
  case ld | st | ldx4 | stx4 | lds | sts | ldsx4 | stsx4 | prf =>
    dsimp only [execLd, execSt, execLdx4, execStx4, execLds, execSts, execLdsx4, execStsx4, execPrf, access]
    exact ⟨_, rfl⟩
  case redAdd | atomAdd | redMin | atomMin | redMax | atomMax | redAnd | atomAnd | redOr | atomOr | redXor | atomXor | atomXchg | atomCas | redFadd
      | atomFadd | redFmin | atomFmin | redFmax | atomFmax | redBfadd2 | atomBfadd2 =>
    dsimp only [execRedAdd, execAtomAdd, execRedMin, execAtomMin, execRedMax, execAtomMax, execRedAnd, execAtomAnd, execRedOr, execAtomOr,
      execRedXor, execAtomXor, execAtomXchg, execAtomCas, execRedFadd, execAtomFadd, execRedFmin, execAtomFmin, execRedFmax, execAtomFmax,
      execRedBfadd2, execAtomBfadd2, access]
    exact ⟨_, rfl⟩
  case fence | wait | bar | arrive | bwait | renew | rdclk =>
    dsimp only [execFence, execWait, execBar, execArrive, execBwait, execRenew, execRdclk, access]
    exact ⟨_, rfl⟩
  case sendPeer | sendTens | sendGlb | sendm | commission | cbtest | cbwait | cbclr | tlayout =>
    dsimp only [execSendPeer, execSendTens, execSendGlb, execSendm, execCommission, execCbtest, execCbwait, execCbclr, execTlayout, access]
    exact ⟨_, rfl⟩
  case gath | scat | gstat =>
    dsimp only [execGath, execScat, execGstat, access]
    exact ⟨_, rfl⟩
  case cclaim | cfree | cins | cprb | cdel | cacc | cdrn | cstat =>
    dsimp only [execCclaim, execCfree, execCins, execCprb, execCdel, execCacc, execCdrn, execCstat, catAccess, access]
    exact ⟨_, rfl⟩
  case gate | gret | gabort | rgrow | rshrink | haltAll | halt =>
    dsimp only [execGate, execGret, execGabort, execRgrow, execRshrink, execHaltAll, execHalt]
    exact ⟨_, rfl⟩
  case mzero | mrdy | mma | mmaSp | mmx | mwait | mdrain =>
    dsimp only [execMzero, execMrdy, execMma, execMmaSp, execMmx, execMwait, execMdrain]
    exact ⟨_, rfl⟩
  case aopen | asend | arecv | aacc | acmd | afence | aclose | nmr | nidx | nfence =>
    dsimp only [execAopen, execAsend, execArecv, execAacc, execAcmd, execAfence, execAclose, execNmr, execNidx, execNfence, access]
    exact ⟨_, rfl⟩
  case launch | rlaunch =>
    dsimp only [execLaunch, execRlaunch]
    exact ⟨_, rfl⟩
  all_goals cases core

/-- Settles O19: the tests of `issue`, in their order. -/
theorem coreIssue : Obligations.CoreIssue := by
  intro i s r g st core agent strand bad
  obtain ⟨k, e⟩ := exec_eq_issue core s
  have illegal : (!i.accepted || i.vregs.any fun v => decide (g.nregs ≤ v)) = true ↔ bad := by simp [bad]
  rw [e]
  unfold issue
  simp only [agent, strand, illegal]
  refine ⟨fun refused => ?_, fun good refused => ?_, fun good allowed pending => ?_⟩
  · rw [if_pos refused]
  · rw [if_neg good, if_pos refused]
  · rw [if_neg good, allowed, pending]
    rfl

/-! ### Faults (R342, R345) -/

/-- Settles O20: a fault raises a record and adds to the faults for which the group is suspended. -/
theorem faultEntry : Obligations.FaultEntry := by
  intro s r pc f g look t suspends
  have brk : watchDetail 1 0 = 0x0100000000000000#64 := by decide
  have deep : (g.depth != 0) = decide (g.depth ≠ 0) := by simp [bne, beq_eq_decide]
  have awaits : (g.depth != 0 || f.code == faultPage || (f.code == faultWatch && f.detail == watchDetail 1 0)) = suspends := by
    simp [suspends, bne, beq_eq_decide, Bool.or_assoc]
  simp only [t, State.takeFault, look, Option.isSome_none, Bool.or_false, ← brk, awaits]
  refine ⟨⟨_, rfl, rfl, rfl, rfl, rfl, rfl, rfl, rfl, rfl, rfl, rfl, ?_⟩, rfl, rfl, rfl, rfl, rfl, rfl, rfl, rfl, rfl⟩
  rw [← deep]

end Sys2Proof.Machine

namespace Sys2Proof

/-! ### Tables cut and joined by their keys -/

section
variable {α : Type} {m a b : Map α} {k : Nat}

theorem Map.look_filter_key (p : Nat → Bool) : Map.look (m.filter fun e => p e.1) k = if p k then m.look k else none := by
  induction m with
  | nil => simp
  | cons e t ih =>
    rw [List.filter_cons, Map.look_cons]
    by_cases here : e.1 = k
    · rw [here]
      by_cases kept : p k = true
      · simp [kept, Map.look_cons, here]
      · simp [kept, ih]
    · split <;> simp [Map.look_cons, here, ih]

theorem Map.get_filter_key (d : α) (p : Nat → Bool) : Map.get d (m.filter fun e => p e.1) k = if p k then Map.get d m k else d := by
  rw [Map.get, Map.look_filter_key]
  split <;> rfl

/-- Of two tables that are joined the second one's entries are read first. -/
theorem Machine.look_joinMaps {lo : Option Nat} (rising : Map.rising lo b = true) : (joinMaps a b).look k = (b.look k).or (a.look k) := by
  induction b generalizing a lo with
  | nil => rfl
  | cons e t ih =>
    simp only [Map.rising, Bool.and_eq_true] at rising
    obtain ⟨_, rest⟩ := rising
    rw [joinMaps, List.foldl_cons, ← joinMaps, ih rest, Map.look_put, Map.look_cons]
    by_cases here : e.1 = k
    · rw [if_pos here.symm, if_pos here, Map.look_rising rest here.ge]
      rfl
    · rw [if_neg (Ne.symm here), if_neg here]

end
end Sys2Proof

namespace Sys2Proof.Machine

section
variable {i : Instr} {s : State} {c : Ctx}

/-- The state that an instruction works on differs in the counter of free values at most. -/
theorem Runs.state_eq (h : Runs i s c) : ∃ n, c.s = { s with fresh := n } := by
  rw [h.reads]
  dsimp only
  split
  · exact ⟨_, rfl⟩
  · exact ⟨_, rfl⟩

theorem Runs.blocks_eq (h : Runs i s c) : c.s.blocks = s.blocks := by
  obtain ⟨n, e⟩ := h.state_eq
  rw [e]

/-- The group of `c` in the state that the instruction works on. -/
theorem Runs.own_look (h : Runs i s c) : c.s.groups.look c.key = some c.g := by
  obtain ⟨groups, _⟩ := h.groups
  rw [groups, h.group_look]

theorem Group.setS_domain (g : Group) (d : Nat) (x : Dword) : (g.setS d x).domain = g.domain := by
  unfold Group.setS
  split <;> rfl

/-- A strand that is there stands in its group. -/
theorem State.look_of_strandAt {r : StrandRef} {g : Group} {st : Strand} (h : s.strandAt r = some (g, st)) :
    s.groups.look (gkey r.core r.slot) = some g ∧ g.strands.look r.entry = some st := by
  unfold State.strandAt at h
  split at h
  · cases h
  · next group =>
    split at h
    · cases h
    · next strand =>
      cases h
      exact ⟨group, strand⟩

/-- An instruction that ends with a scalar written. -/
theorem Ctx.finish_status (h : Runs i s c) (d : Nat) (x : Dword) :
    ∃ t g, c.finish (c.g.setS d x) = .next t ∧ t.groups.look c.key = some g ∧ t.mem = s.mem ∧ t.blocks = s.blocks ∧ c.GoesOn t ∧ g.domain = c.g.domain ∧
      ∀ k, g.sreg k = c.withScalar d x k := by
  have strand : (c.g.setS d x).strands.look c.r.entry = some c.st := by
    rw [(Group.setS_alike _ _ _).strands, h.look]
  have look : (c.s.setGroup c.key (c.finished (c.g.setS d x))).groups.look c.key = some (c.finished (c.g.setS d x)) := Map.look_put_same _ _ _
  obtain ⟨_, mem, _⟩ := h.groups
  exact ⟨_, _, Ctx.finish_eq strand, look, mem, h.blocks_eq, Ctx.goesOn_finished h.key_eq look rfl, Group.setS_domain _ _ _, fun k => Group.sreg_setS _ _ _ _⟩

end

/-! ### Registers that a gate call keeps (R156, R158) -/

section
variable {v : Map Word} {r n : Nat}

theorem look_keepV (keep : Nat → Nat → Bool) (hn : n < 32) : (keepV v keep).look (32 * r + n) = if keep r n then v.look (32 * r + n) else none := by
  rw [keepV, Map.look_filter_key fun k => keep (k / 32) (k % 32), show (32 * r + n) / 32 = r by omega, show (32 * r + n) % 32 = n by omega]

theorem rising_keepV {lo : Option Nat} (keep : Nat → Nat → Bool) (rising : Map.rising lo v = true) : Map.rising lo (keepV v keep) = true :=
  Map.rising_filter rising

theorem get_keepV (keep : Nat → Nat → Bool) (hn : n < 32) :
    Map.get 0 (keepV v keep) (32 * r + n) = if keep r n then Map.get 0 v (32 * r + n) else 0 := by
  rw [Map.get, look_keepV keep hn]
  split <;> rfl

end

/-! ### Entering a callee (R156) -/

/-- What the statement says of a group that has made its call. -/
def Ctx.Enters (c : Ctx) (d : Nat) (e : GateEntry) (n : Nat) (t : State) (g : Group) : Prop :=
  g.domain = e.target.toNat % 64 ∧ g.live = c.lanesOf ∧
    (∃ st, t.strandAt c.r = some (g, st) ∧ st.pc = e.entry ∧ st.mask = c.lanesOf ∧ st.wait = .ready) ∧ g.calling = false ∧
    (∀ k, g.sreg k = if k = 63 then e.stack else if 1 ≤ k ∧ k ≤ e.sa.toNat then c.g.sreg k else 0) ∧
    (e.flags.getLsbD 0 = false → (∀ r n, n < 32 → g.vreg r n = if r < e.va.toNat ∧ c.lanesOf.getLsbD n = true then c.g.vreg r n else 0) ∧
      ∀ k n, n < 32 → k ≠ 0 → g.predBit k n = false) ∧
    ∃ fr, g.frames = fr :: c.g.frames ∧ fr.caller = c.g.domain ∧ fr.pc = c.st.pc + 8 ∧ fr.d = d ∧ fr.live = c.g.live ∧ fr.mask = c.lanesOf ∧ fr.entry = n

section
variable {g : Group} {e : GateEntry} {r : StrandRef} {st : Strand} {d n : Nat} {records : List Record}

/-- The arguments and the stack pointer are the callee's only scalars. -/
theorem Group.sreg_enter (k : Nat) :
    (g.enter e r st d n records).sreg k = if k = 63 then e.stack else if 1 ≤ k ∧ k ≤ e.sa.toNat then g.sreg k else 0 := by
  by_cases zero : k = 0
  · subst zero
    rfl
  · have args := Map.get_filter_key (m := g.s) (k := k) 0 fun k => decide (1 ≤ k) && decide (k ≤ e.sa.toNat)
    simp only [Bool.and_eq_true, decide_eq_true_eq] at args
    change (if k = 0 then 0 else Map.get 0 (Map.set 0 (g.s.filter fun x => decide (1 ≤ x.1) && decide (x.1 ≤ e.sa.toNat)) 63 e.stack) k) = _
    rw [if_neg zero, Map.get_set, args, Group.sreg, if_neg zero]

/-- The arguments are the callee's only vector registers. -/
theorem Group.vreg_enter (whole : e.flags.getLsbD 0 = false) {q l : Nat} (hl : l < 32) :
    (g.enter e r st d n records).vreg q l = if q < e.va.toNat ∧ (st.mask &&& g.live).getLsbD l = true then g.vreg q l else 0 := by
  change Map.get 0 (if e.flags.getLsbD 0 then g.v else keepV g.v fun k l => k < e.va.toNat && (st.mask &&& g.live).getLsbD l) (32 * q + l) = _
  rw [whole, if_neg Bool.false_ne_true, get_keepV _ hl]
  simp only [Bool.and_eq_true, decide_eq_true_eq]
  rfl

theorem Group.predBit_enter (whole : e.flags.getLsbD 0 = false) {k l : Nat} (hk : k ≠ 0) : (g.enter e r st d n records).predBit k l = false := by
  have cleared : (g.enter e r st d n records).p = [] := by
    change (if e.flags.getLsbD 0 then g.p else []) = []
    rw [whole, if_neg Bool.false_ne_true]
  simp [Group.predBit, Group.pred, cleared, hk, Map.get]

end

/-- A group that stands in the state as entered has made its call. -/
theorem Ctx.enters_of_look {c : Ctx} {t : State} {d n : Nat} {e : GateEntry} {records : List Record} (key : c.key = gkey c.r.core c.r.slot)
    (look : t.groups.look c.key = some (c.g.enter e c.r c.st d n records)) : c.Enters d e n t (c.g.enter e c.r c.st d n records) := by
  refine ⟨rfl, rfl, ⟨{ pc := e.entry, mask := c.lanesOf, placed := c.st.placed }, ?_, rfl, rfl, rfl⟩, rfl, Group.sreg_enter,
    fun whole => ⟨fun q l => Group.vreg_enter whole, fun k l _ => Group.predBit_enter whole⟩, _, rfl, rfl, rfl, rfl, rfl, rfl, rfl⟩
  have strands : (c.g.enter e c.r c.st d n records).strands = [(c.r.entry, { pc := e.entry, mask := c.lanesOf, placed := c.st.placed })] := rfl
  rw [State.strandAt, ← key, look]
  dsimp only
  rw [strands, Map.look_cons, if_pos rfl]

/-- A call changes its group and what its core holds for it. -/
theorem State.enterGate_eq (s : State) (r : StrandRef) (g : Group) (st : Strand) (e : GateEntry) (n d : Nat) :
    ∃ cs records, s.enterGate r g st e n d = ({ s with cores := cs } : State).setGroup (gkey r.core r.slot) (g.enter e r st d n records) := by
  unfold State.enterGate
  dsimp only
  split
  · exact ⟨_, _, rfl⟩
  · exact ⟨_, _, rfl⟩

/-- A call as the statement sees it. -/
theorem Ctx.enters_enterGate {c : Ctx} (key : c.key = gkey c.r.core c.r.slot) (s : State) (e : GateEntry) (n d : Nat) :
    ∃ g, (s.enterGate c.r c.g c.st e n d).groups.look c.key = some g ∧ (s.enterGate c.r c.g c.st e n d).mem = s.mem ∧
      (s.enterGate c.r c.g c.st e n d).blocks = s.blocks ∧ c.Enters d e n (s.enterGate c.r c.g c.st e n d) g := by
  obtain ⟨cs, records, eq⟩ := s.enterGate_eq c.r c.g c.st e n d
  rw [eq]
  have look : (({ s with cores := cs } : State).setGroup (gkey c.r.core c.r.slot) (c.g.enter e c.r c.st d n records)).groups.look c.key =
      some (c.g.enter e c.r c.st d n records) := by
    rw [key]
    exact Map.look_put_same _ _ _
  exact ⟨_, look, rfl, rfl, Ctx.enters_of_look key look⟩

/-! ### `gate` (R156) -/

section
variable {l : FormL} {s : State} {c : Ctx} {e : GateEntry}

/-- Something of the group is outstanding. -/
theorem Group.outstanding_iff {g : Group} : (!g.idle || !g.matrixQuiet) = true ↔ g.ops ≠ [] ∨ g.matrixQuiet = false := by
  simp [Group.idle]

theorem Group.not_outstanding {g : Group} (idle : g.ops = []) (quiet : g.matrixQuiet = true) : ¬ (!g.idle || !g.matrixQuiet) = true := by
  rw [Group.outstanding_iff]
  simp [idle, quiet]

/-- A call that nothing stands against is made at once, or waited for. -/
theorem gate_calls (h : Runs (.gate l) s c) (wide : c.wide l.g = true) (entry : (c.s.domain c.g.domain).gates.look l.imm.toNat = some e)
    (callable : GateEntry.callable e c.g.domain c.g.nregs = true) (present : (c.s.domain (e.target.toNat % 64)).state ≠ .free)
    (free : (c.s.domain (e.target.toNat % 64)).state ≠ .quarantined) (depth : c.g.frames.length = 0 ∨ (c.g.frames.length = 1 ∧ e.flags.getLsbD 1 = true)) :
    exec (.gate l) s = if !c.g.idle || !c.g.matrixQuiet then c.await (.gate e l.imm.toNat l.d.toNat)
      else .next (c.s.enterGate c.r c.g c.st e l.imm.toNat l.d.toNat) := by
  have shallow : (c.g.depth == 2 || (c.g.depth == 1 && !e.flags.getLsbD 1)) = false := by
    rcases depth with none | ⟨one, nests⟩
    · simp [Group.depth, none]
    · simp [Group.depth, one, nests]
  change execGate l s = _
  rw [execGate, issue_runs h]
  simp only [wide, entry, callable, beq_eq_false_iff_ne.2 present, beq_eq_false_iff_ne.2 free, shallow, Bool.not_true, Bool.or_self,
    Bool.false_eq_true, if_false]

/-- The strand waits in `gate`, and no strand of its group is ready. -/
theorem Ctx.await_gate (h : Runs (.gate l) s c) (n d : Nat) :
    ∃ t g, c.await (.gate e n d) = .next t ∧ t.groups.look c.key = some g ∧ t.mem = s.mem ∧ t.blocks = s.blocks ∧ g.SameRegs c.g ∧
      g.domain = c.g.domain ∧ g.frames = c.g.frames ∧ g.calling = true ∧
      (∃ st, t.strandAt c.r = some (g, st) ∧ st.pc = c.st.pc ∧ st.wait = .gate e n d) ∧ ∀ x, gkey x.core x.slot = c.key → t.isReady x = false := by
  let waiting : Strand := { c.st with wait := .gate e n d }
  let g : Group := { c.g with strands := c.g.strands.put c.r.entry waiting }
  have strand : g.strands.look c.r.entry = some waiting := Map.look_put_same _ _ _
  have calling : g.calling = true := List.any_eq_true.2 ⟨_, Map.mem_of_look strand, rfl⟩
  have look : (c.s.setGroup c.key g).groups.look c.key = some g := Map.look_put_same _ _ _
  obtain ⟨_, mem, _⟩ := h.groups
  refine ⟨c.s.setGroup c.key g, g, ?_, look, mem, h.blocks_eq, .of_eq rfl rfl rfl, rfl, rfl, calling, ⟨waiting, ?_, rfl, rfl⟩, fun x same => ?_⟩
  · rw [Ctx.await, Group.onStrand_eq h.look]
  · rw [State.strandAt, ← h.key_eq, look]
    dsimp only
    rw [strand]
  · rw [State.isReady, State.strandAt, same, look]
    dsimp only
    cases g.strands.look x.entry with
    | none => rfl
    | some st => simp [calling]

/-- A number without an entry gives status 1. -/
theorem gate_missing (h : Runs (.gate l) s c) (wide : c.wide l.g = true) (entry : (c.s.domain c.g.domain).gates.look l.imm.toNat = none) :
    exec (.gate l) s = c.finish (c.g.setS l.d.toNat 1) := by
  change execGate l s = _
  rw [execGate, issue_runs h]
  simp only [wide, entry, Bool.not_true, Bool.false_eq_true, if_false]

end

/-- What a strand that waits in `gate` does when its turn comes. -/
theorem State.openGate_eq {s : State} {r : StrandRef} {g : Group} {st : Strand} {e : GateEntry} {n d : Nat} (strand : s.strandAt r = some (g, st))
    (wait : st.wait = .gate e n d) : s.openGate r = if !g.idle || !g.matrixQuiet then s
      else if (s.domain (e.target.toNat % 64)).state != .active then
        s.setGroup (gkey r.core r.slot) ((g.setS d 2).onStrand r.entry fun st => st.goto (st.pc + 8))
      else s.enterGate r g st e n d := by
  simp only [State.openGate, strand, wait]

/-- A callee that is gone gives status 2. -/
theorem Ctx.openGate_gone {c : Ctx} {s : State} (strand : c.g.strands.look c.r.entry = some c.st) (d : Nat) : ∃ g st,
    (s.setGroup (gkey c.r.core c.r.slot) ((c.g.setS d 2).onStrand c.r.entry fun st => st.goto (st.pc + 8))).strandAt c.r = some (g, st) ∧
      st.pc = c.st.pc + 8 ∧ g.domain = c.g.domain ∧ ∀ k, g.sreg k = c.withScalar d 2 k := by
  have there : (c.g.setS d 2).strands.look c.r.entry = some c.st := by
    rw [(Group.setS_alike _ _ _).strands, strand]
  refine ⟨c.finished (c.g.setS d 2), c.onward, ?_, rfl, Group.setS_domain _ _ _, fun k => Group.sreg_setS _ _ _ _⟩
  rw [Group.onStrand_eq there, State.strandAt, State.setGroup_groups, Map.look_put_same]
  dsimp only
  rw [Map.look_put_same]
  rfl

end Sys2Proof.Machine

namespace Sys2Proof.Machine

/-! ### `gret` and `gabort` (R158, R159) -/

/-- Only operations that were there stay. -/
theorem mem_of_mem_pruneOps {o : PathOp} {held : List Path} {ops : List PathOp} (h : o ∈ pruneOps held ops) : o ∈ ops := by
  induction ops generalizing held with
  | nil => exact h
  | cons x t ih =>
    unfold pruneOps at h
    split at h
    · split at h
      · exact (List.mem_cons.1 h).elim (fun e => e ▸ List.mem_cons_self) fun h => List.mem_cons_of_mem _ (ih h)
      · exact List.mem_cons_of_mem _ (ih h)
    · exact (List.mem_cons.1 h).elim (fun e => e ▸ List.mem_cons_self) fun h => List.mem_cons_of_mem _ (ih h)

section
variable {g : Group} {fr : Frame} {abort : Bool}

/-- The results, then zeros in place of the arguments, then the caller's own scalars. -/
theorem Group.sreg_leave (rising : Map.rising none g.s = true) {k : Nat} (hk : k ≠ 0) : (g.leave fr abort).sreg k =
    if k = fr.d then (if abort then 2 else 0) else if k ≤ (if abort then 0 else fr.sr) then g.sreg k else if k ≤ max fr.sa fr.sr then 0 else Map.get 0 fr.s k := by
  have fits : (if abort then 0 else fr.sr) ≤ max fr.sa fr.sr := by split <;> omega
  unfold Group.leave
  dsimp only
  rw [Group.sreg_setS]
  simp only [Group.sreg, hk, ne_eq, not_false_eq_true, and_true, if_false, Map.get]
  generalize (if abort then 0 else fr.sr) = sr at *
  rw [look_joinMaps (Map.rising_filter rising), Map.look_filter_key fun k => decide (1 ≤ k) && decide (k ≤ sr),
    Map.look_filter_key fun k => decide (max fr.sa fr.sr < k)]
  simp only [Bool.and_eq_true, decide_eq_true_eq, show 1 ≤ k by omega, true_and]
  refine if_congr Iff.rfl rfl ?_
  by_cases result : k ≤ sr
  · rw [if_pos result, if_pos result, if_neg (by omega)]
    simp
  · rw [if_neg result, if_neg result]
    by_cases argument : k ≤ max fr.sa fr.sr
    · rw [if_pos argument, if_neg (by omega)]
      rfl
    · rw [if_neg argument, if_pos (by omega)]
      rfl

/-- In the lanes of the call the results, then zeros in place of the arguments; every other register is the caller's. -/
theorem Group.vreg_leave (rising : Map.rising none g.v = true) (whole : fr.uniform = false) {r n : Nat} (hn : n < 32) : (g.leave fr abort).vreg r n =
    if fr.mask.getLsbD n = true ∧ r < (if abort then 0 else fr.vr) then g.vreg r n
    else if fr.mask.getLsbD n = true ∧ r < max fr.va fr.vr then 0 else Map.get 0 fr.v (32 * r + n) := by
  have fits : (if abort then 0 else fr.vr) ≤ max fr.va fr.vr := by split <;> omega
  unfold Group.leave
  dsimp only
  rw [Group.vreg_setS]
  simp only [Group.vreg, whole, Bool.false_eq_true, if_false, Map.get]
  generalize (if abort then 0 else fr.vr) = vr at *
  rw [look_joinMaps (rising_keepV _ rising), look_keepV _ hn, look_keepV _ hn]
  cases inside : fr.mask.getLsbD n with
  | false => simp
  | true =>
    simp only [Bool.true_and, decide_eq_true_eq, true_and, Bool.not_eq_true', decide_eq_false_iff_not]
    by_cases result : r < vr
    · rw [if_pos result, if_pos result, if_neg (by omega)]
      simp
    · rw [if_neg result, if_neg result]
      by_cases argument : r < max fr.va fr.vr
      · rw [if_pos argument, if_neg (by omega)]
        rfl
      · rw [if_neg argument, if_pos (by omega)]
        rfl

/-- The callee's stores count on the gate path from now on. -/
theorem Group.leave_path {o : PathOp} (h : o ∈ (g.leave fr abort).ops) : o.path ≠ .gst := by
  have listed : o ∈ g.ops.map fun o => if o.path == .gst then
      { o with path := .gat, callee := some fr.callee, sreg := o.sreg.filter fun k => k ≤ (if abort then 0 else fr.sr) && k != fr.d } else o := by
    refine mem_of_mem_pruneOps (held := []) ?_
    unfold Group.leave Group.setS at h
    dsimp only at h
    split at h
    · exact h
    · exact h
  obtain ⟨x, _, rfl⟩ := List.mem_map.1 listed
  split
  · exact fun e => nomatch e
  · next other => simpa using other

theorem Group.leave_strands : (g.leave fr abort).strands = fr.strands.map fun e => (e.1, if e.1 = fr.strand then e.2.goto fr.pc else e.2) := by
  unfold Group.leave Group.setS
  dsimp only
  rw [apply_ite Group.strands, ite_self]
  refine List.map_congr_left fun e _ => ?_
  simp only [beq_iff_eq]
  split <;> rfl

/-- What else of the caller comes back. -/
theorem Group.leave_rest : (g.leave fr abort).domain = fr.caller ∧ (g.leave fr abort).frames = g.frames.tail ∧ (g.leave fr abort).live = fr.live ∧
    (g.leave fr abort).trapvec = fr.trapvec ∧ (g.leave fr abort).layouts = fr.layouts ∧ (fr.uniform = false → (g.leave fr abort).p = fr.p) := by
  unfold Group.leave Group.setS
  dsimp only
  split <;> exact ⟨rfl, rfl, rfl, rfl, rfl, fun whole => if_neg (by simp [whole])⟩

/-- A return makes its group what `leave` says, but for the records that it gets back. -/
theorem State.leaveFrame_eq {s : State} {key : Nat} {rest : List Frame} (look : s.groups.look key = some g) (frames : g.frames = fr :: rest) :
    ∃ cs rs, s.leaveFrame key abort = ({ s with cores := cs } : State).setGroup key { g.leave fr abort with saveList := rs } := by
  unfold State.leaveFrame
  simp only [look, frames]
  split
  · exact ⟨_, _, rfl⟩
  · exact ⟨_, _, rfl⟩

end

/-- What the statement says of a group that has returned with `vr` and `sr` results and a status. -/
def Ctx.Leaving (c : Ctx) (fr : Frame) (rest : List Frame) (vr sr : Nat) (status : Dword) (g : Group) : Prop :=
  g.domain = fr.caller ∧ g.frames = rest ∧ g.live = fr.live ∧
    g.trapvec = fr.trapvec ∧ g.layouts = fr.layouts ∧ (∀ o ∈ g.ops, o.path ≠ .gst) ∧
    (∀ k, k ≠ 0 → g.sreg k = if k = fr.d then status else if k ≤ sr then c.g.sreg k else if k ≤ max fr.sa fr.sr then 0 else Map.get 0 fr.s k) ∧
    (fr.uniform = false → g.p = fr.p ∧ ∀ r n, n < 32 → g.vreg r n =
      if fr.mask.getLsbD n = true ∧ r < vr then c.g.vreg r n
      else if fr.mask.getLsbD n = true ∧ r < max fr.va fr.vr then 0 else Map.get 0 fr.v (32 * r + n)) ∧
    g.strands = fr.strands.map fun e => (e.1, if e.1 = fr.strand then e.2.goto fr.pc else e.2)

/-- A return from the innermost frame. -/
theorem Ctx.gateReturn_leaves {i : Instr} {s : State} {c : Ctx} (h : Runs i s c) {gd : Guard} {fr : Frame} {rest : List Frame} (wide : c.wide gd = true)
    (frames : c.g.frames = fr :: rest) (alone : c.othersInCallee = false) (risingS : Map.rising none c.g.s = true) (risingV : Map.rising none c.g.v = true)
    (loads : c.g.count .gld = 0) (near : c.g.count .nmp = 0) (abort : Bool) :
    ∃ t g, c.gateReturn gd abort = .next t ∧ t.groups.look c.key = some g ∧ t.mem = s.mem ∧ t.blocks = s.blocks ∧
      c.Leaving fr rest (if abort then 0 else fr.vr) (if abort then 0 else fr.sr) (if abort then 2 else 0) g := by
  obtain ⟨cs, rs, eq⟩ := State.leaveFrame_eq (abort := abort) h.own_look frames
  obtain ⟨_, mem, _⟩ := h.groups
  have returns : c.gateReturn gd abort = .next (c.s.leaveFrame c.key abort) := by
    simp only [Ctx.gateReturn, wide, frames, alone, Group.mayLeave, loads, near, List.isEmpty_cons, Bool.not_true, Bool.or_self, Bool.false_eq_true,
      if_false, beq_self_eq_true, Bool.and_self]
  obtain ⟨domain, tail, live, trapvec, layouts, preds⟩ := Group.leave_rest (g := c.g) (fr := fr) (abort := abort)
  rw [frames] at tail
  rw [returns, eq]
  exact ⟨_, _, rfl, Map.look_put_same _ _ _, mem, h.blocks_eq, domain, tail, live, trapvec, layouts, fun o => Group.leave_path,
    fun k => Group.sreg_leave risingS, fun whole => ⟨preds whole, fun r n => Group.vreg_leave risingV whole⟩, Group.leave_strands⟩

/-! ### `rgrow` and `rshrink` (R33, R162, R163) -/

/-- A request stands with the strand that waits in `rgrow`. -/
theorem Group.mem_requests {g : Group} {x : Nat × Nat × Nat} : x ∈ g.requests ↔ ∃ st, (x.1, st) ∈ g.strands ∧ st.wait = .rgrow x.2.1 x.2.2 := by
  unfold Group.requests
  rw [List.mem_filterMap]
  constructor
  · rintro ⟨⟨e, st⟩, mem, eq⟩
    dsimp only at eq
    split at eq
    · next wait =>
      cases eq
      exact ⟨st, mem, wait⟩
    · cases eq
  · rintro ⟨st, mem, wait⟩
    exact ⟨_, mem, by simp only [wait]⟩

/-- A group one of whose strands asks for granules. -/
def Group.asks (g : Group) (entry n q : Nat) : Group := g.onStrand entry fun st => { st with wait := .rgrow n q }

/-- A group one of whose strands has been given granules: the new registers read zero. -/
def Group.grown (g : Group) (entry n : Nat) : Group :=
  { g with nregs := g.nregs + 16 * n, v := keepV g.v fun k _ => k < g.nregs }.onStrand entry fun st => st.goto (st.pc + 8)

section
variable {g : Group} {entry n q : Nat} {st : Strand}

theorem Group.asks_strands (h : g.strands.look entry = some st) : (g.asks entry n q).strands = g.strands.put entry { st with wait := .rgrow n q } := by
  rw [Group.asks, Group.onStrand_eq h]

theorem Group.grown_strands (h : g.strands.look entry = some st) : (g.grown entry n).strands = g.strands.put entry (st.goto (st.pc + 8)) :=
  congrArg Group.strands (Group.onStrand_eq (g := { g with nregs := g.nregs + 16 * n, v := keepV g.v fun k _ => k < g.nregs }) h _)

/-- A group without requests makes one. -/
theorem Group.mem_requests_asks (h : g.strands.look entry = some st) (idle : g.requests = []) {r : Nat × Nat × Nat} :
    r ∈ (g.asks entry n q).requests ↔ r = (entry, n, q) := by
  rw [Group.mem_requests, Group.asks_strands h]
  constructor
  · rintro ⟨x, strand, wait⟩
    rcases Map.mem_put strand with new | old
    · injection new with here new
      subst new
      injection wait with count order
      rw [← here, count, order]
    · have waits := Group.mem_requests.2 ⟨x, old, wait⟩
      rw [idle] at waits
      cases waits
  · rintro rfl
    exact ⟨_, Map.mem_of_look (Map.look_put_same _ _ _), rfl⟩

end

/-- A request that is the only one of a quadrant is the oldest. -/
theorem State.oldestRequest_eq {s : State} {core quad : Nat} {x : Nat × Group × Nat × Nat × Nat}
    (there : ∃ e ∈ s.inQuad core quad, ∃ r ∈ e.2.requests, (e.1, e.2, r) = x) (only : ∀ e ∈ s.inQuad core quad, ∀ r ∈ e.2.requests, (e.1, e.2, r) = x) :
    s.oldestRequest core quad = some x := by
  unfold State.oldestRequest
  dsimp only
  have all : ∀ y ∈ (s.inQuad core quad).flatMap fun e => e.2.requests.map fun r => (e.1, e.2, r), y = x := by
    intro y hy
    obtain ⟨e, he, hy⟩ := List.mem_flatMap.1 hy
    obtain ⟨r, hr, rfl⟩ := List.mem_map.1 hy
    exact only e he r hr
  have mem : x ∈ (s.inQuad core quad).flatMap fun e => e.2.requests.map fun r => (e.1, e.2, r) := by
    obtain ⟨e, he, r, hr, rfl⟩ := there
    exact List.mem_flatMap.2 ⟨e, he, List.mem_map_of_mem hr⟩
  generalize (s.inQuad core quad).flatMap (fun e => e.2.requests.map fun r => (e.1, e.2, r)) = ys at all mem
  cases ys with
  | nil => cases mem
  | cons y ys =>
    rw [List.foldl_cons]
    refine List.foldlRecOn ys _ (motive := fun a => a = some x) (congrArg some (all y List.mem_cons_self)) fun a ha z hz => ?_
    subst ha
    dsimp only
    rw [all z (List.mem_cons_of_mem _ hz), ite_self]

/-- A request in a quadrant without others is the oldest. -/
theorem State.oldestRequest_asks {s t : State} {core quad key entry n q : Nat} {g : Group} {st : Strand} (groups : t.groups = s.groups.put key (g.asks entry n q))
    (own : (key, g) ∈ s.inQuad core quad) (strand : g.strands.look entry = some st) (idle : ∀ e ∈ s.inQuad core quad, e.2.requests = []) :
    t.oldestRequest core quad = some (key, g.asks entry n q, entry, n, q) := by
  have made {r : Nat × Nat × Nat} : r ∈ (g.asks entry n q).requests ↔ r = (entry, n, q) := Group.mem_requests_asks strand (idle _ own)
  refine State.oldestRequest_eq ⟨(key, g.asks entry n q), List.mem_filter.2 ⟨?_, (List.mem_filter.1 own).2⟩, _, made.2 rfl, rfl⟩ fun e he r hr => ?_
  · rw [groups]
    exact Map.mem_of_look (Map.look_put_same _ _ _)
  · obtain ⟨listed, inside⟩ := List.mem_filter.1 he
    rw [groups] at listed
    rcases Map.mem_put listed with rfl | old
    · rw [made.1 hr]
    · rw [idle e (List.mem_filter.2 ⟨old, inside⟩)] at hr
      cases hr

/-- A request that fits is granted. -/
theorem State.grant_eq {s : State} {core quad key entry n q : Nat} {g : Group} (oldest : s.oldestRequest core quad = some (key, g, entry, n, q))
    (room : g.nregs / 16 + n ≤ 16) (fits : n ≤ s.freeGranules core quad) : s.grant core quad = (s.setGroup key (g.grown entry n)).growTouch core quad := by
  simp only [State.grant, oldest, Nat.not_lt.2 room, fits, if_false, if_true]
  rfl

section
variable {l : FormL} {s : State} {c : Ctx}

/-- The group's own quadrant. -/
theorem Runs.mem_inQuad {i : Instr} (h : Runs i s c) (slot : c.r.slot < 64) : (c.key, c.g) ∈ c.s.inQuad c.r.core (slotQuad c.r.slot) := by
  have here : keyCore c.key = c.r.core ∧ keySlot c.key = c.r.slot := by
    rw [h.key_eq, keyCore, keySlot, gkey]
    omega
  rw [State.inQuad, List.mem_filter, here.1, here.2]
  exact ⟨Map.mem_of_look h.own_look, by simp⟩

/-- A change of one group that keeps its allocation keeps the granules that are free. -/
theorem State.freeGranules_onKey {s t : State} {k : Nat} {F : Group → Group} (groups : t.groups = s.groups.map (onKey k F)) (nregs : ∀ g, (F g).nregs = g.nregs)
    (core quad : Nat) : t.freeGranules core quad = s.freeGranules core quad := by
  have mine : t.inQuad core quad = (s.inQuad core quad).map (onKey k F) := by
    rw [State.inQuad, groups, List.filter_map]
    rfl
  have same : (fun e : Nat × Group => e.2.nregs / 16) ∘ onKey k F = fun e => e.2.nregs / 16 :=
    funext fun e => congrArg (· / 16) (onKey_snd_field Group.nregs nregs e)
  rw [State.freeGranules, mine, List.map_map, same]
  rfl

/-- A request that nothing of its quadrant stands before, and that fits, is granted in the step that makes it. -/
theorem rgrow_grows (h : Runs (.rgrow l) s c) (asks : l.imm.toNat ≠ 0) (wide : c.wide l.g = true) (room : c.g.nregs / 16 + l.imm.toNat ≤ 16)
    (rising : Map.rising none s.groups = true) (fits : l.imm.toNat ≤ c.s.freeGranules c.r.core (slotQuad c.r.slot)) (slot : c.r.slot < 64)
    (idle : ∀ e ∈ c.s.inQuad c.r.core (slotQuad c.r.slot), e.2.requests = []) :
    ∃ t g, exec (.rgrow l) s = .next t ∧ t.groups.look c.key = some g ∧ t.mem = s.mem ∧ t.blocks = s.blocks ∧ c.GoesOn t ∧
      g.nregs = c.g.nregs + 16 * l.imm.toNat ∧ (∀ k, g.sreg k = c.g.sreg k) ∧ (∀ k x, x < 32 → g.predBit k x = c.g.predBit k x) ∧
      ∀ r k, k < 32 → g.vreg r k = if r < c.g.nregs then c.g.vreg r k else 0 := by
  let n := l.imm.toNat
  let quad := slotQuad c.r.slot
  let asking := c.g.asks c.r.entry n c.s.nextId
  let grown := asking.grown c.r.entry n
  let s₁ : State := { c.s with nextId := c.s.nextId + 1 }.setGroup c.key asking
  let s₂ : State := if c.g.blocked then s₁ else s₁.growTouch c.r.core quad
  obtain ⟨groups₀, mem₀, _⟩ := h.groups
  have outside : s₂.groups = c.s.groups.put c.key asking ∧ s₂.mem = s.mem ∧ s₂.blocks = s.blocks := by
    dsimp only [s₂]
    split <;> exact ⟨rfl, mem₀, h.blocks_eq⟩
  obtain ⟨groups, mem, blocks⟩ := outside
  have changed : s₂.groups = c.s.groups.map (onKey c.key fun g => g.asks c.r.entry n c.s.nextId) :=
    groups.trans (Map.put_eq_map (F := fun g => g.asks c.r.entry n c.s.nextId) (groups₀ ▸ rising) h.own_look)
  have granted : s₂.grant c.r.core quad = (s₂.setGroup c.key grown).growTouch c.r.core quad :=
    State.grant_eq (State.oldestRequest_asks groups (h.mem_inQuad slot) h.look idle) room
      ((State.freeGranules_onKey changed (fun _ => rfl) _ _).symm ▸ fits)
  have look : (s₂.grant c.r.core quad).groups.look c.key = some grown := by
    rw [granted]
    exact Map.look_put_same _ _ _
  refine ⟨s₂.grant c.r.core quad, grown, ?_, look, granted ▸ mem, granted ▸ blocks, ?_, rfl, fun _ => rfl, fun _ _ _ => rfl, fun r k hk => ?_⟩
  · change execRgrow l s = _
    rw [execRgrow, issue_runs h]
    simp only [wide, beq_eq_false_iff_ne.2 asks, Nat.not_lt.2 room, Bool.not_true, Bool.or_self, Bool.false_eq_true, if_false]
    rfl
  · have waiting : asking.strands.look c.r.entry = some { c.st with wait := .rgrow n c.s.nextId } := by
      rw [Group.asks_strands h.look, Map.look_put_same]
    refine Ctx.goesOn_of_look h.key_eq look (st := c.onward) ?_ rfl rfl rfl
    rw [Group.grown_strands waiting]
    exact Map.look_put_same _ _ _
  · have kept := get_keepV (v := c.g.v) (r := r) (fun k _ => decide (k < c.g.nregs)) hk
    simp only [decide_eq_true_eq] at kept
    exact kept

/-- Granules go once nothing outstanding names their registers. -/
theorem rshrink_shrinks (h : Runs (.rshrink l) s c) (asks : l.imm.toNat ≠ 0) (wide : c.wide l.g = true) (room : 16 * l.imm.toNat + 16 ≤ c.g.nregs)
    (drained : ∀ o ∈ c.g.ops, ∀ r ∈ o.regs, r < c.g.nregs - 16 * l.imm.toNat) (complete : ∀ o ∈ c.g.owned, o.complete = true) :
    ∃ t g, exec (.rshrink l) s = .next t ∧ t.groups.look c.key = some g ∧ t.mem = s.mem ∧ t.blocks = s.blocks ∧ c.GoesOn t ∧
      g.nregs = c.g.nregs - 16 * l.imm.toNat ∧ (∀ k, g.sreg k = c.g.sreg k) ∧
      (∀ o ∈ g.owned, ∀ r, g.nregs ≤ r → o.holds r = false ∧ r ∉ o.cWritten) ∧
      ∀ r k, k < 32 → g.vreg r k = if r < c.g.nregs - 16 * l.imm.toNat then c.g.vreg r k else 0 := by
  let left := c.g.nregs - 16 * l.imm.toNat
  let g : Group := { c.g with nregs := left, v := keepV c.g.v (fun k _ => k < left), owned := c.g.owned.map fun o => o.release left }
  have noOps : (c.g.ops.any fun o => o.regs.any fun r => decide (c.g.nregs - 16 * l.imm.toNat ≤ r)) = false := by
    simp only [List.any_eq_false, List.any_eq_true, decide_eq_true_eq, not_exists, not_and, Nat.not_le]
    exact drained
  have noOwned (p : Owned → Bool) : (c.g.owned.any fun o => !o.complete && p o) = false := by
    rw [List.any_eq_false]
    intro o ho
    simp [complete o ho]
  have look : (c.s.setGroup c.key (c.finished g)).groups.look c.key = some (c.finished g) := Map.look_put_same _ _ _
  obtain ⟨_, mem, _⟩ := h.groups
  refine ⟨_, c.finished g, ?_, look, mem, h.blocks_eq, Ctx.goesOn_finished h.key_eq look rfl, rfl, fun _ => rfl, fun o ho r hr => ?_, fun r k hk => ?_⟩
  · change execRshrink l s = _
    rw [execRshrink, issue_runs h]
    simp only [wide, beq_eq_false_iff_ne.2 asks, Nat.not_lt.2 room, noOps, noOwned, Bool.not_true, Bool.or_self, Bool.false_eq_true, if_false]
    exact Ctx.finish_eq (g := g) h.look
  · obtain ⟨x, _, rfl⟩ := List.mem_map.1 ho
    have released : min x.keep left ≤ r := (Nat.min_le_right _ _).trans hr
    refine ⟨?_, fun written => ?_⟩
    · simp only [Owned.holds, Owned.release, Nat.not_lt.2 released, decide_false, Bool.false_and]
    · simp only [Owned.release, List.mem_filter, decide_eq_true_eq] at written
      exact absurd written.2 (Nat.not_lt.2 hr)
  · have kept := get_keepV (v := c.g.v) (r := r) (fun k _ => decide (k < left)) hk
    simp only [decide_eq_true_eq] at kept
    exact kept

/-- More than 16 granules are never asked for. -/
theorem rgrow_faults (h : Runs (.rgrow l) s c) (asks : l.imm.toNat ≠ 0) (wide : c.wide l.g = true) (exceeds : 16 < c.g.nregs / 16 + l.imm.toNat) :
    exec (.rgrow l) s = .next (c.s.takeFault c.r c.st.pc { code := faultRgrow }) := by
  change execRgrow l s = _
  rw [execRgrow, issue_runs h]
  simp only [wide, beq_eq_false_iff_ne.2 asks, exceeds, Bool.not_true, Bool.or_self, Bool.false_eq_true, if_false, if_true]
  rfl

end

/-! ### Barriers (R128) -/

/-- Looking at the barriers of a block records arrivals in blocks and lets groups pass, and does nothing else. -/
theorem State.barriers_induction {P : State → Prop} {s : State} {block : Nat}
    (records : ∀ s (bars : Block → Map (BitVec 32)), P s → P (s.onBlock block fun b => { b with bars := bars b })) (passes : ∀ s key k, P s → P (s.onGroup key fun g => g.passBar k))
    (h : P s) : P (s.barriers block) := by
  refine List.foldlRecOn _ _ (motive := P) h fun s hs k _ => ?_
  have noted (gs : List (Nat × Group)) : P (s.noteArrivals block (BitVec.ofNat 2 k) gs) := by
    unfold State.noteArrivals
    dsimp only
    split
    · exact hs
    · exact records s (fun b => b.bars.put (BitVec.ofNat 2 k).toNat _) hs
  unfold State.barComplete
  dsimp only
  split
  · refine records _ (fun b => b.bars.del (BitVec.ofNat 2 k).toNat) (List.foldlRecOn _ _ (motive := P) (noted _) fun s hs e _ => ?_)
    split
    · exact hs
    · exact passes s e.1 _ hs
  · exact noted _

theorem State.barriers_mem (s : State) (block : Nat) : (s.barriers block).mem = s.mem :=
  State.barriers_induction (P := fun t => t.mem = s.mem) (fun _ _ h => h) (fun _ _ _ h => h) rfl

/-- What passing a barrier keeps of a group, looking at barriers keeps. -/
theorem State.barriers_look {P : Group → Prop} (passes : ∀ g k, P g → P (g.passBar k)) {s : State} {block key : Nat}
    (h : ∃ g, s.groups.look key = some g ∧ P g) : ∃ g, (s.barriers block).groups.look key = some g ∧ P g := by
  refine State.barriers_induction (P := fun t => ∃ g, t.groups.look key = some g ∧ P g) (fun _ _ h => h) (fun t other k ⟨g, look, holds⟩ => ?_) h
  rw [State.onGroup_groups, Map.look_adjust]
  by_cases here : key = other
  · rw [if_pos here, ← here, look]
    exact ⟨_, rfl, passes g k holds⟩
  · rw [if_neg here]
    exact ⟨g, look, holds⟩

/-! ### `halt` and `halt.all` (R164) -/

section
variable {v : FormV} {s : State} {c : Ctx}

theorem halt_halts (wide : c.wide v.g = true) (idle : c.g.ops = []) (h : Runs (.halt v) s c) :
    ∃ t g, exec (.halt v) s = .next t ∧ t.groups.look c.key = some g ∧ g.live = 0 ∧ g.strands = [] ∧ g.saveList = [] ∧ t.mem = s.mem := by
  let halted : Group := { c.g with live := 0, strands := [], saveList := [], pending := [], jc := [], stack := [] }
  let s₁ : State := (c.s.onCore c.r.core fun x => { x with docent := x.docent.filter fun q => q.slot != c.r.slot }).setGroup c.key halted
  obtain ⟨_, mem, _⟩ := h.groups
  obtain ⟨g, look, live, strands, saved⟩ := State.barriers_look (P := fun g => g.live = 0 ∧ g.strands = [] ∧ g.saveList = []) (s := s₁)
    (block := c.g.block) (key := c.key) (fun g k ⟨live, strands, saved⟩ => ⟨live, by rw [Group.passBar, strands]; rfl, saved⟩)
    ⟨halted, Map.look_put_same _ _ _, rfl, rfl, rfl⟩
  refine ⟨s₁.barriers c.g.block, g, ?_, look, live, strands, saved, (State.barriers_mem _ _).trans mem⟩
  change execHalt v s = _
  rw [execHalt, issue_runs h]
  rw [if_neg (by simp [wide]), if_neg (by simp [Group.idle, idle])]

/-- The launch ends with a WATCH record: the group issues nothing more. -/
theorem haltAll_halts (wide : c.wide v.g = true) (top : c.g.frames = []) (h : Runs (.haltAll v) s c) : ∃ t, exec (.haltAll v) s = .next t ∧ t.mem = s.mem ∧
    (∃ r, t.faults.undelivered = s.faults.undelivered ++ [r] ∧ r.code = faultWatch ∧ r.detail = watchDetail 4 0 ∧ r.where_ = c.st.pc ∧
      r.domain = c.g.domain ∧ r.launch = some c.g.launch ∧ r.flags.getLsbD 0 = false ∧ r.flags.getLsbD 3 = true) ∧
    ∃ g, t.groups.look c.key = some g ∧ g.SameRegs c.g ∧ g.mayRun = false := by
  obtain ⟨_, mem, _⟩ := h.groups
  obtain ⟨n, state⟩ := h.state_eq
  obtain ⟨⟨x, queued, _, code, where_, _, detail, _, domain, _, _, launch, flags⟩, sameMem, _, _, _, _, _, _, _, groups⟩ :=
    faultEntry c.s c.r c.st.pc { code := faultWatch, detail := watchDetail 4 0 } c.g (h.key_eq ▸ h.own_look)
  have ends : x.flags = flagByte false true false true := by
    rw [flags, Group.depth, top]
    rfl
  have faults : c.s.faults = s.faults := by rw [state]
  refine ⟨_, ?_, sameMem.trans mem, ⟨x, faults ▸ queued, code, detail, where_, domain, launch, by rw [ends]; rfl, by rw [ends]; rfl⟩,
    { c.g with suspends := c.g.suspends ++ [{ code := faultWatch, entry := c.r.entry, lanes := 0, record := c.s.nextId, brk := false }] }, ?_,
    .of_eq rfl rfl rfl, ?_⟩
  · change execHaltAll v s = _
    rw [execHaltAll, issue_runs h]
    simp only [wide, if_true]
    rfl
  · rw [groups, h.key_eq]
    exact Map.look_put_same _ _ _
  · simp [Group.mayRun]

end

/-- Settles O37: one lemma for each instruction, and for the strand that waits in `gate`. -/
theorem gateCalls : Obligations.GateCalls := by
  intro l v s c m goes enters
  refine ⟨?calls, ?waits, fun wide entry h => ?missing, ?returns, ?granules, ?tooMany, halt_halts, haltAll_halts⟩
  case calls =>
    intro e wide entry callable present free depth
    refine ⟨fun idle quiet h => ?_, fun busy h => ?_⟩
    · obtain ⟨_, mem, _⟩ := h.groups
      obtain ⟨g, look, sameMem, sameBlocks, entered⟩ := Ctx.enters_enterGate h.key_eq c.s e l.imm.toNat l.d.toNat
      rw [gate_calls h wide entry callable present free depth, if_neg (Group.not_outstanding idle quiet)]
      exact ⟨_, g, rfl, look, sameMem.trans mem, sameBlocks.trans h.blocks_eq, entered⟩
    · rw [gate_calls h wide entry callable present free depth, if_pos (Group.outstanding_iff.2 busy)]
      exact Ctx.await_gate h _ _
  case waits =>
    intro e n strand wait same key
    have opens := State.openGate_eq strand wait
    refine ⟨fun busy => ?_, fun idle quiet gone => ?_, fun idle quiet active => ?_⟩
    · rw [opens, if_pos (Group.outstanding_iff.2 busy)]
    · rw [opens, if_neg (Group.not_outstanding idle quiet), if_pos (by simp [gone])]
      exact Ctx.openGate_gone (State.look_of_strandAt strand).2 _
    · rw [opens, if_neg (Group.not_outstanding idle quiet), if_neg (by simp [active])]
      obtain ⟨g, look, _, _, entered⟩ := Ctx.enters_enterGate key s e n l.d.toNat
      exact ⟨g, look, entered⟩
  case missing =>
    rw [gate_missing h wide entry]
    exact Ctx.finish_status h _ _
  case returns =>
    intro fr rest wide frames alone risingS risingV loads near back
    refine ⟨fun h => ?_, fun h => ?_⟩
    · change ∃ t g, execGret v s = .next t ∧ _
      rw [execGret, issue_runs h]
      exact Ctx.gateReturn_leaves h wide frames alone risingS risingV loads near false
    · change ∃ t g, execGabort v s = .next t ∧ _
      rw [execGabort, issue_runs h]
      exact Ctx.gateReturn_leaves h wide frames alone risingS risingV loads near true
  case granules =>
    rintro n rfl asks wide
    exact ⟨fun room rising fits slot idle h => rgrow_grows h asks wide room rising fits slot idle,
      fun room drained complete h => rshrink_shrinks h asks wide room drained complete⟩
  case tooMany =>
    rintro n exceeds rfl asks wide h
    exact rgrow_faults h asks wide exceeds

end Sys2Proof.Machine

namespace Sys2Proof.Machine

/-! ### An access that may run (R120, R234) -/

/-- The context that an access works in: the strand's spin count is 0. -/
def Ctx.spun (c : Ctx) : Ctx := { c with g := c.g.onStrand c.r.entry fun st => { st with spin := 0 } }

/-! Lanes, registers and clocks do not depend on the spin count. -/

section
variable (c : Ctx) (f : FormV) (gd : Guard) (geo : Geo) (want : Want) (ls : List Nat) (b : Block)

@[simp] theorem Ctx.spun_active : c.spun.active gd = c.active gd := rfl
@[simp] theorem Ctx.spun_part : c.spun.part gd = c.part gd := rfl
@[simp] theorem Ctx.spun_wide : c.spun.wide gd = c.wide gd := rfl
@[simp] theorem Ctx.spun_selWide (x : Byte) : c.spun.selWide x = c.selWide x := rfl
@[simp] theorem Ctx.spun_rows : c.spun.rows f geo want ls = c.rows f geo want ls := rfl
@[simp] theorem Ctx.spun_placeOf (l : Nat) : c.spun.placeOf f geo l = c.placeOf f geo l := rfl
@[simp] theorem Ctx.spun_placesFault : c.spun.placesFault f geo b ls = c.placesFault f geo b ls := rfl
@[simp] theorem Ctx.spun_missingWords : c.spun.missingWords f ls = c.missingWords f ls := rfl
@[simp] theorem Ctx.spun_listLines : c.spun.listLines f ls = c.listLines f ls := rfl
@[simp] theorem Ctx.spun_full (q : Path) : c.spun.g.full q = c.g.full q := rfl
@[simp] theorem Ctx.spun_helper : c.spun.g.helper = c.g.helper := rfl
@[simp] theorem Ctx.spun_spads : c.spun.g.spads = c.g.spads := rfl
@[simp] theorem Ctx.spun_block : c.spun.g.block = c.g.block := rfl
@[simp] theorem Ctx.spun_state : c.spun.s = c.s := rfl

end

theorem access_runs {i : Instr} {s : State} {c : Ctx} {k : Ctx → Res} (h : Runs i s c) (free : c.g.hold = none) : access i s k = k c.spun := by
  rw [access, issue_runs h, free]
  rfl

/-- A group that keeps the strands of an access goes on when the instruction completes. -/
theorem Ctx.goesOn_spun {i : Instr} {s t : State} {c : Ctx} {g : Group} (h : Runs i s c) (strands : g.strands = c.spun.g.strands) :
    c.GoesOn (t.setGroup c.key (g.onStrand c.r.entry fun st => st.goto (st.pc + 8))) := by
  have strand : g.strands.look c.r.entry = some { c.st with spin := 0 } := by
    rw [strands]
    change (c.g.strands.adjust c.r.entry _).look c.r.entry = _
    rw [Map.look_adjust, if_pos rfl, h.look]
    rfl
  rw [Group.onStrand_eq strand]
  exact Ctx.goesOn_of_look h.key_eq (Map.look_put_same _ _ _) (Map.look_put_same _ _ _) rfl rfl rfl

/-- An instruction whose lanes have no fault. -/
theorem Ctx.lanewise_good {c : Ctx} {p : LanePlan} {bad : List (Nat × FaultInfo)} {perform : State → Group → List LaneRef → State × Group}
    (good : p.bad = []) (none : bad = []) : c.lanewise p bad perform = c.finishIn (perform p.s c.g p.good).1 (perform p.s c.g p.good).2 := by
  rw [Ctx.lanewise, good, none]
  rfl

/-- An operation that has parts left stays. -/
theorem mem_pruneOps {o : PathOp} {held : List Path} {ops : List PathOp} (h : o ∈ ops) (left : o.left ≠ 0) : o ∈ pruneOps held ops := by
  induction ops generalizing held with
  | nil => cases h
  | cons x t ih =>
    unfold pruneOps
    rcases List.mem_cons.1 h with rfl | there
    · rw [if_neg (by simpa using left)]
      exact List.mem_cons_self
    · split
      · split
        · exact List.mem_cons_of_mem _ (ih there)
        · exact ih there
      · exact List.mem_cons_of_mem _ (ih there)

theorem Group.mem_addOp {g : Group} {o : PathOp} (left : o.left ≠ 0) : o ∈ (g.addOp o).ops := by
  refine mem_pruneOps (List.mem_append_right _ ?_) left
  rw [if_neg (by simpa using left)]
  exact List.mem_singleton_self _

/-! ### What keeps the bytes of memory and the blocks -/

/-- Memory's bytes and the blocks are those of `s`. -/
structure State.SameStore (s t : State) : Prop where
  bytes : t.mem.bytes = s.mem.bytes
  blocks : t.blocks = s.blocks

section
variable {s₀ s t : State}

theorem State.SameStore.refl (s : State) : s.SameStore s := ⟨rfl, rfl⟩

/-- A further change that keeps both. -/
theorem State.SameStore.then (h : s₀.SameStore s) (bytes : t.mem.bytes = s.mem.bytes) (blocks : t.blocks = s.blocks) : s₀.SameStore t :=
  ⟨bytes.trans h.bytes, blocks.trans h.blocks⟩

theorem State.SameStore.foldl {α : Type} {F : State → α → State} {xs : List α} (h : s₀.SameStore s)
    (step : ∀ (u : State) (x : α), s₀.SameStore u → s₀.SameStore (F u x)) : s₀.SameStore (xs.foldl F s) :=
  List.foldlRecOn xs F h fun u hu x _ => step u x hu

theorem State.SameStore.logBad (h : s₀.SameStore s) (line d : Nat) : s₀.SameStore (s.logBad line d) := by
  refine h.then ?_ ?_ <;> unfold State.logBad State.tagFails <;> dsimp only <;> split
  · split <;> rfl
  · rfl
  · split <;> rfl
  · rfl

theorem State.SameStore.logBadAt (h : s₀.SameStore s) (d : Nat) (va : Dword) : s₀.SameStore (s.logBadAt d va) := by
  unfold State.logBadAt
  split
  · exact h.logBad _ _
  · exact h.logBad _ _

theorem State.SameStore.learn (h : s₀.SameStore s) (d : Nat) (va : Dword) (want : Want) : s₀.SameStore (s.learn d va want) := by
  unfold State.learn
  split
  · exact h
  · split
    · next x _ =>
      have walked : (if (s.held d va.toNat).isSome then s.mem else s.mem.addLeaf 0 (tlbKey d va.toNat) x).bytes = s.mem.bytes := by
        split
        · rfl
        · exact MemSys.addLeaf_bytes
      refine h.then ?_ rfl
      dsimp only
      split
      · rw [apply_ite MemSys.bytes, MemSys.addLeaf_bytes, ite_self]
        exact walked
      · exact walked
    · exact h

theorem State.SameStore.learnRow (h : s₀.SameStore s) (d : Nat) (va : Dword) (n : Nat) (want : Want) : s₀.SameStore (s.learnRow d va n want) :=
  h.foldl fun _ _ h => h.learn _ _ _

/-- A clean line that leaves its slice is not written back. -/
theorem State.evictLine_bytes_of_clean {line : Nat} {x : HomeLine} (look : s.mem.l2.look line = some x) (clean : x.dirty = false) (w : Bool) (n : Nat) :
    (s.evictLine line w n).mem.bytes = s.mem.bytes := by
  simp only [State.evictLine, look, clean, MemSys.dropL2, Bool.false_and, Bool.not_false, if_true, Bool.false_eq_true, if_false]
  rfl

/-- A lease changes the times of a line: one that comes in for it is clean. -/
theorem State.SameStore.leaseLine (h : s₀.SameStore s) (line : Nat) (near : Bool) (rclk lease : Time) :
    s₀.SameStore (s.leaseLine line near rclk lease) := by
  unfold State.leaseLine
  split
  · exact h
  · refine h.then ?_ (State.setHome_blocks _ _ _)
    unfold State.setHome
    dsimp only
    split
    · next replaced =>
      have absent : s.mem.l2.look line = none := by simpa using (Bool.and_eq_true_iff.1 replaced).1
      refine State.evictLine_bytes_of_clean (Map.look_put_same _ _ _) ?_ _ _
      simp only [State.homeView, absent]
    · rfl

theorem State.SameStore.useUp (h : s₀.SameStore s) (lines : List Nat) : s₀.SameStore (s.useUp lines) := h.then rfl rfl

/-- Planning the rows of lanes reads memory, and may lease and learn. -/
theorem Ctx.sameStore_rows (c : Ctx) (f : FormV) (geo : Geo) (want : Want) (ls : List Nat) : c.s.SameStore (c.rows f geo want ls).s := by
  refine List.foldlRecOn ls _ (motive := fun p : RowPlan => c.s.SameStore p.s) (.refl _) fun p hp l _ => ?_
  dsimp only
  split
  · split
    · exact hp.logBadAt _ _
    · exact hp
  · next i found =>
    have hi : c.s.SameStore i.2.2 := by
      split at found
      · split at found
        · cases found
        · split at found
          · cases found
          · cases found
            exact (hp.learn _ _ _).leaseLine _ _ _ _
      · cases found
        exact hp
    split
    · exact hp
    · exact hi.learnRow _ _ _ _

end

/-! ### What keeps the bytes of memory and of the scratchpads -/

/-- Memory's bytes are those of `s`, and so are the scratchpad's in each of its blocks. -/
structure State.SameBytes (s t : State) : Prop where
  bytes : t.mem.bytes = s.mem.bytes
  spads : ∀ k b, s.blocks.look k = some b → ∃ b', t.blocks.look k = some b' ∧ b'.spad = b.spad

section
variable {s₀ s t : State}

theorem State.SameBytes.refl (s : State) : s.SameBytes s := ⟨rfl, fun _ b h => ⟨b, h, rfl⟩⟩

theorem State.SameBytes.then (h : s₀.SameBytes s) (bytes : t.mem.bytes = s.mem.bytes) (blocks : t.blocks = s.blocks) : s₀.SameBytes t :=
  ⟨bytes.trans h.bytes, by rw [blocks]; exact h.spads⟩

/-- A change of a block that keeps its scratchpad. -/
theorem State.SameBytes.onBlock (h : s₀.SameBytes s) (k : Nat) {F : Block → Block} (spad : ∀ b, (F b).spad = b.spad) : s₀.SameBytes (s.onBlock k F) := by
  refine ⟨h.bytes, fun j b look => ?_⟩
  obtain ⟨b', there, same⟩ := h.spads j b look
  rw [State.onBlock_blocks, Map.look_adjust]
  split
  · next here =>
    rw [← here, there]
    exact ⟨F b', rfl, (spad b').trans same⟩
  · exact ⟨b', there, same⟩

theorem State.SameBytes.barriers (h : s₀.SameBytes s) (block : Nat) : s₀.SameBytes (s.barriers block) :=
  State.barriers_induction (P := s₀.SameBytes) (fun _ _ h => h.onBlock block fun _ => rfl) (fun _ _ _ h => h.then rfl rfl) h

theorem State.SameBytes.takeFault (h : s₀.SameBytes s) (r : StrandRef) (pc : Dword) (f : FaultInfo) (callee : Option Nat) :
    s₀.SameBytes (s.takeFault r pc f callee) := by
  unfold State.takeFault
  dsimp only
  split
  · exact h
  · exact h.then rfl rfl

theorem State.SameBytes.reportOp (h : s₀.SameBytes s) (key : Nat) (o : PathOp) : s₀.SameBytes (s.reportOp key o) := by
  unfold State.reportOp
  dsimp only
  split
  · exact h
  · exact State.SameBytes.takeFault (s := s.onGroup key _) (h.then rfl rfl) _ _ _ _

theorem State.SameBytes.leaveFrame (h : s₀.SameBytes s) (key : Nat) (abort : Bool) : s₀.SameBytes (s.leaveFrame key abort) := by
  cases look : s.groups.look key with
  | none =>
    rw [State.leaveFrame, look]
    exact h
  | some g =>
    cases frames : g.frames with
    | nil =>
      simp only [State.leaveFrame, look, frames]
      exact h
    | cons fr rest =>
      obtain ⟨cs, rs, eq⟩ := State.leaveFrame_eq (abort := abort) look frames
      rw [eq]
      exact h.then rfl rfl

theorem State.SameBytes.abortFrames (h : s₀.SameBytes s) (key fuel : Nat) : s₀.SameBytes (s.abortFrames key fuel) := by
  induction fuel generalizing s with
  | zero => exact h
  | succ fuel ih =>
    unfold State.abortFrames
    split
    · next spent _ =>
      cases spent
      split
      · exact h
      · split
        · exact ih (h.leaveFrame key true)
        · exact h.then rfl rfl
    · exact h

/-- The end of a part of an operation changes groups and what is recorded of barriers and faults. -/
theorem State.SameBytes.partDone (h : s₀.SameBytes s) (key op n : Nat) : s₀.SameBytes (s.partDone key op n) := by
  unfold State.partDone
  split
  · exact h
  · next g _ =>
    have done : s₀.SameBytes ((s.setGroup key (g.partDone op n)).barriers g.block) :=
      State.SameBytes.barriers (s := s.setGroup key (g.partDone op n)) (h.then rfl rfl) _
    refine State.SameBytes.abortFrames ?_ _ _
    split
    · split
      · exact done.reportOp _ _
      · exact done
    · exact done

end

end Sys2Proof.Machine

namespace Sys2Proof

/-! ### Bytes of lists -/

/-- What one step of a fold brings about stays, if the other steps keep it. -/
theorem foldl_reaches {σ α : Type} {F : σ → α → σ} {I Q : σ → Prop} {xs : List α} {x : α} (here : x ∈ xs) (keeps : ∀ u y, I u → I (F u y))
    (reaches : ∀ u, I u → Q (F u x)) (stays : ∀ u y, Q u → Q (F u y)) {u : σ} (hu : I u) : Q (xs.foldl F u) := by
  induction xs generalizing u with
  | nil => cases here
  | cons y ys ih =>
    rw [List.foldl_cons]
    rcases List.mem_cons.1 here with rfl | later
    · exact List.foldlRecOn ys F (reaches u hu) fun v hv z _ => stays v z hv
    · exact ih later (keeps u y hu)

theorem length_leBytes (n v : Nat) : (leBytes n v).length = n := by
  induction n generalizing v with
  | zero => rfl
  | succ n ih => rw [leBytes, List.length_cons, ih]

/-- Elements of one size that stand one after another. -/
theorem getElem?_flatMap_of_length {α β : Type} {g : α → List β} {m : Nat} (size : ∀ a, (g a).length = m) {xs : List α} {i x : Nat} {a : α}
    (h : xs[i]? = some a) (hx : x < m) : (xs.flatMap g)[i * m + x]? = (g a)[x]? := by
  induction xs generalizing i with
  | nil => cases h
  | cons y ys ih =>
    rw [List.flatMap_cons]
    cases i with
    | zero =>
      cases h
      rw [Nat.zero_mul, Nat.zero_add, List.getElem?_append_left (by rw [size]; exact hx)]
    | succ i =>
      rw [List.getElem?_append_right (by rw [size, Nat.succ_mul]; omega), size, show (i + 1) * m + x - m = i * m + x by rw [Nat.succ_mul]; omega]
      exact ih h

theorem length_flatMap_of_length {α β : Type} {g : α → List β} {m : Nat} (size : ∀ a, (g a).length = m) (xs : List α) :
    (xs.flatMap g).length = xs.length * m := by
  induction xs with
  | nil => simp
  | cons y ys ih => rw [List.flatMap_cons, List.length_append, size, ih, List.length_cons, Nat.succ_mul, Nat.add_comm]

end Sys2Proof

namespace Sys2Proof.Machine

/-! ### Writes to a scratchpad (R113) -/

section
variable {b : Block} {off a : Nat} {xs : List Byte}

theorem Block.read_write (b : Block) (off a : Nat) (x : Byte) : (b.write off x).read a = if a = off then x else b.read a := Map.get_set 0 b.spad off a x

/-- A byte after a run of bytes has been written. -/
theorem Block.read_writes : (b.writes off xs).read a = if off ≤ a ∧ a < off + xs.length then xs.getD (a - off) 0 else b.read a := by
  induction xs generalizing b off with
  | nil => rw [if_neg (by simp)]; rfl
  | cons x t ih =>
    rw [Block.writes, ih, Block.read_write, List.length_cons]
    by_cases first : a = off
    · rw [if_neg (by omega), if_pos first, if_pos (by omega), first, Nat.sub_self]
      rfl
    · by_cases inside : off + 1 ≤ a ∧ a < off + 1 + t.length
      · rw [if_pos inside, if_pos (by omega), show a - off = a - (off + 1) + 1 by omega]
        rfl
      · rw [if_neg inside, if_neg first, if_neg (by omega)]

/-- The bytes of a place are those that are read there one by one. -/
theorem Block.bytes_eq (h : ∀ k, k < xs.length → b.read (off + k) = xs.getD k 0) : b.bytes off xs.length = xs := by
  refine List.ext_getElem (by simp [Block.bytes]) fun k hk hx => ?_
  simp only [Block.bytes, List.getElem_map, List.getElem_range]
  rw [h k hx, List.getD_eq_getElem _ _ hx]

/-- The same bytes in the places of several lanes, which do not overlap. -/
theorem Block.read_foldl_writes {dst stride k l : Nat} {ls : List Nat} (fits : xs.length ≤ stride) (here : l ∈ ls) (hk : k < xs.length) :
    (ls.foldl (fun b l => b.writes (dst + l * stride) xs) b).read (dst + l * stride + k) = xs.getD k 0 := by
  refine foldl_reaches (I := fun _ => True) (Q := fun u : Block => u.read (dst + l * stride + k) = xs.getD k 0) here (fun _ _ h => h) (fun u _ => ?_)
    (fun u y hu => ?_) trivial
  · rw [Block.read_writes, if_pos (by omega), Nat.add_sub_cancel_left]
  · rw [Block.read_writes]
    split
    · next covered =>
      have same : y = l := by
        rcases Nat.lt_trichotomy y l with lower | same | higher
        · have apart := Nat.mul_le_mul_right stride (Nat.succ_le_of_lt lower)
          rw [Nat.succ_mul] at apart
          omega
        · exact same
        · have apart := Nat.mul_le_mul_right stride (Nat.succ_le_of_lt higher)
          rw [Nat.succ_mul] at apart
          omega
      rw [same, Nat.add_sub_cancel_left]
    · exact hu

/-- Writes to a scratchpad reach its block; memory stays. -/
theorem State.spadWrite_blocks (s : State) (k off : Nat) (xs : List Byte) :
    (s.spadWrite k off xs).blocks = s.blocks.adjust k (fun b => b.writes off xs) ∧ (s.spadWrite k off xs).mem = s.mem := by
  unfold State.spadWrite State.taint
  split <;> exact ⟨rfl, rfl⟩

theorem State.look_foldl_spadWrite {s : State} {k : Nat} (place : Nat → Nat) {ls : List Nat} (look : s.blocks.look k = some b) :
    (ls.foldl (fun s l => s.spadWrite k (place l) xs) s).blocks.look k = some (ls.foldl (fun b l => b.writes (place l) xs) b) ∧
      (ls.foldl (fun s l => s.spadWrite k (place l) xs) s).mem = s.mem := by
  induction ls generalizing s b with
  | nil => exact ⟨look, rfl⟩
  | cons l ls ih =>
    obtain ⟨blocks, mem⟩ := s.spadWrite_blocks k (place l) xs
    obtain ⟨there, same⟩ := ih (s := s.spadWrite k (place l) xs) (b := b.writes (place l) xs) (by rw [blocks, Map.look_adjust, if_pos rfl, look]; rfl)
    exact ⟨there, same.trans mem⟩

end

/-! ### A row that lands (R142) -/

section
variable {s : State} {j : GathJob} {id row : Nat} {ls : List Nat}

/-- The row of a job with its lanes. -/
theorem find?_row {rs : List (Nat × List Nat)} (mem : (row, ls) ∈ rs) (nodup : (rs.map (·.1)).Nodup) : rs.find? (fun r => r.1 == row) = some (row, ls) := by
  induction rs with
  | nil => cases mem
  | cons r rs ih =>
    rw [List.map_cons, List.nodup_cons] at nodup
    rcases List.mem_cons.1 mem with rfl | later
    · rw [List.find?_cons_of_pos (by simp)]
    · rw [List.find?_cons_of_neg, ih later nodup.2]
      rintro same
      exact nodup.1 (beq_iff_eq.1 same ▸ List.mem_map_of_mem later)

/-- The elements of a row. -/
theorem GathJob.getElem?_elems {i : Nat} (hi : i < j.rowBytes / j.elemBytes) : (j.elems row)[i]? = some (pageAt j.pages (row + i * j.elemBytes)) := by
  simp [GathJob.elems, hi]

/-- Every element of a row can be read now, through the leaves of its job. -/
def State.RowReady (s : State) (j : GathJob) (row : Nat) : Prop :=
  ∀ i, i < j.rowBytes / j.elemBytes → ∃ pa n, pageAt j.pages (row + i * j.elemBytes) = some (pa, n) ∧ s.lineBad (pa / 64) = false ∧
    s.refused (pa / 64) n = false ∧ s.lineNow (pa / 64) n ≠ none

/-- The lines of a row. -/
def GathJob.linesOf (j : GathJob) (row : Nat) : List (Nat × Bool) := ((j.elems row).filterMap fun e => e.map fun x => (x.1 / 64, x.2)).eraseDups

/-- Nothing of a row that is ready has to be asked of an owner. -/
theorem State.RowReady.missing (ready : s.RowReady j row) : s.missing (j.linesOf row) = [] := by
  refine List.filter_eq_nil_iff.2 fun x hx => ?_
  obtain ⟨e, he, eq⟩ := List.mem_filterMap.1 (List.mem_eraseDups.1 hx)
  obtain ⟨i, hi, rfl⟩ := List.mem_map.1 he
  obtain ⟨pa, n, page, _, refused, there⟩ := ready i (List.mem_range.1 hi)
  rw [page] at eq
  cases eq
  simp [Option.isNone_iff_eq_none, there]

/-- The value of an element of a row now. -/
def State.elemValue (s : State) (size : Nat) (e : Option (Nat × Bool)) : Nat := match e with | some x => s.engineValue x.1 size x.2 | none => 0

/-- The bytes of a row now. -/
def State.rowBytes (s : State) (j : GathJob) (row : Nat) : List Byte := (j.elems row).flatMap fun e => leBytes j.elemBytes (s.elemValue j.elemBytes e)

theorem State.length_rowBytes : (s.rowBytes j row).length = j.rowBytes / j.elemBytes * j.elemBytes := by
  rw [State.rowBytes, length_flatMap_of_length fun _ => length_leBytes _ _]
  simp [GathJob.elems]

theorem State.rowBytes_getD {i k : Nat} (hi : i < j.rowBytes / j.elemBytes) (hk : k < j.elemBytes) : (s.rowBytes j row).getD (i * j.elemBytes + k) 0 =
    (leBytes j.elemBytes (s.elemValue j.elemBytes (pageAt j.pages (row + i * j.elemBytes)))).getD k 0 := by
  rw [List.getD_eq_getElem?_getD, List.getD_eq_getElem?_getD, State.rowBytes,
    getElem?_flatMap_of_length (fun _ => length_leBytes _ _) (GathJob.getElem?_elems hi) hk]

/-- A row that is ready is written to the places of its lanes; then times, counters and the job change. -/
theorem execGathRowLand_eq (look : s.gaths.look id = some j) (mem : (row, ls) ∈ j.rows) (nodup : (j.rows.map (·.1)).Nodup) (ready : s.RowReady j row) :
    ∃ u, execGathRowLand id row s = .next (u.partDone j.group j.op 1) ∧
      (ls.foldl (fun u l => u.spadWrite j.block (j.dst + l * roundUp j.rowBytes 16) (s.rowBytes j row)) s).SameStore u := by
  unfold execGathRowLand
  simp -zeta only [look, find?_row mem nodup]
  extract_lets n elems lines bad rest helper data wts land lanes landed counted leased used left
  have readable : bad = none := by
    refine List.find?_eq_none.2 fun i hi => ?_
    obtain ⟨pa, n, page, good, refused, _⟩ := ready i (List.mem_range.1 hi)
    simp [elems, GathJob.getElem?_elems (List.mem_range.1 hi), page, good, refused]
  have here : s.missing lines = [] := ready.missing
  clear_value bad
  subst readable
  rw [if_neg (by simp [here])]
  refine ⟨left, rfl, ?_⟩
  have h₀ : landed.SameStore counted := ⟨rfl, rfl⟩
  have h₁ : landed.SameStore leased := h₀.foldl (xs := lines) fun _ _ h => h.leaseLine _ _ _ _
  have h₂ : landed.SameStore used := h₁.useUp _
  dsimp only [left]
  split
  · exact h₂.then rfl rfl
  · exact h₂.then rfl rfl

/-- After a row has landed each of its elements stands in the place of each of its lanes. -/
theorem gathRowLand_lands {b : Block} (look : s.gaths.look id = some j) (mem : (row, ls) ∈ j.rows) (nodup : (j.rows.map (·.1)).Nodup)
    (block : s.blocks.look j.block = some b) (fits : j.rowBytes / j.elemBytes * j.elemBytes ≤ roundUp j.rowBytes 16) (ready : s.RowReady j row) :
    ∃ t b', exec (.gathRowLand id row) s = .next t ∧ t.blocks.look j.block = some b' ∧ t.mem.bytes = s.mem.bytes ∧
      ∀ l ∈ ls, ∀ i, i < j.rowBytes / j.elemBytes → ∀ pa n, pageAt j.pages (row + i * j.elemBytes) = some (pa, n) →
        b'.bytes (j.dst + l * roundUp j.rowBytes 16 + i * j.elemBytes) j.elemBytes = leBytes j.elemBytes (s.engineValue pa j.elemBytes n) := by
  obtain ⟨u, lands, same⟩ := execGathRowLand_eq look mem nodup ready
  obtain ⟨written, kept⟩ := State.look_foldl_spadWrite (xs := s.rowBytes j row) (fun l => j.dst + l * roundUp j.rowBytes 16) (ls := ls) block
  have done : u.SameBytes (u.partDone j.group j.op 1) := (State.SameBytes.refl u).partDone _ _ _
  obtain ⟨b', there, spad⟩ := done.spads j.block _ (same.blocks ▸ written)
  refine ⟨_, b', lands, there, (done.bytes.trans same.bytes).trans (congrArg MemSys.bytes kept), fun l hl i hi pa n page => ?_⟩
  have element := Block.bytes_eq (b := b') (off := j.dst + l * roundUp j.rowBytes 16 + i * j.elemBytes)
    (xs := leBytes j.elemBytes (s.engineValue pa j.elemBytes n)) fun k hk => ?_
  · rwa [length_leBytes] at element
  · rw [length_leBytes] at hk
    have inside : i * j.elemBytes + k < (s.rowBytes j row).length := by
      have apart := Nat.mul_le_mul_right j.elemBytes (Nat.succ_le_of_lt hi)
      rw [Nat.succ_mul] at apart
      rw [State.length_rowBytes]
      omega
    have value := State.rowBytes_getD (s := s) (row := row) hi hk
    rw [page] at value
    rw [Nat.add_assoc, Block.read, spad, ← Block.read, Block.read_foldl_writes (State.length_rowBytes.trans_le fits) hl inside, value]
    rfl

end

end Sys2Proof.Machine

namespace Sys2Proof.Machine

/-! ### `gath` (R142) -/

theorem groupRows_ne_nil {xs : List RowRef} (h : xs ≠ []) : groupRows xs ≠ [] := by
  cases xs with
  | nil => exact absurd rfl h
  | cons x xs =>
    unfold groupRows
    rw [List.foldl_cons]
    refine List.foldlRecOn xs _ (motive := fun rs => rs ≠ []) (List.cons_ne_nil _ _) fun rs hrs y _ => ?_
    split
    · exact fun empty => hrs (List.map_eq_nil_iff.1 empty)
    · simp

section
variable {f : FormV} {s : State} {c : Ctx} {b : Block} {p : RowPlan}

/-- The lanes of a `gath`: a helper lane whose place is bad takes no part (R45). -/
def Ctx.gathLanes (c : Ctx) (f : FormV) (b : Block) : List Nat :=
  (c.active f.g).filter fun l => !(c.g.helper.getLsbD l && (b.placeFault (c.placeOf f (geoOf (c.selWide f.c)) l) (geoOf (c.selWide f.c)).moved l).isSome)

/-- The job of a `gath` that issues in a state. -/
def Ctx.gathJob (c : Ctx) (f : FormV) (p : RowPlan) (s : State) : GathJob :=
  let geo := geoOf (c.selWide f.c)
  let rows := groupRows p.good
  { group := c.key, op := s.nextId + 1, block := c.g.block, domain := c.g.domain, dst := (c.selWide f.d).toNat, rowBytes := geo.row, elemBytes := geo.elem,
    rows := rows, pc := c.st.pc, entry := c.r.entry, maxWts := p.wts, rclk := c.g.rclk, lease := c.g.lease,
    pages := rows.foldl (fun m r => s.leaves c.g.domain r.1 geo.moved wantGather m) [] }

/-- The operation that a `gath` counts as. -/
def Ctx.gathOp (c : Ctx) (p : RowPlan) (s : State) : PathOp :=
  { id := s.nextId + 1, path := .gld, left := (groupRows p.good).length, pc := c.st.pc, entry := c.r.entry, regs := [], sreg := none, slot := none,
    blk := false, store := false }

/-- A `gath` in a state: its rows are counted, and asked for. -/
def Ctx.gathIssued (c : Ctx) (f : FormV) (p : RowPlan) (s : State) : State :=
  let t := s.countRows c.r.core c.g.domain (bitsAt f.x.toNat 1 3) (groupRows p.good)
  if (groupRows p.good).isEmpty then { t with nextId := s.nextId + 2 } else { t with nextId := s.nextId + 2, gaths := t.gaths.put s.nextId (c.gathJob f p s) }

/-- Every row of a plan is a row of its lanes. -/
theorem kept_all (xs : List RowRef) : (xs.filter fun x => (xs.map fun x => (⟨x.lane, x.row, x.place, false⟩ : LaneRef)).any fun y => y.lane == x.lane) = xs :=
  List.filter_eq_self.2 fun x hx => List.any_eq_true.2 ⟨_, List.mem_map_of_mem hx, by simp⟩

/-- A `gath` without faults. -/
theorem gath_issues (h : Runs (.gath f) s c) (free : c.g.hold = none) (block : s.blocks.look c.g.block = some b) (room : c.g.full .gld = false)
    (places : c.placesFault f (geoOf (c.selWide f.c)) b (c.gathLanes f b) = none) (words : c.missingWords f (c.gathLanes f b) = [])
    (plan : c.rows f (geoOf (c.selWide f.c)) wantGather (c.gathLanes f b) = p) (good : p.bad = []) :
    exec (.gath f) s = c.spun.finishIn (c.gathIssued f p (p.s.useUp (c.listLines f (c.gathLanes f b))))
      (c.spun.g.addOp (c.gathOp p (p.s.useUp (c.listLines f (c.gathLanes f b))))) := by
  have there : c.s.blockOf c.g.block = some b := (congrArg (Map.look · c.g.block) h.blocks_eq).trans block
  change execGath f s = _
  rw [execGath, access_runs h free]
  have lanes : ((c.active f.g).filter fun l => !(c.g.helper.getLsbD l &&
    (b.placeFault (c.placeOf f (geoOf (c.selWide f.c)) l) (geoOf (c.selWide f.c)).moved l).isSome)) = c.gathLanes f b := rfl
  simp only [Ctx.spun_state, Ctx.spun_block, there, Ctx.spun_full, room, Ctx.spun_selWide, Ctx.spun_helper, Ctx.spun_placeOf, Ctx.spun_active, lanes,
    Ctx.spun_placesFault, places, Ctx.spun_missingWords, words, Ctx.spun_rows, plan, good, Ctx.spun_listLines, Bool.false_eq_true, if_false, List.isEmpty_nil,
    Bool.not_true, Ctx.splitHelpers, List.filter_nil, List.map_nil, List.foldl_nil]
  refine (Ctx.lanewise_good rfl rfl).trans ?_
  simp only [kept_all]
  rfl

/-- A lane whose place is bad stops a `gath` before any row is asked for. -/
theorem gath_faults (h : Runs (.gath f) s c) (free : c.g.hold = none) (block : s.blocks.look c.g.block = some b) (room : c.g.full .gld = false) {x : FaultInfo}
    (places : c.placesFault f (geoOf (c.selWide f.c)) b (c.gathLanes f b) = some x) : exec (.gath f) s = .next (c.s.takeFault c.r c.st.pc x) := by
  have there : c.s.blockOf c.g.block = some b := (congrArg (Map.look · c.g.block) h.blocks_eq).trans block
  have lanes : ((c.active f.g).filter fun l => !(c.g.helper.getLsbD l &&
    (b.placeFault (c.placeOf f (geoOf (c.selWide f.c)) l) (geoOf (c.selWide f.c)).moved l).isSome)) = c.gathLanes f b := rfl
  change execGath f s = _
  rw [execGath, access_runs h free]
  simp only [Ctx.spun_state, Ctx.spun_block, there, Ctx.spun_full, room, Ctx.spun_selWide, Ctx.spun_helper, Ctx.spun_placeOf, Ctx.spun_active, lanes,
    Ctx.spun_placesFault, places, Bool.false_eq_true, if_false]
  rfl

theorem Ctx.sameStore_gathIssued (s : State) : s.SameStore (c.gathIssued f p s) := by
  unfold Ctx.gathIssued
  dsimp only
  split
  · exact ⟨rfl, rfl⟩
  · exact ⟨rfl, rfl⟩

/-- A `gath` that has rows asks for them. -/
theorem Ctx.gathIssued_gaths (rows : p.good ≠ []) (s : State) : (c.gathIssued f p s).gaths.look s.nextId = some (c.gathJob f p s) := by
  unfold Ctx.gathIssued
  dsimp only
  rw [if_neg (by simpa using groupRows_ne_nil rows)]
  exact Map.look_put_same _ _ _

/-- What a `gath` without faults leaves: its registers, and a job for its rows. -/
theorem gath_asks (h : Runs (.gath f) s c) (free : c.g.hold = none) (block : s.blocks.look c.g.block = some b) (room : c.g.full .gld = false)
    (places : c.placesFault f (geoOf (c.selWide f.c)) b (c.gathLanes f b) = none) (words : c.missingWords f (c.gathLanes f b) = [])
    (plan : c.rows f (geoOf (c.selWide f.c)) wantGather (c.gathLanes f b) = p) (good : p.bad = []) :
    ∃ t g, exec (.gath f) s = .next t ∧ c.GoesOn t ∧ t.groups.look c.key = some g ∧ g.SameRegs c.g ∧ t.mem.bytes = s.mem.bytes ∧
      (p.good ≠ [] → t.gaths.look p.s.nextId = some (c.gathJob f p (p.s.useUp (c.listLines f (c.gathLanes f b)))) ∧
        c.gathOp p (p.s.useUp (c.listLines f (c.gathLanes f b))) ∈ g.ops) := by
  let q := p.s.useUp (c.listLines f (c.gathLanes f b))
  let g := c.spun.g.addOp (c.gathOp p q)
  have planned : c.s.SameStore p.s := plan ▸ Ctx.sameStore_rows _ _ _ _ _
  have issued : q.SameStore (c.gathIssued f p q) := Ctx.sameStore_gathIssued q
  obtain ⟨_, mem, _⟩ := h.groups
  refine ⟨(c.gathIssued f p q).setGroup c.key (g.onStrand c.r.entry fun st => st.goto (st.pc + 8)), _,
    gath_issues h free block room places words plan good, Ctx.goesOn_spun h rfl, Map.look_put_same _ _ _, .of_eq rfl rfl rfl, ?_, fun rows => ⟨?_, ?_⟩⟩
  · exact (issued.bytes.trans planned.bytes).trans (congrArg MemSys.bytes mem)
  · exact Ctx.gathIssued_gaths rows q
  · exact Group.mem_addOp (o := c.gathOp p q) (by simpa [Ctx.gathOp] using groupRows_ne_nil rows)

end

/-! ### `gstat` and the halving of the counters (R144) -/

section
variable {f : FormV} {s : State} {c : Ctx}

/-- What `gstat` reads. -/
def State.gathCount (s : State) (core domain n : Nat) (va : Dword) : Dword :=
  match n with
  | 0 => (s.core core).rowsAsked
  | 1 => (s.core core).rowsFetched
  | 2 => (s.core core).hotHits
  | _ => BitVec.ofNat 64 (Map.get 0 s.mem.freq (freqKey domain va.toNat))

theorem gstat_reads (h : Runs (.gstat f) s c) (free : c.g.hold = none) (wide : c.wide f.g = true) :
    ∃ t g, exec (.gstat f) s = .next t ∧ c.GoesOn t ∧ t.groups.look c.key = some g ∧
      ∀ k, g.sreg k = c.withScalar f.d.toNat (s.gathCount c.r.core c.g.domain f.x.toNat (c.selWide f.a)) k := by
  let x := s.gathCount c.r.core c.g.domain f.x.toNat (c.selWide f.a)
  obtain ⟨n, state⟩ := h.state_eq
  have same : c.s.gathCount c.r.core c.g.domain f.x.toNat (c.selWide f.a) = x := by
    rw [state]
    rfl
  refine ⟨c.s.setGroup c.key ((c.spun.g.setS f.d.toNat x).onStrand c.r.entry fun st => st.goto (st.pc + 8)), _, ?_,
    Ctx.goesOn_spun h (Group.setS_alike _ _ _).strands, Map.look_put_same _ _ _, fun k => (Group.sreg_setS _ _ _ _).trans rfl⟩
  change execGstat f s = _
  rw [execGstat, access_runs h free, ← same]
  simp only [Ctx.spun_wide, wide, if_true]
  rfl

/-- Every counter is halved, and one that comes to 0 is not listed. -/
theorem get_halved {m : Map Nat} (nodup : (m.map (·.1)).Nodup) (k : Nat) :
    Map.get 0 ((m.map fun e => (e.1, e.2 / 2)).filter fun e => e.2 != 0) k = Map.get 0 m k / 2 := by
  induction m with
  | nil => simp [Map.get]
  | cons e m ih =>
    rw [List.map_cons, List.nodup_cons] at nodup
    have rest := ih nodup.2
    rw [List.map_cons, List.filter_cons]
    unfold Map.get at rest ⊢
    rw [Map.look_cons (m := m)]
    by_cases here : e.1 = k
    · subst here
      rw [if_pos rfl]
      split
      · rw [Map.look_cons, if_pos rfl]
        rfl
      · next zero =>
        have absent : Map.look m e.1 = none := by
          cases there : Map.look m e.1 with
          | none => rfl
          | some x => exact absurd (List.mem_map_of_mem (f := (·.1)) (Map.mem_of_look there)) nodup.1
        have none : e.2 / 2 = 0 := by simpa only [bne_iff_ne, ne_eq, not_not] using zero
        rw [rest, absent]
        exact none.symm
    · rw [if_neg here, ← rest]
      split
      · rw [Map.look_cons, if_neg here]
      · rfl

theorem freqHalve_halves (due : s.mem.freqAt + 4000000 ≤ s.now) : ∃ t, exec .freqHalve s = .next t ∧ t.mem.freqAt = s.mem.freqAt + 4000000 ∧
    ∀ k, (s.mem.freq.map (·.1)).Nodup → Map.get 0 t.mem.freq k = Map.get 0 s.mem.freq k / 2 := by
  refine ⟨_, if_pos due, rfl, fun k nodup => get_halved nodup k⟩

end

end Sys2Proof.Machine

namespace Sys2Proof.Machine

/-! ### Requests that go out -/

/-- Requests to homes and to owner nodes are what differs at most. -/
def State.Sends (s t : State) : Prop :=
  ∃ n l ms os, t = { s with nextId := n, links := l, mem := { s.mem with msgs := ms, owner := os } }

section
variable {s₀ s t : State}

theorem State.Sends.refl (s : State) : s.Sends s := ⟨_, _, _, _, rfl⟩

theorem State.Sends.send (h : s₀.Sends s) (m : Msg) : s₀.Sends (s.send m).2 := by
  obtain ⟨n, l, ms, os, rfl⟩ := h
  exact ⟨_, _, _, _, rfl⟩

theorem State.Sends.sendOwner (h : s₀.Sends s) (from_ : OwnerFrom) (pa : Nat) (work : OwnerWork) (va : Dword) (lane : Nat) :
    s₀.Sends (s.sendOwner from_ pa work va lane) := by
  obtain ⟨n, l, ms, os, rfl⟩ := h
  unfold State.sendOwner State.toPeer
  dsimp only
  split
  · obtain ⟨k, e⟩ := State.sendFlit_eq _ _
    rw [e]
    exact ⟨_, _, _, _, rfl⟩
  · exact ⟨_, _, _, _, rfl⟩

theorem State.Sends.sameStore (h : s₀.Sends s) : s₀.SameStore s := by
  obtain ⟨n, l, ms, os, rfl⟩ := h
  exact ⟨rfl, rfl⟩

theorem State.Sends.foldl {α : Type} {F : State → α → State} {xs : List α} (h : s₀.Sends s) (step : ∀ (u : State) (x : α), s₀.Sends u → s₀.Sends (F u x)) :
    s₀.Sends (xs.foldl F s) :=
  List.foldlRecOn xs F h fun u hu x _ => step u x hu

/-- A walk does not read requests. -/
theorem State.Sends.walk (h : s.Sends t) (va kind fuel l table : Nat) : t.walk va kind fuel l table = s.walk va kind fuel l table := by
  obtain ⟨n, k, ms, os, rfl⟩ := h
  induction fuel generalizing l table with
  | zero => rfl
  | succ fuel ih =>
    unfold State.walk
    dsimp only
    rw [ih]
    rfl

theorem State.Sends.leafOf (h : s.Sends t) (d va : Nat) (want : Want) : t.leafOf d va want = s.leafOf d va want := by
  unfold State.leafOf
  rw [h.walk]
  obtain ⟨n, k, ms, os, rfl⟩ := h
  rfl

/-- A translation does not read requests. -/
theorem State.Sends.trans (h : s.Sends t) (d : Nat) (va : Dword) (want : Want) : t.trans d va want = s.trans d va want := by
  unfold State.trans
  dsimp only
  rw [h.leafOf]
  obtain ⟨n, k, ms, os, rfl⟩ := h
  rfl

/-- A request that went out under an earlier number. -/
def State.Sent (s : State) (P : Msg → Prop) : Prop := ∃ id m, id < s.nextId ∧ s.mem.msgs.look id = some m ∧ P m

theorem State.sent_send (s : State) {P : Msg → Prop} {m : Msg} (h : P m) : (s.send m).2.Sent P :=
  ⟨s.nextId, m, Nat.lt_succ_self _, Map.look_put_same _ _ _, h⟩

theorem State.Sent.mono {P Q : Msg → Prop} (h : s.Sent P) (imp : ∀ m, P m → Q m) : s.Sent Q := by
  obtain ⟨id, m, earlier, look, holds⟩ := h
  exact ⟨id, m, earlier, look, imp m holds⟩

theorem State.Sent.hasMsg {P : Msg → Prop} (h : s.Sent P) : s.HasMsg P := by
  obtain ⟨id, m, _, look, holds⟩ := h
  exact ⟨id, m, look, holds⟩

theorem State.Sent.send {P : Msg → Prop} (h : s.Sent P) (m : Msg) : (s.send m).2.Sent P := by
  obtain ⟨id, x, earlier, look, holds⟩ := h
  exact ⟨id, x, Nat.lt_succ_of_lt earlier, (Map.look_put_other _ _ earlier.ne).trans look, holds⟩

theorem State.Sent.sendOwner {P : Msg → Prop} (h : s.Sent P) (from_ : OwnerFrom) (pa : Nat) (work : OwnerWork) (va : Dword) (lane : Nat) :
    (s.sendOwner from_ pa work va lane).Sent P := by
  obtain ⟨id, x, earlier, look, holds⟩ := h
  unfold State.sendOwner State.toPeer
  dsimp only
  split
  · obtain ⟨k, e⟩ := State.sendFlit_eq _ _
    rw [e]
    exact ⟨id, x, Nat.lt_succ_of_lt earlier, look, holds⟩
  · exact ⟨id, x, Nat.lt_succ_of_lt earlier, look, holds⟩

theorem State.Sent.foldl {α : Type} {P : Msg → Prop} {F : State → α → State} {xs : List α} (h : s.Sent P)
    (step : ∀ (u : State) (x : α), u.Sent P → (F u x).Sent P) : (xs.foldl F s).Sent P :=
  List.foldlRecOn xs F h fun u hu x _ => step u x hu

/-- A request that one step of a fold sends is still out at the end. -/
theorem State.sent_foldl {α : Type} {P : Msg → Prop} {F : State → α → State} {xs : List α} {x : α} (here : x ∈ xs) (reaches : ∀ u, (F u x).Sent P)
    (stays : ∀ (u : State) (y : α), u.Sent P → (F u y).Sent P) : (xs.foldl F s).Sent P :=
  foldl_reaches (I := fun _ => True) (Q := fun u : State => u.Sent P) here (fun _ _ h => h) (fun u _ => reaches u) stays trivial

end

/-- Lines of accesses are listed. -/
theorem mem_linesOf {xs : List LaneRef} {x : LaneRef} (h : x ∈ xs) : x.pa / 64 ∈ linesOf xs := by
  refine foldl_reaches (I := fun _ => True) (Q := fun ls : List Nat => x.pa / 64 ∈ ls) h (fun _ _ h => h) (fun ls _ => ?_) (fun ls y h => ?_) trivial
  · split
    · next there => exact List.contains_iff_mem.1 there
    · exact List.mem_append_right _ (List.mem_singleton_self _)
  · split
    · exact h
    · exact List.mem_append_left _ h

/-! ### `scat` (R143) -/

/-- An element of a row with its address, and the bytes that go there. -/
abbrev ScatElem := Dword × Nat × Bool × List Byte

/-- The elements of a lane's row in a state. -/
def State.scatElems (s : State) (d : Nat) (geo : Geo) (want : Want) (b : Block) (x : LaneRef) : List ScatElem :=
  (List.range (geo.moved / geo.elem)).filterMap fun i =>
    let va := x.va + BitVec.ofNat 64 (i * geo.elem)
    match s.trans d va want with
    | .ok pa n => some (va, pa, n, b.bytes (x.pa + i * geo.elem) geo.elem)
    | .bad _ _ => none

/-- The bytes of a line that the elements cover, and what stands there. -/
def scatLine (size : Nat) (es : List ScatElem) : BitVec 64 × LineData :=
  es.foldl (fun (a : BitVec 64 × LineData) e => (a.1 ||| byteMask (e.2.1 % 64) size, a.2 ||| lineWith (e.2.1 % 64) size (leValue e.2.2.2))) (0, 0)

/-- Elements are added at home, one by one. -/
def State.scatAdd (s : State) (base : Msg) (lane : Nat) (es : List ScatElem) : State :=
  es.foldl (fun s e => (s.send { base with line := e.2.1 / 64, va := e.1, kind := .atomic lane (e.2.1 % 64) 4 .fadd (BitVec.ofNat 64 (leValue e.2.2.2)) 0 none .rlx }).2) s

/-- Elements are stored: each of an N page at its owner node, the others line by line. -/
def State.scatStore (s : State) (base : Msg) (size lane : Nat) (va : Dword) (es : List ScatElem) : State :=
  let near := es.filter fun e => e.2.2.1
  let ordinary := es.filter fun e => !e.2.2.1
  let s := near.foldl (fun s e => s.sendOwner (.group base.group base.op) e.2.1 (.store e.2.1 e.2.2.2)) s
  (linesOf (ordinary.map fun e => ⟨lane, e.1, e.2.1, false⟩)).foldl (fun s line =>
    let m := scatLine size (ordinary.filter fun e => e.2.1 / 64 == line)
    (s.send { base with line := line, va := va, kind := .store m.1 m.2 false }).2) s

/-- The row of one lane is written. -/
def State.scatRow (fadd : Bool) (d : Nat) (geo : Geo) (want : Want) (b : Block) (base : Msg) (s : State) (x : LaneRef) : State :=
  if fadd then s.scatAdd base x.lane (s.scatElems d geo want b x) else s.scatStore base geo.elem x.lane x.va (s.scatElems d geo want b x)

section
variable {s₀ s : State} {base : Msg} {es : List ScatElem} {e : ScatElem} {size lane : Nat} {va : Dword}

theorem State.Sends.scatRow (h : s₀.Sends s) {fadd : Bool} {d : Nat} {geo : Geo} {want : Want} {b : Block} {x : LaneRef} :
    s₀.Sends (s.scatRow fadd d geo want b base x) := by
  unfold State.scatRow
  split
  · exact h.foldl fun _ _ h => h.send _
  · exact State.Sends.foldl (h.foldl fun _ _ h => h.sendOwner _ _ _ _ _) fun _ _ h => h.send _

theorem State.Sent.scatRow {P : Msg → Prop} (h : s.Sent P) {fadd : Bool} {d : Nat} {geo : Geo} {want : Want} {b : Block} {x : LaneRef} :
    (s.scatRow fadd d geo want b base x).Sent P := by
  unfold State.scatRow
  split
  · exact h.foldl fun _ _ h => h.send _
  · exact State.Sent.foldl (h.foldl fun _ _ h => h.sendOwner _ _ _ _ _) fun _ _ h => h.send _

/-- The mask of a line covers each of its elements. -/
theorem scatLine_covers (h : e ∈ es) : (scatLine size es).1 &&& byteMask (e.2.1 % 64) size = byteMask (e.2.1 % 64) size := by
  have bits : ∀ i, (byteMask (e.2.1 % 64) size).getLsbD i = true → (scatLine size es).1.getLsbD i = true := by
    refine foldl_reaches (I := fun _ => True)
      (Q := fun a : BitVec 64 × LineData => ∀ i, (byteMask (e.2.1 % 64) size).getLsbD i = true → a.1.getLsbD i = true) h
      (fun _ _ h => h) (fun a _ i bit => ?_) (fun a y h i bit => ?_) trivial
    · simp [bit]
    · simp [h i bit]
  refine BitVec.eq_of_getLsbD_eq fun i _ => ?_
  rw [BitVec.getLsbD_and]
  cases bit : (byteMask (e.2.1 % 64) size).getLsbD i with
  | false => exact Bool.and_false _
  | true => rw [bits i bit, Bool.and_self]

theorem State.sent_scatAdd (h : e ∈ es) : (s.scatAdd base lane es).Sent fun m => m.line = e.2.1 / 64 ∧ m.clk = base.clk ∧
    m.kind = .atomic lane (e.2.1 % 64) 4 .fadd (BitVec.ofNat 64 (leValue e.2.2.2)) 0 none .rlx :=
  State.sent_foldl h (fun u => u.sent_send ⟨rfl, rfl, rfl⟩) fun _ _ h => h.send _

theorem State.sent_scatStore (h : e ∈ es) (ordinary : e.2.2.1 = false) : (s.scatStore base size lane va es).Sent fun m => m.line = e.2.1 / 64 ∧
    m.clk = base.clk ∧ ∃ mask data, m.kind = .store mask data false ∧ mask &&& byteMask (e.2.1 % 64) size = byteMask (e.2.1 % 64) size := by
  have kept : e ∈ es.filter fun e => !e.2.2.1 := List.mem_filter.2 ⟨h, by simp [ordinary]⟩
  have line : e.2.1 / 64 ∈ linesOf ((es.filter fun e => !e.2.2.1).map fun e => ⟨lane, e.1, e.2.1, false⟩) := mem_linesOf (List.mem_map_of_mem kept)
  refine State.sent_foldl line (fun u => u.sent_send ⟨rfl, rfl, _, _, rfl, ?_⟩) fun _ _ h => h.send _
  exact scatLine_covers (List.mem_filter.2 ⟨kept, by simp⟩)

end

end Sys2Proof.Machine

namespace Sys2Proof.Machine

/-- `.fadd` of a `scat`. -/
def scatFadd (f : FormV) : Bool := f.x.toNat / 2 % 4 == 1

/-- The geometry of a `scat`: additions are of FP32 words. -/
def Ctx.scatGeo (c : Ctx) (f : FormV) : Geo := if scatFadd f then { geoOf (c.selWide f.c) with elem := 4 } else geoOf (c.selWide f.c)

/-- The rights that a `scat` needs. -/
def scatWant (f : FormV) : Want := if scatFadd f then { wantScatter with r := true, a := true, n := .refuse } else wantScatter

/-- What the requests of a `scat` have in common. -/
def Ctx.scatBase (c : Ctx) (op : Nat) : Msg :=
  { group := c.key, core := c.r.core, op := op, pc := c.st.pc, entry := c.r.entry, line := 0, va := 0, scope := .dev, clk := c.g.wclk, lease := c.g.lease,
    kind := .store 0 0 false }

/-- A `scat` in a state: the rows are written lane by lane. -/
def Ctx.scatIssued (c : Ctx) (f : FormV) (b : Block) (p : RowPlan) (s : State) : State :=
  (p.good.map fun x => (⟨x.lane, x.row, x.place, false⟩ : LaneRef)).foldl
    (fun s x => s.scatRow (scatFadd f) c.g.domain (c.scatGeo f) (scatWant f) b (c.scatBase p.s.nextId) x) { s with nextId := p.s.nextId + 1 }

section
variable {f : FormV} {s : State} {c : Ctx} {b : Block} {p : RowPlan}

theorem Ctx.scatGeo_elem_pos : 0 < (c.scatGeo f).elem := by
  unfold Ctx.scatGeo
  split
  · exact Nat.succ_pos 3
  · exact Nat.two_pow_pos _

theorem Ctx.scatGeo_elements : (c.scatGeo f).moved / (c.scatGeo f).elem = (c.scatGeo f).row / (c.scatGeo f).elem := Nat.mul_div_cancel _ Ctx.scatGeo_elem_pos

/-- A lane whose place is bad stops a `scat` before any row is written. -/
theorem scat_faults (h : Runs (.scat f) s c) (free : c.g.hold = none) (block : s.blocks.look c.g.block = some b) (room : c.g.full .gst = false)
    (quiet : c.g.spads = []) {x : FaultInfo} (places : c.placesFault f (c.scatGeo f) b (c.part f.g) = some x) :
    exec (.scat f) s = .next (c.s.takeFault c.r c.st.pc x) := by
  have there : c.s.blockOf c.g.block = some b := (congrArg (Map.look · c.g.block) h.blocks_eq).trans block
  have fadd : (bitsAt f.x.toNat 1 2 == 1) = scatFadd f := rfl
  have geo : (if scatFadd f = true then { geoOf (c.selWide f.c) with elem := 4 } else geoOf (c.selWide f.c)) = c.scatGeo f := rfl
  change execScat f s = _
  rw [execScat, access_runs h free]
  simp only [fadd, Ctx.spun_state, Ctx.spun_block, there, Ctx.spun_full, room, Ctx.spun_spads, quiet, Ctx.spun_selWide, Ctx.spun_part, geo,
    Ctx.spun_placesFault, places, List.isEmpty_nil, Bool.not_true, Bool.or_self, Bool.false_eq_true, if_false]
  rfl

/-- A `scat` without faults. -/
theorem scat_issues (h : Runs (.scat f) s c) (free : c.g.hold = none) (block : s.blocks.look c.g.block = some b) (room : c.g.full .gst = false)
    (quiet : c.g.spads = []) (places : c.placesFault f (c.scatGeo f) b (c.part f.g) = none) (words : c.missingWords f (c.part f.g) = [])
    (plan : c.rows f (c.scatGeo f) (scatWant f) (c.part f.g) = p) (good : p.bad = []) :
    ∃ o, exec (.scat f) s = c.spun.finishIn (c.scatIssued f b p (p.s.useUp (c.listLines f (c.part f.g)))) (c.spun.g.addOp o) := by
  have there : c.s.blockOf c.g.block = some b := (congrArg (Map.look · c.g.block) h.blocks_eq).trans block
  have fadd : (bitsAt f.x.toNat 1 2 == 1) = scatFadd f := rfl
  have geo : (if scatFadd f = true then { geoOf (c.selWide f.c) with elem := 4 } else geoOf (c.selWide f.c)) = c.scatGeo f := rfl
  have want : (if scatFadd f = true then { wantScatter with r := true, a := true, n := .refuse } else wantScatter) = scatWant f := rfl
  apply Exists.intro
  change execScat f s = _
  rw [execScat, access_runs h free]
  simp only [fadd, Ctx.spun_state, Ctx.spun_block, there, Ctx.spun_full, room, Ctx.spun_spads, quiet, Ctx.spun_selWide, Ctx.spun_part, geo, want,
    Ctx.spun_placesFault, places, Ctx.spun_missingWords, words, Ctx.spun_rows, plan, good, Ctx.spun_listLines, List.isEmpty_nil, Bool.not_true,
    Bool.or_self, Bool.false_eq_true, if_false]
  exact Ctx.lanewise_good rfl rfl

/-- What the statement says of the request for an element that a lane writes to an address. -/
def Ctx.ScatSends (c : Ctx) (f : FormV) (b : Block) (x : RowRef) (i pa : Nat) (m : Msg) : Prop :=
  m.line = pa / 64 ∧ m.clk = c.g.wclk ∧
    (scatFadd f = true → m.kind = .atomic x.lane (pa % 64) 4 .fadd (BitVec.ofNat 64 (leValue (b.bytes (x.place + 4 * i) 4))) 0 none .rlx) ∧
    (scatFadd f = false → ∃ mask data, m.kind = .store mask data false ∧
      mask &&& byteMask (pa % 64) (c.scatGeo f).elem = byteMask (pa % 64) (c.scatGeo f).elem)

/-- An element whose address is good is one of those that are written. -/
theorem State.mem_scatElems {s : State} {d : Nat} {geo : Geo} {want : Want} {x : LaneRef} {i pa : Nat} {n : Bool} (hi : i < geo.moved / geo.elem)
    (trans : s.trans d (x.va + BitVec.ofNat 64 (i * geo.elem)) want = .ok pa n) :
    (x.va + BitVec.ofNat 64 (i * geo.elem), pa, n, b.bytes (x.pa + i * geo.elem) geo.elem) ∈ s.scatElems d geo want b x :=
  List.mem_filterMap.2 ⟨i, List.mem_range.2 hi, by simp only [trans]⟩

/-- A lane's row is written element by element. -/
theorem Ctx.sent_scatRow {x : RowRef} {i pa op : Nat} (hi : i < (c.scatGeo f).row / (c.scatGeo f).elem)
    (trans : s.trans c.g.domain (x.row + BitVec.ofNat 64 (i * (c.scatGeo f).elem)) (scatWant f) = .ok pa false) :
    (s.scatRow (scatFadd f) c.g.domain (c.scatGeo f) (scatWant f) b (c.scatBase op) ⟨x.lane, x.row, x.place, false⟩).Sent (c.ScatSends f b x i pa) := by
  have listed := State.mem_scatElems (b := b) (x := ⟨x.lane, x.row, x.place, false⟩) (Ctx.scatGeo_elements ▸ hi) trans
  unfold State.scatRow
  split
  · next fadd =>
    have word : (c.scatGeo f).elem = 4 := by rw [Ctx.scatGeo, if_pos fadd]
    refine (State.sent_scatAdd listed).mono fun m ⟨line, clk, kind⟩ => ⟨line, clk, fun _ => ?_, fun no => absurd fadd (by simp [no])⟩
    rw [kind, word, Nat.mul_comm i 4]
  · next fadd =>
    exact (State.sent_scatStore listed rfl).mono fun m ⟨line, clk, kind⟩ => ⟨line, clk, fun yes => absurd yes fadd, fun _ => kind⟩

/-- What a `scat` without faults leaves: its registers, and a request for each element. -/
theorem scat_writes (h : Runs (.scat f) s c) (free : c.g.hold = none) (block : s.blocks.look c.g.block = some b) (room : c.g.full .gst = false)
    (quiet : c.g.spads = []) (places : c.placesFault f (c.scatGeo f) b (c.part f.g) = none) (words : c.missingWords f (c.part f.g) = [])
    (plan : c.rows f (c.scatGeo f) (scatWant f) (c.part f.g) = p) (good : p.bad = []) :
    ∃ t g, exec (.scat f) s = .next t ∧ c.GoesOn t ∧ t.groups.look c.key = some g ∧ g.SameRegs c.g ∧ t.mem.bytes = s.mem.bytes ∧ t.blocks = s.blocks ∧
      ∀ x ∈ p.good, ∀ i, i < (c.scatGeo f).row / (c.scatGeo f).elem → ∀ pa,
        p.s.trans c.g.domain (x.row + BitVec.ofNat 64 (i * (c.scatGeo f).elem)) (scatWant f) = .ok pa false → t.HasMsg (c.ScatSends f b x i pa) := by
  obtain ⟨o, issues⟩ := scat_issues h free block room quiet places words plan good
  let q := p.s.useUp (c.listLines f (c.part f.g))
  have planned : c.s.SameStore p.s := plan ▸ Ctx.sameStore_rows _ _ _ _ _
  have begun : p.s.Sends { q with nextId := p.s.nextId + 1 } := ⟨_, _, _, _, rfl⟩
  have sends : p.s.Sends (c.scatIssued f b p q) := begun.foldl fun _ _ h => h.scatRow
  obtain ⟨_, mem, _⟩ := h.groups
  refine ⟨(c.scatIssued f b p q).setGroup c.key ((c.spun.g.addOp o).onStrand c.r.entry fun st => st.goto (st.pc + 8)), _, issues,
    Ctx.goesOn_spun h rfl, Map.look_put_same _ _ _, .of_eq rfl rfl rfl, ?_, ?_, fun x hx i hi pa trans => ?_⟩
  · exact (sends.sameStore.bytes.trans planned.bytes).trans (congrArg MemSys.bytes mem)
  · exact (sends.sameStore.blocks.trans planned.blocks).trans h.blocks_eq
  · have listed : (⟨x.lane, x.row, x.place, false⟩ : LaneRef) ∈ p.good.map fun x => ⟨x.lane, x.row, x.place, false⟩ :=
      List.mem_map_of_mem (f := fun x : RowRef => (⟨x.lane, x.row, x.place, false⟩ : LaneRef)) hx
    have sent : (c.scatIssued f b p q).Sent (c.ScatSends f b x i pa) :=
      foldl_reaches (I := p.s.Sends) (Q := fun u : State => u.Sent (c.ScatSends f b x i pa))
        (F := fun (u : State) (y : LaneRef) => u.scatRow (scatFadd f) c.g.domain (c.scatGeo f) (scatWant f) b (c.scatBase p.s.nextId) y) listed (fun _ _ h => h.scatRow)
        (fun u hu => Ctx.sent_scatRow hi ((hu.trans _ _ _).trans trans)) (fun _ _ h => h.scatRow) begun
    exact sent.hasMsg

end

/-- Settles O35: one lemma for each instruction, for a row that lands and for the halving of the counters. -/
theorem gatherAndScatter : Obligations.GatherAndScatter := by
  intro f s c b p free act fadd geo want
  refine ⟨fun h block room places words plan good => ?gath, fun x h block room places => gath_faults h free block room places,
    fun id j row ls look mem nodup block _ fits ready => gathRowLand_lands look mem nodup block fits ready,
    fun h block room quiet places words plan good => scat_writes h free block room quiet places words plan good,
    fun x h block room quiet places => scat_faults h free block room quiet places, fun h wide => gstat_reads h free wide, freqHalve_halves⟩
  obtain ⟨t, g, next, goesOn, look, regs, bytes, asks⟩ := gath_asks h free block room places words plan good
  refine ⟨t, g, next, goesOn, look, regs, bytes, fun rows => ?_⟩
  obtain ⟨job, op⟩ := asks rows
  exact ⟨_, job, rfl, rfl, rfl, rfl, rfl, rfl, rfl, _, op, rfl, rfl, rfl⟩

end Sys2Proof.Machine

namespace Sys2Proof

/-! ### The fields of a word (R54, R55, R65, R68) -/

section
variable {w : BitVec 64} {op : BitVec 7 × BitVec 6}

/-- The opcode bits of a core word (R54). -/
def opBits (w : BitVec 64) : BitVec 7 × BitVec 6 := (w.extractLsb' 57 7, w.extractLsb' 51 6)

/-- A bit of a word is a field of one bit. -/
theorem ofBool_getLsbD {n : Nat} (x : BitVec n) (i : Nat) : BitVec.ofBool (x.getLsbD i) = x.extractLsb' i 1 := by
  ext j h
  obtain rfl : j = 0 := by omega
  simp

/-- Neighbouring fields are one field. -/
theorem append_fields {n i k m l : Nat} (x : BitVec n) (h : m = i + k) :
    x.extractLsb' m l ++ x.extractLsb' i k = x.extractLsb' i (l + k) := BitVec.extractLsb'_append_extractLsb'_eq_extractLsb' h

/-- A field of the low part of a word. -/
theorem field_low {v w i n : Nat} (x : BitVec v) (y : BitVec w) (h : i + n ≤ w) : (x ++ y).extractLsb' i n = y.extractLsb' i n :=
  BitVec.extractLsb'_append_eq_of_add_le h

/-- A field of the high part of a word. -/
theorem field_high {v w i n : Nat} (x : BitVec v) (y : BitVec w) (h : w ≤ i) : (x ++ y).extractLsb' i n = x.extractLsb' (i - w) n :=
  BitVec.extractLsb'_append_eq_of_le h

theorem bit_low {v w i : Nat} (x : BitVec v) (y : BitVec w) (h : i < w) : (x ++ y).getLsbD i = y.getLsbD i := by
  rw [BitVec.getLsbD_append, if_pos h]

theorem bit_high {v w i : Nat} (x : BitVec v) (y : BitVec w) (h : ¬ i < w) : (x ++ y).getLsbD i = x.getLsbD (i - w) := by
  rw [BitVec.getLsbD_append, if_neg h]

theorem Ty.code_of_ofCode {n : Nat} {t : Ty} (h : Ty.ofCode n = some t) : t.code = n := by
  unfold Ty.ofCode at h
  split at h <;> cases h <;> rfl

@[simp] theorem Ty.ofCode_code (t : Ty) : Ty.ofCode (t.code % 16) = some t := by cases t <;> rfl
@[simp] theorem Rm.bits_ofBits (r : BitVec 2) : (Rm.ofBits r).bits = r := by decide +revert
@[simp] theorem Rm.ofBits_bits (r : Rm) : Rm.ofBits r.bits = r := by cases r <;> rfl
@[simp] theorem Scope.ofBits_bits (x : Scope) : Scope.ofBits x.bits = some x := by cases x <;> rfl
@[simp] theorem Order.ofBits_bits (x : Order) : Order.ofBits x.bits = some x := by cases x <;> rfl
theorem Scope.bits_of_ofBits : ∀ {b : BitVec 3} {x : Scope}, Scope.ofBits b = some x → x.bits = b := by decide
theorem Order.bits_of_ofBits : ∀ {b : BitVec 3} {x : Order}, Order.ofBits b = some x → x.bits = b := by decide

/-! A word is made of its fields, and its fields are read back. The widths stay sums here, so that the parts of a word keep their types. -/

theorem fieldsL_encodeL (f : FormL) : opBits (encodeL op f) = op ∧ fieldsL (encodeL op f) = f := by
  simp (disch := decide) only [opBits, fieldsL, encodeL, Guard.bits, field_low, field_high, bit_low, bit_high, -Nat.reduceAdd]
  simp

theorem fieldsB_encodeB (f : FormB) : opBits (encodeB op f) = op ∧ fieldsB (encodeB op f) = f := by
  simp (disch := decide) only [opBits, fieldsB, encodeB, Guard.bits, field_low, field_high, bit_low, bit_high, -Nat.reduceAdd]
  simp

theorem fieldsM_encodeM (f : FormM) : opBits (encodeM op f) = op ∧ fieldsM (encodeM op f) = .ok f := by
  simp (disch := decide) only [opBits, fieldsM, encodeM, Guard.bits, field_low, field_high, bit_low, bit_high, -Nat.reduceAdd]
  simp

theorem fieldsV_encodeV (f : FormV) : opBits (encodeV op f) = op ∧ fieldsV (encodeV op f) = .ok f := by
  obtain ⟨g, u, d, a, tail, ty, rm, sat, x⟩ := f
  cases tail <;>
  · simp (disch := decide) only [opBits, fieldsV, encodeV, Guard.bits, Tail.bits, field_low, field_high, bit_low, bit_high, -Nat.reduceAdd]
    simp

theorem encodeL_fieldsL : encodeL (opBits w) (fieldsL w) = w := by
  simp (disch := decide) only [encodeL, fieldsL, opBits, Guard.bits, ofBool_getLsbD, append_fields, -Nat.reduceAdd]
  simp

theorem encodeB_fieldsB : encodeB (opBits w) (fieldsB w) = w := by
  simp (disch := decide) only [encodeB, fieldsB, opBits, Guard.bits, ofBool_getLsbD, append_fields, -Nat.reduceAdd]
  simp

theorem encodeM_of_fieldsM {f : FormM} (h : fieldsM w = .ok f) : encodeM (opBits w) f = w := by
  unfold fieldsM at h
  split at h <;> cases h
  next scope order =>
  simp (disch := decide) only [encodeM, opBits, Guard.bits, Scope.bits_of_ofBits scope, Order.bits_of_ofBits order, ofBool_getLsbD, append_fields, -Nat.reduceAdd]
  simp

theorem encodeV_of_fieldsV {f : FormV} (h : fieldsV w = .ok f) : encodeV (opBits w) f = w := by
  unfold fieldsV at h
  split at h
  · cases h
  next ty code =>
  dsimp only at h
  split at h <;> cases h
  next reserved =>
  by_cases im : w.getLsbD 4
  · rw [im, Bool.true_and, Bool.or_eq_true, not_or, Bool.not_eq_true, Bool.not_eq_true] at reserved
    have flags : 0#2 = w.extractLsb' 5 2 := by
      rw [← append_fields (i := 5) (k := 1) (m := 6) (l := 1) w rfl, ← ofBool_getLsbD, ← ofBool_getLsbD, reserved.1, reserved.2]
      rfl
    have imm : 1#1 = w.extractLsb' 4 1 := by rw [← ofBool_getLsbD, im]; rfl
    simp (disch := decide) only [encodeV, opBits, Guard.bits, Tail.bits, im, flags, imm, Ty.code_of_ofCode code, Rm.bits_ofBits, ofBool_getLsbD, append_fields, BitVec.ofNat_toNat, BitVec.setWidth_eq, if_true, -Nat.reduceAdd]
    simp
  · have imm : 0#1 = w.extractLsb' 4 1 := by rw [← ofBool_getLsbD, Bool.not_eq_true _ |>.mp im]; rfl
    simp (disch := decide) only [encodeV, opBits, Guard.bits, Tail.bits, im, imm, Ty.code_of_ofCode code, Rm.bits_ofBits, ofBool_getLsbD, append_fields, BitVec.ofNat_toNat, BitVec.setWidth_eq, Bool.false_eq_true, if_false, -Nat.reduceAdd]
    simp

/-! ### Core words (R53-R64) -/

/-- What a shape's constructor makes of the fields of a word. -/
def Shape.read (w : BitVec 64) : Shape → Except DecodeError Instr
  | .v k => (fieldsV w).map k
  | .l k => .ok (k (fieldsL w))
  | .m k => (fieldsM w).map k
  | .b k => .ok (k (fieldsB w))

/-- The shape's constructor makes `i` of fields that stand in `w` under the opcode bits `op`. -/
def Shape.Makes (i : Instr) (op : BitVec 7 × BitVec 6) (w : BitVec 64) : Shape → Prop
  | .v k => ∃ f, k f = i ∧ encodeV op f = w
  | .l k => ∃ f, k f = i ∧ encodeL op f = w
  | .m k => ∃ f, k f = i ∧ encodeM op f = w
  | .b k => ∃ f, k f = i ∧ encodeB op f = w

/-- Whatever the shape's constructor makes of fields has those fields in its word, under the opcode bits `op`. -/
def Shape.Encodes (op : BitVec 7 × BitVec 6) : Shape → Prop
  | .v k => ∀ f, encodeCore (k f) = some (encodeV op f)
  | .l k => ∀ f, encodeCore (k f) = some (encodeL op f)
  | .m k => ∀ f, encodeCore (k f) = some (encodeM op f)
  | .b k => ∀ f, encodeCore (k f) = some (encodeB op f)

theorem Shape.Encodes.word {sh : Shape} {i : Instr} (h : sh.Encodes op) (makes : sh.Makes i op w) : encodeCore i = some w := by
  cases sh <;>
  · obtain ⟨f, rfl, rfl⟩ := makes
    exact h f

theorem Shape.Makes.read {sh : Shape} {i : Instr} (makes : sh.Makes i op w) : opBits w = op ∧ sh.read w = .ok i := by
  cases sh <;> obtain ⟨f, rfl, rfl⟩ := makes
  case v => exact ⟨(fieldsV_encodeV f).1, by rw [Shape.read, (fieldsV_encodeV f).2]; rfl⟩
  case l => exact ⟨(fieldsL_encodeL f).1, by rw [Shape.read, (fieldsL_encodeL f).2]⟩
  case m => exact ⟨(fieldsM_encodeM f).1, by rw [Shape.read, (fieldsM_encodeM f).2]; rfl⟩
  case b => exact ⟨(fieldsB_encodeB f).1, by rw [Shape.read, (fieldsB_encodeB f).2]⟩

theorem Shape.makes_of_read {sh : Shape} {i : Instr} (h : sh.read w = .ok i) : sh.Makes i (opBits w) w := by
  cases sh
  case v k =>
    cases fields : fieldsV w <;> rw [Shape.read, fields] at h <;> cases h
    exact ⟨_, rfl, encodeV_of_fieldsV fields⟩
  case l k =>
    cases h
    exact ⟨_, rfl, encodeL_fieldsL⟩
  case m k =>
    cases fields : fieldsM w <;> rw [Shape.read, fields] at h <;> cases h
    exact ⟨_, rfl, encodeM_of_fieldsM fields⟩
  case b k =>
    cases h
    exact ⟨_, rfl, encodeB_fieldsB⟩

theorem decodeFields_of_known {sh : Shape} (h : opcodeMap (opBits w).1.toNat (opBits w).2.toNat = some sh) : decodeFields w = sh.read w := by
  unfold opBits at h
  rw [decodeFields, h]
  cases sh <;> rfl

theorem decodeFields_of_unknown (h : opcodeMap (opBits w).1.toNat (opBits w).2.toNat = none) : decodeFields w = .error .noInstruction := by
  unfold opBits at h
  rw [decodeFields, h]

/-- Atomics and reductions share an opcode, and the hint tells them apart (R61). -/
theorem Shape.encodes_of_hint {red atom : FormM → Instr} (hr : (Shape.m red).Encodes op) (ha : (Shape.m atom).Encodes op) :
    (Shape.m fun f => if f.hint.getLsbD 0 then red f else atom f).Encodes op := fun f => by
  dsimp only
  split
  · exact hr f
  · exact ha f

theorem opcodes9_encodes {n : Nat} {sh : Shape} (h : opcodes9 n = some sh) : sh.Encodes (9, BitVec.ofNat 6 n) := by
  unfold opcodes9 at h
  split at h <;> cases h
  case h_7 | h_8 => exact fun _ => rfl
  all_goals exact Shape.encodes_of_hint (fun _ => rfl) fun _ => rfl

/-- The x field tells the three sends apart (R134). -/
theorem opcodes11_encodes {n : Nat} {sh : Shape} (h : opcodes11 n = some sh) : sh.Encodes (11, BitVec.ofNat 6 n) := by
  unfold opcodes11 at h
  split at h <;> cases h
  case h_1 => intro f; dsimp only; split_ifs <;> rfl
  all_goals exact fun _ => rfl

/-- The x field tells `halt` and `halt.all` apart. -/
theorem opcodes14_encodes {n : Nat} {sh : Shape} (h : opcodes14 n = some sh) : sh.Encodes (14, BitVec.ofNat 6 n) := by
  unfold opcodes14 at h
  split at h <;> cases h
  case h_6 => intro f; dsimp only; split_ifs <;> rfl
  all_goals exact fun _ => rfl

/-- Each entry of the opcode map of R62 is a constructor whose word has that opcode. -/
theorem opcodeMap_encodes {m n : Nat} {sh : Shape} (h : opcodeMap m n = some sh) : sh.Encodes (BitVec.ofNat 7 m, BitVec.ofNat 6 n) := by
  unfold opcodeMap at h
  split at h
  case h_9 => exact opcodes9_encodes h
  case h_11 => exact opcodes11_encodes h
  case h_14 => exact opcodes14_encodes h
  case h_18 => cases h
  all_goals
    delta opcodes1 opcodes2 opcodes3 opcodes4 opcodes5 opcodes6 opcodes7 opcodes8 opcodes10 opcodes12 opcodes13 opcodes15 opcodes16 opcodes17 at h
    split at h <;> cases h <;> exact fun _ => rfl

theorem Shape.Makes.encodeCore {sh : Shape} {i : Instr} (known : opcodeMap op.1.toNat op.2.toNat = some sh) (makes : sh.Makes i op w) :
    Sys2Proof.encodeCore i = some w := by
  have h := opcodeMap_encodes known
  rw [BitVec.ofNat_toNat, BitVec.ofNat_toNat, BitVec.setWidth_eq, BitVec.setWidth_eq] at h
  exact h.word makes

theorem Rule.x_of_ok {r : Rule} {f : FormV} (h : r.ok f = true) : r.x f.x = true := by
  simp only [Rule.ok, Bool.and_eq_true] at h
  tauto

/-- The x field that an accepted instruction of Form V has. -/
theorem Instr.x_of_wf {i : Instr} {f : FormV} {r : Rule} (rule : i.ruleV = some (f, r)) (wf : i.wf = true) : r.x f.x = true := by
  unfold Instr.wf Instr.accepted at wf
  rw [rule] at wf
  exact Rule.x_of_ok wf

/-- What comes first of what an accepted instruction of Form M has to fulfil. -/
theorem Instr.okM_of_wf {i : Instr} {f : FormM} {rs : List Nat} {b c : Bool} (rule : i.ruleV = none) (regs : i.regsM = some (f, rs))
    (ok : i.okM = (b && c)) (wf : i.wf = true) : b = true := by
  unfold Instr.wf Instr.accepted at wf
  rw [rule] at wf
  simp only [regs, ok, Bool.and_eq_true] at wf
  exact wf.1.1.1

/-- A core instruction whose fields are accepted is made by the shape that stands in the map at its opcode bits. -/
theorem Instr.made {i : Instr} (core : i.kind = .core) (wf : i.wf = true) :
    ∃ op sh w, i.opcode = some op ∧ opcodeMap op.1.toNat op.2.toNat = some sh ∧ sh.Makes i op w := by
  cases i
  case atomAdd f | atomMin f | atomMax f | atomAnd f | atomOr f | atomXor f | atomFadd f | atomFmin f | atomFmax f | atomBfadd2 f =>
    have atom := eq_of_beq (Instr.okM_of_wf rfl rfl rfl wf)
    exact ⟨_, _, _, rfl, rfl, f, if_neg (Bool.not_eq_true _ |>.mpr atom), rfl⟩
  case redAdd f | redMin f | redMax f | redAnd f | redOr f | redXor f | redFadd f | redFmin f | redFmax f | redBfadd2 f =>
    exact ⟨_, _, _, rfl, rfl, f, if_pos (Instr.okM_of_wf rfl rfl rfl wf), rfl⟩
  case sendGlb f | sendPeer f | sendTens f | halt f | haltAll f =>
    have x := eq_of_beq (Instr.x_of_wf rfl wf)
    exact ⟨_, _, _, rfl, rfl, f, by simp [x], rfl⟩
  all_goals cases core
  all_goals exact ⟨_, _, _, rfl, rfl, _, rfl, rfl⟩

theorem checkAccepted_ok {i j : Instr} : checkAccepted i = .ok j ↔ i = j ∧ j.wf = true := by
  unfold checkAccepted
  split
  · next wf => exact ⟨fun h => by cases h; exact ⟨rfl, wf⟩, fun ⟨e, _⟩ => congrArg _ e⟩
  · next wf => exact ⟨nofun, fun ⟨e, h⟩ => absurd h (e ▸ wf)⟩

theorem decodeCore_ok {i : Instr} : decodeCore w = .ok i ↔ decodeFields w = .ok i ∧ i.wf = true := by
  unfold decodeCore
  cases decodeFields w with
  | error e => exact ⟨nofun, nofun⟩
  | ok j =>
    rw [checkAccepted_ok]
    exact and_congr_left fun _ => ⟨congrArg _, fun h => by cases h; rfl⟩

theorem encodeCore_decodes {i : Instr} (core : i.kind = .core) (wf : i.wf = true) : ∃ w, encodeCore i = some w ∧ decodeCore w = .ok i := by
  obtain ⟨op, sh, w, _, known, makes⟩ := Instr.made core wf
  obtain ⟨rfl, read⟩ := makes.read
  exact ⟨w, makes.encodeCore known, decodeCore_ok.mpr ⟨(decodeFields_of_known known).trans read, wf⟩⟩

theorem encodeCore_of_decodeCore {i : Instr} (h : decodeCore w = .ok i) : i.wf = true ∧ encodeCore i = some w := by
  obtain ⟨fields, wf⟩ := decodeCore_ok.mp h
  refine ⟨wf, ?_⟩
  cases known : opcodeMap (opBits w).1.toNat (opBits w).2.toNat with
  | none => rw [decodeFields_of_unknown known] at fields; cases fields
  | some sh => exact (Shape.makes_of_read ((decodeFields_of_known known).symm.trans fields)).encodeCore known

end

/-! ### Compact words (R65-R67) -/

section
variable {w : BitVec 32} {i : Instr}

theorem fieldsK_encodeK (op : BitVec 6) (f : KRegs) (fn : BitVec 11) :
    (encodeK op f fn).extractLsb' 26 6 = op ∧ fieldsK (encodeK op f fn) = f ∧ (encodeK op f fn).extractLsb' 0 11 = fn := by
  simp (disch := decide) only [fieldsK, encodeK, field_low, field_high, -Nat.reduceAdd]
  simp

theorem fieldsJ_encodeJ (op : BitVec 6) (f : KImm) : (encodeJ op f).extractLsb' 26 6 = op ∧ fieldsJ (encodeJ op f) = f := by
  simp (disch := decide) only [fieldsJ, encodeJ, field_low, field_high, -Nat.reduceAdd]
  simp

theorem encodeK_fieldsK {n : Nat} (op : (w.extractLsb' 26 6).toNat = n) : encodeK (BitVec.ofNat 6 n) (fieldsK w) (w.extractLsb' 0 11) = w := by
  subst op
  simp (disch := decide) only [encodeK, fieldsK, BitVec.ofNat_toNat, BitVec.setWidth_eq, append_fields, -Nat.reduceAdd]
  simp

theorem encodeJ_fieldsJ {n : Nat} (op : (w.extractLsb' 26 6).toNat = n) : encodeJ (BitVec.ofNat 6 n) (fieldsJ w) = w := by
  subst op
  simp (disch := decide) only [encodeJ, fieldsJ, BitVec.ofNat_toNat, BitVec.setWidth_eq, append_fields, -Nat.reduceAdd]
  simp

theorem shapeK_ok {k : KRegs → Instr} (h : shapeK w k = .ok i) : w.extractLsb' 0 11 = 0 ∧ k (fieldsK w) = i := by
  unfold shapeK at h
  split at h <;> cases h
  next fn => exact ⟨eq_of_beq fn, rfl⟩

/-- A word of shape K whose fn field is `fn`. -/
theorem encodeK_of_fn {n : Nat} {fn : BitVec 11} (op : (w.extractLsb' 26 6).toNat = n) (h : w.extractLsb' 0 11 = fn) :
    encodeK (BitVec.ofNat 6 n) (fieldsK w) fn = w := by
  subst h
  exact encodeK_fieldsK op

/-- A word of an instruction without fields. -/
theorem append_of_op {n : Nat} {low : BitVec 26} (op : (w.extractLsb' 26 6).toNat = n) (h : w.extractLsb' 0 26 = low) :
    BitVec.ofNat 6 n ++ low = w := by
  subst op h
  rw [BitVec.ofNat_toNat, BitVec.setWidth_eq, append_fields (i := 0) (k := 26) (m := 26) w rfl, BitVec.extractLsb'_eq_self]

theorem shapeK_encodeK (op : BitVec 6) (f : KRegs) (k : KRegs → Instr) : shapeK (encodeK op f 0) k = .ok (k f) := by
  obtain ⟨_, fields, fn⟩ := fieldsK_encodeK op f 0
  rw [shapeK, fields, fn]
  rfl

theorem encodeCompact_decodes (compact : i.kind = .compact) (wf : i.wf = true) : ∃ w, encodeCompact i = some w ∧ decodeCompact w = .ok i := by
  cases i
  case seqAdd f | seqSub f | seqMul f | seqAnd f | seqOr f | seqXor f | seqShl f =>
    refine ⟨_, rfl, ?_⟩
    obtain ⟨op, _, _⟩ := fieldsK_encodeK _ f 0
    rw [decodeCompact, op]
    exact shapeK_encodeK _ f _
  case seqShr f =>
    obtain ⟨op, _, fn⟩ := fieldsK_encodeK 9 f 0
    refine ⟨_, rfl, ?_⟩
    rw [decodeCompact, op, fn]
    exact shapeK_encodeK _ f _
  case seqShrA f =>
    obtain ⟨op, fields, fn⟩ := fieldsK_encodeK 9 f 1
    refine ⟨_, rfl, ?_⟩
    rw [decodeCompact, op, fn, fields]
    rfl
  case seqNop | seqStop => exact ⟨_, rfl, rfl⟩
  all_goals cases compact
  all_goals
    refine ⟨_, rfl, ?_⟩
    obtain ⟨op, fields⟩ := fieldsJ_encodeJ _ _
    rw [decodeCompact, op, fields]
    exact checkAccepted_ok.mpr ⟨rfl, wf⟩

theorem encodeCompact_of_decodeCompact (h : decodeCompact w = .ok i) : i.wf = true ∧ encodeCompact i = some w := by
  unfold decodeCompact at h
  split at h
  case h_1 op | h_2 op | h_4 op | h_5 op | h_6 op | h_7 op | h_8 op =>
    obtain ⟨fn, rfl⟩ := shapeK_ok h
    exact ⟨rfl, congrArg some (encodeK_of_fn op fn)⟩
  case h_9 op =>
    split at h
    · next fn =>
      cases h
      exact ⟨rfl, congrArg some (encodeK_of_fn op (eq_of_beq fn))⟩
    · obtain ⟨fn, rfl⟩ := shapeK_ok h
      exact ⟨rfl, congrArg some (encodeK_of_fn op fn)⟩
  case h_23 op | h_24 op =>
    split at h <;> cases h
    next low =>
    refine ⟨rfl, congrArg some ?_⟩
    exact append_of_op op (eq_of_beq low)
  case h_25 => cases h
  all_goals
    obtain ⟨rfl, wf⟩ := checkAccepted_ok.mp h
    exact ⟨wf, congrArg some (encodeJ_fieldsJ ‹_›)⟩

end

/-! ### Stream commands (R68-R70) -/

section
variable {w : BitVec 128} {i : Instr}

theorem fieldsStream_encodeS (op : BitVec 8) (f : StreamCmd) : (encodeS op f).extractLsb' 120 8 = op ∧ fieldsStream (encodeS op f) = f := by
  simp (disch := decide) only [fieldsStream, encodeS, field_low, field_high, -Nat.reduceAdd]
  simp

theorem encodeS_fieldsStream {n : Nat} (op : (w.extractLsb' 120 8).toNat = n) : encodeS (BitVec.ofNat 8 n) (fieldsStream w) = w := by
  subst op
  simp (disch := decide) only [encodeS, fieldsStream, BitVec.ofNat_toNat, BitVec.setWidth_eq, append_fields, -Nat.reduceAdd]
  simp

theorem encodeStream_decodes (stream : i.kind = .stream) (wf : i.wf = true) : ∃ w, encodeStream i = some w ∧ decodeStream w = .ok i := by
  cases i
  all_goals cases stream
  all_goals
    refine ⟨_, rfl, ?_⟩
    obtain ⟨op, fields⟩ := fieldsStream_encodeS _ _
    rw [decodeStream, op, fields]
    exact checkAccepted_ok.mpr ⟨rfl, wf⟩

theorem encodeStream_of_decodeStream (h : decodeStream w = .ok i) : i.wf = true ∧ encodeStream i = some w := by
  unfold decodeStream at h
  split at h
  case h_13 => cases h
  all_goals
    obtain ⟨rfl, wf⟩ := checkAccepted_ok.mp h
    exact ⟨wf, congrArg some (encodeS_fieldsStream ‹_›)⟩

end

/-- Settles O55: an instruction with accepted fields has a word that decodes to it, and a word that decodes holds its fields and opcode. -/
theorem decodeAndEncodeAgree : Obligations.DecodeAndEncodeAgree :=
  ⟨fun _ wf => ⟨fun core => encodeCore_decodes core wf, fun compact => encodeCompact_decodes compact wf, fun stream => encodeStream_decodes stream wf⟩,
    fun _ _ => encodeCore_of_decodeCore, fun _ _ => encodeCompact_of_decodeCompact, fun _ _ => encodeStream_of_decodeStream⟩

/-- Settles O56: the decoder evaluated at each word. -/
theorem decodeWords : Obligations.DecodeWords :=
  ⟨rfl, rfl, rfl, rfl, rfl, rfl, rfl, rfl, rfl, rfl⟩

end Sys2Proof

namespace Sys2Proof.Machine

/-! ### What the device's own accesses change (Graph, Complete)

`s.Serves t`: the device got from `s` to `t` by accesses of its own and by what it records of them. They change memory and the paths to
it, the links, the Belfry, the fault records and the service ring, and nothing else. -/

/-- Nothing but memory, links, the Belfry, fault records, the service ring and names differs. -/
def State.Serves (s t : State) : Prop :=
  ∃ n m l b f v, t = { s with nextId := n, mem := m, links := l, belfry := b, faults := f, service := v }

section
variable {s₀ s t : State}

theorem State.Serves.refl (s : State) : s.Serves s := ⟨_, _, _, _, _, _, rfl⟩

/-- A further change of those parts. -/
theorem State.Serves.same (h : s₀.Serves s) {nextId mem links belfry faults service} :
    s₀.Serves { s with nextId := nextId, mem := mem, links := links, belfry := belfry, faults := faults, service := service } := by
  obtain ⟨_, _, _, _, _, _, rfl⟩ := h
  exact ⟨_, _, _, _, _, _, rfl⟩

theorem State.Serves.annex (h : s.Serves t) : t.annex = s.annex := by
  obtain ⟨_, _, _, _, _, _, rfl⟩ := h
  rfl
theorem State.Serves.groups (h : s.Serves t) : t.groups = s.groups := by
  obtain ⟨_, _, _, _, _, _, rfl⟩ := h
  rfl
theorem State.Serves.keep (h : s.Serves t) : t.keep = s.keep := by
  obtain ⟨_, _, _, _, _, _, rfl⟩ := h
  rfl

theorem State.Serves.ite {c : Prop} {_ : Decidable c} {a b : State} (ha : s₀.Serves a) (hb : s₀.Serves b) : s₀.Serves (if c then a else b) := by
  split
  · exact ha
  · exact hb

theorem State.Serves.foldl {α : Type} {F : State → α → State} {xs : List α} (h : s₀.Serves s) (step : ∀ (u : State) (x : α), s₀.Serves u → s₀.Serves (F u x)) :
    s₀.Serves (xs.foldl F s) :=
  List.foldlRecOn xs F h fun u hu x _ => step u x hu

theorem State.Serves.sendFlit (h : s₀.Serves s) {d} : s₀.Serves (s.sendFlit d) := by
  obtain ⟨_, e⟩ := s.sendFlit_eq d
  rw [e]
  exact h.same
theorem State.Serves.evictLine (h : s₀.Serves s) {l w n} : s₀.Serves (s.evictLine l w n) := by
  obtain ⟨_, _, e⟩ := s.evictLine_eq l w n
  rw [e]
  exact h.same
theorem State.Serves.setHome (h : s₀.Serves s) {l x} : s₀.Serves (s.setHome l x) := by
  obtain ⟨_, _, e⟩ := s.setHome_eq l x
  rw [e]
  exact h.same

theorem State.Serves.send (h : s₀.Serves s) {m} : s₀.Serves (s.send m).2 := h.same
theorem State.Serves.toPeer (h : s₀.Serves s) {l} : s₀.Serves (s.toPeer l) := h.sendFlit.ite h
theorem State.Serves.sendOwner (h : s₀.Serves s) {f pa w va l} : s₀.Serves (s.sendOwner f pa w va l) := State.Serves.toPeer (s := _) h.same
theorem State.Serves.useUp (h : s₀.Serves s) {ls} : s₀.Serves (s.useUp ls) := h.same
theorem State.Serves.bring (h : s₀.Serves s) {l x n} : s₀.Serves (s.bring l x n) := h.ite h.send.toPeer
theorem State.Serves.bringAll (h : s₀.Serves s) {ls} : s₀.Serves (s.bringAll ls) := h.foldl fun _ _ h => h.bring
theorem State.Serves.delMsg (h : s₀.Serves s) {i} : s₀.Serves (s.delMsg i) := h.same
theorem State.Serves.noteMisuse (h : s₀.Serves s) {d n} : s₀.Serves (s.noteMisuse d n) := h.same
theorem State.Serves.nodeStore (h : s₀.Serves s) {pa bs} : s₀.Serves (s.nodeStore pa bs) := h.noteMisuse.ite h.same
theorem State.Serves.putHome (h : s₀.Serves s) {l x k} : s₀.Serves (s.putHome l x k) := h.setHome.ite (.ite h.same h.same)

theorem State.Serves.learn (h : s₀.Serves s) {d va w} : s₀.Serves (s.learn d va w) := by
  unfold State.learn
  split
  · exact h
  · split
    · exact h.same
    · exact h

theorem State.Serves.forward (h : s₀.Serves s) {l a} (e : s.forward l a = some t) : s₀.Serves t := by
  unfold State.forward at e
  split at e
  · cases e
    exact h
  · split at e <;> cases e
    exact h.evictLine

theorem State.Serves.writeAtHome (h : s₀.Serves s) {l x c d m k} : s₀.Serves (s.writeAtHome l x c d m k).1 := by
  unfold State.writeAtHome
  dsimp only
  split
  · exact h.same
  · exact State.Serves.putHome (h.same.ite h)

/-- What an access leaves, whether it is done, waits or fails. -/
def DeviceAccess.Served (s₀ : State) : DeviceAccess → Prop
  | .done s _ => s₀.Serves s
  | .wait s => s₀.Serves s
  | .bad s => s₀.Serves s

/-- What a read leaves that waits. -/
def DeviceRead.Served (s₀ : State) : DeviceRead → Prop
  | .wait s => s₀.Serves s
  | _ => True

theorem DeviceAccess.Served.of_done {a : DeviceAccess} {n : Time} (h : a.Served s₀) (e : a = .done t n) : s₀.Serves t := by
  subst e
  exact h
theorem DeviceAccess.Served.of_wait {a : DeviceAccess} (h : a.Served s₀) (e : a = .wait t) : s₀.Serves t := by
  subst e
  exact h
theorem DeviceAccess.Served.of_bad {a : DeviceAccess} (h : a.Served s₀) (e : a = .bad t) : s₀.Serves t := by
  subst e
  exact h
theorem DeviceRead.Served.of_wait {r : DeviceRead} (h : r.Served s₀) (e : r = .wait t) : s₀.Serves t := by
  subst e
  exact h

theorem State.Serves.withLine (h : s₀.Serves s) {l x r k} (hk : ∀ s, s₀.Serves s → DeviceAccess.Served s₀ (k s)) : (s.withLine l x r k).Served s₀ := by
  unfold State.withLine
  split
  · exact h
  · split
    · exact h.useUp
    · split
      · exact h.bring
      · exact hk s h

theorem State.Serves.arriveAtPeer (h : s₀.Serves s) {l o i c g} : (s.arriveAtPeer l o i c g).Served s₀ := by
  unfold State.arriveAtPeer
  split
  · split
    · exact h
    · exact (h.forward ‹_›).send.toPeer
  · split
    · split
      · exact h.delMsg
      · exact h.delMsg
    · exact h

theorem State.Serves.arriveAt (h : s₀.Serves s) {pa i c g} : (s.arriveAt pa i c g).Served s₀ := by
  unfold State.arriveAt
  dsimp only
  split
  · exact h.arriveAtPeer
  · exact h.withLine fun _ h => h.writeAtHome

theorem State.Serves.deviceArrive (h : s₀.Serves s) {d va i c g} : (s.deviceArrive d va i c g).Served s₀ := by
  unfold State.deviceArrive
  split
  · exact h
  · split
    · exact h
    · exact h.learn.arriveAt

theorem State.Serves.deviceStore (h : s₀.Serves s) {pa n bs c} : (s.deviceStore pa n bs c).Served s₀ := by
  unfold State.deviceStore
  dsimp only
  split
  · split
    · exact h.sendOwner
    · exact h.nodeStore
  · exact h.withLine fun _ h => h.writeAtHome

theorem State.Serves.deviceRead (h : s₀.Serves s) {d va n w} : (s.deviceRead d va n w).Served s₀ := by
  unfold State.deviceRead
  split
  · trivial
  · split
    · trivial
    · split
      · exact h.bringAll
      · trivial

theorem State.Serves.storeAt (h : s₀.Serves s) {d va bs c} : (s.storeAt d va bs c).Served s₀ := by
  unfold State.storeAt
  split
  · exact h
  · exact h.learn.deviceStore

theorem State.Serves.completedNow (h : s₀.Serves s) {q} : (s.completedNow q).Served s₀ := by
  unfold State.completedNow
  split
  · trivial
  · exact h.deviceRead

theorem State.Serves.onQueue (h : s₀.Serves s) {k f} : s₀.Serves (s.onQueue k f) := h.same

theorem State.Serves.countCompleted (h : s₀.Serves s) {q n} : s₀.Serves (s.countCompleted q n).1 := by
  unfold State.countCompleted
  split
  · exact h
  · dsimp only
    split
    · exact h.completedNow.of_wait ‹_›
    · exact h.onQueue
    · split
      · exact h.storeAt.of_wait ‹_›
      · exact (h.storeAt.of_done ‹_›).onQueue
      · exact (h.storeAt.of_bad ‹_›).onQueue

theorem State.Serves.raiseLaunch (h : s₀.Serves s) {q n d c va l r f} : s₀.Serves (s.raiseLaunch q n d c va l r f) := h.same

theorem State.Serves.pay (h : s₀.Serves s) {o} : s₀.Serves (s.pay o).1 := by
  unfold State.pay
  split
  · exact h
  · split
    · exact h.storeAt.of_wait ‹_›
    · exact h.storeAt.of_done ‹_›
    · exact h.storeAt.of_bad ‹_›
  · split
    · exact h.deviceArrive.of_wait ‹_›
    · exact h.deviceArrive.of_done ‹_›
    · exact (h.deviceArrive.of_bad ‹_›).raiseLaunch
  · exact h.countCompleted
  · split
    · exact h.deviceArrive.of_wait ‹_›
    · exact h.deviceArrive.of_done ‹_›
    · split
      · exact (h.deviceArrive.of_bad ‹_›).same
      · exact h.deviceArrive.of_bad ‹_›

theorem State.Serves.of_fst {p : State × Bool} {b : Bool} (h : s₀.Serves p.1) (e : p = (t, b)) : s₀.Serves t := by
  subst e
  exact h

theorem State.Serves.payAll (h : s₀.Serves s) : s₀.Serves s.payAll := by
  refine State.Serves.foldl h.same fun s o h => ?_
  dsimp only
  split
  · exact h.same
  · split
    · exact h.pay.of_fst ‹_›
    · exact (h.pay.of_fst ‹_›).same

theorem State.Serves.owe (h : s₀.Serves s) {xs} : s₀.Serves (s.owe xs) := State.Serves.payAll h.same
theorem State.Serves.completePacket (h : s₀.Serves s) {q n d x c r} : s₀.Serves (s.completePacket q n d x c r) := State.Serves.owe h.same

end


/-! ### The end of a region (R289, R290) -/

section
variable {s : State}

theorem State.onRegion_look {k j : Nat} {F : Region → Region} :
    (s.onRegion k F).annex.regions.look j = if j = k then (s.annex.regions.look k).map F else s.annex.regions.look j := Map.look_adjust _ _ _ _

theorem State.raiseRegion_annex {r n x y c o f va d p} : (s.raiseRegion r n x y c o f va d p).annex = s.annex := by
  unfold State.raiseRegion
  split <;> rfl

theorem State.retireOutputs_regions {d rs} : (s.retireOutputs d rs).1.annex.regions = s.annex.regions := by
  have h : s.Serves (s.retireOutputs d rs).1 := State.Serves.foldl (.refl s) fun _ _ h => h.evictLine
  rw [h.annex]

theorem State.releaseInst_regions {i} : (s.releaseInst i).annex.regions = s.annex.regions := by
  unfold State.releaseInst
  split <;> rfl

theorem State.releaseInsts_regions {is : List Nat} : (is.foldl (fun s i => s.releaseInst i) s).annex.regions = s.annex.regions :=
  List.foldlRecOn is _ (motive := fun u : State => u.annex.regions = s.annex.regions) rfl fun _ h _ _ => State.releaseInst_regions.trans h

/-- The state that a region is in. -/
def State.regionState (s : State) (k : Nat) : Option RegionState := (s.annex.regions.look k).map Region.state

/-- The completion barrier's step leaves every region in its state. -/
theorem State.tryRegion_state {k j : Nat} : (s.tryRegion k).regionState j = s.regionState j := by
  unfold State.tryRegion
  split
  · rfl
  · next g look =>
    split
    · rfl
    · unfold State.regionState
      rw [(State.Serves.completePacket (.refl _)).annex, State.onRegion_look]
      split
      · next here => rw [here, look]; rfl
      · rfl

theorem State.endRegion_state {k : Nat} {how : RegionState} (running : s.regionState k = some .running) : (s.endRegion k how).regionState k = some how := by
  obtain ⟨r, look, state⟩ := Option.map_eq_some_iff.1 running
  unfold State.endRegion
  rw [look]
  dsimp only
  rw [if_neg (by rw [state]; decide), State.tryRegion_state]
  change ((State.onRegion _ _ _).annex.regions.look k).map _ = _
  rw [State.onRegion_look, if_pos rfl, State.releaseInsts_regions, State.retireOutputs_regions, look]
  rfl

theorem State.failRegion_state {k : Nat} {n x y c o va d p} (running : s.regionState k = some .running) :
    (s.failRegion k n x y c o va d p).regionState k = some .failed :=
  State.endRegion_state (by rwa [State.regionState, State.raiseRegion_annex])

end

/-! ### Port sequencers (R188-R190) -/

@[simp] theorem Seq.setK_pc (q : Seq) (i : Nat) (x : Dword) : (q.setK i x).pc = q.pc := by unfold Seq.setK; split <;> rfl
@[simp] theorem Seq.setK_prog (q : Seq) (i : Nat) (x : Dword) : (q.setK i x).prog = q.prog := by unfold Seq.setK; split <;> rfl
@[simp] theorem Seq.setK_store (q : Seq) (i : Nat) (x : Dword) : (q.setK i x).store = q.store := by unfold Seq.setK; split <;> rfl
@[simp] theorem Seq.setK_stopped (q : Seq) (i : Nat) (x : Dword) : (q.setK i x).stopped = q.stopped := by unfold Seq.setK; split <;> rfl

/-- k[i] takes the value, and k0 ignores it (R65). -/
theorem Seq.kreg_setK (q : Seq) (i k : Nat) (x : Dword) : (q.setK i x).kreg k = if k = i ∧ k ≠ 0 then x else q.kreg k := by
  unfold Seq.setK Seq.kreg
  by_cases zero : k = 0
  · simp [zero]
  · by_cases discarded : i = 0
    · simp [zero, discarded]
    · simp [zero, discarded, Map.get_set]

/-- Eight bytes of the local store take the value's, and every other stays. -/
theorem Seq.byteAt_writeStore (q : Seq) (i b : Nat) (x : Dword) :
    (q.writeStore i x).byteAt b = if i ≤ b ∧ b < i + 8 then BitVec.ofNat 8 (x.toNat / 2 ^ (8 * (b - i))) else q.byteAt b := by
  have bytes (m : Nat) : Map.get 0 ((List.range m).foldl (fun m j => Map.set 0 m (i + j) (BitVec.ofNat 8 (x.toNat / 2 ^ (8 * j)))) q.store) b =
      if i ≤ b ∧ b < i + m then BitVec.ofNat 8 (x.toNat / 2 ^ (8 * (b - i))) else Map.get 0 q.store b := by
    induction m with
    | zero => rw [if_neg (by omega)]; rfl
    | succ m ih =>
      rw [List.range_succ, List.foldl_append, List.foldl_cons, List.foldl_nil, Map.get_set, ih]
      by_cases last : b = i + m
      · rw [if_pos last, if_pos (by omega), last, Nat.add_sub_cancel_left]
      · rw [if_neg last]
        exact if_congr (by omega) rfl rfl
  exact bytes 8

/-- The outcome is a state in which the sequencer's region has failed, if it ran. -/
def SeqFails (s : State) (q : Seq) (o : Res) : Prop :=
  ∃ inst t, s.annex.insts.look q.inst = some inst ∧ o = .next t ∧
    ∀ r, s.annex.regions.look inst.region = some r → r.state = .running → ∃ r', t.annex.regions.look inst.region = some r' ∧ r'.state = .failed

section
variable {s : State} {die n : Nat} {q : Seq} (h : SeqRuns s die n q)
include h

/-- A sequencer that runs executes its word. -/
theorem seqWord_runs (k : SeqCtx → Res) : seqWord s k = k ⟨s, die, n, q⟩ := by
  obtain ⟨agent, seq, going, i, inst, running⟩ := h
  simp [seqWord, agent, seq, going, inst, running]

/-- A word that stops a running sequencer fails its region. -/
theorem seq_fails {k : SeqCtx → Res} (fail : k ⟨s, die, n, q⟩ = SeqCtx.fail ⟨s, die, n, q⟩) : SeqFails s q (seqWord s k) := by
  rw [seqWord_runs h, fail]
  obtain ⟨x, look, _⟩ := h.running
  have there : (s.setSeq (32 * die + n) { q with stopped := true, failed := true }).annex.insts.look q.inst = some x := look
  simp only [SeqCtx.fail, there]
  exact ⟨x, _, look, rfl, fun r region running => Option.map_eq_some_iff.1 (State.failRegion_state (Option.map_eq_some_iff.2 ⟨r, region, running⟩))⟩

/-- A word after which the sequencer goes on at `pc`, with k[d] set to a value. -/
theorem seq_sets {k : SeqCtx → Res} {pc d : Nat} {x : Dword} (put : k ⟨s, die, n, q⟩ = SeqCtx.put ⟨s, die, n, q⟩ { q.setK d x with pc := pc }) :
    SeqGoes s die n q (seqWord s k) pc (some (d, x)) := by
  rw [seqWord_runs h, put]
  exact ⟨_, _, rfl, rfl, rfl, q.setK_prog d x, q.setK_store d x, (q.setK_stopped d x).trans h.going, fun k => q.kreg_setK d k x⟩

/-- A word that sets k[d], after which the sequencer goes on at the next word. -/
theorem seq_sets_next {k : SeqCtx → Res} {d : Nat} {x : Dword} (go : k ⟨s, die, n, q⟩ = SeqCtx.go ⟨s, die, n, q⟩ (q.setK d x)) :
    SeqGoes s die n q (seqWord s k) (q.pc + 1) (some (d, x)) :=
  seq_sets h (by rw [go, SeqCtx.go, Seq.setK_pc])

/-- A word after which the sequencer goes on at `pc`, with its registers as they were. -/
theorem seq_goes {k : SeqCtx → Res} {pc : Nat} (put : k ⟨s, die, n, q⟩ = SeqCtx.put ⟨s, die, n, q⟩ { q with pc := pc }) :
    SeqGoes s die n q (seqWord s k) pc none := by
  rw [seqWord_runs h, put]
  exact ⟨_, _, rfl, rfl, rfl, rfl, rfl, h.going, fun _ => rfl⟩

end

/-- A target that is a word of the program (R65, R190). -/
def Seq.inProgram (q : Seq) (target : Dword) : Prop := target.toNat % 4 = 0 ∧ target.toNat / 4 < q.prog.length

section
variable {c : SeqCtx} {q : Seq} {target : Dword}

theorem SeqCtx.jump_inProgram (ok : q.inProgram target) : c.jump q target = c.put { q with pc := target.toNat / 4 } := by
  obtain ⟨aligned, inside⟩ := ok
  rw [SeqCtx.jump, if_neg (by simp [aligned, inside])]

theorem SeqCtx.jump_outside (bad : ¬ q.inProgram target) : c.jump q target = c.fail := by
  rw [SeqCtx.jump, if_pos]
  by_contra ok
  simp only [Bool.or_eq_true, bne_iff_ne, decide_eq_true_eq, not_or, ne_eq, Decidable.not_not, not_le] at ok
  exact bad ok

theorem SeqCtx.target_eq (base : Dword) (imm : BitVec 16) : c.target base imm = base + imm.signExtend 64 <<< 2 := by
  rw [SeqCtx.target, BitVec.shiftLeft_eq_mul_twoPow, BitVec.mul_comm]
  rfl

/-- An address of the local store: a multiple of 8 below 4,096 (R190). -/
theorem SeqCtx.storeAt_some {f : KImm} {a : Nat} (e : a = (c.q.kreg f.a.toNat + f.imm.signExtend 64).toNat) (aligned : a % 8 = 0) (inside : a < 4096) : c.storeAt f = some a := by
  unfold SeqCtx.storeAt
  rw [← e, if_neg (by simp [aligned]; omega)]

theorem SeqCtx.storeAt_none {f : KImm} {a : Nat} (e : a = (c.q.kreg f.a.toNat + f.imm.signExtend 64).toNat) (bad : a % 8 ≠ 0 ∨ 4096 ≤ a) : c.storeAt f = none := by
  unfold SeqCtx.storeAt
  rw [← e, if_pos (by simp; omega)]

end

section
variable {s : State} {die n : Nat} {q : Seq} (h : SeqRuns s die n q)
include h

/-- A branch goes to its target if the comparison holds, and to the next word otherwise; a target that is no word of the program stops the sequencer. -/
theorem runBranch_goes (f : KImm) (test : Dword → Dword → Bool) (b : Bool) (e : test (q.kreg f.d.toNat) (q.kreg f.a.toNat) = b) :
    let dest : Dword := BitVec.ofNat 64 (4 * q.pc) + f.imm.signExtend 64 <<< 2
    (b = true → q.inProgram dest → SeqGoes s die n q (runBranch f s test) (dest.toNat / 4) none) ∧
    (b = true → ¬ q.inProgram dest → SeqFails s q (runBranch f s test)) ∧ (b = false → SeqGoes s die n q (runBranch f s test) (q.pc + 1) none) := by
  subst e
  refine ⟨fun taken ok => seq_goes h ?_, fun taken bad => seq_fails h ?_, fun other => seq_goes h ?_⟩ <;> dsimp only
  · rw [if_pos taken, SeqCtx.target_eq]
    exact SeqCtx.jump_inProgram ok
  · rw [if_pos taken, SeqCtx.target_eq]
    exact SeqCtx.jump_outside bad
  · rw [if_neg (by simp [other])]
    rfl

theorem runK_goes (f : KRegs) (fn : Dword → Dword → Dword) :
    SeqGoes s die n q (runK f s fn) (q.pc + 1) (some (f.d.toNat, fn (q.kreg f.a.toNat) (q.kreg f.b.toNat))) := seq_sets_next h rfl

theorem execSeqAddi_goes (f : KImm) : SeqGoes s die n q (execSeqAddi f s) (q.pc + 1) (some (f.d.toNat, q.kreg f.a.toNat + f.imm.signExtend 64)) :=
  seq_sets_next h rfl

theorem execSeqLih_goes (f : KImm) : SeqGoes s die n q (execSeqLih f s) (q.pc + 1) (some (f.d.toNat, q.kreg f.a.toNat + f.imm.signExtend 64 <<< 16)) :=
  seq_sets_next h (by rw [BitVec.shiftLeft_eq_mul_twoPow]; rfl)

theorem execSeqNop_goes : SeqGoes s die n q (execSeqNop s) (q.pc + 1) none := seq_goes h rfl

theorem execSeqLd_goes (f : KImm) {a : Nat} (e : a = (q.kreg f.a.toNat + f.imm.signExtend 64).toNat) (aligned : a % 8 = 0) (inside : a < 4096) :
    SeqGoes s die n q (execSeqLd f s) (q.pc + 1) (some (f.d.toNat, q.readStore a)) :=
  seq_sets_next h (by dsimp only; rw [SeqCtx.storeAt_some e aligned inside])

theorem execSeqSt_puts (f : KImm) {a : Nat} (e : a = (q.kreg f.a.toNat + f.imm.signExtend 64).toNat) (aligned : a % 8 = 0) (inside : a < 4096) :
    execSeqSt f s = SeqCtx.go ⟨s, die, n, q⟩ (q.writeStore a (q.kreg f.d.toNat)) := by
  rw [execSeqSt, seqWord_runs h, SeqCtx.storeAt_some e aligned inside]

theorem execSeqLd_fails (f : KImm) {a : Nat} (e : a = (q.kreg f.a.toNat + f.imm.signExtend 64).toNat) (bad : a % 8 ≠ 0 ∨ 4096 ≤ a) : SeqFails s q (execSeqLd f s) :=
  seq_fails h (by dsimp only; rw [SeqCtx.storeAt_none e bad])

theorem execSeqSt_fails (f : KImm) {a : Nat} (e : a = (q.kreg f.a.toNat + f.imm.signExtend 64).toNat) (bad : a % 8 ≠ 0 ∨ 4096 ≤ a) : SeqFails s q (execSeqSt f s) :=
  seq_fails h (by dsimp only; rw [SeqCtx.storeAt_none e bad])

/-- `jmp` and `jal` go to their target, and `jal` keeps the address of the next word; a target that is no word of the program stops the sequencer. -/
theorem jumps_go (f : KImm) :
    let here : Dword := BitVec.ofNat 64 (4 * q.pc)
    let dest : Dword := (if f.a = 0 then here else q.kreg f.a.toNat) + f.imm.signExtend 64 <<< 2
    (q.inProgram dest → SeqGoes s die n q (execSeqJmp f s) (dest.toNat / 4) none ∧ SeqGoes s die n q (execSeqJal f s) (dest.toNat / 4) (some (f.d.toNat, here + 4))) ∧
    (¬ q.inProgram dest → SeqFails s q (execSeqJmp f s) ∧ SeqFails s q (execSeqJal f s)) := by
  intro here dest
  let c : SeqCtx := ⟨s, die, n, q⟩
  have target : c.target (c.base f) f.imm = dest := by
    rw [SeqCtx.target_eq, SeqCtx.base]
    simp only [beq_iff_eq]
    rfl
  have same (d : Nat) (x : Dword) : (q.setK d x).inProgram dest ↔ q.inProgram dest := by rw [Seq.inProgram, Seq.setK_prog]; rfl
  refine ⟨fun ok => ⟨seq_goes h ?_, seq_sets h ?_⟩, fun bad => ⟨seq_fails h ?_, seq_fails h ?_⟩⟩
  · exact (congrArg _ target).trans (SeqCtx.jump_inProgram ok)
  · exact (congrArg _ target).trans (SeqCtx.jump_inProgram ((same _ _).2 ok))
  · exact (congrArg _ target).trans (SeqCtx.jump_outside bad)
  · exact (congrArg _ target).trans (SeqCtx.jump_outside (mt (same _ _).1 bad))

theorem execSeqStop_puts : execSeqStop s = SeqCtx.put ⟨s, die, n, q⟩ { q with stopped := true } := seqWord_runs h _

theorem execSeqUndecodableWord_fails {w : Word} (look : q.prog[q.pc]? = some w) (no : undecodable w = true) : SeqFails s q (execSeqUndecodableWord w s) :=
  seq_fails h (by dsimp only; rw [look]; simp [no])

end

/-- Settles O41: a word goes on with a register set, goes on with none, or stops the sequencer. -/
theorem sequencerWords : Obligations.SequencerWords := by
  intro a i s die n q h
  refine ⟨runK_goes h a fun x y => x + y, runK_goes h a fun x y => x - y, runK_goes h a fun x y => x * y, runK_goes h a fun x y => x &&& y,
    runK_goes h a fun x y => x ||| y, runK_goes h a fun x y => x ^^^ y, runK_goes h a fun x y => x <<< (y.toNat % 64), runK_goes h a fun x y => x >>> (y.toNat % 64),
    runK_goes h a fun x y => x.sshiftRight (y.toNat % 64), execSeqAddi_goes h i, execSeqLih_goes h i, execSeqNop_goes h, ⟨fun aligned inside => ?store, fun bad => ?away⟩,
    ⟨runBranch_goes h i (fun x y => x == y) _ rfl, runBranch_goes h i (fun x y => x != y) _ rfl, runBranch_goes h i (fun x y => x.toInt < y.toInt) _ rfl,
      runBranch_goes h i (fun x y => y.toInt ≤ x.toInt) _ rfl, jumps_go h i⟩, ?stop, fun w => execSeqUndecodableWord_fails h⟩
  case store =>
    exact ⟨execSeqLd_goes h i rfl aligned inside, _, _, execSeqSt_puts h i rfl aligned inside, Map.look_put_same _ _ _, rfl, rfl, rfl,
      fun b => Seq.byteAt_writeStore q _ b _⟩
  case away => exact ⟨execSeqLd_fails h i rfl bad, execSeqSt_fails h i rfl bad⟩
  case stop => exact ⟨_, _, execSeqStop_puts h, Map.look_put_same _ _ _, rfl, rfl, rfl⟩

end Sys2Proof.Machine

namespace Sys2Proof.Machine

/-! ### A step runs the decoded instruction (R63, R205, R209) -/

section
variable {s : State}

/-- Nothing that waits for an answer goes on where nothing waits for one. -/
theorem State.settle_of_quiet (owed : s.belfry.owed = []) (launches : ∀ e ∈ s.belfry.launches, e.2.blocksLeft ≠ 0) (regions : ∀ e ∈ s.annex.regions, e.2.owes = false) :
    s.settle = s := by
  have still {α : Type} {xs : List α} {c : α → Bool} {F : State → α → State} (none_ : ∀ x ∈ xs, c x = false) : xs.foldl (fun s x => if c x then F s x else s) s = s :=
    List.foldlRecOn xs _ (motive := fun t : State => t = s) rfl fun t h x here => by rw [if_neg (by simp [none_ x here]), h]
  unfold State.settle
  dsimp only
  rw [owed, List.isEmpty_nil, if_pos rfl, still fun e here => by simpa using launches e here, still regions]

theorem State.latch_of_quiet (awaiting : s.faults.awaiting = []) : s.latch = s := by
  unfold State.latch
  rw [awaiting, List.isEmpty_nil]
  exact if_pos rfl

/-- Where no region is loaded, all of the time passes. -/
theorem State.advance_of_quiet (insts : s.annex.insts = []) (dt : Nat) : s.advance dt = ({ s with now := s.now + dt }, true) := by
  unfold State.advance
  rw [insts, List.isEmpty_nil]
  rfl

/-- What comes before an act: what waited goes on, what was written is kept, and time passes. The flag says whether the act happens. -/
def State.before (s : State) (dt : Nat) : State × Bool := ({ s with agent := .nobody } : State).settle.latch.advance dt

theorem State.before_of_quiet (owed : s.belfry.owed = []) (launches : ∀ e ∈ s.belfry.launches, e.2.blocksLeft ≠ 0) (regions : ∀ e ∈ s.annex.regions, e.2.owes = false)
    (awaiting : s.faults.awaiting = []) (insts : s.annex.insts = []) (dt : Nat) : s.before dt = ({ s with agent := .nobody, now := s.now + dt }, true) := by
  let x : State := { s with agent := .nobody }
  have settled : x.settle = x := State.settle_of_quiet owed launches regions
  have latched : x.latch = x := State.latch_of_quiet awaiting
  rw [State.before, settled, latched, State.advance_of_quiet (s := x) insts]

/-- An agent's turn, once its time has passed, is its move. -/
theorem State.take_agent {dt : Nat} (a : Agent) (passed : (s.before dt).2 = true) : s.take dt (.agent a) = ({ (s.before dt).1 with agent := a } : State).move :=
  if_pos passed

theorem State.take_waits {dt : Nat} (a : Act) (waits : (s.before dt).2 = false) : s.take dt a = .next { (s.before dt).1 with agent := s.agent } :=
  if_neg (ne_true_of_eq_false waits)

theorem State.turn_event {i : Instr} (kind : i.kind = .event ∨ i.kind = .firing) (known : ∀ w, i ≠ .seqUndecodableWord w) : s.turn (.event i) = exec i s := by
  unfold State.turn
  dsimp only
  split
  · exact absurd rfl (known _)
  · rcases kind with kind | kind <;> rw [kind]

theorem State.take_event {dt : Nat} {i : Instr} (passed : (s.before dt).2 = true) (kind : i.kind = .event ∨ i.kind = .firing) (known : ∀ w, i ≠ .seqUndecodableWord w) :
    s.take dt (.event i) = keepAgent (.event i) s.agent (exec i (s.before dt).1) := by
  rw [← State.turn_event kind known]
  exact if_pos passed

section
variable {r : StrandRef} {g : Group} {st : Strand} (at_ : s.strandAt r = some (g, st)) (run : g.mayRun = true)
include at_ run

theorem State.moveStrand_ready (free : g.calling = false) (ready : st.wait = .ready) : s.moveStrand r = s.moveReady r g st := by
  simp [State.moveStrand, at_, run, free, ready, Wait.reserved]

/-- While a strand of the group waits in `gate`, no other word of the group issues (R156). -/
theorem State.moveStrand_held (calling : g.calling = true) (ready : st.wait = .ready) : s.moveStrand r = .next s := by
  simp [State.moveStrand, at_, run, calling, ready, Wait.reserved]

theorem State.moveStrand_gate {e : GateEntry} {n d : Nat} (waits : st.wait = .gate e n d) : s.moveStrand r = .next (s.openGate r) := by
  simp [State.moveStrand, at_, run, waits, Wait.reserved]

end

section
variable {r : StrandRef} {g : Group} {st : Strand} {w : Dword} {wts : Time} (fetched : s.fetch r.core g st.pc = .word w wts)
include fetched

theorem State.moveReady_word {i : Instr} (decoded : decodeCore w = .ok i) :
    s.moveReady r g st = if s.stalls r then exec i s else if s.mayIssue r then exec i (s.issues r g wts) else .next s := by
  simp only [State.moveReady, fetched, decoded]

theorem State.moveReady_illegal {e : DecodeError} (undecoded : decodeCore w = .error e) (may : s.mayIssue r = true) :
    s.moveReady r g st = .next ((s.issues r g wts).takeFault r st.pc { code := faultIllegal, detail := w }) := by
  simp only [State.moveReady, fetched, undecoded, may, if_true]

end

theorem State.moveSeq_word {die n : Nat} {q : Seq} {w : Word} {i : Instr} (look : s.annex.seqs.look (32 * die + n) = some q) (going : q.stopped = false)
    (here : q.prog[q.pc]? = some w) (decoded : decodeCompact w = .ok i) : s.moveSeq die n = exec i s := by
  simp [State.moveSeq, look, going, here, decoded]

theorem State.movePort_word {die port : Nat} {q : Port} {w : BitVec 128} {ws : List (BitVec 128)} {i : Instr} (look : s.annex.ports.look (64 * die + port) = some q)
    (head : q.queue = w :: ws) (decoded : decodeStream w = .ok i) : s.movePort die port = exec i s := by
  simp [State.movePort, look, head, decoded]

end

/-- A strand that is ready runs its word: it issues it, looks again at one that stalls, waits for its turn, or takes ILLEGAL. -/
theorem State.moveStrand_runs (s : State) (r : StrandRef) (g : Group) (st : Strand) (w : Dword) (wts : Time) (at_ : s.strandAt r = some (g, st)) (run : g.mayRun = true) (free : g.calling = false)
    (ready : st.wait = .ready) (fetched : s.fetch r.core g st.pc = .word w wts) :
    (∀ i, decodeCore w = .ok i → (s.stalls r = false → s.mayIssue r = true → s.moveStrand r = exec i (s.issues r g wts)) ∧ (s.stalls r = true → s.moveStrand r = exec i s) ∧
      (s.stalls r = false → s.mayIssue r = false → s.moveStrand r = .next s)) ∧
    ∀ e, decodeCore w = .error e → s.mayIssue r = true → s.moveStrand r = .next ((s.issues r g wts).takeFault r st.pc { code := faultIllegal, detail := w }) := by
  rw [State.moveStrand_ready at_ run free ready]
  refine ⟨fun i decoded => ?_, fun e => State.moveReady_illegal fetched⟩
  rw [State.moveReady_word fetched decoded]
  exact ⟨fun goes may => by rw [if_neg (by simp [goes]), if_pos may], fun stalls => if_pos stalls, fun goes waits => by rw [if_neg (by simp [goes]), if_neg (by simp [waits])]⟩

/-- With an empty schedule, a strand whose move it is moves in the next cc. -/
theorem step_alone {s : State} {r : StrandRef} (empty : s.schedule = []) (agent : s.agent = .strand r) (passes : s.before 1 = ({ s with agent := .nobody, now := s.now + 1 }, true)) :
    step s = ({ s with now := s.now + 1 } : State).moveStrand r := by
  have same : ({ s with now := s.now + 1 } : State) = { s with agent := .strand r, now := s.now + 1 } := by rw [← agent]
  have taken : step s = s.take 1 (.agent s.agent) := by rw [step, empty]
  rw [taken, same, agent, State.take_agent _ (by rw [passes]), passes]
  rfl

/-- Settles O57: time passes, and what then stands at the head of the schedule happens. -/
theorem stepRunsDecoded : Obligations.StepRunsDecoded := by
  intro s dt rest at_ quiet runs holds kept begun
  let x : State := { s with schedule := rest }
  have passes (y : State) (n : Nat) : quiet y → y.before n = ({ y with agent := .nobody, now := y.now + n }, true) :=
    fun ⟨owed, launches, regions, awaiting, insts⟩ => State.before_of_quiet owed launches regions awaiting insts n
  refine ⟨passes x dt, fun waits a => State.take_waits (s := x) a waits, fun passed => ⟨fun r => ?strand, ?seq, ?port, fun i kind known => ?event⟩,
    fun r empty agent h => ?alone⟩
  case strand =>
    have move : step (at_ (.agent (.strand r))) = ({ begun.1 with agent := .strand r } : State).moveStrand r := State.take_agent (s := x) _ passed
    rw [move]
    exact ⟨State.moveStrand_runs _ r, fun g st here run calling => ⟨State.moveStrand_held here run calling, fun e n d => State.moveStrand_gate here run⟩⟩
  case seq =>
    intro die n q w i look going here decoded
    exact (State.take_agent (s := x) _ passed).trans (State.moveSeq_word look going here decoded)
  case port =>
    intro die port q w ws i look head decoded
    exact (State.take_agent (s := x) _ passed).trans (State.movePort_word look head decoded)
  case event =>
    refine (State.take_event (s := x) passed kind known).trans ?_
    change keepAgent (.event i) s.agent (exec i begun.1) = kept (exec i begun.1)
    cases exec i begun.1 <;> rfl
  case alone =>
    rw [step_alone empty agent (passes s 1 h)]
    exact State.moveStrand_runs _ r

end Sys2Proof.Machine

namespace Sys2Proof

/-! ### Entries of a list set in a table -/

section
variable {α β : Type} {m : Map α} {k : Nat} {x : α} {key : β → Nat} {val : β → α} {ys : List β}

/-- A key that no entry of the list has keeps what it had. -/
theorem Map.look_foldl_put_other (other : ∀ y ∈ ys, key y ≠ k) : Map.look (ys.foldl (fun m y => m.put (key y) (val y)) m) k = m.look k := by
  induction ys generalizing m with
  | nil => rfl
  | cons y ys ih =>
    rw [List.foldl_cons, ih fun z hz => other z (List.mem_cons_of_mem _ hz), Map.look_put_other _ _ (other y List.mem_cons_self).symm]

/-- A key that some entry of the list has takes the value, if all such entries have it. -/
theorem Map.look_foldl_put {y : β} (here : y ∈ ys) (at_ : key y = k) (same : ∀ y ∈ ys, key y = k → val y = x) :
    Map.look (ys.foldl (fun m y => m.put (key y) (val y)) m) k = some x := by
  induction ys generalizing m y with
  | nil => cases here
  | cons z ys ih =>
    have same' (y) (hy : y ∈ ys) := same y (List.mem_cons_of_mem z hy)
    rw [List.foldl_cons]
    by_cases later : ∃ y ∈ ys, key y = k
    · obtain ⟨y, hy, e⟩ := later
      exact ih hy e same'
    · have none_ : ∀ y ∈ ys, key y ≠ k := fun y hy e => later ⟨y, hy, e⟩
      rw [Map.look_foldl_put_other none_]
      rcases List.mem_cons.1 here with rfl | hy
      · rw [← same y List.mem_cons_self at_, ← at_, Map.look_put_same]
      · exact absurd at_ (none_ y hy)

/-- A table over the numbers below `n`. -/
theorem Map.look_foldl_range {f : Nat → α} {n i : Nat} (h : i < n) : Map.look ((List.range n).foldl (fun m j => m.put j (f j)) m) i = some (f i) :=
  Map.look_foldl_put (key := fun j => j) (val := f) (List.mem_range.2 h) rfl fun _ _ e => by rw [e]

end

/-- What one entry of a list brings about, and every other entry keeps, holds after all of them. -/
theorem foldl_establishes {σ β : Type} {P : σ → Prop} {F : σ → β → σ} {xs : List β} {x : β} (here : x ∈ xs) (sets : ∀ t, P (F t x)) (keeps : ∀ t y, P t → P (F t y)) (s : σ) :
    P (xs.foldl F s) :=
  foldl_reaches (I := fun _ => True) here (fun _ _ _ => trivial) (fun t _ => sets t) keeps trivial

end Sys2Proof

namespace Sys2Proof.Machine

section
variable {s : State} {i : Instr}

theorem State.domain_setDomain (s : State) (d n : Nat) (x : Domain) : (s.setDomain d x).domain n = if n = d then x else s.domain n := Map.get_set _ _ _ _ _
theorem State.core_onCore (s : State) (c n : Nat) (f : Core → Core) : (s.onCore c f).core n = if n = c then f (s.core c) else s.core n := Map.get_set _ _ _ _ _

/-- The instruction leads to a state with the fused identity as it was, of which `p` holds. -/
def Ends (s : State) (i : Instr) (p : State → Prop) : Prop := ∃ t, exec i s = .next t ∧ t.keep.uds = s.keep.uds ∧ p t

/-- No instruction changes the fused identity (O58). -/
theorem Ends.of {p : State → Prop} {t : State} (e : exec i s = .next t) (h : p t) : Ends s i p := ⟨t, e, ((Steady.refl s).exec_preserves t e).uds, h⟩

theorem Ends.of_exists {p : State → Prop} (h : ∃ t, exec i s = .next t ∧ p t) : Ends s i p := by
  obtain ⟨t, e, ht⟩ := h
  exact Ends.of e ht

/-! ### Images (R395-R398) -/

section
variable {k k' : Keep} {n m : Nat}

theorem Keep.kind_setKind (k : Keep) (n m : Nat) (f : Firmware) : (k.setKind n f).kind m = if m = n then f else k.kind m := by
  unfold Keep.kind Keep.setKind Map.get
  rw [Map.look_put]
  split <;> rfl

@[simp] theorem Keep.loadKind_firmware (k : Keep) (id n : Nat) : (k.loadKind id n).firmware = k.firmware := by
  unfold Keep.loadKind
  split <;> rfl

@[simp] theorem Keep.loadKind_firstStack (k : Keep) (id n : Nat) : (k.loadKind id n).firstStack = k.firstStack := by
  unfold Keep.loadKind
  split <;> rfl

@[simp] theorem Keep.kind_loadKind (k : Keep) (id n m : Nat) : (k.loadKind id n).kind m = k.kind m := by rw [Keep.kind, Keep.loadKind_firmware, Keep.kind]

/-- The kind's firmware once the image of a slot is accepted: it is measured there (R396). -/
def Firmware.accepted (f : Firmware) (b : Bool) (i : Image) : Firmware :=
  { f with loaded := some i }.setSlot b { image := some i, measurement := imageMeasurement i, svn := i.svn, key := i.key }

theorem Keep.trySlot_some {b : Bool} {i : Image} (image : ((k.kind n).slot b).image = some i) (good : k.accepts i n = true) :
    k.trySlot n b = some (k.setKind n ((k.kind n).accepted b i)) := by
  unfold Keep.trySlot
  simp only [image, good, if_true]
  rfl

theorem Keep.trySlot_none {b : Bool} (bad : ∀ i, ((k.kind n).slot b).image = some i → k.accepts i n = false) : k.trySlot n b = none := by
  unfold Keep.trySlot
  dsimp only
  split
  · rfl
  · next i image => rw [if_neg (by simp [bad i image])]

/-- A slot that is tried changes firmware alone. -/
theorem Keep.trySlot_firstStack {b : Bool} (e : k.trySlot n b = some k') : k'.firstStack = k.firstStack := by
  unfold Keep.trySlot at e
  dsimp only at e
  split at e
  · cases e
  · split at e <;> cases e
    rfl

theorem Keep.bootKind_firstStack (e : k.bootKind n = some k') : k'.firstStack = k.firstStack := by
  unfold Keep.bootKind at e
  dsimp only at e
  split at e
  · next tried =>
    cases e
    have kept := Keep.trySlot_firstStack tried
    exact kept
  · split at e
    · next tried =>
      cases e
      have kept := Keep.trySlot_firstStack tried
      exact kept
    · cases e

theorem Keep.bootMore_firstStack {id : Nat} {ns : List Nat} : (k.bootMore id ns).firstStack = k.firstStack := by
  refine List.foldlRecOn ns _ (motive := fun x : Keep => x.firstStack = k.firstStack) rfl fun x hx n _ => ?_
  split
  · next boots => rw [Keep.loadKind_firstStack, Keep.bootKind_firstStack boots, hx]
  · exact hx

end

/-! ### Start-up (R392-R394) -/

theorem powerGood_starts (off : s.boot = .off) : Ends s (.powerGood Config.romDigest) fun t => t.boot = .stage0 ∧ t.now = 0 ∧ t.keep.failure = none ∧
    t.keep.idPub = some (Config.falconPublic (Config.shake (leBytes 64 s.keep.uds.toNat ++ label "identity") 384)) := by
  have e : execPowerGood Config.romDigest s = .next _ := (if_neg (by simp [off])).trans (if_neg (by simp))
  exact Ends.of e ⟨rfl, rfl, rfl, rfl⟩

theorem powerGood_stops {digest : Nat} (off : s.boot = .off) (wrong : digest ≠ Config.romDigest) :
    Ends s (.powerGood digest) fun t => t.boot = .off ∧ t.keep.failure = some 0 := by
  have e : execPowerGood digest s = .next _ := (if_neg (by simp [off])).trans (if_pos (by simpa using wrong))
  exact Ends.of e ⟨off, rfl⟩

theorem stage1Entry_stops {k : Keep} {n : Nat} {c m : Option Nat} (boot : s.boot = .stage0) (good : s.keep.failure = none) (bad : s.keep.bootStage1 = (k, some n)) :
    Ends s (.stage1Entry c m) fun t => t.boot = .stage0 ∧ t.keep.failure = some n ∧ t.keep.firmware = k.firmware ∧ ∀ c' m', exec (.stage1Entry c' m') t = .next t := by
  have e : execStage1Entry c m s = .next (s.onKeep fun _ => { k with failure := some n }).reportChanged := by
    unfold execStage1Entry
    rw [if_neg (by simp [boot, good]), bad]
  exact Ends.of e ⟨boot, rfl, rfl, fun c' m' => if_pos (Bool.or_eq_true_iff.2 (.inr rfl))⟩

theorem State.startCores_eq (s : State) (k : Nat) : ∃ cs, s.startCores k = { s with cores := cs } :=
  List.foldlRecOn (clusterCores k) _ (motive := fun t : State => ∃ cs, t = { s with cores := cs }) ⟨_, rfl⟩ fun t h c _ => by
    obtain ⟨cs, rfl⟩ := h
    exact ⟨_, rfl⟩

/-- A fold over cores that only ever sets the service of a core leaves it set. -/
theorem State.startCores_service {k c : Nat} : ((s.startCores k).core c).service = (decide (c ∈ clusterCores k) || (s.core c).service) := by
  unfold State.startCores
  generalize clusterCores k = cs
  induction cs generalizing s with
  | nil => simp
  | cons x cs ih =>
    rw [List.foldl_cons, ih, State.core_onCore]
    by_cases here : c = x <;> simp [here]

/-- The gate table of a domain that manages others (R399, LOG 159). -/
def withCurator (m : Map GateEntry) : Map GateEntry := Config.curatorGates.foldl (fun m e => m.put e.1 (gateOf e.2)) m

theorem State.installCurator_domain (s : State) (m n : Nat) : (s.installCurator m).domain n =
    if n = m then { s.domain m with gates := withCurator (s.domain m).gates } else s.domain n :=
  State.domain_setDomain _ _ _ _

end

end Sys2Proof.Machine

namespace Sys2Proof.Machine

section
variable {s : State} {i : Instr}

/-- Granules are given: cores, groups, domains and the rest stay. -/
theorem State.giveGranules_eq (s : State) (d : Nat) (gs : List Nat) :
    ∃ mem links, s.giveGranules d gs = { s with mem := mem, links := links, keep := { s.keep with owners := gs.foldl (fun o g => o.put g d) s.keep.owners } } := by
  unfold State.giveGranules
  dsimp only
  generalize e : List.foldl _ s _ = t
  obtain ⟨m, l, rfl⟩ : ∃ m l, t = { s with mem := m, links := l } := by
    rw [← e]
    refine List.foldlRecOn _ _ (motive := fun t : State => ∃ m l, t = { s with mem := m, links := l }) ⟨_, _, rfl⟩ fun t h line _ => ?_
    obtain ⟨m, l, rfl⟩ := h
    exact State.evictLine_eq _ _ _ _
  exact ⟨_, _, rfl⟩

@[simp] theorem State.giveGranules_core {d : Nat} {gs : List Nat} {n : Nat} : (s.giveGranules d gs).core n = s.core n := by
  obtain ⟨_, _, e⟩ := s.giveGranules_eq d gs
  rw [e]
  rfl

@[simp] theorem State.giveGranules_groups {d : Nat} {gs : List Nat} : (s.giveGranules d gs).groups = s.groups := by
  obtain ⟨_, _, e⟩ := s.giveGranules_eq d gs
  rw [e]

@[simp] theorem State.giveGranules_domain {d : Nat} {gs : List Nat} {n : Nat} : (s.giveGranules d gs).domain n = s.domain n := by
  obtain ⟨_, _, e⟩ := s.giveGranules_eq d gs
  rw [e]
  rfl

@[simp] theorem State.startCores_fresh {k : Nat} : (s.startCores k).fresh = s.fresh := by
  obtain ⟨_, e⟩ := s.startCores_eq k
  rw [e]

/-- Domain 0 as stage 1 leaves it. -/
theorem State.root_domain (t : State) (x : Domain) :
    (({ t.setDomain 0 x with boot := .stage1 } : State).installCurator 0).reportChanged.domain 0 = { x with gates := withCurator x.gates } := by
  have made := State.installCurator_domain (({ t with boot := .stage1 } : State).setDomain 0 x) 0 0
  rw [if_pos rfl, State.domain_setDomain, if_pos rfl] at made
  exact made

theorem State.root_core (t : State) (x : Domain) (n : Nat) :
    (({ t.setDomain 0 x with boot := .stage1 } : State).installCurator 0).reportChanged.core n = t.core n := rfl

theorem State.drawKey_key (s : State) : s.drawKey.1 = Config.random s.fresh := rfl
theorem State.drawKey_core (s : State) (n : Nat) : s.drawKey.2.core n = s.core n := rfl

/-- The cores of a cluster that starts are in service. -/
theorem State.startCores_starts {k n : Nat} (mine : n ∈ clusterCores k) : ((s.startCores k).core n).service = true := by
  rw [State.startCores_service, decide_eq_true mine, Bool.true_or]

theorem stage1Entry_starts {k : Keep} {c m : Nat} (boot : s.boot = .stage0) (good : s.keep.failure = none) (loads : s.keep.bootStage1 = (k, none)) :
    Ends s (.stage1Entry (some c) (some m)) fun t => t.boot = .stage1 ∧ (t.domain 0).state = .active ∧ (t.domain 0).service = true ∧ (t.domain 0).manager = 0 ∧
      (t.domain 0).key = some (Config.random s.fresh) ∧ ∀ i, i < 24 → (t.core (24 * (c % 16) + i)).service = true := by
  apply Ends.of_exists
  change ∃ t, execStage1Entry (some c) (some m) s = .next t ∧ _
  unfold execStage1Entry
  rw [if_neg (by simp [boot, good]), loads]
  refine ⟨_, rfl, ?_⟩
  simp only [State.root_domain, State.root_core, State.drawKey_key, State.drawKey_core, State.startCores_fresh, State.giveGranules_core]
  refine ⟨rfl, trivial, trivial, trivial, rfl, fun i hi => ?_⟩
  rw [State.startCores_starts (List.mem_map_of_mem (List.mem_range.2 hi))]

end
end Sys2Proof.Machine

namespace Sys2Proof.Machine

section
variable {s : State} {i : Instr}

/-! ### Stage 2 (R392) -/

/-- Stage 2's handling of one cluster: it starts, or is retired. -/
def State.trainCluster (bad : List Nat) (s : State) (k : Nat) : State :=
  if bad.contains k then (clusterCores k).foldl (fun s c => s.onCore c fun x => { x with retired := true }) s else s.startCores k

theorem State.trainCluster_eq (bad : List Nat) (s : State) (k : Nat) : ∃ cs, s.trainCluster bad k = { s with cores := cs } := by
  unfold State.trainCluster
  split
  · exact List.foldlRecOn (clusterCores k) _ (motive := fun t : State => ∃ cs, t = { s with cores := cs }) ⟨_, rfl⟩ fun t h c _ => by
      obtain ⟨cs, rfl⟩ := h
      exact ⟨_, rfl⟩
  · exact s.startCores_eq k

/-- A core in service stays so. -/
theorem State.trainCluster_keeps {bad : List Nat} {k c : Nat} (on : (s.core c).service = true) : ((s.trainCluster bad k).core c).service = true := by
  unfold State.trainCluster
  split
  · refine List.foldlRecOn (clusterCores k) _ (motive := fun t : State => (t.core c).service = true) on fun t h x _ => ?_
    rw [State.core_onCore]
    split
    · next same => exact same ▸ h
    · exact h
  · rw [State.startCores_service, on, Bool.or_true]

theorem State.trainClusters_eq (bad ks : List Nat) (s : State) : ∃ cs, ks.foldl (State.trainCluster bad) s = { s with cores := cs } :=
  List.foldlRecOn ks _ (motive := fun t : State => ∃ cs, t = { s with cores := cs }) ⟨_, rfl⟩ fun t h k _ => by
    obtain ⟨cs, rfl⟩ := h
    exact State.trainCluster_eq _ _ _

theorem State.trainClusters_fresh (bad ks : List Nat) (s : State) : (ks.foldl (State.trainCluster bad) s).fresh = s.fresh := by
  obtain ⟨cs, e⟩ := State.trainClusters_eq bad ks s
  rw [e]

theorem State.trainClusters_keep (bad ks : List Nat) (s : State) : (ks.foldl (State.trainCluster bad) s).keep = s.keep := by
  obtain ⟨cs, e⟩ := State.trainClusters_eq bad ks s
  rw [e]

/-- Every good cluster of the list is in service when all are trained. -/
theorem State.trainClusters_starts {bad ks : List Nat} {k c : Nat} (here : k ∈ ks) (good : k ∉ bad) (mine : c ∈ clusterCores k) :
    ((ks.foldl (State.trainCluster bad) s).core c).service = true := by
  refine foldl_establishes (P := fun t : State => (t.core c).service = true) here (fun t => ?_) (fun t y on => State.trainCluster_keeps on) s
  rw [State.trainCluster, if_neg (by simpa using good)]
  exact State.startCores_starts mine

/-- The table of a function on the numbers below `n`. -/
def numbered {α : Type} (n : Nat) (f : Nat → α) : Map α := (List.range n).foldl (fun m k => m.put k (f k)) []

theorem look_numbered {α : Type} {n k : Nat} {f : Nat → α} (h : k < n) : (numbered n f).look k = some (f k) := Map.look_foldl_range h

/-- The rest of stage 2, once the clusters are trained (R237, R374, R392). -/
def State.enterStage2 (s : State) (bad : TrainingReport) : State :=
  let ports := numbered 36 (s.trainPort bad.ports)
  let routes := numbered 1024 fun d => Config.routeTo d % 36
  let t := { s with fresh := s.fresh + 1, service := { s.service with stacksRetired := bad.stackList.filter fun k => k < 16 && s.keep.firstStack != some k, diesRetired := bad.dies.filter (· < 16) }, links := { s.links with ports := ports, routes := routes } }
  ({ t with boot := .stage2, mem := { t.mem with xclk := t.floor } } : State).reportChanged

theorem State.enterStage2_routes (s : State) (bad : TrainingReport) : (s.enterStage2 bad).links.routes = numbered 1024 fun d => Config.routeTo d % 36 := by
  dsimp only [State.enterStage2, State.reportChanged]

theorem State.enterStage2_ports (s : State) (bad : TrainingReport) : (s.enterStage2 bad).links.ports = numbered 36 (s.trainPort bad.ports) := by
  dsimp only [State.enterStage2, State.reportChanged]

/-- The clusters that stage 2 trains: none of their cores is in service. -/
def State.untrained (s : State) : List Nat := (List.range 16).filter fun k => !(clusterCores k).any fun c => (s.core c).service

theorem execStage2Entry_eq (bad : TrainingReport) (boot : s.boot = .stage1) :
    ∃ r : State, r.keep.firstStack = s.keep.firstStack ∧ r.fresh = s.fresh ∧ r.cores = s.cores ∧
      execStage2Entry bad s = .next ((r.untrained.foldl (State.trainCluster bad.clusters) r).enterStage2 bad) :=
  ⟨({ s with nextId := s.nextId + 1 } : State).onKeep fun k => k.bootMore s.nextId [6], Keep.bootMore_firstStack, rfl, rfl, if_neg (by simp [boot])⟩

theorem stage2Entry_ends (bad : TrainingReport) (boot : s.boot = .stage1) : Ends s (.stage2Entry bad) fun t => t.boot = .stage2 ∧ t.mem.xclk = t.floor ∧
    (∀ k, k < 16 → k ∈ bad.stackList → s.keep.firstStack ≠ some k → k ∈ t.service.stacksRetired) ∧
    (∀ k, k < 16 → k ∈ bad.dies → k ∈ t.service.diesRetired) ∧ (∀ d, d < 1024 → t.links.routes.look d = some (Config.routeTo d % 36)) ∧
    (∀ p, p < 36 → p ∉ bad.ports → ∃ x, t.links.ports.look p = some x ∧ x.up = true ∧ x.lanes = 8 ∧ x.key = some (Config.linkKey p s.fresh)) ∧
    (∀ p, p < 36 → p ∈ bad.ports → ∃ x, t.links.ports.look p = some x ∧ x.up = false ∧ x.lanes = 0 ∧ x.retired = true) ∧
    ∀ k, k < 16 → k ∉ bad.clusters → (∀ c ∈ clusterCores k, (s.core c).service = false) → ∀ c ∈ clusterCores k, (t.core c).service = true := by
  obtain ⟨r, first, fresh, cores, e⟩ := execStage2Entry_eq bad boot
  have starts (k) (hk : k < 16) (good : k ∉ bad.clusters) (off : ∀ c ∈ clusterCores k, (s.core c).service = false) (c) (mine : c ∈ clusterCores k) :
      ((r.untrained.foldl (State.trainCluster bad.clusters) r).core c).service = true := by
    have listed : k ∈ r.untrained := by simpa [State.untrained, State.core, cores, hk] using off
    exact State.trainClusters_starts listed good mine
  have first' := (congrArg Keep.firstStack (State.trainClusters_keep bad.clusters r.untrained r)).trans first
  have fresh' := (State.trainClusters_fresh bad.clusters r.untrained r).trans fresh
  refine Ends.of e ?_
  generalize r.untrained.foldl (State.trainCluster bad.clusters) r = t at starts first' fresh'
  refine ⟨rfl, rfl, fun k hk failed other => ?_, fun k hk failed => ?_, fun d hd => ?_, fun p hp good => ?_, fun p hp failed => ?_, starts⟩
  · exact List.mem_filter.2 ⟨failed, by simpa [hk, first'] using other⟩
  · exact List.mem_filter.2 ⟨failed, by simpa using hk⟩
  · rw [State.enterStage2_routes, look_numbered hd]
  · have good' : t.trainPort bad.ports p = { up := true, key := some (Config.linkKey p t.fresh) } := if_neg (by simpa using good)
    rw [State.enterStage2_ports, look_numbered hp, good', fresh']
    exact ⟨_, rfl, rfl, rfl, rfl⟩
  · have failed' : t.trainPort bad.ports p = { up := false, lanes := 0, retired := true } := if_pos (by simpa using failed)
    rw [State.enterStage2_ports, look_numbered hp, failed']
    exact ⟨_, rfl, rfl, rfl, rfl⟩

/-! ### Power loss, and the operator's key -/

theorem powerLoss_ends : Ends s .powerLoss fun t => t.boot = .off ∧ t.groups = [] ∧ t.blocks = [] ∧ t.mem = State.reset.mem ∧ t.domains = [] ∧ t.keep.arb = s.keep.arb ∧
    t.keep.idPub = none ∧ t.keep.operatorKey = none :=
  ⟨_, rfl, rfl, rfl, rfl, rfl, rfl, rfl, rfl, rfl, rfl⟩

theorem operatorKeyEnroll_once (key : Nat) (boot : s.boot = .stage0) (none_ : s.keep.operatorKey = none) :
    Ends s (.operatorKeyEnroll key) fun t => t.keep.operatorKey = some key ∧ ∀ k', exec (.operatorKeyEnroll k') t = .next t := by
  have e : execOperatorKeyEnroll key s = .next _ := if_neg (by simp [boot, none_])
  exact Ends.of e ⟨rfl, fun k' => if_pos (Bool.or_eq_true_iff.2 (.inr rfl))⟩

end
end Sys2Proof.Machine

namespace Sys2Proof.Machine

section
variable {s₀ s : State} {i : Instr}

/-! ### Slots, switches, commits (R395, R397, R398) -/

@[simp] theorem Firmware.slot_setSlot (f : Firmware) (b c : Bool) (x : Slot) : (f.setSlot b x).slot c = if c = b then x else f.slot c := by
  cases b <;> cases c <;> rfl

@[simp] theorem Firmware.setSlot_activeB (f : Firmware) (b : Bool) (x : Slot) : (f.setSlot b x).activeB = f.activeB := by
  cases b <;> rfl

@[simp] theorem Firmware.setSlot_loaded (f : Firmware) (b : Bool) (x : Slot) : (f.setSlot b x).loaded = f.loaded := by
  cases b <;> rfl

/-- A marker that moves leaves the slots alone. -/
theorem Firmware.slot_mark (f : Firmware) (a u fb b : Bool) : Firmware.slot { f with activeB := a, unwritten := u, fallback := fb } b = f.slot b := rfl

/-- What a switch does to running work takes no group, no image and no setting. -/
theorem State.Serves.afterSwitch (h : s₀.Serves s) {kind : Nat} : s₀.Serves (s.afterSwitch kind) := by
  unfold State.afterSwitch
  split
  · refine State.Serves.same (State.Serves.foldl h fun t e ht => ?_)
    unfold State.uncache
    split
    · exact ht
    · exact ht.onQueue.owe
  · exact h.same
  · exact h

theorem State.afterSwitch_bytes {kind : Nat} (other : kind ≠ 2) : (s.afterSwitch kind).mem.bytes = s.mem.bytes := by
  unfold State.afterSwitch
  split
  · exact absurd rfl other
  · rfl
  · rfl

theorem slotWrite_inactive {kind : Nat} (on : s.boot ≠ .off) (pos : kind ≠ 0) (le : kind ≤ 6) (i : Image) : let f := s.keep.kind kind
    Ends s (.slotWrite kind (!f.activeB) i) fun t => (t.keep.kind kind).slot (!f.activeB) = { f.slot (!f.activeB) with image := some i } ∧
      (t.keep.kind kind).slot f.activeB = f.slot f.activeB ∧ (t.keep.kind kind).activeB = f.activeB := by
  intro f
  have e : execSlotWrite kind (!f.activeB) i s = .next _ := if_neg (by simp [on, pos, le, f])
  refine Ends.of e ?_
  have now_ : ((s.onKeep fun k => k.setKind kind (f.setSlot (!f.activeB) { f.slot (!f.activeB) with image := some i })).reportChanged).keep.kind kind =
      f.setSlot (!f.activeB) { f.slot (!f.activeB) with image := some i } := (Keep.kind_setKind _ _ _ _).trans (if_pos rfl)
  rw [now_]
  simp

theorem slotWrite_active {kind : Nat} {i : Image} : exec (.slotWrite kind (s.keep.kind kind).activeB i) s = .next s := if_pos (by simp)

/-- What R396 asks of an accepted image. -/
theorem Keep.accepts_checks {k : Keep} {i : Image} {kind : Nat} (good : k.accepts i kind = true) :
    Map.get 0 k.arb kind ≤ i.svn.toNat ∧ Config.shake i.body 512 = i.digest.toNat ∧ Config.falconVerify (k.keyOf i) (imageHeader i) i.signature = true := by
  simp only [Keep.accepts, Bool.and_eq_true, beq_iff_eq, decide_eq_true_eq] at good
  exact ⟨good.2, good.1.2, good.1.1.2⟩

theorem slotSwitch_switches {kind : Nat} (on : s.boot ≠ .off) (pos : kind ≠ 0) (le : kind ≤ 6) {i : Image} : let f := s.keep.kind kind
    f.unwritten = false → s.switchPoint kind = true → (f.slot (!f.activeB)).image = some i → s.keep.accepts i kind = true →
    Ends s (.slotSwitch kind) fun t => (t.keep.kind kind).activeB = !f.activeB ∧ (t.keep.kind kind).loaded = some i ∧
      (t.keep.kind kind).slot (!f.activeB) = { image := some i, measurement := imageMeasurement i, svn := i.svn, key := i.key } ∧
      t.groups = s.groups ∧ (kind ≠ 2 → t.mem.bytes = s.mem.bytes) ∧ ∀ n, n ≠ kind → t.keep.kind n = s.keep.kind n := by
  intro f written point image good
  let k := s.keep.setKind kind (f.accepted (!f.activeB) i)
  let k' := k.setKind kind { k.kind kind with activeB := !f.activeB, unwritten := true, fallback := false }
  let t := ({ s with nextId := s.nextId + 1 } : State).onKeep fun _ => k'.loadKind s.nextId kind
  have e : execSlotSwitch kind s = .next (t.afterSwitch kind).reportChanged := by
    unfold execSlotSwitch
    rw [if_neg (by simp [on, pos, le]), if_neg (by simpa using written), if_neg (by simp [point]), Keep.trySlot_some image good]
  have serves := (State.Serves.refl t).afterSwitch (kind := kind)
  have kinds (n : Nat) : (t.afterSwitch kind).reportChanged.keep.kind n =
      if n = kind then { f.accepted (!f.activeB) i with activeB := !f.activeB, unwritten := true, fallback := false } else s.keep.kind n := by
    have loads : (t.afterSwitch kind).reportChanged.keep.kind n = k'.kind n := (congrArg (Keep.kind · n) serves.keep).trans (Keep.kind_loadKind _ _ _ _)
    rw [loads, Keep.kind_setKind, Keep.kind_setKind, Keep.kind_setKind, if_pos rfl]
    split <;> rfl
  have slot : (f.accepted (!f.activeB) i).slot (!f.activeB) = { image := some i, measurement := imageMeasurement i, svn := i.svn, key := i.key } := by
    rw [Firmware.accepted, Firmware.slot_setSlot, if_pos rfl]
  have loaded : (f.accepted (!f.activeB) i).loaded = some i := by rw [Firmware.accepted, Firmware.setSlot_loaded]
  refine Ends.of e ⟨?_, ?_, ?_, serves.groups, State.afterSwitch_bytes, fun n other => (kinds n).trans (if_neg other)⟩
  · rw [kinds, if_pos rfl]
  · rw [kinds, if_pos rfl]
    exact loaded
  · rw [kinds, if_pos rfl, ← slot]
    exact Firmware.slot_mark _ _ _ _ _

theorem slotSwitch_refuses {kind : Nat} (written : (s.keep.kind kind).unwritten = false)
    (bad : ∀ i, ((s.keep.kind kind).slot (!(s.keep.kind kind).activeB)).image = some i → s.keep.accepts i kind = false) : exec (.slotSwitch kind) s = .next s := by
  change execSlotSwitch kind s = _
  unfold execSlotSwitch
  simp [written, Keep.trySlot_none bad]

theorem commit_raises {kind : Nat} (on : s.boot ≠ .off) {i : Image} (loaded : (s.keep.kind kind).loaded = some i) (chosen : (s.keep.kind kind).fallback = false) :
    Ends s (.commit_ kind) fun t => Map.get 0 t.keep.arb kind = max (Map.get 0 s.keep.arb kind) i.svn.toNat ∧ ∀ n, n ≠ kind → Map.get 0 t.keep.arb n = Map.get 0 s.keep.arb n := by
  have e : execCommit kind s = .next (s.onKeep fun k => { k with arb := Map.set 0 k.arb kind (max (Map.get 0 k.arb kind) i.svn.toNat) }).reportChanged := by
    unfold execCommit
    simp only [loaded]
    rw [if_neg (by simp [on, chosen])]
  exact Ends.of e ⟨Map.get_set_same _ _ _ _, fun n other => (Map.get_set _ _ _ _ _).trans (if_neg other)⟩

end
end Sys2Proof.Machine

namespace Sys2Proof.Machine

section
variable {s : State}

/-! ### Granules are given to a domain (R399, R400) -/

theorem State.evictLine_dropped_bytes (s : State) (l n : Nat) : (s.evictLine l false n).mem.bytes = s.mem.bytes := by
  unfold State.evictLine
  split
  · rfl
  · simp [State.setMts, MemSys.dropL2]

/-- A line that leaves its slice stands there no more; the others stay. -/
theorem State.evictLine_dropped_l2 (s : State) (l n k : Nat) : (s.evictLine l false n).mem.l2.look k = if k = l then none else s.mem.l2.look k := by
  unfold State.evictLine
  split
  · next absent =>
    split
    · next same => rw [same, absent]
    · rfl
  · simp [State.setMts, MemSys.dropL2, Map.look_del]

/-- Lines leave their slices, and what they held is dropped. -/
def State.dropLines (s : State) (lines : List Nat) : State := lines.foldl (fun s l => s.evictLine l false 0) s

theorem State.dropLines_bytes (s : State) (lines : List Nat) : (s.dropLines lines).mem.bytes = s.mem.bytes :=
  List.foldlRecOn lines _ (motive := fun t : State => t.mem.bytes = s.mem.bytes) rfl fun t h l _ => (t.evictLine_dropped_bytes l 0).trans h

theorem State.dropLines_absent {lines : List Nat} {k : Nat} (here : k ∈ lines ∨ s.mem.l2.look k = none) : (s.dropLines lines).mem.l2.look k = none := by
  have keeps (t : State) (l : Nat) (h : t.mem.l2.look k = none) : (t.evictLine l false 0).mem.l2.look k = none := by
    rw [State.evictLine_dropped_l2, h, ite_self]
  rcases here with listed | absent
  · exact foldl_establishes (P := fun t : State => t.mem.l2.look k = none) listed (fun t => by rw [State.evictLine_dropped_l2, if_pos rfl]) keeps s
  · exact List.foldlRecOn lines _ (motive := fun t : State => t.mem.l2.look k = none) absent fun t h l _ => keeps t l h

/-- The lines of the granules that stand in a slice. -/
def State.granuleLines (s : State) (gs : List Nat) : List Nat := (s.mem.l2.filter fun e => gs.contains (e.1 / 1024)).map (·.1)

theorem State.giveGranules_bytes (s : State) (d : Nat) (gs : List Nat) : (s.giveGranules d gs).mem.bytes = s.mem.bytes.filter fun e => !gs.contains (e.1 / 64 / 1024) :=
  congrArg (List.filter _) (s.dropLines_bytes (s.granuleLines gs))

/-- The bytes of the granules read zero, and no other changes. -/
theorem State.giveGranules_byte (s : State) (d : Nat) (gs : List Nat) (a : Nat) : (s.giveGranules d gs).mem.byte a = if a / 65536 ∈ gs then 0 else s.mem.byte a := by
  rw [MemSys.byte, State.giveGranules_bytes, Map.get_filter_key 0 fun k => !gs.contains (k / 64 / 1024), Nat.div_div_eq_div_mul]
  by_cases given : a / 65536 ∈ gs
  · simp [given]
  · simp [given, MemSys.byte]

theorem State.giveGranules_l2 {gs : List Nat} {d line : Nat} (given : line / 1024 ∈ gs) : (s.giveGranules d gs).mem.l2.look line = none := by
  have dropped : (s.dropLines (s.granuleLines gs)).mem.l2.look line = none := by
    refine State.dropLines_absent ?_
    cases stands : s.mem.l2.look line with
    | none => exact .inr rfl
    | some h => exact .inl (List.mem_map.2 ⟨_, List.mem_filter.2 ⟨Map.mem_of_look stands, by simpa using given⟩, rfl⟩)
  exact dropped

theorem State.giveGranules_owner {gs : List Nat} {d g : Nat} (given : g ∈ gs) : (s.giveGranules d gs).keep.owners.look g = some d := by
  obtain ⟨_, _, e⟩ := s.giveGranules_eq d gs
  rw [e]
  exact Map.look_foldl_put (key := fun g => g) (val := fun _ => d) given rfl fun _ _ _ => rfl

/-! ### Domains are created (R399) -/

theorem domainCreate_refuses {q : DomainRequest} (service : q.service = true) (bad : s.keep.bootKind 3 = none) :
    exec (.domainCreate q) s = .next s := by
  change execDomainCreate q s = _
  unfold execDomainCreate
  rw [if_pos service, bad]
  simp

/-- A domain that is set, and whose manager gets the Curator's entries. -/
theorem State.created_domain (s : State) (n m : Nat) (x : Domain) :
    ∃ gates, ((s.setDomain n x).installCurator m).reportChanged.domain n = { x with gates := gates } ∧ (m ≠ n → gates = x.gates) := by
  change ∃ gates, ((s.setDomain n x).installCurator m).domain n = _ ∧ _
  rw [State.installCurator_domain]
  by_cases same : m = n
  · subst same
    rw [if_pos rfl, State.domain_setDomain, if_pos rfl]
    exact ⟨_, rfl, absurd rfl⟩
  · rw [if_neg (Ne.symm same), State.domain_setDomain, if_pos rfl]
    exact ⟨_, rfl, fun _ => rfl⟩

theorem State.created_manager (s : State) (n m : Nat) (x : Domain) :
    (((s.setDomain n x).installCurator m).reportChanged.domain m).gates = withCurator (if m = n then x.gates else (s.domain m).gates) := by
  change (((s.setDomain n x).installCurator m).domain m).gates = _
  rw [State.installCurator_domain, if_pos rfl, State.domain_setDomain]
  split <;> rfl

/-- The granules of a new domain, given to it under its new key; `k` is the Keep once the Curator's image is accepted. -/
def State.beforeDomain (s : State) (q : DomainRequest) (k : Keep) : State :=
  (({ s with nextId := s.nextId + 1 } : State).onKeep fun _ => if q.service then k.loadKind s.nextId 3 else k).drawKey.2.giveGranules q.domain q.granules

/-- The domain that a request asks for. -/
def domainFor (q : DomainRequest) (image : Option Image) (key root : Nat) : Domain :=
  { state := .active, service := q.service, manager := q.manager, controlBlock := q.controlBlock, faultQueue := q.faultQueue, root := root, msix := Config.msixEnabled q.domain, key := some key,
    measurement := (image.map imageMeasurement).getD 0, signer := (image.map fun i => i.key.toNat).getD 0 }

section
variable {q : DomainRequest} {k : Keep} (boot : s.boot = .stage2) (pos : q.domain ≠ 0) (lt : q.domain < 64) (manager : q.manager < 64) (free : (s.domain q.domain).state = .free)
  (answered : ∀ u, s.belfryRead q.manager q.controlBlock 8 ≠ .wait u) (granules : ∀ g ∈ q.granules, s.granuleFree g = true) (accepted : (if q.service = true then s.keep.bootKind 3 else some s.keep) = some k)
include boot pos lt manager free answered granules accepted

theorem execDomainCreate_eq : ∃ root, execDomainCreate q s = .next
    (((s.beforeDomain q k).setDomain q.domain (domainFor q (if q.service then (k.kind 3).loaded else none) (Config.random s.fresh) root)).installCurator q.manager).reportChanged := by
  unfold execDomainCreate
  rw [if_neg (by simpa [boot, pos, lt, manager, free] using granules), accepted]
  cases read : s.belfryRead q.manager q.controlBlock 8 with
  | wait u => exact absurd read (answered u)
  | ok bs t => exact ⟨_, rfl⟩
  | bad code va detail => exact ⟨_, rfl⟩

theorem domainCreate_ends : Ends s (.domainCreate q) fun t => let d := t.domain q.domain
    d.state = .active ∧ d.manager = q.manager ∧ d.controlBlock = q.controlBlock ∧ d.faultQueue = q.faultQueue ∧ d.service = q.service ∧ (q.manager ≠ q.domain → d.gates = []) ∧
    (t.domain q.manager).gates = withCurator (if q.manager = q.domain then [] else (s.domain q.manager).gates) ∧ d.key = some (Config.random s.fresh) ∧
    (∀ i, q.service = true → (k.kind 3).loaded = some i → d.measurement = imageMeasurement i) ∧ t.groups = s.groups ∧ (∀ g ∈ q.granules, t.keep.owners.look g = some q.domain) ∧
    (∀ a, a / 65536 ∈ q.granules → t.mem.byte a = 0 ∧ t.mem.l2.look (a / 64) = none) ∧ ∀ a, a / 65536 ∉ q.granules → t.mem.byte a = s.mem.byte a := by
  obtain ⟨root, e⟩ := execDomainCreate_eq boot pos lt manager free answered granules accepted
  have memory (a : Nat) : (s.beforeDomain q k).mem.byte a = if a / 65536 ∈ q.granules then 0 else s.mem.byte a := State.giveGranules_byte _ _ _ _
  have absent (a : Nat) (given : a / 65536 ∈ q.granules) : (s.beforeDomain q k).mem.l2.look (a / 64) = none := State.giveGranules_l2 (by rwa [Nat.div_div_eq_div_mul])
  have domains : (s.beforeDomain q k).domain q.manager = s.domain q.manager := State.giveGranules_domain
  have groups : (s.beforeDomain q k).groups = s.groups := State.giveGranules_groups
  have owned (g) (given : g ∈ q.granules) : (s.beforeDomain q k).keep.owners.look g = some q.domain := State.giveGranules_owner given
  generalize s.beforeDomain q k = b at e memory absent domains groups owned
  refine Ends.of e ?_
  obtain ⟨gates, made, none_⟩ := b.created_domain q.domain q.manager (domainFor q (if q.service then (k.kind 3).loaded else none) (Config.random s.fresh) root)
  dsimp only
  rw [State.created_manager, made, domains]
  refine ⟨rfl, rfl, rfl, rfl, rfl, none_, rfl, rfl, fun i service loaded => ?_, groups, owned, fun a given => ?_, fun a other => (memory a).trans (if_neg other)⟩
  · simp [domainFor, service, loaded]
  · exact ⟨(memory a).trans (if_pos given), absent a given⟩
end

end
end Sys2Proof.Machine

namespace Sys2Proof.Machine

section
variable {s : State} {d : Nat}

/-! ### Domains are released (R399) -/

/-- An entry that targets a domain loses its valid bit. -/
def clearGate (d : Nat) (e : GateEntry) : GateEntry := if bitsAt e.target.toNat 0 6 = d then { e with target := e.target &&& 0x7F } else e

theorem look_clearGates (m : Map GateEntry) (d i : Nat) : Map.look (clearGates m d) i = (m.look i).map (clearGate d) := by
  have entries : clearGates m d = m.map fun e => (e.1, clearGate d e.2) := by
    refine List.map_congr_left fun e _ => ?_
    unfold clearGate
    by_cases here : bitsAt e.2.target.toNat 0 6 = d <;> simp [here]
  rw [entries, Map.look_map_snd]

/-- A domain whose gate table has no valid entry for `d`. -/
def gatesCleared (d : Nat) (x : Domain) : Domain := { x with gates := clearGates x.gates d }

/-- The state with every gate table so. -/
def State.withoutGates (s : State) (d : Nat) : State := { s with domains := s.domains.map fun e => (e.1, gatesCleared d e.2) }

theorem State.domain_withoutGates (s : State) (d n : Nat) : (s.withoutGates d).domain n = gatesCleared d (s.domain n) := by
  change (Map.look (s.domains.map fun e => (e.1, gatesCleared d e.2)) n).getD {} = gatesCleared d ((s.domains.look n).getD {})
  rw [Map.look_map_snd]
  cases s.domains.look n <;> rfl

theorem State.tell_eq (s : State) (peer : Nat) (m : GrantMessage) : ∃ ports, s.tell peer m = { s with links := { s.links with sent := s.links.sent ++ [(peer, m)], ports := ports } } := by
  unfold State.tell State.sendFlit
  split
  · exact ⟨_, rfl⟩
  · exact ⟨s.links.ports, rfl⟩

theorem State.revokeExport_eq (s : State) (k : Nat) (x : Export) : ∃ l, s.revokeExport k x = { s with links := l } ∧ l.exports = s.links.exports.del k := by
  obtain ⟨ports, e⟩ := State.tell_eq { s with links := { s.links with exports := s.links.exports.del k, revoking := k :: s.links.revoking } } x.device (.clear k Config.deviceNumber)
  have changed := congrArg State.reportChanged e
  exact ⟨_, changed, rfl⟩

/-- The grants of a released domain are revoked. -/
def State.revokeExports (s : State) (d : Nat) : State := (s.links.exports.filter fun e => e.2.local_ == d).foldl (fun s e => s.revokeExport e.1 e.2) s

theorem State.revokeExports_eq (s : State) (d : Nat) : ∃ l, s.revokeExports d = { s with links := l } ∧ ∀ k x, l.exports.look k = some x → s.links.exports.look k = some x := by
  refine List.foldlRecOn (s.links.exports.filter fun e => e.2.local_ == d) _
    (motive := fun t : State => ∃ l, t = { s with links := l } ∧ ∀ k x, l.exports.look k = some x → s.links.exports.look k = some x) ⟨s.links, rfl, fun _ _ h => h⟩ fun t h e _ => ?_
  obtain ⟨l, rfl, fewer⟩ := h
  obtain ⟨l', e', deleted⟩ := State.revokeExport_eq { s with links := l } e.1 e.2
  refine ⟨l', e', fun k x look => fewer k x ?_⟩
  rw [deleted, Map.look_del] at look
  split at look
  · cases look
  · exact look

/-- No grant of the domain is left. -/
theorem State.revokeExports_local {k : Nat} {x : Export} (look : (s.revokeExports d).links.exports.look k = some x) : x.local_ ≠ d := by
  intro mine
  obtain ⟨l, e, fewer⟩ := s.revokeExports_eq d
  have before : s.links.exports.look k = some x := fewer k x (by rw [e] at look; exact look)
  have gone : (s.revokeExports d).links.exports.look k = none := by
    refine foldl_establishes (P := fun t : State => t.links.exports.look k = none) (List.mem_filter.2 ⟨Map.mem_of_look before, by simpa using mine⟩) (fun t => ?_) (fun t y h => ?_) s
    · obtain ⟨l, e, deleted⟩ := t.revokeExport_eq k x
      rw [e, deleted, Map.look_del_same]
    · obtain ⟨l, e, deleted⟩ := t.revokeExport_eq y.1 y.2
      rw [e, deleted, Map.look_del, h, ite_self]
  rw [gone] at look
  cases look

/-- The devices that granted something to a released domain are told. -/
def State.tellReleased (s : State) (d : Nat) : State := (s.domain d).imports.foldl (fun s e => s.tell e.2.device (.released (e.1 % 2 ^ 32) Config.deviceNumber)) s

theorem State.tellReleased_eq (s : State) (d : Nat) : ∃ l, s.tellReleased d = { s with links := l } ∧ l.exports = s.links.exports := by
  refine List.foldlRecOn (s.domain d).imports _ (motive := fun t : State => ∃ l, t = { s with links := l } ∧ l.exports = s.links.exports) ⟨s.links, rfl, rfl⟩ fun t h e _ => ?_
  obtain ⟨l, rfl, same⟩ := h
  obtain ⟨ports, e'⟩ := State.tell_eq { s with links := l } e.2.device (.released (e.1 % 2 ^ 32) Config.deviceNumber)
  rw [e']
  exact ⟨_, rfl, same⟩

theorem State.tellReleased_sent {k : Nat} {x : Import} (look : (s.domain d).imports.look k = some x) :
    (x.device, GrantMessage.released (k % 2 ^ 32) Config.deviceNumber) ∈ (s.tellReleased d).links.sent := by
  refine foldl_establishes (P := fun t : State => (x.device, GrantMessage.released (k % 2 ^ 32) Config.deviceNumber) ∈ t.links.sent) (Map.mem_of_look look) (fun t => ?_) (fun t y h => ?_) s
  · obtain ⟨ports, e⟩ := t.tell_eq x.device (.released (k % 2 ^ 32) Config.deviceNumber)
    rw [e]
    exact List.mem_append_right _ (List.mem_singleton_self _)
  · obtain ⟨ports, e⟩ := t.tell_eq y.2.device (.released (y.1 % 2 ^ 32) Config.deviceNumber)
    rw [e]
    exact List.mem_append_left _ h

/-- What a release does at once: gate entries go, grants are revoked, and peers are told. -/
def State.releasing (s : State) (d : Nat) : State := ((s.withoutGates d).revokeExports d).tellReleased d

theorem State.releasing_eq (s : State) (d : Nat) : ∃ l, s.releasing d = { s.withoutGates d with links := l } ∧ (∀ k x, l.exports.look k = some x → x.local_ ≠ d) ∧
    ∀ k x, (s.domain d).imports.look k = some x → (x.device, GrantMessage.released (k % 2 ^ 32) Config.deviceNumber) ∈ l.sent := by
  obtain ⟨l, revoked, -⟩ := (s.withoutGates d).revokeExports_eq d
  obtain ⟨l', told, same⟩ := ((s.withoutGates d).revokeExports d).tellReleased_eq d
  have whole : s.releasing d = { s.withoutGates d with links := l' } := by
    rw [State.releasing, told, revoked]
  refine ⟨l', whole, fun k x look => ?_, fun k x look => ?_⟩
  · rw [same] at look
    exact State.revokeExports_local look
  · have kept : (((s.withoutGates d).revokeExports d).domain d).imports = (s.domain d).imports := by
      have imports := congrArg Domain.imports (s.domain_withoutGates d d)
      rw [revoked]
      exact imports
    have sent := State.tellReleased_sent (kept.symm ▸ look)
    rw [told] at sent
    exact sent

/-- Whether a domain has work depends neither on gates nor on links. -/
theorem State.domainBusy_releasing (s : State) (d : Nat) : (s.releasing d).domainBusy d = s.domainBusy d := by
  obtain ⟨l, e, -⟩ := s.releasing_eq d
  rw [e]
  rfl

/-- The end of a release: the key and the translations go, and the granules are nobody's. -/
def State.released (s : State) (d : Nat) : State :=
  (({ s with mem := { s.mem with tlb := s.mem.tlb.filter fun e => e.1 % 2 ^ 52 / 2 ^ 45 != d }, keep := { s.keep with owners := s.keep.owners.filter fun e => e.2 != d } } : State).setDomain d {}).reportChanged

theorem State.domain_released (s : State) (d n : Nat) : (s.released d).domain n = if n = d then {} else s.domain n := by
  change (State.setDomain _ d {}).domain n = _
  rw [State.domain_setDomain]
  rfl

section
variable (boot : s.boot = .stage2) (pos : d ≠ 0) (there : (s.domain d).state ≠ .free)
include boot pos there

theorem execDomainRelease_eq : execDomainRelease d s = .next (if s.domainBusy d then s.releasing d else (s.releasing d).released d) := by
  have begins : execDomainRelease d s = if (s.releasing d).domainBusy d then .next (s.releasing d) else .next ((s.releasing d).released d) := if_neg (by simp [boot, pos, there])
  rw [begins, State.domainBusy_releasing]
  split <;> rfl

theorem domainRelease_begins : Ends s (.domainRelease d) fun t => t.mem.bytes = s.mem.bytes ∧ (∀ k x, t.links.exports.look k = some x → x.local_ ≠ d) ∧
    (∀ k x, (s.domain d).imports.look k = some x → (x.device, GrantMessage.released (k % 2 ^ 32) Config.deviceNumber) ∈ t.links.sent) ∧
    ∀ c i e, c ≠ d → (s.domain c).gates.look i = some e → (t.domain c).gates.look i = some (clearGate d e) := by
  obtain ⟨l, now_, revoked, told⟩ := s.releasing_eq d
  have gates (c i : Nat) (e : GateEntry) (look : (s.domain c).gates.look i = some e) : ((s.releasing d).domain c).gates.look i = some (clearGate d e) := by
    rw [now_]
    have gates : ((s.withoutGates d).domain c).gates.look i = some (clearGate d e) := by
      rw [State.domain_withoutGates, gatesCleared, look_clearGates, look, Option.map_some]
    exact gates
  refine Ends.of (execDomainRelease_eq boot pos there) ?_
  split
  · rw [now_] at gates ⊢
    exact ⟨rfl, revoked, told, fun c i e _ look => gates c i e look⟩
  · refine ⟨by rw [now_]; rfl, by rw [now_]; exact revoked, by rw [now_]; exact told, fun c i e other look => ?_⟩
    have kept : ((s.releasing d).released d).domain c = (s.releasing d).domain c := (State.domain_released _ _ _).trans (if_neg other)
    rw [kept]
    exact gates c i e look

theorem domainRelease_waits (busy : s.domainBusy d = true) : Ends s (.domainRelease d) fun t => (t.domain d).state = (s.domain d).state ∧ (t.domain d).key = (s.domain d).key ∧ t.keep.owners = s.keep.owners := by
  obtain ⟨l, now_, -⟩ := s.releasing_eq d
  have e := execDomainRelease_eq boot pos there
  rw [if_pos busy, now_] at e
  have state := congrArg Domain.state (s.domain_withoutGates d d)
  have key := congrArg Domain.key (s.domain_withoutGates d d)
  exact Ends.of e ⟨state, key, rfl⟩

theorem domainRelease_ends (idle : s.domainBusy d = false) : Ends s (.domainRelease d) fun t => (t.domain d).state = .free ∧ (t.domain d).key = none ∧ (∀ g, t.keep.owners.look g ≠ some d) ∧
    ∀ k, k % 2 ^ 52 / 2 ^ 45 = d → t.mem.tlb.look k = none := by
  have e := execDomainRelease_eq boot pos there
  rw [if_neg (by simp [idle])] at e
  have free : ((s.releasing d).released d).domain d = {} := (State.domain_released _ _ _).trans (if_pos rfl)
  refine Ends.of e ⟨congrArg Domain.state free, congrArg Domain.key free, fun g owned => ?_, fun k mine => ?_⟩
  · have listed := Map.mem_of_look owned
    simpa using (List.mem_filter.1 listed).2
  · have off : (k % 2 ^ 52 / 2 ^ 45 != d) = false := by rw [mine, bne_self_eq_false]
    exact (Map.look_filter_key fun k => k % 2 ^ 52 / 2 ^ 45 != d).trans (if_neg (ne_true_of_eq_false off))

end
end
end Sys2Proof.Machine

namespace Sys2Proof

/-! ### Little-endian bytes -/

theorem leValue_drop (bs : List Byte) (k : Nat) : leValue (bs.drop k) = leValue bs / 256 ^ k := by
  induction k generalizing bs with
  | zero => simp
  | succ k ih =>
    cases bs with
    | nil => simp [leValue]
    | cons b bs =>
      have byte : b.toNat < 256 := b.isLt
      have tail : (b.toNat + 256 * leValue bs) / 256 = leValue bs := by omega
      rw [List.drop_succ_cons, ih, leValue, Nat.pow_succ', ← Nat.div_div_eq_div_mul, tail]

theorem leValue_take (bs : List Byte) (n : Nat) : leValue (bs.take n) = leValue bs % 256 ^ n := by
  induction n generalizing bs with
  | zero => simp [leValue, Nat.mod_one]
  | succ n ih =>
    cases bs with
    | nil => simp [leValue]
    | cons b bs =>
      have byte : b.toNat < 256 := b.isLt
      have low : (b.toNat + 256 * leValue bs) % 256 = b.toNat := by omega
      have tail : (b.toNat + 256 * leValue bs) / 256 = leValue bs := by omega
      rw [List.take_succ_cons, leValue, leValue, ih, Nat.pow_succ', Nat.mod_mul, low, tail]

theorem leValue_leBytes (n v : Nat) : leValue (leBytes n v) = v % 256 ^ n := by
  induction n generalizing v with
  | zero => simp [leBytes, leValue, Nat.mod_one]
  | succ n ih => rw [leBytes, leValue, ih, BitVec.toNat_ofNat, Nat.pow_succ' (n := n) (m := 256), Nat.mod_mul]

theorem leValue_lt (bs : List Byte) : leValue bs < 256 ^ bs.length := by
  have whole := leValue_take bs bs.length
  rw [List.take_length] at whole
  rw [whole]
  exact Nat.mod_lt _ (by positivity)

/-- A field of whole bytes is the value of those bytes. -/
theorem bitsAt_leValue (bs : List Byte) (off n : Nat) : bitsAt (leValue bs) (8 * off) (8 * n) = leValue ((bs.drop off).take n) := by
  rw [leValue_take, leValue_drop, bitsAt, Nat.pow_mul, Nat.pow_mul]

end Sys2Proof

namespace Sys2Proof.Machine

section
variable {s : State}

/-! ### Gate tables (R81, R155) -/

theorem length_gateBytes (e : GateEntry) : (GateEntry.bytes e).length = 32 := by
  simp [GateEntry.bytes, length_leBytes]

theorem ofNat_leValue_leBytes {w n : Nat} (x : BitVec w) (fits : 256 ^ n = 2 ^ w) : BitVec.ofNat w (leValue (leBytes n x.toNat)) = x := by
  rw [leValue_leBytes, fits, Nat.mod_eq_of_lt x.isLt, BitVec.ofNat_toNat, BitVec.setWidth_eq]

theorem ofNat_leValue_byte (b : Byte) : BitVec.ofNat 8 (leValue [b]) = b := by
  simp [leValue]

/-- An entry is what its 32 bytes say. -/
theorem gateOf_bytes (e : GateEntry) : gateOf (BitVec.ofNat 256 (leValue (GateEntry.bytes e))) = e := by
  have bound : leValue (GateEntry.bytes e) < 2 ^ 256 := by
    have lt := leValue_lt (GateEntry.bytes e)
    rw [length_gateBytes] at lt
    exact lt.trans_eq (by norm_num)
  have field (off n : Nat) (bs : List Byte) (part : ((GateEntry.bytes e).drop off).take n = bs) :
      bitsAt (BitVec.ofNat 256 (leValue (GateEntry.bytes e))).toNat (8 * off) (8 * n) = leValue bs := by
    rw [BitVec.toNat_ofNat, Nat.mod_eq_of_lt bound, bitsAt_leValue, part]
  unfold gateOf
  dsimp only
  rw [field 0 8 (leBytes 8 e.entry.toNat) rfl, field 8 8 (leBytes 8 e.callers.toNat) rfl, field 16 8 (leBytes 8 e.stack.toNat) rfl, field 24 1 [e.target] rfl, field 25 1 [e.va] rfl,
    field 26 1 [e.sa] rfl, field 27 1 [e.vr] rfl, field 28 1 [e.sr] rfl, field 29 1 [e.flags] rfl, field 30 2 (leBytes 2 e.reserved.toNat) rfl]
  simp only [ofNat_leValue_byte]
  rw [ofNat_leValue_leBytes e.entry rfl, ofNat_leValue_leBytes e.callers rfl, ofNat_leValue_leBytes e.stack rfl, ofNat_leValue_leBytes e.reserved rfl]

/-- The valid entries of a section, with their indexes. -/
def validEntries (es : List GateEntry) : List (Nat × GateEntry) := ((es.take 256).mapIdx fun i e => (i, e)).filter fun e => e.2.target.getLsbD 7

theorem mem_validEntries {es : List GateEntry} (short : es.length ≤ 256) {x : Nat × GateEntry} : x ∈ validEntries es ↔ es[x.1]? = some x.2 ∧ x.2.target.getLsbD 7 = true := by
  obtain ⟨i, e⟩ := x
  rw [validEntries, List.take_of_length_le short, List.mem_filter, List.mem_iff_getElem?]
  simp only [List.getElem?_mapIdx, Option.map_eq_some_iff, Prod.mk.injEq]
  constructor
  · rintro ⟨⟨j, f, look, rfl, rfl⟩, valid⟩
    exact ⟨look, valid⟩
  · rintro ⟨look, valid⟩
    exact ⟨⟨i, e, look, rfl, rfl⟩, valid⟩

/-- The gate table with a section's valid entries at their indexes (R81). -/
def installed (m : Map GateEntry) (es : List GateEntry) : Map GateEntry := (validEntries es).foldl (fun m e => m.put e.1 e.2) m

theorem look_installed {es : List GateEntry} (short : es.length ≤ 256) (m : Map GateEntry) (i : Nat) :
    (installed m es).look i = match es[i]? with | some e => if e.target.getLsbD 7 = true then some e else m.look i | none => m.look i := by
  have skipped (none_ : ∀ e, es[i]? = some e → e.target.getLsbD 7 ≠ true) : (installed m es).look i = m.look i := by
    refine Map.look_foldl_put_other (key := Prod.fst) (val := Prod.snd) fun y hy same => ?_
    obtain ⟨look, valid⟩ := (mem_validEntries short).1 hy
    exact none_ y.2 (same ▸ look) valid
  cases look : es[i]? with
  | none => exact skipped (by simp [look])
  | some e =>
    dsimp only
    split
    · next valid =>
      refine Map.look_foldl_put (key := Prod.fst) (val := Prod.snd) (y := (i, e)) ((mem_validEntries short).2 ⟨look, valid⟩) rfl fun y hy same => ?_
      have same' := ((mem_validEntries short).1 hy).1
      rw [same, look] at same'
      exact (Option.some.inj same').symm
    · next invalid => exact skipped fun f hf => by rw [look, Option.some.injEq] at hf; exact hf ▸ invalid

/-- An entry may be installed: its fields are within R155, and the requester may give it to the caller (R81). -/
def State.gateFine (s : State) (who : Requester) (c : Nat) (e : GateEntry) : Bool := gateFieldsOk e && s.gateAllowed who c e

theorem gateInstall_installs {who : Requester} {c : Nat} {es : List GateEntry} (boot : s.boot = .stage2) (short : es.length ≤ 256)
    (fine : ∀ e ∈ es, e.target.getLsbD 7 = true → gateFieldsOk e = true ∧ s.gateAllowed who c e = true) :
    Ends s (.gateInstall who c es) fun t => t.keep.gateReport = none ∧
      ∀ i, (t.domain c).gates.look i = match es[i]? with | some e => if e.target.getLsbD 7 = true then some e else (s.domain c).gates.look i | none => (s.domain c).gates.look i := by
  have good : (validEntries es).find? (fun e => !s.gateFine who c e.2) = none := by
    refine List.find?_eq_none.2 fun x hx => ?_
    obtain ⟨look, valid⟩ := (mem_validEntries short).1 hx
    obtain ⟨ok, allowed⟩ := fine x.2 (List.mem_of_getElem? look) valid
    simp [State.gateFine, ok, allowed]
  let t := if (validEntries es).isEmpty then s else s.setDomain c { s.domain c with gates := installed (s.domain c).gates es }
  have e : execGateInstall who c es s = .next (t.onKeep fun k => { k with gateReport := none }) := by
    unfold execGateInstall
    change (if s.boot != .stage2 then _ else match (validEntries es).find? (fun e => !s.gateFine who c e.2) with | some e => _ | none => _) = _
    rw [if_neg (by simp [boot]), good]
    rfl
  have gates : (t.domain c).gates = installed (s.domain c).gates es := by
    by_cases empty : validEntries es = []
    · simp [t, installed, empty]
    · simp [t, empty, State.domain_setDomain]
  have kept : ((t.onKeep fun k => { k with gateReport := none }).domain c).gates = installed (s.domain c).gates es := gates
  refine Ends.of e ⟨rfl, fun i => ?_⟩
  rw [kept]
  exact look_installed short _ i

theorem gateInstall_reports {who : Requester} {c i : Nat} {es : List GateEntry} {e : GateEntry} (boot : s.boot = .stage2) (short : es.length ≤ 256)
    (look : es[i]? = some e) (valid : e.target.getLsbD 7 = true) (bad : s.gateFine who c e = false)
    (first : ∀ j f, j < i → es[j]? = some f → f.target.getLsbD 7 = true → s.gateFine who c f = true) :
    Ends s (.gateInstall who c es) fun t => t.domains = s.domains ∧ t.keep.gateReport = some i := by
  have found : (validEntries es).find? (fun e => !s.gateFine who c e.2) = some (i, e) := by
    rw [validEntries, List.take_of_length_le short, List.find?_filter, List.find?_eq_some_iff_getElem]
    obtain ⟨inside, here⟩ := List.getElem?_eq_some_iff.1 look
    refine ⟨by simp [valid, bad], i, by simpa using inside, by simp [here], fun j hj => ?_⟩
    have fine := first j es[j] hj (List.getElem?_eq_getElem _)
    simpa [imp_iff_not_or] using fine
  have e : execGateInstall who c es s = .next (s.onKeep fun k => { k with gateReport := some i }) := by
    unfold execGateInstall
    change (if s.boot != .stage2 then _ else match (validEntries es).find? (fun e => !s.gateFine who c e.2) with | some e => _ | none => _) = _
    rw [if_neg (by simp [boot]), found]
  exact Ends.of e ⟨rfl, rfl⟩

/-! ### Attestation (R394, R401) -/

theorem getCertificate_ends {k : Nat} (known : s.keep.idPub = some k) : Ends s .getCertificate fun t => t.keep.certificate = some (Config.certificate k) ∧ t.mem = s.mem := by
  have e : execGetCertificate s = .next (s.onKeep fun x => { x with certificate := some (Config.certificate k) }) := by
    rw [execGetCertificate, known]
  exact Ends.of e ⟨rfl, rfl⟩

/-- A report begins with the nonce and the user data. -/
theorem take_reportText {nonce user : List Byte} (n : nonce.length = 32) (u : user.length = 64) (s : State) (ds : List Nat) : (s.reportText nonce user ds).take 96 = nonce ++ user := by
  have size : (nonce ++ user).length = 96 := by rw [List.length_append, n, u]
  simp only [State.reportText, List.append_assoc]
  rw [← List.append_assoc, ← size, List.take_left]

section
variable {k : Nat} {nonce user : List Byte} (known : s.keep.idPub = some k) (n : nonce.length = 32) (u : user.length = 64)
include known n u

theorem getMeasurements_host : Ends s (.getMeasurements nonce (.host user)) fun t => t.keep.reports = s.keep.reports + 1 ∧ t.mem = s.mem ∧ ∃ text sig, t.keep.report = some (text, sig) ∧
    text.take 96 = nonce ++ user ∧ sig = Config.falconSign (Config.shake (leBytes 64 s.keep.uds.toNat ++ label "identity") 384) text := by
  have e : execGetMeasurements nonce (.host user) s = .next ((s.signReport nonce user (List.range 64)).1.onKeep fun x => { x with report := some (s.signReport nonce user (List.range 64)).2 }) := by
    simp [execGetMeasurements, known, n, u]
  exact Ends.of e ⟨rfl, rfl, _, _, rfl, take_reportText n u _ _, rfl⟩

theorem getMeasurements_domain {d : Nat} {va : Dword} (boot : s.boot = .stage2) (active : (s.domain d).state = .active) :
    ∃ text sig, (text.take 96 = nonce ++ user ∧ sig = Config.falconSign (Config.shake (leBytes 64 s.keep.uds.toNat ++ label "identity") 384) text) ∧
      let bs := text ++ leBytes signatureBytes sig
      exec (.getMeasurements nonce (.domain d va user)) s = .next (({ s with nextId := s.nextId + 1, keep := { s.keep with reports := s.keep.reports + 1 } } : State).owe
        ((linePieces va bs (bs.length + 1)).map fun x => ⟨2 ^ 20 + s.nextId, d, .store x.1 x.2⟩)) := by
  refine ⟨(s.signReport nonce user [d]).2.1, (s.signReport nonce user [d]).2.2, ⟨take_reportText n u _ _, rfl⟩, ?_⟩
  change execGetMeasurements nonce (.domain d va user) s = _
  unfold execGetMeasurements
  split
  · next unknown => rw [known] at unknown; cases unknown
  · next asked => cases asked
  · next asked =>
    cases asked
    rw [if_neg (by simp [n, u, boot, active])]
    rfl

end
end
end Sys2Proof.Machine

namespace Sys2Proof.Machine

/-- Settles O53: start-up, images, domains, gate tables and attestation, part by part; that no instruction changes the fused
identity is the rule of O58. -/
theorem keepAndDomains : Obligations.KeepAndDomains := by
  unfold Obligations.KeepAndDomains
  intro s
  refine ⟨fun digest off => ⟨?powerGood, powerGood_stops off⟩, fun boot good => ⟨fun k c m loads => stage1Entry_starts boot good loads, fun k n c m bad => stage1Entry_stops boot good bad⟩,
    fun bad boot => stage2Entry_ends bad boot, powerLoss_ends, operatorKeyEnroll_once, fun kind on pos le => ⟨slotWrite_inactive on pos le, fun i => slotWrite_active, ?switch, slotSwitch_refuses,
      fun i loaded chosen => commit_raises on loaded chosen⟩, ?create, ?release, fun e => ⟨length_gateBytes e, gateOf_bytes e⟩, ?install, ?attest⟩
  case powerGood =>
    rintro rfl
    exact powerGood_starts off
  case switch => exact fun i written point image good => ⟨Keep.accepts_checks good, slotSwitch_switches on pos le written point image good⟩
  case create =>
    intro q boot pos lt manager free answered granules
    exact ⟨domainCreate_refuses, fun k accepted => domainCreate_ends boot pos lt manager free answered granules accepted⟩
  case release =>
    intro d boot pos there
    exact ⟨domainRelease_begins boot pos there, domainRelease_waits boot pos there, domainRelease_ends boot pos there⟩
  case install =>
    intro who c es boot short
    exact ⟨gateInstall_installs boot short, fun i e look valid bad first => gateInstall_reports boot short look valid bad first⟩
  case attest =>
    intro k known
    exact ⟨getCertificate_ends known, fun nonce user n u => ⟨getMeasurements_host known n u, fun d va boot active => getMeasurements_domain known n u boot active⟩⟩

end Sys2Proof.Machine

namespace Sys2Proof

/-! ### Bits of the ALU's results (R95, R96) -/

section
variable {w n j : Nat} {x a c : Dword}

theorem getLsbD_low : (low n x).getLsbD j = (decide (j < n) && x.getLsbD j) := by
  simp only [low, BitVec.getLsbD_setWidth]
  by_cases inside : j < 64
  · simp [inside]
  · simp [inside, BitVec.getLsbD_of_ge x j (Nat.le_of_not_lt inside)]

theorem toNat_low (hw : w ≤ 64) : (low w x).toNat = x.toNat % 2 ^ w := by
  rw [low, BitVec.toNat_setWidth, BitVec.toNat_setWidth]
  exact Nat.mod_eq_of_lt (lt_of_lt_of_le (Nat.mod_lt _ (Nat.two_pow_pos w)) (Nat.pow_le_pow_right (by decide) hw))

theorem low_low : low n (low n x) = low n x := by
  refine BitVec.eq_of_getLsbD_eq fun i _ => ?_
  simp [getLsbD_low]

theorem Ty.w_le (t : Ty) : t.w ≤ 64 := by
  unfold Ty.w
  split <;> decide

/-- Bits set one after another are all set. -/
theorem getLsbD_foldl_or {m : Nat} {p : Nat → Bool} {k : Nat → Nat} {xs : List Nat} {z : BitVec m} (hj : j < m) :
    (xs.foldl (fun r i => if p i then r ||| ((1 <<< k i : Nat) : BitVec m) else r) z).getLsbD j = (z.getLsbD j || xs.any fun i => p i && decide (k i = j)) := by
  have one (i : Nat) : BitVec.getLsbD ((1 <<< i : Nat) : BitVec m) j = decide (i = j) := by
    rw [Nat.one_shiftLeft, BitVec.natCast_eq_ofNat, BitVec.getLsbD_ofNat, Nat.testBit_two_pow]
    simp [hj]
  induction xs generalizing z with
  | nil => simp
  | cons i xs ih =>
    rw [List.foldl_cons, ih, List.any_cons]
    split
    · next accepted => rw [BitVec.getLsbD_or, one, accepted, Bool.true_and, Bool.or_assoc]
    · next refused => simp [refused]

theorem getLsbD_maskOf {p : Nat → Bool} (hj : j < 32) : (maskOf p).getLsbD j = p j := by
  rw [maskOf, getLsbD_foldl_or hj, Bool.eq_iff_iff]
  simp only [BitVec.ofNat_eq_ofNat, BitVec.getLsbD_zero, Bool.false_or, List.any_eq_true, List.mem_range, Bool.and_eq_true, decide_eq_true_eq]
  exact ⟨fun ⟨i, _, set, e⟩ => e ▸ set, fun set => ⟨j, hj, set, rfl⟩⟩

/-- A reversed word has bit j where the word has the bit as far from the other end. -/
theorem getLsbD_revBits (hj : j < 64) : (revBits n x).getLsbD j = (decide (j < n) && x.getLsbD (n - 1 - j)) := by
  rw [revBits, getLsbD_foldl_or hj, Bool.eq_iff_iff]
  simp only [BitVec.ofNat_eq_ofNat, BitVec.getLsbD_zero, Bool.false_or, List.any_eq_true, List.mem_range, Bool.and_eq_true, decide_eq_true_eq]
  constructor
  · rintro ⟨i, below, set, rfl⟩
    rw [show n - 1 - (n - 1 - i) = i by omega]
    exact ⟨by omega, set⟩
  · exact fun ⟨below, set⟩ => ⟨n - 1 - j, by omega, set, by omega⟩

/-- How many places at the start of a range a test accepts. -/
theorem length_takeWhile_range_eq_iff {p : Nat → Bool} (hn : n ≤ w) :
    ((List.range w).takeWhile p).length = n ↔ (∀ j, j < n → p j = true) ∧ (n < w → p n = false) := by
  have short : (List.range w).findIdx (fun i => !p i) ≤ w := by simpa using List.findIdx_le_length (xs := List.range w) (p := fun i => !p i)
  rw [List.takeWhile_eq_take_findIdx_not, List.length_take, List.length_range, Nat.min_eq_left short]
  rcases hn.lt_or_eq with inside | rfl
  · rw [List.findIdx_eq (by simpa using inside)]
    simp [inside, and_comm]
  · have all := List.findIdx_eq_length (xs := List.range n) (p := fun i => !p i)
    rw [List.length_range] at all
    simp [all]

theorem clzBits_eq_iff (hn : n ≤ w) : clzBits w x = n ↔ (∀ j, j < n → x.getLsbD (w - 1 - j) = false) ∧ (n < w → x.getLsbD (w - 1 - n) = true) := by
  simpa [clzBits] using length_takeWhile_range_eq_iff (p := fun i => !x.getLsbD (w - 1 - i)) hn

theorem ctzBits_eq_iff (hn : n ≤ w) : ctzBits w x = n ↔ (∀ j, j < n → x.getLsbD j = false) ∧ (n < w → x.getLsbD n = true) := by
  simpa [ctzBits] using length_takeWhile_range_eq_iff (p := fun i => !x.getLsbD i) hn

/-! ### Shifts and bit fields (R96) -/

theorem shlN_eq (hw : w ≤ 64) : shlN w a n = if n < w then BitVec.ofNat 64 (a.toNat * 2 ^ n % 2 ^ w) else 0 := by
  unfold shlN
  split
  · refine BitVec.eq_of_toNat_eq ?_
    rw [toNat_low hw, BitVec.toNat_shiftLeft, Nat.shiftLeft_eq, BitVec.toNat_ofNat, Nat.mod_mod_of_dvd _ (Nat.pow_dvd_pow 2 hw)]
    exact (Nat.mod_eq_of_lt (lt_of_lt_of_le (Nat.mod_lt _ (Nat.two_pow_pos w)) (Nat.pow_le_pow_right (by decide) hw))).symm
  · rfl

theorem shrN_eq (fits : low w a = a) : shrN w a n = if n < w then BitVec.ofNat 64 (a.toNat / 2 ^ n) else 0 := by
  rw [shrN, fits, ← Nat.shiftRight_eq_div_pow, ← BitVec.toNat_ushiftRight, BitVec.ofNat_toNat, BitVec.setWidth_eq]

theorem sarN_eq : sarN w a n = low w (BitVec.ofInt 64 (valN true w a / 2 ^ min n (w - 1))) := by
  rw [sarN, Nat.min_def]
  congr 4
  split <;> split <;> omega

/-- Byte k of a field descriptor. -/
theorem toNat_extractByte (desc : Dword) : (desc.extractLsb' 0 8).toNat = desc.toNat % 256 ∧ (desc.extractLsb' 8 8).toNat = desc.toNat / 256 % 256 := by
  simp [BitVec.extractLsb'_toNat, Nat.shiftRight_eq_div_pow]

/-- A field's value, sign-extended or not, as a word. -/
theorem ofInt_valN (isSigned : Bool) (m : Nat) : BitVec.ofInt 64 (valN isSigned m x) = if isSigned then (x.setWidth m).signExtend 64 else (x.setWidth m).setWidth 64 := by
  cases isSigned
  · change BitVec.ofInt 64 ((x.setWidth m).toNat : Int) = (x.setWidth m).setWidth 64
    rw [BitVec.ofInt_natCast, BitVec.ofNat_toNat]
  · rfl

theorem bfxN_eq (isSigned : Bool) (desc : Dword) : bfxN isSigned w a desc =
    let pos := desc.toNat % 256
    let len := desc.toNat / 256 % 256
    if len = 0 ∨ w ≤ pos then 0 else low w (BitVec.ofInt 64 (valN isSigned (min len (w - pos)) (a >>> pos))) := by
  obtain ⟨pos, len⟩ := toNat_extractByte desc
  unfold bfxN
  dsimp only
  rw [pos, len, ofInt_valN, Nat.min_def]
  generalize desc.toNat % 256 = pos, desc.toNat / 256 % 256 = len
  have same : (if len < w - pos then len else w - pos) = if len ≤ w - pos then len else w - pos := by split <;> split <;> omega
  rw [same]
  simp only [Bool.or_eq_true, decide_eq_true_eq]

theorem getLsbD_rotlN (hj : j < w) (hw : w ≤ 64) : (rotlN w a n).getLsbD ((j + n) % w) = a.getLsbD j := by
  have turned : (j + n) % w = if j + n % w < w then j + n % w else j + n % w - w := by
    have small := Nat.mod_lt n (Nat.lt_of_le_of_lt (Nat.zero_le j) hj)
    rw [Nat.add_mod, Nat.mod_eq_of_lt hj]
    split
    · next stays => exact Nat.mod_eq_of_lt stays
    · next wraps => rw [Nat.mod_eq_sub_mod (by omega), Nat.mod_eq_of_lt (by omega)]
  have small := Nat.mod_lt n (Nat.lt_of_le_of_lt (Nat.zero_le j) hj)
  rw [turned, rotlN]
  generalize n % w = k at small ⊢
  split
  · next still => simp [still, hj, getLsbD_low]
  · next moved =>
    rw [BitVec.getLsbD_or, getLsbD_low, BitVec.getLsbD_shiftLeft, BitVec.getLsbD_ushiftRight, getLsbD_low]
    split
    · next stays =>
      have inside : j + k < 64 := by omega
      have out : ¬ w - k + (j + k) < w := by omega
      simp [stays, inside, out]
    · next wraps =>
      have below : j + k - w < k := by omega
      rw [show w - k + (j + k - w) = j by omega]
      simp [below, hj]

theorem getLsbD_onesN (hn : n ≤ 64) : (onesN n).getLsbD j = decide (j < n) := by
  rw [onesN, BitVec.getLsbD_ofNat, Nat.testBit_two_pow_sub_one]
  by_cases inside : j < n
  · simp [inside, Nat.lt_of_lt_of_le inside hn]
  · simp [inside]

/-- `bfi` replaces the bits of the field and no other. -/
theorem getLsbD_bfiN (hj : j < w) (hw : w ≤ 64) (desc : Dword) :
    (bfiN w a desc c).getLsbD j = let pos := desc.toNat % 256; let len := desc.toNat / 256 % 256
      if pos ≤ j ∧ j < pos + len then a.getLsbD (j - pos) else c.getLsbD j := by
  obtain ⟨pos, len⟩ := toNat_extractByte desc
  simp only [bfiN, pos, len, Bool.or_eq_true, decide_eq_true_eq]
  generalize desc.toNat % 256 = pos, desc.toNat / 256 % 256 = len
  split
  · next empty => rw [if_neg (by omega), getLsbD_low, decide_eq_true hj, Bool.true_and]
  · next field =>
    simp only [getLsbD_low, BitVec.getLsbD_or, BitVec.getLsbD_and, BitVec.getLsbD_not, BitVec.getLsbD_shiftLeft, hj, decide_true, Bool.true_and]
    rw [getLsbD_onesN (by split <;> omega)]
    have inside : j < 64 := by omega
    by_cases below : j < pos
    · simp [below, inside, show ¬ pos ≤ j by omega]
    · have reach : (j - pos < if len < w - pos then len else w - pos) ↔ j < pos + len := by split <;> omega
      by_cases within : j < pos + len
      · simp [below, inside, reach, within, show pos ≤ j by omega]
      · simp [below, inside, reach, within]

end
end Sys2Proof

namespace Sys2Proof.Machine

/-! ### Results of the integer instructions (R83, R95, R96) -/

section
variable {i : Instr} {f : FormV} {s : State} {c : Ctx}

/-- The result of an instruction whose destination has the type's own width. -/
theorem Runs.own_width_result (h : Runs i s c) (f : FormV) (x : Nat → Dword) : c.Result (runV f f.ty f.ty.wide c x) f f.ty f.ty.wide x := by
  simpa using runV_result h.look f f.ty f.ty.wide x

/-- The result of an instruction whose destination is 64 bits wide whatever the type. -/
theorem Runs.wide_result (h : Runs i s c) (f : FormV) (x : Nat → Dword) : c.Result (runV f f.ty true c x) f .n64 true x := by
  have result := runV_result h.look f f.ty true x
  cases wide : f.ty.wide with
  | false => simpa [wide] using result
  | true =>
    have same (y : Dword) : scalarResult f.ty y = scalarResult .n64 y := by simp only [scalarResult, if_pos wide, if_pos (show Ty.n64.wide = true from rfl)]
    simpa only [wide, Bool.not_true, Bool.and_false, Bool.false_eq_true, if_false, Ctx.Result, same] using result

theorem runInt_result {fn : Int → Int → Int} (h : Runs i s c) (e : exec i s = runInt i f s fn) : c.Result (exec i s) f f.ty f.ty.wide fun l =>
    f.ty.wrap f.sat (fn (f.ty.val (c.opA f f.ty.wide l)) (f.ty.val (c.opB f immInt f.ty.wide l))) := by
  rw [e, runInt, issue_runs h]
  exact h.own_width_result f _

theorem runInt1_result {fn : Dword → Dword} (h : Runs i s c) (e : exec i s = runInt1 i f s fn) : c.Result (exec i s) f f.ty f.ty.wide fun l =>
    fn (c.opA f f.ty.wide l) := by
  rw [e, runInt1, issue_runs h]
  exact h.own_width_result f _

theorem runBits_result {fn : Dword → Dword → Dword} (h : Runs i s c) (e : exec i s = runBits i f s fn) : c.Result (exec i s) f f.ty f.ty.wide fun l =>
    low f.ty.w (fn (c.opA f f.ty.wide l) (c.opB f immInt f.ty.wide l)) := by
  rw [e, runBits, issue_runs h]
  exact h.own_width_result f _

theorem runShift_result {fn : Dword → Dword → Dword} (h : Runs i s c) (e : exec i s = runShift i f s fn) : c.Result (exec i s) f f.ty f.ty.wide fun l =>
    fn (c.opA f f.ty.wide l) (c.opB f immInt false l) := by
  rw [e, runShift, issue_runs h]
  exact h.own_width_result f _

theorem mad_result (h : Runs (.mad f) s c) : c.Result (exec (.mad f) s) f f.ty f.ty.wide fun l =>
    f.ty.wrap f.sat (f.ty.val (c.opA f f.ty.wide l) * f.ty.val (c.opB f immInt f.ty.wide l) + f.ty.val (c.opC f f.ty.wide l)) := by
  change c.Result (execMad f s) _ _ _ _
  rw [execMad, issue_runs h]
  exact h.own_width_result f _

theorem madw_result (h : Runs (.madw f) s c) : let w : Ty := if f.ty = .i32 then .i64 else .n64
    c.Result (exec (.madw f) s) f .n64 true fun l => w.wrap f.sat (f.ty.val (c.opA f false l) * f.ty.val (c.opB f immInt false l) + w.val (c.opC f true l)) := by
  change c.Result (execMadw f s) _ _ _ _
  rw [execMadw, issue_runs h]
  simpa only [beq_iff_eq] using h.wide_result f _

/-- What an accepted word of Form V or I fulfils. -/
theorem Runs.rule_ok {r : Rule} (h : Runs i s c) (rule : i.ruleV = some (f, r)) : r.ok f = true := by
  have accepted := h.accepted
  unfold Instr.accepted at accepted
  rwa [rule] at accepted

theorem Rule.ty_mem_of_ok {r : Rule} (ok : r.ok f = true) : f.ty ∈ r.tys := by
  simp only [Rule.ok, Bool.and_eq_true, List.contains_eq_mem, decide_eq_true_eq] at ok
  tauto

/-- `lea` has a 32-bit index, signed under i32 alone (R95). -/
theorem lea_val (h : Runs (.lea f) s c) (y : Dword) : valN (f.ty == .i32) 32 y = f.ty.val y := by
  have ty : f.ty ∈ [.i32, .n32] := Rule.ty_mem_of_ok (h.rule_ok rfl)
  generalize f.ty = t at ty
  simp only [List.mem_cons, List.not_mem_nil, or_false] at ty
  rcases ty with rfl | rfl <;> rfl

theorem leaSum_eq (isSigned : Bool) (a b : Dword) (n : Nat) : leaSum isSigned a b n = BitVec.ofInt 64 (b.toInt + valN isSigned 32 a * 2 ^ n) := by
  have power : BitVec.twoPow 64 n = BitVec.ofInt 64 (2 ^ n) := by
    refine BitVec.eq_of_toNat_eq ?_
    rw [show (2 ^ n : Int) = ((2 ^ n : Nat) : Int) by norm_cast, BitVec.ofInt_natCast, BitVec.toNat_twoPow, BitVec.toNat_ofNat]
  rw [leaSum, BitVec.shiftLeft_eq_mul_twoPow, power, ← BitVec.ofInt_mul, BitVec.ofInt_add, BitVec.ofInt_toInt]

theorem lea_result (h : Runs (.lea f) s c) : c.Result (exec (.lea f) s) f .n64 true fun l =>
    BitVec.ofInt 64 ((c.opB f immInt true l).toInt + f.ty.val (c.opA f false l) * 2 ^ f.x.toNat) := by
  change c.Result (execLea f s) _ _ _ _
  rw [execLea, issue_runs h]
  simpa only [leaSum_eq, lea_val h] using h.wide_result f _

theorem bfi_result (h : Runs (.bfi f) s c) : c.Result (exec (.bfi f) s) f f.ty f.ty.wide fun l =>
    bfiN f.ty.w (c.opA f f.ty.wide l) (c.opB f immInt false l) (c.opC f f.ty.wide l) := by
  change c.Result (execBfi f s) _ _ _ _
  rw [execBfi, issue_runs h]
  exact h.own_width_result f _

theorem sel_result (h : Runs (.sel f) s c) : c.Result (exec (.sel f) s) f f.ty f.ty.wide fun l =>
    if c.predC f l then c.opA f f.ty.wide l else c.opB f immInt f.ty.wide l := by
  change c.Result (execSel f s) _ _ _ _
  rw [execSel, issue_runs h]
  exact h.own_width_result f _

theorem perm_result (h : Runs (.perm f) s c) : c.Result (exec (.perm f) s) f f.ty false fun l =>
    permBytes (c.opA f false l) (c.opB f immInt false l) (c.opC f false l) := by
  change c.Result (execPerm f s) _ _ _ _
  rw [execPerm, issue_runs h]
  exact runV_result h.look f f.ty false _

end

/-- Settles O1: every instruction of R95 on integers is `runV` of its exact result. -/
theorem integerArithmetic : Obligations.IntegerArithmetic := by
  refine ⟨fun f s c => ?_, fun f s c => ⟨madw_result, lea_result⟩⟩
  extract_lets a b d gives
  have least : (fun x y : Int => if y < x then y else x) = min := funext₂ fun x y => by split <;> omega
  have greatest : (fun x y : Int => if x < y then y else x) = max := funext₂ fun x y => by split <;> omega
  refine ⟨?add, ?sub, ?mul, ?mulhi, mad_result, ?min, ?max, ?abs, ?neg⟩
  case add => exact fun h => runInt_result (fn := (· + ·)) h rfl
  case sub => exact fun h => runInt_result (fn := (· - ·)) h rfl
  case mul => exact fun h => runInt_result (fn := (· * ·)) h rfl
  case mulhi => exact fun h => runInt_result (fn := fun x y => x * y / 2 ^ f.ty.w) h rfl
  case min => exact fun h => runInt_result h (least ▸ rfl)
  case max => exact fun h => runInt_result h (greatest ▸ rfl)
  case abs => exact fun h => runInt1_result (fn := fun x => f.ty.wrap f.sat (f.ty.val x).natAbs) h rfl
  case neg => exact fun h => runInt1_result (fn := fun x => f.ty.wrap f.sat (-f.ty.val x)) h rfl

/-- Settles O2: every instruction of R95 on bits is `runV` of its result, whose bits are given by `getLsbD_low` and `getLsbD_revBits`. -/
theorem bitResults : Obligations.BitResults := by
  refine ⟨fun f s c => ?_, fun w x _ => ⟨fun n hn => clzBits_eq_iff hn, fun n hn => ctzBits_eq_iff hn⟩⟩
  extract_lets a b gives bits
  have binary {i : Instr} {r : Nat → Nat → Bool} (fn : Dword → Dword → Dword) (e : exec i s = runBits i f s fn)
      (bit : ∀ l j, j < 64 → (fn (a l) (b l)).getLsbD j = r l j) : bits i r :=
    ⟨fun l => low f.ty.w (fn (a l) (b l)), fun h => runBits_result h e, fun l j hj => by rw [getLsbD_low, bit l j hj]⟩
  have unary {i : Instr} (fn : Dword → Dword) (e : exec i s = runInt1 i f s fn) : gives i fun l => fn (a l) := fun h => runInt1_result h e
  refine ⟨?and, ?or, ?xor, ?andn, ⟨_, unary (fun x => low f.ty.w (~~~x)) rfl, ?not⟩, ⟨_, unary (revBits f.ty.w) rfl, ?brev⟩,
    ?popc, ?clz, ?ctz, sel_result, perm_result⟩
  case and => exact binary (· &&& ·) rfl fun l j _ => BitVec.getLsbD_and
  case or => exact binary (· ||| ·) rfl fun l j _ => BitVec.getLsbD_or
  case xor => exact binary (· ^^^ ·) rfl fun l j _ => BitVec.getLsbD_xor
  case andn => exact binary (fun x y => x &&& ~~~y) rfl fun l j hj => by simp [hj]
  case not =>
    intro l j hj
    rw [getLsbD_low, BitVec.getLsbD_not, decide_eq_true hj, Bool.true_and]
  case brev => exact fun l j hj => getLsbD_revBits hj
  case popc =>
    simp only [List.countP_eq_length_filter]
    exact unary (fun x => BitVec.ofNat 64 (popBits f.ty.w x)) rfl
  case clz => exact unary (fun x => BitVec.ofNat 64 (clzBits f.ty.w x)) rfl
  case ctz => exact unary (fun x => BitVec.ofNat 64 (ctzBits f.ty.w x)) rfl

/-- An operand has no bits above its width. -/
theorem Ctx.low_opA_own (c : Ctx) (f : FormV) (l : Nat) : low f.ty.w (c.opA f f.ty.wide l) = c.opA f f.ty.wide l := by
  rw [Ctx.opA]
  by_cases hu : f.u = true
  · rw [if_pos hu]
    exact low_low
  · rw [if_neg hu]
    cases wide : f.ty.wide <;> simp [low, Ctx.lane, Ty.w, wide]

/-- Settles O3: every shift is `runV` of its result; the count and the descriptor are the low bits of b. -/
theorem shiftResults : Obligations.ShiftResults := by
  refine ⟨fun f s c => ?_, fun w a d desc n j width hj _ => ?_⟩
  · extract_lets w a n pos len m gives
    have counted {i : Instr} {r : Nat → Dword} (fn : Nat → Dword → Nat → Dword) (e : exec i s = runShift i f s fun a b => fn w a (low 32 b).toNat)
        (same : ∀ l, fn w (a l) (n l) = r l) : gives i r := fun h => by
      have result := runShift_result h e
      simp only [Ctx.low_opB] at result
      exact funext same ▸ result
    refine ⟨?shl, ?shr, ?sar, ?rotl, ?bfx, bfi_result⟩
    case shl => exact counted shlN rfl fun l => shlN_eq f.ty.w_le
    case shr => exact counted shrN rfl fun l => shrN_eq (c.low_opA_own f l)
    case sar => exact counted sarN rfl fun l => sarN_eq
    case rotl => exact counted rotlN rfl fun l => rfl
    case bfx =>
      have result (h : Runs (.bfx f) s c) := runShift_result h rfl
      simp only [bfxN_eq] at result
      exact result
  · have hw : w ≤ 64 := by omega
    exact ⟨getLsbD_rotlN hj hw, getLsbD_bfiN hj hw desc⟩

end Sys2Proof.Machine

namespace Sys2Proof

/-! ### Carries and borrows (R98) -/

/-- The exact sum, split into its low W bits and the carry. -/
theorem addCarry_eq {w : Nat} (a b : Dword) (c : Bool) : addCarry w a b c =
    let r : Int := ((low w a).toNat : Int) + (low w b).toNat + c.toNat
    (BitVec.ofInt 64 (r % 2 ^ w), decide (r < 0 ∨ 2 ^ w ≤ r)) := by
  refine Prod.ext ?_ ?_
  · change BitVec.ofNat 64 _ = BitVec.ofInt 64 _
    rw [← BitVec.ofInt_natCast]
    norm_cast
  · refine decide_eq_decide.2 ?_
    norm_cast
    exact ⟨.inr, fun h => h.resolve_left (Nat.not_lt_zero _)⟩

/-- The exact difference, split into its low W bits and the borrow. -/
theorem subBorrow_eq {w : Nat} (hw : w ≤ 64) (a b : Dword) (c : Bool) : subBorrow w a b c =
    let r : Int := ((low w a).toNat : Int) - (low w b).toNat - c.toNat
    (BitVec.ofInt 64 (r % 2 ^ w), decide (r < 0 ∨ 2 ^ w ≤ r)) := by
  refine Prod.ext rfl (decide_eq_decide.2 ⟨.inl, fun h => h.resolve_right ?_⟩)
  have fits : ((low w a).toNat : Int) < 2 ^ w := by
    rw [toNat_low hw]
    exact_mod_cast Nat.mod_lt _ (Nat.two_pow_pos w)
  omega

/-- The later of two settings of an entry stays. -/
theorem Map.put_put {α : Type} (m : Map α) (k : Nat) (x y : α) : (m.put k x).put k y = m.put k y := by
  induction m with
  | nil => simp [Map.put]
  | cons e t ih =>
    simp only [Map.put]
    split
    · simp [Map.put]
    · split
      · simp [Map.put]
      · next above other => rw [Map.put, if_neg above, if_neg other, ih]

end Sys2Proof

namespace Sys2Proof.Machine

/-! ### Comparisons, carries and moves (R97-R99) -/

section
variable {i : Instr} {f : FormV} {s : State} {c : Ctx}

/-- `addc` and `subc` write the value of each lane and then its carry or borrow. -/
theorem runCarry_leaves {fn : Dword → Dword → Bool → Dword × Bool} (h : Runs i s c) (e : exec i s = issue i s fun c => runCarry f c fn) {d : Nat → Dword} {p : Nat → Bool}
    (at_ : ∀ l, fn (c.opA f f.ty.wide l) (c.opB f immInt f.ty.wide l) (c.predC f l) = (d l, p l)) :
    if f.u then
      c.Leaves (exec i s) c.onward c.g.vreg
        (if c.wide f.g then fun k => if k = f.c.toNat ∧ k ≠ 0 then (if p 0 then 1 else 0) else c.withScalar f.d.toNat (scalarResult f.ty (d 0)) k
         else c.g.sreg) c.g.predBit
    else c.Leaves (exec i s) c.onward (c.withLanes f.ty.wide f.d.toNat (c.active f.g) d) c.g.sreg (c.withPred f.c.toNat (c.active f.g) p) := by
  rw [e, issue_runs h]
  simp only [runCarry, at_, List.map_map, Function.comp_def]
  split
  · split
    · have alike := (c.g.setS_alike f.d.toNat (scalarResult f.ty (d 0))).trans (Group.setS_alike _ f.c.toNat (if p 0 then 1 else 0))
      exact (Ctx.finish_leaves h.look alike).congr (by simp) (fun k => by simp only [Group.sreg_setS, Ctx.withScalar]) (by simp)
    · exact Ctx.passes h.look
  · have lanes : ∀ l ∈ c.active f.g, l < 32 := fun l => Ctx.active_lt
    have alike := (c.g.setLanes_alike f.ty.wide f.d.toNat ((c.active f.g).map fun l => (l, d l))).trans
      (Group.setPreds_alike _ f.c.toNat ((c.active f.g).map fun l => (l, p l)))
    refine (Ctx.finish_leaves h.look alike).congr (fun r l hl => ?_) (by simp) fun k l hl => ?_
    · rw [Group.vreg_setPreds, Group.vreg_setLanes _ _ _ _ _ lanes r l hl]
      rfl
    · rw [Group.predBit_setPreds _ _ _ _ lanes k l hl, Group.predBit_setLanes]
      rfl

theorem cmp_result (h : Runs (.cmp f) s c) : c.PredResult (exec (.cmp f) s) f fun l =>
    condInt f.x.toNat (f.ty.val (c.opA f f.ty.wide l)) (f.ty.val (c.opB f immInt f.ty.wide l)) := by
  change c.PredResult (execCmp f s) _ _
  rw [execCmp, issue_runs h]
  exact runP_result h.look f _

theorem fcmp_result (h : Runs (.fcmp f) s c) : c.PredResult (exec (.fcmp f) s) f fun l =>
    condFp f.x.toNat (c.opA f false l).toNat (c.opB f immFp false l).toNat := by
  change c.PredResult (execFcmp f s) _ _
  rw [execFcmp, issue_runs h]
  exact runP_result h.look f _

/-- A scalar written if a condition holds, and the strand goes on. -/
theorem Ctx.finish_scalar_if (h : Runs i s c) (b : Bool) (d : Nat) (x : Dword) :
    c.Leaves (c.finish (if b then c.g.setS d x else c.g)) c.onward c.g.vreg (if b then c.withScalar d x else c.g.sreg) c.g.predBit := by
  cases b
  · exact Ctx.passes h.look
  · exact Ctx.finish_scalar h.look d x

/-- Two words side by side. -/
theorem append_eq_or (hi : Word) (x : Dword) : hi ++ x.setWidth 32 = (hi.setWidth 64 <<< 32) ||| low 32 x := by
  refine BitVec.eq_of_getLsbD_eq fun j hj => ?_
  rw [BitVec.getLsbD_append, BitVec.getLsbD_or, getLsbD_low, BitVec.getLsbD_shiftLeft, BitVec.getLsbD_setWidth, BitVec.getLsbD_setWidth]
  by_cases below : j < 32 <;> simp [below, hj, show j - 32 < 64 by omega]

/-- The value of `movi` under uniform issue. -/
theorem movi_leaves {v : FormL} (h : Runs (.movi v) s c) :
    if v.u then c.Leaves (exec (.movi v) s) c.onward c.g.vreg
      (if c.wide v.g then c.withScalar v.d.toNat
        (if v.x = 0 then v.imm.setWidth 64 else if v.x = 1 then v.imm.signExtend 64 else v.imm ++ (c.g.sreg v.d.toNat).setWidth 32) else c.g.sreg) c.g.predBit
    else c.Leaves (exec (.movi v) s) c.onward (c.withLanes false v.d.toNat (c.active v.g) fun _ => v.imm.setWidth 64) c.g.sreg c.g.predBit := by
  change if v.u then c.Leaves (execMovi v s) _ _ _ _ else c.Leaves (execMovi v s) _ _ _ _
  rw [execMovi, issue_runs h]
  dsimp only
  split
  · simpa only [append_eq_or, beq_iff_eq] using Ctx.finish_scalar_if h (c.wide v.g) v.d.toNat _
  · exact Ctx.finish_lanes h.look _ _ _ _ fun _ => Ctx.active_lt

theorem mov_result (h : Runs (.mov f) s c) : c.Result (exec (.mov f) s) f f.ty f.ty.wide fun l => c.opB f immInt f.ty.wide l := by
  change c.Result (execMov f s) _ _ _ _
  rw [execMov, issue_runs h]
  exact h.own_width_result f _

theorem bcast_leaves (h : Runs (.bcast f) s c) : c.Leaves (exec (.bcast f) s) c.onward
    (c.withLanes f.ty.wide f.d.toNat (c.active f.g) fun _ => c.lane f.ty.wide f.a.toNat ((c.active f.g).headD 0)) c.g.sreg c.g.predBit := by
  change c.Leaves (execBcast f s) _ _ _ _
  rw [execBcast, issue_runs h]
  exact Ctx.finish_lanes h.look _ _ _ _ fun _ => Ctx.active_lt

/-- An explicit lane write reaches the lane that it names, if that is a lane and has not exited (R49). -/
theorem Group.crossWrite_eq (g : Group) (wide : Bool) (r n : Nat) (x : Dword) :
    g.crossWrite wide r n x = g.setLanes wide r ((if n < 32 ∧ g.live.getLsbD n then [n] else []).map fun l => (l, x)) := by
  simp only [Group.crossWrite, Bool.and_eq_true, decide_eq_true_eq]
  split <;> rfl

/-- Settles O4: comparisons are `runP` of their condition, and carries `runCarry` of an exact sum or difference. -/
theorem comparesAndCarries : Obligations.ComparesAndCarries := by
  intro f s c a b cond carries
  refine ⟨fun h => ?cmp, fcmp_result, ?addc, ?subc⟩
  case cmp =>
    have same (x y : Int) : condInt f.x.toNat x y = cond x y := by
      unfold cond condInt
      rcases f.x.toNat with _ | _ | _ | _ | _ | _ | n
      case succ.zero => exact (decide_not ..).symm
      all_goals rfl
    have result := cmp_result h
    simp only [same] at result
    exact result
  case addc =>
    intro h d p
    exact runCarry_leaves (fn := addCarry f.ty.w) (d := d) (p := p) h rfl fun l => addCarry_eq _ _ _
  case subc =>
    intro h d p
    exact runCarry_leaves (fn := subBorrow f.ty.w) (d := d) (p := p) h rfl fun l => subBorrow_eq f.ty.w_le _ _ _

/-- Settles O5: every move is lanes or one scalar written (`finish_lanes`, `finish_scalar`), or nothing without an active lane. -/
theorem moves : Obligations.Moves := by
  refine fun f v s c => ⟨mov_result, movi_leaves, bcast_leaves, fun h => ?rdlane, fun h => ?wrlane⟩
  case rdlane =>
    change c.Leaves (execRdlane f s) _ _ _ _
    rw [execRdlane, issue_runs h]
    cases (c.active f.g).head? with
    | none => exact Ctx.passes h.look
    | some l => exact Ctx.finish_scalar h.look _ _
  case wrlane =>
    change c.Leaves (execWrlane f s) _ _ _ _
    rw [execWrlane, issue_runs h]
    cases (c.active f.g).head? with
    | none => exact Ctx.passes h.look
    | some l =>
      dsimp only
      rw [Group.crossWrite_eq]
      refine Ctx.finish_lanes h.look _ _ _ _ fun n named => ?_
      split at named
      · next reached => exact List.mem_singleton.1 named ▸ reached.1
      · cases named

/-! ### Special and trap registers (R94, R99) -/

theorem rdsr_result (h : Runs (.rdsr f) s c) : c.Result (exec (.rdsr f) s) f .n64 f.ty.wide fun l => if f.x = 0 then c.special f.b.toNat l else c.trapReg f.b.toNat := by
  change c.Result (execRdsr f s) _ _ _ _
  rw [execRdsr, issue_runs h, Ctx.Result]
  simp only [beq_iff_eq]
  split
  · exact Ctx.finish_scalar_if h _ _ _
  · exact Ctx.finish_lanes h.look _ _ _ _ fun _ => Ctx.active_lt

/-- The value that `wrsr` writes, if it has an effect. -/
def Ctx.trapValue (c : Ctx) (f : FormV) : Option Dword :=
  if f.u then (if c.wide f.g then some (c.sel f.a 0) else none) else (c.active f.g).head?.map fun l => c.lane false f.a.toNat l

theorem wrsr_passes (h : Runs (.wrsr f) s c) (absent : c.trapValue f = none) : c.Passes (exec (.wrsr f) s) := by
  change c.Passes (execWrsr f s)
  rw [execWrsr, issue_runs h]
  dsimp only
  rw [← Ctx.trapValue, absent]
  exact Ctx.passes h.look

/-- The trap register that `wrsr` names takes a value. -/
def Ctx.writeTrap (c : Ctx) (d : Nat) (x : Dword) : Res :=
  match d with
  | 0 => c.finish { c.g with trapvec := x }
  | 1 => c.finish (c.g.onStrand c.r.entry fun st => { st with trapret := x })
  | _ => c.finish (c.g.onStrand c.r.entry fun st => { st with trapcode := x.setWidth 32 })

theorem execWrsr_eq {x : Dword} (h : Runs (.wrsr f) s c) (present : c.trapValue f = some x) : exec (.wrsr f) s = c.writeTrap f.d.toNat x := by
  change execWrsr f s = _
  rw [execWrsr, issue_runs h]
  dsimp only
  rw [← Ctx.trapValue, present]
  rfl

/-- A strand is changed, and goes on. -/
theorem Ctx.finish_onStrand (h : Runs i s c) (u : Strand → Strand) :
    c.Leaves (c.finish (c.g.onStrand c.r.entry u)) ((u c.st).goto ((u c.st).pc + 8)) c.g.vreg c.g.sreg c.g.predBit := by
  refine ⟨{ c.g with strands := c.g.strands.put c.r.entry ((u c.st).goto ((u c.st).pc + 8)) }, ?_, rfl, fun _ _ _ => rfl, fun _ => rfl, fun _ _ _ => rfl⟩
  rw [Ctx.finish, Group.onStrand_eq h.look, Group.onStrand_eq (Map.look_put_same ..), Map.put_put]

/-- Settles O6: `rdsr` is a result in each lane; what `wrsr` writes is decided by its value and by the register that it names. -/
theorem specialAndTrapRegisters : Obligations.SpecialAndTrapRegisters := by
  intro f s c value
  refine ⟨fun h => ?read, fun h => ?write⟩
  case read => exact rdsr_result h
  case write =>
    cases v : c.trapValue f with
    | none =>
      rw [show value = none from v]
      exact wrsr_passes h v
    | some x =>
      rw [show value = some x from v]
      have run := execWrsr_eq h v
      refine ⟨fun group => ?_, fun ret => ?_, fun code => ?_⟩
      · rw [run, group]
        exact Ctx.finish_eq h.look
      · rw [run, ret]
        exact Ctx.finish_onStrand h fun st => { st with trapret := x }
      · rw [run, code]
        exact Ctx.finish_onStrand h fun st => { st with trapcode := x.setWidth 32 }

/-! ### Votes and predicates (R99, R100) -/

/-- Settles O7: votes write the lanes of part, predicate logic the active lanes. -/
theorem votesAndPredicates : Obligations.VotesAndPredicates := by
  intro f s c part pa sets a b lanes
  have inPart : ∀ l ∈ part, l < 32 := fun l => Ctx.part_lt
  have logic {i : Instr} (op : Bool → Bool → Bool) (e : exec i s = runPreds i f s op) : sets i (c.active f.g) fun l => op (a l) (b l) := fun h => by
    rw [e, runPreds, issue_runs h]
    exact Ctx.finish_preds h.look _ _ _ fun _ => Ctx.active_lt
  refine ⟨fun h => ?any, fun h => ?all, logic (fun a b => a && b) rfl, logic (fun a b => a || b) rfl, logic (fun a b => a != b) rfl, fun h => ?not, fun h => ?count,
    (maskOf fun l => decide (l ∈ c.voters f)).setWidth 64, fun h => ?ballot, fun j _ => ?bit⟩
  case any =>
    change c.Leaves (execVoteAny f s) _ _ _ _
    rw [execVoteAny, issue_runs h]
    exact Ctx.finish_preds h.look _ _ _ inPart
  case all =>
    change c.Leaves (execVoteAll f s) _ _ _ _
    rw [execVoteAll, issue_runs h]
    exact Ctx.finish_preds h.look _ _ _ inPart
  case not =>
    change c.Leaves (execPnot f s) _ _ _ _
    rw [execPnot, issue_runs h]
    exact Ctx.finish_preds h.look _ _ _ fun _ => Ctx.active_lt
  case count =>
    change c.Leaves (execPpopc f s) _ _ _ _
    rw [execPpopc, issue_runs h, List.countP_eq_length_filter]
    exact Ctx.finish_lanes h.look _ _ _ _ inPart
  case ballot =>
    change c.Leaves (execBallot f s) _ _ _ _
    rw [execBallot, issue_runs h]
    simp only [List.contains_eq_mem]
    exact Ctx.finish_lanes h.look _ _ _ _ inPart
  case bit =>
    rw [BitVec.getLsbD_setWidth]
    by_cases lane : j < 32
    · simp [getLsbD_maskOf lane, Ctx.voters, part, pa, show j < 64 by omega]
    · simp [BitVec.getLsbD_of_ge _ j (Nat.le_of_not_lt lane), show j ∉ part from fun voter => lane (inPart j voter)]

end
end Sys2Proof.Machine

namespace Sys2Proof

/-! ### Places in a list without repetitions -/

section
variable {α β : Type} [BEq α] [LawfulBEq α] {xs : List α}

theorem zipIdx_map_eq_map_idxOf (nodup : xs.Nodup) (f : Nat → β) : (xs.zipIdx.map fun e => (e.1, f e.2)) = xs.map fun x => (x, f (xs.idxOf x)) := by
  refine List.ext_getElem (by simp) fun i _ _ => ?_
  simp [nodup.idxOf_getElem]

theorem zip_eq_map_idxOf {ys : List β} (nodup : xs.Nodup) (d : β) :
    xs.zip ys = (xs.take ys.length).map fun x => (x, ys.getD (xs.idxOf x) d) := by
  refine List.ext_getElem (by simp [Nat.min_comm]) fun i below _ => ?_
  have inside : i < ys.length := (Nat.lt_min.1 (List.length_zip ▸ below)).2
  simp [nodup.idxOf_getElem, inside]

end

/-- Keeping the first element of least key: it is one of the elements, and none has a smaller key. -/
theorem foldl_least {α : Type} (key : α → Int) (xs : List α) (x : α) :
    let m := xs.foldl (fun m y => if key y < key m then y else m) x
    m ∈ x :: xs ∧ ∀ y ∈ x :: xs, key m ≤ key y := by
  induction xs generalizing x with
  | nil => simp
  | cons y ys ih =>
    obtain ⟨mem, least⟩ := ih (if key y < key x then y else x)
    have first : key (if key y < key x then y else x) ≤ key x ∧ key (if key y < key x then y else x) ≤ key y := by
      split <;> omega
    have start := least _ List.mem_cons_self
    refine ⟨?_, fun z hz => ?_⟩
    · rcases List.mem_cons.1 mem with e | later
      · rw [List.foldl_cons, e]
        split <;> simp
      · exact List.mem_cons_of_mem _ (List.mem_cons_of_mem _ later)
    · rcases List.mem_cons.1 hz with rfl | hz
      · exact start.trans first.1
      · rcases List.mem_cons.1 hz with rfl | later
        · exact start.trans first.2
        · exact least z (List.mem_cons_of_mem _ later)

end Sys2Proof

namespace Sys2Proof.Machine

/-! ### The lanes of part -/

theorem lanes_nodup (m : LaneMask) : (lanes m).Nodup := List.nodup_range.filter _
theorem Ctx.active_nodup (c : Ctx) (gd : Guard) : (c.active gd).Nodup := (lanes_nodup _).filter _
theorem Ctx.part_nodup (c : Ctx) (gd : Guard) : (c.part gd).Nodup := (c.active_nodup gd).filter _

/-! ### Reductions (R102) -/

theorem reduceAdd_eq (t : Ty) (rm : Rm) (sat : Bool) (xs : List Dword) :
    reduceAdd t rm sat xs = if t = .f32 then BitVec.ofNat 64 (fpSum rm xs) else t.wrap sat (xs.map t.val).sum := by
  simp only [reduceAdd, intSum, beq_iff_eq, List.sum_eq_foldl, List.foldl_map]

theorem reduceExt_least {t : Ty} (int : t ≠ .f32) (x : Dword) (xs : List Dword) :
    let m := reduceExt t false (x :: xs)
    m ∈ x :: xs ∧ ∀ y ∈ x :: xs, t.val m ≤ t.val y := by
  have fold : reduceExt t false (x :: xs) = xs.foldl (fun m y => if t.val y < t.val m then y else m) x := by simp [reduceExt, int]
  rw [fold]
  exact foldl_least t.val xs x

theorem reduceExt_greatest {t : Ty} (int : t ≠ .f32) (x : Dword) (xs : List Dword) :
    let m := reduceExt t true (x :: xs)
    m ∈ x :: xs ∧ ∀ y ∈ x :: xs, t.val y ≤ t.val m := by
  have fold : reduceExt t true (x :: xs) = xs.foldl (fun m y => if -t.val y < -t.val m then y else m) x := by simp [reduceExt, int]
  rw [fold]
  obtain ⟨mem, least⟩ := foldl_least (fun y => -t.val y) xs x
  exact ⟨mem, fun y hy => Int.neg_le_neg_iff.1 (least y hy)⟩

section
variable {i : Instr} {f : FormV} {s : State} {c : Ctx}

/-- A reduction writes what its function makes of the values of part. -/
theorem runRedx_leaves {red : List Dword → Dword} (h : Runs i s c) (e : exec i s = runRedx i f s red) :
    c.Leaves (exec i s) c.onward (c.withLanes f.ty.wide f.d.toNat (c.part f.g) fun _ => red ((c.part f.g).map fun l => c.lane f.ty.wide f.a.toNat l)) c.g.sreg c.g.predBit := by
  rw [e, runRedx, issue_runs h]
  simp only [Ctx.partVals, List.map_map, Function.comp_def]
  exact Ctx.finish_lanes h.look _ _ _ _ fun _ => Ctx.part_lt

/-- The scan's value at the j-th lane of part. -/
def Ctx.scanAt (c : Ctx) (f : FormV) (j : Nat) : Dword :=
  let before := ((c.part f.g).take (if f.x.getLsbD 0 then j else j + 1)).map fun l => c.lane f.ty.wide f.a.toNat l
  if before.isEmpty then 0 else reduceAdd f.ty f.rm f.sat before

theorem Ctx.scanAt_eq (c : Ctx) (f : FormV) (j : Nat) : c.scanAt f j =
    let before := ((c.part f.g).take (j + if f.x.getLsbD 0 then 0 else 1)).map fun l => c.lane f.ty.wide f.a.toNat l
    if before = [] then 0 else if f.ty = .f32 then BitVec.ofNat 64 (fpSum f.rm before) else f.ty.wrap f.sat (before.map f.ty.val).sum := by
  have count : (if f.x.getLsbD 0 then j else j + 1) = j + if f.x.getLsbD 0 then 0 else 1 := by split <;> rfl
  simp only [Ctx.scanAt, count, reduceAdd_eq, List.isEmpty_iff]

theorem scanxAdd_leaves (h : Runs (.scanxAdd f) s c) :
    c.Leaves (exec (.scanxAdd f) s) c.onward (c.withLanes f.ty.wide f.d.toNat (c.part f.g) fun l => c.scanAt f ((c.part f.g).idxOf l)) c.g.sreg c.g.predBit := by
  change c.Leaves (execScanxAdd f s) _ _ _ _
  rw [execScanxAdd, issue_runs h]
  simp only [Ctx.partVals, List.zipIdx_map, List.map_map, ← List.map_take, Function.comp_def]
  change c.Leaves (c.finish (c.g.setLanes _ _ ((c.part f.g).zipIdx.map fun e => (e.1, c.scanAt f e.2)))) _ _ _ _
  rw [zipIdx_map_eq_map_idxOf (c.part_nodup f.g) (c.scanAt f)]
  exact Ctx.finish_lanes h.look _ _ _ _ fun _ => Ctx.part_lt

end

/-- Settles O9: a reduction is `runRedx`; the extremes are those of `foldl_least`. -/
theorem reductions : Obligations.Reductions := by
  refine ⟨fun f s c => ?_, fun t x xs int => ⟨reduceExt_least int x xs, reduceExt_greatest int x xs⟩⟩
  extract_lets part a lanes
  have add (h : Runs (.redxAdd f) s c) := runRedx_leaves h rfl
  have scan (h : Runs (.scanxAdd f) s c) := scanxAdd_leaves h
  simp only [reduceAdd_eq, List.map_map] at add
  simp only [Ctx.scanAt_eq] at scan
  exact ⟨add, fun h => runRedx_leaves h rfl, fun h => runRedx_leaves h rfl, scan⟩

/-! ### Packing and spreading lanes (R103) -/

/-- Settles O10: both write one value to each lane of a list, at the lane's place in part or among the lanes with p[b]. -/
theorem compactAndExpand : Obligations.CompactAndExpand := by
  intro f s c part a b chosen q
  refine ⟨fun h => ?pack, fun h => ?spread⟩
  case pack =>
    change c.Leaves (execCompact f s) _ _ _ _
    rw [execCompact, issue_runs h]
    let x (l : Nat) : Dword := let src := chosen.getD (part.idxOf l) 0; if f.x.getLsbD 0 then BitVec.ofNat 64 src else a src
    have out : ((part.zip chosen).map fun e => (e.1, if f.x.getLsbD 0 then BitVec.ofNat 64 e.2 else a e.2)) = (part.take chosen.length).map fun l => (l, x l) := by
      rw [zip_eq_map_idxOf (c.part_nodup f.g) 0, List.map_map]
      rfl
    simp only [beq_iff_eq]
    change c.Leaves (c.finish (if (c.active f.g).isEmpty then c.g.setLanes false f.d.toNat ((part.zip chosen).map _) else
      (c.g.setLanes false f.d.toNat ((part.zip chosen).map _)).setS f.c.toNat (BitVec.ofNat 64 chosen.length))) _ _ _ _
    rw [out]
    have first : ∀ l ∈ part.take chosen.length, l < 32 := fun l hl => Ctx.part_lt (List.mem_of_mem_take hl)
    by_cases idle : c.active f.g = []
    · rw [if_pos (List.isEmpty_iff.2 idle), if_pos idle]
      exact Ctx.finish_lanes h.look _ _ _ x first
    · rw [if_neg (mt List.isEmpty_iff.1 idle), if_neg idle]
      refine (Ctx.finish_leaves h.look ((Group.setLanes_alike ..).trans (Group.setS_alike ..))).congr (fun r l hl => ?_) (fun k => ?_) fun k l _ => ?_
      · rw [Group.vreg_setS, Group.vreg_setLanes _ _ _ _ x first r l hl]
        rfl
      · rw [Group.sreg_setS, Group.sreg_setLanes]
        rfl
      · rw [Group.predBit_setS, Group.predBit_setLanes]
  case spread =>
    change c.Leaves (execExpand f s) _ _ _ _
    rw [execExpand, issue_runs h]
    have nodup : q.Nodup := (c.active_nodup f.g).filter _
    dsimp only
    rw [zipIdx_map_eq_map_idxOf nodup fun n => c.cross f.ty.wide f.a.toNat n]
    exact Ctx.finish_lanes h.look _ _ _ _ fun l hl => Ctx.active_lt (List.mem_of_mem_filter hl)

/-! ### Packed arithmetic (R107) -/

/-- Settles O12: every packed instruction is `runV` of its two elements, or of the sum of two products and an addend. -/
theorem packedResults : Obligations.PackedResults := by
  intro f s c F a b d gives
  have binary {i : Instr} (fn : Nat → Nat → Nat) (e : exec i s = runH2 i f s fn) : gives i fun l e => fn (a l e) (b l e) := fun h => by
    rw [e, runH2, issue_runs h]
    exact runV_result h.look f f.ty false _
  refine ⟨binary (F.add f.rm) rfl, binary (F.mul f.rm) rfl, fun h => ?fma, binary F.min rfl, binary F.max rfl, fun h => ?dot⟩
  case fma =>
    change c.Result (execHfma2 f s) _ _ _ _
    rw [execHfma2, issue_runs h]
    exact runV_result h.look f f.ty false _
  case dot =>
    change c.Result (execHdot2 f s) _ _ _ _
    rw [execHdot2, issue_runs h]
    exact runV_result h.look f .f32 false _

end Sys2Proof.Machine

namespace Sys2Proof.Machine

/-! ### Strand-wide control (R85-R87, R92-R94) -/

/-- A displacement counts words of 8 bytes (R58). -/
theorem Ctx.target_eq (c : Ctx) (disp : BitVec 32) : c.target disp = c.st.pc + 8 * disp.signExtend 64 := by
  rw [Ctx.target, BitVec.shiftLeft_eq_mul_twoPow, BitVec.mul_comm]
  rfl

section
variable {i : Instr} {s : State} {c : Ctx} {gd : Guard}

/-- A strand-wide instruction has its effect if its guard holds, and none otherwise (R86). -/
theorem Runs.leaves_if {o : Res} {st : Strand} {v : Nat → Nat → Word} {sc : Nat → Dword} {p : Nat → Nat → Bool} (h : Runs i s c)
    (e : exec i s = if c.wide gd then o else c.finish c.g) (does : c.Leaves o st v sc p) :
    if c.wide gd then c.Leaves (exec i s) st v sc p else c.Passes (exec i s) := by
  rw [e]
  split
  · exact does
  · exact Ctx.passes h.look

theorem Runs.raises_if {x : FaultInfo} (h : Runs i s c) (e : exec i s = if c.wide gd then c.fault x else c.finish c.g) :
    if c.wide gd then exec i s = .next (c.s.takeFault c.r c.st.pc x) else c.Passes (exec i s) := by
  rw [e]
  split
  · rfl
  · exact Ctx.passes h.look

theorem Ctx.branch_link (h : Runs i s c) (k : Nat) (x t : Dword) :
    c.Leaves (c.branch (c.g.setS k x) t) (c.st.goto t) c.g.vreg (c.withScalar k x) c.g.predBit :=
  (Ctx.branch_leaves h.look (Group.setS_alike _ _ _) t).congr (by simp) (fun _ => Group.sreg_setS _ _ _ _) (by simp)

theorem Ctx.branchTo_aligned {t : Dword} (aligned : t &&& 7 = 0) (g : Group) : c.branchTo g t = c.branch g t := if_pos (beq_iff_eq.2 aligned)

theorem Ctx.branchTo_misaligned {t : Dword} (misaligned : t &&& 7 ≠ 0) (g : Group) : c.branchTo g t = c.fault { code := faultAlign, va := t } :=
  if_neg (mt beq_iff_eq.1 misaligned)

/-- The strand of the group is replaced, and the registers stay. -/
theorem Ctx.strand_leaves (c : Ctx) (st : Strand) : c.Leaves (.next (c.s.setGroup c.key (c.g.setStrand c.r.entry st))) st c.g.vreg c.g.sreg c.g.predBit :=
  ⟨_, rfl, rfl, fun _ _ _ => rfl, fun _ => rfl, fun _ _ _ => rfl⟩

theorem execNap_eq {n : FormL} (h : Runs (.nap n) s c) : exec (.nap n) s = if c.wide n.g then
    (if n.imm = 0 then c.finish c.g else .next (c.s.setGroup c.key (c.g.setStrand c.r.entry { c.onward with wait := .nap (c.s.now + n.imm.toNat) })))
    else c.finish c.g := by
  change execNap n s = _
  rw [execNap, issue_runs h, Group.onStrand_eq h.look]
  by_cases zero : n.imm = 0
  · simp only [zero, bne_self_eq_false, Bool.and_false, Bool.false_eq_true, if_true, if_false, ite_self]
  · simp only [zero, bne_iff_ne, ne_eq, not_false_eq_true, Bool.and_eq_true, and_true, if_false]
    rfl

theorem execTrap_eq {n : FormL} (h : Runs (.trap n) s c) : exec (.trap n) s = if c.wide n.g then
    (if c.g.trapvec = 0 then c.fault { code := faultWatch, detail := watchDetail 2 n.imm }
      else if c.g.trapvec &&& 7 = 0 then .next (c.s.setGroup c.key (c.g.setStrand c.r.entry { c.st.goto c.g.trapvec with trapret := c.st.pc + 8, trapcode := n.imm }))
      else c.fault { code := faultAlign, va := c.g.trapvec })
    else c.finish c.g := by
  change execTrap n s = _
  rw [execTrap, issue_runs h]
  simp only [Bool.not_eq_true', beq_iff_eq, bne_iff_ne, ne_eq, ite_not]
  cases c.wide n.g <;> rfl

end

/-- Settles O14: under a guard that holds each instruction is a branch, a link with a branch, or a strand replaced. -/
theorem strandWideControl : Obligations.StrandWideControl := by
  intro f b n s c goes target link
  refine ⟨fun h => ?nop, fun h => ?yield, fun h => ?bra, fun h => ?call, fun aligned => ⟨fun h => ?brx, fun h => ?callx, fun h => ?ret⟩, fun aligned h => ?tret, fun h => ?nap,
    fun handler aligned h => ?trap⟩
  case nop =>
    change c.Passes (execNop f s)
    rw [execNop, issue_runs h]
    exact Ctx.passes h.look
  case yield =>
    change c.Passes (execYield f s)
    rw [execYield, issue_runs h]
    exact Ctx.passes h.look
  case bra => exact h.leaves_if (show execBra b s = _ from issue_runs h _) (c.target_eq b.disp ▸ Ctx.branch_leaves h.look (Group.Alike.refl _) _)
  case call => exact h.leaves_if (show execCall b s = _ from issue_runs h _) (c.target_eq b.disp ▸ Ctx.branch_link h _ _ _)
  case brx => exact h.leaves_if (show execBrx f s = _ from issue_runs h _) (Ctx.branchTo_aligned aligned _ ▸ Ctx.branch_leaves h.look (Group.Alike.refl _) _)
  case callx => exact h.leaves_if (show execCallx f s = _ from issue_runs h _) (Ctx.branchTo_aligned aligned _ ▸ Ctx.branch_link h _ _ _)
  case ret => exact h.leaves_if (show execRet f s = _ from issue_runs h _) (Ctx.branchTo_aligned aligned _ ▸ Ctx.branch_leaves h.look (Group.Alike.refl _) _)
  case tret => exact h.leaves_if (show execTret f s = _ from issue_runs h _) (Ctx.branchTo_aligned aligned _ ▸ Ctx.branch_leaves h.look (Group.Alike.refl _) _)
  case nap =>
    refine h.leaves_if (execNap_eq h) ?_
    split
    · exact Ctx.passes h.look
    · exact c.strand_leaves _
  case trap =>
    have run := execTrap_eq h
    rw [if_neg handler, if_pos aligned] at run
    exact h.leaves_if run (c.strand_leaves _)

/-- Settles O15: under a guard that holds each of these is a fault. -/
theorem controlFaults : Obligations.ControlFaults := by
  intro f n s c raises misaligned
  refine ⟨fun off => ⟨fun h => ?brx, fun h => ?callx, fun h => ?ret⟩, fun off h => ?tret, fun handler off h => ?trap, fun missing h => ?missing, fun h => ?brk⟩
  case brx => exact h.raises_if ((show execBrx f s = _ from issue_runs h _).trans (by rw [Ctx.branchTo_misaligned off]))
  case callx => exact h.raises_if ((show execCallx f s = _ from issue_runs h _).trans (by rw [Ctx.branchTo_misaligned off]))
  case ret => exact h.raises_if ((show execRet f s = _ from issue_runs h _).trans (by rw [Ctx.branchTo_misaligned off]))
  case tret => exact h.raises_if ((show execTret f s = _ from issue_runs h _).trans (by rw [Ctx.branchTo_misaligned off]))
  case trap =>
    have run := execTrap_eq h
    rw [if_neg handler, if_neg off] at run
    exact h.raises_if run
  case missing =>
    have run := execTrap_eq h
    rw [if_pos missing] at run
    exact h.raises_if run
  case brk => exact h.raises_if (show execBrk f s = _ from issue_runs h _)

end Sys2Proof.Machine

namespace Sys2Proof.Machine

/-! ### Ejected records (R207) -/

section
variable {s : State} {core n : Nat} {g : Group} {r : Record}

theorem State.eject_places (empty : g.saveList = []) (entry : g.freeEntry = some n) : s.eject core g r = (s, g.setStrand n (r.strand s.now)) := by
  rw [State.eject, empty, entry]
  rfl

theorem State.eject_queues (empty : g.saveList = []) (entry : g.freeEntry = none) (room : (s.core core).docent.length < 4096) :
    s.eject core g r = (s.onCore core fun x => { x with docent := x.docent ++ [r] }, g) := by
  rw [State.eject, empty, entry]
  change s.tail core g r = _
  rw [State.tail, empty, if_pos (by simpa using room)]

theorem State.eject_saves (full : g.saveList ≠ [] ∨ (g.freeEntry = none ∧ 4096 ≤ (s.core core).docent.length)) :
    s.eject core g r = (s, { g with saveList := g.saveList ++ [r] }) := by
  have saved : s.tail core g r = (s, { g with saveList := g.saveList ++ [r] }) := by
    rw [State.tail, if_neg]
    simp only [Bool.and_eq_true, List.isEmpty_iff, decide_eq_true_eq]
    rintro ⟨empty, room⟩
    rcases full with more | ⟨_, many⟩
    · exact more empty
    · omega
  rw [State.eject, ← saved]
  rcases full with more | ⟨entry, _⟩
  · rw [if_neg (mt List.isEmpty_iff.1 more)]
  · rw [entry, ite_self]

end

/-! ### Divergent branches (R88, R90) -/

section
variable {s : State} {c : Ctx}

theorem Ctx.pushStack_pushes {k : BitVec 3} {t e : LaneMask} {target : Dword} (room : c.g.stack.length < 4096) :
    c.pushStack k t e target = .next (c.s.setGroup c.key { c.g with
      stack := { k := k, second := false, other := e, otherPc := c.st.pc + 8, all := c.st.mask } :: c.g.stack,
      strands := c.g.strands.put c.r.entry { c.st.goto target with mask := t } }) := if_neg (Nat.not_le_of_lt room)

theorem Ctx.pushStack_overflows {k : BitVec 3} {t e : LaneMask} {target : Dword} (full : 4096 ≤ c.g.stack.length) :
    c.pushStack k t e target = .next (c.s.takeFault c.r c.st.pc { code := faultWatch, detail := watchDetail 5 0 }) := if_pos full

theorem execBrd_eq {b : FormB} (h : Runs (.brd b) s c) : exec (.brd b) s =
    let m := c.lanesOf
    let t := maskOf fun l => m.getLsbD l && c.g.guardLane b.g l
    let e := m &&& ~~~t
    let target := c.st.pc + 8 * b.disp.signExtend 64
    if e = 0 then c.branch c.g target else if t = 0 then c.finish c.g else if c.g.stackMode then c.pushStack (b.k.setWidth 3) t e target
    else c.divide (b.k.setWidth 3) t e target := by
  change execBrd b s = _
  rw [execBrd, issue_runs h]
  simp only [beq_iff_eq, Ctx.target_eq]

end

/-- Settles O16: a division is `divide` or `pushStack`, and the side that leaves goes where `eject` puts it. -/
theorem divergentBranch : Obligations.DivergentBranch := by
  intro b s c h m t e target next k
  have run : exec (.brd b) s = if e = 0 then c.branch c.g target else if t = 0 then c.finish c.g else if c.g.stackMode then c.pushStack k t e target
      else c.divide k t e target := execBrd_eq h
  refine ⟨fun all => ?taken, fun stays none_ => ?notTaken, fun stays takes stack room => ?pushes, fun stays takes stack full => ?overflows, fun stays takes mode => ?divides⟩
  case taken =>
    rw [run, if_pos all]
    exact Ctx.branch_leaves h.look (Group.Alike.refl _) target
  case notTaken =>
    rw [run, if_neg stays, if_pos none_]
    exact Ctx.passes h.look
  case pushes => rw [run, if_neg stays, if_neg takes, if_pos stack, Ctx.pushStack_pushes room]
  case overflows => rw [run, if_neg stays, if_neg takes, if_pos stack, Ctx.pushStack_overflows full]
  case divides =>
    intro taken stay go g
    have divided : exec (.brd b) s = .next ((c.s.eject c.r.core g go).1.setGroup c.key (c.s.eject c.r.core g go).2) := by
      rw [run, if_neg stays, if_neg takes, mode]
      simp only [Ctx.divide, g, stay, go, taken, decide_eq_true_eq]
      rfl
    exact ⟨fun n empty entry => divided.trans (by rw [State.eject_places (g := g) empty entry]; rfl),
      fun empty entry room => divided.trans (by rw [State.eject_queues (g := g) empty entry room]),
      fun full => divided.trans (by rw [State.eject_saves (g := g) full])⟩

/-! ### Joins (R89, R90, R93) -/

section
variable {s : State} {c : Ctx} {b : FormB}

theorem Group.takePending_eq {g : Group} {e : Nat} {st : Strand} (h : g.strands.look e = some st) (k : BitVec 3) : g.takePending e k = { g with
    pending := Map.set 0 g.pending k.toNat 0,
    strands := g.strands.put e { st.goto (st.pc + 8) with mask := st.mask ||| (Map.get 0 g.pending k.toNat &&& g.live) } } :=
  Group.onStrand_eq (g := g.setPending k 0) h _

theorem join_inStackMode (h : Runs (.join b) s c) (mode : c.g.stackMode = true) : exec (.join b) s = c.joinStack (b.k.setWidth 3) := by
  change execJoin b s = _
  rw [execJoin, issue_runs h]
  exact if_pos mode

theorem join_inContinuationMode (h : Runs (.join b) s c) (mode : c.g.stackMode = false) {k : BitVec 3} (own : b.k.setWidth 3 = k) : exec (.join b) s =
    if c.st.cont = some k then
      .next (c.s.setGroup c.key (c.s.dropStrand c.key ((c.g.setJc k (c.g.jcOf k - 1)).setPending k (c.g.pendingOf k ||| c.st.mask)) c.r.entry))
    else if c.g.jcOf k = 0 then .next (c.s.setGroup c.key (c.g.takePending c.r.entry k))
    else c.await (.join k) := by
  change execJoin b s = _
  rw [execJoin, issue_runs h]
  simp only [mode, own, beq_iff_eq, Bool.false_eq_true, if_false]

theorem Ctx.joinStack_passes (h : c.g.strands.look c.r.entry = some c.st) {k : BitVec 3} (other : ∀ x, c.g.stack.head? = some x → x.k ≠ k) : c.Passes (c.joinStack k) := by
  rw [Ctx.joinStack]
  split
  · exact Ctx.passes h
  · next x rest top =>
    rw [if_pos (bne_iff_ne.2 (other x (by rw [top]; rfl)))]
    exact Ctx.passes h

/-- The first side stops at the join, and the other side runs. -/
theorem Ctx.joinStack_first {x : StackEntry} {rest : List StackEntry} (top : c.g.stack = x :: rest) (first : x.second = false) :
    c.joinStack x.k = .next (c.s.setGroup c.key { c.g with
      stack := { x with second := true, otherPc := c.st.pc } :: rest, strands := c.g.strands.put c.r.entry { c.st.goto x.otherPc with mask := x.other } }) := by
  rw [Ctx.joinStack, top]
  simp [first]
  rfl

/-- The second side meets the first, and both go on. -/
theorem Ctx.joinStack_second {x : StackEntry} {rest : List StackEntry} (top : c.g.stack = x :: rest) (second : x.second = true) :
    c.joinStack x.k = .next (c.s.setGroup c.key { c.g with
      stack := rest, strands := c.g.strands.put c.r.entry { c.onward with mask := x.all &&& c.g.live } }) := by
  rw [Ctx.joinStack, top]
  simp [second]
  rfl

end

/-- A waiter at `join` k goes on. -/
theorem joinWake_wakes {r : StrandRef} {s : State} {g : Group} {st : Strand} {k : BitVec 3} (there : s.strandAt r = some (g, st)) (waits : st.wait = .join k)
    (zero : Map.get 0 g.jc k.toNat = 0) (runs : g.mayRun = true) (free : g.calling = false) : exec (.joinWake r) s = .next (s.setGroup (gkey r.core r.slot) { g with
      pending := Map.set 0 g.pending k.toNat 0,
      strands := g.strands.put r.entry { st.goto (st.pc + 8) with mask := st.mask ||| (Map.get 0 g.pending k.toNat &&& g.live) } }) := by
  obtain ⟨_, look⟩ := State.look_of_strandAt there
  change execJoinWake r s = _
  simp only [execJoinWake, there, waits, Group.jcOf, zero, runs, free, Group.takePending_eq look, decide_true, Bool.not_false, Bool.and_self, if_true]

theorem napExpiry_wakes {r : StrandRef} {s : State} {g : Group} {st : Strand} {t : Nat} (there : s.strandAt r = some (g, st)) (naps : st.wait = .nap t) (due : t ≤ s.now) :
    exec (.napExpiry r) s = .next (s.setGroup (gkey r.core r.slot) { g with strands := g.strands.put r.entry { st with wait := .ready } }) := by
  change execNapExpiry r s = _
  simp only [execNapExpiry, there, naps, if_pos due]
  rfl

/-- Settles O17: in continuation mode the strand's continuation and jc[k] decide, in stack mode the entry on top; the wake events are those of one strand. -/
theorem join : Obligations.Join := by
  refine ⟨fun b s c h => ?_, fun r s g st k t there => ⟨joinWake_wakes there, napExpiry_wakes there⟩⟩
  intro k jc pending
  have continuation (mode : c.g.stackMode = false) := join_inContinuationMode h mode (k := k) rfl
  have stack (mode : c.g.stackMode = true) : exec (.join b) s = c.joinStack k := join_inStackMode h mode
  refine ⟨fun mode reports => ?retires, fun mode other zero => ?goes, fun mode other more => ?waits, fun mode top => ?passes, fun x rest mode top own second => ?second,
    fun x rest mode top own first => ?first⟩
  case retires =>
    rw [continuation mode, if_pos reports]
    rfl
  case goes =>
    rw [continuation mode, if_neg other, Group.takePending_eq h.look]
    exact if_pos zero
  case waits =>
    rw [continuation mode, if_neg other, Ctx.await, Group.onStrand_eq h.look]
    exact if_neg more
  case passes =>
    rw [stack mode]
    exact Ctx.joinStack_passes h.look top
  case second =>
    rw [stack mode, ← own]
    exact Ctx.joinStack_second top second
  case first =>
    rw [stack mode, ← own]
    exact ⟨{ x with second := true, otherPc := c.st.pc }, rfl, rfl, rfl, Ctx.joinStack_first top first⟩

/-! ### `exit` (R91) -/

section
variable {g : Group} {e n : Nat} {st : Strand} {x : StackEntry} {rest : List StackEntry}

/-- Where the other side of the entry on top has lanes left, it runs. -/
theorem Group.unwind_first (look : g.strands.look e = some st) (top : g.stack = x :: rest) (first : x.second = false) (left : x.other &&& g.live ≠ 0) :
    g.unwind e (n + 1) = { g with stack := { x with second := true } :: rest, strands := g.strands.put e { st.goto x.otherPc with mask := x.other &&& g.live } } := by
  rw [Group.unwind, top]
  simp only [first, Bool.false_eq_true, if_false, beq_iff_eq, left]
  exact Group.onStrand_eq (g := { g with stack := { x with second := true } :: rest }) look _

/-- Where both sides of the entry on top have run, the lanes that are left go on behind its join. -/
theorem Group.unwind_second (look : g.strands.look e = some st) (top : g.stack = x :: rest) (second : x.second = true) (left : x.all &&& g.live ≠ 0) :
    g.unwind e (n + 1) = { g with stack := rest, strands := g.strands.put e { st.goto (x.otherPc + 8) with mask := x.all &&& g.live } } := by
  rw [Group.unwind, top]
  simp only [second, if_true, beq_iff_eq, left, if_false]
  exact Group.onStrand_eq (g := { g with stack := rest }) look _

theorem Group.unwind_first_dead (top : g.stack = x :: rest) (first : x.second = false) (dead : x.other &&& g.live = 0) :
    g.unwind e (n + 1) = Group.unwind { g with stack := { x with second := true } :: rest } e n := by
  rw [Group.unwind, top]
  simp only [first, Bool.false_eq_true, if_false, beq_iff_eq, dead, if_true]

theorem Group.unwind_second_dead (top : g.stack = x :: rest) (second : x.second = true) (dead : x.all &&& g.live = 0) :
    g.unwind e (n + 1) = Group.unwind { g with stack := rest } e n := by
  rw [Group.unwind, top]
  simp only [second, if_true, beq_iff_eq, dead]

/-- With no lane left in any entry the strand retires: each entry is looked at twice at most. -/
theorem Group.unwind_dead {stack : List StackEntry} (own : g.stack = stack) (dead : ∀ x ∈ stack, x.other &&& g.live = 0 ∧ x.all &&& g.live = 0) (fuel : stack.length * 2 < n) :
    g.unwind e n = { g with stack := [], strands := g.strands.del e } := by
  induction stack generalizing g n with
  | nil =>
    obtain ⟨n, rfl⟩ := Nat.exists_eq_succ_of_ne_zero (Nat.ne_of_gt fuel)
    rw [Group.unwind, own]
  | cons x rest ih =>
    rw [List.length_cons] at fuel
    obtain ⟨n, rfl⟩ := Nat.exists_eq_add_of_le' (show 2 ≤ n by omega)
    obtain ⟨other, all⟩ := dead x List.mem_cons_self
    have later : ∀ y ∈ rest, y.other &&& g.live = 0 ∧ y.all &&& g.live = 0 := fun y hy => dead y (List.mem_cons_of_mem _ hy)
    cases phase : x.second with
    | false =>
      have turned := Group.unwind_second_dead (g := { g with stack := { x with second := true } :: rest }) (e := e) (n := n) rfl rfl all
      rw [Group.unwind_first_dead own phase other, turned]
      exact ih rfl later (by omega)
    | true =>
      rw [Group.unwind_second_dead own phase all]
      exact ih rfl later (by omega)

end

/-- The group when a strand that reports to a join counter ends. -/
def Group.reported (g : Group) (cont : Option (BitVec 3)) : Group :=
  match cont with
  | none => g
  | some k => g.setJc k (g.jcOf k - 1)

theorem execExit_eq {f : FormV} {s : State} {c : Ctx} (h : Runs (.exit_ f) s c) {live : LaneMask} (own : live = c.g.live &&& ~~~(maskOf fun l => decide (l ∈ c.active f.g))) :
    exec (.exit_ f) s = .next ((if c.st.mask &&& live ≠ 0 then
        c.s.setGroup c.key ({ c.g with live := live }.setStrand c.r.entry { c.onward with mask := c.st.mask &&& live })
      else if c.g.stackMode then c.s.setGroup c.key (Group.unwind { c.g with live := live } c.r.entry (c.g.stack.length * 2 + 1))
      else c.s.setGroup c.key (c.s.dropStrand c.key (Group.reported { c.g with live := live } c.st.cont) c.r.entry)).barriers c.g.block) := by
  change execExit f s = _
  rw [execExit, issue_runs h, own]
  simp only [List.contains_eq_mem, bne_iff_ne]
  cases c.st.cont <;> rfl

/-- Settles O18: with lanes left the strand goes on; without, it retires or the stack is unwound. -/
theorem exitLanes : Obligations.ExitLanes := by
  intro f s c h live m
  have run := execExit_eq h (live := live) rfl
  have stack (gone : c.st.mask &&& live = 0) (mode : c.g.stackMode = true) : exec (.exit_ f) s =
      .next ((c.s.setGroup c.key (Group.unwind { c.g with live := live } c.r.entry (c.g.stack.length * 2 + 1))).barriers c.g.block) := by
    rw [run, if_neg (not_not.2 gone), if_pos mode]
  refine ⟨fun (left : c.st.mask &&& live ≠ 0) => ?stays, fun (gone : c.st.mask &&& live = 0) mode => ?retires, fun gone mode dead => ?ends,
    fun x rest gone mode top first left => ?other, fun x rest gone mode top second left => ?behind⟩
  case stays =>
    rw [run, if_pos left]
    rfl
  case retires =>
    rw [run, if_neg (not_not.2 gone), mode]
    cases c.st.cont <;> rfl
  case ends => rw [stack gone mode, Group.unwind_dead (g := { c.g with live := live }) rfl dead (Nat.lt_succ_self _)]
  case other => rw [stack gone mode, Group.unwind_first (g := { c.g with live := live }) h.look top first left]
  case behind => rw [stack gone mode, Group.unwind_second (g := { c.g with live := live }) h.look top second left]

end Sys2Proof.Machine
